-- ==== Sys2Proof/Word.lean ====
section
/-!
DEFINITION. The words of the Oligrim 12 (R8–R11): the byte, the 32-bit register, the 64-bit pair, the lane mask, and the
plainest operations on them. Addresses of memory cells are natural numbers.
-/

namespace Sys2Proof

/-- One byte of memory. -/
abbrev Byte := BitVec 8

/-- One 32-bit register (R63). -/
abbrev Word := BitVec 32

/-- A 64-bit value, held in a register pair (R11). -/
abbrev DWord := BitVec 64

/-- A set of lanes of one warp: bit n stands for lane n (R60). -/
abbrev Mask := BitVec 32

/-- A register number, v0 to v127 (R63). -/
abbrev Reg := BitVec 7

/-- The low and high halves of a pair: the low half stands in the even register (R11). -/
abbrev lo32 (x : DWord) : Word := x.setWidth 32

abbrev hi32 (x : DWord) : Word := (x >>> 32).setWidth 32

/-- A pair from its low and high halves (R11). -/
abbrev pair (lo hi : Word) : DWord := hi ++ lo

/-- A natural number read as one bit. -/
abbrev bit (x : Nat) (i : Nat) : Bool := x.testBit i

/-- The field [hi:lo] of a number (R9). -/
abbrev field (x hi lo : Nat) : Nat := x / 2 ^ lo % 2 ^ (hi + 1 - lo)

/-- The signed value of the low n bits of x (R13, sext). -/
abbrev sextN (x n : Nat) : Int :=
  if 2 * (x % 2 ^ n) < 2 ^ n then (x % 2 ^ n : Nat) else (x % 2 ^ n : Nat) - (2 ^ n : Nat)

end Sys2Proof
end

