-- ==== Sys2Proof/Syntax.lean ====
section
/-!
DEFINITION. The instructions of the Oligrim 12: one constructor for each row of the table of operations and events. 254
rows are instruction words (R19–R41); the rest are the part's other indivisible steps. An event's data (which core, which
operation, the bytes that arrive) stands in State.ev. The constructors that carry operands come first.
-/

namespace Sys2Proof

/-- Rounding modes (R78). -/
inductive Rm where
  | rne | rz | ru | rd
  deriving DecidableEq, Repr

/-- Access sizes of the sz field (R27): 8 to 128 bits. -/
inductive Sz where
  | b8 | b16 | b32 | b64 | b128
  deriving DecidableEq, Repr

/-- The ord field of format FM (R27). -/
inductive Ord where
  | rlx | acq | rel
  deriving DecidableEq, Repr

/-- The four orders a MOD can give (R39). -/
inductive Order where
  | relaxed | acquire | release | acqRel
  deriving DecidableEq, Repr

/-- Scopes (R27, R233, R322). -/
inductive Scope where
  | block | cluster | package | pod | system | time
  deriving DecidableEq, Repr

/-- The cache hints of LD and ST (R181). -/
inductive Hint where
  | plain | st | l2
  deriving DecidableEq, Repr

/-- Comparison conditions of FCMP and DCMP (R110). -/
inductive Cmp where
  | eq | ne | lt | le | gt | ge | ord | uno
  deriving DecidableEq, Repr

/-- The formats CVT names (R32). -/
inductive NumFmt where
  | f64 | f32 | f16 | bf16 | e4m3 | e5m2 | e2m1 | s32 | u32 | s64 | u64 | s16 | u16 | s8 | u8 | s4
  deriving DecidableEq, Repr

/-- The operations of ATOM, ATOMS and RED (R31, R198). -/
inductive AtomOp where
  | add | and | or | xor | mins | minu | maxs | maxu | xchg | cas | incw | fadd | fmin | fmax | dadd
  deriving DecidableEq, Repr

/-- The kinds of FENCE (R191). -/
inductive FenceKind where
  | full | acq | rel | ss
  deriving DecidableEq, Repr

/-- The conditions of WAITA (R192). -/
inductive WaitCond where
  | ne | eq | ge
  deriving DecidableEq, Repr

/-- The traffic classes of the fabric (R357). -/
inductive Traffic where
  | ordered | adaptive | time | notice
  deriving DecidableEq, Repr

/-- What the home of a stamped store answers (R337). -/
inductive StampedOutcome where
  | applied | rejectedStamp | rejectedLate | dropped
  deriving DecidableEq, Repr

/-- What a request arriving through a window asks of its target (R350, R354). -/
inductive WinOp where
  | write (data : List Byte)
  | read (size : Nat)
  | atom (op : AtomOp) (operand operand2 : DWord) (rm : Rm) (cnan : Bool)
  | red (op : AtomOp) (operand : DWord) (rm : Rm) (fz cn sat : Bool)
  | redTm (words : List Word)
  | ldat (tick : Nat)
  deriving DecidableEq, Repr

/-- The instructions and events, one constructor per row of the table. -/
inductive Instr where
  /-- Adds two registers modulo 2^32 (R96). -/
  | add (b : Reg) (a : Reg) (d : Reg)
  /-- Subtracts vb from va modulo 2^32 (R96). -/
  | sub (b : Reg) (a : Reg) (d : Reg)
  /-- Writes the low 32 bits of the product (R96). -/
  | mul (b : Reg) (a : Reg) (d : Reg)
  /-- Writes the high 32 bits of the unsigned product (R96). -/
  | mulhu (b : Reg) (a : Reg) (d : Reg)
  /-- Writes the high 32 bits of the signed product (R96). -/
  | mulhs (b : Reg) (a : Reg) (d : Reg)
  /-- Writes the low product bits plus vd (R96). -/
  | mad (b : Reg) (a : Reg) (d : Reg)
  /-- Bitwise AND of two registers (R96). -/
  | and (b : Reg) (a : Reg) (d : Reg)
  /-- Bitwise OR of two registers (R96). -/
  | or (b : Reg) (a : Reg) (d : Reg)
  /-- Bitwise XOR of two registers (R96). -/
  | xor (b : Reg) (a : Reg) (d : Reg)
  /-- va AND NOT vb (R96). -/
  | andn (b : Reg) (a : Reg) (d : Reg)
  /-- Shifts va left by vb[4:0] (R96). -/
  | shl (b : Reg) (a : Reg) (d : Reg)
  /-- Logical right shift by vb[4:0] (R96). -/
  | shru (b : Reg) (a : Reg) (d : Reg)
  /-- Arithmetic right shift by vb[4:0] (R96). -/
  | shrs (b : Reg) (a : Reg) (d : Reg)
  /-- Rotates va left by vb[4:0] (R96). -/
  | rotl (b : Reg) (a : Reg) (d : Reg)
  /-- Adds a sign-extended register to a 64-bit address pair (R96). -/
  | addp (b : Reg) (a : Reg) (d : Reg)
  /-- Selects va if vd is non-zero, else vb (R96). -/
  | sel (b : Reg) (a : Reg) (d : Reg)
  /-- Signed minimum (R97). -/
  | mins (b : Reg) (a : Reg) (d : Reg)
  /-- Unsigned minimum (R97). -/
  | minu (b : Reg) (a : Reg) (d : Reg)
  /-- Signed maximum (R97). -/
  | maxs (b : Reg) (a : Reg) (d : Reg)
  /-- Unsigned maximum (R97). -/
  | maxu (b : Reg) (a : Reg) (d : Reg)
  /-- Counts leading zero bits (R97). -/
  | clz (a : Reg) (d : Reg)
  /-- Counts one bits (R97). -/
  | popc (a : Reg) (d : Reg)
  /-- Reverses the bit order (R97). -/
  | brev (a : Reg) (d : Reg)
  /-- Writes 1 when va equals vb (R97). -/
  | cmpeq (b : Reg) (a : Reg) (d : Reg)
  /-- Writes 1 when va differs from vb (R97). -/
  | cmpne (b : Reg) (a : Reg) (d : Reg)
  /-- Signed less-than compare (R97). -/
  | cmplts (b : Reg) (a : Reg) (d : Reg)
  /-- Unsigned less-than compare (R97). -/
  | cmpltu (b : Reg) (a : Reg) (d : Reg)
  /-- Signed less-or-equal compare (R97). -/
  | cmples (b : Reg) (a : Reg) (d : Reg)
  /-- Unsigned less-or-equal compare (R97). -/
  | cmpleu (b : Reg) (a : Reg) (d : Reg)
  /-- Extracts a bit field described by vb (R98). -/
  | bfx (b : Reg) (a : Reg) (d : Reg)
  /-- Inserts a bit field of va into vd (R98). -/
  | bfi (b : Reg) (a : Reg) (d : Reg)
  /-- Adds a sign-extended 11-bit immediate (R99). -/
  | addi (i : BitVec 11) (a : Reg) (d : Reg)
  /-- ANDs a sign-extended immediate (R99). -/
  | andi (i : BitVec 11) (a : Reg) (d : Reg)
  /-- ORs a zero-extended immediate (R99). -/
  | ori (i : BitVec 11) (a : Reg) (d : Reg)
  /-- XORs a zero-extended immediate (R99). -/
  | xori (i : BitVec 11) (a : Reg) (d : Reg)
  /-- Shifts left by an immediate count (R100). -/
  | shli (c : BitVec 5) (a : Reg) (d : Reg)
  /-- Logical right shift by an immediate count (R100). -/
  | shrui (c : BitVec 5) (a : Reg) (d : Reg)
  /-- Arithmetic right shift by an immediate count (R100). -/
  | shrsi (c : BitVec 5) (a : Reg) (d : Reg)
  /-- Rotates left by an immediate count (R100). -/
  | rotli (c : BitVec 5) (a : Reg) (d : Reg)
  /-- Compares for equality with a 9-bit immediate (R101). -/
  | cmpeqi (i : BitVec 9) (a : Reg) (d : Reg)
  /-- Signed less-than compare with an immediate (R101). -/
  | cmpltsi (i : BitVec 9) (a : Reg) (d : Reg)
  /-- Unsigned less-than compare with an immediate (R101). -/
  | cmpltui (i : BitVec 9) (a : Reg) (d : Reg)
  /-- Compares for inequality with an immediate (R101). -/
  | cmpnei (i : BitVec 9) (a : Reg) (d : Reg)
  /-- Adds an immediate to a 64-bit address pair (R103). -/
  | addpi (i : BitVec 11) (a : Reg) (d : Reg)
  /-- Loads an 18-bit immediate shifted left by 14 (R102). -/
  | lui (i : BitVec 18) (d : Reg)
  /-- Writes PC plus a scaled displacement (R42). -/
  | auip (i : BitVec 18) (d : Reg)
  /-- Reads the register whose number va holds (R104). -/
  | movri (a : Reg) (d : Reg)
  /-- Writes va to the register whose number vd holds (R104). -/
  | movro (a : Reg) (d : Reg)
  /-- 16-bit register move (R23). -/
  | mov16 (s : BitVec 5) (d : BitVec 5)
  /-- 16-bit move of a sign-extended 5-bit immediate (R23). -/
  | movi16 (i : BitVec 5) (d : BitVec 5)
  /-- 16-bit two-address ADD (R23). -/
  | add16 (s : BitVec 5) (d : BitVec 5)
  /-- 16-bit ADDI with a 5-bit immediate (R23). -/
  | addi16 (i : BitVec 5) (d : BitVec 5)
  /-- 16-bit two-address SUB (R23). -/
  | sub16 (s : BitVec 5) (d : BitVec 5)
  /-- 16-bit ADDI of the negated immediate (R23). -/
  | subi16 (i : BitVec 5) (d : BitVec 5)
  /-- 16-bit two-address MUL (R23). -/
  | mul16 (s : BitVec 5) (d : BitVec 5)
  /-- 16-bit multiply by a sign-extended immediate (R23). -/
  | muli16 (i : BitVec 5) (d : BitVec 5)
  /-- 16-bit two-address AND (R23). -/
  | and16 (s : BitVec 5) (d : BitVec 5)
  /-- 16-bit ANDI (R23). -/
  | andi16 (i : BitVec 5) (d : BitVec 5)
  /-- 16-bit two-address OR (R23). -/
  | or16 (s : BitVec 5) (d : BitVec 5)
  /-- 16-bit ORI (R23). -/
  | ori16 (i : BitVec 5) (d : BitVec 5)
  /-- 16-bit two-address XOR (R23). -/
  | xor16 (s : BitVec 5) (d : BitVec 5)
  /-- 16-bit XORI (R23). -/
  | xori16 (i : BitVec 5) (d : BitVec 5)
  /-- 16-bit two-address SHL (R23). -/
  | shl16 (s : BitVec 5) (d : BitVec 5)
  /-- 16-bit SHLI with an unsigned count (R23). -/
  | shli16 (c : BitVec 5) (d : BitVec 5)
  /-- 16-bit two-address SHRU (R23). -/
  | shru16 (s : BitVec 5) (d : BitVec 5)
  /-- 16-bit SHRUI (R23). -/
  | shrui16 (c : BitVec 5) (d : BitVec 5)
  /-- 16-bit two-address SHRS (R23). -/
  | shrs16 (s : BitVec 5) (d : BitVec 5)
  /-- 16-bit SHRSI (R23). -/
  | shrsi16 (c : BitVec 5) (d : BitVec 5)
  /-- 16-bit two-address MINS (R23). -/
  | mins16 (s : BitVec 5) (d : BitVec 5)
  /-- 16-bit signed minimum with an immediate (R23). -/
  | minsi16 (i : BitVec 5) (d : BitVec 5)
  /-- 16-bit two-address MAXS (R23). -/
  | maxs16 (s : BitVec 5) (d : BitVec 5)
  /-- 16-bit signed maximum with an immediate (R23). -/
  | maxsi16 (i : BitVec 5) (d : BitVec 5)
  /-- 16-bit two-address FADD (R23). -/
  | fadd16 (s : BitVec 5) (d : BitVec 5)
  /-- 16-bit two-address FSUB (R23). -/
  | fsub16 (s : BitVec 5) (d : BitVec 5)
  /-- 16-bit two-address FMUL (R23). -/
  | fmul16 (s : BitVec 5) (d : BitVec 5)
  /-- 16-bit two-address FMAX (R23). -/
  | fmax16 (s : BitVec 5) (d : BitVec 5)
  /-- FP32 add, rounded once (R106). -/
  | fadd (b : Reg) (a : Reg) (d : Reg)
  /-- FP32 subtract, rounded once (R106). -/
  | fsub (b : Reg) (a : Reg) (d : Reg)
  /-- FP32 multiply, rounded once (R106). -/
  | fmul (b : Reg) (a : Reg) (d : Reg)
  /-- FP32 fused a*b+d (R106). -/
  | ffma (b : Reg) (a : Reg) (d : Reg)
  /-- FP32 fused a*b-d (R106). -/
  | ffms (b : Reg) (a : Reg) (d : Reg)
  /-- FP32 fused d-a*b (R106). -/
  | fnfma (b : Reg) (a : Reg) (d : Reg)
  /-- FP32 minimumNumber (R107). -/
  | fmin (b : Reg) (a : Reg) (d : Reg)
  /-- FP32 maximumNumber (R107). -/
  | fmax (b : Reg) (a : Reg) (d : Reg)
  /-- Rounds FP32 to an integral value (R108). -/
  | frnd (a : Reg) (d : Reg)
  /-- Classifies an FP32 value into a one-hot mask (R108). -/
  | fcls (a : Reg) (d : Reg)
  /-- Scales FP32 by block-scale byte 0 of vb (R109). -/
  | fscalebB0 (b : Reg) (a : Reg) (d : Reg)
  /-- Scales FP32 by block-scale byte 1 of vb (R109). -/
  | fscalebB1 (b : Reg) (a : Reg) (d : Reg)
  /-- Scales FP32 by block-scale byte 2 of vb (R109). -/
  | fscalebB2 (b : Reg) (a : Reg) (d : Reg)
  /-- Scales FP32 by block-scale byte 3 of vb (R109). -/
  | fscalebB3 (b : Reg) (a : Reg) (d : Reg)
  /-- Clears the FP32 sign bit (R106). -/
  | fabs (a : Reg) (d : Reg)
  /-- Flips the FP32 sign bit (R106). -/
  | fneg (a : Reg) (d : Reg)
  /-- FP32 compare by condition code, quiet or signalling (R110). -/
  | fcmp (cc : Cmp) (sig : Bool) (b a d : Reg)
  /-- FP64 compare by condition code (R110). -/
  | dcmp (cc : Cmp) (sig : Bool) (b a d : Reg)
  /-- FP64 add (R111). -/
  | dadd (b : Reg) (a : Reg) (d : Reg)
  /-- FP64 subtract (R111). -/
  | dsub (b : Reg) (a : Reg) (d : Reg)
  /-- FP64 multiply (R111). -/
  | dmul (b : Reg) (a : Reg) (d : Reg)
  /-- FP64 fused multiply-add (R111). -/
  | dfma (b : Reg) (a : Reg) (d : Reg)
  /-- FP64 minimumNumber (R111). -/
  | dmin (b : Reg) (a : Reg) (d : Reg)
  /-- FP64 maximumNumber (R111). -/
  | dmax (b : Reg) (a : Reg) (d : Reg)
  /-- Rounds FP64 to an integral value (R111). -/
  | drnd (a : Reg) (d : Reg)
  /-- Clears bit 63 of an FP64 pair (R111). -/
  | dabs (a : Reg) (d : Reg)
  /-- Flips bit 63 of an FP64 pair (R111). -/
  | dneg (a : Reg) (d : Reg)
  /-- Packed FP16 add (R112). -/
  | hadd2 (b : Reg) (a : Reg) (d : Reg)
  /-- Packed FP16 subtract (R112). -/
  | hsub2 (b : Reg) (a : Reg) (d : Reg)
  /-- Packed FP16 multiply (R112). -/
  | hmul2 (b : Reg) (a : Reg) (d : Reg)
  /-- Packed FP16 fused multiply-add (R112). -/
  | hfma2 (b : Reg) (a : Reg) (d : Reg)
  /-- Packed FP16 minimum (R112). -/
  | hmin2 (b : Reg) (a : Reg) (d : Reg)
  /-- Packed FP16 maximum (R112). -/
  | hmax2 (b : Reg) (a : Reg) (d : Reg)
  /-- Packed BF16 add (R112). -/
  | badd2 (b : Reg) (a : Reg) (d : Reg)
  /-- Packed BF16 subtract (R112). -/
  | bsub2 (b : Reg) (a : Reg) (d : Reg)
  /-- Packed BF16 multiply (R112). -/
  | bmul2 (b : Reg) (a : Reg) (d : Reg)
  /-- Packed BF16 fused multiply-add (R112). -/
  | bfma2 (b : Reg) (a : Reg) (d : Reg)
  /-- Packed BF16 minimum (R112). -/
  | bmin2 (b : Reg) (a : Reg) (d : Reg)
  /-- Packed BF16 maximum (R112). -/
  | bmax2 (b : Reg) (a : Reg) (d : Reg)
  /-- Converts between number formats with optional saturation (R114). -/
  | cvt (t : Bool) (r : Rm) (c : NumFmt) (e : NumFmt) (a : Reg) (d : Reg)
  /-- Four-way S8 dot product accumulated into S32 (R90). -/
  | dot8S8 (b : Reg) (a : Reg) (d : Reg)
  /-- Four-way U8 dot product accumulated into U32 (R90). -/
  | dot8U8 (b : Reg) (a : Reg) (d : Reg)
  /-- Four-way E4M3 exact dot product into FP32 (R90). -/
  | dot8E4m3 (b : Reg) (a : Reg) (d : Reg)
  /-- Four-way E5M2 exact dot product into FP32 (R90). -/
  | dot8E5m2 (b : Reg) (a : Reg) (d : Reg)
  /-- Eight-way S4 dot product into S32 (R90). -/
  | dot4S4 (b : Reg) (a : Reg) (d : Reg)
  /-- Eight-way E2M1 exact dot product into FP32 (R90). -/
  | dot4E2m1 (b : Reg) (a : Reg) (d : Reg)
  /-- Approximate FP32 reciprocal (R120). -/
  | frcp (L : BitVec 4) (a : Reg) (d : Reg)
  /-- Approximate FP32 reciprocal square root (R120). -/
  | frsq (L : BitVec 4) (a : Reg) (d : Reg)
  /-- Approximate FP32 square root (R120). -/
  | fsqrt (L : BitVec 4) (a : Reg) (d : Reg)
  /-- Approximate FP32 base-2 exponential (R120). -/
  | fexp2 (L : BitVec 4) (a : Reg) (d : Reg)
  /-- Approximate FP32 base-2 logarithm (R120). -/
  | flog2 (L : BitVec 4) (a : Reg) (d : Reg)
  /-- Approximate FP32 sine (R120). -/
  | fsin (L : BitVec 4) (a : Reg) (d : Reg)
  /-- Approximate FP32 cosine (R120). -/
  | fcos (L : BitVec 4) (a : Reg) (d : Reg)
  /-- Approximate FP32 hyperbolic tangent (R120). -/
  | ftanh (L : BitVec 4) (a : Reg) (d : Reg)
  /-- Correctly rounded FP32 reciprocal (R120). -/
  | frcpCr (r : Rm) (L : BitVec 4) (a : Reg) (d : Reg)
  /-- Correctly rounded FP32 reciprocal square root (R120). -/
  | frsqCr (r : Rm) (L : BitVec 4) (a : Reg) (d : Reg)
  /-- Correctly rounded FP32 square root (R120). -/
  | fsqrtCr (r : Rm) (L : BitVec 4) (a : Reg) (d : Reg)
  /-- Correctly rounded FP64 reciprocal (R120). -/
  | drcp (r : Rm) (L : BitVec 4) (a : Reg) (d : Reg)
  /-- Correctly rounded FP64 reciprocal square root (R120). -/
  | drsq (r : Rm) (L : BitVec 4) (a : Reg) (d : Reg)
  /-- Correctly rounded FP64 square root (R120). -/
  | dsqrt (r : Rm) (L : BitVec 4) (a : Reg) (d : Reg)
  /-- Reads va from the tile lane base plus vb (R126). -/
  | shfl (b : Reg) (a : Reg) (d : Reg)
  /-- Reads va from lane minus vb (R126). -/
  | shfllo (b : Reg) (a : Reg) (d : Reg)
  /-- Reads va from lane plus vb (R126). -/
  | shflhi (b : Reg) (a : Reg) (d : Reg)
  /-- Reads va from lane XOR vb (R126). -/
  | shflx (b : Reg) (a : Reg) (d : Reg)
  /-- Broadcasts va from the lane named by the lowest active lane's vb (R126). -/
  | bcast (b : Reg) (a : Reg) (d : Reg)
  /-- Writes 1 if any usable lane votes true (R127). -/
  | voteAny (a : Reg) (d : Reg)
  /-- Writes 1 if every usable lane votes true (R127). -/
  | voteAll (a : Reg) (d : Reg)
  /-- Writes the ballot mask of usable lanes voting true (R127). -/
  | voteBal (a : Reg) (d : Reg)
  /-- Mask of usable lanes with bitwise equal va (R128). -/
  | matchB (a : Reg) (d : Reg)
  /-- Mask of usable lanes with va in the same FP class (R128). -/
  | matchF (a : Reg) (d : Reg)
  /-- Integer sum over usable lanes (R129). -/
  | redwAdd (a : Reg) (d : Reg)
  /-- Signed minimum over usable lanes (R129). -/
  | redwMin (a : Reg) (d : Reg)
  /-- Signed maximum over usable lanes (R129). -/
  | redwMax (a : Reg) (d : Reg)
  /-- Inclusive integer scan over usable lanes (R129). -/
  | scanwAdd (a : Reg) (d : Reg)
  /-- Sets the warp's tile size and returns the old PARTN (R130). -/
  | tilep (s : BitVec 7) (d : Reg)
  /-- Swaps with lane XOR 1 in the quad (R132). -/
  | qswpH (a : Reg) (d : Reg)
  /-- Swaps with lane XOR 2 in the quad (R132). -/
  | qswpV (a : Reg) (d : Reg)
  /-- Swaps with lane XOR 3 in the quad (R132). -/
  | qswpD (a : Reg) (d : Reg)
  /-- Broadcasts from quad lane n (R132). -/
  | qbcast (n : BitVec 7) (a : Reg) (d : Reg)
  /-- Integer sum over usable quad lanes (R133). -/
  | qredAdd (a : Reg) (d : Reg)
  /-- Signed minimum over usable quad lanes (R133). -/
  | qredMin (a : Reg) (d : Reg)
  /-- Signed maximum over usable quad lanes (R133). -/
  | qredMax (a : Reg) (d : Reg)
  /-- FP32 butterfly sum over the tile (R134). -/
  | fredwAdd (a : Reg) (d : Reg)
  /-- FP32 butterfly minimum over the tile (R134). -/
  | fredwMin (a : Reg) (d : Reg)
  /-- FP32 butterfly maximum over the tile (R134). -/
  | fredwMax (a : Reg) (d : Reg)
  /-- Writes an empty partial (R269). -/
  | tmclr (L : BitVec 4) (d : Reg)
  /-- Forms the partial of f(x) with n = 1 (R264). -/
  | tment (L : BitVec 4) (a : Reg) (d : Reg)
  /-- Merges the entry of x into a partial (R269). -/
  | tmacc (L : BitVec 4) (a : Reg) (d : Reg)
  /-- Merges two partials (R265). -/
  | tmmrg (L : BitVec 4) (a : Reg) (d : Reg)
  /-- Merges the partials of the tile by butterfly (R271). -/
  | tmredw (L : BitVec 4) (d : Reg)
  /-- Turns a partial into an FP32 mean (R266). -/
  | tmexit (L : BitVec 4) (a : Reg) (d : Reg)
  /-- Accepts a load of a transformed-mean table pair into slot s (R268). -/
  | tmld (L : BitVec 4) (s : BitVec 3) (a : Reg) (d : Reg)
  /-- Loads 8 to 128 bits from memory, relaxed or acquire (R187). -/
  | ld (o : Ord) (k : Hint) (L : BitVec 4) (z : Sz) (a : Reg) (d : Reg)
  /-- Stores 8 to 128 bits to memory, relaxed or release (R187). -/
  | st (o : Ord) (k : Hint) (L : BitVec 4) (z : Sz) (a : Reg) (d : Reg)
  /-- Plain scratchpad load (R188). -/
  | lds (L : BitVec 4) (z : Sz) (a : Reg) (d : Reg)
  /-- Waits for a full word, reads it and marks it empty (R167). -/
  | ldsSync (L : BitVec 4) (a : Reg) (d : Reg)
  /-- Reads a word and its full/empty bit (R167). -/
  | ldsPeek (L : BitVec 4) (a : Reg) (d : Reg)
  /-- Plain scratchpad store (R188). -/
  | sts (L : BitVec 4) (z : Sz) (a : Reg) (d : Reg)
  /-- Waits for an empty word, writes it and marks it full (R167). -/
  | stsSync (L : BitVec 4) (a : Reg) (d : Reg)
  /-- Writes a word and marks it full (R167). -/
  | stsFill (L : BitVec 4) (a : Reg) (d : Reg)
  /-- Marks a word empty without writing it (R167). -/
  | stsEmpty (L : BitVec 4) (a : Reg)
  /-- Reads a tile element by coordinates through a record slot (R189). -/
  | ldx (h : Bool) (L : BitVec 4) (s : BitVec 4) (a : Reg) (d : Reg)
  /-- Writes a tile element by coordinates through a record slot (R189). -/
  | stx (h : Bool) (L : BitVec 4) (s : BitVec 4) (a : Reg) (d : Reg)
  /-- Prefetches a line into L1 or L2 (R190). -/
  | pref (k : Bool) (a : Reg)
  /-- Orders the thread's accesses by kind and scope, with optional engine bit (R191). -/
  | fence (e : Bool) (k : FenceKind) (s : Scope)
  /-- Waits until a memory or scratchpad word meets a condition (R192). -/
  | waita (o : Bool) (k : WaitCond) (z : Bool) (a : Reg) (d : Reg)
  /-- Adds to a barrier object with saturation (R193). -/
  | bsig (b : Reg) (a : Reg)
  /-- Waits until a barrier object reaches a threshold (R193). -/
  | bwait (b : Reg) (a : Reg)
  /-- Reads a barrier object (R193). -/
  | brdc (a : Reg) (d : Reg)
  /-- Waits until an engine counter class falls to n and reports due deferred faults (R173). -/
  | waitc (c : BitVec 3) (n : BitVec 6)
  /-- Atomic read-modify-write on memory returning the old value (R198). -/
  | atom (L : BitVec 4) (ar : Bool) (sc : BitVec 2) (o : AtomOp) (a d : Reg)
  /-- Reduction on memory without a return value (R199). -/
  | red (L : BitVec 4) (sat cn fz : Bool) (o : AtomOp) (a d : Reg)
  /-- Sends a partial to be merged into a memory partial at its home vat (R273). -/
  | redTm (L : BitVec 4) (a : Reg) (d : Reg)
  /-- Atomic read-modify-write on a scratchpad word (R198). -/
  | atoms (L : BitVec 4) (ar : Bool) (sc : BitVec 2) (o : AtomOp) (a d : Reg)
  /-- Unconditional relative branch (R136). -/
  | bra (d : BitVec 21)
  /-- Branches when vp is zero (R136). -/
  | bz (d : BitVec 17) (p : Reg)
  /-- Branches when vp is non-zero (R136). -/
  | bnz (d : BitVec 17) (p : Reg)
  /-- Writes the return PC and jumps (R137). -/
  | call (i : BitVec 18) (d : Reg)
  /-- Jumps to the code pointer in va (R137). -/
  | ret (a : Reg)
  /-- Jumps through a checked jump table to a landing pad (R139). -/
  | jtab (b : Reg) (a : Reg)
  /-- Calls through a checked jump table (R139). -/
  | callt (b : Reg) (a : Reg) (d : Reg)
  /-- Raises the TRAP cause with va in the address fields (R145). -/
  | trap (a : Reg)
  /-- Landing pad; changes no state and closes windows (R141). -/
  | lpad (l : BitVec 25)
  /-- Sets the meeting address and returns the old MEETV (R142). -/
  | meet (i : BitVec 18) (d : Reg)
  /-- Enters another domain through a checked gate (R252). -/
  | gcall (n : BitVec 11)
  /-- Reads the deckle's early and late edges (R331). -/
  | timei (d : Reg)
  /-- Waits until E exceeds a tick (R331). -/
  | commitw (a : Reg)
  /-- Takes a stamp and accepts a held stamped store (R329). -/
  | stst (L : BitVec 4) (a : Reg) (d : Reg)
  /-- Reads a stamped record as it stood at a tick (R330). -/
  | ldat (L : BitVec 4) (a : Reg) (d : Reg)
  /-- Accepts a bulk copy command (R370). -/
  | cpy (L : BitVec 4) (a : Reg) (d : Reg)
  /-- Accepts a copy from memory into a tile interior (R370). -/
  | cpytIn (L : BitVec 4) (a : Reg) (d : Reg)
  /-- Accepts a copy from a tile interior to memory (R370). -/
  | cpytOut (L : BitVec 4) (a : Reg) (d : Reg)
  /-- Accepts a push of a tile's halo strips with a release at cluster scope (R365). -/
  | halo (L : BitVec 4) (a : Reg) (d : Reg)
  /-- Sends a window write to another package (R352). -/
  | wstr (L : BitVec 4) (s : Sz) (a : Reg) (d : Reg)
  /-- Sends a window read to another package (R352). -/
  | wget (L : BitVec 4) (s : Sz) (a : Reg) (d : Reg)
  /-- Reads a window's acknowledged or landed counter (R353). -/
  | wcnt (L : BitVec 4) (c : Bool) (a : Reg) (d : Reg)
  /-- Waits until a window counter reaches a threshold (R353). -/
  | wwait (q : Bool) (c : Bool) (a : Reg) (d : Reg)
  /-- Accepts a matrix product into an accumulator tile (R213). -/
  | mloop (L : BitVec 4) (s : BitVec 2) (a : Reg) (d : Reg)
  /-- Accepts a load of B into the mould store (R204). -/
  | mldb (L : BitVec 4) (a : Reg) (d : Reg)
  /-- Reads a final row of an accumulator tile (R215). -/
  | mrd (L : BitVec 4) (t : BitVec 2) (a : Reg) (d : Reg)
  /-- Reads a tile's watermark (R216). -/
  | mwm (L : BitVec 4) (t : BitVec 2) (d : Reg)
  /-- Reserves and zeroes an accumulator tile (R217). -/
  | mzero (L : BitVec 4) (t : BitVec 2)
  /-- Releases an accumulator tile (R217). -/
  | mrel (L : BitVec 4) (t : BitVec 2)
  /-- Mixes a 64-bit counter with a key (R384). -/
  | rndm (b : Reg) (a : Reg) (d : Reg)
  /-- Reads a special register (R303). -/
  | srd (r : BitVec 11) (d : Reg)
  /-- Writes a special register (R303). -/
  | swr (r : BitVec 11) (d : Reg)
  /-- Invalidates translations of a range across the partition (R306). -/
  | tlbinv (b : Reg) (a : Reg)
  /-- Invalidates cached ROT results, moving homes where the entry changed (R306). -/
  | rotinv (b : Reg) (a : Reg)
  /-- Compares a stored manifest with the present one (R386). -/
  | cmpman (a : Reg) (d : Reg)
  /-- Checks a launch record and queues it (R224). -/
  | lnch (a : Reg) (d : Reg)
  /-- Takes a checkpoint of a domain now (R308). -/
  | chkpTake (a : Reg) (d : Reg)
  /-- Pre-empts a domain (R308). -/
  | chkpPreempt (a : Reg) (d : Reg)
  /-- Resumes a pre-empted domain from its image (R260). -/
  | chkpResume (a : Reg) (d : Reg)
  /-- Stops a control-core thread until a fault post, mailbox store or tick (R309). -/
  | halt (a : Reg)
  /-- Invalidates instruction-cache lines after performing earlier stores (R307). -/
  | icinv (b : Reg) (a : Reg)
  /-- Reads a tile-layout record into eight registers (R196). -/
  | tlrwRd (n : BitVec 7) (d : Reg)
  /-- Writes a tile-layout record from eight registers (R196). -/
  | tlrwWr (n : BitVec 7) (d : Reg)
  /-- Repeat prefix stepping register fields over count repeats (R38). -/
  | repPfx (s : BitVec 2) (x : Bool) (y : Bool) (z : Bool) (c : BitVec 6)
  /-- Modifier prefix overriding rounding, FTZ, order or scope (R40). -/
  | modPfx (f : Bool) (z : Bool) (u : Bool) (r : BitVec 2) (o : Bool) (p : BitVec 2) (q : Bool) (e : BitVec 3)
  /-- COMPAT signed divide emulated by the routine (R387). -/
  | divs (b : Reg) (a : Reg) (d : Reg)
  /-- COMPAT unsigned divide (R387). -/
  | divu (b : Reg) (a : Reg) (d : Reg)
  /-- COMPAT signed remainder (R387). -/
  | rems (b : Reg) (a : Reg) (d : Reg)
  /-- COMPAT unsigned remainder (R387). -/
  | remu (b : Reg) (a : Reg) (d : Reg)
  /-- COMPAT byte permutation (R387). -/
  | byteperm (b : Reg) (a : Reg) (d : Reg)
  /-- COMPAT load from the launch data image (R387). -/
  | ldc32 (L : BitVec 4) (a : Reg) (d : Reg)
  /-- A special-function result is written, closing its lookahead window or stopping the lane on an enabled exception (R122). -/
  | sfuComplete
  /-- Waits for the bundle's earlier loads and orders later accesses after them (R131). -/
  | wfence
  /-- The table pair is read and the slot replaced or made invalid; CNT7 falls (R268). -/
  | tmldApply
  /-- A load's value arrives and its destination registers are written (R33). -/
  | loadReturn
  /-- After 4,096 arithmetic cycles a sleeping monitor's lanes recheck their word (R169). -/
  | monitorTimeout
  /-- Block barrier over all non-exited threads (R194). -/
  | syncb
  /-- An atomic's old value and flags arrive at the issuing lane (R198). -/
  | atomReturn
  /-- Ends the thread irrevocably (R143). -/
  | exit
  /-- Lets other ready bundles of the domain issue first (R144). -/
  | yield
  /-- Changes no state (R144). -/
  | nop
  /-- Raises the BRK cause with return at its own PC (R145). -/
  | brk
  /-- Returns from a gate call, restoring the frame (R253). -/
  | gret
  /-- The arbiter grants one MLOOP step or MLDB block pass, raising watermarks as rows become final (R201). -/
  | matrixPass
  /-- Every mould-store element of an MLDB is written and CNT1 falls (R204). -/
  | mldbComplete
  /-- Row 63 becomes final, flags are delivered and CNT1 falls (R213). -/
  | mloopComplete
  /-- A PAGE, ROT or DOMAIN while an accepted MLDB or MLOOP reads memory stops the command and is posted (R218). -/
  | matrixFault
  /-- Returns from a handler to the trap PC (R305). -/
  | eret0
  /-- Returns from a handler past the faulting instruction (R305). -/
  | eret1
  /-- Acquires the pair's extended register set (R67). -/
  | xlock
  /-- Releases the extended set, waking a waiting sibling (R67). -/
  | xunlk
  /-- Waits until the warp's record writes are applied in the record cache (R197). -/
  | tfence
  /-- COMPAT block barrier acting as SYNCB (R387). -/
  | barsync
  /-- At each 4-cycle boundary, bundles at the same PC and remaining count merge (R55). -/
  | bundleRegroup
  /-- At the end of a collection interval the warp stops issuing and trapping lanes are delivered (R87). -/
  | fpxWindowEnd
  /-- After the warp stops, a user-class cause enters the launch's handler with a frame saved (R294). -/
  | userTrapDelivery
  /-- A supervisor-class cause suspends the warp and a record is posted to the fault queue when room exists (R296). -/
  | faultRecordPost
  /-- A table walk finishes and translation is cached or faults (R282). -/
  | pageWalkComplete
  /-- Resumes a suspended warp at the record's PC, replaying a held access (R298). -/
  | tstatResume
  /-- Resumes a suspended warp past the faulting instruction, discarding a held access (R298). -/
  | tstatSkip
  /-- Delivers a chosen user-class cause to the suspended warp (R298). -/
  | tstatDeliver
  /-- Ends the suspended warp's launch with status ABORTED (R298). -/
  | tstatEndLaunch
  /-- Consumes fault records, letting held records post (R296). -/
  | fqheadWrite
  /-- Configures the fault queue size, letting held records post (R293). -/
  | fqsizeWrite
  /-- SWR MEETV may park the thread or release a meeting group (R54). -/
  | meetvWrite
  /-- Configures a domain slot, refused on conflicts or residents (R246). -/
  | dpartWrite
  /-- Defines or removes a partition, initialising its engine ownership entry (R276). -/
  | partcfgWrite
  /-- Writes an ownership entry's budget and resets its balance (R279). -/
  | eothiWrite
  /-- Announces a new EPSMAX pod-wide with an effective tick (R335). -/
  | epsmaxsetWrite
  /-- Announces a new delivery bound D pod-wide with an effective tick (R335). -/
  | dlvbsetWrite
  /-- Ends a dirty-log round, clearing MIGCNT and OVF and flipping BSEL (R400). -/
  | migctlSwitch
  /-- Writes a register that has no behaviour of its own, through SWR or a register or configuration page (R303). -/
  | registerWrite
  /-- Engine, RED or vat flags reach a lane's FPFLAGS or its saved pending-flag word (R300). -/
  | asyncFlagArrival
  /-- A dirty L1 line is written back no later than 4,096 cycles after it became dirty (R182). -/
  | dirtyLineWriteback
  /-- A home bank applies a write, write-back or forwarded request, logging felt and mirrors (R312). -/
  | homeApply
  /-- A home vat applies an atomic, reduction, barrier operation or partial merge (R313). -/
  | vatApply
  /-- A router combines two compatible requests into one (R314). -/
  | routerMerge
  /-- A dual-homed page is copied from the old home to the new in the background (R320). -/
  | dualBackgroundCopy
  /-- When room or eligibility appears, the dispatcher places the next blocks of the highest-priority head (R226). -/
  | dispatchPlace
  /-- Once all lanes have exited and operations completed, the warp's resources are returned (R143). -/
  | warpEnd
  /-- After all blocks end and stores perform, the status is written and doneaddr signalled (R227). -/
  | launchComplete
  /-- The next unit of a serial re-execution starts after the previous has ended (R382). -/
  | serialUnitStart
  /-- A serial unit idle for STALL x 1,024 ticks ends the re-execution as STALLED (R382). -/
  | serialStall
  /-- E reaches a multiple of an interval and the domain's issue is stopped (R257). -/
  | checkpointDue
  /-- After its operations complete, the domain's image is updated and issue resumes (R257). -/
  | checkpointSave
  /-- After draining, the felt is undone and the domain leaves issue at its checkpoint (R259). -/
  | preemptRollback
  /-- After draining, the domain's state is saved as a new checkpoint and it leaves issue (R259). -/
  | preemptDrain
  /-- A free engine takes the first queued command whose owner has positive balance (R373). -/
  | copyEngineStart
  /-- At the end of a unit with the balance exhausted the command is suspended (R373). -/
  | budgetSuspend
  /-- A lower-priority command is suspended at a unit end for a waiting higher one (R373). -/
  | priorityTakeover
  /-- At every multiple of 1,000,000 ticks each balance is refilled up to its budget (R279). -/
  | budgetRefill
  /-- All destination bytes are done; the completion word is written and the counter falls (R372). -/
  | copyComplete
  /-- A fault at a page stops a copy command at its unit and posts it (R374). -/
  | enginePageFault
  /-- Every 1,024 ticks each port sends a time-exchange beat (R333). -/
  | timeBeatSend
  /-- A received beat offers a candidate that may be accepted into C and epsilon (R333). -/
  | timeBeatReceive
  /-- A reference package's servo first states a bound within EPSMAX and FAIL clears (R334). -/
  | referenceLock
  /-- The oscillator monitor or conflicting candidates set FAIL and send a notice (R342). -/
  | deckleFail
  /-- No beat from a neighbour for 65,536 ticks sends a notice naming it (R342). -/
  | neighbourSilence
  /-- A received exclusion notice marks a package excluded (R344). -/
  | timeExclusionNotice
  /-- After 1,000,000 good ticks a failed package clears FAIL and sends a rejoin notice (R344). -/
  | rejoin
  /-- A received rejoin notice ends a package's exclusion (R344). -/
  | rejoinNotice
  /-- A received EPSMAX or DLVB change notice is recorded with its effective tick (R335). -/
  | paramNotice
  /-- When E passes the effective tick the new parameter takes force (R335). -/
  | paramSwitch
  /-- E exceeds a stamped store's stamp and it leaves in class TIME (R329). -/
  | ststHoldEnd
  /-- A stamped store arrives at its home and is inserted or rejected (R337). -/
  | stampedArrival
  /-- A waiting LDAT's E passes t plus the closing delay and the record is read (R341). -/
  | ldatServe
  /-- A window request arrives at its target and is applied or refused (R350). -/
  | windowRequestArrival
  /-- A refusal notice returns to the source, defer-reporting WINDOW (R350). -/
  | windowRefusal
  /-- A landed write's acknowledgement raises the source's counter and frees held accesses (R351). -/
  | windowAck
  /-- A window read's value returns and its destination is written (R352). -/
  | windowReadReturn
  /-- A flit failing CRC is retried on its link (R361). -/
  | flitCrcFail
  /-- A port loses lock or exhausts retries; flits reroute and a notice is sent (R361). -/
  | linkDown
  /-- A port of the package comes up and is logged (R393). -/
  | portUp
  /-- A received link-failure notice is logged (R361). -/
  | linkFailureNotice
  /-- A host posted write to a mailbox page performs as a system-scope store (R362). -/
  | hostMailboxWrite
  /-- A host read of partition memory returns values from the homes (R362). -/
  | hostRead
  /-- The management element verifies firmware and images and starts the hypervisor (R388). -/
  | powerOnBoot
  /-- A system image handed over is verified, measured and started on the control cores (R388). -/
  | partitionImageStart
  /-- Returns a signed attestation quote for a partition (R389). -/
  | quote
  /-- Returns a partition's present manifest (R392). -/
  | manifest
  /-- Returns routing entries from a bank (R392). -/
  | rtread
  /-- Writes routing entries into the idle drained bank (R392). -/
  | rtwrite
  /-- Flips the active routing bank (R360). -/
  | rtflip
  /-- Returns routing selector, port state and key-miss counts (R392). -/
  | fabstat
  /-- Returns entries of the notice log (R393). -/
  | notices
  /-- Opens a maintenance window for idle partitions (R392). -/
  | maintopen
  /-- Re-plans margins, updates the manifest and closes the window (R395). -/
  | maintclose
  /-- A REQ write with an unknown code is refused (R391). -/
  | reqUnknownCommand
  /-- An idle partition enters the deepest state its LATTOL allows (R397). -/
  | partitionSleep
  /-- A mailbox store, LNCH, request or configuration write starts an exit (R398). -/
  | partitionWakeEvent
  /-- Exit latency ends and held requests are released in order (R398). -/
  | wakeComplete
  /-- Each 100 us the governor lowers or raises the arithmetic clock (R396). -/
  | powerGovernor
  /-- A region's timing margin falls below its floor and its clock stretches (R394). -/
  | marginLow
  /-- A patrol scrub pass corrects or detects errors in mould stores or DRAM (R399). -/
  | patrolScrub
  /-- An uncorrectable error stops the owning partition and its launches are aborted (R399). -/
  | machineCheck
  /-- Issuing an instruction word that names nothing raises ILLEGAL precisely with no effect (R43). -/
  | illegalEncoding
  /-- A fetch of an instruction halfword outside the code segment raises PAGE at the PC (R20). -/
  | fetchPageFault
  /-- Each tick the deckle steps C, updates the held edges E and L and grows candidate bounds by drift, completing COMMITW and HALT waits on time (R332). -/
  | deckleTick
  /-- A reference package's IEEE 1588 servo states a new time and bound that may be accepted as its candidate (R333). -/
  | servoCandidate
  /-- The home's applied, rejected or dropped outcome of a stamped store reaches the sender, lowering CNT5 and defer-reporting STAMP or LATE (R337). -/
  | stampedStoreOutcome
  /-- A TMCLR, TMENT, TMACC, TMMRG, TMREDW or TMEXIT writes its destination, closing its lookahead window or stopping the lane on an enabled exception (R269). -/
  | tmResultWritten
  /-- A write of FQBASELO or FQBASEHI may make the fault queue valid, letting held records post (R293). -/
  | fqbaseWrite
  /-- A packet arriving at a package that is not its destination is routed on by its bank's port mask, or dropped with a refusal when the mask is empty (R359). -/
  | packetHop
  deriving DecidableEq, Repr

end Sys2Proof
end

