-- ==== Sys2Proof/WellFormed.lean ====
section
/-!
DEFINITION. Which instructions are well formed: the operand limits of R27–R32 and of the class chapters that a word alone
decides. A word whose instruction is not well formed raises ILLEGAL (R28, R43).
-/

namespace Sys2Proof

/-- A register that names a pair must be even (R28). -/
def evenReg (r : Reg) : Bool := r.toNat % 2 == 0

/-- A register that names an aligned group of n (R28, R196, R241). -/
def alignedReg (n : Nat) (r : Reg) : Bool := r.toNat % n == 0

/-- The data register of an access of a size: even for a pair or a group of four, which must end at v127 (R28, R179). -/
def dataReg (z : Sz) (r : Reg) : Bool :=
  match z with
  | .b64 => evenReg r
  | .b128 => evenReg r && decide (r.toNat + 3 ≤ 127)
  | _ => true

/-- FP64, S64 and U64 occupy a pair (R113). -/
def NumFmt.wide : NumFmt → Bool
  | .f64 | .s64 | .u64 => true
  | _ => false

/-- Floating-point formats (R32, R71). -/
def NumFmt.isFloat : NumFmt → Bool
  | .f64 | .f32 | .f16 | .bf16 | .e4m3 | .e5m2 | .e2m1 => true
  | _ => false

/-- The register of a CVT operand (R113). -/
def cvtReg (f : NumFmt) (r : Reg) : Bool := !f.wide || evenReg r

/-- The operations of an atomic on FP values (R198). -/
def AtomOp.isFloat : AtomOp → Bool
  | .fadd | .fmin | .fmax | .dadd => true
  | _ => false

/-- The operand register of an atomic: an even one for CAS and DADD (R198). -/
def atomReg (o : AtomOp) (d : Reg) : Bool :=
  match o with
  | .cas | .dadd => evenReg d
  | _ => true

/-- The control field of RED (R199). -/
def redControl (o : AtomOp) (sat cn fz : Bool) : Bool :=
  match o with
  | .xchg | .cas => false
  | .add => !cn && !fz
  | .fadd | .dadd => true
  | .fmin | .fmax => !sat
  | _ => !sat && !cn && !fz

/-- MOD: a field whose valid bit is clear is zero, some valid bit is set, and the scope is block to system (R39, R40). -/
def modWf (f z u : Bool) (r : BitVec 2) (o : Bool) (p : BitVec 2) (q : Bool) (e : BitVec 3) : Bool :=
  (f || u || o || q) && (f || !z) && (u || r == 0) && (o || p == 0) && (q || e == 0) && decide (e.toNat < 5)

/-- Well-formed instructions. -/
def Instr.wf : Instr → Bool
  | .addp _ a d | .addpi _ a d => evenReg a && evenReg d
  | .dcmp _ _ b a _ => evenReg a && evenReg b
  | .dadd b a d | .dsub b a d | .dmul b a d | .dfma b a d | .dmin b a d | .dmax b a d =>
    evenReg d && evenReg a && evenReg b
  | .drnd a d | .dabs a d | .dneg a d => evenReg a && evenReg d
  | .cvt _ r c e a d =>
    (c != e) && (c.isFloat || e.isFloat || r == .rne) && cvtReg c a && cvtReg e d
  | .drcp _ _ a d | .drsq _ _ a d | .dsqrt _ _ a d => evenReg a && evenReg d
  | .tilep s _ => decide (1 ≤ s.toNat) && decide (s.toNat ≤ 5)
  | .qbcast n _ _ => decide (n.toNat < 4)
  | .tmclr _ d | .tmredw _ d => alignedReg 4 d
  | .tment _ _ d | .tmacc _ _ d => alignedReg 4 d
  | .tmmrg _ a d => alignedReg 4 a && alignedReg 4 d
  | .tmexit _ a _ => alignedReg 4 a
  | .tmld _ _ a d => evenReg a && alignedReg 4 d
  | .ld o _ _ z a d => o != .rel && evenReg a && dataReg z d
  | .st o _ _ z a d => o != .acq && evenReg a && dataReg z d
  | .lds _ z _ d | .sts _ z _ d => dataReg z d
  | .ldsPeek _ _ d => evenReg d
  | .pref _ a => evenReg a
  | .waita _ _ z a d => evenReg a && (!z || evenReg d)
  | .bsig b a | .bwait b a => evenReg a && evenReg b
  | .brdc a d => evenReg a && evenReg d
  | .atom _ _ _ o a d => evenReg a && atomReg o d
  | .red _ sat cn fz o a d => redControl o sat cn fz && evenReg a && atomReg o d
  | .redTm _ a d => evenReg a && alignedReg 4 d
  | .atoms _ _ sc o _ d => decide (sc.toNat < 2) && atomReg o d
  | .jtab _ a => evenReg a
  | .callt _ a _ => evenReg a
  | .timei d => alignedReg 4 d
  | .commitw a => evenReg a
  | .stst _ a d => evenReg a && alignedReg 4 d
  | .ldat _ a d => evenReg a && alignedReg 8 d
  | .cpy _ a _ | .cpytIn _ a _ | .cpytOut _ a _ => alignedReg 8 a
  | .wstr _ s a d | .wget _ s a d =>
    evenReg a && (match s with | .b64 => evenReg d | .b128 => alignedReg 4 d | _ => true)
  | .wcnt _ _ a d | .wwait _ _ a d => evenReg a && evenReg d
  | .mloop _ _ a _ => alignedReg 8 a && decide (a.toNat + 15 ≤ 127)
  | .mldb _ a _ => evenReg a && decide (a.toNat + 3 ≤ 127)
  | .mrd _ _ _ d => evenReg d
  | .rndm b a d => evenReg b && evenReg a && evenReg d
  | .tlbinv _ a | .rotinv _ a | .icinv _ a => evenReg a
  | .cmpman a _ | .lnch a _ => evenReg a
  | .halt a => evenReg a
  | .tlrwRd n d | .tlrwWr n d => decide (n.toNat < 16) && alignedReg 8 d
  | .modPfx f z u r o p q e => modWf f z u r o p q e
  | _ => true

end Sys2Proof
end

