-- ==== Sys2Proof/Decode.lean ====
section
/-!
DEFINITION. The decoder and the encoder, both written from the encoding tables R19–R43 of spec/02 and the fields that the
class chapters add. A word is a natural number whose bit 0 is the least significant bit of the first halfword (R9, R19).
-/

namespace Sys2Proof

/-- Why bytes are no instruction (R43): they name nothing, an operand breaks R28 or a limit of its class chapter, or they
end before the instruction does. -/
inductive Reject where
  | namesNothing
  | badOperand
  | truncated
  deriving DecidableEq, Repr

/-- The code of a Rm field (R27). -/
def Rm.code : Rm → Nat
  | .rne => 0
  | .rz => 1
  | .ru => 2
  | .rd => 3

/-- The Rm a code names (R27). -/
def Rm.ofCode : Nat → Rm
  | 0 => .rne
  | 1 => .rz
  | 2 => .ru
  | _ => .rd

/-- The code of a Cmp field (R31). -/
def Cmp.code : Cmp → Nat
  | .eq => 0
  | .ne => 1
  | .lt => 2
  | .le => 3
  | .gt => 4
  | .ge => 5
  | .ord => 6
  | .uno => 7

/-- The Cmp a code names (R31). -/
def Cmp.ofCode : Nat → Cmp
  | 0 => .eq
  | 1 => .ne
  | 2 => .lt
  | 3 => .le
  | 4 => .gt
  | 5 => .ge
  | 6 => .ord
  | _ => .uno

/-- The code of a NumFmt field (R32). -/
def NumFmt.code : NumFmt → Nat
  | .f64 => 0
  | .f32 => 1
  | .f16 => 2
  | .bf16 => 3
  | .e4m3 => 4
  | .e5m2 => 5
  | .e2m1 => 6
  | .s32 => 7
  | .u32 => 8
  | .s64 => 9
  | .u64 => 10
  | .s16 => 11
  | .u16 => 12
  | .s8 => 13
  | .u8 => 14
  | .s4 => 15

/-- The NumFmt a code names (R32). -/
def NumFmt.ofCode : Nat → NumFmt
  | 0 => .f64
  | 1 => .f32
  | 2 => .f16
  | 3 => .bf16
  | 4 => .e4m3
  | 5 => .e5m2
  | 6 => .e2m1
  | 7 => .s32
  | 8 => .u32
  | 9 => .s64
  | 10 => .u64
  | 11 => .s16
  | 12 => .u16
  | 13 => .s8
  | 14 => .u8
  | _ => .s4

/-- The code of a FenceKind field (R27). -/
def FenceKind.code : FenceKind → Nat
  | .full => 0
  | .acq => 1
  | .rel => 2
  | .ss => 3

/-- The FenceKind a code names (R27). -/
def FenceKind.ofCode : Nat → FenceKind
  | 0 => .full
  | 1 => .acq
  | 2 => .rel
  | _ => .ss

/-- The code of a Sz field (R27). -/
def Sz.code : Sz → Nat
  | .b8 => 0
  | .b16 => 1
  | .b32 => 2
  | .b64 => 3
  | .b128 => 4

/-- The Sz a code names, if any (R27). -/
def Sz.ofCode : Nat → Option Sz
  | 0 => some .b8
  | 1 => some .b16
  | 2 => some .b32
  | 3 => some .b64
  | 4 => some .b128
  | _ => none

/-- The code of a Ord field (R27). -/
def Ord.code : Ord → Nat
  | .rlx => 0
  | .acq => 1
  | .rel => 2

/-- The Ord a code names, if any (R27). -/
def Ord.ofCode : Nat → Option Ord
  | 0 => some .rlx
  | 1 => some .acq
  | 2 => some .rel
  | _ => none

/-- The code of a Scope field (R27). -/
def Scope.code : Scope → Nat
  | .block => 0
  | .cluster => 1
  | .package => 2
  | .pod => 3
  | .system => 4
  | .time => 5

/-- The Scope a code names, if any (R27). -/
def Scope.ofCode : Nat → Option Scope
  | 0 => some .block
  | 1 => some .cluster
  | 2 => some .package
  | 3 => some .pod
  | 4 => some .system
  | 5 => some .time
  | _ => none

/-- The code of a Hint field (R181). -/
def Hint.code : Hint → Nat
  | .plain => 0
  | .st => 1
  | .l2 => 2

/-- The Hint a code names, if any (R181). -/
def Hint.ofCode : Nat → Option Hint
  | 0 => some .plain
  | 1 => some .st
  | 2 => some .l2
  | _ => none

/-- The code of a AtomOp field (R31). -/
def AtomOp.code : AtomOp → Nat
  | .add => 0
  | .and => 1
  | .or => 2
  | .xor => 3
  | .mins => 4
  | .minu => 5
  | .maxs => 6
  | .maxu => 7
  | .xchg => 8
  | .cas => 9
  | .incw => 10
  | .fadd => 11
  | .fmin => 12
  | .fmax => 13
  | .dadd => 14

/-- The AtomOp a code names, if any (R31). -/
def AtomOp.ofCode : Nat → Option AtomOp
  | 0 => some .add
  | 1 => some .and
  | 2 => some .or
  | 3 => some .xor
  | 4 => some .mins
  | 5 => some .minu
  | 6 => some .maxs
  | 7 => some .maxu
  | 8 => some .xchg
  | 9 => some .cas
  | 10 => some .incw
  | 11 => some .fadd
  | 12 => some .fmin
  | 13 => some .fmax
  | 14 => some .dadd
  | _ => none

/-- The code of a WaitCond field (R32). -/
def WaitCond.code : WaitCond → Nat
  | .ne => 0
  | .eq => 1
  | .ge => 2

/-- The WaitCond a code names, if any (R32). -/
def WaitCond.ofCode : Nat → Option WaitCond
  | 0 => some .ne
  | 1 => some .eq
  | 2 => some .ge
  | _ => none

/-- The instructions of major 0x00 (R30, R31). -/
def decodeMajor00 (w : Nat) : Option Instr :=
  match field w 31 28 with
  | 0 => some (.add (BitVec.ofNat 7 (field w 27 21)) (BitVec.ofNat 7 (field w 20 14)) (BitVec.ofNat 7 (field w 13 7)))
  | 1 => some (.sub (BitVec.ofNat 7 (field w 27 21)) (BitVec.ofNat 7 (field w 20 14)) (BitVec.ofNat 7 (field w 13 7)))
  | 2 => some (.mul (BitVec.ofNat 7 (field w 27 21)) (BitVec.ofNat 7 (field w 20 14)) (BitVec.ofNat 7 (field w 13 7)))
  | 3 => some (.mulhu (BitVec.ofNat 7 (field w 27 21)) (BitVec.ofNat 7 (field w 20 14)) (BitVec.ofNat 7 (field w 13 7)))
  | 4 => some (.mulhs (BitVec.ofNat 7 (field w 27 21)) (BitVec.ofNat 7 (field w 20 14)) (BitVec.ofNat 7 (field w 13 7)))
  | 5 => some (.mad (BitVec.ofNat 7 (field w 27 21)) (BitVec.ofNat 7 (field w 20 14)) (BitVec.ofNat 7 (field w 13 7)))
  | 6 => some (.and (BitVec.ofNat 7 (field w 27 21)) (BitVec.ofNat 7 (field w 20 14)) (BitVec.ofNat 7 (field w 13 7)))
  | 7 => some (.or (BitVec.ofNat 7 (field w 27 21)) (BitVec.ofNat 7 (field w 20 14)) (BitVec.ofNat 7 (field w 13 7)))
  | 8 => some (.xor (BitVec.ofNat 7 (field w 27 21)) (BitVec.ofNat 7 (field w 20 14)) (BitVec.ofNat 7 (field w 13 7)))
  | 9 => some (.andn (BitVec.ofNat 7 (field w 27 21)) (BitVec.ofNat 7 (field w 20 14)) (BitVec.ofNat 7 (field w 13 7)))
  | 10 => some (.shl (BitVec.ofNat 7 (field w 27 21)) (BitVec.ofNat 7 (field w 20 14)) (BitVec.ofNat 7 (field w 13 7)))
  | 11 => some (.shru (BitVec.ofNat 7 (field w 27 21)) (BitVec.ofNat 7 (field w 20 14)) (BitVec.ofNat 7 (field w 13 7)))
  | 12 => some (.shrs (BitVec.ofNat 7 (field w 27 21)) (BitVec.ofNat 7 (field w 20 14)) (BitVec.ofNat 7 (field w 13 7)))
  | 13 => some (.rotl (BitVec.ofNat 7 (field w 27 21)) (BitVec.ofNat 7 (field w 20 14)) (BitVec.ofNat 7 (field w 13 7)))
  | 14 => some (.addp (BitVec.ofNat 7 (field w 27 21)) (BitVec.ofNat 7 (field w 20 14)) (BitVec.ofNat 7 (field w 13 7)))
  | 15 => some (.sel (BitVec.ofNat 7 (field w 27 21)) (BitVec.ofNat 7 (field w 20 14)) (BitVec.ofNat 7 (field w 13 7)))
  | _ => none

/-- The instructions of major 0x01 (R30, R31). -/
def decodeMajor01 (w : Nat) : Option Instr :=
  match field w 31 28 with
  | 0 => some (.mins (BitVec.ofNat 7 (field w 27 21)) (BitVec.ofNat 7 (field w 20 14)) (BitVec.ofNat 7 (field w 13 7)))
  | 1 => some (.minu (BitVec.ofNat 7 (field w 27 21)) (BitVec.ofNat 7 (field w 20 14)) (BitVec.ofNat 7 (field w 13 7)))
  | 2 => some (.maxs (BitVec.ofNat 7 (field w 27 21)) (BitVec.ofNat 7 (field w 20 14)) (BitVec.ofNat 7 (field w 13 7)))
  | 3 => some (.maxu (BitVec.ofNat 7 (field w 27 21)) (BitVec.ofNat 7 (field w 20 14)) (BitVec.ofNat 7 (field w 13 7)))
  | 4 => if field w 27 21 = 0 then some (.clz (BitVec.ofNat 7 (field w 20 14)) (BitVec.ofNat 7 (field w 13 7))) else none
  | 5 => if field w 27 21 = 0 then some (.popc (BitVec.ofNat 7 (field w 20 14)) (BitVec.ofNat 7 (field w 13 7))) else none
  | 6 => if field w 27 21 = 0 then some (.brev (BitVec.ofNat 7 (field w 20 14)) (BitVec.ofNat 7 (field w 13 7))) else none
  | 7 => some (.cmpeq (BitVec.ofNat 7 (field w 27 21)) (BitVec.ofNat 7 (field w 20 14)) (BitVec.ofNat 7 (field w 13 7)))
  | 8 => some (.cmpne (BitVec.ofNat 7 (field w 27 21)) (BitVec.ofNat 7 (field w 20 14)) (BitVec.ofNat 7 (field w 13 7)))
  | 9 => some (.cmplts (BitVec.ofNat 7 (field w 27 21)) (BitVec.ofNat 7 (field w 20 14)) (BitVec.ofNat 7 (field w 13 7)))
  | 10 => some (.cmpltu (BitVec.ofNat 7 (field w 27 21)) (BitVec.ofNat 7 (field w 20 14)) (BitVec.ofNat 7 (field w 13 7)))
  | 11 => some (.cmples (BitVec.ofNat 7 (field w 27 21)) (BitVec.ofNat 7 (field w 20 14)) (BitVec.ofNat 7 (field w 13 7)))
  | 12 => some (.cmpleu (BitVec.ofNat 7 (field w 27 21)) (BitVec.ofNat 7 (field w 20 14)) (BitVec.ofNat 7 (field w 13 7)))
  | 13 => some (.bfx (BitVec.ofNat 7 (field w 27 21)) (BitVec.ofNat 7 (field w 20 14)) (BitVec.ofNat 7 (field w 13 7)))
  | 14 => some (.bfi (BitVec.ofNat 7 (field w 27 21)) (BitVec.ofNat 7 (field w 20 14)) (BitVec.ofNat 7 (field w 13 7)))
  | 15 => some (.byteperm (BitVec.ofNat 7 (field w 27 21)) (BitVec.ofNat 7 (field w 20 14)) (BitVec.ofNat 7 (field w 13 7)))
  | _ => none

/-- The instructions of major 0x02 (R30, R31). -/
def decodeMajor02 (w : Nat) : Option Instr :=
  some (.addi (BitVec.ofNat 11 (field w 31 21)) (BitVec.ofNat 7 (field w 20 14)) (BitVec.ofNat 7 (field w 13 7)))

/-- The instructions of major 0x03 (R30, R31). -/
def decodeMajor03 (w : Nat) : Option Instr :=
  some (.andi (BitVec.ofNat 11 (field w 31 21)) (BitVec.ofNat 7 (field w 20 14)) (BitVec.ofNat 7 (field w 13 7)))

/-- The instructions of major 0x04 (R30, R31). -/
def decodeMajor04 (w : Nat) : Option Instr :=
  some (.ori (BitVec.ofNat 11 (field w 31 21)) (BitVec.ofNat 7 (field w 20 14)) (BitVec.ofNat 7 (field w 13 7)))

/-- The instructions of major 0x05 (R30, R31). -/
def decodeMajor05 (w : Nat) : Option Instr :=
  some (.xori (BitVec.ofNat 11 (field w 31 21)) (BitVec.ofNat 7 (field w 20 14)) (BitVec.ofNat 7 (field w 13 7)))

/-- The instructions of major 0x06 (R30, R31). -/
def decodeMajor06 (w : Nat) : Option Instr :=
  match field w 31 26 with
  | 0 => some (.shli (BitVec.ofNat 5 (field w 25 21)) (BitVec.ofNat 7 (field w 20 14)) (BitVec.ofNat 7 (field w 13 7)))
  | 1 => some (.shrui (BitVec.ofNat 5 (field w 25 21)) (BitVec.ofNat 7 (field w 20 14)) (BitVec.ofNat 7 (field w 13 7)))
  | 2 => some (.shrsi (BitVec.ofNat 5 (field w 25 21)) (BitVec.ofNat 7 (field w 20 14)) (BitVec.ofNat 7 (field w 13 7)))
  | 3 => some (.rotli (BitVec.ofNat 5 (field w 25 21)) (BitVec.ofNat 7 (field w 20 14)) (BitVec.ofNat 7 (field w 13 7)))
  | _ => none

/-- The instructions of major 0x07 (R30, R31). -/
def decodeMajor07 (w : Nat) : Option Instr :=
  match field w 31 30 with
  | 0 => some (.cmpeqi (BitVec.ofNat 9 (field w 29 21)) (BitVec.ofNat 7 (field w 20 14)) (BitVec.ofNat 7 (field w 13 7)))
  | 1 => some (.cmpltsi (BitVec.ofNat 9 (field w 29 21)) (BitVec.ofNat 7 (field w 20 14)) (BitVec.ofNat 7 (field w 13 7)))
  | 2 => some (.cmpltui (BitVec.ofNat 9 (field w 29 21)) (BitVec.ofNat 7 (field w 20 14)) (BitVec.ofNat 7 (field w 13 7)))
  | 3 => some (.cmpnei (BitVec.ofNat 9 (field w 29 21)) (BitVec.ofNat 7 (field w 20 14)) (BitVec.ofNat 7 (field w 13 7)))
  | _ => none

/-- The instructions of major 0x08 (R30, R31). -/
def decodeMajor08 (w : Nat) : Option Instr :=
  some (.addpi (BitVec.ofNat 11 (field w 31 21)) (BitVec.ofNat 7 (field w 20 14)) (BitVec.ofNat 7 (field w 13 7)))

/-- The instructions of major 0x09 (R30, R31). -/
def decodeMajor09 (w : Nat) : Option Instr :=
  some (.lui (BitVec.ofNat 18 (field w 31 14)) (BitVec.ofNat 7 (field w 13 7)))

/-- The instructions of major 0x0A (R30, R31). -/
def decodeMajor0A (w : Nat) : Option Instr :=
  some (.auip (BitVec.ofNat 18 (field w 31 14)) (BitVec.ofNat 7 (field w 13 7)))

/-- The instructions of major 0x0B (R30, R31). -/
def decodeMajor0B (w : Nat) : Option Instr :=
  match field w 31 21 with
  | 0 => some (.movri (BitVec.ofNat 7 (field w 20 14)) (BitVec.ofNat 7 (field w 13 7)))
  | 1 => some (.movro (BitVec.ofNat 7 (field w 20 14)) (BitVec.ofNat 7 (field w 13 7)))
  | _ => none

/-- The instructions of major 0x0C (R30, R31). -/
def decodeMajor0C (w : Nat) : Option Instr :=
  match field w 31 28 with
  | 0 => some (.divs (BitVec.ofNat 7 (field w 27 21)) (BitVec.ofNat 7 (field w 20 14)) (BitVec.ofNat 7 (field w 13 7)))
  | 1 => some (.divu (BitVec.ofNat 7 (field w 27 21)) (BitVec.ofNat 7 (field w 20 14)) (BitVec.ofNat 7 (field w 13 7)))
  | 2 => some (.rems (BitVec.ofNat 7 (field w 27 21)) (BitVec.ofNat 7 (field w 20 14)) (BitVec.ofNat 7 (field w 13 7)))
  | 3 => some (.remu (BitVec.ofNat 7 (field w 27 21)) (BitVec.ofNat 7 (field w 20 14)) (BitVec.ofNat 7 (field w 13 7)))
  | _ => none

/-- The instructions of major 0x10 (R30, R31). -/
def decodeMajor10 (w : Nat) : Option Instr :=
  match field w 31 28 with
  | 0 => some (.fadd (BitVec.ofNat 7 (field w 27 21)) (BitVec.ofNat 7 (field w 20 14)) (BitVec.ofNat 7 (field w 13 7)))
  | 1 => some (.fsub (BitVec.ofNat 7 (field w 27 21)) (BitVec.ofNat 7 (field w 20 14)) (BitVec.ofNat 7 (field w 13 7)))
  | 2 => some (.fmul (BitVec.ofNat 7 (field w 27 21)) (BitVec.ofNat 7 (field w 20 14)) (BitVec.ofNat 7 (field w 13 7)))
  | 3 => some (.ffma (BitVec.ofNat 7 (field w 27 21)) (BitVec.ofNat 7 (field w 20 14)) (BitVec.ofNat 7 (field w 13 7)))
  | 4 => some (.ffms (BitVec.ofNat 7 (field w 27 21)) (BitVec.ofNat 7 (field w 20 14)) (BitVec.ofNat 7 (field w 13 7)))
  | 5 => some (.fnfma (BitVec.ofNat 7 (field w 27 21)) (BitVec.ofNat 7 (field w 20 14)) (BitVec.ofNat 7 (field w 13 7)))
  | 6 => some (.fmin (BitVec.ofNat 7 (field w 27 21)) (BitVec.ofNat 7 (field w 20 14)) (BitVec.ofNat 7 (field w 13 7)))
  | 7 => some (.fmax (BitVec.ofNat 7 (field w 27 21)) (BitVec.ofNat 7 (field w 20 14)) (BitVec.ofNat 7 (field w 13 7)))
  | 8 => if field w 27 21 = 0 then some (.frnd (BitVec.ofNat 7 (field w 20 14)) (BitVec.ofNat 7 (field w 13 7))) else none
  | 9 => if field w 27 21 = 0 then some (.fcls (BitVec.ofNat 7 (field w 20 14)) (BitVec.ofNat 7 (field w 13 7))) else none
  | 10 => some (.fscalebB0 (BitVec.ofNat 7 (field w 27 21)) (BitVec.ofNat 7 (field w 20 14)) (BitVec.ofNat 7 (field w 13 7)))
  | 11 => some (.fscalebB1 (BitVec.ofNat 7 (field w 27 21)) (BitVec.ofNat 7 (field w 20 14)) (BitVec.ofNat 7 (field w 13 7)))
  | 12 => some (.fscalebB2 (BitVec.ofNat 7 (field w 27 21)) (BitVec.ofNat 7 (field w 20 14)) (BitVec.ofNat 7 (field w 13 7)))
  | 13 => some (.fscalebB3 (BitVec.ofNat 7 (field w 27 21)) (BitVec.ofNat 7 (field w 20 14)) (BitVec.ofNat 7 (field w 13 7)))
  | 14 => if field w 27 21 = 0 then some (.fabs (BitVec.ofNat 7 (field w 20 14)) (BitVec.ofNat 7 (field w 13 7))) else none
  | 15 => if field w 27 21 = 0 then some (.fneg (BitVec.ofNat 7 (field w 20 14)) (BitVec.ofNat 7 (field w 13 7))) else none
  | _ => none

/-- The instructions of major 0x11 (R30, R31). -/
def decodeMajor11 (w : Nat) : Option Instr :=
  some (.fcmp (Cmp.ofCode (field w 30 28)) (field w 31 31 == 1) (BitVec.ofNat 7 (field w 27 21)) (BitVec.ofNat 7 (field w 20 14)) (BitVec.ofNat 7 (field w 13 7)))

/-- The instructions of major 0x12 (R30, R31). -/
def decodeMajor12 (w : Nat) : Option Instr :=
  match field w 31 28 with
  | 0 => some (.dadd (BitVec.ofNat 7 (field w 27 21)) (BitVec.ofNat 7 (field w 20 14)) (BitVec.ofNat 7 (field w 13 7)))
  | 1 => some (.dsub (BitVec.ofNat 7 (field w 27 21)) (BitVec.ofNat 7 (field w 20 14)) (BitVec.ofNat 7 (field w 13 7)))
  | 2 => some (.dmul (BitVec.ofNat 7 (field w 27 21)) (BitVec.ofNat 7 (field w 20 14)) (BitVec.ofNat 7 (field w 13 7)))
  | 3 => some (.dfma (BitVec.ofNat 7 (field w 27 21)) (BitVec.ofNat 7 (field w 20 14)) (BitVec.ofNat 7 (field w 13 7)))
  | 4 => some (.dmin (BitVec.ofNat 7 (field w 27 21)) (BitVec.ofNat 7 (field w 20 14)) (BitVec.ofNat 7 (field w 13 7)))
  | 5 => some (.dmax (BitVec.ofNat 7 (field w 27 21)) (BitVec.ofNat 7 (field w 20 14)) (BitVec.ofNat 7 (field w 13 7)))
  | 6 => if field w 27 21 = 0 then some (.drnd (BitVec.ofNat 7 (field w 20 14)) (BitVec.ofNat 7 (field w 13 7))) else none
  | 7 => if field w 27 21 = 0 then some (.dabs (BitVec.ofNat 7 (field w 20 14)) (BitVec.ofNat 7 (field w 13 7))) else none
  | 8 => if field w 27 21 = 0 then some (.dneg (BitVec.ofNat 7 (field w 20 14)) (BitVec.ofNat 7 (field w 13 7))) else none
  | _ => none

/-- The instructions of major 0x13 (R30, R31). -/
def decodeMajor13 (w : Nat) : Option Instr :=
  some (.dcmp (Cmp.ofCode (field w 30 28)) (field w 31 31 == 1) (BitVec.ofNat 7 (field w 27 21)) (BitVec.ofNat 7 (field w 20 14)) (BitVec.ofNat 7 (field w 13 7)))

/-- The instructions of major 0x14 (R30, R31). -/
def decodeMajor14 (w : Nat) : Option Instr :=
  match field w 31 28 with
  | 0 => some (.hadd2 (BitVec.ofNat 7 (field w 27 21)) (BitVec.ofNat 7 (field w 20 14)) (BitVec.ofNat 7 (field w 13 7)))
  | 1 => some (.hsub2 (BitVec.ofNat 7 (field w 27 21)) (BitVec.ofNat 7 (field w 20 14)) (BitVec.ofNat 7 (field w 13 7)))
  | 2 => some (.hmul2 (BitVec.ofNat 7 (field w 27 21)) (BitVec.ofNat 7 (field w 20 14)) (BitVec.ofNat 7 (field w 13 7)))
  | 3 => some (.hfma2 (BitVec.ofNat 7 (field w 27 21)) (BitVec.ofNat 7 (field w 20 14)) (BitVec.ofNat 7 (field w 13 7)))
  | 4 => some (.hmin2 (BitVec.ofNat 7 (field w 27 21)) (BitVec.ofNat 7 (field w 20 14)) (BitVec.ofNat 7 (field w 13 7)))
  | 5 => some (.hmax2 (BitVec.ofNat 7 (field w 27 21)) (BitVec.ofNat 7 (field w 20 14)) (BitVec.ofNat 7 (field w 13 7)))
  | 8 => some (.badd2 (BitVec.ofNat 7 (field w 27 21)) (BitVec.ofNat 7 (field w 20 14)) (BitVec.ofNat 7 (field w 13 7)))
  | 9 => some (.bsub2 (BitVec.ofNat 7 (field w 27 21)) (BitVec.ofNat 7 (field w 20 14)) (BitVec.ofNat 7 (field w 13 7)))
  | 10 => some (.bmul2 (BitVec.ofNat 7 (field w 27 21)) (BitVec.ofNat 7 (field w 20 14)) (BitVec.ofNat 7 (field w 13 7)))
  | 11 => some (.bfma2 (BitVec.ofNat 7 (field w 27 21)) (BitVec.ofNat 7 (field w 20 14)) (BitVec.ofNat 7 (field w 13 7)))
  | 12 => some (.bmin2 (BitVec.ofNat 7 (field w 27 21)) (BitVec.ofNat 7 (field w 20 14)) (BitVec.ofNat 7 (field w 13 7)))
  | 13 => some (.bmax2 (BitVec.ofNat 7 (field w 27 21)) (BitVec.ofNat 7 (field w 20 14)) (BitVec.ofNat 7 (field w 13 7)))
  | _ => none

/-- The instructions of major 0x15 (R30, R31). -/
def decodeMajor15 (w : Nat) : Option Instr :=
  some (.cvt (field w 31 31 == 1) (Rm.ofCode (field w 30 29)) (NumFmt.ofCode (field w 28 25)) (NumFmt.ofCode (field w 24 21)) (BitVec.ofNat 7 (field w 20 14)) (BitVec.ofNat 7 (field w 13 7)))

/-- The instructions of major 0x16 (R30, R31). -/
def decodeMajor16 (w : Nat) : Option Instr :=
  match field w 31 28 with
  | 0 => some (.dot8S8 (BitVec.ofNat 7 (field w 27 21)) (BitVec.ofNat 7 (field w 20 14)) (BitVec.ofNat 7 (field w 13 7)))
  | 1 => some (.dot8U8 (BitVec.ofNat 7 (field w 27 21)) (BitVec.ofNat 7 (field w 20 14)) (BitVec.ofNat 7 (field w 13 7)))
  | 2 => some (.dot8E4m3 (BitVec.ofNat 7 (field w 27 21)) (BitVec.ofNat 7 (field w 20 14)) (BitVec.ofNat 7 (field w 13 7)))
  | 3 => some (.dot8E5m2 (BitVec.ofNat 7 (field w 27 21)) (BitVec.ofNat 7 (field w 20 14)) (BitVec.ofNat 7 (field w 13 7)))
  | 4 => some (.dot4S4 (BitVec.ofNat 7 (field w 27 21)) (BitVec.ofNat 7 (field w 20 14)) (BitVec.ofNat 7 (field w 13 7)))
  | 5 => some (.dot4E2m1 (BitVec.ofNat 7 (field w 27 21)) (BitVec.ofNat 7 (field w 20 14)) (BitVec.ofNat 7 (field w 13 7)))
  | _ => none

/-- The instructions of major 0x17 (R30, R31). -/
def decodeMajor17 (w : Nat) : Option Instr :=
  match field w 31 30, field w 23 21 with
  | 0, 0 => if field w 29 28 = 0 then some (.frcp (BitVec.ofNat 4 (field w 27 24)) (BitVec.ofNat 7 (field w 20 14)) (BitVec.ofNat 7 (field w 13 7))) else none
  | 0, 1 => if field w 29 28 = 0 then some (.frsq (BitVec.ofNat 4 (field w 27 24)) (BitVec.ofNat 7 (field w 20 14)) (BitVec.ofNat 7 (field w 13 7))) else none
  | 0, 2 => if field w 29 28 = 0 then some (.fsqrt (BitVec.ofNat 4 (field w 27 24)) (BitVec.ofNat 7 (field w 20 14)) (BitVec.ofNat 7 (field w 13 7))) else none
  | 0, 3 => if field w 29 28 = 0 then some (.fexp2 (BitVec.ofNat 4 (field w 27 24)) (BitVec.ofNat 7 (field w 20 14)) (BitVec.ofNat 7 (field w 13 7))) else none
  | 0, 4 => if field w 29 28 = 0 then some (.flog2 (BitVec.ofNat 4 (field w 27 24)) (BitVec.ofNat 7 (field w 20 14)) (BitVec.ofNat 7 (field w 13 7))) else none
  | 0, 5 => if field w 29 28 = 0 then some (.fsin (BitVec.ofNat 4 (field w 27 24)) (BitVec.ofNat 7 (field w 20 14)) (BitVec.ofNat 7 (field w 13 7))) else none
  | 0, 6 => if field w 29 28 = 0 then some (.fcos (BitVec.ofNat 4 (field w 27 24)) (BitVec.ofNat 7 (field w 20 14)) (BitVec.ofNat 7 (field w 13 7))) else none
  | 0, 7 => if field w 29 28 = 0 then some (.ftanh (BitVec.ofNat 4 (field w 27 24)) (BitVec.ofNat 7 (field w 20 14)) (BitVec.ofNat 7 (field w 13 7))) else none
  | 1, 0 => some (.frcpCr (Rm.ofCode (field w 29 28)) (BitVec.ofNat 4 (field w 27 24)) (BitVec.ofNat 7 (field w 20 14)) (BitVec.ofNat 7 (field w 13 7)))
  | 1, 1 => some (.frsqCr (Rm.ofCode (field w 29 28)) (BitVec.ofNat 4 (field w 27 24)) (BitVec.ofNat 7 (field w 20 14)) (BitVec.ofNat 7 (field w 13 7)))
  | 1, 2 => some (.fsqrtCr (Rm.ofCode (field w 29 28)) (BitVec.ofNat 4 (field w 27 24)) (BitVec.ofNat 7 (field w 20 14)) (BitVec.ofNat 7 (field w 13 7)))
  | 2, 0 => some (.drcp (Rm.ofCode (field w 29 28)) (BitVec.ofNat 4 (field w 27 24)) (BitVec.ofNat 7 (field w 20 14)) (BitVec.ofNat 7 (field w 13 7)))
  | 2, 1 => some (.drsq (Rm.ofCode (field w 29 28)) (BitVec.ofNat 4 (field w 27 24)) (BitVec.ofNat 7 (field w 20 14)) (BitVec.ofNat 7 (field w 13 7)))
  | 2, 2 => some (.dsqrt (Rm.ofCode (field w 29 28)) (BitVec.ofNat 4 (field w 27 24)) (BitVec.ofNat 7 (field w 20 14)) (BitVec.ofNat 7 (field w 13 7)))
  | _, _ => none

/-- The instructions of major 0x18 (R30, R31). -/
def decodeMajor18 (w : Nat) : Option Instr :=
  match field w 31 28 with
  | 0 => some (.shfl (BitVec.ofNat 7 (field w 27 21)) (BitVec.ofNat 7 (field w 20 14)) (BitVec.ofNat 7 (field w 13 7)))
  | 1 => some (.shfllo (BitVec.ofNat 7 (field w 27 21)) (BitVec.ofNat 7 (field w 20 14)) (BitVec.ofNat 7 (field w 13 7)))
  | 2 => some (.shflhi (BitVec.ofNat 7 (field w 27 21)) (BitVec.ofNat 7 (field w 20 14)) (BitVec.ofNat 7 (field w 13 7)))
  | 3 => some (.shflx (BitVec.ofNat 7 (field w 27 21)) (BitVec.ofNat 7 (field w 20 14)) (BitVec.ofNat 7 (field w 13 7)))
  | 4 => some (.bcast (BitVec.ofNat 7 (field w 27 21)) (BitVec.ofNat 7 (field w 20 14)) (BitVec.ofNat 7 (field w 13 7)))
  | 5 => if field w 27 21 = 0 then some (.voteAny (BitVec.ofNat 7 (field w 20 14)) (BitVec.ofNat 7 (field w 13 7))) else none
  | 6 => if field w 27 21 = 0 then some (.voteAll (BitVec.ofNat 7 (field w 20 14)) (BitVec.ofNat 7 (field w 13 7))) else none
  | 7 => if field w 27 21 = 0 then some (.voteBal (BitVec.ofNat 7 (field w 20 14)) (BitVec.ofNat 7 (field w 13 7))) else none
  | 8 => if field w 27 21 = 0 then some (.matchB (BitVec.ofNat 7 (field w 20 14)) (BitVec.ofNat 7 (field w 13 7))) else none
  | 9 => if field w 27 21 = 0 then some (.matchF (BitVec.ofNat 7 (field w 20 14)) (BitVec.ofNat 7 (field w 13 7))) else none
  | 10 => if field w 27 21 = 0 then some (.redwAdd (BitVec.ofNat 7 (field w 20 14)) (BitVec.ofNat 7 (field w 13 7))) else none
  | 11 => if field w 27 21 = 0 then some (.redwMin (BitVec.ofNat 7 (field w 20 14)) (BitVec.ofNat 7 (field w 13 7))) else none
  | 12 => if field w 27 21 = 0 then some (.redwMax (BitVec.ofNat 7 (field w 20 14)) (BitVec.ofNat 7 (field w 13 7))) else none
  | 13 => if field w 27 21 = 0 then some (.scanwAdd (BitVec.ofNat 7 (field w 20 14)) (BitVec.ofNat 7 (field w 13 7))) else none
  | 14 => if field w 20 14 = 0 then some (.tilep (BitVec.ofNat 7 (field w 27 21)) (BitVec.ofNat 7 (field w 13 7))) else none
  | 15 => if field w 27 7 = 0 then some (.wfence) else none
  | _ => none

/-- The instructions of major 0x19 (R30, R31). -/
def decodeMajor19 (w : Nat) : Option Instr :=
  match field w 31 28 with
  | 0 => if field w 27 21 = 0 then some (.qswpH (BitVec.ofNat 7 (field w 20 14)) (BitVec.ofNat 7 (field w 13 7))) else none
  | 1 => if field w 27 21 = 0 then some (.qswpV (BitVec.ofNat 7 (field w 20 14)) (BitVec.ofNat 7 (field w 13 7))) else none
  | 2 => if field w 27 21 = 0 then some (.qswpD (BitVec.ofNat 7 (field w 20 14)) (BitVec.ofNat 7 (field w 13 7))) else none
  | 3 => some (.qbcast (BitVec.ofNat 7 (field w 27 21)) (BitVec.ofNat 7 (field w 20 14)) (BitVec.ofNat 7 (field w 13 7)))
  | 4 => if field w 27 21 = 0 then some (.qredAdd (BitVec.ofNat 7 (field w 20 14)) (BitVec.ofNat 7 (field w 13 7))) else none
  | 5 => if field w 27 21 = 0 then some (.qredMin (BitVec.ofNat 7 (field w 20 14)) (BitVec.ofNat 7 (field w 13 7))) else none
  | 6 => if field w 27 21 = 0 then some (.qredMax (BitVec.ofNat 7 (field w 20 14)) (BitVec.ofNat 7 (field w 13 7))) else none
  | 7 => if field w 27 21 = 0 then some (.fredwAdd (BitVec.ofNat 7 (field w 20 14)) (BitVec.ofNat 7 (field w 13 7))) else none
  | 8 => if field w 27 21 = 0 then some (.fredwMin (BitVec.ofNat 7 (field w 20 14)) (BitVec.ofNat 7 (field w 13 7))) else none
  | 9 => if field w 27 21 = 0 then some (.fredwMax (BitVec.ofNat 7 (field w 20 14)) (BitVec.ofNat 7 (field w 13 7))) else none
  | _ => none

/-- The instructions of major 0x1A (R30, R31). -/
def decodeMajor1A (w : Nat) : Option Instr :=
  match field w 24 21 with
  | 0 => if field w 27 25 = 0 ∧ field w 20 14 = 0 then some (.tmclr (BitVec.ofNat 4 (field w 31 28)) (BitVec.ofNat 7 (field w 13 7))) else none
  | 1 => if field w 27 25 = 0 then some (.tment (BitVec.ofNat 4 (field w 31 28)) (BitVec.ofNat 7 (field w 20 14)) (BitVec.ofNat 7 (field w 13 7))) else none
  | 2 => if field w 27 25 = 0 then some (.tmacc (BitVec.ofNat 4 (field w 31 28)) (BitVec.ofNat 7 (field w 20 14)) (BitVec.ofNat 7 (field w 13 7))) else none
  | 3 => if field w 27 25 = 0 then some (.tmmrg (BitVec.ofNat 4 (field w 31 28)) (BitVec.ofNat 7 (field w 20 14)) (BitVec.ofNat 7 (field w 13 7))) else none
  | 4 => if field w 27 25 = 0 ∧ field w 20 14 = 0 then some (.tmredw (BitVec.ofNat 4 (field w 31 28)) (BitVec.ofNat 7 (field w 13 7))) else none
  | 5 => if field w 27 25 = 0 then some (.tmexit (BitVec.ofNat 4 (field w 31 28)) (BitVec.ofNat 7 (field w 20 14)) (BitVec.ofNat 7 (field w 13 7))) else none
  | 6 => some (.tmld (BitVec.ofNat 4 (field w 31 28)) (BitVec.ofNat 3 (field w 27 25)) (BitVec.ofNat 7 (field w 20 14)) (BitVec.ofNat 7 (field w 13 7)))
  | _ => none

/-- The instructions of major 0x1B (R30, R31). -/
def decodeMajor1B (w : Nat) : Option Instr :=
  if field w 31 28 = 0 ∧ field w 23 21 = 2 then some (.ldc32 (BitVec.ofNat 4 (field w 27 24)) (BitVec.ofNat 7 (field w 20 14)) (BitVec.ofNat 7 (field w 13 7))) else none

/-- The instructions of major 0x1C (R30, R31). -/
def decodeMajor1C (w : Nat) : Option Instr :=
  (Ord.ofCode (field w 31 30)).bind fun o => (Hint.ofCode (field w 29 28)).bind fun k => (Sz.ofCode (field w 23 21)).bind fun z => some (.ld o k (BitVec.ofNat 4 (field w 27 24)) z (BitVec.ofNat 7 (field w 20 14)) (BitVec.ofNat 7 (field w 13 7)))

/-- The instructions of major 0x1D (R30, R31). -/
def decodeMajor1D (w : Nat) : Option Instr :=
  (Ord.ofCode (field w 31 30)).bind fun o => (Hint.ofCode (field w 29 28)).bind fun k => (Sz.ofCode (field w 23 21)).bind fun z => some (.st o k (BitVec.ofNat 4 (field w 27 24)) z (BitVec.ofNat 7 (field w 20 14)) (BitVec.ofNat 7 (field w 13 7)))

/-- The instructions of major 0x1E (R30, R31). -/
def decodeMajor1E (w : Nat) : Option Instr :=
  match field w 31 28 with
  | 0 => (Sz.ofCode (field w 23 21)).bind fun z => some (.lds (BitVec.ofNat 4 (field w 27 24)) z (BitVec.ofNat 7 (field w 20 14)) (BitVec.ofNat 7 (field w 13 7)))
  | 1 => if field w 23 21 = 2 then some (.ldsSync (BitVec.ofNat 4 (field w 27 24)) (BitVec.ofNat 7 (field w 20 14)) (BitVec.ofNat 7 (field w 13 7))) else none
  | 2 => if field w 23 21 = 2 then some (.ldsPeek (BitVec.ofNat 4 (field w 27 24)) (BitVec.ofNat 7 (field w 20 14)) (BitVec.ofNat 7 (field w 13 7))) else none
  | _ => none

/-- The instructions of major 0x1F (R30, R31). -/
def decodeMajor1F (w : Nat) : Option Instr :=
  match field w 31 28 with
  | 0 => (Sz.ofCode (field w 23 21)).bind fun z => some (.sts (BitVec.ofNat 4 (field w 27 24)) z (BitVec.ofNat 7 (field w 20 14)) (BitVec.ofNat 7 (field w 13 7)))
  | 1 => if field w 23 21 = 2 then some (.stsSync (BitVec.ofNat 4 (field w 27 24)) (BitVec.ofNat 7 (field w 20 14)) (BitVec.ofNat 7 (field w 13 7))) else none
  | 2 => if field w 23 21 = 2 then some (.stsFill (BitVec.ofNat 4 (field w 27 24)) (BitVec.ofNat 7 (field w 20 14)) (BitVec.ofNat 7 (field w 13 7))) else none
  | 3 => if field w 23 21 = 2 ∧ field w 13 7 = 0 then some (.stsEmpty (BitVec.ofNat 4 (field w 27 24)) (BitVec.ofNat 7 (field w 20 14))) else none
  | _ => none

/-- The instructions of major 0x20 (R30, R31). -/
def decodeMajor20 (w : Nat) : Option Instr :=
  if field w 31 30 = 0 then some (.ldx (field w 29 29 == 1) (BitVec.ofNat 4 (field w 28 25)) (BitVec.ofNat 4 (field w 24 21)) (BitVec.ofNat 7 (field w 20 14)) (BitVec.ofNat 7 (field w 13 7))) else none

/-- The instructions of major 0x21 (R30, R31). -/
def decodeMajor21 (w : Nat) : Option Instr :=
  if field w 31 30 = 0 then some (.stx (field w 29 29 == 1) (BitVec.ofNat 4 (field w 28 25)) (BitVec.ofNat 4 (field w 24 21)) (BitVec.ofNat 7 (field w 20 14)) (BitVec.ofNat 7 (field w 13 7))) else none

/-- The instructions of major 0x22 (R30, R31). -/
def decodeMajor22 (w : Nat) : Option Instr :=
  if field w 31 29 = 0 ∧ field w 27 21 = 0 ∧ field w 13 7 = 0 then some (.pref (field w 28 28 == 1) (BitVec.ofNat 7 (field w 20 14))) else none

/-- The instructions of major 0x23 (R30, R31). -/
def decodeMajor23 (w : Nat) : Option Instr :=
  if field w 31 27 = 0 ∧ field w 20 7 = 0 then (Scope.ofCode (field w 23 21)).bind fun s => some (.fence (field w 26 26 == 1) (FenceKind.ofCode (field w 25 24)) s) else none

/-- The instructions of major 0x24 (R30, R31). -/
def decodeMajor24 (w : Nat) : Option Instr :=
  if field w 31 31 = 0 ∧ field w 27 22 = 1 then (WaitCond.ofCode (field w 29 28)).bind fun k => some (.waita (field w 30 30 == 1) k (field w 21 21 == 1) (BitVec.ofNat 7 (field w 20 14)) (BitVec.ofNat 7 (field w 13 7))) else none

/-- The instructions of major 0x25 (R30, R31). -/
def decodeMajor25 (w : Nat) : Option Instr :=
  match field w 31 28 with
  | 0 => if field w 13 7 = 0 then some (.bsig (BitVec.ofNat 7 (field w 27 21)) (BitVec.ofNat 7 (field w 20 14))) else none
  | 1 => if field w 13 7 = 0 then some (.bwait (BitVec.ofNat 7 (field w 27 21)) (BitVec.ofNat 7 (field w 20 14))) else none
  | 2 => if field w 27 21 = 0 then some (.brdc (BitVec.ofNat 7 (field w 20 14)) (BitVec.ofNat 7 (field w 13 7))) else none
  | 3 => if field w 27 7 = 0 then some (.syncb) else none
  | _ => none

/-- The instructions of major 0x26 (R30, R31). -/
def decodeMajor26 (w : Nat) : Option Instr :=
  if field w 31 30 = 0 ∧ field w 20 7 = 0 then some (.waitc (BitVec.ofNat 3 (field w 29 27)) (BitVec.ofNat 6 (field w 26 21))) else none

/-- The instructions of major 0x28 (R30, R31). -/
def decodeMajor28 (w : Nat) : Option Instr :=
  (AtomOp.ofCode (field w 24 21)).bind fun o => some (.atom (BitVec.ofNat 4 (field w 31 28)) (field w 27 27 == 1) (BitVec.ofNat 2 (field w 26 25)) o (BitVec.ofNat 7 (field w 20 14)) (BitVec.ofNat 7 (field w 13 7)))

/-- The instructions of major 0x29 (R30, R31). -/
def decodeMajor29 (w : Nat) : Option Instr :=
  match field w 24 21 with
  | 15 => if field w 27 25 = 0 then some (.redTm (BitVec.ofNat 4 (field w 31 28)) (BitVec.ofNat 7 (field w 20 14)) (BitVec.ofNat 7 (field w 13 7))) else none
  | _ => (AtomOp.ofCode (field w 24 21)).bind fun o => some (.red (BitVec.ofNat 4 (field w 31 28)) (field w 27 27 == 1) (field w 26 26 == 1) (field w 25 25 == 1) o (BitVec.ofNat 7 (field w 20 14)) (BitVec.ofNat 7 (field w 13 7)))

/-- The instructions of major 0x2A (R30, R31). -/
def decodeMajor2A (w : Nat) : Option Instr :=
  (AtomOp.ofCode (field w 24 21)).bind fun o => some (.atoms (BitVec.ofNat 4 (field w 31 28)) (field w 27 27 == 1) (BitVec.ofNat 2 (field w 26 25)) o (BitVec.ofNat 7 (field w 20 14)) (BitVec.ofNat 7 (field w 13 7)))

/-- The instructions of major 0x2C (R30, R31). -/
def decodeMajor2C (w : Nat) : Option Instr :=
  if field w 10 7 = 0 then some (.bra (BitVec.ofNat 21 (field w 31 11))) else none

/-- The instructions of major 0x2D (R30, R31). -/
def decodeMajor2D (w : Nat) : Option Instr :=
  match field w 14 14 with
  | 0 => some (.bz (BitVec.ofNat 17 (field w 31 15)) (BitVec.ofNat 7 (field w 13 7)))
  | 1 => some (.bnz (BitVec.ofNat 17 (field w 31 15)) (BitVec.ofNat 7 (field w 13 7)))
  | _ => none

/-- The instructions of major 0x2E (R30, R31). -/
def decodeMajor2E (w : Nat) : Option Instr :=
  some (.call (BitVec.ofNat 18 (field w 31 14)) (BitVec.ofNat 7 (field w 13 7)))

/-- The instructions of major 0x2F (R30, R31). -/
def decodeMajor2F (w : Nat) : Option Instr :=
  match field w 31 28 with
  | 0 => if field w 27 21 = 0 ∧ field w 13 7 = 0 then some (.ret (BitVec.ofNat 7 (field w 20 14))) else none
  | 1 => if field w 13 7 = 0 then some (.jtab (BitVec.ofNat 7 (field w 27 21)) (BitVec.ofNat 7 (field w 20 14))) else none
  | 2 => some (.callt (BitVec.ofNat 7 (field w 27 21)) (BitVec.ofNat 7 (field w 20 14)) (BitVec.ofNat 7 (field w 13 7)))
  | 7 => if field w 27 21 = 0 ∧ field w 13 7 = 0 then some (.trap (BitVec.ofNat 7 (field w 20 14))) else none
  | 3 => if field w 27 7 = 0 then some (.exit) else none
  | 4 => if field w 27 7 = 0 then some (.yield) else none
  | 5 => if field w 27 7 = 0 then some (.nop) else none
  | 6 => if field w 27 7 = 0 then some (.brk) else none
  | 8 => if field w 27 7 = 0 then some (.gret) else none
  | 15 => if field w 27 7 = 0 then some (.barsync) else none
  | _ => none

/-- The instructions of major 0x30 (R30, R31). -/
def decodeMajor30 (w : Nat) : Option Instr :=
  some (.lpad (BitVec.ofNat 25 (field w 31 7)))

/-- The instructions of major 0x31 (R30, R31). -/
def decodeMajor31 (w : Nat) : Option Instr :=
  some (.meet (BitVec.ofNat 18 (field w 31 14)) (BitVec.ofNat 7 (field w 13 7)))

/-- The instructions of major 0x32 (R30, R31). -/
def decodeMajor32 (w : Nat) : Option Instr :=
  if field w 20 7 = 0 then some (.gcall (BitVec.ofNat 11 (field w 31 21))) else none

/-- The instructions of major 0x33 (R30, R31). -/
def decodeMajor33 (w : Nat) : Option Instr :=
  match field w 31 28 with
  | 0 => if field w 27 14 = 0 then some (.timei (BitVec.ofNat 7 (field w 13 7))) else none
  | 1 => if field w 27 21 = 0 ∧ field w 13 7 = 0 then some (.commitw (BitVec.ofNat 7 (field w 20 14))) else none
  | _ => none

/-- The instructions of major 0x34 (R30, R31). -/
def decodeMajor34 (w : Nat) : Option Instr :=
  if field w 31 28 = 0 ∧ field w 23 21 = 4 then some (.stst (BitVec.ofNat 4 (field w 27 24)) (BitVec.ofNat 7 (field w 20 14)) (BitVec.ofNat 7 (field w 13 7))) else none

/-- The instructions of major 0x35 (R30, R31). -/
def decodeMajor35 (w : Nat) : Option Instr :=
  if field w 31 28 = 0 ∧ field w 23 21 = 4 then some (.ldat (BitVec.ofNat 4 (field w 27 24)) (BitVec.ofNat 7 (field w 20 14)) (BitVec.ofNat 7 (field w 13 7))) else none

/-- The instructions of major 0x36 (R30, R31). -/
def decodeMajor36 (w : Nat) : Option Instr :=
  match field w 24 21 with
  | 0 => if field w 27 25 = 0 then some (.cpy (BitVec.ofNat 4 (field w 31 28)) (BitVec.ofNat 7 (field w 20 14)) (BitVec.ofNat 7 (field w 13 7))) else none
  | 1 => if field w 27 25 = 0 then some (.cpytIn (BitVec.ofNat 4 (field w 31 28)) (BitVec.ofNat 7 (field w 20 14)) (BitVec.ofNat 7 (field w 13 7))) else if field w 27 25 = 1 then some (.cpytOut (BitVec.ofNat 4 (field w 31 28)) (BitVec.ofNat 7 (field w 20 14)) (BitVec.ofNat 7 (field w 13 7))) else none
  | 2 => if field w 27 25 = 0 then some (.halo (BitVec.ofNat 4 (field w 31 28)) (BitVec.ofNat 7 (field w 20 14)) (BitVec.ofNat 7 (field w 13 7))) else none
  | 3 => (Sz.ofCode (field w 27 25)).bind fun s => some (.wstr (BitVec.ofNat 4 (field w 31 28)) s (BitVec.ofNat 7 (field w 20 14)) (BitVec.ofNat 7 (field w 13 7)))
  | 4 => (Sz.ofCode (field w 27 25)).bind fun s => some (.wget (BitVec.ofNat 4 (field w 31 28)) s (BitVec.ofNat 7 (field w 20 14)) (BitVec.ofNat 7 (field w 13 7)))
  | 5 => if field w 27 26 = 0 then some (.wcnt (BitVec.ofNat 4 (field w 31 28)) (field w 25 25 == 1) (BitVec.ofNat 7 (field w 20 14)) (BitVec.ofNat 7 (field w 13 7))) else none
  | 6 => if field w 31 27 = 0 then some (.wwait (field w 26 26 == 1) (field w 25 25 == 1) (BitVec.ofNat 7 (field w 20 14)) (BitVec.ofNat 7 (field w 13 7))) else none
  | 7 => if field w 27 27 = 0 then some (.mloop (BitVec.ofNat 4 (field w 31 28)) (BitVec.ofNat 2 (field w 26 25)) (BitVec.ofNat 7 (field w 20 14)) (BitVec.ofNat 7 (field w 13 7))) else none
  | 8 => if field w 27 25 = 0 then some (.mldb (BitVec.ofNat 4 (field w 31 28)) (BitVec.ofNat 7 (field w 20 14)) (BitVec.ofNat 7 (field w 13 7))) else none
  | 9 => if field w 27 27 = 0 then some (.mrd (BitVec.ofNat 4 (field w 31 28)) (BitVec.ofNat 2 (field w 26 25)) (BitVec.ofNat 7 (field w 20 14)) (BitVec.ofNat 7 (field w 13 7))) else none
  | 10 => if field w 27 27 = 0 ∧ field w 20 14 = 0 then some (.mwm (BitVec.ofNat 4 (field w 31 28)) (BitVec.ofNat 2 (field w 26 25)) (BitVec.ofNat 7 (field w 13 7))) else none
  | 11 => if field w 27 27 = 0 ∧ field w 20 7 = 0 then some (.mzero (BitVec.ofNat 4 (field w 31 28)) (BitVec.ofNat 2 (field w 26 25))) else none
  | 12 => if field w 27 27 = 0 ∧ field w 20 7 = 0 then some (.mrel (BitVec.ofNat 4 (field w 31 28)) (BitVec.ofNat 2 (field w 26 25))) else none
  | _ => none

/-- The instructions of major 0x37 (R30, R31). -/
def decodeMajor37 (w : Nat) : Option Instr :=
  match field w 31 28 with
  | 0 => some (.rndm (BitVec.ofNat 7 (field w 27 21)) (BitVec.ofNat 7 (field w 20 14)) (BitVec.ofNat 7 (field w 13 7)))
  | _ => none

/-- The instructions of major 0x38 (R30, R31). -/
def decodeMajor38 (w : Nat) : Option Instr :=
  if field w 20 14 = 0 then some (.srd (BitVec.ofNat 11 (field w 31 21)) (BitVec.ofNat 7 (field w 13 7))) else none

/-- The instructions of major 0x39 (R30, R31). -/
def decodeMajor39 (w : Nat) : Option Instr :=
  if field w 20 14 = 0 then some (.swr (BitVec.ofNat 11 (field w 31 21)) (BitVec.ofNat 7 (field w 13 7))) else none

/-- The instructions of major 0x3A (R30, R31). -/
def decodeMajor3A (w : Nat) : Option Instr :=
  match field w 31 28 with
  | 0 => if field w 27 21 = 0 then if field w 20 7 = 0 then some (.eret0) else none else if field w 27 21 = 1 then if field w 20 7 = 0 then some (.eret1) else none else none
  | 1 => if field w 27 7 = 0 then some (.xlock) else none
  | 2 => if field w 27 7 = 0 then some (.xunlk) else none
  | 3 => if field w 13 7 = 0 then some (.tlbinv (BitVec.ofNat 7 (field w 27 21)) (BitVec.ofNat 7 (field w 20 14))) else none
  | 4 => if field w 13 7 = 0 then some (.rotinv (BitVec.ofNat 7 (field w 27 21)) (BitVec.ofNat 7 (field w 20 14))) else none
  | 5 => if field w 27 21 = 0 then some (.cmpman (BitVec.ofNat 7 (field w 20 14)) (BitVec.ofNat 7 (field w 13 7))) else none
  | 6 => if field w 27 21 = 0 then some (.lnch (BitVec.ofNat 7 (field w 20 14)) (BitVec.ofNat 7 (field w 13 7))) else none
  | 7 => if field w 27 21 = 0 then some (.chkpTake (BitVec.ofNat 7 (field w 20 14)) (BitVec.ofNat 7 (field w 13 7))) else if field w 27 21 = 1 then some (.chkpPreempt (BitVec.ofNat 7 (field w 20 14)) (BitVec.ofNat 7 (field w 13 7))) else if field w 27 21 = 2 then some (.chkpResume (BitVec.ofNat 7 (field w 20 14)) (BitVec.ofNat 7 (field w 13 7))) else none
  | 8 => if field w 27 21 = 0 ∧ field w 13 7 = 0 then some (.halt (BitVec.ofNat 7 (field w 20 14))) else none
  | 9 => if field w 27 7 = 0 then some (.tfence) else none
  | 10 => if field w 13 7 = 0 then some (.icinv (BitVec.ofNat 7 (field w 27 21)) (BitVec.ofNat 7 (field w 20 14))) else none
  | _ => none

/-- The instructions of major 0x3B (R30, R31). -/
def decodeMajor3B (w : Nat) : Option Instr :=
  match field w 31 28 with
  | 0 => if field w 20 14 = 0 then some (.tlrwRd (BitVec.ofNat 7 (field w 27 21)) (BitVec.ofNat 7 (field w 13 7))) else none
  | 1 => if field w 20 14 = 0 then some (.tlrwWr (BitVec.ofNat 7 (field w 27 21)) (BitVec.ofNat 7 (field w 13 7))) else none
  | _ => none

/-- The instructions of major 0x3C (R30, R31). -/
def decodeMajor3C (w : Nat) : Option Instr :=
  if field w 31 18 = 0 then some (.repPfx (BitVec.ofNat 2 (field w 17 16)) (field w 15 15 == 1) (field w 14 14 == 1) (field w 13 13 == 1) (BitVec.ofNat 6 (field w 12 7))) else none

/-- The instructions of major 0x3D (R30, R31). -/
def decodeMajor3D (w : Nat) : Option Instr :=
  if field w 31 19 = 0 then some (.modPfx (field w 18 18 == 1) (field w 17 17 == 1) (field w 16 16 == 1) (BitVec.ofNat 2 (field w 15 14)) (field w 13 13 == 1) (BitVec.ofNat 2 (field w 12 11)) (field w 10 10 == 1) (BitVec.ofNat 3 (field w 9 7))) else none

/-- A 32-bit word, whose bit 0 is 1: the major opcode in bits [6:1] selects the group (R26, R30). -/
def decode32 (w : Nat) : Option Instr :=
  match field w 6 1 with
  | 0 => decodeMajor00 w
  | 1 => decodeMajor01 w
  | 2 => decodeMajor02 w
  | 3 => decodeMajor03 w
  | 4 => decodeMajor04 w
  | 5 => decodeMajor05 w
  | 6 => decodeMajor06 w
  | 7 => decodeMajor07 w
  | 8 => decodeMajor08 w
  | 9 => decodeMajor09 w
  | 10 => decodeMajor0A w
  | 11 => decodeMajor0B w
  | 12 => decodeMajor0C w
  | 16 => decodeMajor10 w
  | 17 => decodeMajor11 w
  | 18 => decodeMajor12 w
  | 19 => decodeMajor13 w
  | 20 => decodeMajor14 w
  | 21 => decodeMajor15 w
  | 22 => decodeMajor16 w
  | 23 => decodeMajor17 w
  | 24 => decodeMajor18 w
  | 25 => decodeMajor19 w
  | 26 => decodeMajor1A w
  | 27 => decodeMajor1B w
  | 28 => decodeMajor1C w
  | 29 => decodeMajor1D w
  | 30 => decodeMajor1E w
  | 31 => decodeMajor1F w
  | 32 => decodeMajor20 w
  | 33 => decodeMajor21 w
  | 34 => decodeMajor22 w
  | 35 => decodeMajor23 w
  | 36 => decodeMajor24 w
  | 37 => decodeMajor25 w
  | 38 => decodeMajor26 w
  | 40 => decodeMajor28 w
  | 41 => decodeMajor29 w
  | 42 => decodeMajor2A w
  | 44 => decodeMajor2C w
  | 45 => decodeMajor2D w
  | 46 => decodeMajor2E w
  | 47 => decodeMajor2F w
  | 48 => decodeMajor30 w
  | 49 => decodeMajor31 w
  | 50 => decodeMajor32 w
  | 51 => decodeMajor33 w
  | 52 => decodeMajor34 w
  | 53 => decodeMajor35 w
  | 54 => decodeMajor36 w
  | 55 => decodeMajor37 w
  | 56 => decodeMajor38 w
  | 57 => decodeMajor39 w
  | 58 => decodeMajor3A w
  | 59 => decodeMajor3B w
  | 60 => decodeMajor3C w
  | 61 => decodeMajor3D w
  | _ => none

/-- The 16-bit instructions, selected by op and form (R22, R23). -/
def decode16 (w : Nat) : Option Instr :=
  match field w 5 0 with
  | 0 => some (.mov16 (BitVec.ofNat 5 (field w 15 11)) (BitVec.ofNat 5 (field w 10 6)))
  | 2 => some (.movi16 (BitVec.ofNat 5 (field w 15 11)) (BitVec.ofNat 5 (field w 10 6)))
  | 4 => some (.add16 (BitVec.ofNat 5 (field w 15 11)) (BitVec.ofNat 5 (field w 10 6)))
  | 6 => some (.addi16 (BitVec.ofNat 5 (field w 15 11)) (BitVec.ofNat 5 (field w 10 6)))
  | 8 => some (.sub16 (BitVec.ofNat 5 (field w 15 11)) (BitVec.ofNat 5 (field w 10 6)))
  | 10 => some (.subi16 (BitVec.ofNat 5 (field w 15 11)) (BitVec.ofNat 5 (field w 10 6)))
  | 12 => some (.mul16 (BitVec.ofNat 5 (field w 15 11)) (BitVec.ofNat 5 (field w 10 6)))
  | 14 => some (.muli16 (BitVec.ofNat 5 (field w 15 11)) (BitVec.ofNat 5 (field w 10 6)))
  | 16 => some (.and16 (BitVec.ofNat 5 (field w 15 11)) (BitVec.ofNat 5 (field w 10 6)))
  | 18 => some (.andi16 (BitVec.ofNat 5 (field w 15 11)) (BitVec.ofNat 5 (field w 10 6)))
  | 20 => some (.or16 (BitVec.ofNat 5 (field w 15 11)) (BitVec.ofNat 5 (field w 10 6)))
  | 22 => some (.ori16 (BitVec.ofNat 5 (field w 15 11)) (BitVec.ofNat 5 (field w 10 6)))
  | 24 => some (.xor16 (BitVec.ofNat 5 (field w 15 11)) (BitVec.ofNat 5 (field w 10 6)))
  | 26 => some (.xori16 (BitVec.ofNat 5 (field w 15 11)) (BitVec.ofNat 5 (field w 10 6)))
  | 28 => some (.shl16 (BitVec.ofNat 5 (field w 15 11)) (BitVec.ofNat 5 (field w 10 6)))
  | 30 => some (.shli16 (BitVec.ofNat 5 (field w 15 11)) (BitVec.ofNat 5 (field w 10 6)))
  | 32 => some (.shru16 (BitVec.ofNat 5 (field w 15 11)) (BitVec.ofNat 5 (field w 10 6)))
  | 34 => some (.shrui16 (BitVec.ofNat 5 (field w 15 11)) (BitVec.ofNat 5 (field w 10 6)))
  | 36 => some (.shrs16 (BitVec.ofNat 5 (field w 15 11)) (BitVec.ofNat 5 (field w 10 6)))
  | 38 => some (.shrsi16 (BitVec.ofNat 5 (field w 15 11)) (BitVec.ofNat 5 (field w 10 6)))
  | 40 => some (.mins16 (BitVec.ofNat 5 (field w 15 11)) (BitVec.ofNat 5 (field w 10 6)))
  | 42 => some (.minsi16 (BitVec.ofNat 5 (field w 15 11)) (BitVec.ofNat 5 (field w 10 6)))
  | 44 => some (.maxs16 (BitVec.ofNat 5 (field w 15 11)) (BitVec.ofNat 5 (field w 10 6)))
  | 46 => some (.maxsi16 (BitVec.ofNat 5 (field w 15 11)) (BitVec.ofNat 5 (field w 10 6)))
  | 48 => some (.fadd16 (BitVec.ofNat 5 (field w 15 11)) (BitVec.ofNat 5 (field w 10 6)))
  | 52 => some (.fsub16 (BitVec.ofNat 5 (field w 15 11)) (BitVec.ofNat 5 (field w 10 6)))
  | 56 => some (.fmul16 (BitVec.ofNat 5 (field w 15 11)) (BitVec.ofNat 5 (field w 10 6)))
  | 60 => some (.fmax16 (BitVec.ofNat 5 (field w 15 11)) (BitVec.ofNat 5 (field w 10 6)))
  | _ => none

/-- Halfwords of an instruction's word: 1 or 2, and 0 for an event, which has none (R19). -/
def Instr.halves : Instr → Nat
  | .mov16 .. => 1
  | .movi16 .. => 1
  | .add16 .. => 1
  | .addi16 .. => 1
  | .sub16 .. => 1
  | .subi16 .. => 1
  | .mul16 .. => 1
  | .muli16 .. => 1
  | .and16 .. => 1
  | .andi16 .. => 1
  | .or16 .. => 1
  | .ori16 .. => 1
  | .xor16 .. => 1
  | .xori16 .. => 1
  | .shl16 .. => 1
  | .shli16 .. => 1
  | .shru16 .. => 1
  | .shrui16 .. => 1
  | .shrs16 .. => 1
  | .shrsi16 .. => 1
  | .mins16 .. => 1
  | .minsi16 .. => 1
  | .maxs16 .. => 1
  | .maxsi16 .. => 1
  | .fadd16 .. => 1
  | .fsub16 .. => 1
  | .fmul16 .. => 1
  | .fmax16 .. => 1
  | .sfuComplete => 0
  | .tmldApply => 0
  | .loadReturn => 0
  | .monitorTimeout => 0
  | .atomReturn => 0
  | .matrixPass => 0
  | .mldbComplete => 0
  | .mloopComplete => 0
  | .matrixFault => 0
  | .bundleRegroup => 0
  | .fpxWindowEnd => 0
  | .userTrapDelivery => 0
  | .faultRecordPost => 0
  | .pageWalkComplete => 0
  | .tstatResume => 0
  | .tstatSkip => 0
  | .tstatDeliver => 0
  | .tstatEndLaunch => 0
  | .fqheadWrite => 0
  | .fqsizeWrite => 0
  | .meetvWrite => 0
  | .dpartWrite => 0
  | .partcfgWrite => 0
  | .eothiWrite => 0
  | .epsmaxsetWrite => 0
  | .dlvbsetWrite => 0
  | .migctlSwitch => 0
  | .registerWrite => 0
  | .asyncFlagArrival => 0
  | .dirtyLineWriteback => 0
  | .homeApply => 0
  | .vatApply => 0
  | .routerMerge => 0
  | .dualBackgroundCopy => 0
  | .dispatchPlace => 0
  | .warpEnd => 0
  | .launchComplete => 0
  | .serialUnitStart => 0
  | .serialStall => 0
  | .checkpointDue => 0
  | .checkpointSave => 0
  | .preemptRollback => 0
  | .preemptDrain => 0
  | .copyEngineStart => 0
  | .budgetSuspend => 0
  | .priorityTakeover => 0
  | .budgetRefill => 0
  | .copyComplete => 0
  | .enginePageFault => 0
  | .timeBeatSend => 0
  | .timeBeatReceive => 0
  | .referenceLock => 0
  | .deckleFail => 0
  | .neighbourSilence => 0
  | .timeExclusionNotice => 0
  | .rejoin => 0
  | .rejoinNotice => 0
  | .paramNotice => 0
  | .paramSwitch => 0
  | .ststHoldEnd => 0
  | .stampedArrival => 0
  | .ldatServe => 0
  | .windowRequestArrival => 0
  | .windowRefusal => 0
  | .windowAck => 0
  | .windowReadReturn => 0
  | .flitCrcFail => 0
  | .linkDown => 0
  | .portUp => 0
  | .linkFailureNotice => 0
  | .hostMailboxWrite => 0
  | .hostRead => 0
  | .powerOnBoot => 0
  | .partitionImageStart => 0
  | .quote => 0
  | .manifest => 0
  | .rtread => 0
  | .rtwrite => 0
  | .rtflip => 0
  | .fabstat => 0
  | .notices => 0
  | .maintopen => 0
  | .maintclose => 0
  | .reqUnknownCommand => 0
  | .partitionSleep => 0
  | .partitionWakeEvent => 0
  | .wakeComplete => 0
  | .powerGovernor => 0
  | .marginLow => 0
  | .patrolScrub => 0
  | .machineCheck => 0
  | .illegalEncoding => 0
  | .fetchPageFault => 0
  | .deckleTick => 0
  | .servoCandidate => 0
  | .stampedStoreOutcome => 0
  | .tmResultWritten => 0
  | .fqbaseWrite => 0
  | .packetHop => 0
  | _ => 2

/-- The rows of the table that are events rather than instruction words. -/
def Instr.isEvent : Instr → Bool
  | .sfuComplete => true
  | .tmldApply => true
  | .loadReturn => true
  | .monitorTimeout => true
  | .atomReturn => true
  | .matrixPass => true
  | .mldbComplete => true
  | .mloopComplete => true
  | .matrixFault => true
  | .bundleRegroup => true
  | .fpxWindowEnd => true
  | .userTrapDelivery => true
  | .faultRecordPost => true
  | .pageWalkComplete => true
  | .tstatResume => true
  | .tstatSkip => true
  | .tstatDeliver => true
  | .tstatEndLaunch => true
  | .fqheadWrite => true
  | .fqsizeWrite => true
  | .meetvWrite => true
  | .dpartWrite => true
  | .partcfgWrite => true
  | .eothiWrite => true
  | .epsmaxsetWrite => true
  | .dlvbsetWrite => true
  | .migctlSwitch => true
  | .registerWrite => true
  | .asyncFlagArrival => true
  | .dirtyLineWriteback => true
  | .homeApply => true
  | .vatApply => true
  | .routerMerge => true
  | .dualBackgroundCopy => true
  | .dispatchPlace => true
  | .warpEnd => true
  | .launchComplete => true
  | .serialUnitStart => true
  | .serialStall => true
  | .checkpointDue => true
  | .checkpointSave => true
  | .preemptRollback => true
  | .preemptDrain => true
  | .copyEngineStart => true
  | .budgetSuspend => true
  | .priorityTakeover => true
  | .budgetRefill => true
  | .copyComplete => true
  | .enginePageFault => true
  | .timeBeatSend => true
  | .timeBeatReceive => true
  | .referenceLock => true
  | .deckleFail => true
  | .neighbourSilence => true
  | .timeExclusionNotice => true
  | .rejoin => true
  | .rejoinNotice => true
  | .paramNotice => true
  | .paramSwitch => true
  | .ststHoldEnd => true
  | .stampedArrival => true
  | .ldatServe => true
  | .windowRequestArrival => true
  | .windowRefusal => true
  | .windowAck => true
  | .windowReadReturn => true
  | .flitCrcFail => true
  | .linkDown => true
  | .portUp => true
  | .linkFailureNotice => true
  | .hostMailboxWrite => true
  | .hostRead => true
  | .powerOnBoot => true
  | .partitionImageStart => true
  | .quote => true
  | .manifest => true
  | .rtread => true
  | .rtwrite => true
  | .rtflip => true
  | .fabstat => true
  | .notices => true
  | .maintopen => true
  | .maintclose => true
  | .reqUnknownCommand => true
  | .partitionSleep => true
  | .partitionWakeEvent => true
  | .wakeComplete => true
  | .powerGovernor => true
  | .marginLow => true
  | .patrolScrub => true
  | .machineCheck => true
  | .illegalEncoding => true
  | .fetchPageFault => true
  | .deckleTick => true
  | .servoCandidate => true
  | .stampedStoreOutcome => true
  | .tmResultWritten => true
  | .fqbaseWrite => true
  | .packetHop => true
  | _ => false

/-- The word of a constructor, from the same tables; 0 for an event. -/
def encodeWord : Instr → Nat
  | .add b a d => 0x1 + b.toNat * 2097152 + a.toNat * 16384 + d.toNat * 128
  | .sub b a d => 0x10000001 + b.toNat * 2097152 + a.toNat * 16384 + d.toNat * 128
  | .mul b a d => 0x20000001 + b.toNat * 2097152 + a.toNat * 16384 + d.toNat * 128
  | .mulhu b a d => 0x30000001 + b.toNat * 2097152 + a.toNat * 16384 + d.toNat * 128
  | .mulhs b a d => 0x40000001 + b.toNat * 2097152 + a.toNat * 16384 + d.toNat * 128
  | .mad b a d => 0x50000001 + b.toNat * 2097152 + a.toNat * 16384 + d.toNat * 128
  | .and b a d => 0x60000001 + b.toNat * 2097152 + a.toNat * 16384 + d.toNat * 128
  | .or b a d => 0x70000001 + b.toNat * 2097152 + a.toNat * 16384 + d.toNat * 128
  | .xor b a d => 0x80000001 + b.toNat * 2097152 + a.toNat * 16384 + d.toNat * 128
  | .andn b a d => 0x90000001 + b.toNat * 2097152 + a.toNat * 16384 + d.toNat * 128
  | .shl b a d => 0xa0000001 + b.toNat * 2097152 + a.toNat * 16384 + d.toNat * 128
  | .shru b a d => 0xb0000001 + b.toNat * 2097152 + a.toNat * 16384 + d.toNat * 128
  | .shrs b a d => 0xc0000001 + b.toNat * 2097152 + a.toNat * 16384 + d.toNat * 128
  | .rotl b a d => 0xd0000001 + b.toNat * 2097152 + a.toNat * 16384 + d.toNat * 128
  | .addp b a d => 0xe0000001 + b.toNat * 2097152 + a.toNat * 16384 + d.toNat * 128
  | .sel b a d => 0xf0000001 + b.toNat * 2097152 + a.toNat * 16384 + d.toNat * 128
  | .mins b a d => 0x3 + b.toNat * 2097152 + a.toNat * 16384 + d.toNat * 128
  | .minu b a d => 0x10000003 + b.toNat * 2097152 + a.toNat * 16384 + d.toNat * 128
  | .maxs b a d => 0x20000003 + b.toNat * 2097152 + a.toNat * 16384 + d.toNat * 128
  | .maxu b a d => 0x30000003 + b.toNat * 2097152 + a.toNat * 16384 + d.toNat * 128
  | .clz a d => 0x40000003 + a.toNat * 16384 + d.toNat * 128
  | .popc a d => 0x50000003 + a.toNat * 16384 + d.toNat * 128
  | .brev a d => 0x60000003 + a.toNat * 16384 + d.toNat * 128
  | .cmpeq b a d => 0x70000003 + b.toNat * 2097152 + a.toNat * 16384 + d.toNat * 128
  | .cmpne b a d => 0x80000003 + b.toNat * 2097152 + a.toNat * 16384 + d.toNat * 128
  | .cmplts b a d => 0x90000003 + b.toNat * 2097152 + a.toNat * 16384 + d.toNat * 128
  | .cmpltu b a d => 0xa0000003 + b.toNat * 2097152 + a.toNat * 16384 + d.toNat * 128
  | .cmples b a d => 0xb0000003 + b.toNat * 2097152 + a.toNat * 16384 + d.toNat * 128
  | .cmpleu b a d => 0xc0000003 + b.toNat * 2097152 + a.toNat * 16384 + d.toNat * 128
  | .bfx b a d => 0xd0000003 + b.toNat * 2097152 + a.toNat * 16384 + d.toNat * 128
  | .bfi b a d => 0xe0000003 + b.toNat * 2097152 + a.toNat * 16384 + d.toNat * 128
  | .addi i a d => 0x5 + i.toNat * 2097152 + a.toNat * 16384 + d.toNat * 128
  | .andi i a d => 0x7 + i.toNat * 2097152 + a.toNat * 16384 + d.toNat * 128
  | .ori i a d => 0x9 + i.toNat * 2097152 + a.toNat * 16384 + d.toNat * 128
  | .xori i a d => 0xb + i.toNat * 2097152 + a.toNat * 16384 + d.toNat * 128
  | .shli c a d => 0xd + c.toNat * 2097152 + a.toNat * 16384 + d.toNat * 128
  | .shrui c a d => 0x400000d + c.toNat * 2097152 + a.toNat * 16384 + d.toNat * 128
  | .shrsi c a d => 0x800000d + c.toNat * 2097152 + a.toNat * 16384 + d.toNat * 128
  | .rotli c a d => 0xc00000d + c.toNat * 2097152 + a.toNat * 16384 + d.toNat * 128
  | .cmpeqi i a d => 0xf + i.toNat * 2097152 + a.toNat * 16384 + d.toNat * 128
  | .cmpltsi i a d => 0x4000000f + i.toNat * 2097152 + a.toNat * 16384 + d.toNat * 128
  | .cmpltui i a d => 0x8000000f + i.toNat * 2097152 + a.toNat * 16384 + d.toNat * 128
  | .cmpnei i a d => 0xc000000f + i.toNat * 2097152 + a.toNat * 16384 + d.toNat * 128
  | .addpi i a d => 0x11 + i.toNat * 2097152 + a.toNat * 16384 + d.toNat * 128
  | .lui i d => 0x13 + i.toNat * 16384 + d.toNat * 128
  | .auip i d => 0x15 + i.toNat * 16384 + d.toNat * 128
  | .movri a d => 0x17 + a.toNat * 16384 + d.toNat * 128
  | .movro a d => 0x200017 + a.toNat * 16384 + d.toNat * 128
  | .mov16 s d => 0x0 + s.toNat * 2048 + d.toNat * 64
  | .movi16 i d => 0x2 + i.toNat * 2048 + d.toNat * 64
  | .add16 s d => 0x4 + s.toNat * 2048 + d.toNat * 64
  | .addi16 i d => 0x6 + i.toNat * 2048 + d.toNat * 64
  | .sub16 s d => 0x8 + s.toNat * 2048 + d.toNat * 64
  | .subi16 i d => 0xa + i.toNat * 2048 + d.toNat * 64
  | .mul16 s d => 0xc + s.toNat * 2048 + d.toNat * 64
  | .muli16 i d => 0xe + i.toNat * 2048 + d.toNat * 64
  | .and16 s d => 0x10 + s.toNat * 2048 + d.toNat * 64
  | .andi16 i d => 0x12 + i.toNat * 2048 + d.toNat * 64
  | .or16 s d => 0x14 + s.toNat * 2048 + d.toNat * 64
  | .ori16 i d => 0x16 + i.toNat * 2048 + d.toNat * 64
  | .xor16 s d => 0x18 + s.toNat * 2048 + d.toNat * 64
  | .xori16 i d => 0x1a + i.toNat * 2048 + d.toNat * 64
  | .shl16 s d => 0x1c + s.toNat * 2048 + d.toNat * 64
  | .shli16 c d => 0x1e + c.toNat * 2048 + d.toNat * 64
  | .shru16 s d => 0x20 + s.toNat * 2048 + d.toNat * 64
  | .shrui16 c d => 0x22 + c.toNat * 2048 + d.toNat * 64
  | .shrs16 s d => 0x24 + s.toNat * 2048 + d.toNat * 64
  | .shrsi16 c d => 0x26 + c.toNat * 2048 + d.toNat * 64
  | .mins16 s d => 0x28 + s.toNat * 2048 + d.toNat * 64
  | .minsi16 i d => 0x2a + i.toNat * 2048 + d.toNat * 64
  | .maxs16 s d => 0x2c + s.toNat * 2048 + d.toNat * 64
  | .maxsi16 i d => 0x2e + i.toNat * 2048 + d.toNat * 64
  | .fadd16 s d => 0x30 + s.toNat * 2048 + d.toNat * 64
  | .fsub16 s d => 0x34 + s.toNat * 2048 + d.toNat * 64
  | .fmul16 s d => 0x38 + s.toNat * 2048 + d.toNat * 64
  | .fmax16 s d => 0x3c + s.toNat * 2048 + d.toNat * 64
  | .fadd b a d => 0x21 + b.toNat * 2097152 + a.toNat * 16384 + d.toNat * 128
  | .fsub b a d => 0x10000021 + b.toNat * 2097152 + a.toNat * 16384 + d.toNat * 128
  | .fmul b a d => 0x20000021 + b.toNat * 2097152 + a.toNat * 16384 + d.toNat * 128
  | .ffma b a d => 0x30000021 + b.toNat * 2097152 + a.toNat * 16384 + d.toNat * 128
  | .ffms b a d => 0x40000021 + b.toNat * 2097152 + a.toNat * 16384 + d.toNat * 128
  | .fnfma b a d => 0x50000021 + b.toNat * 2097152 + a.toNat * 16384 + d.toNat * 128
  | .fmin b a d => 0x60000021 + b.toNat * 2097152 + a.toNat * 16384 + d.toNat * 128
  | .fmax b a d => 0x70000021 + b.toNat * 2097152 + a.toNat * 16384 + d.toNat * 128
  | .frnd a d => 0x80000021 + a.toNat * 16384 + d.toNat * 128
  | .fcls a d => 0x90000021 + a.toNat * 16384 + d.toNat * 128
  | .fscalebB0 b a d => 0xa0000021 + b.toNat * 2097152 + a.toNat * 16384 + d.toNat * 128
  | .fscalebB1 b a d => 0xb0000021 + b.toNat * 2097152 + a.toNat * 16384 + d.toNat * 128
  | .fscalebB2 b a d => 0xc0000021 + b.toNat * 2097152 + a.toNat * 16384 + d.toNat * 128
  | .fscalebB3 b a d => 0xd0000021 + b.toNat * 2097152 + a.toNat * 16384 + d.toNat * 128
  | .fabs a d => 0xe0000021 + a.toNat * 16384 + d.toNat * 128
  | .fneg a d => 0xf0000021 + a.toNat * 16384 + d.toNat * 128
  | .fcmp cc sig b a d => 0x23 + cc.code * 268435456 + sig.toNat * 2147483648 + b.toNat * 2097152 + a.toNat * 16384 + d.toNat * 128
  | .dcmp cc sig b a d => 0x27 + cc.code * 268435456 + sig.toNat * 2147483648 + b.toNat * 2097152 + a.toNat * 16384 + d.toNat * 128
  | .dadd b a d => 0x25 + b.toNat * 2097152 + a.toNat * 16384 + d.toNat * 128
  | .dsub b a d => 0x10000025 + b.toNat * 2097152 + a.toNat * 16384 + d.toNat * 128
  | .dmul b a d => 0x20000025 + b.toNat * 2097152 + a.toNat * 16384 + d.toNat * 128
  | .dfma b a d => 0x30000025 + b.toNat * 2097152 + a.toNat * 16384 + d.toNat * 128
  | .dmin b a d => 0x40000025 + b.toNat * 2097152 + a.toNat * 16384 + d.toNat * 128
  | .dmax b a d => 0x50000025 + b.toNat * 2097152 + a.toNat * 16384 + d.toNat * 128
  | .drnd a d => 0x60000025 + a.toNat * 16384 + d.toNat * 128
  | .dabs a d => 0x70000025 + a.toNat * 16384 + d.toNat * 128
  | .dneg a d => 0x80000025 + a.toNat * 16384 + d.toNat * 128
  | .hadd2 b a d => 0x29 + b.toNat * 2097152 + a.toNat * 16384 + d.toNat * 128
  | .hsub2 b a d => 0x10000029 + b.toNat * 2097152 + a.toNat * 16384 + d.toNat * 128
  | .hmul2 b a d => 0x20000029 + b.toNat * 2097152 + a.toNat * 16384 + d.toNat * 128
  | .hfma2 b a d => 0x30000029 + b.toNat * 2097152 + a.toNat * 16384 + d.toNat * 128
  | .hmin2 b a d => 0x40000029 + b.toNat * 2097152 + a.toNat * 16384 + d.toNat * 128
  | .hmax2 b a d => 0x50000029 + b.toNat * 2097152 + a.toNat * 16384 + d.toNat * 128
  | .badd2 b a d => 0x80000029 + b.toNat * 2097152 + a.toNat * 16384 + d.toNat * 128
  | .bsub2 b a d => 0x90000029 + b.toNat * 2097152 + a.toNat * 16384 + d.toNat * 128
  | .bmul2 b a d => 0xa0000029 + b.toNat * 2097152 + a.toNat * 16384 + d.toNat * 128
  | .bfma2 b a d => 0xb0000029 + b.toNat * 2097152 + a.toNat * 16384 + d.toNat * 128
  | .bmin2 b a d => 0xc0000029 + b.toNat * 2097152 + a.toNat * 16384 + d.toNat * 128
  | .bmax2 b a d => 0xd0000029 + b.toNat * 2097152 + a.toNat * 16384 + d.toNat * 128
  | .cvt t r c e a d => 0x2b + t.toNat * 2147483648 + r.code * 536870912 + c.code * 33554432 + e.code * 2097152 + a.toNat * 16384 + d.toNat * 128
  | .dot8S8 b a d => 0x2d + b.toNat * 2097152 + a.toNat * 16384 + d.toNat * 128
  | .dot8U8 b a d => 0x1000002d + b.toNat * 2097152 + a.toNat * 16384 + d.toNat * 128
  | .dot8E4m3 b a d => 0x2000002d + b.toNat * 2097152 + a.toNat * 16384 + d.toNat * 128
  | .dot8E5m2 b a d => 0x3000002d + b.toNat * 2097152 + a.toNat * 16384 + d.toNat * 128
  | .dot4S4 b a d => 0x4000002d + b.toNat * 2097152 + a.toNat * 16384 + d.toNat * 128
  | .dot4E2m1 b a d => 0x5000002d + b.toNat * 2097152 + a.toNat * 16384 + d.toNat * 128
  | .frcp L a d => 0x2f + L.toNat * 16777216 + a.toNat * 16384 + d.toNat * 128
  | .frsq L a d => 0x20002f + L.toNat * 16777216 + a.toNat * 16384 + d.toNat * 128
  | .fsqrt L a d => 0x40002f + L.toNat * 16777216 + a.toNat * 16384 + d.toNat * 128
  | .fexp2 L a d => 0x60002f + L.toNat * 16777216 + a.toNat * 16384 + d.toNat * 128
  | .flog2 L a d => 0x80002f + L.toNat * 16777216 + a.toNat * 16384 + d.toNat * 128
  | .fsin L a d => 0xa0002f + L.toNat * 16777216 + a.toNat * 16384 + d.toNat * 128
  | .fcos L a d => 0xc0002f + L.toNat * 16777216 + a.toNat * 16384 + d.toNat * 128
  | .ftanh L a d => 0xe0002f + L.toNat * 16777216 + a.toNat * 16384 + d.toNat * 128
  | .frcpCr r L a d => 0x4000002f + r.code * 268435456 + L.toNat * 16777216 + a.toNat * 16384 + d.toNat * 128
  | .frsqCr r L a d => 0x4020002f + r.code * 268435456 + L.toNat * 16777216 + a.toNat * 16384 + d.toNat * 128
  | .fsqrtCr r L a d => 0x4040002f + r.code * 268435456 + L.toNat * 16777216 + a.toNat * 16384 + d.toNat * 128
  | .drcp r L a d => 0x8000002f + r.code * 268435456 + L.toNat * 16777216 + a.toNat * 16384 + d.toNat * 128
  | .drsq r L a d => 0x8020002f + r.code * 268435456 + L.toNat * 16777216 + a.toNat * 16384 + d.toNat * 128
  | .dsqrt r L a d => 0x8040002f + r.code * 268435456 + L.toNat * 16777216 + a.toNat * 16384 + d.toNat * 128
  | .shfl b a d => 0x31 + b.toNat * 2097152 + a.toNat * 16384 + d.toNat * 128
  | .shfllo b a d => 0x10000031 + b.toNat * 2097152 + a.toNat * 16384 + d.toNat * 128
  | .shflhi b a d => 0x20000031 + b.toNat * 2097152 + a.toNat * 16384 + d.toNat * 128
  | .shflx b a d => 0x30000031 + b.toNat * 2097152 + a.toNat * 16384 + d.toNat * 128
  | .bcast b a d => 0x40000031 + b.toNat * 2097152 + a.toNat * 16384 + d.toNat * 128
  | .voteAny a d => 0x50000031 + a.toNat * 16384 + d.toNat * 128
  | .voteAll a d => 0x60000031 + a.toNat * 16384 + d.toNat * 128
  | .voteBal a d => 0x70000031 + a.toNat * 16384 + d.toNat * 128
  | .matchB a d => 0x80000031 + a.toNat * 16384 + d.toNat * 128
  | .matchF a d => 0x90000031 + a.toNat * 16384 + d.toNat * 128
  | .redwAdd a d => 0xa0000031 + a.toNat * 16384 + d.toNat * 128
  | .redwMin a d => 0xb0000031 + a.toNat * 16384 + d.toNat * 128
  | .redwMax a d => 0xc0000031 + a.toNat * 16384 + d.toNat * 128
  | .scanwAdd a d => 0xd0000031 + a.toNat * 16384 + d.toNat * 128
  | .tilep s d => 0xe0000031 + s.toNat * 2097152 + d.toNat * 128
  | .qswpH a d => 0x33 + a.toNat * 16384 + d.toNat * 128
  | .qswpV a d => 0x10000033 + a.toNat * 16384 + d.toNat * 128
  | .qswpD a d => 0x20000033 + a.toNat * 16384 + d.toNat * 128
  | .qbcast n a d => 0x30000033 + n.toNat * 2097152 + a.toNat * 16384 + d.toNat * 128
  | .qredAdd a d => 0x40000033 + a.toNat * 16384 + d.toNat * 128
  | .qredMin a d => 0x50000033 + a.toNat * 16384 + d.toNat * 128
  | .qredMax a d => 0x60000033 + a.toNat * 16384 + d.toNat * 128
  | .fredwAdd a d => 0x70000033 + a.toNat * 16384 + d.toNat * 128
  | .fredwMin a d => 0x80000033 + a.toNat * 16384 + d.toNat * 128
  | .fredwMax a d => 0x90000033 + a.toNat * 16384 + d.toNat * 128
  | .tmclr L d => 0x35 + L.toNat * 268435456 + d.toNat * 128
  | .tment L a d => 0x200035 + L.toNat * 268435456 + a.toNat * 16384 + d.toNat * 128
  | .tmacc L a d => 0x400035 + L.toNat * 268435456 + a.toNat * 16384 + d.toNat * 128
  | .tmmrg L a d => 0x600035 + L.toNat * 268435456 + a.toNat * 16384 + d.toNat * 128
  | .tmredw L d => 0x800035 + L.toNat * 268435456 + d.toNat * 128
  | .tmexit L a d => 0xa00035 + L.toNat * 268435456 + a.toNat * 16384 + d.toNat * 128
  | .tmld L s a d => 0xc00035 + L.toNat * 268435456 + s.toNat * 33554432 + a.toNat * 16384 + d.toNat * 128
  | .ld o k L z a d => 0x39 + o.code * 1073741824 + k.code * 268435456 + L.toNat * 16777216 + z.code * 2097152 + a.toNat * 16384 + d.toNat * 128
  | .st o k L z a d => 0x3b + o.code * 1073741824 + k.code * 268435456 + L.toNat * 16777216 + z.code * 2097152 + a.toNat * 16384 + d.toNat * 128
  | .lds L z a d => 0x3d + L.toNat * 16777216 + z.code * 2097152 + a.toNat * 16384 + d.toNat * 128
  | .ldsSync L a d => 0x1040003d + L.toNat * 16777216 + a.toNat * 16384 + d.toNat * 128
  | .ldsPeek L a d => 0x2040003d + L.toNat * 16777216 + a.toNat * 16384 + d.toNat * 128
  | .sts L z a d => 0x3f + L.toNat * 16777216 + z.code * 2097152 + a.toNat * 16384 + d.toNat * 128
  | .stsSync L a d => 0x1040003f + L.toNat * 16777216 + a.toNat * 16384 + d.toNat * 128
  | .stsFill L a d => 0x2040003f + L.toNat * 16777216 + a.toNat * 16384 + d.toNat * 128
  | .stsEmpty L a => 0x3040003f + L.toNat * 16777216 + a.toNat * 16384
  | .ldx h L s a d => 0x41 + h.toNat * 536870912 + L.toNat * 33554432 + s.toNat * 2097152 + a.toNat * 16384 + d.toNat * 128
  | .stx h L s a d => 0x43 + h.toNat * 536870912 + L.toNat * 33554432 + s.toNat * 2097152 + a.toNat * 16384 + d.toNat * 128
  | .pref k a => 0x45 + k.toNat * 268435456 + a.toNat * 16384
  | .fence e k s => 0x47 + e.toNat * 67108864 + k.code * 16777216 + s.code * 2097152
  | .waita o k z a d => 0x400049 + o.toNat * 1073741824 + k.code * 268435456 + z.toNat * 2097152 + a.toNat * 16384 + d.toNat * 128
  | .bsig b a => 0x4b + b.toNat * 2097152 + a.toNat * 16384
  | .bwait b a => 0x1000004b + b.toNat * 2097152 + a.toNat * 16384
  | .brdc a d => 0x2000004b + a.toNat * 16384 + d.toNat * 128
  | .waitc c n => 0x4d + c.toNat * 134217728 + n.toNat * 2097152
  | .atom L ar sc o a d => 0x51 + L.toNat * 268435456 + ar.toNat * 134217728 + sc.toNat * 33554432 + o.code * 2097152 + a.toNat * 16384 + d.toNat * 128
  | .red L sat cn fz o a d => 0x53 + L.toNat * 268435456 + sat.toNat * 134217728 + cn.toNat * 67108864 + fz.toNat * 33554432 + o.code * 2097152 + a.toNat * 16384 + d.toNat * 128
  | .redTm L a d => 0x1e00053 + L.toNat * 268435456 + a.toNat * 16384 + d.toNat * 128
  | .atoms L ar sc o a d => 0x55 + L.toNat * 268435456 + ar.toNat * 134217728 + sc.toNat * 33554432 + o.code * 2097152 + a.toNat * 16384 + d.toNat * 128
  | .bra d => 0x59 + d.toNat * 2048
  | .bz d p => 0x5b + d.toNat * 32768 + p.toNat * 128
  | .bnz d p => 0x405b + d.toNat * 32768 + p.toNat * 128
  | .call i d => 0x5d + i.toNat * 16384 + d.toNat * 128
  | .ret a => 0x5f + a.toNat * 16384
  | .jtab b a => 0x1000005f + b.toNat * 2097152 + a.toNat * 16384
  | .callt b a d => 0x2000005f + b.toNat * 2097152 + a.toNat * 16384 + d.toNat * 128
  | .trap a => 0x7000005f + a.toNat * 16384
  | .lpad l => 0x61 + l.toNat * 128
  | .meet i d => 0x63 + i.toNat * 16384 + d.toNat * 128
  | .gcall n => 0x65 + n.toNat * 2097152
  | .timei d => 0x67 + d.toNat * 128
  | .commitw a => 0x10000067 + a.toNat * 16384
  | .stst L a d => 0x800069 + L.toNat * 16777216 + a.toNat * 16384 + d.toNat * 128
  | .ldat L a d => 0x80006b + L.toNat * 16777216 + a.toNat * 16384 + d.toNat * 128
  | .cpy L a d => 0x6d + L.toNat * 268435456 + a.toNat * 16384 + d.toNat * 128
  | .cpytIn L a d => 0x20006d + L.toNat * 268435456 + a.toNat * 16384 + d.toNat * 128
  | .cpytOut L a d => 0x220006d + L.toNat * 268435456 + a.toNat * 16384 + d.toNat * 128
  | .halo L a d => 0x40006d + L.toNat * 268435456 + a.toNat * 16384 + d.toNat * 128
  | .wstr L s a d => 0x60006d + L.toNat * 268435456 + s.code * 33554432 + a.toNat * 16384 + d.toNat * 128
  | .wget L s a d => 0x80006d + L.toNat * 268435456 + s.code * 33554432 + a.toNat * 16384 + d.toNat * 128
  | .wcnt L c a d => 0xa0006d + L.toNat * 268435456 + c.toNat * 33554432 + a.toNat * 16384 + d.toNat * 128
  | .wwait q c a d => 0xc0006d + q.toNat * 67108864 + c.toNat * 33554432 + a.toNat * 16384 + d.toNat * 128
  | .mloop L s a d => 0xe0006d + L.toNat * 268435456 + s.toNat * 33554432 + a.toNat * 16384 + d.toNat * 128
  | .mldb L a d => 0x100006d + L.toNat * 268435456 + a.toNat * 16384 + d.toNat * 128
  | .mrd L t a d => 0x120006d + L.toNat * 268435456 + t.toNat * 33554432 + a.toNat * 16384 + d.toNat * 128
  | .mwm L t d => 0x140006d + L.toNat * 268435456 + t.toNat * 33554432 + d.toNat * 128
  | .mzero L t => 0x160006d + L.toNat * 268435456 + t.toNat * 33554432
  | .mrel L t => 0x180006d + L.toNat * 268435456 + t.toNat * 33554432
  | .rndm b a d => 0x6f + b.toNat * 2097152 + a.toNat * 16384 + d.toNat * 128
  | .srd r d => 0x71 + r.toNat * 2097152 + d.toNat * 128
  | .swr r d => 0x73 + r.toNat * 2097152 + d.toNat * 128
  | .tlbinv b a => 0x30000075 + b.toNat * 2097152 + a.toNat * 16384
  | .rotinv b a => 0x40000075 + b.toNat * 2097152 + a.toNat * 16384
  | .cmpman a d => 0x50000075 + a.toNat * 16384 + d.toNat * 128
  | .lnch a d => 0x60000075 + a.toNat * 16384 + d.toNat * 128
  | .chkpTake a d => 0x70000075 + a.toNat * 16384 + d.toNat * 128
  | .chkpPreempt a d => 0x70200075 + a.toNat * 16384 + d.toNat * 128
  | .chkpResume a d => 0x70400075 + a.toNat * 16384 + d.toNat * 128
  | .halt a => 0x80000075 + a.toNat * 16384
  | .icinv b a => 0xa0000075 + b.toNat * 2097152 + a.toNat * 16384
  | .tlrwRd n d => 0x77 + n.toNat * 2097152 + d.toNat * 128
  | .tlrwWr n d => 0x10000077 + n.toNat * 2097152 + d.toNat * 128
  | .repPfx s x y z c => 0x79 + s.toNat * 65536 + x.toNat * 32768 + y.toNat * 16384 + z.toNat * 8192 + c.toNat * 128
  | .modPfx f z u r o p q e => 0x7b + f.toNat * 262144 + z.toNat * 131072 + u.toNat * 65536 + r.toNat * 16384 + o.toNat * 8192 + p.toNat * 2048 + q.toNat * 1024 + e.toNat * 128
  | .divs b a d => 0x19 + b.toNat * 2097152 + a.toNat * 16384 + d.toNat * 128
  | .divu b a d => 0x10000019 + b.toNat * 2097152 + a.toNat * 16384 + d.toNat * 128
  | .rems b a d => 0x20000019 + b.toNat * 2097152 + a.toNat * 16384 + d.toNat * 128
  | .remu b a d => 0x30000019 + b.toNat * 2097152 + a.toNat * 16384 + d.toNat * 128
  | .byteperm b a d => 0xf0000003 + b.toNat * 2097152 + a.toNat * 16384 + d.toNat * 128
  | .ldc32 L a d => 0x400037 + L.toNat * 16777216 + a.toNat * 16384 + d.toNat * 128
  | .wfence => 0xf0000031
  | .syncb => 0x3000004b
  | .exit => 0x3000005f
  | .yield => 0x4000005f
  | .nop => 0x5000005f
  | .brk => 0x6000005f
  | .gret => 0x8000005f
  | .eret0 => 0x75
  | .eret1 => 0x200075
  | .xlock => 0x10000075
  | .xunlk => 0x20000075
  | .tfence => 0x90000075
  | .barsync => 0xf000005f
  | _ => 0

/-- The instruction a word names, before its operands are checked (R19). -/
def decodeRaw (w : Nat) : Option Instr :=
  if w % 2 = 0 then decode16 (w % 65536) else decode32 w

/-- The instruction a word names, or why it is ILLEGAL (R28, R43). -/
def decodeWord (w : Nat) : Except Reject Instr :=
  match decodeRaw w with
  | none => .error .namesNothing
  | some i => if i.wf then .ok i else .error .badOperand

/-- Bytes in little-endian order as a number (R10). -/
def leNat : List Byte → Nat
  | [] => 0
  | b :: bs => b.toNat + 256 * leNat bs

/-- The first n bytes of a number in little-endian order (R10). -/
def leBytes : Nat → Nat → List Byte
  | 0, _ => []
  | n + 1, x => BitVec.ofNat 8 x :: leBytes n (x / 256)

/-- Decode the instruction at the head of a run of bytes: the instruction and the bytes after it. Total on any bytes
(R19, R43). -/
def decode : List Byte → Except Reject (Instr × List Byte)
  | b0 :: b1 :: rest =>
    if b0.toNat % 2 = 0 then (decodeWord (leNat [b0, b1])).map fun i => (i, rest)
    else match rest with
      | b2 :: b3 :: rest' => (decodeWord (leNat [b0, b1, b2, b3])).map fun i => (i, rest')
      | _ => .error .truncated
  | _ => .error .truncated

/-- The bytes of an instruction word (R10, R19). -/
def encode (i : Instr) : List Byte := leBytes (2 * i.halves) (encodeWord i)

/-- What the decoder reads from a table row's bits: nbits of them, the bits above zero. -/
def decodeTableWord (nbits w : Nat) : Option Instr :=
  match decode (leBytes 4 (w % 2 ^ nbits)) with
  | .ok (i, _) => some i
  | .error _ => none

end Sys2Proof
end

