-- ==== Sys2Proof/Machine/State.lean ====
section
/-!
DEFINITION. The state of one Oligrim 12 package, as plain data: every piece of state the spec names, each part with the rule
that names it, and the state at power-on. The reasons a step can stop stand here too.
-/

namespace Sys2Proof.Machine

/-- A sparse table: entries by key, keys strictly rising (kept so by the operations of Machine/Ops.lean). -/
abbrev Tbl (α : Type) := List (Nat × α)

/-- The causes of traps, in the order of their codes (R289). -/
inductive Cause where
  | illegal | compat | lookahead | regrange | align | priv | cflow | format | fpx | argument | trap | brk
  | page | rot | domain | gate | stamp | late | engine | window | digest | launch
  deriving DecidableEq, Repr

/-- The level code runs at (R288). -/
inductive Level where
  | user | supervisor | hypervisor
  deriving DecidableEq, Repr

/-- Why a lane that has not exited issues nothing (R55, R58). A waiting lane has had no effect from the instruction at its
PC, which issues again when the lane is woken (R407). -/
inductive Wait where
  /-- The lane waits for nothing. -/
  | run
  /-- It waits for an operation of an open window or an earlier access (R33, R34, R185). -/
  | pend
  /-- It waits in a sync access, in its word's queue (R167, R168). -/
  | sync
  /-- It waits for a write to a scratchpad word (R169). -/
  | word (block offset : Nat)
  /-- It waits for a write to a memory line (R169, R192, R193). -/
  | line (addr : Nat)
  /-- It waits for an engine counter, a table entry or a tile (R172, R173, R200, R201). -/
  | count
  /-- It waits for a window counter (R353). -/
  | window
  /-- It waits for the deckle (R331). -/
  | time
  /-- It waits for its pair's extended set (R67). -/
  | lock
  /-- It waits for a checkpoint or a pre-emption to finish (R308). -/
  | domain
  /-- It waits in a SYNCB it has arrived at (R194). -/
  | barrier
  /-- It is stopped for an enabled FP exception (R86). -/
  | fpx
  /-- It is stopped for another cause of a window that has not ended (R87, R291). -/
  | trap
  deriving DecidableEq, Repr

/-- An open lookahead window: the operations that opened it, the registers they write, how many more instructions may issue
before one waits (R33, R35), and whether every later instruction waits (R122). -/
structure Window where
  ids : List Nat
  dest : List Nat
  left : Nat
  strict : Bool
  deriving DecidableEq, Repr

/-- A launched lane: one thread (R51–R54, R70). -/
structure Thread where
  /-- A helper lane (R51, R59). -/
  helper : Bool
  /-- The lane has exited (R143). -/
  exited : Bool
  pc : Word
  meetv : Word
  /-- REP remaining count, 0 outside a repeated unit (R38). -/
  rem : Nat
  /-- v0 to v127; v96 to v127 count only while the warp holds its extended set (R63, R66). -/
  regs : List Word
  fpmode : Word
  fpflags : Word
  excmask : Word
  tmctl : Word
  tmshape : Word
  /-- Stamp of the lane's most recently accepted STST (R327). -/
  lstamp : DWord
  /-- The lane has loaded with an acquire of cluster scope or wider (R154). -/
  acq : Bool
  windows : List Window
  /-- Operations and destinations of the repeats done so far of a repeated long-latency instruction (R35). -/
  repIds : List Nat
  repDests : List Nat
  wait : Wait
  /-- SYNCBs the thread has executed, and whether it has arrived at one it has not completed (R194, R407). -/
  syncs : Nat
  arrived : Bool
  /-- The pending-flag word (R300). -/
  pflags : BitVec 5
  deriving DecidableEq, Repr

/-- A code segment: virtual base and size in bytes (R20, R222). -/
structure CodeSeg where
  base : Nat
  size : Nat
  deriving DecidableEq, Repr

/-- What a trap reports (R290–R292, R296). -/
structure Report where
  cause : Cause
  deferred : Bool
  /-- The cause is of supervisor class, by itself or because a gate call is open (R254, R289). -/
  super : Bool
  gate : Bool
  /-- Class of the operation behind a deferred cause (R292). -/
  cls : Nat
  pc : Word
  lane : Nat
  lo : Word
  hi : Word
  rem : Nat
  /-- Original code of a LAUNCH report (R295). -/
  orig : Nat
  /-- A DOMAIN of memory, which ranks after ROT (R291). -/
  mem : Bool
  /-- The operation a fault after acceptance holds or stops (R185, R218, R374). -/
  op : Option Nat
  /-- The lanes active in the faulting instruction, kept while the report waits for delivery (R298). -/
  lanes : Mask
  /-- Its record was posted, or held for its queue, when the fault arose (R297). -/
  posted : Bool
  deriving DecidableEq, Repr

/-- A cause that falls due after acceptance and waits for its WAITC (R173, R290, R301). -/
structure Deferred where
  id : Nat
  cls : Nat
  cause : Cause
  lo : Word
  hi : Word
  deriving DecidableEq, Repr

/-- A suspended warp: its report, the lanes active in the faulting instruction, and whether the record has been posted
(R296–R298). -/
structure Susp where
  report : Report
  mask : Mask
  posted : Bool
  did : Nat
  deriving DecidableEq, Repr

/-- What a trap frame holds for one lane (R294). -/
structure SavedLane where
  pc : Word
  meetv : Word
  rem : Nat
  arrived : Bool
  regs : List Word
  /-- Windows over accesses that the trap has stopped (R407), and the repeats done so far of a unit (R35). -/
  windows : List Window
  repIds : List Nat
  repDests : List Nat
  deriving DecidableEq, Repr

/-- What one lane's access does once it is translated (R187, R193, R198, R199, R273). -/
inductive AccKind where
  | load (hint : Hint)
  | store (data : List Byte) (hint : Hint)
  | atom (op : AtomOp) (v v2 : DWord) (rm : Rm) (cnan : Bool)
  | red (op : AtomOp) (v : DWord) (rm : Rm) (fz cn sat : Bool)
  | redTm (words : List Word)
  | bsig (v : DWord)
  /-- The translation of a word on which a lane waits, and the PC past the waiting instruction (R185, R192, R193). -/
  | probe (past : Word)
  deriving DecidableEq, Repr

/-- One lane's access to memory: the lane, the whole address pair, the size in bytes, what it does, its order and scope
(R180), and the first register a result goes to. -/
structure Acc where
  lane : Nat
  va : Nat
  size : Nat
  kind : AccKind
  ord : Order
  scope : Scope
  dst : Nat
  /-- Only a normal page serves it (R184). -/
  only : Bool
  deriving DecidableEq, Repr

/-- The result of one lane, ready to be written: registers with values, and FPFLAGS bits raised (R33, R84). -/
structure LaneWrite where
  lane : Nat
  regs : List (Nat × Word)
  flags : BitVec 5
  deriving DecidableEq, Repr

/-- Which event writes a result. -/
inductive ResKind where
  | load | atom | sfu | tm | mrd | window
  deriving DecidableEq, Repr

/-- A lane whose LDAT waits for its tick, and its record's virtual address (R330). -/
structure LdatLane where
  lane : Nat
  tick : Nat
  va : Nat
  deriving DecidableEq, Repr

/-- How a lane held at its instruction goes on: the PC and the remaining count, whether it counts in its windows then, and the
window it opens: whether the unit ends, and the length (R33, R35, R38). -/
structure Held where
  pc : Word
  rem : Nat
  counts : Bool
  last : Bool
  L : Nat
  deriving DecidableEq, Repr

/-- A lane that waits in a sync access: its word by block and index, the address word that named it, and the value an STS
writes (R167, R168, R377). -/
structure SyncLane where
  lane : Nat
  block : Nat
  index : Nat
  word : Nat
  value : Word
  deriving DecidableEq, Repr

/-- A lane operation issued and not complete (R33). -/
inductive PendKind where
  | result (kind : ResKind) (writes : List LaneWrite)
  /-- Accesses whose translation is not done, or that are held after a fault, with the results of the others so far (R185). -/
  | access (accs : List Acc) (held : Bool) (res : ResKind) (writes : List LaneWrite)
  /-- Waiting sync accesses, in order of arrival; LDS with its destination (R167, R168, R188). An LDS that acquires carries its
  scope. Lanes held at the instruction carry how they go on. -/
  | ldsSync (lanes : List SyncLane) (dst : Nat) (acq : Option Scope) (next : Option Held)
  | stsSync (lanes : List SyncLane) (next : Option Held)
  /-- MRD: cluster, tile, whether it holds FP64, and each lane's row word (R215). -/
  | mrd (cluster tile : Nat) (wide : Bool) (lanes : List (Nat × Word)) (dst : Nat)
  /-- A read through a window: answered through packets, with the results so far (R352). -/
  | wget (writes : List LaneWrite)
  /-- LDAT: the lanes that wait for their ticks (R330). A lane held at the instruction goes on as for sync accesses. -/
  | ldat (lanes : List LdatLane) (dst : Nat) (next : Option Held)
  /-- A lane's CMPMAN of a manifest that lies, in part, behind a window: the words that have come, by index (R184, R386). -/
  | manifest (lane : Nat) (words : List (Nat × Word))
  deriving DecidableEq, Repr

/-- A pending lane operation. -/
structure Pending where
  id : Nat
  core : Nat
  slot : Nat
  pc : Word
  /-- The engine counter it counts in (R171). -/
  cls : Option Nat
  kind : PendKind
  deriving DecidableEq, Repr

/-- The frame of a user trap: no instruction can address it (R294). It holds the report, the return PC of the reported lane
(R145, R305) and the reports still to be delivered (R291). -/
structure TrapFrame where
  lanes : Tbl SavedLane
  partn : Word
  report : Report
  retPc : Word
  pending : List Report
  /-- Accesses that wait on a condition, to be issued again on return (R407). -/
  retry : List Pending
  deriving DecidableEq, Repr

/-- One frame of the gate stack (R252). -/
structure GateFrame where
  pc : Word
  code : CodeSeg
  did : Nat
  slot : Nat
  partn : Word
  /-- Per launched lane: MEETV, then v8 up to the last base register. -/
  lanes : Tbl (List Word)
  deriving DecidableEq, Repr

/-- A bundle: lanes that issue in lock-step, the cycle since which it has been ready, and the cycle until which a YIELD has it
passed over (R55, R144, R232). -/
structure Bundle where
  mask : Mask
  since : Nat
  yield : Nat
  deriving DecidableEq, Repr

/-- A warp in a warp slot (R50, R244). -/
structure Warp where
  /-- Launched lanes only: lane number and thread (R51). -/
  threads : Tbl Thread
  bundles : List Bundle
  block : Nat
  /-- Warp index in its block (R70). -/
  index : Nat
  part : Nat
  level : Level
  homeDid : Nat
  curDid : Nat
  homeSlot : Nat
  curSlot : Nat
  code : CodeSeg
  /-- Size code of the tile partition (R62). -/
  partn : Word
  /-- Declared base count (R64). -/
  nbase : Nat
  /-- Engine counters: per class, the counted operations in issue order, and whether each has completed (R171, R172). CNTn is
  the length of list n. -/
  engine : List (List (Nat × Bool))
  gates : List GateFrame
  handler : Option TrapFrame
  /-- Lanes whose FPX is still to be delivered, and the causes of the open window (R87, R291). -/
  pendingTraps : List Report
  deferred : List Deferred
  susp : Option Susp
  /-- This warp holds its pair's extended set (R67). -/
  xown : Bool
  /-- When its waiting XLOCK was first issued (R67). -/
  xreq : Option Nat
  /-- Trap handler offset of the launch, or none (R222). -/
  trapVec : Option Word
  prio : Nat
  /-- Order of admission (R232). -/
  admitted : Nat
  /-- The tick of its last issue (R382). -/
  lastTick : Nat
  /-- Accesses that waited on a condition when the warp was stopped, to be issued again when it resumes (R407). -/
  retry : List Pending
  /-- The gate entry a GCALL that waits has read (R249). -/
  gcall : Option (List Word)
  deriving DecidableEq, Repr

/-- A resident block (R50, R51, R160–R168). -/
structure Block where
  launch : Nat
  index : Nat
  bx : Nat
  by_ : Nat
  bz : Nat
  gangPos : Nat
  gangSize : Nat
  core : Nat
  /-- Domain slot whose segment holds it. -/
  slot : Nat
  /-- Warp slots, by warp index. -/
  slots : List Nat
  pad : Nat
  /-- Scratchpad bytes that are not zero, by offset (R163). -/
  sp : List Host.Cell
  /-- Indices of the scratchpad words that are full (R167). -/
  full : List Nat
  /-- Its record slots of the core, by block-relative index (R162, R174). -/
  recSlots : List Nat
  /-- First granules of its register and scratchpad places, in KiB (R162). -/
  regAt : Nat
  extAt : Nat
  padAt : Nat
  /-- Sum of the hashes of its folded stores (R378). -/
  digest : BitVec 128
  ended : Bool
  deriving DecidableEq, Repr

/-- An extended set: 32 registers of 32 lanes, by lane (R66). -/
structure XSet where
  lanes : Tbl (List Word)
  deriving DecidableEq, Repr

/-- A transformed-mean table slot (R267, R268). -/
structure TmSlot where
  valid : Bool
  lo : Word
  hi : Word
  ylo : Word
  yhi : Word
  words : List Word
  deriving DecidableEq, Repr

/-- The trap registers of a core (R292). -/
structure TrapRegs where
  tcause : Word
  tpc : Word
  tlane : Word
  taddrlo : Word
  taddrhi : Word
  tframe : Word
  tvec : Word
  deriving DecidableEq, Repr

/-- A core: a compute core, or a control core, whose threads run as one warp in slot 0 (R4, R288). -/
structure Core where
  /-- DPART0 to DPART3 (R246). -/
  dpart : List (BitVec 128)
  ishare : List Word
  ckint : List Word
  /-- The checkpoint interval in force in each domain slot (R258). -/
  ckUse : List Nat
  /-- Deficit and last issue of domain slot d in issue partition p, at index 4p + d (R232). -/
  deficit : List Int
  /-- Issue quantum in force, at the same index (R231). -/
  share : List Nat
  lastIssue : List Nat
  /-- The boundary triple of each domain slot's segment (R160–R162). -/
  pbnd : List (Nat × Nat × Nat)
  warps : Tbl Warp
  /-- Allocated extended sets, by pair (R66). -/
  xsets : Tbl XSet
  /-- L1 bytes of each domain slot, by local address, with a dirty mark (R160, R236). -/
  l1 : Tbl (Tbl (Byte × Bool))
  /-- Lines of each domain slot that a .st access has marked as first to be evicted (R181). -/
  soon : Tbl (List Nat)
  /-- Code bytes cached for fetch, by virtual address (R307). -/
  icache : List Host.Cell
  /-- Tile-layout records as LDX, STX and TLRW see them (R174, R175). -/
  recs : Tbl (List Word)
  /-- Records written without TFENCE since: what an engine command reads, and the writes it does not see yet, oldest first,
  with the warp slot of each (R177). -/
  recOld : Tbl (List Word × List (Nat × List Word))
  tms : Tbl TmSlot
  trap : TrapRegs
  /-- A control core stopped by a second fault (R299). -/
  stopped : Bool
  /-- A control core halted, with the tick that ends the halt or 0 (R309). -/
  halted : Option Nat
  /-- Domain slots whose issue is stopped for a checkpoint (R257). -/
  stopSlots : List Nat
  /-- Domain slots that hold a pre-empted domain's state (R260). -/
  frozen : List Nat
  deriving DecidableEq, Repr

/-- An accumulator tile (R200). -/
structure Tile where
  holder : Option Nat
  /-- FP64 or FP32, once an MLOOP has set it. -/
  fp64 : Option Bool
  mark : Nat
  /-- Element (r, c) at index 64r + c; a missing one is +0. -/
  elems : List DWord
  deriving DecidableEq, Repr

/-- What a matrix command does, with its operands as captured at acceptance (R204, R213, R217). -/
inductive MatKind where
  | mldb (fw : Word) (addr : Nat) (off k : Nat)
  | mloop (fw : Word) (tile s k : Nat) (aspad : Bool) (addr boff stride ainc binc : Nat) (ascale bscale : List Word)
  | mzero (tile : Nat)
  | mrel (tile : Nat)
  deriving DecidableEq, Repr

/-- An entry of a cluster's reservation table, in acceptance order (R201). -/
structure MatCmd where
  id : Nat
  core : Nat
  slot : Nat
  lane : Nat
  lanes : Mask
  pc : Word
  block : Nat
  part : Nat
  did : Nat
  prio : Nat
  kind : MatKind
  /-- Passes done. -/
  done : Nat
  /-- Flags of the roundings so far (R212). -/
  flags : BitVec 5
  /-- Stopped by a fault (R218). -/
  stopped : Bool
  deriving DecidableEq, Repr

/-- A cluster's matrix engine and mould store (R200–R203). -/
structure Cluster where
  tiles : List Tile
  /-- Mould-store bytes that are not zero, at 131,072 × column + offset. -/
  mould : List Host.Cell
  /-- Region tags: DID and whether the world is non-secure (R203). -/
  tags : Tbl (Nat × Bool)
  table : List MatCmd
  deriving DecidableEq, Repr

/-- An entry of the engine ownership table; the balance is in L2 clocks (R278, R279). -/
structure Eot where
  v : Bool
  ns : Bool
  engines : BitVec 24
  budget : Nat
  balance : Int
  deriving DecidableEq, Repr

/-- A fault record that waits for room in its queue (R293, R296, R380). -/
inductive HeldRec where
  /-- One that a warp holds: its core and slot, the domain slot it acts in, whether the warp is suspended for it, its level, the
  report, and the record without its last word. -/
  | warp (core slot dslot : Nat) (waits : Bool) (level : Nat) (r : Report) (ws : List Word)
  /-- One posted for no warp. -/
  | words (ws : List Word)
  deriving DecidableEq, Repr

/-- A partition (R275, R276) and its registers. -/
structure Part where
  /-- PARTCFG: valid, and size in slices (R276). -/
  valid : Bool
  size : Nat
  /-- WORLD.NS (R276). -/
  ns : Bool
  pgtlo : Word
  pgthi : Word
  pkey : Word
  wtlo : Word
  wthi : Word
  wtsize : Word
  fqlo : Word
  fqhi : Word
  fqsize : Word
  fqtail : Word
  fqhead : Word
  fpmdef : Word
  ckintdef : Word
  lseedlo : Word
  lseedhi : Word
  detmode : Word
  digest : BitVec 128
  lattol : Word
  eot : Eot
  miglo : Word
  mighi : Word
  /-- MIGCTL: EN, OVF, BSEL and log size; MIGCNT; the 64 KiB pages written in this round (R400). -/
  migEn : Bool
  migOvf : Bool
  migBsel : Bool
  migLog : Nat
  migCnt : Nat
  migPages : List Nat
  /-- Records that wait for room, oldest first (R293, R296). -/
  heldRecs : List HeldRec
  /-- Sleep state 0 to 3 and whether an exit is under way (R397, R398). -/
  sleep : Nat
  waking : Bool
  /-- The partition has failed (R299, R399). -/
  failed : Bool
  /-- Its system image has started (R388). -/
  started : Bool
  /-- It lies in the open maintenance window (R392). -/
  maint : Bool
  /-- Manifest field 3 (R385, R388). -/
  image : List Byte
  deriving DecidableEq, Repr

/-- Where a launch stands (R223, R380–R382). -/
inductive LaunchPhase where
  | queued | running | serial (unit : Nat) | finished
  deriving DecidableEq, Repr

/-- A launch: the record as LNCH copied it, and its progress (R222–R230, R376–R382). -/
structure Launch where
  part : Nat
  /-- Virtual address of the record. -/
  addr : Nat
  words : List Word
  /-- Order of LNCH (R226). -/
  seq : Nat
  /-- Control core that executed LNCH (R380). -/
  by_ : Nat
  status : Byte
  phase : LaunchPhase
  /-- Next block to place, and blocks that have ended. -/
  next : Nat
  ended : Nat
  /-- The core of each placed block. -/
  placed : Tbl Nat
  /-- Launch digest so far (R379) and the first computed one. -/
  digest : BitVec 128
  first : BitVec 128
  /-- Old contents of lines the launch has written, newest first (R381). -/
  log : List (Nat × List Byte)
  /-- An irrevocable operation was accepted, or the log overflowed (R381). -/
  fixed : Bool
  /-- The last tick at which a warp that has ended issued a bundle (R382). -/
  lastTick : Nat
  deriving DecidableEq, Repr

/-- What a checkpoint saves of one core (R257), with the domain's table slots (R268). -/
structure CoreImage where
  warps : Tbl Warp
  xsets : Tbl XSet
  recs : Tbl (List Word)
  tms : Tbl TmSlot
  deriving DecidableEq, Repr

/-- What a checkpoint saves of one cluster, with the domain's stopped commands (R218, R220). -/
structure ClusterImage where
  tiles : Tbl Tile
  mould : List Host.Cell
  tags : Tbl (Nat × Bool)
  table : List MatCmd
  deriving DecidableEq, Repr

/-- One stamped version (R328). -/
structure Version where
  stamp : Nat
  source : Nat
  data : List Byte
  deriving DecidableEq, Repr

/-- A stamped record: versions in order, newest last, and whether the initial contents are gone for good (R328, R339). -/
structure Stamped where
  versions : List Version
  gone : Bool
  deriving DecidableEq, Repr

/-- A cached translation of a 64 KiB page (R286): the page it names, the leaf's permissions, and the bits of an
address inside its leaf. -/
structure TlbEntry where
  part : Nat
  vpage : Nat
  ppage : Nat
  s : Bool
  x : Bool
  w : Bool
  r : Bool
  leaf : Nat
  deriving DecidableEq, Repr

/-- A page with two homes (R319–R321). -/
structure Dual where
  page : Nat
  home : Nat
  next : Nat
  copied : Bool
  deriving DecidableEq, Repr

/-- What a request asks of a home bank or its vat (R313). -/
inductive ReqKind where
  | write (data : List Byte)
  | red (op : AtomOp) (v : DWord) (rm : Rm) (fz cn sat : Bool)
  | redTm (words : List Word)
  | bsig (v : DWord)
  deriving DecidableEq, Repr

/-- A request on its way to its home (R312–R315). A merged one carries the lanes of all it merged. -/
structure Req where
  id : Nat
  part : Nat
  did : Nat
  ns : Bool
  addr : Nat
  size : Nat
  kind : ReqKind
  release : Bool
  scope : Scope
  /-- Core, slot and lane of each requester. -/
  from_ : List (Nat × Nat × Nat)
  /-- Operations of class 6 that it belongs to: core, slot and number (R199). -/
  counts : List (Nat × Nat × Nat)
  deriving DecidableEq, Repr

/-- What a packet through a window carries (R351–R357). -/
inductive PktKind where
  | write (data : List Byte)
  | read (size dst : Nat) (acq : Bool)
  | atom (op : AtomOp) (v v2 : DWord) (rm : Rm) (cnan : Bool) (dst : Nat) (acq : Bool)
  | red (op : AtomOp) (v : DWord) (rm : Rm) (fz cn sat : Bool)
  | redTm (words : List Word)
  | stst (stamp : Nat) (data : List Byte)
  | ldat (tick dst : Nat)
  deriving DecidableEq, Repr

/-- A packet sent through a window and not yet acknowledged or answered (R351, R355). -/
structure Pkt where
  id : Nat
  /-- The pending lane operation it belongs to, if any. -/
  op : Option Nat
  part : Nat
  core : Nat
  slot : Nat
  lane : Nat
  /-- The engine command it belongs to, if any (R371). -/
  cmd : Option Nat
  w : Nat
  rpkg : Nat
  raddr : Nat
  va : Nat
  kind : PktKind
  cls : Traffic
  /-- What its header names besides: the source package, the partition key and the world (R356). -/
  src : Nat
  key : Word
  ns : Bool
  bank : Bool
  /-- It has left the core (R355). -/
  sent : Bool
  /-- No port of its entry was up when it left: it is dropped, and a refusal or a LATE comes back (R359, R361). -/
  lost : Bool
  /-- The engine counter and the operation it counts for (R172). -/
  cnt : Option (Nat × Nat)
  /-- The port it left by (R359), whether the next hop has acknowledged its flits, and whether it is a packet of class ORDERED that a
  link failure has sent another way (R361). -/
  port : Option Nat := none
  acked : Bool := false
  again : Bool := false
  deriving DecidableEq, Repr

/-- A stamped store accepted and not complete (R329). -/
structure Hold where
  id : Nat
  part : Nat
  core : Nat
  slot : Nat
  lane : Nat
  va : Nat
  /-- Local address of the record, or window number and remote address. -/
  addr : Nat
  remote : Option (Nat × Nat)
  data : List Byte
  stamp : Nat
  /-- Its hold has ended and it has left. -/
  left_ : Bool
  deriving DecidableEq, Repr

/-- One side of a copy: a virtual address, or a scratchpad address word and the bytes past the place it names (R176, R367). -/
inductive CopySide where
  | mem (va : Nat)
  | spad (word : Word) (off : Nat)
  deriving DecidableEq, Repr

/-- What a copy engine's command moves (R365, R367, R370). -/
inductive CopyKind where
  | cpy (src dst : CopySide) (count : Nat)
  | tileIn (va stride : Nat) (rec : List Word)
  | tileOut (va stride : Nat) (rec : List Word)
  | halo (rec : List Word)
  deriving DecidableEq, Repr

/-- A copy engine's command (R367–R374). -/
structure CopyCmd where
  id : Nat
  part : Nat
  core : Nat
  slot : Nat
  lane : Nat
  pc : Word
  block : Nat
  did : Nat
  prio : Nat
  kind : CopyKind
  value : Word
  done : Option CopySide
  /-- The engine that serves it. -/
  engine : Option Nat
  /-- Units finished. -/
  units : Nat
  /-- Source bytes read and not yet written, by offset in the transfer (R370). -/
  buf : Tbl (List Byte)
  /-- Stopped by a fault (R374). -/
  stopped : Bool
  deriving DecidableEq, Repr

/-- A table load accepted and not applied (R268). -/
structure TmLoad where
  id : Nat
  core : Nat
  slot : Nat
  lane : Nat
  pc : Word
  tslot : Nat
  addr : Nat
  params : List Word
  /-- Stopped by a fault (R268). -/
  stopped : Bool
  deriving DecidableEq, Repr

/-- A domain's saved image (R257), with its operations that a fault holds or has stopped. -/
structure Image where
  cores : Tbl CoreImage
  blocks : Tbl Block
  clusters : Tbl ClusterImage
  pend : List Pending
  copies : List CopyCmd
  loads : List TmLoad
  deriving DecidableEq, Repr


/-- A control-core lane whose CHKP waits for a domain: its destination, the action 0 to 2, and what the DID's slots in other
partitions have answered (R308). -/
structure Asker where
  core : Nat
  lane : Nat
  dst : Nat
  action : Nat
  code : Option Word
  deriving DecidableEq, Repr

/-- A domain of a partition (R244, R255–R260). -/
structure Domain where
  /-- The irrevocable mark (R256). -/
  mark : Bool
  /-- Old contents of lines written since the last checkpoint, newest first (R255). -/
  log : List (Nat × List Byte)
  full : Bool
  /-- A checkpoint is due or in progress: its issue is stopped (R257). -/
  due : Bool
  /-- Its slice has ended: it is being pre-empted (R259). -/
  leaving : Bool
  /-- Control-core lanes whose CHKP waits for it (R308). -/
  askers : List Asker
  /-- E when a checkpoint last fell due (R257). -/
  dueAt : Nat
  image : Option Image
  /-- The domain is pre-empted (R259, R260). -/
  out : Bool
  deriving DecidableEq, Repr

/-- A domain that has done nothing. -/
def Domain.idle : Domain := ⟨false, [], false, false, false, [], 0, none, false⟩

/-- A candidate time: source (0 the servo, 1 + q port q, 17 the package's own clock), time, bound, tick of acceptance and
sender (R333). -/
structure Candidate where
  source : Nat
  time : Nat
  eps : Nat
  tick : Nat
  sender : Nat
  deriving DecidableEq, Repr

/-- A parameter change that waits for its tick, or is in its transition (R335). -/
structure ParamChange where
  isD : Bool
  value : Nat
  tick : Nat
  /-- Once in force: the closing delays before and after, and the tick that ends the transition. -/
  deltas : Option (Nat × Nat × Nat)
  deriving DecidableEq, Repr

/-- The deckle (R327, R332–R344). -/
structure Deckle where
  /-- Ticks of the package oscillator. -/
  tick : Nat
  clock : Nat
  eps : Nat
  early : Nat
  late : Nat
  fail : Bool
  xcl : Bool
  ref : Bool
  lastStamp : Nat
  epsMax : Nat
  dlvb : Nat
  candidates : List Candidate
  changes : List ParamChange
  excluded : List Nat
  /-- Consecutive ticks with a good candidate while failed (R344). -/
  good : Nat
  /-- Tick of the last beat received from each port (R342). -/
  heard : Tbl Nat
  deriving DecidableEq, Repr

/-- A beat, notice or refusal that the package has sent: its kind as in R393 (0 a beat, 7 a bank flip, 8 a refusal), port or 0, and package; a
beat's time and bound, a parameter notice's value and effective tick (R333, R335). -/
structure Sent where
  kind : Nat
  port : Nat
  pkg : Nat
  value : Nat
  tick : Nat
  deriving DecidableEq, Repr

/-- A packet of other packages that this one passes on, until the next hop has acknowledged its flits (R359–R361). -/
structure Hop where
  id : Nat
  dest : Nat
  source : Nat
  cls : Traffic
  bank : Bool
  addr : Nat
  /-- The port it left by; none while a packet that a link failure has sent another way holds it. -/
  port : Option Nat
  again : Bool
  deriving DecidableEq, Repr

/-- The fabric side of the package (R359–R361). -/
structure Fabric where
  /-- Port masks of the two routing banks, by destination. -/
  bank0 : Tbl Word
  bank1 : Tbl Word
  active : Bool
  rtidx : Word
  ports : BitVec 16
  keymiss : List Nat
  retries : List Nat
  /-- Beats, notices and refusals sent, newest first. -/
  sentNotices : List Sent
  /-- Answers sent to requests of other packages, newest first: package and bytes (R350, R354). -/
  replies : List (Nat × List Byte)
  /-- Packets passed on to another package, newest first: destination and port (R359). -/
  hops : List (Nat × Nat)
  /-- Those that are still here, oldest first (R360, R361). -/
  transit : List Hop
  deriving DecidableEq, Repr

/-- An entry of the notice log (R393). -/
structure Notice where
  early : Nat
  kind : Nat
  port : Nat
  sender : Nat
  named : Nat
  deriving DecidableEq, Repr

/-- The management element (R388–R399). -/
structure Element where
  /-- Boot stage reached: 0 at power-on, 4 once the hypervisor runs (R388). -/
  boot : Nat
  /-- The REQ value of the request in service: STAT reads busy (R391). -/
  req : Option Nat
  seq : Word
  stat : Word
  arg : List Byte
  res : List Byte
  bulk : List Byte
  notices : List Notice
  nextNotice : Nat
  window : Bool
  /-- Measured digests of the firmware, the hypervisor image and the compatibility routine (R385, R388). -/
  firmware : List Byte
  hypervisor : List Byte
  routine : List Byte
  /-- Nominal clocks in kHz (R385, R395) and the governed arithmetic clock in MHz (R396). -/
  arithKhz : Nat
  l2Khz : Nat
  arithMhz : Nat
  /-- Regions that have stretched their clock (R394). -/
  slow : List Nat
  /-- Corrections and held records counted in its log (R293, R399). -/
  corrections : Nat
  heldCount : Nat
  /-- Machine-check records posted: partitions (R399). -/
  checks : List Nat
  /-- Failures reported to the host: boot stages and partitions (R299, R388). -/
  reports : List Nat
  /-- Requests that raised ROT, newest first: the partition whose virtual function or agent made them (R390). -/
  denied : List Nat
  deriving DecidableEq, Repr

/-- The data of the event that occurs next: which agent, operation or port, and what arrives. -/
structure EventData where
  core : Nat
  slot : Nat
  lane : Nat
  id : Nat
  id2 : Nat
  part : Nat
  did : Nat
  cluster : Nat
  launch : Nat
  engine : Nat
  units : Nat
  clocks : Nat
  port : Nat
  sender : Nat
  named : Nat
  addr : Nat
  size : Nat
  num : Nat
  time : Nat
  bound : Nat
  delay : Nat
  key : Nat
  flag : Bool
  flag2 : Bool
  flag3 : Bool
  word : Word
  value : BitVec 128
  flags : BitVec 5
  data : List Byte
  bulk : List Byte
  op : WinOp
  cls : Traffic
  outcome : StampedOutcome
  deriving DecidableEq, Repr

/-- The next agent to act: an event of the table, or a grant of issue to partition p of a core (R57). -/
inductive Turn where
  | event (i : Instr) (d : EventData)
  | issue (core part : Nat)
  deriving DecidableEq, Repr

/-- A REP in force: stride and the stepped fields (R37). -/
structure RepCtx where
  stride : Nat
  vb : Bool
  va : Bool
  vd : Bool
  /-- The repeat about to execute, and the count of the unit. -/
  idx : Nat
  count : Nat
  deriving DecidableEq, Repr

/-- A MOD in force: the fields whose valid bit is set (R39). -/
structure ModCtx where
  ftz : Option Bool
  rm : Option Rm
  order : Option Order
  scope : Option Scope
  deriving DecidableEq, Repr

/-- The bundle that issues, and how much of its unit has been taken: bytes of prefixes passed, the prefixes, and the length
in bytes of the word being executed (R21, R36). -/
structure Cur where
  core : Nat
  slot : Nat
  mask : Mask
  off : Nat
  rep : Option RepCtx
  mod : Option ModCtx
  len : Nat
  /-- The address a fetch failed at (R20), or where in its unit a prefix stands that names nothing (R36, R43). -/
  faultAddr : Nat
  /-- The lanes' windows before the instruction counted in them: they stand again where it has no effect (R33). -/
  before : Tbl (List Window)
  deriving DecidableEq, Repr

/-- The state of one package. -/
structure State where
  cur : Cur
  ev : EventData
  turns : List Turn
  cores : Tbl Core
  clusters : Tbl Cluster
  parts : Tbl Part
  blocks : Tbl Block
  launches : Tbl Launch
  /-- Domains, at 65,536 × partition + DID. -/
  domains : Tbl Domain
  /-- Local physical memory: bytes that are not zero, by local address (R280). -/
  mem : List Host.Cell
  /-- Stamped records that have versions, by local address (R328). -/
  stamped : Tbl Stamped
  tlb : List TlbEntry
  /-- Cached ROT entries, by local page (R286). -/
  rots : Tbl DWord
  /-- Pages whose ROTINV was refused for the number of stamped pages, with the type they keep (R338). -/
  kept : Tbl Nat
  rotlo : Word
  rothi : Word
  eotidx : Word
  duals : List Dual
  pend : List Pending
  reqs : List Req
  pkts : List Pkt
  holds : List Hold
  copies : List CopyCmd
  loads : List TmLoad
  /-- Flags on their way to a lane: core, slot, lane (R88, R300). -/
  flagMsgs : List (Nat × Nat × Nat × BitVec 5)
  /-- Package index, and the secure range of local addresses, of the signed configuration record (R277, R280). -/
  pkg : Nat
  secLo : Nat
  secHi : Nat
  deckle : Deckle
  fabric : Fabric
  element : Element
  /-- Values of host reads, newest first (R362). -/
  hostReads : List (List Byte)
  /-- Requests for sleeping partitions, held at the hub in order of arrival (R398). -/
  asleep : List (Nat × Turn)
  /-- The tick of the last refill of copy-engine budgets (R279). -/
  refilled : Nat
  nextId : Nat
  freeCtr : Nat
  cycle : Nat
  deriving DecidableEq, Repr

/-- The reasons a step of the model stops. -/
inductive Fault where
  /-- The slot that should issue holds no warp, or the bundle no launched lane. Raised by every meaning of an instruction
  word when nothing is there to execute it. Safe: the device has no such issue. -/
  | noWarp
  /-- The fetch of a core's image, launch or record finds the machine without it. Raised by events that name an operation,
  a launch, a partition or a command that does not exist. Safe: the device has no such event. -/
  | noSuchEvent
  deriving DecidableEq, Repr

/-- The reasons a step is refused. -/
inductive Refusal where
  /-- An instruction that has no meaning yet. Raised by exec's arm for it. Safe: nothing can be proved of its effect. -/
  | notModelled (mnemonic : String)
  deriving DecidableEq, Repr

/-- A core with nothing in it, holding the values of partition start (R231, R246, R268, R293). -/
def Core.idle : Core where
  dpart := [0x8000000000000000ff0050000000ffff#128, 0, 0, 0]
  ishare := [16, 16, 16, 16]
  ckint := [0, 0, 0, 0]
  ckUse := [65536, 65536, 65536, 65536]
  deficit := [0, 0, 0, 0, 0, 0, 0, 0, 0, 0, 0, 0, 0, 0, 0, 0]
  share := [16, 16, 16, 16, 16, 16, 16, 16, 16, 16, 16, 16, 16, 16, 16, 16]
  lastIssue := [0, 0, 0, 0, 0, 0, 0, 0, 0, 0, 0, 0, 0, 0, 0, 0]
  pbnd := [(0, 0, 0), (0, 0, 0), (0, 0, 0), (0, 0, 0)]
  warps := []
  xsets := []
  l1 := []
  soon := []
  icache := []
  recs := []
  recOld := []
  tms := []
  trap := ⟨0, 0, 0, 0, 0, 0, 0xFFFFFFFF⟩
  stopped := false
  halted := none
  stopSlots := []
  frozen := []

/-- A free tile (R200). -/
def Tile.free : Tile := ⟨none, none, 64, []⟩

/-- A cluster with free tiles and an empty mould store. -/
def Cluster.idle : Cluster := ⟨[Tile.free, Tile.free, Tile.free, Tile.free], [], [], []⟩

/-- A partition that is not valid, with the register values of partition start (R83, R258, R293). -/
def Part.idle : Part where
  valid := false
  size := 0
  ns := true
  pgtlo := 0
  pgthi := 0
  pkey := 0
  wtlo := 0
  wthi := 0
  wtsize := 0
  fqlo := 0
  fqhi := 0
  fqsize := 0
  fqtail := 0
  fqhead := 0
  fpmdef := 0
  ckintdef := 65536
  lseedlo := 0
  lseedhi := 0
  detmode := 0
  digest := 0
  lattol := 0
  eot := ⟨false, true, 0, 0, 0⟩
  miglo := 0
  mighi := 0
  migEn := false
  migOvf := false
  migBsel := false
  migLog := 0
  migCnt := 0
  migPages := []
  heldRecs := []
  sleep := 0
  waking := false
  failed := false
  started := false
  maint := false
  image := []

/-- Event data that name nothing. -/
def EventData.none : EventData :=
  ⟨0, 0, 0, 0, 0, 0, 0, 0, 0, 0, 0, 0, 0, 0, 0, 0, 0, 0, 0, 0, 0, 0, false, false, false, 0, 0, 0, [], [], .read 0,
   .adaptive, .applied⟩

/-- The deckle at power-on: FAIL set, UNC all ones, the clock on its oscillator (R327, R334). -/
def Deckle.powerOn : Deckle :=
  ⟨0, 0, 0xFFFFFFFF, 0, 0, true, false, false, 0, 32, 2000, [], [], [], 0, []⟩

/-- The package at power-on (R334, R388): no partition, no block, every register at the value the spec states, or at the
value the assumption log names where it states none. -/
def State.reset : State where
  cur := ⟨0, 0, 0, 0, none, none, 0, 0, []⟩
  ev := EventData.none
  turns := []
  cores := []
  clusters := []
  parts := []
  blocks := []
  launches := []
  domains := []
  mem := []
  stamped := []
  tlb := []
  rots := []
  kept := []
  rotlo := 0
  rothi := 0
  eotidx := 0
  duals := []
  pend := []
  reqs := []
  pkts := []
  holds := []
  copies := []
  loads := []
  flagMsgs := []
  pkg := 0
  secLo := 0
  secHi := 0
  deckle := Deckle.powerOn
  fabric := ⟨[], [], false, 0, 0xFFFF, List.replicate 16 0, List.replicate 16 0, [], [], [], []⟩
  element := ⟨0, none, 0, 0, [], [], [], [], 0, false, [], [], [], 850000, 1300000, 850, [], 0, 0, [], [], []⟩
  hostReads := []
  asleep := []
  refilled := 0
  nextId := 0
  freeCtr := 0
  cycle := 0

end Sys2Proof.Machine
end

