-- ==== Sys2Proof/Machine/Flags.lean ====
section
/-!
DEFINITION. The number formats and every flag computation (R71–R92, R105–R118): values of the floating-point formats, exact
sums, the one rounding with its overflow, tininess and inexact rules, the choice of a NaN, minimum and maximum, compares,
classes and conversions. A result is its bit pattern together with the FPFLAGS bits it raises.
-/

namespace Sys2Proof.Machine

/-- FPFLAGS bits (R84): invalid, divide by zero, overflow, underflow, inexact. -/
abbrev flagIV : BitVec 5 := 1
abbrev flagDZ : BitVec 5 := 2
abbrev flagOF : BitVec 5 := 4
abbrev flagUF : BitVec 5 := 8
abbrev flagNX : BitVec 5 := 16

/-- A result: its bits and the flags it raises. -/
structure FpOut where
  bits : Nat
  flags : BitVec 5
  deriving DecidableEq, Repr

/-- What FPMODE and MOD settle for one instruction of one lane (R80, R81, R105). -/
structure FpEnv where
  rm : Rm
  ftz : Bool
  daz : Bool
  cnan : Bool
  deriving DecidableEq, Repr

/-- Width of the exponent field of a format (R71). -/
def expBits : NumFmt → Nat
  | .f64 => 11 | .f32 => 8 | .f16 => 5 | .bf16 => 8 | .e4m3 => 4 | .e5m2 => 5 | .e2m1 => 2
  | _ => 1

/-- Width of the fraction field (R71). -/
def fracBits : NumFmt → Nat
  | .f64 => 52 | .f32 => 23 | .f16 => 10 | .bf16 => 7 | .e4m3 => 3 | .e5m2 => 2 | .e2m1 => 1
  | _ => 1

/-- Exponent bias (R71). -/
def fmtBias (f : NumFmt) : Nat := 2 ^ (expBits f - 1) - 1

/-- Formats with infinities (R71). -/
def hasInf : NumFmt → Bool
  | .e4m3 | .e2m1 => false
  | _ => true

/-- The formats on which FTZ and DAZ act (R80). -/
def flushable : NumFmt → Bool
  | .f64 | .f32 | .f16 | .bf16 => true
  | _ => false

/-- Magnitude bits of the largest finite value (R71, R73). -/
def maxMag : NumFmt → Nat
  | .e4m3 => 0x7E
  | .e2m1 => 7
  | f => (2 ^ expBits f - 1) * 2 ^ fracBits f - 1

/-- Magnitude bits of infinity, of the E4M3 NaN that takes its place, and of 6 in E2M1 (R79). -/
def infMag (f : NumFmt) : Nat := if f = .e2m1 then 7 else maxMag f + 1

/-- The sign bit of a format, in place. -/
def signBit (f : NumFmt) (neg : Bool) : Nat := if neg then 2 ^ (expBits f + fracBits f) else 0

/-- The canonical NaN of a format (R74); E2M1 has none and gives +0 (R79). -/
def canonNan : NumFmt → Nat
  | .e4m3 => 0x7F
  | .e2m1 => 0
  | f => (2 ^ expBits f - 1) * 2 ^ fracBits f + 2 ^ (fracBits f - 1)

/-- A floating-point value: a NaN with its fraction aligned to 52 bits, an infinity, or ±m·2^e (R72, R74). -/
inductive Fp where
  | nan (neg sig : Bool) (frac : Nat)
  | inf (neg : Bool)
  | fin (neg : Bool) (m : Nat) (e : Int)
  deriving DecidableEq, Repr

def Fp.isNan : Fp → Bool
  | .nan .. => true
  | _ => false

def Fp.isSnan : Fp → Bool
  | .nan _ s _ => s
  | _ => false

def Fp.isInf : Fp → Bool
  | .inf _ => true
  | _ => false

def Fp.neg? : Fp → Bool
  | .nan n _ _ | .inf n | .fin n _ _ => n

/-- The value with its sign flipped. -/
def Fp.flip : Fp → Fp
  | .nan n s f => .nan n s f
  | .inf n => .inf (!n)
  | .fin n m e => .fin (!n) m e

/-- The value a bit pattern stands for (R72–R74). -/
def Fp.ofBits (f : NumFmt) (x : Nat) : Fp :=
  let fb := fracBits f
  let F := x % 2 ^ fb
  let E := x / 2 ^ fb % 2 ^ expBits f
  let s := x / 2 ^ (fb + expBits f) % 2 == 1
  if hasInf f && E == 2 ^ expBits f - 1 then
    if F = 0 then .inf s else .nan s (decide (F < 2 ^ (fb - 1))) (F * 2 ^ (52 - fb))
  else if f = .e4m3 ∧ E = 15 ∧ F = 7 then .nan s false (F * 2 ^ (52 - fb))
  else if E = 0 then .fin s F (1 - (fmtBias f : Int) - fb)
  else .fin s (F + 2 ^ fb) ((E : Int) - fmtBias f - fb)

/-- A source operand's bits under DAZ: a subnormal becomes the zero of its sign (R80). -/
def dazBits (f : NumFmt) (env : FpEnv) (x : Nat) : Nat :=
  if env.daz && flushable f && x / 2 ^ fracBits f % 2 ^ expBits f == 0 then
    x / 2 ^ (fracBits f + expBits f) % 2 * 2 ^ (fracBits f + expBits f)
  else x % 2 ^ (1 + fracBits f + expBits f)

/-- A source operand's value under DAZ. -/
def Fp.src (f : NumFmt) (env : FpEnv) (x : Nat) : Fp := Fp.ofBits f (dazBits f env x)

/-- Quieting a NaN into a format: the sign and the leading fraction bits are kept and the quiet bit is set (R81). -/
def quietBits (f : NumFmt) (neg : Bool) (frac : Nat) : Nat :=
  match f with
  | .e4m3 => signBit f neg + 0x7F
  | .e2m1 => 0
  | _ => signBit f neg + (2 ^ expBits f - 1) * 2 ^ fracBits f + (frac / 2 ^ (52 - fracBits f) ||| 2 ^ (fracBits f - 1))

/-- The NaN an operation returns: canonical, or the first NaN operand quieted (R81). -/
def nanBits (f : NumFmt) (env : FpEnv) (ops : List Fp) : Nat :=
  if env.cnan then canonNan f
  else
    match ops.find? Fp.isNan with
    | some (.nan n _ fr) => quietBits f n fr
    | _ => canonNan f

/-- Invalid for a signalling NaN operand (R81). -/
def snanFlag (ops : List Fp) : BitVec 5 := if ops.any Fp.isSnan then flagIV else 0

/-- An exact magnitude with its sign: m·2^e, and something more below one unit of m when `more` holds. -/
structure Exact where
  neg : Bool
  m : Nat
  e : Int
  more : Bool
  deriving DecidableEq, Repr

/-- Number of significant bits of a number. -/
def bitLen (m : Nat) : Nat := if m = 0 then 0 else Nat.log2 m + 1

/-- The multiple of 2^q that a rounding mode chooses, and whether it differs from the exact value (R78). An exact value with
more below its last bit must have q above e. -/
def Exact.quant (x : Exact) (rm : Rm) (q : Int) : Nat × Bool :=
  if q ≤ x.e then (x.m * 2 ^ (x.e - q).toNat, x.more)
  else
    let sh := (q - x.e).toNat
    let n := x.m / 2 ^ sh
    let r := x.m % 2 ^ sh
    let inexact := r != 0 || x.more
    let up := match rm with
      | .rne => decide (2 ^ sh < 2 * r) || (decide (2 ^ sh = 2 * r) && (x.more || n % 2 == 1))
      | .rz => false
      | .ru => inexact && !x.neg
      | .rd => inexact && x.neg
    (if up then n + 1 else n, inexact)

/-- Exponent of the last place when x is rounded to p significant bits with an unbounded exponent. -/
def Exact.place (x : Exact) (p : Nat) : Int := x.e + bitLen x.m - p

/-- Rounding to a significand of p bits with an unbounded exponent: the result, and whether it differs. -/
def Exact.toPrec (x : Exact) (p : Nat) (rm : Rm) : Exact × Bool :=
  let q := x.place p
  let (n, i) := x.quant rm q
  (⟨x.neg, n, q, false⟩, i)

/-- The result of an overflow (R78, R79, R114). -/
def overflowMag (f : NumFmt) (rm : Rm) (neg sat : Bool) : Nat :=
  if sat then maxMag f
  else
    match rm with
    | .rne => infMag f
    | .rz => maxMag f
    | .ru => if neg then maxMag f else infMag f
    | .rd => if neg then infMag f else maxMag f

/-- The one rounding of an exact result into a format (R78–R80): overflow, tininess after rounding, underflow, inexact and
FTZ. -/
def Exact.round (x : Exact) (f : NumFmt) (rm : Rm) (ftz sat : Bool) : FpOut :=
  let sg := signBit f x.neg
  if x.m = 0 && !x.more then ⟨sg, 0⟩
  else
    let fb := fracBits f
    let qmin : Int := 1 - (fmtBias f : Int) - fb
    let q1 := x.place (fb + 1)
    let tiny := decide (q1 < qmin) && !((x.quant rm q1).1 == 2 ^ (fb + 1) && decide (q1 + 1 = qmin))
    let q := max q1 qmin
    let (n, inexact) := x.quant rm q
    let mag := (q - qmin).toNat * 2 ^ fb + n
    if maxMag f < mag then ⟨sg + overflowMag f rm x.neg sat, flagOF ||| flagNX⟩
    else if tiny && ftz && flushable f then ⟨sg, flagUF ||| flagNX⟩
    else ⟨sg + mag, (if inexact then flagNX else 0) ||| (if tiny && inexact then flagUF else 0)⟩

/-- The exact product of two values; none when it is 0 × ∞ (R89). -/
def Fp.mul (a b : Fp) : Option Fp :=
  match a, b with
  | .nan n s f, _ => some (.nan n s f)
  | _, .nan n s f => some (.nan n s f)
  | .inf n, .inf n' => some (.inf (n != n'))
  | .inf n, .fin n' m _ => if m = 0 then none else some (.inf (n != n'))
  | .fin n m _, .inf n' => if m = 0 then none else some (.inf (n != n'))
  | .fin n m e, .fin n' m' e' => some (.fin (n != n') (m * m') (e + e'))

/-- The least exponent of the terms of a sum. -/
def minExp : List Fp → Int
  | [] => 0
  | [.fin _ _ e] => e
  | .fin _ _ e :: l => min e (minExp l)
  | _ :: l => minExp l

/-- The exact total of finite terms in units of 2^e. -/
def sumAt (e : Int) : List Fp → Int
  | [] => 0
  | .fin n m x :: l => (if n then -(m * 2 ^ (x - e).toNat : Int) else (m * 2 ^ (x - e).toNat : Int)) + sumAt e l
  | _ :: l => sumAt e l

/-- The exact total of finite terms, with the sign of a zero total (R89). -/
def exactTotal (rm : Rm) (l : List Fp) : Exact :=
  let e := minExp l
  let t := sumAt e l
  if t = 0 then
    let zeros := l.all (fun x => match x with | .fin _ m _ => m == 0 | _ => false)
    let neg := if zeros && l.all (fun x => !x.neg?) then false
      else if zeros && l.all Fp.neg? then true
      else rm == .rd
    ⟨neg, 0, e, false⟩
  else ⟨decide (t < 0), t.natAbs, e, false⟩

/-- A sum of terms rounded once (R89, R105). `ops` are the operands in the order in which R81 looks for a NaN; a term that
is none is an invalid product. -/
def fpSum (f : NumFmt) (env : FpEnv) (ops : List Fp) (terms : List (Option Fp)) : FpOut :=
  let ts := terms.filterMap id
  let infs := ts.filter Fp.isInf
  let invalid := terms.any (·.isNone) || (infs.any Fp.neg? && infs.any (fun x => !x.neg?))
  let iv := if invalid then flagIV else snanFlag ops
  if invalid || ts.any Fp.isNan then ⟨nanBits f env ops, iv⟩
  else
    match infs with
    | i :: _ => ⟨signBit f i.neg? + infMag f, 0⟩
    | [] => (exactTotal env.rm ts).round f env.rm env.ftz false

/-- FADD and its like (R106, R111, R112). -/
def fpAdd (f : NumFmt) (env : FpEnv) (a b : Nat) : FpOut :=
  let x := Fp.src f env a
  let y := Fp.src f env b
  fpSum f env [x, y] [some x, some y]

/-- FSUB: the terms are a and −b (R106). -/
def fpSub (f : NumFmt) (env : FpEnv) (a b : Nat) : FpOut :=
  let x := Fp.src f env a
  let y := Fp.src f env b
  fpSum f env [x, y] [some x, some y.flip]

/-- FMUL (R106). -/
def fpMul (f : NumFmt) (env : FpEnv) (a b : Nat) : FpOut :=
  let x := Fp.src f env a
  let y := Fp.src f env b
  fpSum f env [x, y] [x.mul y]

/-- The fused forms: ±(a × b) ± d with one rounding (R106). -/
def fpFma (f : NumFmt) (env : FpEnv) (negP negD : Bool) (a b d : Nat) : FpOut :=
  let x := Fp.src f env a
  let y := Fp.src f env b
  let z := Fp.src f env d
  let p := x.mul y
  fpSum f env [x, y, z]
    [if negP then p.map Fp.flip else p, some (if negD then z.flip else z)]

/-- Order key of a bit pattern that is no NaN, −0 below +0 (R107). -/
def orderKey (f : NumFmt) (x : Nat) : Int :=
  let w := expBits f + fracBits f
  if x / 2 ^ w % 2 = 1 then -(x % 2 ^ w : Nat) - 1 else (x % 2 ^ w : Nat)

/-- Order key with the zeros equal (R110). -/
def valueKey (f : NumFmt) (x : Nat) : Int :=
  let w := expBits f + fracBits f
  if x / 2 ^ w % 2 = 1 then -(x % 2 ^ w : Nat) else (x % 2 ^ w : Nat)

/-- minimumNumber and maximumNumber (R107). -/
def fpMinMax (isMax : Bool) (f : NumFmt) (env : FpEnv) (a b : Nat) : FpOut :=
  let a := dazBits f env a
  let b := dazBits f env b
  let x := Fp.ofBits f a
  let y := Fp.ofBits f b
  let iv := snanFlag [x, y]
  if x.isNan && y.isNan then ⟨nanBits f env [x, y], iv⟩
  else if x.isNan then ⟨b, iv⟩
  else if y.isNan then ⟨a, iv⟩
  else if (decide (orderKey f a < orderKey f b)) != isMax then ⟨a, 0⟩ else ⟨b, 0⟩

/-- FRND: an integral value in the rounding mode, with no inexact (R108). A zero that a non-zero operand rounds to keeps the operand's
sign, which R108 does not state: the model's choice (log 78). -/
def fpRnd (f : NumFmt) (env : FpEnv) (a : Nat) : FpOut :=
  let a := dazBits f env a
  let x := Fp.ofBits f a
  match x with
  | .nan .. => ⟨nanBits f env [x], snanFlag [x]⟩
  | .inf _ => ⟨a, 0⟩
  | .fin n m e =>
    let r := Exact.quant ⟨n, m, e, false⟩ env.rm (max e 0)
    ⟨(Exact.round ⟨n, r.1, max e 0, false⟩ f env.rm false false).bits, 0⟩

/-- FCLS: one bit for the class of the raw bits (R108). -/
def fpClass (f : NumFmt) (a : Nat) : Nat :=
  match Fp.ofBits f a with
  | .nan _ sig _ => if sig then 2 ^ 8 else 2 ^ 9
  | .inf n => if n then 2 ^ 0 else 2 ^ 7
  | .fin n m _ =>
    if m = 0 then (if n then 2 ^ 3 else 2 ^ 4)
    else if m < 2 ^ fracBits f then (if n then 2 ^ 2 else 2 ^ 5)
    else (if n then 2 ^ 1 else 2 ^ 6)

/-- FSCALEB by a block-scale byte (R77, R109). -/
def fpScale (f : NumFmt) (env : FpEnv) (a : Nat) (s : Int) : FpOut :=
  let x := Fp.src f env a
  match x with
  | .nan n _ fr =>
    if s = -128 then ⟨quietBits f n fr, 0⟩ else ⟨nanBits f env [x], snanFlag [x]⟩
  | .inf n => if s = -128 then ⟨signBit f n, 0⟩ else ⟨signBit f n + infMag f, 0⟩
  | .fin n m e => if s = -128 then ⟨signBit f n, 0⟩ else Exact.round ⟨n, m, e + s, false⟩ f env.rm env.ftz false

/-- The relation of a compare, and its answer for unordered operands (R110). -/
def cmpHolds (c : Cmp) (a b : Int) : Bool :=
  match c with
  | .eq => a == b
  | .ne => a != b
  | .lt => decide (a < b)
  | .le => decide (a ≤ b)
  | .gt => decide (a > b)
  | .ge => decide (a ≥ b)
  | .ord => true
  | .uno => false

/-- FCMP and DCMP, quiet and signalling (R110). -/
def fpCmp (f : NumFmt) (env : FpEnv) (c : Cmp) (sig : Bool) (a b : Nat) : FpOut :=
  let a := dazBits f env a
  let b := dazBits f env b
  let x := Fp.ofBits f a
  let y := Fp.ofBits f b
  if x.isNan || y.isNan then
    ⟨if c = .ne ∨ c = .uno then 1 else 0, if sig then flagIV else snanFlag [x, y]⟩
  else ⟨if cmpHolds c (valueKey f a) (valueKey f b) then 1 else 0, 0⟩

/-- A packed operation on the two 16-bit elements of a register, with the union of their flags (R112). -/
def pack2 (op : Nat → Nat → Nat → FpOut) (a b d : Nat) : FpOut :=
  let l := op (field a 15 0) (field b 15 0) (field d 15 0)
  let h := op (field a 31 16) (field b 31 16) (field d 31 16)
  ⟨l.bits + h.bits * 65536, l.flags ||| h.flags⟩

/-- Width of an integer format (R76). -/
def intWidth : NumFmt → Nat
  | .s64 | .u64 => 64
  | .s32 | .u32 => 32
  | .s16 | .u16 => 16
  | .s8 | .u8 => 8
  | _ => 4

/-- Signed integer formats (R76). -/
def intSigned : NumFmt → Bool
  | .s64 | .s32 | .s16 | .s8 | .s4 => true
  | _ => false

/-- Least and greatest values of an integer format. -/
def intMin (f : NumFmt) : Int := if intSigned f then -(2 ^ (intWidth f - 1) : Nat) else 0
def intMax (f : NumFmt) : Int := if intSigned f then (2 ^ (intWidth f - 1) : Nat) - 1 else (2 ^ intWidth f : Nat) - 1

/-- Width of the registers a format occupies (R113). -/
def regWidth (f : NumFmt) : Nat := if f.wide then 64 else 32

/-- An integer as it stands in its registers: sign- or zero-extended (R113). -/
def intBits (f : NumFmt) (v : Int) : Nat :=
  let w : Nat := 2 ^ intWidth f
  let low : Int := v % w
  let x := if intSigned f && decide (low ≥ (2 ^ (intWidth f - 1) : Nat)) then low - w else low
  (x % (2 ^ regWidth f : Nat)).toNat

/-- The value of an integer operand (R113). -/
def intValue (f : NumFmt) (x : Nat) : Int :=
  if intSigned f then sextN x (intWidth f) else (x % 2 ^ intWidth f : Nat)

/-- Widening pairs of formats (R114). -/
def widening (src dst : NumFmt) : Bool :=
  match src, dst with
  | .f16, .f32 | .f16, .f64 | .bf16, .f32 | .bf16, .f64 | .f32, .f64 => true
  | .e4m3, .f16 | .e4m3, .bf16 | .e4m3, .f32 | .e4m3, .f64 => true
  | .e5m2, .f16 | .e5m2, .bf16 | .e5m2, .f32 | .e5m2, .f64 => true
  | .e2m1, _ => true
  | _, _ => false

/-- CVT between floating-point formats (R79, R114). With .sat an infinite source gives the largest finite value with inexact
also on a widening pair (log 65), and an infinite result of E4M3 is the NaN of its sign whatever CNAN holds (log 66). -/
def cvtFloat (src dst : NumFmt) (env : FpEnv) (sat : Bool) (x : Nat) : FpOut :=
  let wd := widening src dst
  let v := if wd then Fp.ofBits src x else Fp.src src env x
  match v with
  | .nan .. =>
    if dst = .e2m1 then ⟨0, flagIV⟩ else ⟨nanBits dst env [v], snanFlag [v]⟩
  | .inf n =>
    if sat then ⟨signBit dst n + maxMag dst, flagNX⟩
    else ⟨signBit dst n + infMag dst, if dst = .e2m1 then flagIV else 0⟩
  | .fin n m e => Exact.round ⟨n, m, e, false⟩ dst env.rm (env.ftz && !wd) sat

/-- CVT from floating point to integer (R115). -/
def cvtToInt (src dst : NumFmt) (env : FpEnv) (sat : Bool) (x : Nat) : FpOut :=
  let bad (neg nan : Bool) : FpOut :=
    ⟨intBits dst (if sat then (if nan then 0 else if neg then intMin dst else intMax dst)
      else if intSigned dst then intMin dst else intMax dst), flagIV⟩
  match Fp.src src env x with
  | .nan n _ _ => bad n true
  | .inf n => bad n false
  | .fin n m e =>
    let r := Exact.quant ⟨n, m, e, false⟩ env.rm (max e 0)
    let mag : Nat := r.1 * 2 ^ (max e 0).toNat
    let v : Int := if n then -(mag : Int) else mag
    if intMin dst ≤ v ∧ v ≤ intMax dst then ⟨intBits dst v, if r.2 then flagNX else 0⟩ else bad n false

/-- CVT from integer to floating point (R116). -/
def cvtFromInt (src dst : NumFmt) (env : FpEnv) (sat : Bool) (x : Nat) : FpOut :=
  let v := intValue src x
  Exact.round ⟨decide (v < 0), v.natAbs, 0, false⟩ dst env.rm false sat

/-- CVT between integer formats (R117). -/
def cvtInt (src dst : NumFmt) (sat : Bool) (x : Nat) : FpOut :=
  let v := intValue src x
  ⟨intBits dst (if sat then max (intMin dst) (min (intMax dst) v) else v), 0⟩

/-- CVT (R113–R117). -/
def cvt (src dst : NumFmt) (env : FpEnv) (sat : Bool) (x : Nat) : FpOut :=
  if src.isFloat then
    if dst.isFloat then cvtFloat src dst env sat x else cvtToInt src dst env sat x
  else if dst.isFloat then cvtFromInt src dst env sat x else cvtInt src dst sat x

/-- Element i of a packed register, w bits wide (R75). -/
def element (x w i : Nat) : Nat := x / 2 ^ (w * i) % 2 ^ w

/-- The integer dot products (R90). -/
def dotInt (signed : Bool) (w n : Nat) (a b d : Nat) : Nat :=
  let val (x : Nat) : Int := if signed then sextN x w else (x : Int)
  let t := (List.range n).foldl (fun acc i => acc + val (element a w i) * val (element b w i)) (d : Int)
  (t % (2 ^ 32 : Nat)).toNat

/-- An element of an exact sum: an E4M3 or E5M2 NaN counts as the canonical FP32 NaN, and the wider formats carry theirs
(R89). -/
def narrowElem (f : NumFmt) (x : Nat) : Fp :=
  match Fp.ofBits f x with
  | .nan n s m => if f = .e4m3 ∨ f = .e5m2 then .nan false s (2 ^ 51) else .nan n s m
  | v => v

/-- The dot products with an FP32 result: one exact sum and one rounding (R89, R90, R118). -/
def dotFloat (f : NumFmt) (w n : Nat) (env : FpEnv) (a b d : Nat) : FpOut :=
  let xs := (List.range n).map (fun i => narrowElem f (element a w i))
  let ys := (List.range n).map (fun i => narrowElem f (element b w i))
  let z := Fp.src .f32 env d
  fpSum .f32 env (xs ++ ys ++ [z]) (List.zipWith Fp.mul xs ys ++ [some z])

/-- The class of two values for MATCH.f: equal bits, both zero, or both NaN (R128). -/
def matchFloat (a b : Nat) : Bool :=
  a == b || (a % 2 ^ 31 == 0 && b % 2 ^ 31 == 0) || ((Fp.ofBits .f32 a).isNan && (Fp.ofBits .f32 b).isNan)

end Sys2Proof.Machine
end

