-- ==== Sys2Proof/Config.lean ====
section
/-!
DEFINITION. What the spec leaves to the implementation, and the values it leaves open. Every constant here is opaque: nothing
in Lean can say what it is, so a claim holds whatever it is. Assumption log 5, 12, 17, 18, 19 and 31 name each one.
-/

namespace Sys2Proof.Config

/-- A result whose correct rounding the model's own loop does not settle, by function code and operands (log 12): sign,
magnitude and exponent. -/
opaque undecided : Nat → Bool × Nat × Int

/-- Bytes that a domain's image and gate stack take of its felt (R255, log 19), by the numbers of its resident blocks and warps
and of its open gate calls. -/
opaque imageSize : Nat → Nat → Nat → Nat

/-- The bank of a line in its home slice, a function of local address bits 43 to 7 (R312, log 17). -/
opaque homeBank : Nat → Nat

/-- The world of a partition, from the signed configuration record: true is non-secure (R276, R277, log 17). -/
opaque worldNs : Nat → Bool

/-- The asymmetry bound of a fabric port, of which R333 admits 0 to 7 ticks (log 17). -/
opaque portAsymmetry : Nat → Nat

/-- Whether the signed configuration record makes a package a reference package (R334, log 17). -/
opaque reference : Nat → Bool

/-- Whether a reference package's record names the pod's time origin (R334, log 17). -/
opaque sharesOrigin : Nat → Bool

/-- The port hash of class ORDERED, by destination and address (R359, log 17). -/
opaque orderedHash : Nat → Nat → Nat

/-- The port a packet of another class takes among those of its mask that are up, by its number (R359, log 31). -/
opaque anyPort : Nat → Nat

/-- An element of an abandoned tile, by free-value number (R218, log 5). -/
opaque freeTile : Nat → DWord

/-- A byte an abandoned command leaves, by free-value number (R218, R374, log 5). -/
opaque freeByte : Nat → Byte

/-- The Ed25519 signature by the device identity key over a SHA-512 digest (R389, log 18). -/
opaque deviceSignature : List Byte → BitVec 512

end Sys2Proof.Config
end

