-- ==== Sys2Proof/Machine/Base.lean ====
section
/-!
DEFINITION. The named operations over the state: sparse tables, bytes of memory, cores, warps, lanes and their registers,
bundles with parking and meeting (R52–R55), the end of an instruction's unit (R38), waking, engine counters (R172), the felt
and single writes at the homes (R255, R312).
-/

namespace Sys2Proof.Machine

/-- The outcome of an instruction or event. -/
abbrev Out := Host.Outcome State Fault Refusal

/-! Sparse tables. -/

/-- The entry of a key. -/
def tget {α : Type} : Tbl α → Nat → Option α
  | [], _ => none
  | (k, v) :: l, n => if k = n then some v else tget l n

/-- Sets the entry of a key, keeping keys in order. -/
def tput {α : Type} : Tbl α → Nat → α → Tbl α
  | [], n, x => [(n, x)]
  | (k, v) :: l, n, x =>
    if n < k then (n, x) :: (k, v) :: l else if k = n then (n, x) :: l else (k, v) :: tput l n x

/-- Removes the entry of a key. -/
def tdel {α : Type} (t : Tbl α) (n : Nat) : Tbl α := t.filter (fun p => p.1 != n)

/-- Changes the entry of a key, if there is one. -/
def tmod {α : Type} (t : Tbl α) (n : Nat) (f : α → α) : Tbl α :=
  t.map (fun p => if p.1 = n then (p.1, f p.2) else p)

/-- The entries that satisfy a test, with their keys. -/
def tfind? {α : Type} (t : Tbl α) (p : Nat → α → Bool) : Option (Nat × α) := t.find? (fun x => p x.1 x.2)

/-! Bytes: lists of cells in rising order of address, without zeros. -/

/-- One byte; what no entry lists reads as 0 (log 3). -/
def byteAt : List Host.Cell → Nat → Byte
  | [], _ => 0
  | (k, v) :: l, a => if k = a then v else byteAt l a

/-- Sets one byte, keeping the canonical form: a zero has no entry. -/
def setByte : List Host.Cell → Nat → Byte → List Host.Cell
  | [], a, b => if b = 0 then [] else [(a, b)]
  | (k, v) :: l, a, b =>
    if a < k then (if b = 0 then (k, v) :: l else (a, b) :: (k, v) :: l)
    else if k = a then (if b = 0 then l else (a, b) :: l)
    else (k, v) :: setByte l a b

/-- Sets consecutive bytes. -/
def setBytes : List Host.Cell → Nat → List Byte → List Host.Cell
  | m, _, [] => m
  | m, a, b :: l => setBytes (setByte m a b) (a + 1) l

/-- Consecutive bytes. -/
def bytesAt (m : List Host.Cell) (a n : Nat) : List Byte := (List.range n).map (fun i => byteAt m (a + i))

/-- The canonical form of memory: addresses strictly rising, no entry zero. -/
def Memory.wf : List Host.Cell → Bool
  | [] => true
  | [(_, v)] => v != 0
  | (k, v) :: (k', v') :: l => decide (k < k') && v != 0 && Memory.wf ((k', v') :: l)

/-- A little-endian word of bytes (R10). -/
def wordOf (l : List Byte) : Nat := leNat l

/-- The bytes of a little-endian word. -/
def bytesOf (n w : Nat) : List Byte := leBytes n w

/-- 32-bit words as bytes, and bytes as 32-bit words (R10). -/
def wordsBytes (ws : List Word) : List Byte := ws.flatMap (fun w => bytesOf 4 w.toNat)

def bytesWords : List Byte → List Word
  | a :: b :: c :: d :: l => BitVec.ofNat 32 (wordOf [a, b, c, d]) :: bytesWords l
  | [] => []
  | l => [BitVec.ofNat 32 (wordOf l)]

/-! Masks of lanes. -/

/-- Lane n belongs to a mask (R60). -/
def laneIn (m : Mask) (n : Nat) : Bool := m.getLsbD n

/-- The mask of a list of lanes. -/
def maskOf (l : List Nat) : Mask := l.foldl (fun m n => m ||| (1#32 <<< n)) 0

/-! Minima and maxima. -/

def signedMin (a b : Word) : Word := if a.toInt ≤ b.toInt then a else b
def signedMax (a b : Word) : Word := if b.toInt ≤ a.toInt then a else b
def unsignedMin (a b : Word) : Word := if a.toNat ≤ b.toNat then a else b
def unsignedMax (a b : Word) : Word := if b.toNat ≤ a.toNat then a else b

/-! Threads. -/

/-- Register n of a thread (R63). -/
def Thread.get (t : Thread) (n : Nat) : Word := t.regs.getD n 0

/-- Sets register n. -/
def Thread.set (t : Thread) (n : Nat) (v : Word) : Thread := { t with regs := t.regs.set n v }

/-- A register pair, low half first (R11). -/
def Thread.pair (t : Thread) (n : Nat) : DWord := Sys2Proof.pair (t.get n) (t.get (n + 1))

/-- Sets a register pair. -/
def Thread.setPair (t : Thread) (n : Nat) (v : DWord) : Thread := (t.set n (lo32 v)).set (n + 1) (hi32 v)

/-- Consecutive registers. -/
def Thread.group (t : Thread) (n k : Nat) : List Word := (List.range k).map (fun i => t.get (n + i))

/-- Sets consecutive registers. -/
def Thread.setGroup : Thread → Nat → List Word → Thread
  | t, _, [] => t
  | t, n, v :: l => Thread.setGroup (t.set n v) (n + 1) l

/-- Sets listed registers. -/
def Thread.setAll : Thread → List (Nat × Word) → Thread
  | t, [] => t
  | t, (n, v) :: l => Thread.setAll (t.set n v) l

/-- A thread is parked exactly while its MEETV is its PC (R52). -/
def Thread.parked (t : Thread) : Bool := !t.exited && t.meetv != 0xFFFFFFFF && t.pc == t.meetv

/-- Raises flags in FPFLAGS (R84). -/
def Thread.raise (t : Thread) (f : BitVec 5) : Thread := { t with fpflags := t.fpflags ||| f.setWidth 32 }

/-- The enabled exceptions of FPMODE [8:4], in the order of FPFLAGS (R82). -/
def Thread.enables (t : Thread) : BitVec 5 := (t.fpmode >>> 4).setWidth 5

/-- Stops a thread for enabled exceptions: flags set, EXCMASK set, no result written (R86). -/
def Thread.stopFpx (t : Thread) (f : BitVec 5) : Thread :=
  { t.raise f with excmask := t.excmask ||| (f &&& t.enables).setWidth 32, wait := .fpx }

/-! Cores and warps. -/

/-- A warp by core and slot. -/
def State.warpAt? (s : State) (c w : Nat) : Option Warp := (tget s.cores c).bind (fun k => tget k.warps w)

/-- A core; one that nothing has touched is idle. -/
def State.core (s : State) (c : Nat) : Core := (tget s.cores c).getD Core.idle

/-- Changes a core, entering it in the table where nothing has touched it. -/
def State.putCore (s : State) (c : Nat) (f : Core → Core) : State := { s with cores := tput s.cores c (f (s.core c)) }

/-- Changes a core. -/
def State.modCore (s : State) (c : Nat) (f : Core → Core) : State := { s with cores := tmod s.cores c f }

/-- Changes a warp. -/
def State.modWarpAt (s : State) (c w : Nat) (f : Warp → Warp) : State :=
  s.modCore c (fun k => { k with warps := tmod k.warps w f })

/-- The warp of the issuing bundle. -/
def State.warp? (s : State) : Option Warp := s.warpAt? s.cur.core s.cur.slot

/-- Changes the warp of the issuing bundle. -/
def State.modWarp (s : State) (f : Warp → Warp) : State := s.modWarpAt s.cur.core s.cur.slot f

/-- Changes a partition. -/
def State.modPart (s : State) (p : Nat) (f : Part → Part) : State := { s with parts := tmod s.parts p f }

/-- Changes a block. -/
def State.modBlock (s : State) (b : Nat) (f : Block → Block) : State := { s with blocks := tmod s.blocks b f }

/-- The domain slots a warp belongs to: its home, and those of its open gate calls (R252, R260). -/
def Warp.slotsIn (w : Warp) : List Nat := w.homeSlot :: w.curSlot :: w.gates.map (·.slot)

/-- Changes a cluster; one not yet touched is idle. -/
def State.modCluster (s : State) (c : Nat) (f : Cluster → Cluster) : State :=
  { s with clusters := tput s.clusters c (f ((tget s.clusters c).getD Cluster.idle)) }

/-- The cluster of a compute core (R228). -/
def clusterOf (core : Nat) : Nat := core / 4

/-- A control core (R275, R296). -/
def isControl (core : Nat) : Bool := decide (576 ≤ core)

/-- The domains' key (R244). -/
def domKey (part did : Nat) : Nat := 65536 * part + did

/-- Applies a lane function to the lanes of a mask. -/
def Warp.mapLanes (w : Warp) (m : Mask) (f : Nat → Thread → Thread) : Warp :=
  { w with threads := w.threads.map (fun p => if laneIn m p.1 then (p.1, f p.1 p.2) else p) }

/-- The threads of a mask, in increasing lane order. -/
def Warp.lanes (w : Warp) (m : Mask) : List (Nat × Thread) := w.threads.filter (fun p => laneIn m p.1)

/-- The launched lanes that have not exited (R61). -/
def Warp.running (w : Warp) : List (Nat × Thread) := w.threads.filter (fun p => !p.2.exited)

/-- Applies a lane function to the active lanes (R56). -/
def State.mapActive (s : State) (f : Nat → Thread → Thread) : State := s.modWarp (fun w => w.mapLanes s.cur.mask f)

/-- The active lanes of the issuing bundle. -/
def State.active (s : State) : List (Nat × Thread) :=
  match s.warp? with
  | some w => w.lanes s.cur.mask
  | none => []

/-- The active live lanes (R59). -/
def State.live (s : State) : List (Nat × Thread) := s.active.filter (fun p => !p.2.helper)

/-! Bundles: splitting, parking, meeting. -/

/-- Threads stay in one bundle while they agree in PC, remaining count, wait and parking, and have not exited (R38, R55). -/
def sameBundle (a b : Thread) : Bool :=
  a.pc == b.pc && a.rem == b.rem && a.wait == b.wait && a.parked == b.parked

/-- Puts a lane into the first group of its kind. -/
def insertLane (w : Warp) (l : Nat) (t : Thread) : List (List Nat) → List (List Nat)
  | [] => [[l]]
  | g :: gs =>
    match g.head?.bind (tget w.threads) with
    | some u => if sameBundle t u then (g ++ [l]) :: gs else g :: insertLane w l t gs
    | none => g :: insertLane w l t gs

/-- The groups into which a bundle's threads fall. -/
def Warp.groups (w : Warp) (m : Mask) : List (List Nat) :=
  ((w.lanes m).filter (fun p => !p.2.exited)).foldl (fun gs p => insertLane w p.1 p.2 gs) []

/-- Splits the bundle of a mask at cycle c (R55); the other bundles stay as they are. -/
def Warp.split (w : Warp) (m : Mask) (c : Nat) : Warp :=
  { w with bundles := w.bundles.flatMap (fun b =>
      if b.mask == m then (w.groups m).map (fun g => ⟨maskOf g, c, 0⟩) else [b]) }

/-- Splits every bundle whose threads no longer agree (R55); a bundle that stays whole stays as it is. -/
def Warp.splitAll (w : Warp) (c : Nat) : Warp :=
  { w with bundles := w.bundles.flatMap (fun b =>
      match w.groups b.mask with
      | [g] => [{ b with mask := maskOf g }]
      | gs => gs.map (fun g => ⟨maskOf g, c, 0⟩)) }

/-- The meeting group of an address (R53). -/
def Warp.meeting (w : Warp) (m : Word) : List (Nat × Thread) := w.running.filter (fun p => p.2.meetv == m)

/-- Releases the meeting group of an address when every member is parked (R53). -/
def Warp.releaseAt (c : Nat) (w : Warp) (m : Word) : Warp :=
  let g := w.meeting m
  if m != 0xFFFFFFFF && !g.isEmpty && g.all (fun p => p.2.parked) then
    let k := maskOf (g.map (·.1))
    { w with
      threads := w.threads.map (fun (p : Nat × Thread) =>
        (p.1, if !p.2.exited && p.2.meetv == m then { p.2 with meetv := 0xFFFFFFFF } else p.2))
      bundles :=
        (w.bundles.map (fun b => { b with mask := b.mask &&& ~~~k })).filter (fun b => b.mask != 0) ++ [⟨k, c, 0⟩] }
  else w

/-- Checks every meeting address of the warp (R53). -/
def Warp.release (w : Warp) (c : Nat) : Warp := (w.running.map (·.2.meetv)).foldl (Warp.releaseAt c) w

/-- Splits the issuing bundle and releases meeting groups. -/
def Warp.settle (w : Warp) (m : Mask) (c : Nat) : Warp := (w.split m c).release c

/-- A bundle of all running lanes. -/
def Warp.oneBundle (w : Warp) (c : Nat) : Warp := { w with bundles := [⟨maskOf (w.running.map (·.1)), c, 0⟩] }

/-- The bundle of a mask joins one with the same PC, remaining count and readiness (R55). -/
def mergeBundles (w : Warp) : List Bundle → List Bundle
  | [] => []
  | b :: l =>
    let rest := mergeBundles w l
    let key (x : Bundle) : Option Thread := (w.lanes x.mask).head?.map (·.2)
    match key b with
    | none => b :: rest
    | some t =>
      if t.wait != .run || t.parked then b :: rest
      else
        match rest.find? (fun x => match key x with | some u => sameBundle t u | none => false) with
        | some x => ⟨b.mask ||| x.mask, min b.since x.since, min b.yield x.yield⟩ :: rest.filter (fun y => y.mask != x.mask)
        | none => b :: rest

/-! The end of an instruction. -/

/-- The unit ends: nothing latched. -/
def Cur.clear (c : Cur) : Cur := { c with off := 0, rep := none, mod := none, len := 0, before := [] }

/-- A lane in which the instruction has had no effect has not counted it in its windows (R33). -/
def Cur.uncount (c : Cur) (l : Nat) (t : Thread) : Thread :=
  match tget c.before l with
  | some w => { t with windows := w }
  | none => t

/-- Advances a thread past the executed instruction, or to the next repeat of its unit (R38). -/
def Thread.advance (c : Cur) (t : Thread) : Thread :=
  match c.rep with
  | some r =>
    if r.idx + 1 < r.count then { t with rem := r.count - r.idx - 1 }
    else { t with pc := t.pc + BitVec.ofNat 32 (c.off + c.len), rem := 0 }
  | none => { t with pc := t.pc + BitVec.ofNat 32 (c.off + c.len), rem := 0 }

/-- A lane that waits or has exited stays where it is. -/
def Thread.stays (t : Thread) : Bool := t.exited || t.wait != .run

/-- The remaining count of a lane that stops in the present repeat (R38, R86). -/
def Cur.left (c : Cur) (t : Thread) : Nat := match c.rep with | some r => r.count - r.idx | none => t.rem

/-- A warp has issued for a number of cycles: its domain slot in its partition pays for them (R232, R382). -/
def Core.charge (k : Core) (slot cycles tick now : Nat) : Core :=
  match tget k.warps slot with
  | some w =>
    let i := 4 * (slot % 4) + w.homeSlot
    { k with
      deficit := k.deficit.modify i (fun x => x - (cycles : Int))
      lastIssue := k.lastIssue.set i now
      warps := tmod k.warps slot (fun w => { w with lastTick := tick }) }
  | none => k

/-- The issuing bundle has taken its cycles (R232). -/
def State.charge (s : State) (cycles : Nat) : State :=
  s.modCore s.cur.core (fun k => k.charge s.cur.slot cycles s.deckle.tick (s.cycle + 1))

/-- Ends the unit of the issuing bundle: its lanes go on by `f`, the bundle splits, meeting groups are released, and the
issue is charged to the home slot of the warp (R55, R53, R232). -/
def State.finishBy (s : State) (cycles : Nat) (f : Nat → Thread → Thread) : State :=
  let c := s.cycle + 1
  let s1 := (s.charge cycles).modWarp (fun w =>
    (w.mapLanes s.cur.mask (fun l t =>
        if t.wait == .fpx then { s.cur.uncount l t with rem := s.cur.left t } else if t.stays then t else f l t)).settle s.cur.mask c)
  { s1 with cur := s.cur.clear, cycle := c }

/-- Ends an instruction that goes on to the next one. -/
def State.finish (s : State) : State := s.finishBy 1 (fun _ t => t.advance s.cur)

/-- Ends an FPD instruction, which occupies its partition for two cycles (R111, R232). -/
def State.finish2 (s : State) : State := s.finishBy 2 (fun _ t => t.advance s.cur)

/-- The PC of the instruction being executed, past any prefixes (R42). -/
def State.ownPc (s : State) (t : Thread) : Word := t.pc + BitVec.ofNat 32 s.cur.off

/-- Ends a control transfer: each lane goes to its own target (R136). -/
def State.finishAt (s : State) (target : Nat → Thread → Word) : State :=
  s.finishBy 1 (fun l t => { t with pc := target l t, rem := 0 })

/-! Waiting and waking. -/

/-- Wakes the lanes of one warp whose wait satisfies a test; their bundles become ready (R58). -/
def Warp.wake (w : Warp) (p : Wait → Bool) (c : Nat) : Warp :=
  let hit (t : Thread) : Bool := !t.exited && p t.wait
  let woken := maskOf ((w.threads.filter (fun x => hit x.2)).map (·.1))
  if woken == 0 then w
  else
    { w with
      threads := w.threads.map (fun x => if hit x.2 then (x.1, { x.2 with wait := .run }) else x)
      bundles := w.bundles.map (fun b => if b.mask &&& woken == 0 then b else { b with since := c }) }

/-- Wakes lanes everywhere. -/
def State.wake (s : State) (p : Wait → Bool) : State :=
  { s with cores := s.cores.map (fun k =>
      (k.1, { k.2 with warps := k.2.warps.map (fun w => (w.1, w.2.wake p (s.cycle + 1))) })) }

/-- Wakes lanes of one warp. -/
def State.wakeWarp (s : State) (c w : Nat) (p : Wait → Bool) : State :=
  s.modWarpAt c w (fun x => x.wake p (s.cycle + 1))

/-- Puts lanes to wait at the instruction: it has no effect and issues again when they wake (R55, R407). A bundle whose lanes
wait for a result was not ready and has not issued; any other wait has taken its cycle (R58, R232). -/
def State.stall (s : State) (lanes : List Nat) (why : Wait) : State :=
  let m := maskOf lanes
  let s1 := (if why == .pend then s else s.charge 1).modWarp (fun w =>
    (w.mapLanes m (fun l t => { s.cur.uncount l t with wait := why })).settle s.cur.mask (s.cycle + 1))
  { s1 with cur := s.cur.clear, cycle := s.cycle + 1 }

/-- The whole bundle waits. -/
def State.stallAll (s : State) (why : Wait) : State := s.stall (s.active.map (·.1)) why

/-- A number for a new operation. -/
def State.fresh (s : State) : Nat × State := (s.nextId, { s with nextId := s.nextId + 1 })

/-! Engine counters (R172). -/

/-- Completed operations leave a counter from the oldest on (R172). -/
def retireEngine : List (Nat × Bool) → List (Nat × Bool)
  | (_, true) :: l => retireEngine l
  | l => l

/-- An operation completes: it and every older completed one leave the count, and lanes that wait on a count look again. -/
def State.completeEngine (s : State) (c slot cls id : Nat) : State :=
  (s.modWarpAt c slot (fun w => { w with engine := w.engine.modify cls (fun l =>
      retireEngine (l.map (fun p => if p.1 = id then (p.1, true) else p))) })).wakeWarp c slot (fun x => x == .count)

/-! Domains, the felt and the homes. -/

/-- DPART of a domain slot (R246). -/
def Core.dp (k : Core) (d : Nat) : Nat := (k.dpart.getD d 0).toNat

def dpWarps (x : Nat) : Nat := field x 15 0
def dpDid (x : Nat) : Nat := field x 31 16
def dpBase (x : Nat) : Nat := field x 38 32
def dpSize (x : Nat) : Nat := field x 46 40
def dpTm (x : Nat) : Nat := field x 63 56
def dpGcnt (x : Nat) : Nat := field x 74 64
def dpGt (x : Nat) : Nat := field x 107 96 * 2 ^ 32 + field x 95 76 * 2 ^ 12
def dpGv (x : Nat) : Bool := bit x 126
def dpV (x : Nat) : Bool := bit x 127

/-- The domain slot of a core that holds a DID (R246). -/
def Core.slotOf (k : Core) (did : Nat) : Option Nat :=
  (List.range 4).find? (fun d => dpV (k.dp d) && dpDid (k.dp d) == did)

/-- A domain, idle where nothing has touched it. -/
def State.domain (s : State) (part did : Nat) : Domain := (tget s.domains (domKey part did)).getD Domain.idle

/-- Changes a domain. -/
def State.modDomain (s : State) (part did : Nat) (f : Domain → Domain) : State :=
  { s with domains := tput s.domains (domKey part did) (f (s.domain part did)) }

/-- Sets the irrevocable mark of a domain (R256). -/
def State.markDomain (s : State) (part did : Nat) : State :=
  s.modDomain part did (fun d => { d with mark := true })

/-- The marks of a warp's home and current domain (R256). -/
def State.markWarp (s : State) (w : Warp) : State := (s.markDomain w.part w.homeDid).markDomain w.part w.curDid

/-- A launch that has accepted an irrevocable operation cannot be undone (R381). -/
def State.fixLaunch (s : State) (w : Warp) : State :=
  match tget s.blocks w.block with
  | some b => { s with launches := tmod s.launches b.launch (fun l => { l with fixed := true }) }
  | none => s

/-- An irrevocable operation of a warp other than EXIT (R256, R381). -/
def State.irrevocable (s : State) (w : Warp) : State := (s.markWarp w).fixLaunch w

/-- The first byte of the ROT (R276, R283). -/
def State.rotBase (s : State) : Nat := s.rothi.toNat * 2 ^ 32 + s.rotlo.toNat

/-- The ROT entry of a page as memory holds it. -/
def State.rotTable (s : State) (page : Nat) : Nat := wordOf (bytesAt s.mem (s.rotBase + 8 * page) 8)

/-- The ROT entry of a local address, from the cache or from the table (R283, R286). A page becomes stamped by its ROTINV, not by the
table alone, and one whose ROTINV was refused keeps its type (R338). -/
def State.rotEntry (s : State) (pa : Nat) : Nat :=
  let e := match tget s.rots (pa / 65536) with
    | some r => r.toNat
    | none =>
      let r := s.rotTable (pa / 65536)
      if r / 2 ^ 40 % 8 == 1 then r - 2 ^ 40 else r
  match tget s.kept (pa / 65536) with
  | some t => e / 2 ^ 43 * 2 ^ 43 + t * 2 ^ 40 + e % 2 ^ 40
  | none => e

/-- The pages whose entries in the table satisfy a test: an entry that is not zero has a byte in memory. -/
def State.rotPages (s : State) (p : Nat → Bool) : List Nat :=
  let pages := ((s.mem.filter (fun c => decide (s.rotBase ≤ c.1) && decide (c.1 < s.rotBase + 2 ^ 31))).map
    (fun c => (c.1 - s.rotBase) / 8)).dedup
  pages.filter (fun n => p (wordOf (bytesAt s.mem (s.rotBase + 8 * n) 8)))

def rotOwner (r : Nat) : Nat := field r 63 60
def rotDid (r : Nat) : Nat := field r 59 44
def rotNs (r : Nat) : Bool := bit r 43
def rotType (r : Nat) : Nat := field r 42 40
def rotMb (r : Nat) : Bool := bit r 39
def rotDual (r : Nat) : Nat := field r 38 37
def rotHome (r : Nat) : Nat := field r 36 33
def rotNext (r : Nat) : Nat := field r 32 29
def rotSh (r : Nat) : Bool := bit r 28
def rotE (r : Nat) : Bool := bit r 3
def rotX (r : Nat) : Bool := bit r 2
def rotW (r : Nat) : Bool := bit r 1
def rotR (r : Nat) : Bool := bit r 0

/-- A page lies in the secure range (R277). -/
def State.secure (s : State) (pa : Nat) : Bool := decide (s.secLo ≤ pa) && decide (pa < s.secHi)

/-- A partition owns a page: an entry whose NS disagrees with the secure range is nobody's (R277). -/
def State.owns (s : State) (p pa : Nat) : Bool :=
  rotOwner (s.rotEntry pa) == p && rotNs (s.rotEntry pa) != s.secure pa

/-- A page of a partition that its world may reach: a non-secure partition reaches no secure page (R277). -/
def State.reaches (s : State) (p pa : Nat) : Bool :=
  s.owns p pa && (match tget s.parts p with | some q => rotNs (s.rotEntry pa) || !q.ns | none => false)

/-- A local address with memory behind it (R280). -/
def backed (a : Nat) : Bool :=
  decide (a < 0x9000000000) || (decide (0x10000000000 ≤ a) && decide (a < 0x20000000000))

/-- The core whose register page holds a local address (R280, R285). -/
def regPage (a : Nat) : Option Nat :=
  if 0xFF000000000 ≤ a ∧ (a - 0xFF000000000) / 65536 < 576 then some ((a - 0xFF000000000) / 65536) else none

/-- A normal page that a partition owns, that its world may reach, and that is no register page: the device keeps a partition's
records, window table and gate tables there and nowhere else (R249, R277, R285, R293, R347). -/
def State.keepsIn (s : State) (p pa : Nat) : Bool := s.reaches p pa && rotType (s.rotEntry pa) == 0 && (regPage pa).isNone

/-- The felt has filled: logging stops, and the domain counts as irrevocable until its next checkpoint (R255). -/
def Domain.fill (d : Domain) : Domain := { d with full := true, mark := true }

/-- Logs the old contents of a line into a domain's felt before its first write since the last checkpoint; a full felt stops
logging and leaves the domain irrevocable (R255). -/
def Domain.logLine (d : Domain) (room : Bool) (line : Nat) (old : List Byte) : Domain :=
  if d.full || d.log.any (fun p => p.1 == line) then d
  else if room then { d with log := (line, old) :: d.log }
  else d.fill

/-- Logs a line into a deterministic launch's log while it can still be undone (R381). -/
def Launch.logLine (l : Launch) (room : Bool) (line : Nat) (old : List Byte) : Launch :=
  if l.fixed || l.log.any (fun p => p.1 == line) then l
  else if room then { l with log := (line, old) :: l.log }
  else { l with fixed := true }

/-- The DID of a launch record (R222). -/
def Launch.did (l : Launch) : Nat := field (l.words.getD 10 0).toNat 15 0

/-- Deterministic mode of a launch record (R222). -/
def Launch.det (l : Launch) : Bool := bit (l.words.getD 10 0).toNat 24

/-- A deterministic launch with a recorded digest keeps a log (R381). -/
def Launch.logs (l : Launch) : Bool := l.det && ((l.words.drop 24).take 4).any (· != 0)

/-- Whether a launch runs now. -/
def Launch.runs (l : Launch) : Bool :=
  match l.phase with
  | .running | .serial _ => true
  | _ => false

/-- The warps of a domain. -/
def State.homeWarps (s : State) (part did : Nat) : List Warp :=
  s.cores.flatMap (fun k => (k.2.warps.map (·.2)).filter (fun w => w.part == part && w.homeDid == did))

/-- The felt of a domain, the felt pages with its DID, has room for one more line with its header, besides the image and the
gate stack, the interval log and the launch logs (R255, R381). -/
def State.feltRoom (s : State) (part did : Nat) : Bool :=
  let pages := (s.rotPages (fun r => rotType r == 3 && rotOwner r == part && rotDid r == did)).filter (fun n => s.owns part (65536 * n))
  let ws := s.homeWarps part did
  let image := Config.imageSize ((ws.map (·.block)).dedup.length) ws.length (ws.map (·.gates.length)).sum
  let logs := (s.launches.filter (fun (l : Nat × Launch) => l.2.part == part && l.2.did == did)).map (fun l => l.2.log.length)
  decide (image + 144 * ((s.domain part did).log.length + logs.sum + 1) ≤ 65536 * pages.length)

/-- Logs the line of a write where the page is a normal page of a domain, not shared (R255). -/
def State.feltLog (s : State) (line : Nat) : State :=
  let r := s.rotEntry line
  let d := s.domain (rotOwner r) (rotDid r)
  if rotType r == 0 && !rotSh r && !d.full && !d.log.any (fun p => p.1 == line) then
    s.modDomain (rotOwner r) (rotDid r) (fun d =>
      d.logLine (s.feltRoom (rotOwner r) (rotDid r)) line (bytesAt s.mem line 128))
  else s

/-- Lanes that monitor a line a write touches wake (R169), and so do those that wait for a window counter: its words are words
of memory (R348, R353). -/
def State.wakeLine (s : State) (line : Nat) : State :=
  s.wake (fun w => match w with | .line a => a / 128 == line / 128 | .window => true | _ => false)

/-- Records a write in the owner partition's dirty log before it is performed: the page's first write of the round appends an
entry; once the log is full OVF is set, and every later write sets its region's bit in the bitmap in use (R400). -/
def State.migRecord (s : State) (pa : Nat) : State :=
  let p := rotOwner (s.rotEntry pa)
  match tget s.parts p with
  | some q =>
    let page := pa / 65536
    let base := q.mighi.toNat * 2 ^ 32 + q.miglo.toNat
    if !q.migEn then s
    else if q.migCnt < 2 ^ q.migLog then
      if q.migPages.contains page then s
      else
        { s with mem := setBytes s.mem (base + 8 * q.migCnt) (bytesOf 8 page) }.modPart p (fun q =>
          { q with
            migCnt := q.migCnt + 1, migPages := page :: q.migPages
            migOvf := q.migOvf || decide (2 ^ q.migLog ≤ q.migCnt + 1) })
    else
      let at_ := base + 8 * 2 ^ q.migLog + (if q.migBsel then 2 ^ 20 else 0) + pa / 2 ^ 21 / 8
      let old := byteAt s.mem at_
      { s with mem := setByte s.mem at_ (old ||| (1#8 <<< (pa / 2 ^ 21 % 8))) }.modPart p (fun q => { q with migOvf := true })
  | none => s

/-- A write performed at the home of its bytes, which lie in one line (R312): the felt, the bytes, the monitors. -/
def State.homeWrite (s : State) (pa : Nat) (data : List Byte) : State :=
  let s1 := (s.feltLog (pa / 128 * 128)).migRecord pa
  { s1 with mem := setBytes s1.mem pa data }.wakeLine pa

/-- A write of any length, line by line. -/
def State.homeWriteLong (s : State) : Nat → Nat → List Byte → State
  | 0, _, _ => s
  | k + 1, pa, data =>
    if data.isEmpty then s
    else
      let n := 128 - pa % 128
      (s.homeWrite pa (data.take n)).homeWriteLong k (pa + n) (data.drop n)

/-- Bytes as the homes hold them. -/
def State.homeRead (s : State) (pa n : Nat) : List Byte := bytesAt s.mem pa n

end Sys2Proof.Machine
end

