-- ==== Sys2Proof/Machine/Partial.lean ====
section
/-!
DEFINITION. The partials of the transformed mean (R241, R263, R265): their words, their normal form and the merge that lanes,
routers and vats share.
-/

namespace Sys2Proof.Machine

/-- A partial: S·2^k with its count and flags (R241). -/
structure Partial where
  S : Int
  k : Int
  n : Nat
  arg : Bool
  nan : Bool
  sat : Bool
  maxm : Bool
  slot : Nat
  deriving DecidableEq, Repr

/-- The empty partial of TMCLR (R263). -/
def Partial.empty : Partial := ⟨0, 0, 0, false, false, false, false, 0⟩

/-- A partial from its four words (R241). -/
def Partial.ofWords (l : List Word) : Partial :=
  let w (i : Nat) : Nat := (l.getD i 0).toNat
  ⟨sextN (w 0 + 2 ^ 32 * w 1) 64, sextN (w 2) 32, field (w 3) 23 0, bit (w 3) 24, bit (w 3) 25, bit (w 3) 26, bit (w 3) 27,
    field (w 3) 31 28⟩

/-- The four words of a partial. -/
def Partial.words (p : Partial) : List Word :=
  let s := BitVec.ofInt 64 p.S
  [lo32 s, hi32 s, BitVec.ofInt 32 p.k,
    BitVec.ofNat 32 (p.n + (if p.arg then 2 ^ 24 else 0) + (if p.nan then 2 ^ 25 else 0) + (if p.sat then 2 ^ 26 else 0) +
      (if p.maxm then 2 ^ 27 else 0) + p.slot * 2 ^ 28)]

/-- Empty: no count and bits [31:24] of word 3 zero (R263). -/
def Partial.isEmpty (p : Partial) : Bool := p.n == 0 && !p.arg && !p.nan && !p.sat && !p.maxm && p.slot == 0

/-- S / 2^n to the nearest integer, ties to even (R265). -/
def rneShift (x : Int) (n : Nat) : Int :=
  if n = 0 then x
  else if bitLen x.natAbs < n then 0
  else
    let q := x / 2 ^ n
    let r := x % 2 ^ n
    let half : Int := 2 ^ (n - 1)
    if half < r || (r == half && q % 2 == 1) then q + 1 else q

/-- Halving while |S| ≥ 2^62, rounding at each step (R265). -/
def shrink : Nat → Int → Int → Int × Int
  | 0, s, k => (s, k)
  | f + 1, s, k => if 2 ^ 62 ≤ s.natAbs then shrink f (rneShift s 1) (k + 1) else (s, k)

/-- The normal form of S·2^k (R265). -/
def normalise (s k : Int) : Int × Int :=
  if s = 0 then (0, 0)
  else
    let len := bitLen s.natAbs
    if len < 62 then (s * 2 ^ (62 - len), k - (62 - len : Nat)) else shrink (len - 61) s k

/-- The exponent must fit 32 signed bits; otherwise the value is lost and ARG set (R263). -/
def Partial.fit (p : Partial) : Partial :=
  if p.k < -2 ^ 31 ∨ 2 ^ 31 - 1 < p.k then { p with S := 0, k := 0, arg := true } else p

/-- A partial in normal form (R263). -/
def Partial.norm (p : Partial) : Partial :=
  let (s, k) := normalise p.S p.k
  Partial.fit { p with S := s, k := k }

/-- The value of a is less than that of b, both in normal form (R265). -/
def Partial.less (a b : Partial) : Bool :=
  if a.S < 0 then (if b.S < 0 then decide (b.k < a.k) || (a.k == b.k && decide (a.S < b.S)) else true)
  else if b.S < 0 || b.S == 0 then false
  else if a.S = 0 then true
  else decide (a.k < b.k) || (a.k == b.k && decide (a.S < b.S))

/-- merge(a, b) (R265). Two empty operands give the all-zero one: it is normal, and the same both ways round (R263, R265). -/
def merge (a b : Partial) : Partial :=
  if a.isEmpty then (if b.isEmpty then .empty else b.norm)
  else if b.isEmpty then a.norm
  else
    let a := a.norm
    let b := b.norm
    let total := a.n + b.n
    let r : Partial :=
      { S := 0, k := 0, n := min total 16777215, arg := a.arg || b.arg, nan := a.nan || b.nan,
        sat := a.sat || b.sat || decide (16777215 < total), maxm := a.maxm, slot := a.slot }
    if a.maxm != b.maxm || a.slot != b.slot then { r with arg := true, maxm := false, slot := 0 }
    else if a.maxm then (if a.less b then { r with S := b.S, k := b.k } else { r with S := a.S, k := a.k })
    else
      let (x, y) := if a.k < b.k then (b, a) else (a, b)
      let (s, k) := normalise (x.S + rneShift y.S (x.k - y.k).toNat) x.k
      Partial.fit { r with S := s, k := k }

/-- The merge over words, as lanes, routers and vats hold partials. -/
def mergeWords (a b : List Word) : List Word := (merge (Partial.ofWords a) (Partial.ofWords b)).words

end Sys2Proof.Machine
end

