-- ==== Sys2Proof/Machine/Homes.lean ====
section
/-!
DEFINITION. The homes and the way to them: the atomic operations (R198, R199), requests and the order in which a bank applies
them (R312–R315, R326), L1 and its write-backs (R181, R235, R236), and the acquire and the release (R180, R324).
-/

namespace Sys2Proof

/-- Operand and memory size of an atomic operation (R198). -/
def AtomOp.size : AtomOp → Nat
  | .dadd => 8
  | _ => 4

/-- An order reaches past the block, so it acts on L1 (R180). -/
def Scope.wide (s : Scope) : Bool := s != .block

/-- An order reaches other packages (R322). -/
def Scope.far (s : Scope) : Bool :=
  match s with
  | .pod | .system | .time => true
  | _ => false

/-- The order of an access has the acquire's, the release's part. -/
def Order.acquires (o : Order) : Bool := o == .acquire || o == .acqRel
def Order.releases (o : Order) : Bool := o == .release || o == .acqRel

end Sys2Proof

namespace Sys2Proof.Machine

/-! Atomic operations (R198, R199). -/

/-- Overflow under SAT gives the largest finite value of its sign (R199). -/
def satFp (f : NumFmt) (sat : Bool) (o : FpOut) : FpOut :=
  if sat && o.flags &&& flagOF != 0 then
    ⟨signBit f (decide (2 ^ (expBits f + fracBits f) ≤ o.bits)) + maxMag f, o.flags⟩
  else o

/-- The new memory value from the old one m, and the flags (R198, R199). -/
def atomNew (op : AtomOp) (m v v2 : Nat) (rm : Rm) (fz cn sat : Bool) : FpOut :=
  let a := BitVec.ofNat 32 m
  let b := BitVec.ofNat 32 v
  let env : FpEnv := ⟨rm, fz, fz, cn⟩
  let int (x : Word) : FpOut := ⟨x.toNat, 0⟩
  match op with
  | .add =>
    let t := a.toInt + b.toInt
    if sat then int (BitVec.ofInt 32 (max (-2 ^ 31) (min t (2 ^ 31 - 1)))) else int (a + b)
  | .and => int (a &&& b)
  | .or => int (a ||| b)
  | .xor => int (a ^^^ b)
  | .mins => int (signedMin a b)
  | .minu => int (unsignedMin a b)
  | .maxs => int (signedMax a b)
  | .maxu => int (unsignedMax a b)
  | .xchg => int b
  | .cas => if a = b then int (BitVec.ofNat 32 v2) else int a
  | .incw => if b.toNat ≤ a.toNat then int 0 else int (a + 1)
  | .fadd => satFp .f32 sat (fpAdd .f32 env m v)
  | .fmin => fpMinMax false .f32 env m v
  | .fmax => fpMinMax true .f32 env m v
  | .dadd => satFp .f64 sat (fpAdd .f64 env m v)

/-- BSIG's sum (R170, R193). -/
def bsigSum (m v : Nat) : Nat := min (m + v) (2 ^ 64 - 1)

/-! Counting of operations that complete away from the core (R172, R199). -/

/-- Whether anything still belongs to a counted operation. -/
def State.counting (s : State) (c slot cls id : Nat) : Bool :=
  s.reqs.any (fun r => r.counts.contains (c, slot, id)) || s.pkts.any (fun p => p.cnt == some (cls, id)) ||
    s.pend.any (fun p => p.id == id) || s.holds.any (fun h => h.id == id)

/-- A counted operation leaves its counter once nothing belongs to it. -/
def State.settleCount (s : State) (c slot cls id : Nat) : State :=
  if s.counting c slot cls id then s else s.completeEngine c slot cls id

/-! Requests at their homes (R312–R315). -/

/-- A request is applied at its home, as one operation. -/
def State.applyReq (s : State) (r : Req) : State :=
  let s1 := { s with reqs := s.reqs.filter (fun x => x.id != r.id) }
  let s2 := match r.kind with
    | .write data => s1.homeWrite r.addr data
    | .red op v rm fz cn sat =>
      let o := atomNew op (wordOf (s1.homeRead r.addr r.size)) v.toNat 0 rm fz cn sat
      let s2 := s1.homeWrite r.addr (bytesOf r.size o.bits)
      if o.flags = 0 then s2
      else { s2 with flagMsgs := s2.flagMsgs ++ r.from_.map (fun (f : Nat × Nat × Nat) => (f.1, f.2.1, f.2.2, o.flags)) }
    | .redTm ws => s1.homeWrite r.addr (wordsBytes (mergeWords (bytesWords (s1.homeRead r.addr 16)) ws))
    | .bsig v => s1.homeWrite r.addr (bytesOf 8 (bsigSum (wordOf (s1.homeRead r.addr 8)) v.toNat))
  (r.counts.dedup).foldl (fun s k => s.settleCount k.1 k.2.1 6 k.2.2) s2

/-- Two addresses have one home bank (R312): they lie in one line, or their pages have one home and the bank function names
one bank for both lines. -/
def State.sameBank (s : State) (a b : Nat) : Bool :=
  a / 128 == b / 128 ||
    (rotHome (s.rotEntry a) == rotHome (s.rotEntry b) && Config.homeBank (a / 128) == Config.homeBank (b / 128))

/-- Two requests have a core in common. -/
def Req.shares (a b : Req) : Bool := a.from_.any (fun f => b.from_.any (fun g => f.1 == g.1))

/-- The first of two requests in order reaches their bank before the other: they have a core and the bank in common (R326). -/
def State.precedes (s : State) (a b : Req) : Bool := a.shares b && s.sameBank a.addr b.addr

/-- A request stands before another in order. -/
def State.reqBefore (s : State) (a b : Req) : Bool := (s.reqs.takeWhile (fun q => q.id != b.id)).any (fun q => q.id == a.id)

/-- No earlier request holds this one back (R326). -/
def State.mayApply (s : State) (r : Req) : Bool := (s.reqs.takeWhile (fun q => q.id != r.id)).all (fun q => !s.precedes q r)

/-- The requests of a list that satisfy a test, and those that must reach a bank before one of them. -/
def State.dueReqs (s : State) (p : Req → Bool) : List Req → List Req
  | [] => []
  | q :: l =>
    let r := s.dueReqs p l
    if p q || r.any (s.precedes q) then q :: r else r

/-- Applies the requests that satisfy a test, and those before them, in order of arrival. -/
def State.drain (s : State) (p : Req → Bool) : State := (s.dueReqs p s.reqs).foldl State.applyReq s

/-- A request of one core. -/
def Req.ofCore (r : Req) (c : Nat) : Bool := r.from_.any (fun f => f.1 == c)

/-- A core's requests to a bank are applied before its next request to that bank: a read of a line there, or a write-back
(R150, R326). -/
def State.drainOwn (s : State) (c line : Nat) : State := s.drain (fun r => r.ofCore c && s.sameBank r.addr line)

/-- Requests of one warp. -/
def State.drainWarp (s : State) (c slot : Nat) : State :=
  s.drain (fun r => r.from_.any (fun f => f.1 == c && f.2.1 == slot))

/-- Requests of a core: what happens-before a release of one of its threads includes other threads' writes (R324). -/
def State.drainCore (s : State) (c : Nat) : State := s.drain (fun r => r.ofCore c)

/-! L1 (R181, R235, R236). -/

/-- L1 bytes of a domain slot of a core. -/
def State.l1Of (s : State) (c d : Nat) : Tbl (Byte × Bool) := (tget (s.core c).l1 d).getD []

/-- Sets the L1 bytes of a domain slot. -/
def State.setL1 (s : State) (c d : Nat) (t : Tbl (Byte × Bool)) : State := s.modCore c (fun k => { k with l1 := tput k.l1 d t })

/-- Writes a core's dirty bytes to their homes, one by one in rising order of address (R236). -/
def State.writeDirty (s : State) (c : Nat) : Tbl (Byte × Bool) → State
  | [] => s
  | (a, (b, true)) :: l => ((s.drainOwn c a).homeWrite a [b]).writeDirty c l
  | _ :: l => s.writeDirty c l

/-- Lines that have left an L1 carry no mark there (R181). -/
def State.unmark (s : State) (c d : Nat) (p : Nat → Bool) : State :=
  let t := (tget (s.core c).soon d).getD []
  if t.any p then s.modCore c (fun k => { k with soon := tput k.soon d (t.filter (fun x => !p x)) }) else s

/-- Every dirty line of a domain slot is written back; its bytes stay, clean (R180). -/
def State.writeBack (s : State) (c d : Nat) : State :=
  let t := s.l1Of c d
  if t.all (fun p => !p.2.2) then s
  else (s.writeDirty c t).setL1 c d (t.map (fun p => (p.1, (p.2.1, false))))

/-- Drops every clean byte of a domain slot; a dirty byte is never dropped (R180, R236). -/
def State.dropClean (s : State) (c d : Nat) : State :=
  let t := s.l1Of c d
  if t.isEmpty then s
  else (s.setL1 c d (t.filter (fun p => p.2.2))).unmark c d (fun line => !t.any (fun p => p.2.2 && p.1 / 128 == line / 128))

/-- The lines of a domain slot leave L1 after write-back (R163). -/
def State.flushL1 (s : State) (c d : Nat) : State := (s.writeBack c d).dropClean c d

/-- The bytes of this L1 that satisfy a test of their addresses leave it, the dirty ones to their homes. -/
def State.leaveL1 (s : State) (c d : Nat) (p : Nat → Bool) : State :=
  let t := s.l1Of c d
  let mine := t.filter (fun x => p x.1)
  if mine.isEmpty then s
  else ((s.writeDirty c mine).setL1 c d (t.filter (fun x => !p x.1))).unmark c d p

/-- A line leaves this L1 for a request to its home (R180, R181). -/
def State.writeOut (s : State) (c d line : Nat) : State := s.leaveL1 c d (fun a => a / 128 == line / 128)

/-- A line leaves this L1, and the core's requests to it are applied: what follows is served at the home (R180, R323). -/
def State.toHome (s : State) (c d line : Nat) : State := (s.writeOut c d line).drainOwn c line

/-! Orders (R180). -/

/-- The domain slots an order in slot d acts on: d, and while gate calls are open those in which the blocks that have a warp in d
have others. Without a gate call it is d alone (R180, R235, R252, log 71). -/
def State.tied (s : State) (c d : Nat) : List Nat :=
  let ws := (s.core c).warps.map (·.2)
  let bs := (ws.filter (fun w => w.slotsIn.contains d)).map (·.block)
  (d :: (ws.filter (fun w => bs.contains w.block)).flatMap Warp.slotsIn).dedup

/-- An order takes an L1 action: it reaches past the block, or the block lies in several slots (R180, log 71). -/
def State.actsOnL1 (s : State) (c d : Nat) (sc : Scope) : Bool := sc.wide || decide (1 < (s.tied c d).length)

/-- The L1 action of an acquire. -/
def State.acquire (s : State) (c d : Nat) (sc : Scope) : State :=
  if s.actsOnL1 c d sc then (s.tied c d).foldl (fun s e => s.dropClean c e) s else s

/-- A release: the core's requests are applied and the slot's dirty lines written back, whichever of its threads made them
(R180, R324). -/
def State.release (s : State) (c d : Nat) (sc : Scope) : State :=
  if s.actsOnL1 c d sc then (s.tied c d).foldl (fun s e => s.writeBack c e) (s.drainCore c) else s

/-- A warp goes from one domain slot to another: what it has written leaves the first, and it keeps no old copy in the second
(R150, R252, log 71). -/
def State.changeSlot (s : State) (c d e : Nat) : State := if d = e then s else (s.writeBack c d).dropClean c e

end Sys2Proof.Machine
end

