-- ==== Sys2Proof/Machine/Ops.lean ====
section
/-!
DEFINITION. Taking a trap (R290–R299), written once for every instruction and event: the report, the fault queue and its
records, the handlers of launches and of control cores, and the stop of a warp whose lanes wait on conditions (R407).
-/

namespace Sys2Proof.Machine

/-! Traps. -/

/-- The codes of the causes (R289). -/
def Cause.code : Cause → Nat
  | .illegal => 0x01 | .compat => 0x02 | .lookahead => 0x03 | .regrange => 0x04 | .align => 0x05 | .priv => 0x06
  | .cflow => 0x07 | .format => 0x08 | .fpx => 0x09 | .argument => 0x0A | .trap => 0x0B | .brk => 0x0C
  | .page => 0x10 | .rot => 0x11 | .domain => 0x12 | .gate => 0x13 | .stamp => 0x14 | .late => 0x15 | .engine => 0x16
  | .window => 0x17 | .digest => 0x18 | .launch => 0x19

/-- The cause of a code (R289). -/
def Cause.ofCode (n : Nat) : Option Cause :=
  [Cause.illegal, .compat, .lookahead, .regrange, .align, .priv, .cflow, .format, .fpx, .argument, .trap, .brk, .page, .rot,
    .domain, .gate, .stamp, .late, .engine, .window, .digest, .launch].find? (fun c => c.code == n)

/-- Supervisor-class causes (R289). -/
def Cause.isSuper : Cause → Bool
  | .page | .rot | .domain | .gate | .digest | .launch => true
  | _ => false

/-- The order in which causes are reported (R44, R291): a lower number first. -/
def Cause.rank : Cause → Nat
  | .illegal | .compat => 0 | .priv => 1 | .regrange => 2 | .lookahead => 3 | .format => 4 | .gate => 5 | .cflow => 6
  | .domain => 7 | .align => 8 | .page => 9 | .rot => 10 | .window => 12 | .engine => 13 | .stamp => 14 | .late => 14
  | .argument => 15 | .fpx => 16 | .trap => 17 | .brk => 17 | .digest => 18 | .launch => 19

/-- The TCAUSE word (R292). -/
def Report.tcause (r : Report) : Word :=
  BitVec.ofNat 32 (r.cause.code + (if r.deferred then 256 else 0) + (if r.super then 512 else 0) +
    (if r.gate then 1024 else 0) + 2048 * r.cls)

/-- The rank of a report: a DOMAIN of memory comes after ROT, and within a window FPX comes after every other cause (R291). -/
def Report.rank (r : Report) : Nat :=
  if r.cause = .fpx then 32 else if r.cause = .domain ∧ r.mem then 11 else r.cause.rank

/-- Inserts a report by rank, then by lane (R291). -/
def insertReport (r : Report) : List Report → List Report
  | [] => [r]
  | x :: l =>
    if r.rank < x.rank || (r.rank == x.rank && decide (r.lane < x.lane)) then r :: x :: l
    else x :: insertReport r l

/-- A precise report of a lane of a warp. The PC is that of the unit's first word; inside a repeated unit the remaining count
is that of the faulting repeat (R38, R290). -/
def mkReport (w : Warp) (cause : Cause) (lane : Nat) (pc lo hi : Word) : Report :=
  let rem := match tget w.threads lane with | some t => t.rem | none => 0
  ⟨cause, false, cause.isSuper || !w.gates.isEmpty, !w.gates.isEmpty, 0, pc, lane, lo, hi, rem, 0, false, none, maskOf [lane],
    false⟩

/-- Long-latency operations of a warp that a trap waits for (R34, R407): not the sync accesses that wait on a condition, not
held accesses, not LDAT before its tick. -/
def State.inFlight (s : State) (c w : Nat) : Bool :=
  s.pend.any (fun p => p.core == c && p.slot == w &&
    match p.kind with
    | .result .. | .mrd .. | .wget .. => true
    | .access _ held _ _ => !held
    | .ldat .. | .manifest .. => s.pkts.any (fun k => k.op == some p.id)
    | _ => false)

/-- An access that waits on a condition: a sync access to its word, an LDAT for its tick (R407). -/
def State.waitsOn (s : State) (p : Pending) : Bool :=
  match p.kind with
  | .ldsSync .. | .stsSync .. => true
  | .ldat .. => !s.pkts.any (fun k => k.op == some p.id)
  | _ => false

/-- How the lanes of a waiting operation go on, where they are held at their instruction. -/
def PendKind.next (k : PendKind) : Option Held :=
  match k with
  | .ldsSync _ _ _ n => n
  | .stsSync _ n => n
  | .ldat _ _ n => n
  | _ => none

/-- A trap, a pre-emption or a checkpoint stops a warp whose accesses wait on a condition: they have had no effect. Lanes held
at the instruction issue it again when they resume, and an access whose lanes went on under its lookahead is kept to be issued
again then (R33, R407). A GCALL that waits reads its entry afresh then (R249). -/
def State.parkSyncs (s : State) (c w : Nat) : State :=
  let mine (p : Pending) : Bool := p.core == c && p.slot == w && s.waitsOn p
  let keep := s.pend.filter (fun p => mine p && p.kind.next.isNone)
  ({ s with pend := s.pend.filter (fun p => !mine p) }.modWarpAt c w (fun x =>
    { x with retry := x.retry ++ keep, gcall := none })).wakeWarp c w (fun x => x == Wait.sync)

/-- Where the fault queue begins, and where its next record goes (R292, R296). -/
def Part.queueBase (q : Part) : Nat := q.fqhi.toNat * 2 ^ 32 + q.fqlo.toNat
def Part.queueAt (q : Part) : Nat := q.queueBase + 32 * (q.fqtail.toNat % 2 ^ q.fqsize.toNat)

/-- A fault queue that is configured, with its base, and the place of the next record, in a normal page that the partition owns and
may reach (R277, R293). -/
def State.queueValid (s : State) (p : Nat) (q : Part) : Bool :=
  q.fqsize != 0 && s.keepsIn p q.queueBase && s.keepsIn p q.queueAt

/-- The queue has room (R296). -/
def Part.queueRoom (q : Part) : Bool := (q.fqtail - q.fqhead).toNat < 2 ^ q.fqsize.toNat

/-- The eight words of a fault record (R296). -/
def recordWords (r : Report) (w : Warp) (core slot did : Nat) (tail : Word) : List Word :=
  [r.tcause, BitVec.ofNat 32 (did * 65536 + w.homeDid), BitVec.ofNat 32 (core + 1024 * slot + 16384 * r.lane), r.pc, r.lo, r.hi,
    BitVec.ofNat 32 (r.rem + 256 * r.orig), tail]

/-- A core's trap registers after a report (R292): TFRAME holds the remaining count, the level before and N. -/
def trapRegs (t : TrapRegs) (r : Report) (level : Nat) (n : Bool) : TrapRegs :=
  { t with
    tcause := r.tcause
    tpc := r.pc
    tlane := BitVec.ofNat 32 r.lane
    taddrlo := r.lo
    taddrhi := r.hi
    tframe := BitVec.ofNat 32 (r.rem + 256 * level + (if n then 1024 else 0)) }

def Level.code : Level → Nat
  | .user => 0 | .supervisor => 1 | .hypervisor => 2

def Level.ofCode (n : Nat) : Level := if n = 1 then .supervisor else if n = 2 then .hypervisor else .user

/-- A control core that HALT stopped goes on (R309). -/
def Core.resumeHalt (k : Core) : Core := { k with halted := none }

/-- Control cores of a partition (R275): 2s and 2s + 1 of each of its slices. -/
def controlIn (p : Nat) (q : Part) (core : Nat) : Bool :=
  isControl core && decide (2 * p ≤ core - 576) && decide (core - 576 < 2 * (p + q.size))

/-- Ends the halts of a partition's control cores (R309). -/
def State.endHalts (s : State) (p : Nat) : State :=
  match tget s.parts p with
  | some q => { s with cores := s.cores.map (fun k => if controlIn p q k.1 then (k.1, k.2.resumeHalt) else k) }
  | none => s

/-- An event of R398 starts the exit of a sleeping partition. -/
def State.wakePart (s : State) (p : Nat) : State := s.modPart p (fun q => if q.sleep = 0 then q else { q with waking := true })

/-- A store has reached a mailbox page: the halts of its owner's control cores end, and its owner wakes (R309, R398). -/
def State.mailStore (s : State) (rot : Nat) : State :=
  if rotMb rot then (s.endHalts (rotOwner rot)).wakePart (rotOwner rot) else s

/-- Before the first write of a deterministic launch to a line of a normal page, the line's old contents, as the writing core
sees them, go into its launch log (R381). An entry that finds no room has filled the felt (R255). -/
def State.launchLog (s : State) (c : Nat) (w : Warp) (pa rot : Nat) : State :=
  match tget s.blocks w.block with
  | some b =>
    match tget s.launches b.launch with
    | some l =>
      if rotType rot == 0 && l.logs && l.runs then
        let line := pa / 128 * 128
        let t := s.l1Of c w.curSlot
        let old := (List.range 128).map (fun i => match tget t (line + i) with | some (x, true) => x | _ => byteAt s.mem (line + i))
        let l1 := l.logLine (s.feltRoom l.part l.did) line old
        let s1 := { s with launches := tput s.launches b.launch l1 }
        if l1.fixed && !l.fixed then s1.modDomain l.part l.did Domain.fill else s1
      else s
    | none => s
  | none => s

/-- What a write to a page does besides its bytes: marks (R256), the launch log (R381), halts and sleep of the mailbox page's owner
ended (R309, R398). -/
def State.noteWrite (s : State) (c : Nat) (w : Warp) (pa rot : Nat) (sc : Scope) : State :=
  let s1 := (if rotSh rot || rotMb rot || sc == .system then s.irrevocable w else s).launchLog c w pa rot
  s1.mailStore rot

/-- A record is written at the queue's place, and then the tail counts it (R296); halts end (R309). -/
def State.putRecord (s : State) (p : Nat) (q : Part) (ws : List Word) : State :=
  ((s.homeWriteLong 2 q.queueAt (wordsBytes (ws ++ [q.fqtail]))).modPart p (fun q => { q with fqtail := q.fqtail + 1 })).endHalts p

/-- A record is posted: a warp's as a release at package scope, and its core's trap registers hold it then (R292, R296). -/
def State.postNow (s : State) (p : Nat) (q : Part) : HeldRec → State
  | .words ws => s.putRecord p q ws
  | .warp c slot d waits level r ws =>
    let s1 := ((s.release c d .package).putRecord p q ws).modCore c (fun k => { k with trap := trapRegs k.trap r level false })
    if waits then s1.modWarpAt c slot (fun w => { w with susp := w.susp.map (fun u => { u with posted := true }) }) else s1

/-- A record is posted where the queue is valid and has room, and held otherwise, which the management element counts (R293,
R296). -/
def State.postOrHold (s : State) (p : Nat) (h : HeldRec) : State :=
  match tget s.parts p with
  | some q =>
    if s.queueValid p q && q.queueRoom then s.postNow p q h
    else
      { s.modPart p (fun q => { q with heldRecs := q.heldRecs ++ [h] }) with
        element := { s.element with heldCount := s.element.heldCount + 1 } }
  | none => s

/-- The record of a report of a warp, as it is posted or held (R296). -/
def recordOf (r : Report) (w : Warp) (c slot did : Nat) (waits : Bool) : HeldRec :=
  .warp c slot w.curSlot waits w.level.code r ((recordWords r w c slot did 0).take 7)

/-- Posts the record of a suspended warp, or has the warp hold it (R296). -/
def State.postRecord (s : State) (c slot : Nat) : State :=
  match s.warpAt? c slot with
  | some w =>
    match w.susp, tget s.parts w.part with
    | some u, some _ =>
      if u.posted then s
      else s.postOrHold w.part (recordOf u.report w c slot u.did true)
    | _, _ => s
  | none => s

/-- Posts a record that belongs to no warp, or holds it until the queue has room (R296, R380). -/
def State.postWords (s : State) (p : Nat) (ws : List Word) : State := s.postOrHold p (.words ws)

/-- No warp waits for a held record any longer: the warp goes on, is rolled back or has ended. The record is still posted (R296). -/
def HeldRec.letGo (p : Nat → Nat → Bool) : HeldRec → HeldRec
  | .warp c slot d waits level r ws => .warp c slot d (waits && !p c slot) level r ws
  | .words ws => .words ws

/-- Warps let go of the records they hold. -/
def Part.letGo (q : Part) (p : Nat → Nat → Bool) : Part := { q with heldRecs := q.heldRecs.map (HeldRec.letGo p) }

/-- Posts the oldest held record of a partition once its queue is valid and has room (R293, R296). -/
def State.postHeld (s : State) (p : Nat) : State :=
  match tget s.parts p with
  | some q =>
    match q.heldRecs with
    | h :: rest =>
      if s.queueValid p q && q.queueRoom then (s.modPart p (fun q => { q with heldRecs := rest })).postNow p q h else s
    | [] => s
  | none => s

/-- Posts held records while there is room, oldest first, with their number as fuel. -/
def State.postAll (s : State) (p : Nat) : Nat → State
  | 0 => s
  | k + 1 => (s.postHeld p).postAll p k

/-- An FPX that is delivered clears its lane's EXCMASK (R85). -/
def Warp.clearExc (w : Warp) (r : Report) : Warp :=
  if r.cause = .fpx ∨ r.orig = 9 then { w with threads := tmod w.threads r.lane (fun t => { t with excmask := 0 }) } else w

/-- A stopped warp asks for its pair's extended set no longer: a waiting XLOCK issues again later (R67, R407). -/
def State.unask (s : State) (c slot : Nat) : State :=
  (s.modWarpAt c slot (fun w => { w with xreq := none })).wakeWarp c (slot ^^^ 1) (fun x => x == .lock)

/-- Suspends a warp and posts its record (R296). `mask` are the lanes active in the faulting instruction. -/
def State.suspend (s : State) (c slot : Nat) (r : Report) (mask : Mask) : State :=
  (((s.parkSyncs c slot).unask c slot).modWarpAt c slot (fun w =>
    { w.clearExc r with susp := some ⟨r, mask, r.posted, w.curDid⟩ })).postRecord c slot

/-- The report of a lane stopped for an FP exception (R87). -/
def fpxReport (w : Warp) (lane : Nat) (t : Thread) : Report := mkReport w .fpx lane t.pc 0 0

/-- The lanes stopped in a window: the FPX stops join the reports still to be delivered, behind the causes of the other lanes
(R87, R291). -/
def Warp.collectFpx (w : Warp) : Warp :=
  let stopped := w.running.filter (fun p => p.2.wait == .fpx)
  { w with
    pendingTraps := stopped.foldl (fun l p => insertReport (fpxReport w p.1 p.2) l) w.pendingTraps
    threads := w.threads.map (fun p => if p.2.wait == .fpx || p.2.wait == .trap then (p.1, { p.2 with wait := .run }) else p) }

/-- A window of stops is open in a warp (R87). -/
def Warp.collecting (w : Warp) : Bool := w.running.any (fun p => p.2.wait == .fpx)

/-- What a frame saves of a lane (R294): with the lane's PC, MEETV, count and v0 to v7 go the windows over accesses that the trap
has stopped, and the repeats done so far of its unit (R35, R407). -/
def Thread.save (stopped : List Nat) (t : Thread) : SavedLane :=
  { pc := t.pc, meetv := t.meetv, rem := t.rem, arrived := t.arrived, regs := t.regs.take 8,
    windows := t.windows.filter (fun x => x.ids.any stopped.contains), repIds := t.repIds, repDests := t.repDests }

/-- A lane at the entry of its handler (R294). -/
def Thread.enter (h : Word) (r : Report) (stopped : List Nat) (lane : Nat) (t : Thread) : Thread :=
  { t with
    pc := h, meetv := 0xFFFFFFFF, rem := 0, wait := .run, arrived := false
    windows := t.windows.filter (fun x => !x.ids.any stopped.contains), repIds := [], repDests := []
    excmask := if r.cause = .fpx ∧ lane = r.lane then 0 else t.excmask
    regs := [r.tcause, r.pc, BitVec.ofNat 32 r.lane, r.lo, r.hi, 0, 0, 0] ++ t.regs.drop 8 }

/-- Enters the launch's handler: the frame is saved, and every launched lane goes to the handler with the report (R294). -/
def Warp.enterHandler (w : Warp) (h : Word) (r : Report) (retPc : Word) (c : Nat) : Warp :=
  let stopped := w.retry.map (·.id)
  let frame : TrapFrame :=
    ⟨w.running.map (fun p => (p.1, p.2.save stopped)), w.partn, r, retPc, w.pendingTraps, w.retry⟩
  let go (p : Nat × Thread) : Nat × Thread := if p.2.exited then p else (p.1, p.2.enter h r stopped p.1)
  ({ w with threads := w.threads.map go, handler := some frame, partn := 5, pendingTraps := [], retry := [] }).oneBundle c

/-- The return PC of a report: TRAP is complete, so its frame returns past it (R145). -/
def Report.retPc (r : Report) : Word := if r.cause = .trap then r.pc + 4 else r.pc

/-- Enters a control core's own handler: every thread goes to TVEC. What R34 and R35 keep for the interrupted code, the windows over
stopped accesses and the repeats done so far of a unit, waits in a frame for ERET, with the reports still to be delivered and the
accesses to be issued again (R291, R299, R407). Threads that meet there are released (R53). -/
def Warp.enterControl (w : Warp) (h : Word) (r : Report) (c : Nat) : Warp :=
  let stopped := w.retry.map (·.id)
  let frame : TrapFrame :=
    ⟨w.running.map (fun p => (p.1, p.2.save stopped)), w.partn, r, r.pc, w.pendingTraps, w.retry⟩
  let go (t : Thread) : Thread :=
    { t with
      pc := h, rem := 0, wait := .run
      windows := t.windows.filter (fun x => !x.ids.any stopped.contains), repIds := [], repDests := [] }
  ((({ w.clearExc r with
    threads := (w.clearExc r).threads.map (fun (p : Nat × Thread) => (p.1, go p.2))
    handler := some frame, pendingTraps := [], retry := [] } : Warp).oneBundle c).splitAll c).release c

/-- A fault of a control-core thread: its own registers, and its own handler, with ERET's return PC in TPC (R145, R292); a
second fault, or a fault without a handler, stops the core and fails its partition (R293, R299). -/
def State.controlTrap (s : State) (c : Nat) (r : Report) : State :=
  match tget s.cores c, s.warpAt? c 0 with
  | some k, some w =>
    if bit k.trap.tframe.toNat 10 || k.trap.tvec == 0xFFFFFFFF then
      { (s.modCore c (fun k => { k with stopped := true })).modPart w.part (fun q => { q with failed := true }) with
        element := { s.element with reports := w.part :: s.element.reports } }
    else
      let r1 := { r with pc := r.retPc }
      ((s.parkSyncs c 0).modCore c (fun k => { k with trap := trapRegs k.trap r1 w.level.code true })).modWarpAt c 0 (fun w =>
        w.collectFpx.enterControl k.trap.tvec r1 (s.cycle + 1))
  | _, _ => s

/-- Delivers one report of a warp (R294–R296, R299): to the control core's own handler, to the supervisor, or to the launch's
handler. -/
def State.deliver (s : State) (c slot : Nat) (r : Report) (mask : Mask) : State :=
  if isControl c then s.controlTrap c r
  else
    match s.warpAt? c slot with
    | some w =>
      if r.super then s.suspend c slot r mask
      else
        match w.handler, w.trapVec with
        | none, some h =>
          ((s.parkSyncs c slot).unask c slot).modWarpAt c slot (fun w => w.collectFpx.enterHandler h r r.retPc (s.cycle + 1))
        | _, _ => s.suspend c slot { r with orig := r.cause.code, cause := .launch, super := true } mask
    | none => s

/-- Delivers the first report a warp still holds, once its long-latency work is done (R87, R291, R294). -/
def State.deliverPending (s : State) (c slot : Nat) : State :=
  match s.warpAt? c slot with
  | some w =>
    match w.pendingTraps with
    | r :: rest =>
      if w.susp.isSome || s.inFlight c slot then s
      else
        (s.modWarpAt c slot (fun w => { w with pendingTraps := rest })).deliver c slot r r.lanes
    | [] => s
  | none => s

/-- The report of a bundle whose issue has ended is delivered at once where the warp has nothing in flight, and otherwise held until
it has (R34, R290). While a window of FPX stops is open it joins that window, and its lanes stop (R87, R291). -/
def State.report (s : State) (c slot : Nat) (mask : Mask) (r : Report) : State :=
  let held := { r with lanes := mask }
  if (match s.warpAt? c slot with | some w => w.collecting | none => false) then
    s.modWarpAt c slot (fun w =>
      ({ w.mapLanes mask (fun _ t => { t with wait := .trap }) with
        pendingTraps := insertReport held w.pendingTraps }).settle mask s.cycle)
  else if s.inFlight c slot then
    s.modWarpAt c slot (fun w => { w with pendingTraps := insertReport held w.pendingTraps })
  else s.deliver c slot r mask

/-- TAKING A TRAP: the issue of the bundle ends with a report. Inside a repeated unit the lanes record the faulting repeat (R38,
R290). -/
def State.takeTrap (s : State) (r : Report) : State :=
  let left := match s.cur.rep with | some x => x.count - x.idx | none => 0
  let inUnit := s.cur.rep.isSome
  let r' := if inUnit then { r with rem := left } else r
  let s1 := (s.charge 1).modWarp (fun w => w.mapLanes s.cur.mask (fun l t =>
    let t1 := s.cur.uncount l t
    if inUnit then { t1 with rem := left } else t1))
  ({ s1 with cur := s.cur.clear, cycle := s.cycle + 1 } : State).report s.cur.core s.cur.slot s.cur.mask r'

/-- A precise fault of an access to memory or scratchpad, whose DOMAIN ranks after ROT (R290, R291). -/
def State.memFault (s : State) (cause : Cause) (lane : Nat) (lo hi : Word) : State :=
  match s.warp? with
  | some w =>
    let pc := match tget w.threads lane with | some t => t.pc | none => 0
    s.takeTrap { mkReport w cause lane pc lo hi with mem := true }
  | none => s

/-- A precise fault of the issuing bundle: no effect in any lane, reported for one lane at its PC (R290, R291). -/
def State.fault (s : State) (cause : Cause) (lane : Nat) (lo hi : Word) : State :=
  match s.warp? with
  | some w =>
    let pc := match tget w.threads lane with | some t => t.pc | none => 0
    s.takeTrap (mkReport w cause lane pc lo hi)
  | none => s

/-- A precise fault of a prefix or of a word that names nothing, reported at a word of the unit (R36, R43). No repeat has begun,
so a latched REP counts for nothing and a skip passes the whole unit (R408). -/
def State.faultAt (s : State) (cause : Cause) (lane : Nat) (off : Nat) : State :=
  match s.warp? with
  | some w =>
    let pc := match tget w.threads lane with | some t => t.pc | none => 0
    ({ s with cur := { s.cur with rep := none } }).takeTrap (mkReport w cause lane (pc + BitVec.ofNat 32 off) 0 0)
  | none => s

/-- The lowest-numbered active lane. -/
def State.firstLane (s : State) : Nat := match s.active with | p :: _ => p.1 | [] => 0

end Sys2Proof.Machine
end

