-- ==== Sys2Proof/Machine/Operands.lean ====
section
/-!
DEFINITION. How an instruction uses its operands, and everything that is checked before its effect: which prefixes it takes
and which fields they may change (R36–R40, R186), its level (R44, R45), the registers it reaches (R28, R63–R65), its
lookahead windows (R33–R35), and its engine counter (R172). `issue` is the one place where these checks are made, in the
order of R44.
-/

namespace Sys2Proof.Machine

/-- Register fields of a word (R26). -/
inductive Fld where
  | vd | va | vb
  deriving DecidableEq, Repr

/-- One register operand: its field, the encoded number, how many registers the group has, and the alignment the encoding
asks of it (R28). -/
structure Opd where
  fld : Fld
  reg : Nat
  n : Nat
  al : Nat
  deriving DecidableEq, Repr

/-- What the checks need to know of an instruction. -/
structure Use where
  opds : List Opd
  /-- REP may prefix it (R37). -/
  rep : Bool := false
  /-- MOD may give it rounding, FTZ, these orders, these scopes (R40, R186). -/
  rm : Bool := false
  ftz : Bool := false
  order : Order → Bool := fun _ => false
  scope : Scope → Bool := fun _ => false
  /-- The level it needs (R45, R304), and whether it needs a control core. -/
  level : Level := .user
  control : Bool := false
  /-- No level above it serves (R224). -/
  only : Bool := false
  /-- It closes lookahead windows (R34). -/
  closes : Bool := false
  /-- The counter class of an engine instruction (R171). -/
  cls : Option Nat := none
  /-- Registers a lane names by a computed index, and the operands that hold the index (R104). -/
  more : Thread → List Nat := fun _ => []
  srcs : List Opd := []

/-- A register field is stepped by the REP in force (R37). -/
def RepCtx.steps (r : RepCtx) : Fld → Bool
  | .vd => r.vd | .va => r.va | .vb => r.vb

/-- What a stepped field adds in the present repeat (R38). -/
def Cur.shift (c : Cur) (f : Fld) : Nat :=
  match c.rep with
  | some r => if r.steps f then r.idx * r.stride else 0
  | none => 0

/-- The register a field names in the present repeat, as a full number (R38). -/
def State.reg (s : State) (f : Fld) (r : Reg) : Nat := r.toNat + s.cur.shift f

/-- The registers an operand names in the present repeat. -/
def Opd.regs (c : Cur) (o : Opd) : List Nat := (List.range o.n).map (fun i => o.reg + c.shift o.fld + i)

/-- The registers an instruction reads or writes in a lane. -/
def Use.regs (u : Use) (c : Cur) (t : Thread) : List Nat := u.opds.flatMap (Opd.regs c) ++ u.more t

/-- REP may step these fields of the instruction (R37, R269). -/
def Use.stepsOk (u : Use) (r : RepCtx) : Bool :=
  [Fld.vd, .va, .vb].all (fun f => !r.steps f || u.opds.any (fun o => o.fld == f)) &&
    u.opds.all (fun o => !r.steps o.fld || r.stride % o.al == 0)

/-- MOD's fields suit the instruction (R40, R186). -/
def Use.modOk (u : Use) (m : ModCtx) : Bool :=
  (m.rm.isNone || u.rm) && (m.ftz.isNone || u.ftz) && (match m.order with | some o => u.order o | none => true) &&
    (match m.scope with | some o => u.scope o | none => true)

/-- The first offending prefix, as its offset in the unit, if there is one (R36). -/
def Use.badPrefix (u : Use) (c : Cur) : Option Nat :=
  match c.rep, c.mod with
  | some r, none => if u.rep && u.stepsOk r then none else some 0
  | none, some m => if u.modOk m then none else some 0
  | some r, some m => if !(u.rep && u.stepsOk r) then some 0 else if u.modOk m then none else some 4
  | none, none => none

/-- A warp may use register n (R63, R65). -/
def Warp.hasReg (w : Warp) (n : Nat) : Bool := decide (n < w.nbase) || (decide (96 ≤ n) && decide (n < 128) && w.xown)

/-- The level of the warp suffices (R45, R288). -/
def levelOk (have_ need : Level) : Bool := decide (need.code ≤ have_.code)

/-- An operation of a window has not completed. -/
def State.open_ (s : State) (ids : List Nat) : Bool := s.pend.any (fun p => ids.contains p.id)

/-- The first repeat of a unit, or an instruction that no REP repeats: the one that counts in windows (R35). -/
def Cur.counts (c : Cur) : Bool := match c.rep with | some r => r.idx == 0 | none => true

/-- The last repeat. -/
def Cur.last (c : Cur) : Bool := match c.rep with | some r => decide (r.count ≤ r.idx + 1) | none => true

/-- A window instruction names a destination of an open window: LOOKAHEAD (R33). A window at its last count is the one that
instruction L + 1 waits for; repeats after the first are still window instructions. -/
def Use.lookahead (u : Use) (c : Cur) (t : Thread) : Bool :=
  !u.closes && t.windows.any (fun w => (decide (0 < w.left) || !c.counts) && (u.regs c t).any w.dest.contains)

/-- The instruction waits in this lane: for a window at its end, for a strict one, for every one where it closes windows, or
for a register an earlier repeat still writes (R33–R35, R122, R172). -/
def State.mustWait (s : State) (u : Use) (c : Cur) (t : Thread) : Bool :=
  (c.counts && t.windows.any (fun w => (u.closes || w.left == 0 || w.strict) && s.open_ w.ids)) ||
    ((u.regs c t).any t.repDests.contains && s.open_ t.repIds)

/-- The registers the checks look at in a lane. A computed index counts once it can be read: not while the lane must wait for the
register that holds it, nor while that is a destination of an open window (R33, R104). -/
def State.knownRegs (s : State) (u : Use) (t : Thread) : List Nat :=
  let fixed : Use := { u with more := fun _ => [] }
  if s.mustWait fixed s.cur t || ({ fixed with opds := u.srcs } : Use).lookahead s.cur t then fixed.regs s.cur t else u.regs s.cur t

/-- LOOKAHEAD in a lane, over those registers (R33). -/
def State.looksAhead (s : State) (u : Use) (t : Thread) : Bool :=
  !u.closes && t.windows.any (fun w => (decide (0 < w.left) || !s.cur.counts) && (s.knownRegs u t).any w.dest.contains)

/-- One instruction counts in a thread's windows (R33). -/
def Thread.countOne (t : Thread) : Thread :=
  { t with windows := (t.windows.filter (fun w => decide (0 < w.left))).map (fun w => { w with left := w.left - 1 }) }

/-- The windows after the instruction has counted in them (R33). -/
def Use.count (u : Use) (c : Cur) (t : Thread) : Thread :=
  if !c.counts then t else if u.closes then { t with windows := [] } else t.countOne

/-- The lowest-numbered active lane in which a check fails. -/
def firstBad (l : List (Nat × Thread)) (p : Thread → Bool) : Option Nat := (l.find? (fun x => p x.2)).map (·.1)

/-- CNT of a class (R171). -/
def Warp.cnt (w : Warp) (cls : Nat) : Nat := (w.engine.getD cls []).length

/-- The engine counter of the warp is full (R172). -/
def Use.counterFull (u : Use) (w : Warp) : Bool :=
  match u.cls with
  | some k => decide (63 ≤ w.cnt k)
  | none => false

/-- The decode-time checks of an instruction on the issuing bundle (R44), then the waits for its windows, then its effect
`body` on the state in which it has counted in the windows. -/
def State.issue (s : State) (u : Use) (body : State → Out) : Out :=
  match s.warp? with
  | none => .fault .noWarp
  | some w =>
    let act := s.active
    match act with
    | [] => .fault .noWarp
    | (l0, _) :: _ =>
      match u.badPrefix s.cur with
      | some off => .next (s.faultAt .illegal l0 off)
      | none =>
        if !levelOk w.level u.level || (u.only && w.level != u.level) || (u.control && !isControl s.cur.core) then .next (s.fault .priv l0 0 0)
        else
          match firstBad act (fun t => (s.knownRegs u t).any (fun n => !w.hasReg n)) with
          | some l => .next (s.fault .regrange l 0 0)
          | none =>
            match firstBad act (s.looksAhead u) with
            | some l => .next (s.fault .lookahead l 0 0)
            | none =>
              let waiting := (act.filter (fun p => s.mustWait u s.cur p.2)).map (·.1)
              if !waiting.isEmpty then .next (s.stall waiting .pend)
              else if u.counterFull w && !s.live.isEmpty then .next (s.stall (act.map (·.1)) .count)
              else
                body { s.mapActive (fun _ t => u.count s.cur t) with
                  cur := { s.cur with before := act.map (fun p => (p.1, p.2.windows)) } }

/-- A long-latency instruction has been accepted: at the last repeat its window opens in each active lane, over the
operations and destinations of all its repeats (R33, R35). -/
def Thread.openWindow (last : Bool) (L : Nat) (strict : Bool) (ids dest : List Nat) (t : Thread) : Thread :=
  if last then
    { t with
      windows := t.windows ++ [⟨t.repIds ++ ids, t.repDests ++ dest, L, strict⟩]
      repIds := []
      repDests := [] }
  else { t with repIds := t.repIds ++ ids, repDests := t.repDests ++ dest }

/-- Opens the window of a long-latency instruction in every active lane. -/
def State.openWindow (s : State) (L : BitVec 4) (ids dest : List Nat) : State :=
  s.mapActive (fun _ t => t.openWindow s.cur.last L.toNat false ids dest)

/-- Counts an accepted operation in an engine counter of its warp (R172). -/
def State.countEngine (s : State) (cls id : Nat) : State :=
  s.modWarp (fun w => { w with engine := w.engine.modify cls (fun l => l ++ [(id, false)]) })

/-- Writes the results of a completed lane operation and raises its flags (R33, R84). -/
def State.commit (s : State) (c slot : Nat) (ws : List LaneWrite) : State :=
  s.modWarpAt c slot (fun w => { w with threads := w.threads.map (fun p =>
    match ws.find? (fun x => x.lane == p.1) with
    | some x => (p.1, (p.2.setAll x.regs).raise x.flags)
    | none => p) })

/-- An operation has ended for one lane: its windows no longer wait for it (R33), and the lane looks again. -/
def State.laneDone (s : State) (c slot lane id : Nat) : State :=
  (s.modWarpAt c slot (fun w => { w with threads := tmod w.threads lane (fun t => { t with
    windows := t.windows.map (fun x => { x with ids := x.ids.filter (fun i => i != id) })
    repIds := t.repIds.filter (fun i => i != id) }) })).wakeWarp c slot (fun x => x == .pend)

/-- A pending lane operation ends: it leaves the list, and the lanes that wait for it look again. -/
def State.endPending (s : State) (p : Pending) : State :=
  let s1 := { s with pend := s.pend.filter (fun x => x.id != p.id) }
  let s2 := match p.cls with
    | some k => s1.completeEngine p.core p.slot k p.id
    | none => s1
  s2.wakeWarp p.core p.slot (fun x => x == .pend)

/-- Issues a long-latency lane operation: it becomes pending, and its window opens. -/
def State.begin_ (s : State) (L : BitVec 4) (cls : Option Nat) (dest : List Nat) (kind : PendKind) : State :=
  let (id, s1) := s.fresh
  let pc := match s.active with | (_, t) :: _ => t.pc | [] => 0
  let s2 := { s1 with pend := s1.pend ++ [(⟨id, s.cur.core, s.cur.slot, pc, cls, kind⟩ : Pending)] }
  let s3 := match cls with | some k => s2.countEngine k id | none => s2
  s3.openWindow L [id] dest

/-! Operand forms. -/

/-- A single register. -/
def Opd.one (f : Fld) (r : Reg) : Opd := ⟨f, r.toNat, 1, 1⟩

/-- A register pair. -/
def Opd.two (f : Fld) (r : Reg) : Opd := ⟨f, r.toNat, 2, 2⟩

/-- A group of four aligned to four (R241). -/
def Opd.four (f : Fld) (r : Reg) : Opd := ⟨f, r.toNat, 4, 4⟩

/-- Three-register instructions of the lane's arithmetic (R26, R94). -/
def Use.f3 (b a d : Reg) : Use := { opds := [.one .vd d, .one .va a, .one .vb b], rep := true }

/-- One source, one destination. -/
def Use.f2 (a d : Reg) : Use := { opds := [.one .vd d, .one .va a], rep := true }

/-- Floating-point forms take a rounding and FTZ from MOD (R40). -/
def Use.fp (u : Use) : Use := { u with rm := true, ftz := true }

/-- Three register pairs. -/
def Use.p3 (b a d : Reg) : Use := { opds := [.two .vd d, .two .va a, .two .vb b], rep := true }

/-- Two register pairs. -/
def Use.p2 (a d : Reg) : Use := { opds := [.two .vd d, .two .va a], rep := true }

/-- Instructions of the flow majors: no prefix, windows closed (R34, R147). -/
def Use.flow (opds : List Opd) : Use := { opds := opds, closes := true }

/-- The floating-point environment of a lane under MOD (R40, R105). -/
def fpEnv (c : Cur) (t : Thread) : FpEnv :=
  let m := t.fpmode.toNat
  let rm := match field m 1 0 with | 0 => Rm.rne | 1 => Rm.rz | 2 => Rm.ru | _ => Rm.rd
  match c.mod with
  | some x => ⟨x.rm.getD rm, x.ftz.getD (bit m 2), bit m 3, bit m 9⟩
  | none => ⟨rm, bit m 2, bit m 3, bit m 9⟩

/-- The environment under an instruction's own rounding field, which MOD replaces (R105, R113, R119). -/
def fpEnvRm (c : Cur) (rm : Rm) (t : Thread) : FpEnv :=
  let e := fpEnv c t
  match c.mod with
  | some x => { e with rm := x.rm.getD rm }
  | none => { e with rm := rm }

/-- Writes a floating-point result, or stops the lane for an enabled exception (R84, R86). -/
def Thread.putFp (t : Thread) (o : FpOut) (write : Thread → Nat → Thread) : Thread :=
  if o.flags &&& t.enables = 0 then write (t.raise o.flags) o.bits else t.stopFpx o.flags

/-- Writes a 32-bit floating-point result. -/
def Thread.putFp32 (t : Thread) (d : Nat) (o : FpOut) : Thread := t.putFp o (fun t x => t.set d (BitVec.ofNat 32 x))

/-- Writes a 64-bit floating-point result. -/
def Thread.putFp64 (t : Thread) (d : Nat) (o : FpOut) : Thread := t.putFp o (fun t x => t.setPair d (BitVec.ofNat 64 x))

/-- A 32-bit register as a number. -/
def Thread.nat (t : Thread) (n : Nat) : Nat := (t.get n).toNat

/-- A register pair as a number. -/
def Thread.nat64 (t : Thread) (n : Nat) : Nat := (t.pair n).toNat

end Sys2Proof.Machine
end

