-- ==== Sys2Proof/Machine/Alu.lean ====
section
/-!
DEFINITION. Integer, address and bit-field instructions of majors 0x00 to 0x0B (R94–R104) and the 16-bit forms (R22–R24).
Each lane reads and writes its own registers; nothing else changes.
-/

namespace Sys2Proof.Machine

/-- A three-register operation: va, vb and the old vd give the new vd. -/
def alu3 (b a d : Reg) (f : Word → Word → Word → Word) (s : State) : Out :=
  s.issue (Use.f3 b a d) (fun s =>
    .next (s.mapActive (fun _ t =>
      t.set (s.reg .vd d) (f (t.get (s.reg .va a)) (t.get (s.reg .vb b)) (t.get (s.reg .vd d))))).finish)

/-- A two-register operation: va and the old vd give the new vd. -/
def alu2 (a d : Reg) (f : Word → Word → Word) (s : State) : Out :=
  s.issue (Use.f2 a d) (fun s =>
    .next (s.mapActive (fun _ t =>
      t.set (s.reg .vd d) (f (t.get (s.reg .va a)) (t.get (s.reg .vd d))))).finish)

/-- A one-register operation: the old vd gives the new vd. -/
def alu1 (d : Reg) (f : Word → Word) (s : State) : Out :=
  s.issue { opds := [.one .vd d], rep := true } (fun s =>
    .next (s.mapActive (fun _ t => t.set (s.reg .vd d) (f (t.get (s.reg .vd d))))).finish)

/-- A comparison's answer (R97). -/
def flagWord (b : Bool) : Word := if b then 1 else 0

/-- The field description of BFX and BFI: position and effective width (R98). -/
def bfPos (b : Word) : Nat := field b.toNat 4 0
def bfWidth (b : Word) : Nat := min (min (field b.toNat 10 5) 32) (32 - bfPos b)
def bfMask (b : Word) : Nat := (2 ^ bfWidth b - 1) * 2 ^ bfPos b

/-- BFX (R98). -/
def bfxValue (a b : Word) : Word :=
  let w := bfWidth b
  let f := (a.toNat &&& bfMask b) / 2 ^ bfPos b
  if w = 0 then 0
  else if bit b.toNat 11 && decide (2 ^ (w - 1) ≤ f) then BitVec.ofNat 32 (2 ^ 32 + f - 2 ^ w)
  else BitVec.ofNat 32 f

/-- BFI (R98). -/
def bfiValue (a b d : Word) : Word :=
  let m := BitVec.ofNat 32 (bfMask b)
  (d &&& ~~~m) ||| ((a <<< bfPos b) &&& m)

/-- Leading zero bits (R97). -/
def clzValue (a : Word) : Word := BitVec.ofNat 32 (32 - (if a = 0 then 0 else Nat.log2 a.toNat + 1))

/-- One bits (R97). -/
def popcValue (a : Word) : Word := BitVec.ofNat 32 ((List.range 32).countP (fun i => a.getLsbD i))

/-- The shift amount of a register shift: bits 4 to 0 (R96). -/
def shAmt (b : Word) : Nat := field b.toNat 4 0

/-- The high half of the unsigned and the signed product (R96). -/
def mulHighU (a b : Word) : Word := BitVec.ofNat 32 (a.toNat * b.toNat / 2 ^ 32)
def mulHighS (a b : Word) : Word := BitVec.ofInt 32 (a.toInt * b.toInt / 2 ^ 32)

/-- ADDP and ADDPI: a 64-bit pair plus a signed offset, modulo 2^64 (R96, R103). -/
def addPair (a : DWord) (x : Int) : DWord := a + BitVec.ofInt 64 x

/-- A 5-bit register field of the 16-bit form (R22). -/
abbrev low5 (r : BitVec 5) : Reg := r.setWidth 7

/-- ADD: vd := a + b modulo 2^32 (R96). -/
def execAdd (b a d : Reg) (s : State) : Out := alu3 b a d (fun a b _ => a + b) s

/-- SUB: vd := a − b modulo 2^32 (R96). -/
def execSub (b a d : Reg) (s : State) : Out := alu3 b a d (fun a b _ => a - b) s

/-- MUL: vd := low 32 bits of a × b (R96). -/
def execMul (b a d : Reg) (s : State) : Out := alu3 b a d (fun a b _ => a * b) s

/-- MULHU: vd := high 32 bits of the unsigned product (R96). -/
def execMulhu (b a d : Reg) (s : State) : Out := alu3 b a d (fun a b _ => mulHighU a b) s

/-- MULHS: vd := high 32 bits of the signed product (R96). -/
def execMulhs (b a d : Reg) (s : State) : Out := alu3 b a d (fun a b _ => mulHighS a b) s

/-- MAD: vd := low 32 bits of a × b + d (R96). -/
def execMad (b a d : Reg) (s : State) : Out := alu3 b a d (fun a b d => a * b + d) s

/-- AND: vd := a AND b (R96). -/
def execAnd (b a d : Reg) (s : State) : Out := alu3 b a d (fun a b _ => a &&& b) s

/-- OR: vd := a OR b (R96). -/
def execOr (b a d : Reg) (s : State) : Out := alu3 b a d (fun a b _ => a ||| b) s

/-- XOR: vd := a XOR b (R96). -/
def execXor (b a d : Reg) (s : State) : Out := alu3 b a d (fun a b _ => a ^^^ b) s

/-- ANDN: vd := a AND NOT b (R96). -/
def execAndn (b a d : Reg) (s : State) : Out := alu3 b a d (fun a b _ => a &&& ~~~b) s

/-- SHL: vd := a shifted left by b[4:0] (R96). -/
def execShl (b a d : Reg) (s : State) : Out := alu3 b a d (fun a b _ => a <<< shAmt b) s

/-- SHRU: vd := a shifted right by b[4:0] (R96). -/
def execShru (b a d : Reg) (s : State) : Out := alu3 b a d (fun a b _ => a >>> shAmt b) s

/-- SHRS: vd := a shifted right by b[4:0], filled with its sign (R96). -/
def execShrs (b a d : Reg) (s : State) : Out := alu3 b a d (fun a b _ => a.sshiftRight (shAmt b)) s

/-- ROTL: vd := a rotated left by b[4:0] (R96). -/
def execRotl (b a d : Reg) (s : State) : Out := alu3 b a d (fun a b _ => a.rotateLeft (shAmt b)) s

/-- SEL: vd := a if d is not zero, else b (R96). -/
def execSel (b a d : Reg) (s : State) : Out := alu3 b a d (fun a b d => if d = 0 then b else a) s

/-- MINS: signed minimum (R97). -/
def execMins (b a d : Reg) (s : State) : Out := alu3 b a d (fun a b _ => signedMin a b) s

/-- MINU: unsigned minimum (R97). -/
def execMinu (b a d : Reg) (s : State) : Out := alu3 b a d (fun a b _ => unsignedMin a b) s

/-- MAXS: signed maximum (R97). -/
def execMaxs (b a d : Reg) (s : State) : Out := alu3 b a d (fun a b _ => signedMax a b) s

/-- MAXU: unsigned maximum (R97). -/
def execMaxu (b a d : Reg) (s : State) : Out := alu3 b a d (fun a b _ => unsignedMax a b) s

/-- CMPEQ: a = b (R97). -/
def execCmpeq (b a d : Reg) (s : State) : Out := alu3 b a d (fun a b _ => flagWord (a == b)) s

/-- CMPNE: a ≠ b (R97). -/
def execCmpne (b a d : Reg) (s : State) : Out := alu3 b a d (fun a b _ => flagWord (a != b)) s

/-- CMPLTS: a < b, signed (R97). -/
def execCmplts (b a d : Reg) (s : State) : Out := alu3 b a d (fun a b _ => flagWord (decide (a.toInt < b.toInt))) s

/-- CMPLTU: a < b, unsigned (R97). -/
def execCmpltu (b a d : Reg) (s : State) : Out := alu3 b a d (fun a b _ => flagWord (decide (a.toNat < b.toNat))) s

/-- CMPLES: a ≤ b, signed (R97). -/
def execCmples (b a d : Reg) (s : State) : Out := alu3 b a d (fun a b _ => flagWord (decide (a.toInt ≤ b.toInt))) s

/-- CMPLEU: a ≤ b, unsigned (R97). -/
def execCmpleu (b a d : Reg) (s : State) : Out := alu3 b a d (fun a b _ => flagWord (decide (a.toNat ≤ b.toNat))) s

/-- BFX: bit-field extract (R98). -/
def execBfx (b a d : Reg) (s : State) : Out := alu3 b a d (fun a b _ => bfxValue a b) s

/-- BFI: bit-field insert (R98). -/
def execBfi (b a d : Reg) (s : State) : Out := alu3 b a d (fun a b d => bfiValue a b d) s

/-- CLZ: leading zero bits (R97). -/
def execClz (a d : Reg) (s : State) : Out := alu2 a d (fun a _ => clzValue a) s

/-- POPC: one bits (R97). -/
def execPopc (a d : Reg) (s : State) : Out := alu2 a d (fun a _ => popcValue a) s

/-- BREV: bits in reverse order (R97). -/
def execBrev (a d : Reg) (s : State) : Out := alu2 a d (fun a _ => a.reverse) s

/-- ADDI: vd := a + sext(imm, 11) (R99). -/
def execAddi (i : BitVec 11) (a d : Reg) (s : State) : Out := alu2 a d (fun a _ => a + i.signExtend 32) s

/-- ANDI: vd := a AND sext(imm, 11) (R99). -/
def execAndi (i : BitVec 11) (a d : Reg) (s : State) : Out := alu2 a d (fun a _ => a &&& i.signExtend 32) s

/-- ORI: vd := a OR zext(imm, 11) (R99). -/
def execOri (i : BitVec 11) (a d : Reg) (s : State) : Out := alu2 a d (fun a _ => a ||| i.setWidth 32) s

/-- XORI: vd := a XOR zext(imm, 11) (R99). -/
def execXori (i : BitVec 11) (a d : Reg) (s : State) : Out := alu2 a d (fun a _ => a ^^^ i.setWidth 32) s

/-- SHLI: shift left by an immediate count (R100). -/
def execShli (i : BitVec 5) (a d : Reg) (s : State) : Out := alu2 a d (fun a _ => a <<< i.toNat) s

/-- SHRUI: logical shift right by an immediate count (R100). -/
def execShrui (i : BitVec 5) (a d : Reg) (s : State) : Out := alu2 a d (fun a _ => a >>> i.toNat) s

/-- SHRSI: arithmetic shift right by an immediate count (R100). -/
def execShrsi (i : BitVec 5) (a d : Reg) (s : State) : Out := alu2 a d (fun a _ => a.sshiftRight i.toNat) s

/-- ROTLI: rotate left by an immediate count (R100). -/
def execRotli (i : BitVec 5) (a d : Reg) (s : State) : Out := alu2 a d (fun a _ => a.rotateLeft i.toNat) s

/-- CMPEQI: a = sext(imm, 9) (R101). -/
def execCmpeqi (i : BitVec 9) (a d : Reg) (s : State) : Out := alu2 a d (fun a _ => flagWord (a == i.signExtend 32)) s

/-- CMPLTSI: a < sext(imm, 9), signed (R101). -/
def execCmpltsi (i : BitVec 9) (a d : Reg) (s : State) : Out := alu2 a d (fun a _ => flagWord (decide (a.toInt < (i.signExtend 32).toInt))) s

/-- CMPLTUI: a < sext(imm, 9), both unsigned (R101). -/
def execCmpltui (i : BitVec 9) (a d : Reg) (s : State) : Out := alu2 a d (fun a _ => flagWord (decide (a.toNat < (i.signExtend 32).toNat))) s

/-- CMPNEI: a ≠ sext(imm, 9) (R101). -/
def execCmpnei (i : BitVec 9) (a d : Reg) (s : State) : Out := alu2 a d (fun a _ => flagWord (a != i.signExtend 32)) s

/-- MOV, 16-bit register form: vd := vs (R23). -/
def execMov16 (x d : BitVec 5) (s : State) : Out := alu2 (low5 x) (low5 d) (fun x _ => x) s

/-- ADD, 16-bit register form: ADD vd, vd, vs (R23). -/
def execAdd16 (x d : BitVec 5) (s : State) : Out := alu2 (low5 x) (low5 d) (fun x d => d + x) s

/-- SUB, 16-bit register form: SUB vd, vd, vs (R23). -/
def execSub16 (x d : BitVec 5) (s : State) : Out := alu2 (low5 x) (low5 d) (fun x d => d - x) s

/-- MUL, 16-bit register form: MUL vd, vd, vs (R23). -/
def execMul16 (x d : BitVec 5) (s : State) : Out := alu2 (low5 x) (low5 d) (fun x d => d * x) s

/-- AND, 16-bit register form: AND vd, vd, vs (R23). -/
def execAnd16 (x d : BitVec 5) (s : State) : Out := alu2 (low5 x) (low5 d) (fun x d => d &&& x) s

/-- OR, 16-bit register form: OR vd, vd, vs (R23). -/
def execOr16 (x d : BitVec 5) (s : State) : Out := alu2 (low5 x) (low5 d) (fun x d => d ||| x) s

/-- XOR, 16-bit register form: XOR vd, vd, vs (R23). -/
def execXor16 (x d : BitVec 5) (s : State) : Out := alu2 (low5 x) (low5 d) (fun x d => d ^^^ x) s

/-- SHL, 16-bit register form: SHL vd, vd, vs (R23). -/
def execShl16 (x d : BitVec 5) (s : State) : Out := alu2 (low5 x) (low5 d) (fun x d => d <<< shAmt x) s

/-- SHRU, 16-bit register form: SHRU vd, vd, vs (R23). -/
def execShru16 (x d : BitVec 5) (s : State) : Out := alu2 (low5 x) (low5 d) (fun x d => d >>> shAmt x) s

/-- SHRS, 16-bit register form: SHRS vd, vd, vs (R23). -/
def execShrs16 (x d : BitVec 5) (s : State) : Out := alu2 (low5 x) (low5 d) (fun x d => d.sshiftRight (shAmt x)) s

/-- MINS, 16-bit register form: MINS vd, vd, vs (R23). -/
def execMins16 (x d : BitVec 5) (s : State) : Out := alu2 (low5 x) (low5 d) (fun x d => signedMin d x) s

/-- MAXS, 16-bit register form: MAXS vd, vd, vs (R23). -/
def execMaxs16 (x d : BitVec 5) (s : State) : Out := alu2 (low5 x) (low5 d) (fun x d => signedMax d x) s

/-- MOVI, 16-bit immediate form: vd := sext(imm5, 5) (R23). -/
def execMovi16 (i d : BitVec 5) (s : State) : Out := alu1 (low5 d) (fun _ => i.signExtend 32) s

/-- ADDI, 16-bit immediate form: ADDI vd, vd, imm (R23). -/
def execAddi16 (i d : BitVec 5) (s : State) : Out := alu1 (low5 d) (fun d => d + i.signExtend 32) s

/-- SUBI, 16-bit immediate form: ADDI vd, vd, −imm (R23). -/
def execSubi16 (i d : BitVec 5) (s : State) : Out := alu1 (low5 d) (fun d => d - i.signExtend 32) s

/-- MULI, 16-bit immediate form: low 32 bits of vd × sext(imm5, 5) (R23). -/
def execMuli16 (i d : BitVec 5) (s : State) : Out := alu1 (low5 d) (fun d => d * i.signExtend 32) s

/-- ANDI, 16-bit immediate form: ANDI vd, vd, imm (R23). -/
def execAndi16 (i d : BitVec 5) (s : State) : Out := alu1 (low5 d) (fun d => d &&& i.signExtend 32) s

/-- ORI, 16-bit immediate form: OR with the sign-extended immediate (R23). -/
def execOri16 (i d : BitVec 5) (s : State) : Out := alu1 (low5 d) (fun d => d ||| i.signExtend 32) s

/-- XORI, 16-bit immediate form: XOR with the sign-extended immediate (R23). -/
def execXori16 (i d : BitVec 5) (s : State) : Out := alu1 (low5 d) (fun d => d ^^^ i.signExtend 32) s

/-- SHLI, 16-bit immediate form: SHLI vd, vd, imm (R23). -/
def execShli16 (i d : BitVec 5) (s : State) : Out := alu1 (low5 d) (fun d => d <<< i.toNat) s

/-- SHRUI, 16-bit immediate form: SHRUI vd, vd, imm (R23). -/
def execShrui16 (i d : BitVec 5) (s : State) : Out := alu1 (low5 d) (fun d => d >>> i.toNat) s

/-- SHRSI, 16-bit immediate form: SHRSI vd, vd, imm (R23). -/
def execShrsi16 (i d : BitVec 5) (s : State) : Out := alu1 (low5 d) (fun d => d.sshiftRight i.toNat) s

/-- MINSI, 16-bit immediate form: signed min(vd, sext(imm5, 5)) (R23). -/
def execMinsi16 (i d : BitVec 5) (s : State) : Out := alu1 (low5 d) (fun d => signedMin d (i.signExtend 32)) s

/-- MAXSI, 16-bit immediate form: signed max(vd, sext(imm5, 5)) (R23). -/
def execMaxsi16 (i d : BitVec 5) (s : State) : Out := alu1 (low5 d) (fun d => signedMax d (i.signExtend 32)) s

/-- ADDP: a pair plus sext(b, 32), modulo 2^64 (R96). -/
def execAddp (b a d : Reg) (s : State) : Out :=
  s.issue { opds := [.two .vd d, .two .va a, .one .vb b], rep := true } (fun s =>
    .next (s.mapActive (fun _ t =>
      t.setPair (s.reg .vd d) (addPair (t.pair (s.reg .va a)) (t.get (s.reg .vb b)).toInt))).finish)

/-- ADDPI: a pair plus sext(imm, 11), modulo 2^64 (R103). -/
def execAddpi (i : BitVec 11) (a d : Reg) (s : State) : Out :=
  s.issue (Use.p2 a d) (fun s =>
    .next (s.mapActive (fun _ t => t.setPair (s.reg .vd d) (addPair (t.pair (s.reg .va a)) i.toInt))).finish)

/-- LUI: vd := imm × 2^14 (R102). -/
def execLui (i : BitVec 18) (d : Reg) (s : State) : Out := alu1 d (fun _ => i.setWidth 32 <<< 14) s

/-- AUIP: vd := PC + sext(imm, 18) × 2 (R42). -/
def execAuip (i : BitVec 18) (d : Reg) (s : State) : Out :=
  s.issue { opds := [.one .vd d], rep := true } (fun s =>
    .next (s.mapActive (fun _ t => t.set (s.reg .vd d) (s.ownPc t + i.signExtend 32 * 2))).finish)

/-- MOVRI: vd := the register numbered by va; the index of every active lane is checked first (R65, R104). -/
def execMovri (a d : Reg) (s : State) : Out :=
  let a' := s.reg .va a
  s.issue { Use.f2 a d with more := fun t => [t.nat a'], srcs := [.one .va a] } (fun s =>
    .next (s.mapActive (fun _ t => t.set (s.reg .vd d) (t.get (t.nat a')))).finish)

/-- MOVRO: the register numbered by vd := va (R104). -/
def execMovro (a d : Reg) (s : State) : Out :=
  let d' := s.reg .vd d
  s.issue { Use.f2 a d with more := fun t => [t.nat d'], srcs := [.one .vd d] } (fun s =>
    .next (s.mapActive (fun _ t => t.set (t.nat d') (t.get (s.reg .va a)))).finish)

end Sys2Proof.Machine
end

