-- ==== Sys2Proof/Machine/Translate.lean ====
section
/-!
DEFINITION. Virtual addresses to checked physical ones (R179, R275–R287): the local map, the walk over four levels, the
reverse ownership table, the cached translations, and fetching an instruction's bytes (R19, R20).
-/

namespace Sys2Proof.Machine

/-- An access as translation sees it (R282, R284): partition, level, current DID, and what it does. -/
structure XReq where
  part : Nat
  level : Level
  did : Nat
  rd : Bool
  wr : Bool
  ex : Bool
  eng : Bool
  deriving DecidableEq, Repr

/-- What translation answers: a cached translation is missing, a fault, or a local address with its ROT entry. -/
inductive Xlat where
  | miss
  | bad (c : Cause)
  | good (pa rot : Nat)
  deriving DecidableEq, Repr

/-- A slice belongs to a partition (R275). -/
def inPart (p : Nat) (q : Part) (slice : Nat) : Bool := decide (p ≤ slice) && decide (slice < p + q.size)

/-- Reserved values of a ROT entry (R283, R319). -/
def rotReserved (p : Nat) (q : Part) (r : Nat) : Bool :=
  decide (12 ≤ rotOwner r) || decide (4 ≤ rotType r) || (rotMb r && rotType r != 0) || decide (2 ≤ rotDual r) ||
    decide (13 ≤ rotHome r) ||
    (rotDual r == 1 && (rotNext r == rotHome r || decide (13 ≤ rotNext r) || (rotNext r != 12 && !inPart p q (rotNext r)) ||
      rotType r == 1 || rotType r == 2))

/-- rot_check (R284): the access is refused. The type's own refusals (R184) are the instruction's. -/
def State.rotRefuses (s : State) (x : XReq) (pa : Nat) : Bool :=
  let r := s.rotEntry pa
  let perms := (x.rd && !rotR r) || (x.wr && !rotW r) || (x.ex && !rotX r) || (x.eng && !rotE r)
  match tget s.parts x.part with
  | none => x.level != .hypervisor || rotNs r == s.secure pa || perms
  | some q =>
    let world := rotNs r == s.secure pa || (!rotNs r && q.ns)
    match x.level with
    | .hypervisor => world || perms
    | _ =>
      rotOwner r != x.part || rotReserved x.part q r || (rotHome r != 12 && !inPart x.part q (rotHome r)) || world ||
        (x.level == .user && !rotSh r && rotDid r != x.did) || perms

/-! Stamped records as plain reads take them (R338–R340). -/

/-- The hypervisor meets no test of a page's type, but for a page without a frame of its own (R284, R349). -/
def Warp.typeFree (w : Warp) (rot : Nat) : Bool := w.level == .hypervisor && rotType rot != 2

/-- The newest version of a record, if a stamped one is held. -/
def State.newest (s : State) (rec_ : Nat) : Option Version := (tget s.stamped rec_).bind (fun r => r.versions.getLast?)

/-- One byte of a record as a plain load takes it. -/
def State.stampedByte (s : State) (pa : Nat) : Byte :=
  match s.newest (pa / 16 * 16) with
  | some v => v.data.getD (pa % 16) 0
  | none => byteAt s.mem pa

def State.stampedRead (s : State) (pa n : Nat) : List Byte := (List.range n).map (fun i => s.stampedByte (pa + i))

/-- Bytes as the page they lie in gives them to a plain read (R184, R284). -/
def State.stampedOr (s : State) (rot pa n : Nat) : List Byte := if rotType rot == 1 then s.stampedRead pa n else s.homeRead pa n

/-- The permissions of a leaf refuse an access (R282). -/
def leafRefuses (x : XReq) (s_ x_ w_ r_ : Bool) : Bool :=
  (x.ex && !x_) || (x.rd && !r_) || (x.wr && !w_) || (s_ && x.level != .supervisor)

/-- The index bits, table size below, and leaf size of each level (R281). -/
def walkLevel : Nat → Nat × Nat × Nat × Nat
  | 0 => (55, 43, 65536, 0)
  | 1 => (42, 30, 4096, 30)
  | 2 => (29, 21, 256, 21)
  | _ => (20, 16, 1, 16)

/-- The walk from a level on, with the levels left as fuel: a local page and the leaf's S, X, W and R (R282). The type of a
table's page must serve the read of an entry at its home: a stamped page gives its newest version, and a window, felt or register
page refuses it (R284, R285, log 49). -/
def State.walkFrom (s : State) (part : Nat) (va : Nat) : Nat → Nat → Nat → Except Cause TlbEntry
  | 0, _, _ => .error .page
  | k + 1, lvl, t =>
    let (hi, lo, below, leaf) := walkLevel lvl
    let at_ := t + 8 * field va hi lo
    if at_ / 2 ^ 44 != s.pkg || !(backed (at_ % 2 ^ 44) || (regPage (at_ % 2 ^ 44)).isSome) then .error .page
    else if s.rotRefuses ⟨part, .supervisor, 0, true, false, false, false⟩ (at_ % 2 ^ 44) ||
        decide (1 < rotType (s.rotEntry (at_ % 2 ^ 44))) || (regPage (at_ % 2 ^ 44)).isSome then .error .rot
    else
      let e := wordOf (s.stampedRead (at_ % 2 ^ 44) 8)
      let addr := field e 56 8 * 256
      if !bit e 0 || field e 63 57 != 0 || field e 7 6 != 0 then .error .page
      else if bit e 1 then
        if lvl == 0 || addr % 2 ^ leaf != 0 then .error .page
        else
          let pa := addr + va % 2 ^ leaf
          if pa / 2 ^ 44 != s.pkg || !(backed (pa % 2 ^ 44) || (regPage (pa % 2 ^ 44)).isSome) then .error .page
          else .ok ⟨part, va / 65536, pa % 2 ^ 44 / 65536, bit e 5, bit e 4, bit e 3, bit e 2, leaf⟩
      else if lvl == 3 || addr % below != 0 then .error .page
      else s.walkFrom part va k (lvl + 1) addr

/-- The number that stands for no partition: that of a hypervisor thread whose slice belongs to none. -/
def noPart : Nat := 12

/-- The whole walk of a partition (R281, R282). A hypervisor thread outside every partition has no tables: its virtual addresses
are local ones (log 47). -/
def State.walk (s : State) (part va : Nat) : Except Cause TlbEntry :=
  match tget s.parts part with
  | some q => s.walkFrom part va 4 0 (q.pgthi.toNat * 2 ^ 32 + q.pgtlo.toNat)
  | none =>
    if part = noPart ∧ backed va then .ok ⟨noPart, va / 65536, va / 65536, false, true, true, true, 16⟩ else .error .page

/-- The L2 line of a user's request holds another DID (R247). A line takes its DID from the table as it is filled, which the model
does at each request (log 70); a page that domains share, and one without lines of its own, is passed over. Every access asks this
after the refusals of the page's type, as DOMAIN comes after ROT (R284, R291, R346). -/
def State.lineRefuses (s : State) (x : XReq) (pa : Nat) : Bool :=
  let r := s.rotEntry pa
  x.level == .user && !rotSh r && decide (rotType r < 2) && (regPage pa).isNone && rotDid (s.rotTable (pa / 65536)) != x.did

/-- A translation found, checked for one access. -/
def State.useEntry (s : State) (x : XReq) (va : Nat) (e : TlbEntry) : Xlat :=
  let pa := e.ppage * 65536 + va % 65536
  if leafRefuses x e.s e.x e.w e.r then .bad .page
  else if s.rotRefuses x pa then .bad .rot
  else .good pa (s.rotEntry pa)

/-- A cached translation (R286). -/
def State.tlbFind (s : State) (part va : Nat) : Option TlbEntry :=
  s.tlb.find? (fun e => e.part == part && e.vpage == va / 65536)

/-- The ROT entry of a page is cached (R286). -/
def State.cacheRot (s : State) (page : Nat) : State :=
  { s with rots := tput s.rots page (BitVec.ofNat 64 (s.rotEntry (page * 65536))) }

/-- Translation through the TLB; a ROT result that is not cached is a miss too. -/
def State.xlate (s : State) (x : XReq) (va : Nat) : Xlat :=
  match s.tlbFind x.part va with
  | some e => if (tget s.rots e.ppage).isNone then .miss else s.useEntry x va e
  | none => .miss

/-- Translation with the walk where nothing is cached: the entry is cached (R286). -/
def State.xlateWalk (s : State) (x : XReq) (va : Nat) : Xlat × State :=
  match s.tlbFind x.part va with
  | some e => (s.useEntry x va e, s.cacheRot e.ppage)
  | none =>
    match s.walk x.part va with
    | .ok e => (s.useEntry x va e, { s with tlb := e :: s.tlb }.cacheRot e.ppage)
    | .error c => (.bad c, s)

/-- The translation request of a warp for what its instruction does. -/
def Warp.request (w : Warp) (rd wr ex : Bool) : XReq := ⟨w.part, w.level, w.curDid, rd, wr, ex, false⟩

/-- One halfword of code at a virtual address: the cached line where there is one, else the homes' bytes, which are then
cached (R20, R307). A fetch of the hypervisor meets no test of the page's type (R284). -/
def State.fetchHalf (s : State) (core : Nat) (w : Warp) (va : Nat) : Except Cause (List Byte × State) :=
  if 2 ^ 56 ≤ va then .error .page
  else
    match s.xlateWalk (w.request false false true) va with
    | (.good pa r, s1) =>
      if (rotType r != 0 && !w.typeFree r) || (regPage pa).isSome then .error .rot
      else if s1.lineRefuses (w.request false false true) pa then .error .domain
      else
        match tget s1.cores core with
        | some k =>
          if k.icache.any (fun c => c.1 == va) then .ok ([byteAt k.icache va, byteAt k.icache (va + 1)], s1)
          else
            let line := va / 128 * 128
            let bytes := s1.stampedOr r (pa / 128 * 128) 128
            let cells : List Host.Cell := (List.range 128).map (fun i => (line + i, bytes.getD i 0))
            let s2 := s1.modCore core (fun k => { k with icache := k.icache ++ cells })
            .ok (s1.stampedOr r pa 2, s2)
        | none => .error .page
    | (.bad c, _) => .error c
    | (.miss, _) => .error .page

/-- The bytes of one word of an instruction at a code offset: two or four, by bit 0 of the first halfword (R19). A halfword
outside the segment answers its address (R20). -/
def State.fetchWord (s : State) (core : Nat) (w : Warp) (off : Nat) : Except (Cause × Nat) (List Byte × State) :=
  let a := w.code.base + off
  if w.code.size < off + 2 then .error (.page, a)
  else
    match s.fetchHalf core w a with
    | .error c => .error (c, a)
    | .ok (lo, s1) =>
      if !bit (wordOf lo) 0 then .ok (lo, s1)
      else if w.code.size < off + 4 then .error (.page, a + 2)
      else
        match s1.fetchHalf core w (a + 2) with
        | .error c => .error (c, a + 2)
        | .ok (hi, s2) => .ok (lo ++ hi, s2)

end Sys2Proof.Machine
end

