-- ==== Sys2Proof/Machine/Spad.lean ====
section
/-!
DEFINITION. Scratchpad as every unit sees it (R163–R167): address words and their faults, the bytes of a block, the full/empty
bits; and the meaning of a tile-layout record's words (R175, R176).
-/

namespace Sys2Proof.Machine

/-! Addresses and words. -/

/-- A place in a block's scratchpad. -/
structure SpRef where
  block : Nat
  off : Nat
  deriving DecidableEq, Repr

/-- The block at a gang position of a block's gang (R164). -/
def State.gangMate (s : State) (id pos : Nat) : Option Nat :=
  match tget s.blocks id with
  | some b =>
    (tfind? s.blocks (fun _ x => x.launch == b.launch && x.index / x.gangSize == b.index / b.gangSize && x.gangPos == pos)).map
      (·.1)
  | none => none

/-- The place a scratchpad address word names, for an access of a size by a warp (R164, R165). -/
def State.spadRef (s : State) (w : Warp) (word size : Nat) : Except Cause SpRef :=
  let off := field word 18 0
  let g := bit word 22
  let pos := field word 21 20
  if off % size != 0 then .error .align
  else if field word 31 23 != 0 || bit word 19 || (!g && pos != 0) then .error .page
  else
    match if g then s.gangMate w.block pos else some w.block with
    | none => .error .page
    | some id =>
      match tget s.blocks id with
      | none => .error .page
      | some b =>
        if b.pad < off + size then .error .page
        else if dpDid ((s.core b.core).dp b.slot) != w.curDid then .error .domain
        else .ok ⟨id, off⟩

/-- The place a number of bytes past the one an address word names. An offset beyond the field of the word lies beyond every
block's scratchpad (R165, R176). -/
def State.spadAt (s : State) (w : Warp) (word off size : Nat) : Except Cause SpRef :=
  let at_ := field word 18 0 + off
  if at_ % size != 0 then .error .align
  else if 2 ^ 19 ≤ at_ then .error .page
  else s.spadRef w (word + off) size

/-- The place of n bytes that follow one another from an offset, with an alignment of the first; any byte at or beyond the block's
.pad is PAGE, before DOMAIN (R165). -/
def State.spadRun (s : State) (w : Warp) (word off al n : Nat) : Except Cause SpRef :=
  if (field word 18 0 + off) % al != 0 then .error .align
  else
    match s.spadAt w word (off + (n - 1)) 1 with
    | .error x => .error x
    | .ok p => .ok ⟨p.block, p.off - (n - 1)⟩

/-- The high word of the scratchpad aperture (R164). -/
def spadHigh : Nat := 0xFF000000

/-- Bytes of a block's scratchpad. -/
def State.spRead (s : State) (r : SpRef) (n : Nat) : List Byte :=
  match tget s.blocks r.block with
  | some b => bytesAt b.sp r.off n
  | none => List.replicate n 0

/-- Lanes that monitor a word of the written bytes wake (R169). -/
def State.wakeWord (s : State) (r : SpRef) (n : Nat) : State :=
  s.wake (fun x => match x with
    | .word b i => b == r.block && decide (r.off / 4 ≤ i + 1) && decide (i ≤ (r.off + n - 1) / 4)
    | _ => false)

/-- A write to scratchpad at its bank: full/empty bits stay (R166, R167, R237). -/
def State.spWrite (s : State) (r : SpRef) (data : List Byte) : State :=
  (s.modBlock r.block (fun b => { b with sp := setBytes b.sp r.off data })).wakeWord r data.length

/-- A word's full/empty bit (R167). -/
def Block.isFull (b : Block) (i : Nat) : Bool := b.full.contains i

def State.isFull (s : State) (block i : Nat) : Bool := match tget s.blocks block with | some b => b.isFull i | none => false

/-- Sets a word's bit. -/
def State.setFull (s : State) (block i : Nat) (f : Bool) : State :=
  s.modBlock block (fun b => { b with full := if f then (if b.isFull i then b.full else i :: b.full) else b.full.filter (fun x => x != i) })

/-! Tile-layout records (R175, R176). -/

/-- A record's words with its meaning (R175). -/
structure Record where
  baselo : Nat
  basehi : Nat
  sp : Bool
  H : Nat
  W : Nat
  stride : Nat
  v : Bool
  h : Nat
  code : Nat
  fill : Word
  nb : Nat
  done : Nat
  deriving DecidableEq, Repr

def Record.ofWords (l : List Word) : Record :=
  let w (i : Nat) : Nat := (l.getD i 0).toNat
  ⟨w 0, field (w 1) 23 0, bit (w 1) 31, field (w 2) 31 16, field (w 2) 15 0, w 3, bit (w 4) 31, field (w 4) 10 8,
    field (w 4) 2 0, l.getD 5 0, field (w 6) 15 0, field (w 7) 18 0⟩

/-- Element size in bytes. -/
def Record.esz (r : Record) : Nat := 2 ^ r.code

/-- Whether neighbour k is present (west, east, north, south), and its gang position (R175). -/
def Record.neighbour (r : Record) (k : Nat) : Option Nat :=
  if bit r.nb (4 * k + 3) then some (field r.nb (4 * k + 1) (4 * k)) else none

/-- Any use raises FORMAT (R175). -/
def State.recordBad (s : State) (block : Nat) (r : Record) : Bool :=
  !r.v || decide (4 < r.code) || r.H == 0 || r.W == 0 || r.stride % r.esz != 0 ||
    (!r.sp && (decide (0 < r.h) || (List.range 4).any (fun k => (r.neighbour k).isSome))) ||
    (List.range 4).any (fun k => match r.neighbour k with | some p => (s.gangMate block p).isNone | none => false)

/-- Byte offset of element (i, j) from the base (R176). -/
def Record.at_ (r : Record) (i j : Int) : Nat := ((i + r.h) * r.stride + (j + r.h) * r.esz).toNat

end Sys2Proof.Machine
end

