-- ==== Sys2Proof/Machine/CopyOps.lean ====
section
/-!
DEFINITION. What a copy engine's command moves (R176, R365, R367, R370, R371): its pieces in order of transfer, where each side of
a piece lies, and what an abandoned command leaves (R374).
-/

namespace Sys2Proof.Machine

/-- Bytes of a transfer that follow one another on both sides: their offset and number, where they come from (or none, for the
completion value), and where they go. -/
structure Piece where
  off : Nat
  len : Nat
  src : Option CopySide
  dst : CopySide
  deriving DecidableEq, Repr

/-- A side a number of bytes on. -/
def CopySide.plus (c : CopySide) (n : Nat) : CopySide :=
  match c with
  | .mem va => .mem (va + n)
  | .spad w o => .spad w (o + n)

/-- The number by which a side lies in its line or scratchpad. -/
def CopySide.at_ (c : CopySide) : Nat := match c with | .mem va => va | .spad w o => field w.toNat 18 0 + o

/-- Two ranges have an address in common. -/
def CopySide.meets (a : CopySide) (n : Nat) (b : CopySide) (m : Nat) : Bool :=
  let near := decide (a.at_ < b.at_ + m) && decide (b.at_ < a.at_ + n)
  match a, b with
  | .mem _, .mem _ => near
  | .spad v _, .spad w _ => v.toNat / 2 ^ 19 == w.toNat / 2 ^ 19 && near
  | _, _ => false

/-- The bytes [o, hi) of a span, cut where the source or the destination leaves a line, with fuel. -/
def Piece.cut (p : Piece) (bySrc : Bool) : Nat → Nat → Nat → List Piece
  | 0, _, _ => []
  | k + 1, o, hi =>
    if hi ≤ o then []
    else
      let side := if bySrc then p.src.getD p.dst else p.dst
      let n := min (hi - o) (128 - (side.at_ + o) % 128)
      ⟨p.off + o, n, p.src.map (·.plus o), p.dst.plus o⟩ :: p.cut bySrc k (o + n) hi

/-- The span has bytes with offsets in [lo, hi). -/
def Piece.within (p : Piece) (lo hi : Nat) : Bool := decide (p.off < hi) && decide (lo < p.off + p.len)

/-- What is written of a span at offsets in [lo, hi), line by line of the destination. -/
def Piece.parts (p : Piece) (lo hi : Nat) : List Piece :=
  if p.within lo hi then
    let a := max lo p.off - p.off
    let b := min hi (p.off + p.len) - p.off
    p.cut false ((b - a) / 128 + 2) a b
  else []

/-- The source lines of a span that hold bytes at offsets in [lo, hi): a line is read whole, so that no stamped record is divided (R340). -/
def Piece.chunks (p : Piece) (lo hi : Nat) : List Piece :=
  match p.src with
  | some x =>
    if p.within lo hi then
      let a := max lo p.off - p.off
      let b := min hi (p.off + p.len) - p.off
      let a0 := a - min a ((x.at_ + a) % 128)
      let b0 := min p.len (b + (128 - (x.at_ + b) % 128) % 128)
      p.cut true ((b0 - a0) / 128 + 2) a0 b0
    else []
  | none => []

/-- Element (i, j) of a record's tile (R176). -/
def Record.elemSide (r : Record) (i j : Int) : CopySide :=
  if r.sp then .spad (BitVec.ofNat 32 r.baselo) (r.at_ i j) else .mem (r.baselo + 2 ^ 32 * r.basehi + r.at_ i j)

/-- Pairs (i, j) in row-major order. -/
def grid (i0 i1 j0 j1 : Nat) : List (Nat × Nat) :=
  (List.range (i1 - i0)).flatMap (fun a => (List.range (j1 - j0)).map (fun b => (i0 + a, j0 + b)))

/-- The strip elements of one neighbour: the interior element and the place it takes there: west, east, north, south (R176). Where h
is above W or H, the strip's outer part has no interior element that R176 takes for it, and stays as it is (log 73). -/
def Record.strip (r : Record) (k : Nat) : List ((Nat × Nat) × (Int × Int)) :=
  let H := r.H
  let W := r.W
  let h := r.h
  match k with
  | 0 => (grid 0 H 0 (min h W)).map (fun p => (p, ((p.1 : Int), (p.2 : Int) + W)))
  | 1 => (grid 0 H (W - h) W).map (fun p => (p, ((p.1 : Int), (p.2 : Int) - W)))
  | 2 => (grid 0 (min h H) 0 W).map (fun p => (p, ((p.1 : Int) + H, (p.2 : Int))))
  | _ => (grid (H - h) H 0 W).map (fun p => (p, ((p.1 : Int) - H, (p.2 : Int))))

/-- The address word of a gang position's scratchpad (R164). -/
def gangWord (pos : Nat) : Word := BitVec.ofNat 32 (2 ^ 22 + pos * 2 ^ 20)

/-- The pieces of a push, neighbour by neighbour, each neighbour's completion word after its strip (R317, R365). -/
def Record.push (r : Record) : List Piece :=
  let parts := (List.range 4).flatMap (fun k =>
    match r.neighbour k with
    | some pos =>
      (r.strip k).map (fun x => (r.esz, some (r.elemSide x.1.1 x.1.2),
        CopySide.spad (gangWord pos) (r.baselo % 2 ^ 19 + r.at_ x.2.1 x.2.2))) ++
      [(4, (none : Option CopySide), CopySide.spad (gangWord pos) r.done)]
    | none => [])
  (parts.foldl (fun (acc : Nat × List Piece) x => (acc.1 + x.1, acc.2 ++ [⟨acc.1, x.1, x.2.1, x.2.2⟩])) (0, [])).2

/-- Bytes of a command's transfer. -/
def CopyKind.total : CopyKind → Nat
  | .cpy _ _ n => n
  | .tileIn _ _ rec_ => let r := Record.ofWords rec_; r.H * r.W * r.esz
  | .tileOut _ _ rec_ => let r := Record.ofWords rec_; r.H * r.W * r.esz
  | .halo rec_ => ((Record.ofWords rec_).push.map (·.len)).sum

/-- The rows of a tile as spans, dense memory on the first side; rows that follow one another on both sides are one span (R370). -/
def Record.spans (r : Record) (va stride : Nat) : List (Nat × Nat × CopySide × CopySide) :=
  let n := r.W * r.esz
  if stride = n ∧ r.stride = n then [(0, r.H * n, .mem va, r.elemSide 0 0)]
  else (List.range r.H).map (fun i => (i * n, n, CopySide.mem (va + i * stride), r.elemSide i 0))

/-- What a command moves (R370). -/
def CopyKind.spans : CopyKind → List Piece
  | .cpy src dst n => [⟨0, n, some src, dst⟩]
  | .tileIn va stride rec_ => ((Record.ofWords rec_).spans va stride).map (fun x => ⟨x.1, x.2.1, some x.2.2.1, x.2.2.2⟩)
  | .tileOut va stride rec_ => ((Record.ofWords rec_).spans va stride).map (fun x => ⟨x.1, x.2.1, some x.2.2.2, x.2.2.1⟩)
  | .halo rec_ => (Record.ofWords rec_).push

/-- The source lines that hold bytes at offsets in [lo, hi). -/
def CopyKind.chunks (k : CopyKind) (lo hi : Nat) : List Piece := k.spans.flatMap (fun p => p.chunks lo hi)

/-- What is written at offsets in [lo, hi). -/
def CopyKind.parts (k : CopyKind) (lo hi : Nat) : List Piece := k.spans.flatMap (fun p => p.parts lo hi)

/-- Where a unit begins: at a multiple of 4,096, or behind an aligned 8 bytes of destination that lie across it and are written whole
from a source of the same alignment, which the unit before writes (R370). -/
def CopyKind.edge (k : CopyKind) (e : Nat) : Nat :=
  match k.spans.find? (fun p => decide (p.off < e) && decide (e < p.off + p.len)) with
  | some p =>
    let rel := e - p.off
    let r := (p.dst.at_ + rel) % 8
    let same := match p.src with | some x => x.at_ % 8 == p.dst.at_ % 8 | none => false
    if r != 0 && same && decide (r ≤ rel) && decide (rel + (8 - r) ≤ p.len) then e + (8 - r) else e
  | none => e

/-- Units of a command (R370). -/
def CopyCmd.unitCount (c : CopyCmd) : Nat := (c.kind.total + 4095) / 4096

/-- The offset at which unit u begins. -/
def CopyCmd.from_ (c : CopyCmd) (u : Nat) : Nat := if c.unitCount ≤ u then c.kind.total else c.kind.edge (4096 * u)

/-- What unit u writes. -/
def CopyCmd.unit (c : CopyCmd) (u : Nat) : List Piece := c.kind.parts (c.from_ u) (c.from_ (u + 1))

/-- The source lines that must have been read before unit u is written: its own, and later ones that it would overwrite (R370). -/
def CopyCmd.needs (c : CopyCmd) (u : Nat) : List Piece :=
  let ps := c.unit u
  c.kind.chunks (c.from_ u) (c.from_ (u + 1)) ++
    (if ps.isEmpty then [] else c.kind.chunks (c.from_ (u + 1)) c.kind.total).filter (fun x =>
      match x.src with | some a => ps.any (fun p => a.meets x.len p.dst p.len) | none => false)

/-- Source bytes that have been read, for what is written at an offset. -/
def CopyCmd.got (c : CopyCmd) (p : Piece) : Option (List Byte) :=
  match c.kind.chunks p.off (p.off + p.len) with
  | [] => none
  | x :: l =>
    if (x :: l).all (fun y => (tget c.buf y.off).isSome) then
      some ((((x :: l).flatMap (fun y => (tget c.buf y.off).getD [])).drop (p.off - x.off)).take p.len)
    else none

/-- Where one side of a piece lies. -/
inductive Place where
  | pad (p : SpRef)
  | mem (pa rot : Nat)
  deriving DecidableEq, Repr

/-- The alignment that a command needs in scratchpad: an element and a completion word lie whole (R165, R176). -/
def CopyKind.align (k : CopyKind) (p : Piece) : Nat :=
  match k with
  | .cpy .. => 1
  | .tileIn _ _ rec_ | .tileOut _ _ rec_ => (Record.ofWords rec_).esz
  | .halo rec_ => if p.src.isNone then 4 else (Record.ofWords rec_).esz

/-- The translation of n bytes of one side of a command, which lie in one page, under its owner's authority, with E = 1 (R282, R284,
R371). Which page types serve, the caller decides. -/
def State.copyPlace (s : State) (c : CopyCmd) (w : Warp) (side : CopySide) (al n : Nat) (write : Bool) : Except Cause Place × State :=
  match side with
  | .spad word o =>
    (match s.spadRun { w with block := c.block, curDid := c.did } word.toNat o al n with
      | .ok p => .ok (.pad p)
      | .error x => .error x, s)
  | .mem va =>
    if 2 ^ 56 ≤ va then (.error .page, s)
    else
      match s.xlateWalk ⟨c.part, w.level, c.did, !write, write, false, true⟩ va with
      | (.good pa rot, s1) =>
        (if (regPage pa).isSome then .error .rot
          else if (rotType rot == 0 || (rotType rot == 1 && !write)) && s1.lineRefuses ⟨c.part, w.level, c.did, !write, write, false, true⟩ pa then .error .domain
          else .ok (.mem pa rot), s1)
      | (.bad x, s1) => (.error x, s1)
      | (.miss, s1) => (.error .page, s1)

/-- What an abandoned command leaves of one piece: each byte is the transfer's or the old one, as a free value decides (R374,
log 5). -/
def mixBytes (free : Nat) (new old : List Byte) : List Byte :=
  new.zipIdx.map (fun x => if (Config.freeByte (free + x.2)).getLsbD 0 then x.1 else old.getD x.2 0)

/-- Pieces of an abandoned command whose source had been read and whose destination is in reach; no completion word is among them
(R372, R374). They are writes as any of its others (R381). -/
def State.abandonPieces (s : State) (c : CopyCmd) (w : Warp) : List Piece → State
  | [] => s
  | p :: l =>
    let s1 := match c.got p, s.copyPlace c w p.dst (c.kind.align p) p.len true with
      | some new, (.ok (.pad r), s1) => s1.spWrite r (mixBytes (s.freeCtr + p.off) new (s1.spRead r p.len))
      | some new, (.ok (.mem pa rot), s1) =>
        if rotType rot == 0 then
          (s1.noteWrite c.core { w with curDid := c.did } pa rot .package).homeWrite pa
            (mixBytes (s.freeCtr + p.off) new (s1.homeRead pa p.len))
        else s1
      | _, (_, s1) => s1
    s1.abandonPieces c w l

/-- A command is abandoned (R374). -/
def State.abandonCopy (s : State) (c : CopyCmd) : State :=
  let s1 := match s.warpAt? c.core c.slot with
    | some w => s.abandonPieces c w (c.kind.parts (c.from_ c.units) c.kind.total)
    | none => s
  { s1 with copies := s1.copies.filter (fun x => x.id != c.id), freeCtr := s.freeCtr + c.kind.total }

end Sys2Proof.Machine
end

