-- ==== Sys2Proof/Machine/Flow.lean ====
section
/-!
DEFINITION. Branches, calls, meeting, exit, the traps an instruction raises on purpose, and the two prefixes (R36–R42,
R136–R147). The transfers through tables and gates stand in Machine/Gates.lean.
-/

namespace Sys2Proof.Machine

/-- The last even PC, which lies past the end of every code segment (R20, R222). -/
def pastEnd : Word := 0xFFFFFFFE

/-- The target of a branch: its own PC plus a scaled displacement (R42). The PC does not wrap: a target that 32 bits cannot hold
lies past the end of the segment (R20, log 50). -/
def branchTarget (s : State) (t : Thread) (disp : Int) : Word :=
  let x : Int := (s.ownPc t).toNat + 2 * disp
  if 0 ≤ x ∧ x < 2 ^ 32 then BitVec.ofInt 32 x else pastEnd

/-- The PC after a 32-bit instruction (R42). -/
def State.nextPc (s : State) (t : Thread) : Word := s.ownPc t + BitVec.ofNat 32 s.cur.len

/-- BRA (R136). -/
def execBra (i : BitVec 21) (s : State) : Out :=
  s.issue { opds := [] } (fun s => .next (s.finishAt (fun _ t => branchTarget s t i.toInt)))

/-- BZ: taken when vp is zero (R136). -/
def execBz (i : BitVec 17) (p : Reg) (s : State) : Out :=
  s.issue { opds := [.one .vd p] } (fun s =>
    .next (s.finishAt (fun _ t => if t.get p.toNat = 0 then branchTarget s t i.toInt else s.nextPc t)))

/-- BNZ: taken when vp is not zero (R136). -/
def execBnz (i : BitVec 17) (p : Reg) (s : State) : Out :=
  s.issue { opds := [.one .vd p] } (fun s =>
    .next (s.finishAt (fun _ t => if t.get p.toNat ≠ 0 then branchTarget s t i.toInt else s.nextPc t)))

/-- CALL: vd := PC + 4 and a jump (R137). -/
def execCall (i : BitVec 18) (d : Reg) (s : State) : Out :=
  s.issue (Use.flow [.one .vd d]) (fun s =>
    let s1 := s.mapActive (fun _ t => t.set d.toNat (s.nextPc t))
    .next (s1.finishAt (fun _ t => branchTarget s t i.toInt)))

/-- RET: PC := va; an odd pointer raises ALIGN, with 0 in the address fields, which R20 leaves blank (R20, R137, log 74). -/
def execRet (a : Reg) (s : State) : Out :=
  s.issue (Use.flow [.one .va a]) (fun s =>
    match firstBad s.active (fun t => bit (t.nat a.toNat) 0) with
    | some l => .next (s.fault .align l 0 0)
    | none => .next (s.finishAt (fun _ t => t.get a.toNat)))

/-- LPAD changes no state; it closes windows (R46, R141). -/
def execLpad (_l : BitVec 25) (s : State) : Out := s.issue (Use.flow []) (fun s => .next s.finish)

/-- MEET: the old MEETV to vd, the target to MEETV; parking and release follow (R52–R54, R142). Of a target outside 32 bits MEETV takes
0xFFFF_FFFE, as a branch does (log 50). -/
def execMeet (i : BitVec 18) (d : Reg) (s : State) : Out :=
  s.issue (Use.flow [.one .vd d]) (fun s =>
    .next (s.mapActive (fun _ t =>
      { t.set d.toNat t.meetv with meetv := branchTarget s t i.toInt })).finish)

/-- NOP changes no state; like the whole FLOW group it closes windows (R34, R144). -/
def execNop (s : State) : Out := s.issue (Use.flow []) (fun s => .next s.finish)

/-- YIELD: the bundle is passed over for up to 16 issue cycles (R144). -/
def execYield (s : State) : Out :=
  s.issue (Use.flow []) (fun s =>
    let s1 := s.finish
    .next (s1.modWarp (fun w => { w with bundles := w.bundles.map (fun b =>
      if b.mask &&& s.cur.mask == 0 then b else { b with yield := s1.cycle + 16 }) })))

/-- BRK: raised for every active lane at once, reported for the lowest; its return PC is its own (R145). Its address fields, which R145
gives for TRAP only, are 0 (log 74). -/
def execBrk (s : State) : Out := s.issue (Use.flow []) (fun s => .next (s.fault .brk s.firstLane 0 0))

/-- TRAP: complete when it is taken, so that it is one issue which ends as any other; the reported lane's va stands in the low address
word (R145, R232). -/
def execTrap (a : Reg) (s : State) : Out :=
  s.issue (Use.flow [.one .va a]) (fun s =>
    match s.warp?, s.active with
    | some w, (l, t) :: _ =>
      .next (s.finish.report s.cur.core s.cur.slot s.cur.mask (mkReport w .trap l t.pc (t.get a.toNat) 0))
    | _, _ => .fault .noWarp)

/-- The threads of a block, over all its warps (R194). -/
def State.blockThreads (s : State) (b : Nat) : List Thread :=
  match tget s.blocks b with
  | some k => k.slots.flatMap (fun w =>
      match s.warpAt? k.core w with
      | some x => if x.block == b then x.threads.map (·.2) else []
      | none => [])
  | none => []

/-- A thread's own barrier is complete: every thread that has not exited has executed as many (R194). -/
def syncDone (l : List Thread) (k : Nat) : Bool := l.all (fun t => t.exited || decide (k ≤ t.syncs))

/-- Completes the SYNCBs of a block that every thread has reached: waiting lanes go past them (R194), an acquire at block scope
(R234). -/
def State.syncRelease (s : State) (b : Nat) : State :=
  match tget s.blocks b with
  | some k =>
    let l := s.blockThreads b
    (k.slots.foldl (fun s w => s.modWarpAt k.core w (fun x =>
      let hit (t : Thread) : Bool := !t.exited && t.wait == .barrier && syncDone l t.syncs && x.block == b
      let m := maskOf ((x.threads.filter (fun p => hit p.2)).map (·.1))
      if m == 0 then x
      else
        { x with
          threads := x.threads.map (fun (p : Nat × Thread) =>
            (p.1, if hit p.2 then { p.2 with wait := .run, arrived := false, pc := p.2.pc + 4 } else p.2))
          bundles := x.bundles.map (fun (y : Bundle) =>
            if y.mask &&& m == 0 then y else { y with since := s.cycle + 1 }) : Warp }.splitAll (s.cycle + 1) |>.release (s.cycle + 1))) s).acquire
      k.core k.slot .block
  | none => s

/-- EXIT: inside a gate call GATE (R254); otherwise the thread has ended, for good (R61, R143, R256). -/
def execExit (s : State) : Out :=
  s.issue (Use.flow []) (fun s =>
    match s.warp? with
    | some w =>
      if !w.gates.isEmpty then .next (s.fault .gate s.firstLane 0 0)
      else
        .next (((s.mapActive (fun _ t => { t with exited := true })).finish.markWarp w).syncRelease w.block)
    | none => .fault .noWarp)

/-- REP: its fields are latched for the instruction that follows; the repeat to come is the one the thread's remaining count
gives (R36–R38). -/
def execRepPfx (st : BitVec 2) (x y z : Bool) (c : BitVec 6) (s : State) : Out :=
  match s.active with
  | (l, t) :: _ =>
    if s.cur.mod.isSome then .next (s.faultAt .illegal l (s.cur.off - 4))
    else if s.cur.rep.isSome then .next (s.faultAt .illegal l s.cur.off)
    else
      let n := c.toNat + 1
      .next { s with cur := { s.cur with
        off := s.cur.off + s.cur.len
        len := 0
        rep := some ⟨2 ^ st.toNat, x, y, z, if t.rem = 0 then 0 else n - t.rem, n⟩ } }
  | [] => .fault .noWarp

/-- MOD: its valid fields are latched for the instruction that follows (R36, R39, R40). -/
def execModPfx (f z u : Bool) (r : BitVec 2) (o : Bool) (p : BitVec 2) (q : Bool) (e : BitVec 3) (s : State) : Out :=
  match s.active with
  | (l, _) :: _ =>
    if s.cur.mod.isSome then .next (s.faultAt .illegal l s.cur.off)
    else
      let rm := match r.toNat with | 0 => Rm.rne | 1 => Rm.rz | 2 => Rm.ru | _ => Rm.rd
      let od := match p.toNat with | 0 => Order.relaxed | 1 => Order.acquire | 2 => Order.release | _ => Order.acqRel
      let sc := match e.toNat with
        | 0 => Scope.block | 1 => Scope.cluster | 2 => Scope.package | 3 => Scope.pod | _ => Scope.system
      .next { s with cur := { s.cur with
        off := s.cur.off + s.cur.len
        len := 0
        mod := some ⟨if f then some z else none, if u then some rm else none, if o then some od else none,
          if q then some sc else none⟩ } }
  | [] => .fault .noWarp

/-- An instruction word that names nothing: ILLEGAL without effect, at the first word of its unit, or at the prefix that breaks a
rule for prefixes (R36, R43, log 51). -/
def execIllegalEncoding (s : State) : Out :=
  match s.active with
  | (l, _) :: _ => .next (s.faultAt .illegal l s.cur.faultAddr)
  | [] => .fault .noWarp

/-- A fetch outside the code segment, or of a page that may not be fetched: PAGE at the PC of the instruction being fetched,
with the address of the missing halfword (R20). -/
def execFetchPageFault (s : State) : Out :=
  match s.active with
  | (l, _) :: _ =>
    let a := BitVec.ofNat 64 s.cur.faultAddr
    .next (s.fault .page l (lo32 a) (hi32 a))
  | [] => .fault .noWarp

end Sys2Proof.Machine
end

