-- ==== Sys2Proof/Machine/Tiles.lean ====
section
/-!
DEFINITION. The order of commands on accumulator tiles (R200, R201, R214–R217): what may be applied next, and the application
of the commands that need no pass: MZERO, MREL and the reads of MRD.
-/

namespace Sys2Proof.Machine

/-- The tile a command works on. -/
def MatKind.tile : MatKind → Option Nat
  | .mloop _ t .. => some t
  | .mzero t => some t
  | .mrel t => some t
  | .mldb .. => none

/-- A block holds a tile and has not released it (R217). -/
def Cluster.holds (k : Cluster) (block tile : Nat) : Bool :=
  (k.tiles.getD tile Tile.free).holder == some block && !k.table.any (fun m => m.block == block && m.kind == .mrel tile)

/-- A command accepted before an operation, or after it, is left on a tile. -/
def Cluster.earlier (k : Cluster) (tile id : Nat) : Bool := k.table.any (fun m => decide (m.id < id) && m.kind.tile == some tile)
def Cluster.later (k : Cluster) (tile id : Nat) : Bool := k.table.any (fun m => decide (id < m.id) && m.kind.tile == some tile)

/-- An MRD accepted before an operation has not read its rows yet (R201). -/
def State.readsLeft (s : State) (cl tile id : Nat) : Bool :=
  s.pend.any (fun p => decide (p.id < id) && match p.kind with | .mrd c t .. => c == cl && t == tile | _ => false)

/-- Nothing accepted earlier on the tile is left (R201). -/
def State.tileClear (s : State) (cl : Nat) (k : Cluster) (tile id : Nat) : Bool :=
  !k.earlier tile id && !s.readsLeft cl tile id

/-- The two registers of a row word in a lane (R215). -/
def Tile.row (t : Tile) (wide : Bool) (lane : Nat) (w : Word) : Word × Word :=
  let r := field w.toNat 5 0
  let at_ (c : Nat) : DWord := t.elems.getD (64 * r + c) 0
  if wide then
    let x := at_ (lane + 32 * field w.toNat 6 6)
    (lo32 x, hi32 x)
  else (lo32 (at_ (2 * lane)), lo32 (at_ (2 * lane + 1)))

/-- The rows an MRD reads are final with respect to what was accepted before it (R214, R215). -/
def Cluster.rowsFinal (k : Cluster) (tile id : Nat) (rows : List Word) : Bool :=
  !k.earlier tile id ||
    (!k.later tile id && rows.all (fun w => decide (field w.toNat 5 0 < (k.tiles.getD tile Tile.free).mark)))

/-- The application of one MZERO or MREL (R217). -/
def Cluster.applyCmd (k : Cluster) (m : MatCmd) : Cluster :=
  let k1 := { k with table := k.table.filter (fun x => x.id != m.id) }
  match m.kind with
  | .mzero t => { k1 with tiles := k1.tiles.modify t (fun x => { x with elems := [], mark := if k1.later t m.id then x.mark else 64 }) }
  | .mrel t => { k1 with tiles := k1.tiles.set t Tile.free }
  | _ => k1

/-- One MZERO or MREL whose turn has come is applied, or one MRD reads its rows. -/
def State.settleOne (s : State) (cl : Nat) (k : Cluster) : Option State :=
  match k.table.find? (fun m =>
      match m.kind with
      | .mzero t => s.tileClear cl k t m.id
      | .mrel t => s.tileClear cl k t m.id
      | _ => false) with
  | some m => some (s.modCluster cl (fun k => k.applyCmd m))
  | none =>
    match s.pend.find? (fun p =>
        match p.kind with
        | .mrd c t _ lanes _ => c == cl && k.rowsFinal t p.id (lanes.map (·.2))
        | _ => false) with
    | some p =>
      match p.kind with
      | .mrd _ t wide lanes d =>
        let tile := k.tiles.getD t Tile.free
        let ws : List LaneWrite := lanes.map (fun x =>
          let v := tile.row wide x.1 x.2
          ⟨x.1, [(d, v.1), (d + 1, v.2)], 0⟩)
        some { s with pend := s.pend.map (fun (q : Pending) => if q.id = p.id then { q with kind := .result .mrd ws } else q) }
      | _ => none
    | none => none

/-- Applies all that can be applied, with fuel. -/
def State.settleFrom (s : State) (cl : Nat) : Nat → State
  | 0 => s
  | n + 1 =>
    match tget s.clusters cl with
    | some k => match s.settleOne cl k with | some s1 => s1.settleFrom cl n | none => s
    | none => s

/-- Tiles of blocks that have ended, once no command of theirs is left, are free (R200). -/
def State.freeTiles (s : State) (cl : Nat) : State :=
  s.modCluster cl (fun k =>
    { k with tiles := k.tiles.zipIdx.map (fun (x : Tile × Nat) =>
        match x.1.holder with
        | some b =>
          if (tget s.blocks b).isNone && !k.table.any (fun m => m.block == b && m.kind.tile == some x.2) then Tile.free else x.1
        | none => x.1) })

/-- A cluster after a change to its table or tiles: what can be applied is, and lanes that wait for an entry or a tile look
again (R200, R201). -/
def State.settleTiles (s : State) (cl : Nat) : State :=
  let fuel := (match tget s.clusters cl with | some k => k.table.length | none => 0) + s.pend.length
  ((s.settleFrom cl fuel).freeTiles cl).wake (fun x => x == .count)

end Sys2Proof.Machine
end

