-- ==== Sys2Proof/Machine/LaunchOps.lean ====
section
/-!
DEFINITION. What the device does with launches (R222–R230, R376–R384): the mixer and the store digests, the launch record,
admission of a block into a segment (R160–R163), placement, the end of a block and of a launch, and the log of a
deterministic launch.
-/

namespace Sys2Proof.Machine

/-! The mixer and store hashes. -/

/-- RNDM of a counter and a key (R384). -/
def rndm (ctr key : Nat) : Nat :=
  let m := 2 ^ 64
  let x := (ctr ^^^ key) * 0xB5AD4ECEDA1CE2A9 % m
  let x := (x ^^^ (x / 2 ^ 31)) * 0x8E4C3A9D1F2B6C75 % m
  (x ^^^ (x / 2 ^ 29)) + key % m |>.mod m

/-- The hash of one store of 1, 2, 4 or 8 bytes: address, code of its size, scratchpad or memory, value (R377). -/
def storeHash (a c : Nat) (spad : Bool) (v : Nat) : BitVec 128 :=
  let k := a % 2 ^ 56 + c * 2 ^ 56 + (if spad then 2 ^ 58 else 0)
  let lo := rndm v k
  let hi := rndm lo (2 ^ 64 - 1 - k)
  BitVec.ofNat 128 (hi * 2 ^ 64 + lo)

/-- What a store adds to its block's digest; 16 bytes count as two stores of 8 (R377). -/
def foldHash (a : Nat) (spad : Bool) (data : List Byte) : BitVec 128 :=
  match data.length with
  | 1 => storeHash a 0 spad (wordOf data)
  | 2 => storeHash a 1 spad (wordOf data)
  | 4 => storeHash a 2 spad (wordOf data)
  | 8 => storeHash a 3 spad (wordOf data)
  | _ => storeHash a 3 spad (wordOf (data.take 8)) + storeHash (a + 8) 3 spad (wordOf (data.drop 8))

/-- Folds an accepted store into the digest of its block (R377, R378). -/
def State.foldStore (s : State) (block a : Nat) (spad : Bool) (data : List Byte) : State :=
  s.modBlock block (fun b => { b with digest := b.digest + foldHash a spad data })

/-- A store that is given up before it is performed leaves the digest of its block again (R298, R377, log 68). -/
def State.unfoldStore (s : State) (block a : Nat) (spad : Bool) (data : List Byte) : State :=
  s.modBlock block (fun b => { b with digest := b.digest - foldHash a spad data })

/-! The launch record. -/

/-- Word i of a launch's record. -/
def Launch.w (l : Launch) (i : Nat) : Nat := (l.words.getD i 0).toNat

/-- A pair of words of the record. -/
def Launch.w2 (l : Launch) (i : Nat) : Nat := l.w i + 2 ^ 32 * l.w (i + 1)

def Launch.dim (l : Launch) : Nat × Nat × Nat := (field (l.w 4) 9 0, field (l.w 4) 19 10, field (l.w 4) 29 20)

/-- Threads of a block. -/
def Launch.threads (l : Launch) : Nat := l.dim.1 * l.dim.2.1 * l.dim.2.2

/-- Blocks of the launch. -/
def Launch.total (l : Launch) : Nat := l.w 5 * l.w 6 * l.w 7

def Launch.regs (l : Launch) : Nat := field (l.w 8) 6 0
def Launch.xregs (l : Launch) : Bool := bit (l.w 8) 7
def Launch.warps (l : Launch) : Nat := field (l.w 8) 12 8
def Launch.gang (l : Launch) : Nat := field (l.w 8) 17 16 + 1
def Launch.records (l : Launch) : Nat := field (l.w 8) 25 21
def Launch.pad (l : Launch) : Nat := field (l.w 9) 18 0
def Launch.prio (l : Launch) : Nat := field (l.w 10) 18 16
def Launch.queue (l : Launch) : Nat := field (l.w 10) 23 20
def Launch.coop (l : Launch) : Bool := bit (l.w 10) 25
def Launch.seed (l : Launch) : Nat := l.w2 22
def Launch.code (l : Launch) : CodeSeg := ⟨l.w 0 + 2 ^ 32 * field (l.w 1) 23 0, l.w 2⟩

/-- The recorded digest (R222, R380). -/
def Launch.recorded (l : Launch) : BitVec 128 := BitVec.ofNat 128 (l.w2 24 + 2 ^ 64 * l.w2 26)

/-- Blocks placed together: the whole of a co-operative launch, else a gang (R229, R230, R382). -/
def Launch.unit (l : Launch) : Nat := if l.coop then l.total else l.gang

/-- The fields keep R222, and a gang size divides the block count (R229). -/
def Launch.formatOk (l : Launch) : Bool :=
  let d := l.dim
  let trap := l.w 11
  l.w 1 < 2 ^ 24 && l.w 2 % 2 == 0 && decide (2 ≤ l.w 2) && l.w 3 % 2 == 0 && decide (l.w 3 < l.w 2) &&
    [d.1, d.2.1, d.2.2].all (fun x => decide (1 ≤ x) && decide (x ≤ 512)) && decide (l.threads ≤ 512) &&
    decide (1 ≤ l.w 5) && decide (1 ≤ l.w 6) && decide (1 ≤ l.w 7) && decide (8 ≤ l.regs) && decide (l.regs ≤ 96) &&
    l.warps == (l.threads + 31) / 32 && decide (l.records ≤ 16) &&
    (trap == 0xFFFFFFFF || (trap % 2 == 0 && decide (trap < l.w 2))) && l.w2 14 % 8 == 0 && l.w2 18 % 8 == 0 &&
    l.total % l.gang == 0

/-! Acts of the device on memory named by virtual addresses. -/

/-- A supervisor's request of a partition, as the device makes it for a launch (R223, R227). -/
def deviceReq (part : Nat) (rd wr : Bool) : XReq := ⟨part, .supervisor, 0, rd, wr, false, false⟩

/-- A device write at a virtual address; where the page is gone nothing is written. One to a mailbox page is a store there (R309). -/
def State.deviceWrite (s : State) (part va : Nat) (data : List Byte) : State :=
  if 2 ^ 56 ≤ va then s
  else
    match s.xlateWalk (deviceReq part false true) va with
    | (.good pa r, s1) => if rotType r == 0 && (regPage pa).isNone then (s1.homeWrite pa data).mailStore r else s
    | _ => s

/-- A device read at a virtual address. -/
def State.deviceRead (s : State) (part va n : Nat) : Option (List Byte) :=
  if 2 ^ 56 ≤ va then none
  else
    match s.xlateWalk (deviceReq part true false) va with
    | (.good pa r, _) => if rotType r == 0 && (regPage pa).isNone then some (s.homeRead pa n) else none
    | _ => none

/-- Signals a barrier object as BSIG does: the sum saturates (R170, R227). -/
def State.deviceSignal (s : State) (part va add : Nat) : State :=
  match s.deviceRead part va 8 with
  | some old => s.deviceWrite part va (bytesOf 8 (min (wordOf old + add) (2 ^ 64 - 1)))
  | none => s

/-- Writes the status byte of a launch's record, a release at package scope (R223). -/
def State.setStatus (s : State) (id : Nat) (code : Byte) : State :=
  match tget s.launches id with
  | some l =>
    { s.deviceWrite l.part (l.addr + 112) [code] with launches := tmod s.launches id (fun l => { l with status := code }) }
  | none => s

/-! Admission (R160–R163). -/

/-- Blocks resident in a segment. -/
def State.resident (s : State) (c d : Nat) : List (Nat × Block) := s.blocks.filter (fun b => b.2.core == c && b.2.slot == d)

/-- The first place of a length in [lo, hi) that no used interval touches. -/
def firstFit (used : List (Nat × Nat)) (len lo hi : Nat) : Option Nat :=
  let ok (a : Nat) : Bool := decide (lo ≤ a) && decide (a + len ≤ hi) &&
    used.all (fun u => decide (a + len ≤ u.1) || decide (u.1 + u.2 ≤ a))
  let starts := (lo :: used.map (fun u => u.1 + u.2)).filter ok
  match starts with
  | [] => none
  | a :: l => some (l.foldl min a)

/-- Where a block goes in a core: domain slot, warp slots, places of registers, extended sets and scratchpad in KiB from the
segment's base, record slots, and the boundary triple in force afterwards. -/
structure Admission where
  dslot : Nat
  slots : List Nat
  regAt : Nat
  extAt : Nat
  padAt : Nat
  recSlots : List Nat
  bounds : Nat × Nat × Nat
  deriving DecidableEq, Repr

/-- Warp slots free for a new block: in the slot's mask, holding no warp, in no pair that an extended set takes whole. -/
def Core.freeSlots (k : Core) (d : Nat) : List Nat :=
  (List.range 16).filter (fun w => bit (dpWarps (k.dp d)) w && (tget k.warps w).isNone && (tget k.xsets (w / 2)).isNone)

/-- The warp slots a block of n warps takes (R162). -/
def Core.pickSlots (k : Core) (d n : Nat) (x : Bool) : Option (List Nat) :=
  let free := k.freeSlots d
  if x then
    let pairs := (List.range 8).filter (fun p => free.contains (2 * p) && free.contains (2 * p + 1))
    if (n + 1) / 2 ≤ pairs.length then some ((List.range n).map (fun i => 2 * pairs.getD (i / 2) 0 + i % 2)) else none
  else if n ≤ free.length then some (free.take n) else none

/-- KiB of registers of one warp (R64). -/
def warpKib (n : Nat) : Nat := (n + 7) / 8

/-- The largest k of R162 for an empty segment, with k as fuel from above. -/
def largestFit (slots recs gran reg ext pad warps rec_ : Nat) : Nat → Nat
  | 0 => 0
  | k + 1 =>
    let n := k + 1
    if n * warps ≤ slots ∧ n * rec_ ≤ recs ∧ (n * reg + 3) / 4 + n * ext / 4 + n * pad / 4 + 4 ≤ gran then n
    else largestFit slots recs gran reg ext pad warps rec_ k

/-- Register intervals of the warps of a segment, in KiB. -/
def State.regUsed (s : State) (c : Nat) (b : List (Nat × Block)) : List (Nat × Nat) :=
  b.flatMap (fun p => (List.range p.2.slots.length).filterMap (fun i =>
    match s.warpAt? c (p.2.slots.getD i 0) with
    | some w => if w.block == p.1 then some (p.2.regAt + i * warpKib w.nbase, warpKib w.nbase) else none
    | none => none))

/-- Admission of a block into the segment of a domain slot (R162). Its record slots are the lowest free ones (log 54). -/
def State.roomFor (s : State) (l : Launch) (c d : Nat) : Option Admission :=
  let k := s.core c
  let gran := dpSize (k.dp d)
  let here := s.resident c d
  let all := s.blocks.filter (fun b => b.2.core == c)
  let warps := l.warps
  let reg := warps * warpKib l.regs
  let ext := if l.xregs then 4 * ((warps + 1) / 2) else 0
  let pad := 4 * ((l.pad + 4095) / 4096)
  let recFree := (List.range 16).filter (fun r => !all.any (fun b => b.2.recSlots.contains r))
  let recs := recFree.take l.records
  match k.pickSlots d warps l.xregs, decide (l.records ≤ recFree.length) with
  | some slots, true =>
    if here.isEmpty then
      let n := largestFit ((List.range 16).countP (fun w => bit (dpWarps (k.dp d)) w)) recFree.length gran reg ext pad warps l.records 16
      if n = 0 then none
      else
        let p0 := (n * reg + 3) / 4
        let p1 := p0 + n * ext / 4
        some ⟨d, slots, 0, 4 * p0, 4 * p1, recs, (p0, p1, p1 + n * pad / 4)⟩
    else
      let (p0, p1, p2) := k.pbnd.getD d (0, 0, 0)
      let kept (f : Block → Nat × Nat) : List (Nat × Nat) := (here.map (fun b => f b.2)).filter (fun u => u.2 != 0)
      let xk (b : Block) : Nat := 4 * (k.xsets.filter (fun x => b.slots.any (fun w => w / 2 == x.1))).length
      match firstFit (s.regUsed c here) reg 0 (4 * p0), firstFit (kept (fun b => (b.extAt, xk b))) ext (4 * p0) (4 * p1),
          firstFit (kept (fun b => (b.padAt, 4 * ((b.pad + 4095) / 4096)))) pad (4 * p1) (4 * p2) with
      | some r, some e, some q => some ⟨d, slots, r, e, q, recs, (p0, p1, p2)⟩
      | _, _, _ => none
  | _, _ => none

/-- A thread as its block starts (R15, R51, R240). -/
def newThread (l : Launch) (fpm : Word) (helper : Bool) : Thread where
  helper := helper
  exited := false
  pc := BitVec.ofNat 32 (l.w 3)
  meetv := 0xFFFFFFFF
  rem := 0
  regs := [BitVec.ofNat 32 (l.w 12), BitVec.ofNat 32 (l.w 13)] ++ List.replicate 126 0
  fpmode := fpm &&& 0x3FF
  fpflags := 0
  excmask := 0
  tmctl := 0
  tmshape := 0x3F800000
  lstamp := 0
  acq := false
  windows := []
  repIds := []
  repDests := []
  wait := .run
  syncs := 0
  arrived := false
  pflags := 0

/-- Warp i of a block (R51): the live lanes, then helper lanes up to a multiple of four. -/
def newWarp (l : Launch) (fpm : Word) (b d i prio seq cycle tick : Nat) : Warp :=
  let live := min 32 (l.threads - 32 * i)
  let launched := 4 * ((live + 3) / 4)
  { threads := (List.range launched).map (fun n => (n, newThread l fpm (decide (live ≤ n))))
    bundles := [⟨maskOf (List.range launched), cycle, 0⟩]
    block := b
    index := i
    part := l.part
    level := .user
    homeDid := l.did
    curDid := l.did
    homeSlot := d
    curSlot := d
    code := l.code
    partn := 5
    nbase := l.regs
    engine := [[], [], [], [], [], [], [], []]
    gates := []
    handler := none
    pendingTraps := []
    deferred := []
    susp := none
    xown := false
    xreq := none
    trapVec := if l.w 11 = 0xFFFFFFFF then none else some (BitVec.ofNat 32 (l.w 11))
    prio := prio
    admitted := seq
    lastTick := tick
    retry := []
    gcall := none }

/-- The valid table slots that a domain slot's mask holds (R242, R268). -/
def Core.tablesOf (k : Core) (d : Nat) : Tbl TmSlot := k.tms.filter (fun p => bit (dpTm (k.dp d)) p.1)

/-- The state a domain's image holds of a block admitted since the last checkpoint: that at admission (R163, R257), with the
table slots as the first block on the core finds them (R268). -/
def Domain.enterBlock (d : Domain) (core id : Nat) (b : Block) (warps : Tbl Warp) (xs : Tbl XSet) (tms : Tbl TmSlot) : Domain :=
  let im := d.image.getD ⟨[], [], [], [], [], []⟩
  let ci := (tget im.cores core).getD ⟨[], [], [], tms⟩
  { d with image := some { im with
      cores := tput im.cores core { ci with
        warps := warps.foldl (fun t p => tput t p.1 p.2) ci.warps
        xsets := xs.foldl (fun t p => tput t p.1 p.2) ci.xsets
        tms := if ci.warps.isEmpty then tms else ci.tms }
      blocks := tput im.blocks id b } }

/-- Places block b of a launch on a core (R162, R163, R228): it issues with zeroed scratchpad and extended sets, after the
granules it takes have been written back and dropped from L1. -/
def State.placeBlock (s : State) (id : Nat) (l : Launch) (b c gpos : Nat) (a : Admission) : State :=
  let (bid, s0) := s.fresh
  let s1 := (s0.putCore c (fun k => k)).flushL1 c a.dslot
  let fpm := match tget s.parts l.part with | some q => q.fpmdef | none => 0
  let blk : Block :=
    { launch := id, index := b, bx := b % l.w 5, by_ := b / l.w 5 % l.w 6, bz := b / (l.w 5 * l.w 6), gangPos := gpos,
      gangSize := l.gang, core := c, slot := a.dslot, slots := a.slots, pad := l.pad, sp := [], full := [],
      recSlots := a.recSlots, regAt := a.regAt, extAt := a.extAt, padAt := a.padAt, digest := 0,
      ended := false }
  let warps : Tbl Warp := (List.range l.warps).foldl (fun t i =>
    tput t (a.slots.getD i 0) (newWarp l fpm bid a.dslot i l.prio bid (s.cycle + 1) s.deckle.tick)) []
  let xs : Tbl XSet := if l.xregs then a.slots.foldl (fun t w => tput t (w / 2) ⟨[]⟩) [] else []
  let s2 := s1.modCore c (fun k => { k with
    warps := warps.foldl (fun t p => tput t p.1 p.2) k.warps
    xsets := xs.foldl (fun t p => tput t p.1 p.2) k.xsets
    recs := k.recs.filter (fun r => !a.recSlots.contains r.1)
    recOld := k.recOld.filter (fun r => !a.recSlots.contains r.1)
    pbnd := k.pbnd.set a.dslot a.bounds })
  let s3 := { s2 with
    blocks := tput s2.blocks bid blk
    launches := tmod s2.launches id (fun x => { x with placed := tput x.placed b c }) }
  s3.modDomain l.part l.did (fun d => d.enterBlock c bid blk warps xs ((s3.core c).tablesOf a.dslot))

/-! Placement (R226–R230). -/

/-- The compute cores of a partition, in increasing index. -/
def partCores (p : Nat) (q : Part) : List Nat := (List.range (48 * q.size)).map (fun i => 48 * p + i)

/-- Eligible cores of a launch with their domain slots (R228). -/
def State.eligible (s : State) (l : Launch) : List (Nat × Nat) :=
  match tget s.parts l.part with
  | some q => (partCores l.part q).filterMap (fun c => ((s.core c).slotOf l.did).map (fun d => (c, d)))
  | none => []

/-- Warp slots in use in a segment. -/
def State.occupied (s : State) (c d : Nat) : Nat :=
  (List.range 16).countP (fun w => bit (dpWarps ((s.core c).dp d)) w && (s.warpAt? c w).isSome)

/-- A segment can take a block now: its domain is neither stopped nor pre-empted (R257, R260). -/
def State.canAdmit (s : State) (l : Launch) (x : Nat × Nat) : Option Admission :=
  let d := s.domain l.part l.did
  if d.due || d.leaving || d.out then none else s.roomFor l x.1 x.2

/-- The first element with the least key. -/
def leastBy {α : Type} (key : α → Nat) : List α → Option α
  | [] => none
  | a :: l =>
    match leastBy key l with
    | some b => if key b < key a then some b else some a
    | none => some a

/-- The cores for the gang that starts at block b, or for the single block b, in gang order (R228, R229). Of clusters with equally few
occupied warp slots the lowest-indexed is taken (log 76). -/
def State.choose (s : State) (l : Launch) (b : Nat) (bar : List Nat) : Option (List (Nat × Admission)) :=
  let el := s.eligible l
  let open_ := el.filter (fun x => !bar.contains x.1)
  let g := l.gang
  if g = 1 then
    if l.det then
      match el[rndm b l.seed % el.length]? with
      | some x => if bar.contains x.1 then none else (s.canAdmit l x).map (fun a => [(x.1, a)])
      | none => none
    else
      let fits := open_.filter (fun x => (s.canAdmit l x).isSome)
      match leastBy (fun x => s.occupied x.1 x.2) fits with
      | some x => (s.canAdmit l x).map (fun a => [(x.1, a)])
      | none => none
  else
    let clusters := ((el.map (fun x => clusterOf x.1)).dedup).filter (fun k =>
      decide (g ≤ (el.filter (fun x => clusterOf x.1 == k)).length))
    if l.det then
      match clusters[rndm (b / g) l.seed % clusters.length]? with
      | some k =>
        let cs := (el.filter (fun x => clusterOf x.1 == k)).take g
        if cs.any (fun x => bar.contains x.1) then none
        else cs.mapM (fun x => (s.canAdmit l x).map (fun a => (x.1, a)))
      | none => none
    else
      let room (k : Nat) : List (Nat × Nat) :=
        open_.filter (fun x => clusterOf x.1 == k && (s.canAdmit l x).isSome)
      let load (k : Nat) : Nat := ((el.filter (fun x => clusterOf x.1 == k)).map (fun x => s.occupied x.1 x.2)).sum
      match leastBy load (clusters.filter (fun k => decide (g ≤ (room k).length))) with
      | some k => ((room k).take g).mapM (fun x => (s.canAdmit l x).map (fun a => (x.1, a)))
      | none => none

/-- Places the blocks from b on the chosen cores in gang order. -/
def State.placeAll (s : State) (id : Nat) (l : Launch) : Nat → Nat → List (Nat × Admission) → State
  | _, _, [] => s
  | b, pos, (c, a) :: rest => (s.placeBlock id l b c pos a).placeAll id l (b + 1) (pos + 1) rest

/-- Places gangs or blocks one after another from b on, as many as the count says; none if one does not fit (R230). -/
def State.placeMany (s : State) (id : Nat) (l : Launch) (bar : List Nat) : Nat → Nat → Option State
  | 0, _ => some s
  | n + 1, b =>
    match s.choose l b bar with
    | some cs => (s.placeAll id l b 0 cs).placeMany id l bar n (b + l.gang)
    | none => none

/-- No package holds more blocks than it has warp slots. -/
def mostBlocks : Nat := 576 * 16

/-- Places the next unit of a launch, if it fits now (R226, R230). -/
def State.placeNext (s : State) (id : Nat) (l : Launch) (bar : List Nat) : Option State :=
  let n := if l.coop then l.total / l.gang else 1
  if mostBlocks < n then none
  else
    match s.placeMany id l bar n l.next with
    | some s1 =>
      let first := l.next = 0
      let s2 := { s1 with launches := tmod s1.launches id (fun x => { x with next := l.next + n * l.gang, phase := .running }) }
      some (if first then s2.setStatus id 0x02 else s2)
    | none => none

/-- The package with nothing resident on a partition's cores, to test a fit on empty segments (R223). -/
def State.emptied (s : State) (p : Nat) : State :=
  { s with
    blocks := []
    domains := []
    cores := s.cores.map (fun k => (k.1, { k.2 with warps := [], xsets := [] }))
    launches := s.launches.filter (fun l => l.2.part != p) }

/-- A block, a gang or the co-operative set fits on empty eligible segments (R223, R229, R230). -/
def State.fitsEmpty (s : State) (l : Launch) : Bool :=
  let e := s.emptied l.part
  let el := e.eligible l
  let ok := el.filter (fun x => (e.roomFor l x.1 x.2).isSome)
  if l.coop then (e.placeNext 0 { l with next := 0 } []).isSome
  else ok.any (fun x => decide (l.gang ≤ (ok.filter (fun y => clusterOf y.1 == clusterOf x.1)).length))

/-! The end of blocks and launches. -/

/-- Clears the mould-store regions of a DID (R203). -/
def Cluster.clearDid (k : Cluster) (did : Nat) : Cluster :=
  let gone := (k.tags.filter (fun t => t.2.1 == did)).map (·.1)
  { k with
    mould := k.mould.filter (fun c => !gone.contains (c.1 % 131072 / 4096))
    tags := k.tags.filter (fun t => t.2.1 != did) }

/-- A block has ended: what it held is given back, its digest joins the launch's, and its segment's boundaries fall to 0 with
the last block (R143, R162, R200, R203, R379). -/
def State.endBlock (s : State) (id : Nat) : State :=
  match tget s.blocks id with
  | some b =>
    let did := match tget s.launches b.launch with | some l => l.did | none => 0
    let s1 := { s with
      blocks := tdel s.blocks id
      launches := tmod s.launches b.launch (fun l =>
        let lo := (b.digest.setWidth 64).toNat
        let hi := ((b.digest >>> 64).setWidth 64).toNat
        { l with
          ended := l.ended + 1
          digest := l.digest + BitVec.ofNat 128 (rndm b.index hi * 2 ^ 64 + rndm b.index lo) }) }
    let empty := (s1.resident b.core b.slot).isEmpty
    let s2 := s1.modCore b.core (fun k => { k with
      warps := k.warps.filter (fun w => w.2.block != id)
      xsets := k.xsets.filter (fun x => !b.slots.any (fun w => w / 2 == x.1))
      recs := k.recs.filter (fun r => !b.recSlots.contains r.1)
      recOld := k.recOld.filter (fun r => !b.recSlots.contains r.1)
      pbnd := if empty then k.pbnd.set b.slot (0, 0, 0) else k.pbnd })
    let cl := clusterOf b.core
    let last := !s2.blocks.any (fun x => clusterOf x.2.core == cl &&
      (match tget s2.launches x.2.launch with | some l => l.did == did | none => false))
    let s3 := if (tget s2.clusters cl).isSome then
        (if last then s2.modCluster cl (fun k => k.clearDid did) else s2).settleTiles cl
      else s2
    { s3 with
      parts := s3.parts.map (fun (q : Nat × Part) => (q.1, q.2.letGo (fun c w => c == b.core && b.slots.contains w)))
      domains := s3.domains.map (fun d => (d.1, { d.2 with
        image := d.2.image.map (fun im => { im with
          blocks := tdel im.blocks id
          cores := im.cores.map (fun c => (c.1, { c.2 with warps := c.2.warps.filter (fun w => w.2.block != id) })) }) })) }
  | none => s

/-- The slot number of work whose warp is no more: what is on its way is done, and nobody hears of it. -/
def noSlot : Nat := 16

/-- Everything still accepted for a block is given up with it; an abandoned load leaves its table slot invalid (R268). What has left its
core goes on, and counts and reports nothing to the warp that has the slot next (R298 action 11, R382 step 1). -/
def State.dropWork (s : State) (id : Nat) : State :=
  match tget s.blocks id with
  | some b =>
    let mine (c w : Nat) : Bool := c == b.core && (match s.warpAt? c w with | some x => x.block == id | none => false)
    let nobody (f : Nat × Nat × Nat) : Nat × Nat × Nat := if mine f.1 f.2.1 then (f.1, noSlot, f.2.2) else f
    let lost := (s.loads.filter (fun p => mine p.core p.slot)).map (·.tslot)
    { s.modCore b.core (fun k => { k with tms := k.tms.filter (fun t => !lost.contains t.1) }) with
      pend := s.pend.filter (fun p => !mine p.core p.slot)
      copies := s.copies.filter (fun p => p.block != id)
      loads := s.loads.filter (fun p => !mine p.core p.slot)
      flagMsgs := s.flagMsgs.filter (fun f => !mine f.1 f.2.1)
      reqs := s.reqs.map (fun (r : Req) => { r with from_ := r.from_.map nobody, counts := r.counts.map nobody })
      pkts := (s.pkts.filter (fun p => p.sent || !mine p.core p.slot)).map (fun (p : Pkt) =>
        if mine p.core p.slot then { p with slot := noSlot, op := none } else p)
      holds := s.holds.map (fun (h : Hold) => if mine h.core h.slot then { h with slot := noSlot } else h)
      clusters := s.clusters.map (fun k => (k.1, { k.2 with table := k.2.table.filter (fun m => m.block != id) })) }
  | none => s

/-- Ends blocks at once. -/
def State.endBlocks (s : State) (ids : List Nat) : State := ids.foldl (fun s id => (s.dropWork id).endBlock id) s

/-- The running blocks of a launch. -/
def State.blocksOf (s : State) (launch : Nat) : List Nat := (s.blocks.filter (fun b => b.2.launch == launch)).map (·.1)

/-- The launch has its final status: its log is emptied and it leaves the queues (R381, R383). -/
def State.finishLaunch (s : State) (id : Nat) (code : Byte) : State :=
  match tget s.launches id with
  | some l =>
    let s1 := s.setStatus id code
    let s2 := { s1 with launches := tmod s1.launches id (fun x => { x with phase := .finished, log := [] }) }
    if l.det then
      s2.modPart l.part (fun q => { q with
        lseedlo := BitVec.ofNat 32 (l.w 22)
        lseedhi := BitVec.ofNat 32 (l.w 23)
        digest := l.first })
    else s2
  | none => s

/-- A supervisor or a machine check ends a launch: every block ends, the status is ABORTED, doneaddr is not signalled (R298). -/
def State.abortLaunch (s : State) (id : Nat) : State := (s.endBlocks (s.blocksOf id)).finishLaunch id 0x14

/-- Undoes a launch's log: each line goes back to its home, newest first (R381). -/
def State.undoLog (s : State) : List (Nat × List Byte) → State
  | [] => s
  | (line, old) :: l => (s.homeWrite line old).undoLog l

/-- The cores a launch used, with the slot of its domain. -/
def State.launchCores (s : State) (l : Launch) : List (Nat × Nat) :=
  (l.placed.map (·.2)).dedup.filterMap (fun c => ((s.core c).slotOf l.did).map (fun d => (c, d)))

/-- Every store of the launch's cores is performed at package scope, those of its gate calls too (R227). -/
def State.settleCores (s : State) (l : Launch) : State :=
  (l.placed.map (·.2)).dedup.foldl (fun s c => [0, 1, 2, 3].foldl (fun s d => s.writeBack c d) s) s

/-- A deterministic launch whose stores have reached their homes is undone: the L1 lines of its slots are dropped, and memory returns
to its state at launch start (R236, R381, R382). -/
def State.undoLaunch (s : State) (l : Launch) : State :=
  ((s.launchCores l).foldl (fun s x => s.flushL1 x.1 x.2) s).undoLog l.log

/-- A warp may end: every launched lane has exited and every operation it issued has completed (R143). -/
def State.warpDone (s : State) (c slot : Nat) (w : Warp) : Bool :=
  w.running.isEmpty && w.susp.isNone && w.pendingTraps.isEmpty && w.engine.all (·.isEmpty) &&
    !s.pend.any (fun p => p.core == c && p.slot == slot) && !s.pkts.any (fun p => p.core == c && p.slot == slot) &&
    !s.reqs.any (fun r => r.from_.any (fun f => f.1 == c && f.2.1 == slot)) &&
    !s.flagMsgs.any (fun f => f.1 == c && f.2.1 == slot) &&
    !s.clusters.any (fun k => k.2.table.any (fun m => m.core == c && m.slot == slot)) &&
    !s.copies.any (fun p => p.core == c && p.slot == slot && p.block == w.block) &&
    !s.holds.any (fun h => h.core == c && h.slot == slot)

end Sys2Proof.Machine
end

