-- ==== Sys2Proof/Machine/Queue.lean ====
section
/-!
DEFINITION. The queues of waiting sync accesses (R167, R168): how a lane that waits at its instruction goes on, how the waiters of
a word are served, and how accesses that a trap, a pre-emption or a checkpoint has stopped are issued again (R407).
-/

namespace Sys2Proof.Machine

/-- A pending operation takes another form. -/
def State.setPend (s : State) (id : Nat) (k : PendKind) : State :=
  { s with pend := s.pend.map (fun p => if p.id = id then { p with kind := k } else p) }

/-- The first waiter of a word that its bit lets go on: the operation and the lane. -/
def findWaiter (full : Bool) (block i : Nat) : List Pending → Option (Pending × SyncLane)
  | [] => none
  | p :: l =>
    let at_ (x : SyncLane) : Bool := x.block == block && x.index == i
    let here := match p.kind with
      | .ldsSync lanes .. => if full then lanes.find? at_ else none
      | .stsSync lanes _ => if full then none else lanes.find? at_
      | _ => none
    match here with
    | some x => some (p, x)
    | none => findWaiter full block i l

/-- A lane goes on from the instruction at which it was held: it counts it in its windows, and its own opens, over what is
done (R33, R35, R38). -/
def Thread.goOn (h : Held) (dest : List Nat) (t : Thread) : Thread :=
  let t1 := { t with pc := h.pc, rem := h.rem, wait := .run }
  let t2 := if h.counts then t1.countOne else t1
  t2.openWindow h.last h.L false [] dest

/-- One lane of a warp that stood at its instruction is changed and goes on (R53, R55). -/
def State.wakeLane (s : State) (c slot lane : Nat) (f : Thread → Thread) : State :=
  s.modWarpAt c slot (fun w =>
    let w1 := { w with threads := tmod w.threads lane f }
    match w1.bundles.find? (fun b => laneIn b.mask lane) with
    | some b => w1.settle b.mask (s.cycle + 1)
    | none => w1)

/-- A lane held at its instruction goes on from there. -/
def State.moveOn (s : State) (c slot lane : Nat) (dest : List Nat) (next : Option Held) : State :=
  match next with
  | some h => s.wakeLane c slot lane (Thread.goOn h dest)
  | none => s

/-- The lanes that a sync access still keeps waiting. -/
def PendKind.syncLanes (k : PendKind) : List SyncLane :=
  match k with
  | .ldsSync lanes .. => lanes
  | .stsSync lanes _ => lanes
  | _ => []

/-- The registers a waiting operation writes. -/
def PendKind.dest (k : PendKind) : List Nat :=
  match k with
  | .ldsSync _ d _ _ => [d]
  | .ldat _ d _ => (List.range 8).map (d + ·)
  | _ => []

/-- A lane leaves a waiting operation, which is complete in it unless its answer is still on its way; the last one ends it. Lanes that
its order holds back look again (R33, R180). -/
def State.leaveQueue (s : State) (p : Pending) (lane : Nat) : State :=
  let k := match p.kind with
    | .ldsSync lanes d a n => PendKind.ldsSync (lanes.filter (fun x => x.lane != lane)) d a n
    | .stsSync lanes n => PendKind.stsSync (lanes.filter (fun x => x.lane != lane)) n
    | .ldat lanes d n => PendKind.ldat (lanes.filter (fun x => x.lane != lane)) d n
    | k => k
  let done := match k with
    | .ldat l _ _ => l.isEmpty && !s.pkts.any (fun x => x.op == some p.id)
    | k => k.syncLanes.isEmpty
  let s1 := if done then s.endPending p else (s.setPend p.id k).wakeWarp p.core p.slot (fun x => x == .pend)
  let s2 := s1.moveOn p.core p.slot lane p.kind.dest p.kind.next
  if s2.pkts.any (fun x => x.op == some p.id && x.lane == lane) then s2 else s2.laneDone p.core p.slot lane p.id

/-- An acquire by a lane that has been served: the L1 action at its scope, and WFENCE will see it (R154, R180, R188). -/
def State.lateAcquire (s : State) (c slot lane : Nat) (sc : Scope) : State :=
  match s.warpAt? c slot with
  | some w =>
    let s1 := s.acquire c w.curSlot sc
    if sc.wide then s1.modWarpAt c slot (fun w => { w with threads := tmod w.threads lane (fun t => { t with acq := true }) })
    else s1
  | none => s

/-- One waiter of a word is served: an LDS takes the word and leaves it empty, with its acquire; an STS fills it and is folded
then (R167, R188, R377). -/
def State.serveOne (s : State) (p : Pending) (x : SyncLane) : State :=
  let r : SpRef := ⟨x.block, 4 * x.index⟩
  match p.kind with
  | .ldsSync _ d acq _ =>
    let v := BitVec.ofNat 32 (wordOf (s.spRead r 4))
    let s1 := (s.setFull x.block x.index false).commit p.core p.slot [⟨x.lane, [(d, v)], 0⟩]
    let s2 := match acq with | some sc => s1.lateAcquire p.core p.slot x.lane sc | none => s1
    s2.leaveQueue p x.lane
  | _ =>
    let b := bytesOf 4 x.value.toNat
    let s1 := match s.warpAt? p.core p.slot with | some w => s.foldStore w.block x.word true b | none => s
    ((s1.spWrite r b).setFull x.block x.index true).leaveQueue p x.lane

/-- Serves the waiters of a word after its bit has changed, one at a time, first come first served (R168). -/
def State.serve (s : State) (block i : Nat) : Nat → State
  | 0 => s
  | k + 1 =>
    match findWaiter (s.isFull block i) block i s.pend with
    | none => s
    | some (p, x) => (s.serveOne p x).serve block i k

/-- Serves all waiters there are. -/
def State.serveWord (s : State) (block i : Nat) : State :=
  s.serve block i ((s.pend.map (fun p => p.kind.syncLanes.length)).sum + 1)

/-- ε as UNC reads it (R327). -/
def Deckle.unc (d : Deckle) : Nat := if d.fail then 0xFFFFFFFF else d.eps

/-- No stamp may be taken and no stamped read begun (R329, R330). -/
def Deckle.refuses (d : Deckle) : Bool := d.fail || decide (d.epsMax < d.unc)

/-- Waiting lanes of an LDAT stop at it with a cause, outside any repeated unit; their registers stay (R292, R330). -/
def State.stopLdat (s : State) (p : Pending) (lanes : List LdatLane) (cause : Cause) (deferred : Bool) : State :=
  match p.kind with
  | .ldat all dst next =>
    let rest := all.filter (fun x => !lanes.any (fun y => y.lane == x.lane))
    let s1 := s.setPend p.id (.ldat rest dst next)
    let s2 := s1.modWarpAt p.core p.slot (fun w =>
      let mine := maskOf (lanes.map (·.lane))
      let reports (l : List Report) : List Report := lanes.foldl (fun l x =>
        insertReport { mkReport w cause x.lane p.pc (BitVec.ofNat 32 x.va) (BitVec.ofNat 32 (x.va / 2 ^ 32)) with
          deferred := deferred, rem := 0, mem := true } l) l
      let w1 := { w.mapLanes mine (fun _ t =>
          { t with pc := p.pc, rem := 0, wait := .run, windows := t.windows.filter (fun x => !x.ids.contains p.id) }) with
        pendingTraps := reports w.pendingTraps }
      (w1.splitAll (s.cycle + 1)).release (s.cycle + 1))
    if !rest.isEmpty || s2.pkts.any (fun k => k.op == some p.id) then s2 else s2.endPending { p with kind := .ldat [] dst next }
  | _ => s

/-- Issues stopped accesses again: they wait as before, or find their condition fulfilled; an LDAT meets the tests of its clock anew
(R341, R407). -/
def State.retryOps (s : State) : List Pending → State
  | [] => s
  | p :: l =>
    let s1 := p.kind.syncLanes.foldl (fun (s : State) x => s.serveWord x.block x.index) { s with pend := s.pend ++ [p] }
    (match p.kind with
      | .ldat lanes _ _ => if s.deckle.refuses then s1.stopLdat p lanes .stamp false else s1
      | _ => s1).retryOps l

/-- None of a warp's domain slots is stopped or holds a pre-empted domain (R257, R260). -/
def Core.openTo (k : Core) (w : Warp) : Bool :=
  w.slotsIn.all (fun d => !k.stopSlots.contains d && !k.frozen.contains d)

/-- The stopped accesses of a warp that resumes are issued again (R407). -/
def State.retryWarp (s : State) (c slot : Nat) : State :=
  match s.warpAt? c slot with
  | some w =>
    if w.retry.isEmpty || w.susp.isSome || !(s.core c).openTo w then s
    else (s.modWarpAt c slot (fun w => { w with retry := [] })).retryOps w.retry
  | none => s

/-! What a lane's order holds back (R150–R155, R180, R185). -/

/-- An earlier operation of a lane comes before its later ones: an access that waits for its translation or is held, and a read
with an acquire that has not its value, before every one; a read that has not its value before every later write; a sync store
that waits before a later release. -/
def Pending.holds (p : Pending) (lane : Nat) (writes rel : Bool) : Bool :=
  match p.kind with
  | .access accs .. => accs.any (fun a => a.lane == lane)
  | .ldsSync lanes _ acq next => next.isNone && (writes || acq.isSome) && lanes.any (fun x => x.lane == lane)
  | .stsSync lanes next => next.isNone && rel && lanes.any (fun x => x.lane == lane)
  | .ldat lanes _ next => next.isNone && writes && lanes.any (fun x => x.lane == lane)
  | _ => false

/-- A read through a window is out whose acquire holds every later operation of its lane, or that a later write follows. -/
def Pkt.holdsLane (p : Pkt) (writes : Bool) : Bool :=
  p.cmd.isNone &&
    match p.kind with
    | .read _ _ acq => acq || writes
    | .atom _ _ _ _ _ _ acq => acq || writes
    | .ldat .. => writes
    | _ => false

/-- A lane's next access waits for an earlier one (R150–R155, R180, R185). -/
def State.laneHeld (s : State) (c slot lane : Nat) (writes rel : Bool) : Bool :=
  s.pend.any (fun p => p.core == c && p.slot == slot && p.holds lane writes rel) ||
    s.pkts.any (fun p => p.core == c && p.slot == slot && p.lane == lane && p.holdsLane writes)

/-- The active live lanes that an earlier operation holds back. -/
def State.heldLanes (s : State) (writes rel : Bool) : List Nat :=
  (s.live.filter (fun p => s.laneHeld s.cur.core s.cur.slot p.1 writes rel)).map (·.1)

/-- A sync store of the lane that waits for the same word comes before it (R150). -/
def State.wordHeld (s : State) (c slot lane : Nat) (r : SpRef) (size : Nat) : Bool :=
  s.pend.any (fun p => p.core == c && p.slot == slot &&
    match p.kind with
    | .stsSync lanes none => lanes.any (fun x => x.lane == lane && x.block == r.block && decide (r.off < 4 * x.index + 4) &&
        decide (4 * x.index < r.off + size))
    | _ => false)

end Sys2Proof.Machine
end

