-- ==== Sys2Proof/Machine/Registers.lean ====
section
/-!
DEFINITION. The special registers (R45, R70, R303 and the chapters that own them): what a read returns and what a write does,
in one place for SRD, SWR, the register pages of cores (R285) and the events that write a register. TSTAT and its four
actions stand here too (R298, R408).
-/

namespace Sys2Proof.Machine

/-! Partitions and sleeping. -/

/-- The valid partition that holds a core (R275). -/
def State.partOf (s : State) (core : Nat) : Option Nat :=
  let slice := if isControl core then (core - 576) / 2 else core / 48
  (tfind? s.parts (fun p q => q.valid && inPart p q slice)).map (·.1)

/-- The partition is set, whether or not it had an entry. -/
def State.putPart (s : State) (p : Nat) (f : Part → Part) : State :=
  { s with parts := tput s.parts p (f ((tget s.parts p).getD Part.idle)) }

/-! The deckle's values. -/

/-- TIMEST (R327). -/
def Deckle.timest (d : Deckle) : Nat :=
  (if d.fail then 1 else 0) + (if d.epsMax < d.unc then 2 else 0) + (if d.xcl then 4 else 0) + (if d.ref then 8 else 0)

/-- The closing delay Δ of values of EPSMAX and D (R327). -/
def closing (epsMax d : Nat) : Nat := 2 * epsMax + d

/-- A change in its transition: the closing delays before and after (R335). -/
def Deckle.transition (d : Deckle) : Option (Nat × Nat) :=
  (d.changes.find? (fun c => match c.deltas with | some (_, _, e) => decide (d.early ≤ e) | none => false)).bind
    (fun c => c.deltas.map (fun x => (x.1, x.2.1)))

/-- The closing delay of LDAT: the larger one during a transition (R335). -/
def Deckle.deltaRead (d : Deckle) : Nat :=
  match d.transition with
  | some (a, b) => max a b
  | none => closing d.epsMax d.dlvb

/-- The closing delay by which a home tests LATE: the smaller one during a transition (R335). -/
def Deckle.deltaLate (d : Deckle) : Nat :=
  match d.transition with
  | some (a, b) => min a b
  | none => closing d.epsMax d.dlvb

/-! Which registers there are (R45, R70). -/

/-- The level of an assigned register number. -/
def regLevel (n : Nat) : Option Level :=
  if n ≤ 0x01C || (0x020 ≤ n && n ≤ 0x027) || (0x030 ≤ n && n ≤ 0x033) || (0x040 ≤ n && n ≤ 0x042) then some .user
  else if (0x080 ≤ n && n ≤ 0x08C) || (0x100 ≤ n && n ≤ 0x10B) || (0x400 ≤ n && n ≤ 0x408) then some .supervisor
  else if 0x200 ≤ n && n ≤ 0x213 then some .hypervisor
  else none

/-- The registers a write may name. -/
def regWritable (n : Nat) : Bool :=
  [0x010, 0x011, 0x013, 0x014, 0x015, 0x016, 0x081, 0x086, 0x087, 0x088, 0x089, 0x08A, 0x08C, 0x402, 0x407, 0x408,
    0x200, 0x201, 0x202, 0x203, 0x205, 0x206, 0x207, 0x208, 0x209, 0x20A, 0x20B, 0x20D, 0x20E, 0x20F, 0x210, 0x211,
    0x212].contains n || (0x100 ≤ n && n ≤ 0x10B)

/-- A register of 128 bits (R246). -/
def regWide (n : Nat) : Bool := decide (0x100 ≤ n) && decide (n ≤ 0x103)

/-! Reading. -/

/-- LIVEMASK and HELPMASK (R60). -/
def Warp.laneMask (w : Warp) (helper : Bool) : Mask := maskOf ((w.running.filter (fun p => p.2.helper == helper)).map (·.1))

/-- The open extended-set state of a warp (R68). -/
def Core.xlockst (k : Core) (slot : Nat) (w : Warp) : Nat :=
  let sib := slot ^^^ 1
  let sibHolds := match tget k.warps sib with | some x => x.xown | none => false
  (if w.xown then 1 else 0) + (if sibHolds then 2 else 0) + (if (tget k.xsets (slot / 2)).isSome then 4 else 0)

/-- A user-level register as a lane of the issuing warp reads it (R70). A control-core thread has no block and no launch: BLKX to BLKZ,
BLKDIM, LNCHX to LNCHZ and GANGPOS read 0 there, which is the model's choice (log 14). -/
def State.userReg (s : State) (w : Warp) (lane : Nat) (t : Thread) (n : Nat) : Word :=
  let c := s.cur.core
  let b := tget s.blocks w.block
  let l := b.bind (fun b => tget s.launches b.launch)
  let blk (f : Block → Nat) : Nat := match b with | some b => f b | none => 0
  let rec_ (i : Nat) : Nat := match l with | some l => l.w i | none => 0
  let bound := (s.core c).pbnd.getD w.homeSlot (0, 0, 0)
  let compute := !isControl c
  match n with
  | 0x000 => BitVec.ofNat 32 lane
  | 0x001 => BitVec.ofNat 32 (w.index + 65536 * s.cur.slot)
  | 0x002 => BitVec.ofNat 32 (blk Block.bx)
  | 0x003 => BitVec.ofNat 32 (blk Block.by_)
  | 0x004 => BitVec.ofNat 32 (blk Block.bz)
  | 0x005 => BitVec.ofNat 32 (rec_ 4 % 2 ^ 30)
  | 0x006 => BitVec.ofNat 32 (rec_ 5)
  | 0x007 => BitVec.ofNat 32 (rec_ 6)
  | 0x008 => BitVec.ofNat 32 (rec_ 7)
  | 0x009 => BitVec.ofNat 32 (blk Block.gangPos + 4 * (blk Block.gangSize - 1))
  | 0x00A => if compute then BitVec.ofNat 32 (c % 4 + 4 * (c / 4 % 12)) else 0
  | 0x00B => BitVec.ofNat 32 (if compute then c / 48 else (c - 576) / 2)
  | 0x00C => BitVec.ofNat 32 s.pkg
  | 0x00D => s.cur.mask
  | 0x00E => w.laneMask false
  | 0x00F => w.laneMask true
  | 0x010 => t.fpmode
  | 0x011 => t.fpflags
  | 0x012 => t.excmask
  | 0x013 => w.partn
  | 0x014 => t.meetv
  | 0x015 => t.tmctl
  | 0x016 => t.tmshape
  | 0x017 => lo32 t.lstamp
  | 0x018 => hi32 t.lstamp
  | 0x019 => BitVec.ofNat 32 s.deckle.timest
  | 0x01A => BitVec.ofNat 32 s.deckle.unc
  | 0x01B => BitVec.ofNat 32 s.deckle.epsMax
  | 0x01C => BitVec.ofNat 32 s.deckle.dlvb
  | 0x030 => BitVec.ofNat 32 bound.1
  | 0x031 => BitVec.ofNat 32 bound.2.1
  | 0x032 => BitVec.ofNat 32 bound.2.2
  | 0x033 => BitVec.ofNat 32 ((s.core c).xlockst s.cur.slot w)
  | 0x040 => BitVec.ofNat 32 (w.curDid + 65536 * w.homeDid)
  | 0x041 => BitVec.ofNat 32 (w.curSlot + 4 * w.homeSlot + 16 * w.gates.length)
  | 0x042 => match tget s.parts w.part with | some q => q.lattol | none => 0
  | _ => BitVec.ofNat 32 (w.cnt (n - 0x020))

/-- Suspended warp slots of a core (R298). -/
def Core.suspended (k : Core) : Word := maskOf ((k.warps.filter (fun w => w.2.susp.isSome)).map (·.1))

/-- PARTCFG of a partition (R276). -/
def Part.cfg (p : Nat) (q : Part) : Nat :=
  let code := match q.size with | 2 => 1 | 3 => 2 | 4 => 3 | 6 => 4 | 12 => 5 | _ => 0
  if q.valid then 2 ^ 31 + 16 * code + p else p

/-- V of an ownership entry reads 0 where its world is not the partition's (R278). -/
def Part.mayCopy (q : Part) : Bool := q.eot.v && q.eot.ns == q.ns && q.eot.engines != 0

/-- Words 0 and 1 of an ownership entry, and its balance in units (R276, R278, R279). -/
def Part.eotWord (q : Part) (n : Nat) : Word :=
  match n with
  | 0 => BitVec.ofNat 32 ((if q.eot.v && q.eot.ns == q.ns then 2 ^ 31 else 0) + (if q.eot.ns then 2 ^ 30 else 0) + q.eot.engines.toNat)
  | 1 => BitVec.ofNat 32 q.eot.budget
  | _ => BitVec.ofInt 32 (q.eot.balance / 1300)

/-- A supervisor or hypervisor register of a core, in 128 bits (R246, R276, R285, R292). `page` says that a core's register
page is read. -/
def State.coreReg (s : State) (c : Nat) (page : Bool) (seed : Nat) (n : Nat) : BitVec 128 :=
  let k := s.core c
  let p := s.partOf c
  let q := (p.bind (tget s.parts)).getD Part.idle
  let e := (tget s.parts s.eotidx.toNat).getD Part.idle
  let w32 (x : Word) : BitVec 128 := x.setWidth 128
  let own := !(page && !isControl c)
  if regWide n then k.dpart.getD (n - 0x100) 0
  else
    w32 (match n with
      | 0x080 => k.trap.tcause
      | 0x081 => k.trap.tpc
      | 0x082 => k.trap.tlane
      | 0x083 => k.trap.taddrlo
      | 0x084 => k.trap.taddrhi
      | 0x085 => k.trap.tframe
      | 0x086 => k.trap.tvec
      | 0x087 => k.suspended
      | 0x088 => if own then q.fqlo else 0
      | 0x089 => if own then q.fqhi else 0
      | 0x08A => if own then q.fqsize else 0
      | 0x08B => if own then q.fqtail else 0
      | 0x08C => if own then q.fqhead else 0
      | 0x104 => k.ishare.getD 0 0
      | 0x105 => k.ishare.getD 1 0
      | 0x106 => k.ishare.getD 2 0
      | 0x107 => k.ishare.getD 3 0
      | 0x108 => k.ckint.getD 0 0
      | 0x109 => k.ckint.getD 1 0
      | 0x10A => k.ckint.getD 2 0
      | 0x10B => k.ckint.getD 3 0
      | 0x200 => q.pgtlo
      | 0x201 => q.pgthi
      | 0x202 => s.rotlo
      | 0x203 => s.rothi
      | 0x204 => if q.ns then 1 else 0
      | 0x205 => q.pkey
      | 0x206 => BitVec.ofNat 32 s.deckle.epsMax
      | 0x207 => BitVec.ofNat 32 s.deckle.dlvb
      | 0x208 => match p with | some p => BitVec.ofNat 32 (Part.cfg p q) | none => 0
      | 0x209 => s.eotidx
      | 0x20A => e.eotWord 0
      | 0x20B => e.eotWord 1
      | 0x20C => e.eotWord 2
      | 0x20D => q.wtlo
      | 0x20E => q.wthi
      | 0x20F => q.wtsize
      | 0x210 => q.miglo
      | 0x211 => q.mighi
      | 0x212 => BitVec.ofNat 32 ((if q.migEn then 1 else 0) + (if q.migOvf then 2 else 0) + (if q.migBsel then 8 else 0) +
          256 * q.migLog)
      | 0x213 => BitVec.ofNat 32 q.migCnt
      | 0x400 => if isControl c || page then q.lseedlo else BitVec.ofNat 32 seed
      | 0x401 => if isControl c || page then q.lseedhi else BitVec.ofNat 32 (seed / 2 ^ 32)
      | 0x402 => q.detmode
      | 0x403 => q.digest.setWidth 32
      | 0x404 => (q.digest >>> 32).setWidth 32
      | 0x405 => (q.digest >>> 64).setWidth 32
      | 0x406 => (q.digest >>> 96).setWidth 32
      | 0x407 => q.ckintdef
      | _ => q.fpmdef)

/-! Writing. -/

/-- A shape that TMSHAPE holds: [−1, 64] or +∞ (R240). -/
def shapeOk (v : Word) : Bool :=
  let x := v.toNat
  decide (x ≤ 0x42800000) || x == 0x7F800000 || (decide (2 ^ 31 ≤ x) && decide (x ≤ 0xBF800000))

/-- A user-level register takes a lane's value; none where the value is refused (R62, R82, R84, R240). -/
def Thread.writeReg (t : Thread) (n : Nat) (v : Word) : Option Thread :=
  match n with
  | 0x010 => some { t with fpmode := v &&& 0x3FF }
  | 0x011 => some { t with fpflags := v &&& 0x1F }
  | 0x014 => some { t with meetv := v }
  | 0x015 => some { t with tmctl := v &&& 0x1F }
  | 0x016 => if shapeOk v then some { t with tmshape := v } else none
  | _ => none

/-- A size code of PARTN (R62). -/
def partnOk (v : Word) : Bool := decide (1 ≤ field v.toNat 2 0) && decide (field v.toNat 2 0 ≤ 5)

/-- Two fields of bits overlap. -/
def overlaps (a b : Nat) : Bool := a &&& b != 0

/-- The refusals of a DPART write that concern its value (R246). -/
def Core.dpartOk (k : Core) (d : Nat) (v : Nat) : Bool :=
  !dpV v || (dpWarps v != 0 && decide (4 ≤ dpSize v) && decide (dpBase v ≤ 76) && decide (dpBase v + dpSize v ≤ 80) &&
    (List.range 4).all (fun e =>
      let o := k.dp e
      e == d || !dpV o ||
        (!overlaps (dpWarps o) (dpWarps v) && !overlaps (field o 63 56) (field v 63 56) && dpDid o != dpDid v &&
          (decide (dpBase o + dpSize o ≤ dpBase v) || decide (dpBase v + dpSize v ≤ dpBase o)))))

/-- The defined bits of a DPART (R12, R246). -/
def dpartMask : BitVec 128 := 0xC0000FFFFFFFF7FFFF7F7F7FFFFFFFFF#128

/-- A DID comes to hold a slot of a partition where it held none: its intervals count from now (R257). -/
def State.beginDomain (s : State) (c did : Nat) : State :=
  match s.partOf c with
  | some p =>
    if s.cores.any (fun k => s.partOf k.1 == some p && (k.2.slotOf did).isSome) then s
    else s.modDomain p did (fun d => { d with dueAt := s.deckle.early })
  | none => s

/-- A write of a DPART (R246, R268): the slot's L1 lines leave, and the table slots of its old and new masks are invalid. -/
def State.writeDpart (s : State) (c d : Nat) (v : BitVec 128) : Option State :=
  let k := s.core c
  let x := v &&& dpartMask
  if !(s.resident c d).isEmpty || k.frozen.contains d || !k.dpartOk d x.toNat then none
  else
    let gone := field (k.dp d) 63 56 ||| field x.toNat 63 56
    let s0 := if dpV x.toNat then s.beginDomain c (dpDid x.toNat) else s
    let s1 := (s0.putCore c (fun k => k)).flushL1 c d
    let s2 := s1.modCore c (fun k => { k with
      dpart := k.dpart.set d x
      tms := k.tms.filter (fun p => !bit gone p.1) })
    some (match s.partOf c with | some p => s2.wakePart p | none => s2)

/-- The sizes of PARTCFG's codes (R276). -/
def cfgSize (code : Nat) : Option Nat := [1, 2, 3, 4, 6, 12][code]?

/-- A control core of a slice that joins a partition: its registers have the values of partition start, and only a thread of the
hypervisor goes on (R231, R246, R258, R268, R275, R293). -/
def Core.startPart (k : Core) (p : Nat) : Core :=
  { k with
    dpart := Core.idle.dpart, ishare := Core.idle.ishare, ckint := Core.idle.ckint, ckUse := Core.idle.ckUse
    share := Core.idle.share, tms := [], trap := { k.trap with tvec := Core.idle.trap.tvec }
    warps := (k.warps.filter (fun w => w.2.level == .hypervisor)).map (fun (w : Nat × Warp) => (w.1, { w.2 with part := p })) }

/-- A core as slices join partition p and leave it. -/
def Core.movePart (p : Nat) (joins leaves : Nat → Bool) (k : Nat × Core) : Nat × Core :=
  let sl := (k.1 - 576) / 2
  if !isControl k.1 then k
  else if joins sl then (k.1, k.2.startPart p)
  else if leaves sl then
    (k.1, { k.2 with warps := k.2.warps.map (fun (w : Nat × Warp) => (w.1, { w.2 with part := noPart })) })
  else k

/-- Every dirty L1 line of cores reaches its home (R236). -/
def State.flushCores (s : State) (p : Nat → Bool) : State :=
  (s.cores.filter (fun k => p k.1)).foldl (fun s k => k.2.l1.foldl (fun s d => s.flushL1 k.1 d.1) s) s

/-- The domains of a partition as it starts: that of DID 0 holds a slot of every core, and its intervals count from now (R246,
R257). -/
def State.startDomains (s : State) (p : Nat) : State :=
  ({ s with domains := s.domains.filter (fun d => d.1 / 65536 != p) }).modDomain p 0 (fun d => { d with dueAt := s.deckle.early })

/-- A write of PARTCFG (R276, R278): a partition that becomes valid starts with its registers, cores and ownership entry at
their values of partition start. It starts the exit of one that sleeps, for which the hub may hold requests (R398). -/
def State.writePartcfg (s : State) (v : Word) : Option State :=
  let p := field v.toNat 3 0
  let on := bit v.toNat 31
  match cfgSize (field v.toNat 6 4) with
  | none => none
  | some n =>
    let old := (tget s.parts p).getD Part.idle
    let was (sl : Nat) : Bool := old.valid && inPart p old sl
    let is_ (sl : Nat) : Bool := on && decide (p ≤ sl) && decide (sl < p + n)
    let moved := (List.range 12).filter (fun sl => was sl != is_ sl)
    let clash := on && s.parts.any (fun r => r.1 != p && r.2.valid && (List.range 12).any (fun sl => is_ sl && inPart r.1 r.2 sl))
    if p % n != 0 || decide (12 < p + n) || clash || s.blocks.any (fun b => moved.contains (b.2.core / 48)) then none
    else
      let added := moved.filter is_
      let gone := moved.filter was
      let s0 := s.flushCores (fun c => !isControl c && added.contains (c / 48))
      let s1 := { s0 with
        cores := (s0.cores.filter (fun (k : Nat × Core) => isControl k.1 || !added.contains (k.1 / 48))).map
          (Core.movePart p added.contains gone.contains)
        clusters := s0.clusters.filter (fun k => !added.contains (k.1 / 12)) }
      some (if on && old.valid then s1.putPart p (fun q => { q with size := n, waking := q.waking || q.sleep != 0 })
        else if on then
          (s1.startDomains p).putPart p (fun q => { Part.idle with
            valid := true, size := n, ns := Config.worldNs p
            eot := ⟨true, Config.worldNs p, 0xFFFFFF, 24000, 24000 * 1300⟩
            sleep := q.sleep, waking := q.sleep != 0 })
        else s1.putPart p (fun q => { q with valid := false, waking := q.waking || q.sleep != 0 }))

/-- A new EPSMAX or D: the change takes force at a tick that every package learns from a notice (R335). -/
def State.announce (s : State) (isD : Bool) (v : Nat) : Option State :=
  let d := s.deckle
  let lo := if isD then 100 else 1
  let hi := if isD then 100000 else 1024
  if !d.ref || v < lo || hi < v || !d.changes.isEmpty then none
  else
    let tick := (d.early + 1023) / 1024 * 1024 + 16384
    some { s with
      deckle := { d with changes := d.changes ++ [⟨isD, v, tick, none⟩] }
      fabric := { s.fabric with sentNotices := ⟨4, 0, s.pkg, v, tick⟩ :: s.fabric.sentNotices } }

/-- Writes word 1 of the ownership entry in reach: the balance becomes the new budget (R279). -/
def Eot.setBudget (e : Eot) (v : Word) : Eot :=
  let b := field v.toNat 14 0
  { e with budget := b, balance := min b 24000 * 1300 }

/-- A write of MIGCTL (R400): SW ends the round in one step. -/
def Part.writeMigctl (q : Part) (v : Word) : Part :=
  let q1 := { q with migEn := bit v.toNat 0, migLog := field v.toNat 12 8 }
  if bit v.toNat 2 then { q1 with migOvf := false, migBsel := !q.migBsel, migCnt := 0, migPages := [] } else q1

/-! TSTAT (R298). -/

/-- A word that is REP or MOD (R36). -/
def isPrefix (b : List Byte) : Bool := field (wordOf b) 6 0 == 0x79 || field (wordOf b) 6 0 == 0x7B

/-- The skip past a faulting instruction (R408), with the words of the segment as fuel. -/
def State.skipFrom (s : State) (core : Nat) (w : Warp) : Nat → Nat → Nat
  | 0, pc => pc
  | k + 1, pc =>
    match s.fetchWord core w pc with
    | .ok (b, _) => if isPrefix b then s.skipFrom core w k (pc + 4) else pc + b.length
    | .error _ =>
      match s.fetchHalf core w (w.code.base + pc) with
      | .ok (lo, _) => if decide (pc + 2 ≤ w.code.size) && bit (wordOf lo) 0 then pc + 4 else pc + 2
      | .error _ => pc + 2

/-- The PC a skip ends at. -/
def State.skipPc (s : State) (core : Nat) (w : Warp) (pc : Word) : Word :=
  BitVec.ofNat 32 (s.skipFrom core w (w.code.size / 4 + 2) pc.toNat)

/-- A lane goes past its faulting instruction, or past the faulting repeat only (R298, R305, R408). Past the last repeat the unit has
ended: the window of the repeats done is open, and the next instruction waits for those that a trap has stopped (R35). -/
def Thread.skip (t : Thread) (rem : Nat) (pc past : Word) : Thread :=
  if 1 < rem then { t with pc := pc, rem := rem - 1, wait := .run }
  else
    { t with
      pc := past, rem := 0, wait := .run, repIds := [], repDests := []
      windows := if t.repIds.isEmpty then t.windows else t.windows ++ [⟨t.repIds, t.repDests, 0, false⟩] }

/-- Pending-flag words join FPFLAGS before the first instruction after a switch-out (R300). -/
def Warp.joinFlags (w : Warp) : Warp :=
  { w with threads := w.threads.map (fun p => (p.1, { p.2.raise p.2.pflags with pflags := 0 })) }

/-- A fault whose record was posted while the warp was suspended for another keeps it suspended (R296, R297). -/
def Warp.nextPosted (w : Warp) : Warp :=
  match w.pendingTraps.find? (·.posted) with
  | some r => { w with susp := some ⟨r, 0, true, w.curDid⟩, pendingTraps := w.pendingTraps.erase r }
  | none => w

/-- The warp is suspended no longer: its lanes are ready anew (R232), stopped accesses are issued again (R407), and a record
still held is posted all the same (R296). -/
def State.unsuspend (s : State) (c slot : Nat) (f : Warp → Warp) : State :=
  let part := match s.warpAt? c slot with | some w => w.part | none => 0
  ((s.modWarpAt c slot (fun w =>
      let w1 := (f { w with susp := none }).joinFlags
      ({ w1 with bundles := w1.bundles.map (fun b => { b with since := s.cycle + 1 }) } : Warp).nextPosted)).modPart part (fun q => { q with
    heldRecs := q.heldRecs.map (HeldRec.letGo (fun a b => a == c && b == slot)) })).retryWarp c slot

/-- An operation stopped by a fault after acceptance is replayed (R185, R218, R268, R374). -/
def State.replay (s : State) (id : Nat) : State :=
  { s with
    pend := s.pend.map (fun p =>
      if p.id = id then
        { p with kind := match p.kind with | .access a _ r ws => .access a false r ws | k => k }
      else p)
    copies := s.copies.map (fun c => if c.id = id then { c with stopped := false } else c)
    loads := s.loads.map (fun l => if l.id = id then { l with stopped := false } else l)
    clusters := s.clusters.map (fun k => (k.1, { k.2 with
      table := k.2.table.map (fun m => if m.id = id then { m with stopped := false } else m) })) }

/-- A stopped matrix command is abandoned: an MLOOP's tile holds free values of the domain and its watermark is 64, where no later
MLOOP has begun it anew, and an MLDB's bytes hold free values (R201, R218, log 5). -/
def Cluster.abandon (k : Cluster) (m : MatCmd) (free : Nat) : Cluster :=
  let k1 := { k with table := k.table.filter (fun x => x.id != m.id) }
  match m.kind with
  | .mloop _ tile .. =>
    { k1 with tiles := k1.tiles.modify tile (fun t => { t with
        mark := if k1.later tile m.id then t.mark else 64
        elems := (List.range 4096).map (fun i => Config.freeTile (free + i)) }) }
  | .mldb fw _ off n =>
    let w := match field fw.toNat 7 4 with | 0 => 64 | 1 => 32 | 2 => 16 | 3 => 16 | 4 => 8 | 5 => 8 | _ => 4
    let len := 32 * ((n + 31) / 32) * w / 8
    { k1 with mould := (List.range 64).foldl (fun mo col =>
        setBytes mo (131072 * col + off) ((List.range len).map (fun i => Config.freeByte (free + len * col + i)))) k1.mould }
  | _ => k1

/-- The stores among accesses that are given up leave the digest of their block (R377). -/
def State.unfoldAccs (s : State) (c slot : Nat) (l : List Acc) : State :=
  match s.warpAt? c slot with
  | some w => l.foldl (fun s a => match a.kind with | .store data _ => s.unfoldStore w.block a.va false data | _ => s) s
  | none => s

/-- A lane whose waiting instruction is given up with its access goes past it (R185, R298). -/
def State.passProbe (s : State) (c slot : Nat) (a : Acc) : State :=
  match a.kind with
  | .probe past => s.wakeLane c slot a.lane (fun t => { t with pc := past, rem := 0, windows := [], wait := .run })
  | _ => s

/-- A held access is discarded: the lanes whose accesses were performed have their results, at once or once the reads that are
out come back, and the stores that were not leave the digest (R185, R298, R377). -/
def State.discardAccess (s0 : State) (p : Pending) : State :=
  match p.kind with
  | .access accs _ _ ws =>
    let s := s0.unfoldAccs p.core p.slot accs
    if s.pkts.any (fun k => k.op == some p.id) then s.setPend p.id (.wget ws)
    else
      let s1 := { s.commit p.core p.slot ws with pend := s.pend.filter (fun x => x.id != p.id) }
      let s2 := match p.cls with | some k => s1.settleCount p.core p.slot k p.id | none => s1
      (accs.foldl (fun s a => s.passProbe p.core p.slot a) s2).wakeWarp p.core p.slot (fun x => x == .pend)
  | _ => s0.endPending p

/-- An operation stopped by a fault after acceptance is given up; with a cause, that cause is deferred to the next WAITC of its
class (R185, R218, R268, R298, R374). -/
def State.giveUp (s : State) (c slot id : Nat) (r : Report) (cause : Option Cause) : State :=
  let late (s : State) (cls : Nat) : State :=
    match cause with
    | some x => s.modWarpAt c slot (fun w => { w with deferred := w.deferred ++ [⟨id, cls, x, r.lo, r.hi⟩] })
    | none => s
  match s.pend.find? (fun p => p.id == id) with
  | some p => s.discardAccess p
  | none =>
    match s.copies.find? (fun x => x.id == id) with
    | some x =>
      let cls := match x.kind with | .halo _ => 4 | _ => 0
      late ((s.abandonCopy x).completeEngine c slot cls id) cls
    | none =>
      match s.loads.find? (fun x => x.id == id) with
      | some x =>
        late (({ s with loads := s.loads.filter (fun y => y.id != id) }.modCore c (fun k =>
          { k with tms := tdel k.tms x.tslot })).completeEngine c slot 7 id) 7
      | none =>
        match s.clusters.findSome? (fun k => (k.2.table.find? (fun m => m.id == id)).map (fun m => (k.1, m))) with
        | some (k, m) =>
          let s1 := ({ s.modCluster k (fun x => x.abandon m s.freeCtr) with freeCtr := s.freeCtr + 2 ^ 24 }).settleTiles k
          late (s1.completeEngine c slot 1 id) 1
        | none => s

/-- TSTAT action 00: the lanes of the faulting instruction resume at the record's PC; a held access is replayed (R298). -/
def State.tstatResume (s : State) (c slot : Nat) : Option State :=
  match (s.warpAt? c slot).bind (·.susp) with
  | some u =>
    some (match u.report.op with
      | some id => (s.unsuspend c slot (fun w => w)).replay id
      | none => s.unsuspend c slot (fun w => (((w.mapLanes u.mask (fun _ t =>
          if t.exited then t else { t with pc := u.report.pc, wait := .run })).splitAll (s.cycle + 1)).release (s.cycle + 1))))
  | none => none

/-- TSTAT action 01: the lanes resume past the faulting instruction; a held access is discarded (R298, R408). -/
def State.tstatSkip (s : State) (c slot : Nat) : Option State :=
  match s.warpAt? c slot with
  | some w =>
    match w.susp with
    | some u =>
      some (match u.report.op with
        | some id => (s.unsuspend c slot (fun w => w)).giveUp c slot id u.report none
        | none =>
          let past := s.skipPc c w u.report.pc
          s.unsuspend c slot (fun w => (w.mapLanes u.mask (fun _ t =>
            if t.exited then t else t.skip u.report.rem u.report.pc past)).splitAll (s.cycle + 1) |>.release (s.cycle + 1)))
    | none => none
  | none => none

/-- A report joins those a warp still has to deliver, and the first is delivered once it can be (R291, R294). -/
def State.deliverLater (s : State) (c slot : Nat) (r : Report) : State :=
  (s.modWarpAt c slot (fun w => { w with pendingTraps := insertReport r w.pendingTraps })).deliverPending c slot

/-- TSTAT action 10: a user-class cause is delivered with the record's PC, lane and address (R298); inside a gate call no cause
goes to the launch's handler (R254). -/
def State.tstatDeliver (s : State) (c slot code : Nat) : Option State :=
  match s.warpAt? c slot, Cause.ofCode code with
  | some w, some x =>
    match w.susp with
    | some u =>
      if x.isSuper || x == .compat then none
      else
        let s1 := s.unsuspend c slot (fun w => w)
        let r := { u.report with
          cause := x, super := !w.gates.isEmpty, op := none, orig := 0, lanes := u.mask, posted := false }
        match u.report.op with
        | some id =>
          let s2 := s1.giveUp c slot id u.report (some x)
          if (s.pend.find? (fun p => p.id == id)).isSome then
            some (s2.deliverLater c slot r)
          else some s2
        | none => some (s1.deliverLater c slot r)
    | none => none
  | _, _ => none

/-- TSTAT action 11: the launch ends (R298). -/
def State.tstatEnd (s : State) (c slot : Nat) : Option State :=
  match s.warpAt? c slot with
  | some w =>
    match w.susp, tget s.blocks w.block with
    | some _, some b => some ((s.unsuspend c slot (fun w => w)).abortLaunch b.launch)
    | _, _ => none
  | none => none

/-- A write of a core's TSTAT (R298). -/
def State.writeTstat (s : State) (c : Nat) (v : Word) : Option State :=
  let x := v.toNat
  let slot := field x 3 0
  match field x 5 4 with
  | 0 => s.tstatResume c slot
  | 1 => s.tstatSkip c slot
  | 2 => s.tstatDeliver c slot (field x 15 8)
  | _ => s.tstatEnd c slot

/-- A write of a supervisor or hypervisor register of a core; none where the value is refused with ILLEGAL (R246, R276, R292,
R303, R335, R347, R400). -/
def State.writeCoreReg (s : State) (c : Nat) (page : Bool) (n : Nat) (v : BitVec 128) : Option State :=
  let x : Word := v.setWidth 32
  let p := (s.partOf c).getD 12
  let fuel := match tget s.parts p with | some q => q.heldRecs.length | none => 0
  let own := !(page && !isControl c)
  let trap (f : TrapRegs → TrapRegs) : Option State := some (s.putCore c (fun k => { k with trap := f k.trap }))
  let part (f : Part → Part) : Option State := some (s.modPart p f)
  let queue (f : Part → Part) : Option State := if own then some ((s.modPart p f).postAll p fuel) else some s
  let eot (f : Eot → Eot) : Option State :=
    if s.eotidx.toNat < 12 then some (s.putPart s.eotidx.toNat (fun q => { q with eot := f q.eot })) else some s
  if regWide n then s.writeDpart c (n - 0x100) v
  else
    match n with
    | 0x081 => trap (fun t => { t with tpc := x })
    | 0x086 => if bit x.toNat 0 && x != 0xFFFFFFFF then none else trap (fun t => { t with tvec := x })
    | 0x087 => s.writeTstat c x
    | 0x088 => queue (fun q => { q with fqlo := x })
    | 0x089 => queue (fun q => { q with fqhi := x &&& 0xFFF })
    | 0x08A =>
      let z := field x.toNat 4 0
      if !own then some s
      else if z < 4 || 16 < z then none else queue (fun q => { q with fqsize := BitVec.ofNat 32 z })
    | 0x08C => queue (fun q => { q with fqhead := x })
    | 0x104 => some (s.putCore c (fun k => { k with ishare := k.ishare.set 0 (x &&& 0x1F) }))
    | 0x105 => some (s.putCore c (fun k => { k with ishare := k.ishare.set 1 (x &&& 0x1F) }))
    | 0x106 => some (s.putCore c (fun k => { k with ishare := k.ishare.set 2 (x &&& 0x1F) }))
    | 0x107 => some (s.putCore c (fun k => { k with ishare := k.ishare.set 3 (x &&& 0x1F) }))
    | 0x108 => some (s.putCore c (fun k => { k with ckint := k.ckint.set 0 x }))
    | 0x109 => some (s.putCore c (fun k => { k with ckint := k.ckint.set 1 x }))
    | 0x10A => some (s.putCore c (fun k => { k with ckint := k.ckint.set 2 x }))
    | 0x10B => some (s.putCore c (fun k => { k with ckint := k.ckint.set 3 x }))
    | 0x200 => part (fun q => { q with pgtlo := x })
    | 0x201 => part (fun q => { q with pgthi := x &&& 0x1FFFFFF })
    | 0x202 => some { s with rotlo := x }
    | 0x203 => some { s with rothi := x &&& 0xFFF }
    | 0x205 => part (fun q => { q with pkey := x &&& 0xFFFF })
    | 0x206 => s.announce false x.toNat
    | 0x207 => s.announce true x.toNat
    | 0x208 => s.writePartcfg x
    | 0x209 => some { s with eotidx := x &&& 0xF }
    | 0x20A => eot (fun e => { e with v := bit x.toNat 31, ns := bit x.toNat 30, engines := x.setWidth 24 })
    | 0x20B => eot (fun e => e.setBudget x)
    | 0x20D => part (fun q => { q with wtlo := x })
    | 0x20E => part (fun q => { q with wthi := x &&& 0xFFF })
    | 0x20F => if 12 < field x.toNat 3 0 then none else part (fun q => { q with wtsize := x &&& 0xF })
    | 0x210 => part (fun q => { q with miglo := x })
    | 0x211 => part (fun q => { q with mighi := x })
    | 0x212 => part (fun q => q.writeMigctl x)
    | 0x402 => part (fun q => { q with detmode := x &&& 0x0FFFFF01 })
    | 0x407 => part (fun q => { q with ckintdef := x })
    | 0x408 => part (fun q => { q with fpmdef := x &&& 0x3FF })
    | _ => none

/-- The register a byte offset of a register page names (R285). -/
def pageReg (off : Nat) : Option Nat :=
  let n := off / 16
  if (0x080 ≤ n && n ≤ 0x08C) || (0x100 ≤ n && n ≤ 0x10B) || (0x400 ≤ n && n ≤ 0x407) then some n else none

end Sys2Proof.Machine
end

