-- ==== Sys2Proof/Machine/Access.lean ====
section
/-!
DEFINITION. One lane's access to memory and everything it needs: the atomic operations (R198, R199), L1 and the homes (R180,
R181, R236, R312), requests on their way to a vat (R313–R315), window-mapped pages and packets (R347–R355), the checks of
R184 and R185, and `access`, through which every memory instruction of a lane goes.
-/

namespace Sys2Proof.Machine

/-! L1 (R181, R235, R236). -/

/-- Fills a line that L1 does not hold whole: every byte of it that is not dirty comes from the home at one point, so that no clean
byte is older than the others (R149, R323). -/
def State.l1Fill (s : State) (c d line : Nat) : State :=
  let s1 := s.drainOwn c line
  let t := s1.l1Of c d
  if (List.range 128).all (fun i => (tget t (line + i)).isSome) then s1
  else
    let bytes := s1.homeRead line 128
    let fresh := (List.range 128).filter (fun i => match tget t (line + i) with | some (_, dirty) => !dirty | none => true)
    s1.setL1 c d (fresh.foldl (fun t i => tput t (line + i) (bytes.getD i 0, false)) t)

/-- A load through L1: a miss allocates the line (R181). -/
def State.l1Read (s : State) (c d pa n : Nat) : State × List Byte :=
  let s1 := s.l1Fill c d (pa / 128 * 128)
  let t := s1.l1Of c d
  (s1, (List.range n).map (fun i => match tget t (pa + i) with | some (b, _) => b | none => 0))

/-- A store into L1: its bytes are dirty (R181, R236); monitors of the line wake (R169). -/
def State.l1Write (s : State) (c d pa : Nat) (data : List Byte) : State :=
  let t := (data.zipIdx).foldl (fun (t : Tbl (Byte × Bool)) (x : Byte × Nat) => tput t (pa + x.2) (x.1, true)) (s.l1Of c d)
  (s.setL1 c d t).wakeLine pa

/-! Windows (R347–R355). -/

/-- Word i of entry w of a partition's window table, and whether it lies in a normal page of the partition (R347, R348). -/
def Part.winAt (q : Part) (w i : Nat) : Nat := q.wthi.toNat * 2 ^ 32 + q.wtlo.toNat + 32 * w + 4 * i

def State.winHeld (s : State) (p : Nat) (q : Part) (w i : Nat) : Bool :=
  s.keepsIn p (q.winAt w i)

/-- A word of the table, read with the partition's authority: one in no page of its own reads 0, so its entry is not valid
(R347, log 56). -/
def State.winWord (s : State) (p : Nat) (q : Part) (w i : Nat) : Nat :=
  if s.winHeld p q w i then wordOf (s.homeRead (q.winAt w i) 4) else 0

/-- Where a window-mapped page leads: window number, remote package, remote local address of the page; none where WINDOW is
raised (R349). -/
def State.windowOf (s : State) (part rot : Nat) : Option (Nat × Nat × Nat) :=
  match tget s.parts part with
  | some q =>
    let w := field rot 27 16
    let pg := field rot 15 4
    let w1 := s.winWord part q w 1
    let rpkg := field w1 28 16
    if 2 ^ q.wtsize.toNat ≤ w || !bit w1 31 || decide (field (s.winWord part q w 2) 11 0 < pg) || rpkg == s.pkg || q.pkey == 0 then none
    else some (w, rpkg, field w1 11 0 * 2 ^ 32 + field (s.winWord part q w 0) 31 16 * 65536 + 65536 * pg)
  | none => none

/-- The acknowledged or landed counter of a window (R348, R351). -/
def State.winCounter (s : State) (p : Nat) (q : Part) (w : Nat) (land : Bool) : Nat :=
  let i := if land then 6 else 4
  s.winWord p q w i + 2 ^ 32 * field (s.winWord p q w (i + 1)) 15 0

/-- Adds to a window counter at its home, modulo 2^48; lanes that wait on window counters look again (R348, R353). -/
def State.winAdd (s : State) (part w : Nat) (land : Bool) (n : Nat) : State :=
  match tget s.parts part with
  | some q =>
    let i := if land then 6 else 4
    if s.winHeld part q w i then
      let v := (s.winCounter part q w land + n) % 2 ^ 48
      (s.homeWrite (q.winAt w i) (bytesOf 4 v ++ bytesOf 2 (v / 2 ^ 32))).wake (fun x => x == .window)
    else s
  | none => s

/-- Bytes a packet's operation touches at its target. -/
def PktKind.size : PktKind → Nat
  | .write data => data.length
  | .read n .. => n
  | .atom op .. => op.size
  | .red op .. => op.size
  | .redTm _ => 16
  | .stst .. => 16
  | .ldat .. => 16

/-- Two packets share a 16-byte unit of one package (R355). -/
def Pkt.overlaps (a b : Pkt) : Bool :=
  a.rpkg == b.rpkg && decide (a.raddr / 16 ≤ (b.raddr + b.kind.size - 1) / 16) &&
    decide (b.raddr / 16 ≤ (a.raddr + a.kind.size - 1) / 16)

/-- A packet of class ORDERED holds later ones to its destination: it is out under the other bank, or a link failure has sent it
another way (R360, R361). -/
def Pkt.holdsOrdered (active : Bool) (q : Pkt) : Bool := q.cls == .ordered && q.sent && (q.bank != active || (q.again && !q.acked))

/-- A packet may leave: no earlier one of its core overlaps it, and no ORDERED one to its package holds it (R355, R360, R361). -/
def Pkt.mayLeave (active : Bool) (earlier : List Pkt) (p : Pkt) : Bool :=
  earlier.all (fun q => !(q.core == p.core && q.overlaps p) &&
    !(p.cls == .ordered && q.rpkg == p.rpkg && q.holdsOrdered active))

/-- The table of a routing bank (R359). -/
def Fabric.bank (f : Fabric) (b : Bool) : Tbl Word := if b then f.bank1 else f.bank0

/-- RTDATA of a destination in a bank; an entry never written is empty. -/
def Fabric.entry (f : Fabric) (b : Bool) (d : Nat) : Word := (tget (f.bank b) d).getD 0

/-- The ports of an entry that are up, in increasing order (R359, R361). -/
def Fabric.openPorts (f : Fabric) (b : Bool) (d : Nat) : List Nat :=
  (List.range 16).filter (fun i => bit (f.entry b d).toNat i && f.ports.getLsbD i)

/-- The port of a packet of class ORDERED: set bit k of its entry's mask, where k is the hash modulo the number of set bits; where that
port is down, routing skips it to the next set bit whose port is up (R357, R359, R361, log 31). -/
def Fabric.orderedPort (f : Fabric) (b : Bool) (d a : Nat) : Option Nat :=
  let l := (List.range 16).filter (fun i => bit (f.entry b d).toNat i)
  let k := Config.orderedHash d (a % 2 ^ 44 / 16) % l.length
  (l.drop k ++ l.take k).find? (fun i => f.ports.getLsbD i)

/-- The port by which a packet of the package leaves under a bank; none where no port of its entry is up (R359). -/
def Fabric.route (f : Fabric) (b : Bool) (p : Pkt) : Option Nat :=
  if p.cls = .ordered then f.orderedPort b p.rpkg p.raddr
  else
    let l := f.openPorts b p.rpkg
    l[Config.anyPort p.id % l.length]?

/-- A packet passed on holds later ones of class ORDERED to its destination (R361). -/
def Fabric.behind (f : Fabric) (d : Nat) : Bool := f.transit.any (fun h => h.again && h.dest == d)

/-- A packet leaves under the active bank, or is lost for want of a port (R359, R360). -/
def Fabric.send (f : Fabric) (p : Pkt) : Pkt :=
  let q := f.route f.active p
  { p with sent := true, bank := f.active, port := q, lost := q.isNone }

/-- Packets that may leave do (R355, R359–R361). -/
def sendReady (f : Fabric) : List Pkt → List Pkt → List Pkt
  | _, [] => []
  | earlier, p :: l =>
    let p' := if p.sent || !p.mayLeave f.active earlier || (p.cls == .ordered && f.behind p.rpkg) then p else f.send p
    p' :: sendReady f (earlier ++ [p']) l

/-- Sends what may leave. -/
def State.sendAll (s : State) : State := { s with pkts := sendReady s.fabric [] s.pkts }

/-- Puts a packet on its way (R356, R357). -/
def State.sendPkt (s : State) (p : Pkt) : State :=
  let (id, s1) := s.fresh
  { s1 with pkts := s1.pkts ++ [{ p with id := id, sent := false }] }.sendAll

/-- A packet has been acknowledged, answered or refused (R355); lanes that wait for it look again (R287, R354). -/
def State.dropPkt (s : State) (id : Nat) : State :=
  { s with pkts := s.pkts.filter (fun p => p.id != id) }.sendAll.wake (fun x => x == Wait.window)

/-- A lane has a window write that is not acknowledged: a store, an atomic or a reduction (R354, R363). -/
def State.winBusy (s : State) (c slot lane : Nat) : Bool :=
  s.pkts.any (fun p => p.core == c && p.slot == slot && p.lane == lane && p.cmd == none &&
    match p.kind with
    | .read .. | .ldat .. => false
    | _ => true)

/-! The checks of one access (R179, R184, R185, R285). -/

/-- What a page's type refuses (R184). -/
def typeRefuses (a : Acc) (type : Nat) : Option Cause :=
  if type = 0 then none
  else if a.only then some .rot
  else if type = 1 then (match a.kind with | .load _ => none | _ => some .rot)
  else if type = 2 then
    match a.kind with
    | .load _ | .store .. => none
    | .atom .. | .red .. | .redTm _ => if a.scope == .pod || a.scope == .system then none else some .window
    | .bsig _ | .probe _ => some .rot
  else some .rot

/-- What a store through a register page writes: a DPART takes 16 bytes, of which a store of 4 changes the low ones; any other
register takes the low 4 (R285, log 55). -/
def State.pageValue (s : State) (k n : Nat) (data : List Byte) : BitVec 128 :=
  if regWide n && data.length == 4 then
    ((s.coreReg k true 0 n >>> 32) <<< 32) ||| BitVec.ofNat 128 (wordOf data)
  else BitVec.ofNat 128 (wordOf data)

/-- A store to a register page. The per-partition registers ignore it there (R292). -/
def State.pageStore (s : State) (k n : Nat) (data : List Byte) : Option State :=
  if 0x088 ≤ n ∧ n ≤ 0x08C then some s
  else if regWritable n then s.writeCoreReg k true n (s.pageValue k n data)
  else none

/-- An access to a core's register page (R285). -/
def State.regPageRefuses (s : State) (c : Nat) (w : Warp) (a : Acc) (k off : Nat) : Option Cause :=
  if !isControl c || w.level != .supervisor || s.partOf k != some w.part then some .rot
  else if a.size != 4 && a.size != 16 then some .align
  else
    match pageReg off, a.kind with
    | some _, .load _ => if off % 16 != 0 then some .illegal else none
    | some n, .store data _ => if off % 16 != 0 || (s.pageStore k n data).isNone then some .illegal else none
    | none, .load _ | none, .store .. => some .illegal
    | _, _ => some .rot

/-- What a kind of access does to its page (R282). -/
def AccKind.reads : AccKind → Bool
  | .store .. => false
  | _ => true

def AccKind.writes : AccKind → Bool
  | .load _ | .probe _ => false
  | _ => true

/-- The translation request of an access. -/
def Acc.request (a : Acc) (w : Warp) : XReq := w.request a.kind.reads a.kind.writes false

/-- The checks of a translated access. An access of the hypervisor meets no test of the type but for a page without a frame of
its own (R184, R284, R349). -/
def State.pageCheck (s : State) (c : Nat) (w : Warp) (a : Acc) (pa rot : Nat) : Option Cause :=
  match regPage pa with
  | some k => s.regPageRefuses c w a k (pa % 65536)
  | none =>
    match if w.typeFree rot then none else typeRefuses a (rotType rot) with
    | some x => some x
    | none =>
      if s.lineRefuses (a.request w) pa then some .domain
      else if rotType rot == 2 && (s.windowOf w.part rot).isNone then some .window else none

/-- What a lane's access meets at issue: a missing translation, a fault, or nothing. -/
inductive Meets where
  | ok | miss | bad (c : Cause)
  deriving DecidableEq, Repr

/-- The check of one access at issue. -/
def State.meets (s : State) (c : Nat) (w : Warp) (a : Acc) : Meets :=
  if a.va % a.size != 0 then .bad .align
  else if 2 ^ 56 ≤ a.va then .bad .page
  else
    match s.xlate (a.request w) a.va with
    | .miss => .miss
    | .bad x => .bad x
    | .good pa rot => match s.pageCheck c w a pa rot with | some x => .bad x | none => .ok

/-- The rank of a cause that an access to memory or scratchpad raises: its DOMAIN comes after ROT (R165, R291). -/
def memRank (c : Cause) : Nat := if c == .domain then 11 else c.rank

/-- Of the lanes' faults, the one of highest rank, for the lowest lane (R291): cause, lane, address. -/
def firstFault : List (Cause × Nat × Nat) → Option (Cause × Nat × Nat)
  | [] => none
  | x :: l =>
    match firstFault l with
    | some y => if memRank y.1 < memRank x.1 then some y else some x
    | none => some x

/-! Performing one access. -/

/-- Bytes into registers from d on, zero-extended (R179). -/
def loadRegs (d : Nat) (b : List Byte) : List (Nat × Word) := (bytesWords b).zipIdx.map (fun x => (d + x.2, x.1))

/-- A request for a home. -/
def State.request (s : State) (c slot : Nat) (w : Warp) (opid : Option Nat) (a : Acc) (pa rot : Nat) (kind : ReqKind) : State :=
  let (id, s1) := s.fresh
  let r : Req :=
    { id := id, part := w.part, did := w.curDid, ns := rotNs rot, addr := pa, size := a.size, kind := kind,
      release := a.ord.releases, scope := a.scope, from_ := [(c, slot, a.lane)],
      counts := match opid with | some i => [(c, slot, i)] | none => [] }
  { s1 with reqs := s1.reqs ++ [r] }

/-- The key and the world of a partition, as its packets carry them (R356, R358). -/
def State.keyOf (s : State) (p : Nat) : Word := match tget s.parts p with | some q => q.pkey | none => 0
def State.nsOf (s : State) (p : Nat) : Bool := match tget s.parts p with | some q => q.ns | none => true

/-- A packet of a lane's access to a window-mapped page (R354). -/
def State.windowAccess (s : State) (c slot : Nat) (w : Warp) (opid : Nat) (a : Acc) (pa rot : Nat) : State :=
  match s.windowOf w.part rot with
  | some (win, rpkg, base) =>
    let pkt (kind : PktKind) (cls : Traffic) (op : Option Nat) (cnt : Option (Nat × Nat)) : Pkt :=
      { id := 0, op := op, part := w.part, core := c, slot := slot, lane := a.lane, cmd := none, w := win, rpkg := rpkg,
        raddr := base + pa % 65536, va := a.va, kind := kind, cls := cls, src := s.pkg, key := s.keyOf w.part, ns := s.nsOf w.part,
        bank := false, sent := false, lost := false, cnt := cnt }
    match a.kind with
    | .load _ => s.sendPkt (pkt (.read a.size a.dst a.ord.acquires) .adaptive (some opid) none)
    | .store data _ => (s.irrevocable w).sendPkt (pkt (.write data) .adaptive none none)
    | .atom op v v2 rm cn => (s.irrevocable w).sendPkt (pkt (.atom op v v2 rm cn a.dst a.ord.acquires) .ordered (some opid) none)
    | .red op v rm fz cn sat => (s.irrevocable w).sendPkt (pkt (.red op v rm fz cn sat) .ordered none (some (6, opid)))
    | .redTm ws => (s.irrevocable w).sendPkt (pkt (.redTm ws) .ordered none (some (6, opid)))
    | .bsig _ | .probe _ => s
  | none => s

/-- The home serves a load: .l2, an acquire past the block (R180, R181). -/
def Acc.atHome (a : Acc) : Bool :=
  match a.kind with
  | .load h => h == .l2 || (a.ord.acquires && a.scope.wide)
  | _ => false

/-- A line is the first to be evicted after an access with the .st hint (R181). -/
def State.markSoon (s : State) (c d line : Nat) (h : Hint) : State :=
  if h == .st then
    s.modCore c (fun k =>
      let t := (tget k.soon d).getD []
      if t.contains line then k else { k with soon := tput k.soon d (t ++ [line]) })
  else s

/-- One access is performed, for a warp of core c in slot `slot`; the answer of a read is given at once (R151, R155). A load or a
store acts on L1, and so does an atomic operation, a reduction or a BSIG of block scope; those of wider scope act at the home
(R193, R198, R199, R238, R313, log 57). An access of 16 bytes is performed whole (log 58). -/
def State.perform (s : State) (c slot : Nat) (w : Warp) (opid : Nat) (a : Acc) (pa rot : Nat) : State × Option LaneWrite :=
  let d := w.curSlot
  let line := pa / 128 * 128
  let read (s : State) (b : List Byte) : State × Option LaneWrite := (s, some ⟨a.lane, loadRegs a.dst b, 0⟩)
  match regPage pa with
  | some k =>
    let n := (pageReg (pa % 65536)).getD 0
    match a.kind with
    | .load _ => read s (bytesOf a.size (s.coreReg k true 0 n).toNat)
    | .store data _ => ((s.pageStore k n data).getD s, none)
    | _ => (s, none)
  | none =>
    if rotType rot == 2 then (s.windowAccess c slot w opid a pa rot, none)
    else
      match a.kind with
      | .load h =>
        if rotType rot == 1 then read s (s.stampedRead pa a.size)
        else if a.atHome then
          let s1 := s.toHome c d line
          read s1 (s1.homeRead pa a.size)
        else
          let (s1, b) := s.l1Read c d pa a.size
          read (s1.markSoon c d line h) b
      | .store data h =>
        let s1 := s.noteWrite c w pa rot a.scope
        if h == .l2 then ((s1.writeOut c d line).request c slot w none a pa rot (.write data), none)
        else ((s1.l1Write c d pa data).markSoon c d line h, none)
      | .atom op v v2 rm cn =>
        let s1 := s.noteWrite c w pa rot a.scope
        if a.scope.wide then
          let s2 := s1.toHome c d line
          let old := wordOf (s2.homeRead pa a.size)
          let o := atomNew op old v.toNat v2.toNat rm false cn false
          (s2.homeWrite pa (bytesOf a.size o.bits), some ⟨a.lane, loadRegs a.dst (bytesOf a.size old), o.flags⟩)
        else
          let (s2, b) := s1.l1Read c d pa a.size
          let o := atomNew op (wordOf b) v.toNat v2.toNat rm false cn false
          (s2.l1Write c d pa (bytesOf a.size o.bits), some ⟨a.lane, loadRegs a.dst b, o.flags⟩)
      | .red op v rm fz cn sat =>
        let s1 := s.noteWrite c w pa rot a.scope
        if a.scope.wide then ((s1.writeOut c d line).request c slot w (some opid) a pa rot (.red op v rm fz cn sat), none)
        else
          let (s2, b) := s1.l1Read c d pa a.size
          let o := atomNew op (wordOf b) v.toNat 0 rm fz cn sat
          let s3 := s2.l1Write c d pa (bytesOf a.size o.bits)
          (if o.flags = 0 then s3 else { s3 with flagMsgs := s3.flagMsgs ++ [(c, slot, a.lane, o.flags)] }, none)
      | .redTm ws =>
        let s1 := s.noteWrite c w pa rot a.scope
        if a.scope.wide then ((s1.writeOut c d line).request c slot w (some opid) a pa rot (.redTm ws), none)
        else
          let (s2, b) := s1.l1Read c d pa 16
          (s2.l1Write c d pa (wordsBytes (mergeWords (bytesWords b) ws)), none)
      | .bsig v =>
        let s1 := s.noteWrite c w pa rot a.scope
        if a.scope.wide then ((s1.writeOut c d line).request c slot w none a pa rot (.bsig v), none)
        else
          let (s2, b) := s1.l1Read c d pa 8
          (s2.l1Write c d pa (bytesOf 8 (bsigSum (wordOf b) v.toNat)), none)
      | .probe _ => (s, none)

/-- Performs accesses whose translation is known, in lane order (R183), gathering their results. -/
def State.performAll (s : State) (c slot : Nat) (w : Warp) (opid : Nat) : List Acc → State × List LaneWrite
  | [] => (s, [])
  | a :: l =>
    match s.xlate (a.request w) a.va with
    | .good pa rot =>
      let (s1, r) := s.perform c slot w opid a pa rot
      let (s2, rs) := s1.performAll c slot w opid l
      (s2, match r with | some x => x :: rs | none => rs)
    | _ => s.performAll c slot w opid l

/-- The order of an instruction's accesses: its release comes before them, its acquire after (R180). -/
def relScope (l : List Acc) : Option Scope := (l.find? (fun a => a.ord.releases)).map (·.scope)

def acqScope (l : List Acc) : Option Scope := (l.find? (fun a => a.ord.acquires)).map (·.scope)

/-- An access goes to a window-mapped page, as its walk tells. -/
def State.toWindow (s : State) (w : Warp) (a : Acc) : Bool :=
  match (s.xlateWalk (a.request w) a.va).1 with
  | .good _ rot => rotType rot == 2
  | _ => false

/-- The release before, and the acquire after, a set of accesses. A release store through a window performs the earlier local
accesses at package scope (R354). -/
def State.before (s : State) (c : Nat) (w : Warp) (l : List Acc) : State :=
  match relScope l with
  | some sc => s.release c w.curSlot (if l.any (s.toWindow w) then .package else sc)
  | none => s

def State.after (s : State) (c d : Nat) (l : List Acc) : State :=
  match acqScope l with | some sc => s.acquire c d sc | none => s

/-- Walks the translations of accesses at once, as a control core's precise accesses need (R299). -/
def State.walkAll (s : State) (w : Warp) (l : List Acc) : State := l.foldl (fun s a => (s.xlateWalk (a.request w) a.va).2) s

/-- The fault that the walk of an access will meet. -/
def State.walkCause (s : State) (c : Nat) (w : Warp) (a : Acc) : Option Cause :=
  match s.xlateWalk (a.request w) a.va with
  | (.bad x, _) => some x
  | (.good pa rot, s1) => s1.pageCheck c w a pa rot
  | (.miss, _) => none

/-- The faults that are held after acceptance (R185). -/
def Cause.isHeld (x : Cause) : Bool := x == .page || x == .rot || x == .domain

/-- A window write's release, or a release of pod or system scope, waits for the lane's earlier window writes (R354, R363). -/
def State.releaseWaits (s : State) (c slot : Nat) (w : Warp) (a : Acc) : Bool :=
  a.ord.releases && s.winBusy c slot a.lane && (a.scope.far || s.toWindow w a)

/-- What an instruction's accesses come to. -/
structure MemUse where
  L : BitVec 4
  /-- The engine counter the instruction counts in, and whether its own pending operation ends the count. -/
  cls : Option Nat
  res : ResKind
  /-- Destination registers. -/
  dest : List Nat
  /-- Results of lanes that need no access. -/
  given : List LaneWrite := []

/-- Marks the lanes that have loaded with an acquire past the block (R154). -/
def Thread.noteAcq (l : List Acc) (n : Nat) (t : Thread) : Thread :=
  if l.any (fun a => a.lane == n && a.ord.acquires && a.scope.wide && a.kind.reads) then { t with acq := true } else t

/-- Folds the stores of an instruction into its block's digest, once, at acceptance (R377). -/
def State.foldAll (s : State) (w : Warp) (l : List Acc) : State :=
  l.foldl (fun s a => match a.kind with | .store data _ => s.foldStore w.block a.va false data | _ => s) s

/-- The end of an accepted instruction: its result pends, counted, under its window (R33, R172). -/
def State.accepted (s : State) (m : MemUse) (id : Nat) (writes : List LaneWrite) (waits : Bool) (walk : List Acc) : State :=
  let pc := match s.active with | (_, t) :: _ => t.pc | [] => 0
  let p (k : PendKind) : Pending := ⟨id, s.cur.core, s.cur.slot, pc, m.cls, k⟩
  let s1 := if walk.isEmpty then
      (if waits then { s with pend := s.pend ++ [p (.wget writes)] }
      else if m.dest.isEmpty then s else { s with pend := s.pend ++ [p (.result m.res writes)] })
    else { s with pend := s.pend ++ [p (.access walk false m.res writes)] }
  (s1.openWindow m.L (if m.dest.isEmpty then [] else [id]) m.dest).finish

/-- The faults of an instruction's accesses, with their lanes and addresses. Where the translation is missing, those that R185
does not hold after acceptance, WINDOW among them, are precise; every fault of a control core is (R299, R349). -/
def State.accessBad (s : State) (w : Warp) (accs : List Acc) : List (Cause × Nat × Nat) :=
  accs.filterMap (fun a =>
    match s.meets s.cur.core w a with
    | .bad x => some (x, a.lane, a.va)
    | .miss =>
      match s.walkCause s.cur.core w a with
      | some x => if isControl s.cur.core || !x.isHeld then some (x, a.lane, a.va) else none
      | none => none
    | .ok => none)

/-- The lanes whose access an earlier operation of theirs holds back (R150–R155, R180, R185). -/
def State.accessHeld (s : State) (accs : List Acc) : List Nat :=
  (accs.filter (fun a => s.laneHeld s.cur.core s.cur.slot a.lane a.kind.writes a.ord.releases)).map (·.lane)

/-- Where a virtual address of a warp lies, if it is mapped. -/
def State.placeOf (s : State) (w : Warp) (va : Nat) : Option Nat :=
  match (s.xlateWalk (w.request false false false) va).1 with
  | .good pa _ => some pa
  | _ => none

/-- Two ranges of a warp's addresses share a byte. -/
def State.sharesByte (s : State) (w : Warp) (a n b m : Nat) : Bool :=
  let meet (x y : Nat) : Bool := decide (x < y + m) && decide (y < x + n)
  meet a b || (match s.placeOf w a, s.placeOf w b with | some x, some y => meet x y | _, _ => false)

/-- An earlier LDAT or STST of the lane that is not done names a record of which the access has a byte: it comes first (R150). -/
def State.stampHeld (s : State) (w : Warp) (a : Acc) : Bool :=
  let c := s.cur.core
  let slot := s.cur.slot
  let mine (va : Nat) : Bool := s.sharesByte w a.va a.size (va / 16 * 16) 16
  s.holds.any (fun h => h.core == c && h.slot == slot && h.lane == a.lane && mine h.va) ||
    s.pend.any (fun p => p.core == c && p.slot == slot &&
      match p.kind with | .ldat l _ _ => l.any (fun x => x.lane == a.lane && mine x.va) | _ => false)

/-- The lanes that wait for the deckle before their access. -/
def State.accessLate (s : State) (w : Warp) (accs : List Acc) : List Nat := (accs.filter (s.stampHeld w)).map (·.lane)

/-- Acceptance of an irrevocable access sets the marks, before its walk is done (R256). -/
def State.noteAccept (s : State) (w : Warp) (a : Acc) : State :=
  let shared := match (s.xlateWalk (a.request w) a.va).1 with
    | .good _ rot => rotSh rot || rotMb rot || rotType rot == 2
    | _ => false
  if a.kind.writes && (shared || a.scope == .system) then s.irrevocable w else s

/-- The lanes whose release waits for their window writes (R354, R363). -/
def State.accessBusy (s : State) (w : Warp) (accs : List Acc) : List Nat :=
  (accs.filter (fun a => s.releaseWaits s.cur.core s.cur.slot w a)).map (·.lane)

/-- Accesses without a fault are accepted: helper lanes' destinations are 0 (R59), stores are folded (R377), and either a
translation is missing and they wait for its walk (R185), or they are performed in lane order, the release before and the
acquire after (R180, R183). Where no live lane is active nothing is issued, and the window of the destinations opens (R33,
R59). -/
def State.accessGo (s : State) (w : Warp) (m : MemUse) (accs : List Acc) : State :=
  let c := s.cur.core
  let slot := s.cur.slot
  let (id, s1) := s.fresh
  let s2 := (s1.foldAll w accs).mapActive (fun n t =>
    if t.helper then t.setAll (m.dest.map (fun r => (r, 0))) else t.noteAcq accs n)
  if s.live.isEmpty then (s2.openWindow m.L [] m.dest).finish
  else
    let s3 := match m.cls with
      | some k => s2.countEngine k id
      | none => s2
    if accs.any (fun a => s.meets c w a == .miss) then
      (accs.foldl (fun s a => s.noteAccept w a) s3).accepted m id m.given false accs
    else
      let (s4, writes) := (s3.before c w accs).performAll c slot w id accs
      let s5 := s4.after c w.curSlot accs
      let waits := s5.pkts.any (fun p => p.op == some id)
      let s6 := s5.accepted m id (m.given ++ writes) waits []
      match m.cls with | some k => s6.settleCount c slot k id | none => s6

/-- THE WAY OF EVERY MEMORY INSTRUCTION OF A LANE after its decode checks (R180–R185): the accesses of its live lanes are
checked together, and either lanes wait, or a fault is taken, or they are accepted. -/
def State.access (s0 : State) (m : MemUse) (accs : List Acc) : Out :=
  match s0.warp? with
  | none => .fault .noWarp
  | some w =>
    let c := s0.cur.core
    let s := if isControl c then s0.walkAll w (accs.filter (fun a => a.va % a.size == 0 && decide (a.va < 2 ^ 56))) else s0
    let held := s.accessHeld accs
    let late := s.accessLate w accs
    if !held.isEmpty then .next (s.stall held .pend)
    else if !late.isEmpty then .next (s.stall late .time)
    else
      match firstFault (s.accessBad w accs) with
      | some (x, lane, va) => .next (s.memFault x lane (BitVec.ofNat 32 va) (BitVec.ofNat 32 (va / 2 ^ 32)))
      | none =>
        let busy := s.accessBusy w accs
        if !busy.isEmpty then .next (s.stall busy .window)
        else .next (s.accessGo w m accs)

/-! After acceptance: the walk, and held accesses (R185, R282). -/

/-- A fault found after acceptance is posted when it arises, and its warp suspended (R185, R296, R297). A warp suspended for
another fault stays so for both. -/
def State.holdFault (s : State) (c slot : Nat) (r : Report) : State :=
  match s.warpAt? c slot with
  | some w =>
    if w.susp.isNone then s.suspend c slot r 0
    else
      (s.postOrHold w.part (recordOf r w c slot w.curDid false)).modWarpAt c slot (fun w =>
        { w with pendingTraps := insertReport { r with posted := true } w.pendingTraps })
  | none => s

/-- The report of a fault after acceptance. -/
def lateReport (w : Warp) (x : Cause) (lane : Nat) (pc : Word) (va id : Nat) : Report :=
  ⟨x, false, true, !w.gates.isEmpty, 0, pc, lane, BitVec.ofNat 32 va, BitVec.ofNat 32 (va / 2 ^ 32), 0, 0, false, some id, 0,
    false⟩

/-- Walks and performs pending accesses one by one; those that fault stay (R185). -/
def State.walkPerform (s : State) (c slot : Nat) (w : Warp) (opid : Nat) :
    List Acc → State × List LaneWrite × List (Acc × Cause)
  | [] => (s, [], [])
  | a :: l =>
    let (x, s1) := s.xlateWalk (a.request w) a.va
    let check := match x with
      | .good pa rot => s1.pageCheck c w a pa rot
      | .bad y => some y
      | .miss => some .page
    match check, x with
    | none, .good pa rot =>
      let (s2, r) := s1.perform c slot w opid a pa rot
      let (s3, rs, bs) := s2.walkPerform c slot w opid l
      (s3, (match r with | some v => v :: rs | none => rs), bs)
    | some y, _ =>
      let (s3, rs, bs) := s1.walkPerform c slot w opid l
      (s3, rs, (a, y) :: bs)
    | none, _ => s1.walkPerform c slot w opid l

/-- The walk of an accepted instruction has finished: its accesses are performed, or held (R185). -/
def State.walkDone (s : State) (p : Pending) (w : Warp) (accs : List Acc) (res : ResKind) (old : List LaneWrite) : State :=
  let (s1, rs, bad) := (s.before p.core w accs).walkPerform p.core p.slot w p.id accs
  let s2 := s1.after p.core w.curSlot accs
  let writes := old ++ rs
  match firstFault (bad.map (fun b => (b.2, b.1.lane, b.1.va))) with
  | some (x, lane, va) =>
    (s2.setPend p.id (.access (bad.map (·.1)) true res writes)).holdFault p.core p.slot (lateReport w x lane p.pc va p.id)
  | none =>
    let s3 := if s2.pkts.any (fun k => k.op == some p.id) then s2.setPend p.id (.wget writes)
      else if accs.any (fun a => match a.kind with | .load _ | .atom .. => true | _ => false) || !writes.isEmpty then
        s2.setPend p.id (.result res writes)
      else
        let s3 := { s2 with pend := s2.pend.filter (fun x => x.id != p.id) }
        match p.cls with | some k => s3.settleCount p.core p.slot k p.id | none => s3
    s3.wakeWarp p.core p.slot (fun x => x == .pend)

end Sys2Proof.Machine
end

