-- ==== Sys2Proof/Machine/Scratch.lean ====
section
/-!
DEFINITION. Scratchpad accesses of a lane (R164–R168): LDS, STS and ATOMS (R188, R198), with the full/empty words on which they
wait; tile-layout records (R174–R177) with TLRW, LDX and STX (R189, R196).
-/

namespace Sys2Proof.Machine

/-! LDS, STS and ATOMS (R188, R198). -/

/-- A size in bytes (R27). -/
def szBytes : Sz → Nat
  | .b8 => 1 | .b16 => 2 | .b32 => 4 | .b64 => 8 | .b128 => 16

/-- The register group of a size: one, an even pair, an even four (R28, R179). -/
def Opd.ofSize (f : Fld) (r : Reg) (z : Sz) : Opd :=
  match z with
  | .b64 => .two f r
  | .b128 => ⟨f, r.toNat, 4, 2⟩
  | _ => .one f r

/-- Registers of a size. -/
def szRegs (z : Sz) : Nat := match z with | .b64 => 2 | .b128 => 4 | _ => 1

/-- The data a store of a size takes from registers (R179). -/
def Thread.storeData (t : Thread) (r : Nat) (z : Sz) : List Byte := (wordsBytes (t.group r (szRegs z))).take (szBytes z)

/-- Scope and order in force: MOD's, else the instruction's own (R186). -/
def Cur.scope (c : Cur) (own : Scope) : Scope := (c.mod.bind (·.scope)).getD own

def Cur.order (c : Cur) (own : Order) : Order := (c.mod.bind (·.order)).getD own

/-- The places the live lanes' words name, or the fault to take (R165, R291). -/
def State.spadLanes (s : State) (w : Warp) (word : Thread → Nat) (size : Nat) :
    Except (Cause × Nat × Nat) (List (Nat × Thread × SpRef)) :=
  let l := s.live.map (fun p => (p.1, p.2, s.spadRef w (word p.2) size))
  let bad := l.filterMap (fun x => match x.2.2 with
    | .error c => some (c, x.1, word x.2.1)
    | .ok _ => none)
  match firstFault bad with
  | some f => .error f
  | none => .ok (l.filterMap (fun x => match x.2.2 with
      | .ok r => some (x.1, x.2.1, r)
      | .error _ => none))

/-- Takes the fault of a scratchpad access: the address word under the aperture's high word (R165). -/
def State.spadFault (s : State) (f : Cause × Nat × Nat) : Out :=
  .next (s.memFault f.1 f.2.1 (BitVec.ofNat 32 f.2.2) (BitVec.ofNat 32 spadHigh))

/-- Lanes whose access an earlier operation holds back, or a waiting sync store to the same word (R150–R155, R180). -/
def State.spadHeld (s : State) (writes rel : Bool) (size : Nat) (l : List (Nat × Thread × SpRef)) : List Nat :=
  (l.filter (fun x => s.laneHeld s.cur.core s.cur.slot x.1 writes rel || s.wordHeld s.cur.core s.cur.slot x.1 x.2.2 size)).map
    (·.1)

/-- A scratchpad instruction: its lanes' places are checked, and its effect follows. `writes`: it writes its words. `own` is the
order in force. -/
def spad (u : Use) (writes : Bool) (own : Cur → Order) (a : Reg) (size : Nat)
    (body : State → Warp → List (Nat × Thread × SpRef) → Out) (s : State) : Out :=
  s.issue u (fun s =>
    match s.warp? with
    | none => .fault .noWarp
    | some w =>
      match s.spadLanes w (fun t => t.nat (s.reg .va a)) size with
      | .error f => s.spadFault f
      | .ok l =>
        let held := s.spadHeld writes (own s.cur).releases size l
        if held.isEmpty then body s w l else .next (s.stall held .pend))

/-- The orders MOD may give a scratchpad load, a store, an atomic (R186). -/
def loadOrder (o : Order) : Bool := o == .relaxed || o == .acquire
def storeOrder (o : Order) : Bool := o == .relaxed || o == .release
def spadScope (s : Scope) : Bool := s == .block || s == .cluster
def anyScope (s : Scope) : Bool := s != .time

def Use.lds (d : Opd) (a : Reg) : Use := { opds := [d, .one .va a], rep := true, order := loadOrder, scope := spadScope }
def Use.sts (d : List Opd) (a : Reg) : Use := { opds := d ++ [.one .va a], rep := true, order := storeOrder, scope := spadScope }

/-- The order of an access that implies none: MOD's, else relaxed. The acquire of LDS.sync and the release of STS.sync and STS.fill
are implied by the kind, and no MOD order, which stands for the ord field, takes them away (R186, R188, R237). -/
def plainOrder (c : Cur) : Order := c.order .relaxed
def impliedAcquire (_ : Cur) : Order := .acquire
def impliedRelease (_ : Cur) : Order := .release

/-- A scratchpad instruction's acquire, where its order `ord` has one, for the lanes that have taken a value, at its scope `scope` or
MOD's: the L1 action, and WFENCE will see it (R154, R180, R188). -/
def State.spAcquire (s : State) (w : Warp) (ord : Cur → Order) (scope : Scope) (lanes : List Nat) : State :=
  let sc := s.cur.scope scope
  if (ord s.cur).acquires && !lanes.isEmpty then
    let s1 := s.acquire s.cur.core w.curSlot sc
    if sc.wide then s1.mapActive (fun n t => if lanes.contains n then { t with acq := true } else t) else s1
  else s

/-- Its release (R180, R188). -/
def State.spRelease (s : State) (w : Warp) (ord : Cur → Order) (scope : Scope) : State :=
  if (ord s.cur).releases then s.release s.cur.core w.curSlot (s.cur.scope scope) else s

/-- Ends a scratchpad load: the results pend under the window of the lanes that do not wait in a queue; helper lanes'
destinations are 0 (R33, R47, R59). -/
def State.spResult (s : State) (L : BitVec 4) (res : ResKind) (dest : List Nat) (ws : List LaneWrite) (queued : List Nat) :
    State :=
  let s1 := s.mapActive (fun _ t => if t.helper then t.setAll (dest.map (fun r => (r, 0))) else t)
  let (id, s2) := s1.fresh
  let pc := match s.active with | (_, t) :: _ => t.pc | [] => 0
  let s3 := if ws.isEmpty then s1
    else { s2 with pend := s2.pend ++ [(⟨id, s.cur.core, s.cur.slot, pc, none, .result res ws⟩ : Pending)] }
  let ids := if ws.isEmpty then [] else [id]
  (s3.mapActive (fun n t => if queued.contains n then t else t.openWindow s.cur.last L.toNat false ids dest)).finish

/-- LDS (R167, R188). -/
def execLds (L : BitVec 4) (z : Sz) (a d : Reg) (s : State) : Out :=
  spad (Use.lds (.ofSize .vd d z) a) false plainOrder a (szBytes z) (fun s w l =>
    let r := s.reg .vd d
    let ws : List LaneWrite := l.map (fun x => ⟨x.1, loadRegs r (s.spRead x.2.2 (szBytes z)), 0⟩)
    .next ((s.spAcquire w plainOrder .block (l.map (·.1))).spResult L .load ((List.range (szRegs z)).map (r + ·)) ws [])) s

/-- LDS.peek: the word and its bit (R167). -/
def execLdsPeek (L : BitVec 4) (a d : Reg) (s : State) : Out :=
  spad (Use.lds (.two .vd d) a) false plainOrder a 4 (fun s w l =>
    let r := s.reg .vd d
    let ws : List LaneWrite := l.map (fun x =>
      ⟨x.1, loadRegs r (s.spRead x.2.2 4) ++ [(r + 1, if s.isFull x.2.2.block (x.2.2.off / 4) then 1 else 0)], 0⟩)
    .next ((s.spAcquire w plainOrder .block (l.map (·.1))).spResult L .load [r, r + 1] ws [])) s

/-- A lane with its word, as it waits in a queue. -/
def SyncLane.of (lane : Nat) (p : SpRef) (word : Nat) (value : Word) : SyncLane := ⟨lane, p.block, p.off / 4, word, value⟩

/-- Takes full words in lane order; lanes whose word is empty wait (R167). -/
def State.takeFull (s : State) (r : Nat) (word : Thread → Nat) :
    List (Nat × Thread × SpRef) → State × List LaneWrite × List SyncLane
  | [] => (s, [], [])
  | (n, t, p) :: l =>
    let i := p.off / 4
    if s.isFull p.block i then
      let x := BitVec.ofNat 32 (wordOf (s.spRead p 4))
      let (s1, ws, q) := ((s.setFull p.block i false).serveWord p.block i).takeFull r word l
      (s1, ⟨n, [(r, x)], 0⟩ :: ws, q)
    else
      let (s1, ws, q) := s.takeFull r word l
      (s1, ws, SyncLane.of n p (word t) 0 :: q)

/-- How a lane held at its instruction goes on. -/
def State.heldNext (s : State) (L : BitVec 4) (lanes : List Nat) : Option Held :=
  (s.active.find? (fun p => lanes.contains p.1)).map (fun p =>
    let t := p.2.advance s.cur
    ⟨t.pc, t.rem, s.cur.counts, s.cur.last, L.toNat⟩)

/-- Sync accesses wait in a queue. With lookahead the lanes go on under their window; otherwise, and inside a repeated unit, they
are held at the instruction, which they have not yet counted (R33, R35, R167, R407). -/
def State.queueSync (s : State) (L : BitVec 4) (lanes dest : List Nat) (kind : Option Held → PendKind) : State :=
  let hold := L = 0 || s.cur.rep.isSome
  let (id, s1) := s.fresh
  let next := if hold then s.heldNext L lanes else none
  let pc := match s.active with | (_, t) :: _ => t.pc | [] => 0
  let s2 := { s1 with pend := s1.pend ++ [(⟨id, s.cur.core, s.cur.slot, pc, none, kind next⟩ : Pending)] }
  s2.mapActive (fun n t =>
    if lanes.contains n then
      (if hold then { s.cur.uncount n t with wait := .sync } else t.openWindow s.cur.last L.toNat false [id] dest)
    else t)

/-- LDS.sync: waits until the word is full, takes it and leaves it empty; an acquire at its scope by each lane as it takes its
word (R167, R188). -/
def execLdsSync (L : BitVec 4) (a d : Reg) (s : State) : Out :=
  spad (Use.lds (.one .vd d) a) false impliedAcquire a 4 (fun s w l =>
    let r := s.reg .vd d
    let (s1, ws, q) := s.takeFull r (fun t => t.nat (s.reg .va a)) l
    let s2 := s1.spAcquire w impliedAcquire .block (ws.map (·.lane))
    let acq := some (s.cur.scope .block)
    let queued := q.map (·.lane)
    let s3 := if q.isEmpty then s2 else s2.queueSync L queued [r] (fun n => .ldsSync q r acq n)
    .next (s3.spResult L .load [r] ws queued)) s

/-- Writes lanes' words in lane order (R166), folding each into the digest (R377). -/
def State.storeLanes (s : State) (w : Warp) (f : Thread → List Byte) (word : Thread → Nat) (mark : Bool) :
    List (Nat × Thread × SpRef) → State
  | [] => s
  | (_, t, p) :: l =>
    let s1 := (s.foldStore w.block (word t) true (f t)).spWrite p (f t)
    let s2 := if mark then (s1.setFull p.block (p.off / 4) true).serveWord p.block (p.off / 4) else s1
    s2.storeLanes w f word mark l

/-- STS (R167, R188). -/
def execSts (_L : BitVec 4) (z : Sz) (a d : Reg) (s : State) : Out :=
  spad (Use.sts [.ofSize .vd d z] a) true plainOrder a (szBytes z) (fun s w l =>
    .next ((s.spRelease w plainOrder .block).storeLanes w (fun t => t.storeData (s.reg .vd d) z) (fun t => t.nat (s.reg .va a)) false
      l).finish) s

/-- STS.fill: writes the word and marks it full; a release at its scope (R167, R188). -/
def execStsFill (_L : BitVec 4) (a d : Reg) (s : State) : Out :=
  spad (Use.sts [.one .vd d] a) true impliedRelease a 4 (fun s w l =>
    .next ((s.spRelease w impliedRelease .block).storeLanes w (fun t => t.storeData (s.reg .vd d) .b32) (fun t => t.nat (s.reg .va a)) true
      l).finish) s

/-- STS.empty: marks the word empty (R167). -/
def execStsEmpty (_L : BitVec 4) (a : Reg) (s : State) : Out :=
  spad (Use.sts [] a) true plainOrder a 4 (fun s w l =>
    .next (l.foldl (fun s x => (s.setFull x.2.2.block (x.2.2.off / 4) false).serveWord x.2.2.block (x.2.2.off / 4))
      (s.spRelease w plainOrder .block)).finish) s

/-- Fills empty words in lane order, folding each store as it is performed; lanes whose word is full wait (R167, R377, R407). -/
def State.fillEmpty (s : State) (w : Warp) (f word : Thread → Nat) : List (Nat × Thread × SpRef) → State × List SyncLane
  | [] => (s, [])
  | (n, t, p) :: l =>
    let i := p.off / 4
    if s.isFull p.block i then
      let (s1, q) := s.fillEmpty w f word l
      (s1, SyncLane.of n p (word t) (BitVec.ofNat 32 (f t)) :: q)
    else
      let s0 := s.foldStore w.block (word t) true (bytesOf 4 (f t))
      (((s0.spWrite p (bytesOf 4 (f t))).setFull p.block i true).serveWord p.block i).fillEmpty w f word l

/-- STS.sync: waits until the word is empty, writes it and leaves it full; a release at its scope (R167, R188). -/
def execStsSync (L : BitVec 4) (a d : Reg) (s : State) : Out :=
  spad (Use.sts [.one .vd d] a) true impliedRelease a 4 (fun s w l =>
    let (s1, q) := (s.spRelease w impliedRelease .block).fillEmpty w (fun t => t.nat (s.reg .vd d)) (fun t => t.nat (s.reg .va a)) l
    let s2 := if q.isEmpty then s1 else s1.queueSync L (q.map (·.lane)) [] (fun n => .stsSync q n)
    .next s2.finish) s

/-- The floating-point operations of ATOM, ATOMS and RED. -/
def atomFp (o : AtomOp) : Bool :=
  match o with
  | .fadd | .fmin | .fmax | .dadd => true
  | _ => false

/-- The register group of an atomic's operand: a pair for CAS and for 64 bits (R198). -/
def Opd.atom (r : Reg) (o : AtomOp) : Opd := if o == .cas || o == .dadd then .two .vd r else .one .vd r

/-- The registers an atomic writes. -/
def atomDest (r : Nat) (o : AtomOp) : List Nat := if o == .dadd then [r, r + 1] else [r]

/-- The operand of an atomic. -/
def Thread.atomV (t : Thread) (r : Nat) (o : AtomOp) : DWord := if o == .dadd then t.pair r else (t.get r).setWidth 64

def Thread.atomV2 (t : Thread) (r : Nat) (o : AtomOp) : DWord := if o == .cas then (t.get (r + 1)).setWidth 64 else 0

/-- ATOMS applied in lane order (R183, R198). -/
def State.atomLanes (s : State) (r : Nat) (o : AtomOp) : List (Nat × Thread × SpRef) → State × List LaneWrite
  | [] => (s, [])
  | (n, t, p) :: l =>
    let e := fpEnv s.cur t
    let old := wordOf (s.spRead p o.size)
    let x := atomNew o old (t.atomV r o).toNat (t.atomV2 r o).toNat e.rm false e.cnan false
    let (s1, ws) := (s.spWrite p (bytesOf o.size x.bits)).atomLanes r o l
    (s1, ⟨n, loadRegs r (bytesOf o.size old), x.flags⟩ :: ws)

/-- ATOMS: at the bank of its word; the full/empty bit stays (R198). -/
def execAtoms (L : BitVec 4) (ar : Bool) (sc : BitVec 2) (o : AtomOp) (a d : Reg) (s : State) : Out :=
  let own (c : Cur) : Order := c.order (if ar then .acqRel else .relaxed)
  let sco : Scope := if sc = 0 then .block else .cluster
  let u : Use := { opds := [.atom d o, .one .va a], rep := true, order := fun _ => true, scope := spadScope, rm := atomFp o }
  spad u true own a o.size (fun s w l =>
    let r := s.reg .vd d
    let (s1, ws) := (s.spRelease w own sco).atomLanes r o l
    .next ((s1.spAcquire w own sco (l.map (·.1))).spResult L .atom (atomDest r o) ws [])) s

/-! Tile-layout records (R174–R177, R196). -/

/-- The check of a record slot (R174): REGRANGE at or beyond the declared count, DOMAIN for another domain slot. -/
def State.slotCheck (s : State) (w : Warp) (n : Nat) : Option Cause :=
  match tget s.blocks w.block with
  | some b => if b.recSlots.length ≤ n then some .regrange else if b.slot != w.curSlot then some .domain else none
  | none => some .regrange

/-- The core's record slot of a block's record n. -/
def Block.recAt (b : Block) (n : Nat) : Nat := b.recSlots.getD n 16

/-- The record a slot holds; one never written holds zero (R174). -/
def State.recordOf (s : State) (w : Warp) (n : Nat) : List Word :=
  match tget s.blocks w.block with
  | some b => (tget (s.core b.core).recs (b.recAt n)).getD (List.replicate 8 0)
  | none => List.replicate 8 0

/-- The record an engine command reads: the writes that a TFENCE of their warp has followed are seen, and those before them (R177,
log 53). -/
def State.recordSeen (s : State) (w : Warp) (n : Nat) : List Word :=
  match tget s.blocks w.block with
  | some b =>
    match tget (s.core b.core).recOld (b.recAt n) with
    | some x => x.1
    | none => s.recordOf w n
  | none => List.replicate 8 0

/-- A record is written; engine commands still read the old one (R177). -/
def Core.writeRec (k : Core) (slot n : Nat) (ws : List Word) : Core :=
  let old := (tget k.recs n).getD (List.replicate 8 0)
  let x := (tget k.recOld n).getD (old, [])
  { k with recs := tput k.recs n ws, recOld := tput k.recOld n (x.1, x.2 ++ [(slot, ws)]) }

/-- The last write of a warp slot in a list of writes, and those after it. -/
def lastWrite (slot : Nat) : List (Nat × List Word) → Option (List Word × List (Nat × List Word))
  | [] => none
  | x :: l =>
    match lastWrite slot l with
    | some r => some r
    | none => if x.1 = slot then some (x.2, l) else none

/-- TFENCE of a warp: its writes are seen by every engine command (R177, R197). -/
def Core.fenceRecs (k : Core) (slot : Nat) : Core :=
  { k with recOld := k.recOld.filterMap (fun (r : Nat × (List Word × List (Nat × List Word))) =>
      match lastWrite slot r.2.2 with
      | some (_, []) => none
      | some (ws, rest) => some (r.1, (ws, rest))
      | none => some r) }

/-- Where a coordinate lies (R176). -/
inductive Coord where
  | interior | strip | corner | outside
  deriving DecidableEq, Repr

/-- The kind of (i, j), with the halo bit of the instruction (R176, R189). -/
def Record.classify (r : Record) (halo : Bool) (i j : Int) : Coord :=
  let h : Int := if halo then r.h else 0
  let out (x n : Int) : Bool := decide (x < 0) || decide (n ≤ x)
  if i < -h || (r.H : Int) + h ≤ i || j < -h || (r.W : Int) + h ≤ j then .outside
  else
    match out i r.H, out j r.W with
    | false, false => .interior
    | true, true => .corner
    | _, _ => .strip

/-- The fill of an element outside (R176). -/
def Record.fillBytes (r : Record) : List Byte := (wordsBytes [r.fill, r.fill, r.fill, r.fill]).take r.esz

/-- The coordinates of a lane (R189). -/
def coords (x : Word) : Int × Int := (sextN (field x.toNat 31 16) 16, sextN (field x.toNat 15 0) 16)

/-- The registers of an element beyond vd. -/
def Record.extra (r : Record) (d : Nat) : List Nat :=
  if r.code = 3 then [d + 1] else if r.code = 4 then [d + 1, d + 2, d + 3] else []

/-- What a lane's element comes to. -/
inductive Elem where
  | acc (a : Acc)
  | pad (p : SpRef) (word : Nat)
  | fill
  | nothing
  | bad (c : Cause) (addr hi : Nat)
  deriving DecidableEq, Repr

/-- The element of one live lane (R189). -/
def State.elemOf (s : State) (w : Warp) (r : Record) (halo store : Bool) (lane : Nat) (x : Word) (data : List Byte) (d : Nat) : Elem :=
  let (i, j) := coords x
  match r.classify halo i j with
  | .outside => if store then .nothing else .fill
  | k =>
    if store && k != .interior then .bad .engine 0 0
    else
      let off := r.at_ i j
      if r.sp then
        let word := r.baselo + off
        match s.spadAt w r.baselo off r.esz with
        | .ok p => .pad p word
        | .error c => .bad c word spadHigh
      else
        let va := r.baselo + 2 ^ 32 * r.basehi + off
        .acc { lane := lane, va := va, size := r.esz, kind := if store then .store data .plain else .load .plain,
               ord := .relaxed, scope := .package, dst := d, only := true }

/-- The checks of a record instruction up to its coordinates: the slot, the record, the register (R174, R175, R189). -/
def State.recordCheck (s : State) (w : Warp) (n d : Nat) : Option Cause :=
  match s.slotCheck w n with
  | some c => some c
  | none =>
    let r := Record.ofWords (s.recordOf w n)
    if s.recordBad w.block r then some .format
    else if decide (3 ≤ r.code) && d % 2 == 1 then some .format
    else none

/-- The further registers of an LDX or STX element, as the record gives them. -/
def State.elemRegs (s : State) (n : Nat) (d : Reg) : List Nat :=
  match s.warp? with
  | some w =>
    if (s.slotCheck w n).isSome then []
    else
      let r := Record.ofWords (s.recordOf w n)
      if s.recordBad w.block r then [] else r.extra (s.reg .vd d)
  | none => []

/-- The elements of the live lanes: lane, the bytes a store takes from its registers, and what the element comes to (R189). -/
def State.elems (s : State) (w : Warp) (store halo : Bool) (n : Nat) (a d : Reg) : List (Nat × List Byte × Elem) :=
  let v := s.reg .vd d
  let r := Record.ofWords (s.recordOf w n)
  s.live.map (fun p =>
    let data := (wordsBytes (p.2.group v ((r.esz + 3) / 4))).take r.esz
    (p.1, data, s.elemOf w r halo store p.1 (p.2.get (s.reg .va a)) data v))

/-- The fault of elements: cause, lane and address words (R291). -/
def elemFault (l : List (Nat × List Byte × Elem)) : Option (Cause × Nat × Nat × Nat) :=
  let bad := l.filterMap (fun x => match x.2.2 with | .bad c lo hi => some (c, x.1, lo, hi) | _ => none)
  match firstFault (bad.map (fun b => (b.1, b.2.1, 0))) with
  | some (c, lane, _) =>
    let lohi := (((bad.find? (fun b => b.2.1 == lane)).map (fun b => b.2.2)).getD (0, 0))
    some (c, lane, lohi.1, lohi.2)
  | none => none

/-- The elements in memory. -/
def elemAccs (l : List (Nat × List Byte × Elem)) : List Acc :=
  l.filterMap (fun x => match x.2.2 with | .acc y => some y | _ => none)

/-- The results of elements outside and in scratchpad. -/
def State.elemGiven (s : State) (r : Record) (v : Nat) (l : List (Nat × List Byte × Elem)) : List LaneWrite :=
  l.filterMap (fun x => match x.2.2 with
    | .fill => some ⟨x.1, loadRegs v r.fillBytes, 0⟩
    | .pad p _ => some ⟨x.1, loadRegs v (s.spRead p r.esz), 0⟩
    | _ => none)

/-- Stores of elements in scratchpad, in lane order (R166). -/
def State.elemStores (s : State) (w : Warp) (l : List (Nat × List Byte × Elem)) : State :=
  l.foldl (fun s x => match x.2.2 with
    | .pad p word => (s.foldStore w.block word true x.2.1).spWrite p x.2.1
    | _ => s) s

/-- The lanes whose element in scratchpad a waiting sync store of theirs comes before (R150, R189). -/
def State.elemHeld (s : State) (size : Nat) (l : List (Nat × List Byte × Elem)) : List Nat :=
  (l.filter (fun x => match x.2.2 with | .pad p _ => s.wordHeld s.cur.core s.cur.slot x.1 p size | _ => false)).map (·.1)

/-- The decode checks of LDX and STX: class 2, and the further registers of the element (R189). -/
def elemUse (n : Nat) (a d : Reg) (s : State) : Use :=
  { opds := [.one .vd d, .one .va a], rep := true, cls := some 2, more := fun _ => s.elemRegs n d }

/-- LDX and STX after their decode checks. A bundle of helper lanes meets no check of the slot or the record (R59). -/
def elemIssue (store halo : Bool) (L : BitVec 4) (n : Nat) (a d : Reg) (s : State) : Out :=
  s.issue (elemUse n a d s) (fun s =>
    match s.warp? with
    | none => .fault .noWarp
    | some w =>
      let v := s.reg .vd d
      match if s.live.isEmpty then none else s.recordCheck w n v with
      | some c => .next (s.fault c s.firstLane (BitVec.ofNat 32 n) 0)
      | none =>
        let r := Record.ofWords (s.recordOf w n)
        let l := s.elems w store halo n a d
        match elemFault l with
        | some (c, lane, lo, hi) => .next (s.memFault c lane (BitVec.ofNat 32 lo) (BitVec.ofNat 32 hi))
        | none =>
          let held := s.heldLanes store false ++ s.elemHeld r.esz l
          if !held.isEmpty then .next (s.stall held .pend)
          else
          let s1 := if store then s.elemStores w l else s
          s1.access { L := L, cls := some 2, res := .load, dest := if store then [] else v :: r.extra v,
                      given := if store then [] else s.elemGiven r v l } (elemAccs l))

/-- LDX (R189). -/
def execLdx (h : Bool) (L sl : BitVec 4) (a d : Reg) (s : State) : Out := elemIssue false h L sl.toNat a d s

/-- STX (R189). -/
def execStx (h : Bool) (L sl : BitVec 4) (a d : Reg) (s : State) : Out := elemIssue true h L sl.toNat a d s

/-- The check of TLRW's slot. -/
def tlrw (n : BitVec 7) (d : Reg) (body : State → Warp → State) (s : State) : Out :=
  s.issue { opds := [⟨.vd, d.toNat, 8, 8⟩] } (fun s =>
    match s.warp? with
    | none => .fault .noWarp
    | some w =>
      match if s.live.isEmpty then none else s.slotCheck w n.toNat with
      | some c => .next (s.fault c s.firstLane (BitVec.ofNat 32 n.toNat) 0)
      | none => .next (body s w).finish)

/-- TLRW.rd: the record to every active live lane; 0 to a helper lane (R196). -/
def execTlrwRd (n : BitVec 7) (d : Reg) (s : State) : Out :=
  tlrw n d (fun s w =>
    let ws := s.recordOf w n.toNat
    s.mapActive (fun _ t => t.setGroup d.toNat (if t.helper then List.replicate 8 0 else ws))) s

/-- TLRW.wr: the record from the lowest-numbered active live lane, whole (R177, R196). -/
def execTlrwWr (n : BitVec 7) (d : Reg) (s : State) : Out :=
  tlrw n d (fun s w =>
    match s.live, tget s.blocks w.block with
    | (_, t) :: _, some b => s.modCore b.core (fun k => k.writeRec s.cur.slot (b.recAt n.toNat) (t.group d.toNat 8))
    | _, _ => s) s

/-- TFENCE: engine commands accepted from now on see every TLRW.wr the warp has issued (R177, R197). -/
def execTfence (s : State) : Out :=
  s.issue (Use.flow []) (fun s => .next (s.finish.modCore s.cur.core (fun k => k.fenceRecs s.cur.slot)))

end Sys2Proof.Machine
end

