-- ==== Sys2Proof/Machine/Copy.lean ====
section
/-!
DEFINITION. The copy engines (R278, R279, R365, R367–R375): CPY, CPYT and HALO as they are accepted, and the events in which an
engine takes a command, moves its units, runs out of budget, gives way, stops at a fault and completes.
-/

namespace Sys2Proof.Machine

/-! Acceptance (R365, R367, R369). -/

/-- An address pair of a command block: the scratchpad aperture or memory (R164, R367). -/
def sideOf (va : Nat) : CopySide := if va / 2 ^ 32 = spadHigh then .spad (BitVec.ofNat 32 va) 0 else .mem va

/-- The address a fault of a side reports (R290). -/
def CopySide.addr (c : CopySide) : Nat :=
  match c with
  | .mem va => va
  | .spad w o => spadHigh * 2 ^ 32 + (w.toNat + o) % 2 ^ 32

/-- What an address pair meets at acceptance: PAGE for bits 63:56, and the faults of an aperture word for the bytes that follow it
(R165, R179, R369). -/
def State.sideCheck (s : State) (w : Warp) (al n : Nat) (c : CopySide) : Option Cause :=
  match c with
  | .mem va => if 2 ^ 56 ≤ va then some .page else none
  | .spad word o => match s.spadRun w word.toNat o al n with | .ok _ => none | .error x => some x

/-- The partition of the issuing warp may issue copy commands (R278). -/
def State.mayCopy (s : State) (w : Warp) : Bool := match tget s.parts w.part with | some q => q.mayCopy | none => false

/-- The priority of a warp's commands (R370). -/
def State.copyPrio (s : State) (w : Warp) : Nat := if isControl s.cur.core then 8 else w.prio

/-- The memory pages that one side of a command reads or writes: an address in each. -/
def pagesOf (run : Nat × Nat) : List Nat :=
  (List.range ((run.1 + run.2 - 1) / 65536 + 1 - run.1 / 65536)).map (fun i => max run.1 (65536 * (run.1 / 65536 + i)))

/-- The rows of a record's tile in memory. -/
def Record.rows (r : Record) : List (Nat × Nat) :=
  if r.sp then [] else (List.range r.H).map (fun (i : Nat) => (r.baselo + 2 ^ 32 * r.basehi + r.at_ i 0, r.W * r.esz))

/-- The runs of memory that one side of a command covers, as start and length (R176, R367). -/
def CopyKind.runs (k : CopyKind) (write : Bool) : List (Nat × Nat) :=
  let dense (va stride : Nat) (r : Record) : List (Nat × Nat) := (List.range r.H).map (fun i => (va + i * stride, r.W * r.esz))
  match k with
  | .cpy src dst n => match if write then dst else src with | .mem va => [(va, n)] | .spad .. => []
  | .tileIn va stride rec_ => let r := Record.ofWords rec_; if write then r.rows else dense va stride r
  | .tileOut va stride rec_ => let r := Record.ofWords rec_; if write then dense va stride r else r.rows
  | .halo rec_ => if write then [] else (Record.ofWords rec_).rows

/-- A page that one side of a command covers has an entry that satisfies a test. -/
def State.sidePages (s : State) (c : CopyCmd) (w : Warp) (write : Bool) (p : Nat → Bool) : Bool :=
  ((c.kind.runs write).flatMap pagesOf).any (fun va =>
    match (s.copyPlace c w (.mem va) 1 1 write).1 with
    | .ok (.mem _ rot) => p rot
    | _ => false)

/-- The page of a command's completion word is shared or a mailbox page. -/
def State.doneShared (s : State) (c : CopyCmd) (w : Warp) : Bool :=
  match c.done with
  | some (.mem va) =>
    (match (s.copyPlace c w (.mem va) 4 4 true).1 with | .ok (.mem _ rot) => rotSh rot || rotMb rot | _ => false)
  | _ => false

/-- Queues a command of class `cls` (R172, R369). One that writes a window-mapped page, a shared page or a mailbox, be it with its
completion word, sets the marks at its acceptance (R256). -/
def State.acceptCopy (s : State) (w : Warp) (lane : Nat) (cls : Nat) (kind : CopyKind) (value : Word) (done : Option CopySide) :
    State :=
  let (id, s1) := s.fresh
  let pc := match tget w.threads lane with | some t => t.pc | none => 0
  let cmd : CopyCmd :=
    { id := id, part := w.part, core := s.cur.core, slot := s.cur.slot, lane := lane, pc := pc, block := w.block,
      did := w.curDid, prio := s.copyPrio w, kind := kind, value := value, done := done, engine := none, units := 0, buf := [],
      stopped := false }
  let lasting := s.sidePages cmd w true (fun rot => rotType rot == 2 || rotSh rot || rotMb rot) || s.doneShared cmd w
  let s2 := if lasting then s1.irrevocable w else s1
  ({ s2 with copies := s2.copies ++ [cmd] }.countEngine cls id).finish

/-- The first failing check of a list, with the address it reports. -/
def firstCheck : List (Option Cause × Nat) → Option (Cause × Nat)
  | [] => none
  | (some c, a) :: _ => some (c, a)
  | (none, _) :: l => firstCheck l

/-- A command instruction: the values of the lowest-numbered active live lane give checks in order and the command; a helper
bundle issues nothing (R59, R369). `rel`: it is a release at cluster scope (R317). -/
def copyIssue (opds : List Opd) (cls : Nat) (rel : Bool)
    (body : State → Warp → Thread → List (Option Cause × Nat) × CopyKind × Word × Option CopySide) (s : State) : Out :=
  s.issue { opds := opds } (fun s =>
    match s.warp?, s.live with
    | some w, (lane, t) :: _ =>
      let (checks, kind, value, done) := body s w t
      match firstCheck checks with
      | some (c, va) => .next (s.fault c lane (BitVec.ofNat 32 va) (BitVec.ofNat 32 (va / 2 ^ 32)))
      | none =>
        let held := if rel then s.heldLanes true true else []
        if !held.isEmpty then .next (s.stallAll .pend)
        else if 63 ≤ w.cnt cls then .next (s.stallAll .count)
        else
          let s1 := if rel then s.release s.cur.core w.curSlot .cluster else s
          .next (s1.acceptCopy w lane cls kind value done)
    | some _, [] => .next s.finish
    | none, _ => .fault .noWarp)

/-- A condition as a check. -/
def chk (b : Bool) (c : Cause) : Option Cause := if b then some c else none

/-- The completion-word address of a command block, or none (R367). -/
def doneOf (va : Nat) : Option CopySide := if va = 0 then none else some (sideOf va)

/-- CPY (R367, R369, R370). -/
def execCpy (_L : BitVec 4) (a d : Reg) (s : State) : Out :=
  copyIssue [.one .vd d, ⟨.va, a.toNat, 8, 8⟩] 0 false (fun s w t =>
    let b := a.toNat
    let src := sideOf (t.nat64 b)
    let dst := sideOf (t.nat64 (b + 2))
    let n := t.nat (b + 4)
    let done := t.nat64 (b + 6)
    ([(chk (t.nat (b + 5) != 0 || n == 0) .engine, 0), (chk (!s.mayCopy w) .engine, 0),
        (s.sideCheck w 1 n src, src.addr), (s.sideCheck w 1 n dst, dst.addr),
        ((doneOf done).bind (s.sideCheck w 4 4), done), (chk (done % 4 != 0) .align, done)],
      .cpy src dst n, t.get d.toNat, doneOf done)) s

/-- The checks of CPYT's command block (R367, R369). -/
def State.cpytChecks (s : State) (w : Warp) (t : Thread) (b : Nat) : List (Option Cause × Nat) :=
  let va := t.nat64 b
  let stride := t.nat (b + 2)
  let word := t.nat (b + 3)
  let slot := field word 3 0
  let done := t.nat64 (b + 6)
  let r := Record.ofWords (s.recordSeen w slot)
  [(chk (word / 16 != 0 || t.nat (b + 4) != 0 || t.nat (b + 5) != 0) .engine, 0), (chk (!s.mayCopy w) .engine, 0),
    (s.slotCheck w slot, slot), (chk (s.recordBad w.block r) .format, 0), (s.sideCheck w 1 1 (.mem va), va),
    ((doneOf done).bind (s.sideCheck w 4 4), done), (chk (done % 4 != 0) .align, done),
    (chk (va % r.esz != 0 || stride % r.esz != 0) .align, va)]

/-- CPYT.in: memory to the record's tile (R367, R369, R370). -/
def execCpytIn (_L : BitVec 4) (a d : Reg) (s : State) : Out :=
  copyIssue [.one .vd d, ⟨.va, a.toNat, 8, 8⟩] 0 false (fun s w t =>
    let b := a.toNat
    (s.cpytChecks w t b, .tileIn (t.nat64 b) (t.nat (b + 2)) (s.recordSeen w (field (t.nat (b + 3)) 3 0)), t.get d.toNat,
      doneOf (t.nat64 (b + 6)))) s

/-- CPYT.out: the record's tile to memory (R367, R369, R370). -/
def execCpytOut (_L : BitVec 4) (a d : Reg) (s : State) : Out :=
  copyIssue [.one .vd d, ⟨.va, a.toNat, 8, 8⟩] 0 false (fun s w t =>
    let b := a.toNat
    (s.cpytChecks w t b, .tileOut (t.nat64 b) (t.nat (b + 2)) (s.recordSeen w (field (t.nat (b + 3)) 3 0)), t.get d.toNat,
      doneOf (t.nat64 (b + 6)))) s

/-- HALO: a push of a record's strips, after a release at cluster scope (R317, R365). -/
def execHalo (_L : BitVec 4) (a d : Reg) (s : State) : Out :=
  copyIssue [.one .vd d, .one .va a] 4 true (fun s w t =>
    let x := t.nat a.toNat
    let slot := field x 3 0
    let rec_ := s.recordSeen w slot
    ([(chk (x / 16 != 0) .engine, 0), (s.slotCheck w slot, slot), (chk (s.recordBad w.block (Record.ofWords rec_)) .format, 0),
        (chk (!s.mayCopy w) .engine, 0)],
      .halo rec_, t.get d.toNat, none)) s

/-! The transfer (R370, R371). -/

/-- The counter class of a command (R373). -/
def CopyCmd.cls (c : CopyCmd) : Nat := match c.kind with | .halo _ => 4 | _ => 0

/-- A command changes. -/
def State.modCopy (s : State) (id : Nat) (f : CopyCmd → CopyCmd) : State :=
  { s with copies := s.copies.map (fun (c : CopyCmd) => if c.id = id then f c else c) }

/-- Both sides of a command lie in windows (R371). -/
def State.bothWindows (s : State) (c : CopyCmd) (w : Warp) : Bool :=
  s.sidePages c w true (fun rot => rotType rot == 2) && s.sidePages c w false (fun rot => rotType rot == 2)

/-- What R371 answers for a side of a piece: its place, or the cause it raises. `both`: the command has windows on both sides. -/
def State.sidePlace (s : State) (c : CopyCmd) (w : Warp) (both write : Bool) (p : Piece) (side : CopySide) :
    Except Cause Place × State :=
  match s.copyPlace c w side (c.kind.align p) p.len write with
  | (.ok (.mem pa rot), s1) =>
    (match rotType rot with
      | 0 => .ok (.mem pa rot)
      | 1 => if write then .error .rot else .ok (.mem pa rot)
      | 2 => if both then .error .engine
        else if (s1.windowOf c.part rot).isNone then .error .window else .ok (.mem pa rot)
      | _ => .error .rot, s1)
  | x => x

/-- The first cause of a side of pieces, with its address. -/
def State.sideFault (s : State) (c : CopyCmd) (w : Warp) (both write : Bool) : List Piece → Option (Cause × Nat)
  | [] => none
  | p :: l =>
    match if write then some p.dst else p.src with
    | some x =>
      (match (s.sidePlace c w both write p x).1 with
        | .error e => some (e, x.addr)
        | .ok _ => s.sideFault c w both write l)
    | none => s.sideFault c w both write l

/-- The first cause that unit u raises, with its address: at a source that has still to be read, or at a destination. -/
def State.unitFault (s : State) (c : CopyCmd) (w : Warp) (both : Bool) (u : Nat) : Option (Cause × Nat) :=
  (s.sideFault c w both false ((c.needs u).filter (fun p => (tget c.buf p.off).isNone))).or (s.sideFault c w both true (c.unit u))

/-- A window packet of a command, class ADAPTIVE (R371). -/
def State.copyPkt (s : State) (c : CopyCmd) (pa rot va : Nat) (kind : PktKind) : State :=
  match s.windowOf c.part rot with
  | some (win, rpkg, base) =>
    s.sendPkt {
      id := 0, op := none, part := c.part, core := c.core, slot := c.slot, lane := c.lane, cmd := some c.id,
      w := win, rpkg := rpkg, raddr := base + pa % 65536, va := va, kind := kind, cls := .adaptive,
      src := s.pkg, key := s.keyOf c.part, ns := s.nsOf c.part, bank := false, sent := false, lost := false, cnt := none }
  | none => s

/-- A read of the command is on its way for an offset. -/
def State.copyAsked (s : State) (id off : Nat) : Bool :=
  s.pkts.any (fun p => p.cmd == some id && (match p.kind with | .read _ o _ => o == off | _ => false))

/-- Reads the source lines that can be read and have not been: at homes, banks and, as newest versions, at stamped records; through a
window a request leaves (R340, R370, R371). -/
def State.captureSrc (s : State) (id : Nat) (w : Warp) (both : Bool) : List Piece → State
  | [] => s
  | p :: l =>
    let s1 := match s.copies.find? (fun c => c.id == id) with
      | some c =>
        if (tget c.buf p.off).isSome || s.copyAsked id p.off then s
        else
          let keep (s : State) (b : List Byte) : State := s.modCopy id (fun c => { c with buf := tput c.buf p.off b })
          match p.src with
          | none => s
          | some x =>
            match s.sidePlace c w both false p x with
            | (.ok (.pad r), s1) => keep s1 (s1.spRead r p.len)
            | (.ok (.mem pa rot), s1) =>
              (match rotType rot with
                | 0 => keep s1 (s1.homeRead pa p.len)
                | 1 => keep s1 (s1.stampedRead pa p.len)
                | _ => s1.copyPkt c pa rot x.addr (.read p.len p.off false))
            | (.error _, s1) => s1
      | none => s
    s1.captureSrc id w both l

/-- A word in scratchpad is written, becomes full, and serves its waiters (R167, R372). -/
def State.fillWord (s : State) (r : SpRef) (v : Word) : State :=
  ((s.spWrite r (bytesOf 4 v.toNat)).setFull r.block (r.off / 4) true).serveWord r.block (r.off / 4)

/-- Writes the pieces of a unit (R317, R371). -/
def State.writePieces (s : State) (c : CopyCmd) (w : Warp) (both : Bool) : List Piece → State
  | [] => s
  | p :: l =>
    let s1 := match c.got p, s.sidePlace c w both true p p.dst with
      | none, (.ok (.pad r), s1) => if p.src.isNone then s1.fillWord r c.value else s1
      | some data, (.ok (.pad r), s1) => s1.spWrite r data
      | some data, (.ok (.mem pa rot), s1) =>
        if rotType rot == 2 then (s1.irrevocable { w with curDid := c.did }).copyPkt c pa rot p.dst.addr (.write data)
        else (s1.noteWrite c.core { w with curDid := c.did } pa rot .package).homeWrite pa data
      | _, (_, s1) => s1
    s1.writePieces c w both l

/-- An earlier push of the same block is not complete, so a push waits for it (R318). -/
def State.pushBlocked (s : State) (c : CopyCmd) : Bool :=
  c.cls == 4 && s.copies.any (fun x => x.cls == 4 && x.block == c.block && decide (x.id < c.id))

/-- A partition's balance, in L2 clocks (R279). -/
def State.balance (s : State) (part : Nat) : Int := match tget s.parts part with | some q => q.eot.balance | none => 0

/-- An engine charges its owner's balance for its clocks (R279). -/
def State.chargeEngine (s : State) (part clocks : Nat) : State :=
  s.modPart part (fun q => { q with eot := { q.eot with balance := q.eot.balance - (clocks : Int) } })

/-- The clocks a unit takes: those given, and not fewer than one for 512 bytes (R373). -/
def CopyCmd.unitClocks (c : CopyCmd) (clocks : Nat) : Nat := max clocks ((c.from_ (c.units + 1) - c.from_ c.units + 511) / 512)

/-- Moves the next unit of a command, if its owner has a balance above 0, nothing stops it and its source bytes are there, and charges
it (R279, R373). -/
def State.copyUnit (s : State) (id clocks : Nat) : Option State :=
  match s.copies.find? (fun c => c.id == id) with
  | some c =>
    match s.warpAt? c.core c.slot with
    | some w =>
      let both := s.bothWindows c w
      if c.unitCount ≤ c.units || decide (s.balance c.part ≤ 0) || s.pushBlocked c || (s.unitFault c w both c.units).isSome then none
      else
        let s1 := s.captureSrc id w both (c.needs c.units)
        match s1.copies.find? (fun c => c.id == id) with
        | some c1 =>
          if (c1.needs c1.units).all (fun p => (tget c1.buf p.off).isSome) then
            some (((s1.writePieces c1 w both (c1.unit c1.units)).modCopy id (fun c => { c with
              units := c.units + 1, buf := c.buf.filter (fun x => decide (c.from_ (c.units + 1) < x.1 + x.2.length)) })).chargeEngine
                c.part (c.unitClocks clocks))
          else none
        | none => none
    | none => none
  | none => none

/-- Moves n units of the same number of clocks, one after another. -/
def State.copyUnits (s : State) (id clocks : Nat) : Nat → Option State
  | 0 => some s
  | n + 1 => (s.copyUnit id clocks).bind (fun s => s.copyUnits id clocks n)

/-! Engines and budget (R279, R373). -/

/-- An engine may serve a partition (R278). -/
def State.engineFor (s : State) (part e : Nat) : Bool :=
  match tget s.parts part with | some q => q.mayCopy && q.eot.engines.getLsbD e | none => false

/-- The commands of a partition that wait for an engine. -/
def State.waitingCopies (s : State) (part : Nat) : List CopyCmd :=
  s.copies.filter (fun c => c.part == part && c.engine.isNone && !c.stopped && !s.pushBlocked c)

/-- The first in the queue's order: by priority, then by acceptance (R373). -/
def headCopy : List CopyCmd → Option CopyCmd
  | [] => none
  | c :: l =>
    match headCopy l with
    | some x => if c.prio < x.prio then some x else some c
    | none => some c

/-- The command an engine serves. -/
def State.servedBy (s : State) (e : Nat) : Option CopyCmd := s.copies.find? (fun c => c.engine == some e)

/-- An engine takes a command: it goes on from the first unit not finished, and reads what sources it can (R370, R373). -/
def State.takeCopy (s : State) (e : Nat) (c : CopyCmd) : State :=
  let s1 := s.modCopy c.id (fun c => { c with engine := some e })
  match s1.warpAt? c.core c.slot with
  | some w => s1.captureSrc c.id w (s1.bothWindows c w) (c.kind.chunks (c.from_ c.units) c.kind.total)
  | none => s1

/-- COPY_ENGINE_START: a free engine takes the first command of a queue whose owner has a balance above 0. A busy engine goes on
with its command by some units, of so many clocks each (R373). -/
def execCopyEngineStart (s : State) : Out :=
  match s.servedBy s.ev.engine with
  | some c =>
    match s.copyUnits c.id s.ev.clocks s.ev.units with
    | some s1 => .next s1
    | none => .fault .noSuchEvent
  | none =>
    match headCopy (s.waitingCopies s.ev.part) with
    | some c =>
      if s.engineFor c.part s.ev.engine && decide (0 < s.balance c.part) then .next (s.takeCopy s.ev.engine c)
      else .fault .noSuchEvent
    | none => .fault .noSuchEvent

/-- An engine finishes units of its command and gives it back to the queue. -/
def State.putBack (s : State) (c : CopyCmd) (units clocks : Nat) : Option State :=
  match s.copyUnits c.id clocks units with
  | some s1 => if c.units + units < c.unitCount then some (s1.modCopy c.id (fun c => { c with engine := none })) else none
  | none => none

/-- BUDGET_SUSPEND: the balance is 0 or below; at the end of the unit the command goes back and the engine is free (R373). -/
def execBudgetSuspend (s : State) : Out :=
  match s.servedBy s.ev.engine with
  | some c =>
    match s.putBack c s.ev.units s.ev.clocks with
    | some s1 => if s1.balance c.part ≤ 0 then .next s1 else .fault .noSuchEvent
    | none => .fault .noSuchEvent
  | none => .fault .noSuchEvent

/-- The command of lowest priority, the latest accepted among equals (R373). -/
def lowestCopy : List CopyCmd → Option CopyCmd
  | [] => none
  | c :: l =>
    match lowestCopy l with
    | some x => if x.prio ≤ c.prio then some x else some c
    | none => some c

/-- The command a waiting command of a partition may displace: every engine of its mask serves one of lower priority, and this is
the lowest of them (R373). -/
def State.displaced (s : State) (x : CopyCmd) : Option CopyCmd :=
  let engines := (List.range 24).filter (s.engineFor x.part)
  let served := s.copies.filter (fun c => match c.engine with | some e => engines.contains e | none => false)
  if engines.all (fun e => served.any (fun c => c.engine == some e && decide (c.prio < x.prio))) then lowestCopy served else none

/-- PRIORITY_TAKEOVER: at the end of a unit the lowest command gives its engine to a waiting one of higher priority (R373). -/
def execPriorityTakeover (s : State) : Out :=
  match s.servedBy s.ev.engine, headCopy (s.waitingCopies s.ev.part) with
  | some c, some x =>
    if (s.displaced x).map (·.id) == some c.id && decide (0 < s.balance x.part) then
      match s.putBack c s.ev.units s.ev.clocks with
      | some s1 => .next (s1.takeCopy s.ev.engine x)
      | none => .fault .noSuchEvent
    else .fault .noSuchEvent
  | _, _ => .fault .noSuchEvent

/-- The balance after a refill (R279). -/
def Eot.refill (e : Eot) : Eot :=
  let b : Int := (min e.budget 24000 * 1300 : Nat)
  { e with balance := min (e.balance + b) b }

/-- The refill of a multiple of 1,000,000 ticks has not taken place (R279). -/
def State.refillDue (s : State) : Bool := s.deckle.tick % 1000000 == 0 && s.deckle.tick != s.refilled

/-- Every balance grows by its budget, up to it (R279). -/
def State.refill (s : State) : State :=
  { s with
    parts := s.parts.map (fun (p : Nat × Part) => (p.1, { p.2 with eot := p.2.eot.refill }))
    refilled := s.deckle.tick }

/-- BUDGET_REFILL: the refill at a multiple of 1,000,000 ticks, before the next tick (R279). -/
def execBudgetRefill (s : State) : Out := if s.refillDue then .next s.refill else .fault .noSuchEvent

/-! Completion and faults (R372, R374). -/

/-- The fault of a completion word's address, checked at the end of the command: it lies in a normal page or in scratchpad
(R372). -/
def State.doneFault (s : State) (c : CopyCmd) (w : Warp) : Option (Cause × Nat) :=
  c.done.bind (fun d =>
    match (s.copyPlace c w d 4 4 true).1 with
    | .error e => some (e, d.addr)
    | .ok (.mem _ rot) => if rotType rot == 0 then none else some (.rot, d.addr)
    | .ok (.pad _) => none)

/-- Writes the completion value (R372). -/
def State.writeDone (s : State) (c : CopyCmd) (w : Warp) : State :=
  match c.done with
  | some d =>
    match s.copyPlace c w d 4 4 true with
    | (.ok (.pad r), s1) => s1.fillWord r c.value
    | (.ok (.mem pa rot), s1) => (s1.noteWrite c.core { w with curDid := c.did } pa rot .package).homeWrite pa (bytesOf 4 c.value.toNat)
    | (.error _, s1) => s1
  | none => s

/-- The units of a command are finished and its window accesses acknowledged. -/
def State.copyDone (s : State) (id : Nat) : Bool :=
  match s.copies.find? (fun c => c.id == id) with
  | some c => decide (c.unitCount ≤ c.units) && !s.pkts.any (fun p => p.cmd == some id)
  | none => false

/-- COPY_COMPLETE: the last units are written while the balance lasts, then the completion word, and then the counter falls (R172, R318,
R372, R373). -/
def execCopyComplete (s : State) : Out :=
  match s.copies.find? (fun c => c.id == s.ev.id) with
  | some c =>
    match s.warpAt? c.core c.slot, s.copyUnits c.id s.ev.clocks (c.unitCount - c.units) with
    | some w, some s1 =>
      if c.engine.isNone || !s1.copyDone c.id || (s1.doneFault c w).isSome || s1.pushBlocked c then .fault .noSuchEvent
      else
        let s2 := s1.writeDone c w
        .next ({ s2 with copies := s2.copies.filter (fun x => x.id != c.id) }.completeEngine c.core c.slot c.cls c.id)
    | _, _ => .fault .noSuchEvent
  | none => .fault .noSuchEvent

/-- ENGINE_PAGE_FAULT: after some units the next one, or the completion word, meets a fault: the command stops, its engine is
freed, and the fault is posted (R374). -/
def execEnginePageFault (s : State) : Out :=
  match s.copies.find? (fun c => c.id == s.ev.id) with
  | some c0 =>
    match s.copyUnits c0.id s.ev.clocks s.ev.units with
    | some s1 =>
      match s1.copies.find? (fun c => c.id == s.ev.id), s1.warpAt? c0.core c0.slot with
      | some c, some w =>
        let bad := if c.unitCount ≤ c.units then (if s1.copyDone c.id then s1.doneFault c w else none)
          else s1.unitFault c w (s1.bothWindows c w) c.units
        match c.engine, bad with
        | some _, some (x, va) =>
          .next ((s1.modCopy c.id (fun c => { c with engine := none, stopped := true })).holdFault
            c.core c.slot (lateReport w x c.lane c.pc va c.id))
        | _, _ => .fault .noSuchEvent
      | _, _ => .fault .noSuchEvent
    | none => .fault .noSuchEvent
  | none => .fault .noSuchEvent

end Sys2Proof.Machine
end

