-- ==== Sys2Proof/Machine/Memory.lean ====
section
/-!
DEFINITION. A lane's own traffic with memory (R178–R199): loads and stores, prefetch, fences, monitors, barrier objects,
atomics and reductions, waiting for engine counters (R173), and the events by which their results arrive and their requests
reach the homes (R312–R315, R319–R321).
-/

namespace Sys2Proof

/-- The condition of a WAITA on a read r (R192). -/
def WaitCond.test (k : WaitCond) (r v : Nat) : Bool :=
  match k with
  | .ne => r != v
  | .eq => r == v
  | .ge => decide (v ≤ r)

/-- The reductions routers merge; a saturating add never does, integer or floating-point (R314, log 30). -/
def AtomOp.merges (o : AtomOp) (sat : Bool) : Bool :=
  match o with
  | .add | .fadd | .dadd => !sat
  | .and | .or | .xor | .mins | .minu | .maxs | .maxu | .fmin | .fmax => true
  | _ => false

end Sys2Proof

namespace Sys2Proof.Machine

/-! Loads and stores (R187). -/

/-- The order an ord field names (R27). -/
def ordOf (o : Ord) : Order := match o with | .rlx => .relaxed | .acq => .acquire | .rel => .release

/-- A relaxed load under a MOD scope of cluster or wider acts as .l2 (R181). -/
def Cur.hint (c : Cur) (own : Hint) (o : Order) : Hint :=
  match c.mod.bind (·.scope) with
  | some sc => if o == .relaxed && sc.wide then .l2 else own
  | none => own

/-- One access of each live lane at the pair in a register. -/
def State.lanesAt (s : State) (r size : Nat) (ord : Order) (sc : Scope) (dst : Nat) (only : Bool)
    (kind : Nat → Thread → AccKind) : List Acc :=
  s.live.map (fun p =>
    { lane := p.1, va := p.2.nat64 r, size := size, kind := kind p.1 p.2, ord := ord, scope := sc, dst := dst, only := only })

/-- LD (R179–R184, R187). -/
def execLd (o : Ord) (k : Hint) (L : BitVec 4) (z : Sz) (a d : Reg) (s : State) : Out :=
  s.issue { opds := [.ofSize .vd d z, .two .va a], rep := true, order := loadOrder, scope := anyScope } (fun s =>
    let ord := s.cur.order (ordOf o)
    let r := s.reg .vd d
    let h := s.cur.hint k ord
    s.access { L := L, cls := none, res := .load, dest := (List.range (szRegs z)).map (r + ·) }
      (s.lanesAt (s.reg .va a) (szBytes z) ord (s.cur.scope .package) r false (fun _ _ => .load h)))

/-- ST (R179–R184, R187). -/
def execSt (o : Ord) (k : Hint) (L : BitVec 4) (z : Sz) (a d : Reg) (s : State) : Out :=
  s.issue { opds := [.ofSize .vd d z, .two .va a], rep := true, order := storeOrder, scope := anyScope } (fun s =>
    let r := s.reg .vd d
    s.access { L := L, cls := none, res := .load, dest := [] }
      (s.lanesAt (s.reg .va a) (szBytes z) (s.cur.order (ordOf o)) (s.cur.scope .package) 0 false
        (fun _ t => .store (t.storeData r z) k)))

/-- A prefetch brings its line into L1 where the access would not fault; the page must be normal (R184, R190). -/
def State.prefetch (s : State) (w : Warp) (va : Nat) : State :=
  if 2 ^ 56 ≤ va then s
  else
    match s.xlateWalk (w.request true false false) va with
    | (.good pa rot, s1) =>
      if rotType rot == 0 && (regPage pa).isNone && !s1.lineRefuses (w.request true false false) pa then
        s1.l1Fill s.cur.core w.curSlot (pa / 128 * 128) else s1
    | (_, s1) => s1

/-- PREF: no program-visible state changes and nothing faults (R190). The L2 form acts at the home, which holds its bytes
anyway. -/
def execPref (k : Bool) (a : Reg) (s : State) : Out :=
  s.issue { opds := [.two .va a], rep := true } (fun s =>
    match s.warp? with
    | some w =>
      let s1 := if k then s else s.live.foldl (fun s p => s.prefetch w (p.2.nat64 (s.reg .va a))) s
      .next s1.finish
    | none => .fault .noWarp)

/-! The block barrier (R194). -/

/-- Each active thread arrives once at the block's barrier, its earlier accesses performed or in its L1 (R185, R234), and waits
until every thread of the block that has not exited has arrived as often; a lane stopped in it by a trap keeps its arrival
(R194, R407). -/
def State.arriveBarrier (s : State) : Out :=
  match s.warp? with
  | some w =>
    let held := s.heldLanes true true
    if held.isEmpty then
      let s1 := (s.release s.cur.core w.curSlot .block).mapActive (fun _ t =>
        { t with syncs := if t.arrived then t.syncs else t.syncs + 1, arrived := true, wait := .barrier })
      .next (s1.finish.syncRelease w.block)
    else .next (s.stall held .pend)
  | none => .fault .noWarp

/-- SYNCB (R194). -/
def execSyncb (s : State) : Out := s.issue (Use.flow []) State.arriveBarrier

/-! Fences (R191). -/

/-- What a lane's fence of a scope, over earlier writes where `all` says so, must still wait for: a stamped store's hold at
scope time, unacknowledged window writes at pod scope and wider (R191, R363). -/
def State.fenceWaits (s : State) (all : Bool) (sc : Scope) (lane : Nat) : Option Wait :=
  let c := s.cur.core
  let slot := s.cur.slot
  if sc == .time && s.holds.any (fun h => h.core == c && h.slot == slot && h.lane == lane && !h.left_) then some .time
  else if all && sc.far && s.winBusy c slot lane then some .window
  else none

/-- Puts lanes to wait, each for its own reason. -/
def State.stallEach (s : State) (l : List (Nat × Wait)) : State :=
  let s1 := (s.charge 1).modWarp (fun w =>
    ({ w with threads := w.threads.map (fun (p : Nat × Thread) =>
        match tget l p.1 with
        | some x => (p.1, { s.cur.uncount p.1 p.2 with wait := x })
        | none => p) } : Warp).settle s.cur.mask (s.cycle + 1))
  { s1 with cur := s.cur.clear, cycle := s.cycle + 1 }

/-- FENCE: it completes once the earlier accesses it orders are performed at its scope, with the L1 actions of its kind. With
the engine bit they are performed whatever the kind (R191). -/
def execFence (e : Bool) (k : FenceKind) (sc : Scope) (s : State) : Out :=
  s.issue (Use.flow []) (fun s =>
    match s.warp? with
    | some w =>
      let c := s.cur.core
      let all := k != .acq || e
      let held := s.heldLanes all all
      let waits := s.live.filterMap (fun p => (s.fenceWaits all sc p.1).map (fun x => (p.1, x)))
      if s.live.isEmpty then .next s.finish
      else if !held.isEmpty then .next (s.stall held .pend)
      else if !waits.isEmpty then .next (s.stallEach waits)
      else
        let s1 := if all then s.release c w.curSlot sc else s
        let s2 := if k == .full || k == .acq then s1.acquire c w.curSlot sc else s1
        .next s2.finish
    | none => .fault .noWarp)

/-! Waiting for a word (R169, R192, R193). -/

/-- The word a waiting lane reads: in scratchpad, or at a local address. -/
inductive WaitRef where
  | pad (p : SpRef)
  | mem (pa : Nat)
  /-- The translation is not cached: the lane is accepted and waits for the walk (R185). -/
  | walk
  deriving DecidableEq, Repr

/-- The word an address pair names for a read of a size; WAITA alone takes the scratchpad aperture (R164, R184). A control core
walks at once, and its faults are precise (R299). -/
def State.waitRef (s : State) (w : Warp) (aperture : Bool) (size va : Nat) : Except Cause WaitRef × State :=
  if aperture && va / 2 ^ 32 == spadHigh then
    (match s.spadRef w (va % 2 ^ 32) size with | .ok p => .ok (.pad p) | .error c => .error c, s)
  else if va % size != 0 then (.error .align, s)
  else if 2 ^ 56 ≤ va then (.error .page, s)
  else
    let x := w.request true false false
    match if isControl s.cur.core then s.xlateWalk x va else (s.xlate x va, s) with
    | (.good pa rot, s1) =>
      (if (rotType rot != 0 && !w.typeFree rot) || (regPage pa).isSome then .error .rot
        else if s1.lineRefuses x pa then .error .domain
        else .ok (.mem pa), s1)
    | (.bad c, s1) => (.error c, s1)
    | (.miss, s1) => (.ok .walk, s1)

/-- The words of the live lanes. -/
def State.waitRefs (s : State) (w : Warp) (aperture : Bool) (size r : Nat) :
    List (Nat × Thread) → List (Nat × Thread × Except Cause WaitRef) × State
  | [] => ([], s)
  | (n, t) :: l =>
    let (x, s1) := s.waitRef w aperture size (t.nat64 r)
    let (xs, s2) := s1.waitRefs w aperture size r l
    ((n, t, x) :: xs, s2)

/-- Reads such a word: at the home, which any write reaches, or at block scope on the L1 copy where `local_` says so
(R169, R170). -/
def State.waitRead (s : State) (w : Warp) (local_ : Bool) (x : WaitRef) (size : Nat) : State × Nat :=
  match x with
  | .walk => (s, 0)
  | .pad p => (s, wordOf (s.spRead p size))
  | .mem pa =>
    if local_ then
      let (s1, b) := s.l1Read s.cur.core w.curSlot pa size
      (s1, wordOf b)
    else
      let s1 := s.toHome s.cur.core w.curSlot (pa / 128 * 128)
      (s1, wordOf (s1.homeRead pa size))

/-- Reads the words of lanes, in lane order. -/
def State.waitReads (s : State) (w : Warp) (local_ : Bool) (size : Nat) :
    List (Nat × Thread × WaitRef) → State × List (Nat × Thread × WaitRef × Nat)
  | [] => (s, [])
  | (n, t, x) :: l =>
    let (s1, v) := s.waitRead w local_ x size
    let (s2, vs) := s1.waitReads w local_ size l
    (s2, (n, t, x, v) :: vs)

/-- What a lane whose condition does not hold waits for (R169). -/
def WaitRef.wait (x : WaitRef) : Wait :=
  match x with
  | .walk => .pend
  | .pad p => .word p.block (p.off / 4)
  | .mem pa => .line pa

/-- Waiting lanes whose translations are not cached are accepted: they wait at the instruction for the walk, which may hold a fault,
and issue it again after it (R185). -/
def State.probeWalk (s : State) (size a : Nat) (l : List (Nat × Thread × WaitRef)) : State :=
  let (id, s1) := s.fresh
  let pc := match l with | (_, t, _) :: _ => t.pc | [] => 0
  let accs : List Acc := l.map (fun (x : Nat × Thread × WaitRef) =>
    { lane := x.1, va := x.2.1.nat64 a, size := size, kind := .probe (s.nextPc x.2.1), ord := .relaxed,
      scope := s.cur.scope .package, dst := 0, only := true })
  { s1 with pend := s1.pend ++ [(⟨id, s.cur.core, s.cur.slot, pc, none, .access accs false .load []⟩ : Pending)] }.stall
    (l.map (fun (x : Nat × Thread × WaitRef) => x.1)) .pend

/-- Reads of one word per live lane by an instruction that closes windows: the faults, then the walks, then the values. -/
def waitIssue (opds : List Opd) (aperture : Bool) (size : Nat) (a : Reg)
    (body : State → Warp → List (Nat × Thread × WaitRef × Nat) → State) (s : State) : Out :=
  s.issue { opds := opds, order := loadOrder, scope := anyScope, closes := true } (fun s =>
    match s.warp? with
    | none => .fault .noWarp
    | some w =>
      let held := s.heldLanes false false
      if !held.isEmpty then .next (s.stall held .pend)
      else
        let (refs, s1) := s.waitRefs w aperture size a.toNat s.live
        let bad := refs.filterMap (fun x => match x.2.2 with | .error c => some (c, x.1, x.2.1.nat64 a.toNat) | .ok _ => none)
        match firstFault bad with
        | some (c, lane, va) => .next (s1.memFault c lane (BitVec.ofNat 32 va) (BitVec.ofNat 32 (va / 2 ^ 32)))
        | none =>
          let good := refs.filterMap (fun x => match x.2.2 with | .ok r => some (x.1, x.2.1, r) | .error _ => none)
          let walks := good.filter (fun x => x.2.2 == .walk)
          if !walks.isEmpty then .next (s1.probeWalk size a.toNat walks)
          else
          let (s2, vals) := s1.waitReads w (s.cur.scope .package == .block && !aperture) size good
          .next (body s2 w vals).finish)

/-- Lanes whose condition holds go on, with the acquire where there is one; the others wait for a write (R55, R169). -/
def State.meetCondition (s : State) (w : Warp) (ord : Order) (holds : Thread → Nat → Bool)
    (vals : List (Nat × Thread × WaitRef × Nat)) : State :=
  let done := vals.filter (fun x => holds x.2.1 x.2.2.2)
  let sc := s.cur.scope .package
  let s1 := if ord.acquires && !done.isEmpty then s.acquire s.cur.core w.curSlot sc else s
  s1.mapActive (fun n t =>
    match vals.find? (fun x => x.1 == n) with
    | some x =>
      if holds x.2.1 x.2.2.2 then (if ord.acquires && sc.wide then { t with acq := true } else t)
      else { t with wait := x.2.2.1.wait }
    | none => t)

/-- WAITA (R169, R192). -/
def execWaita (o : Bool) (k : WaitCond) (z : Bool) (a d : Reg) (s : State) : Out :=
  waitIssue [.two .va a, if z then .two .vd d else .one .vd d] true (if z then 8 else 4) a (fun s w vals =>
    s.meetCondition w (s.cur.order (if o then .acquire else .relaxed))
      (fun t r => k.test r (if z then t.nat64 d.toNat else t.nat d.toNat)) vals) s

/-- BSIG: the counter grows by each lane's value, up to 2^64 − 1 (R170, R193). -/
def execBsig (b a : Reg) (s : State) : Out :=
  s.issue { opds := [.two .va a, .two .vb b], order := storeOrder, scope := anyScope, closes := true } (fun s =>
    s.access { L := 0, cls := none, res := .load, dest := [] }
      (s.lanesAt a.toNat 8 (s.cur.order .relaxed) (s.cur.scope .package) 0 false (fun _ t => .bsig (t.pair b.toNat))))

/-- BWAIT: waits until the counter is at least the lane's threshold (R170, R193). -/
def execBwait (b a : Reg) (s : State) : Out :=
  waitIssue [.two .va a, .two .vb b] false 8 a (fun s w vals =>
    s.meetCondition w (s.cur.order .relaxed) (fun t r => decide (t.nat64 b.toNat ≤ r)) vals) s

/-- BRDC: a load of the counter, at the home or, at block scope, from the L1 copy (R170, R185, R193). -/
def execBrdc (a d : Reg) (s : State) : Out :=
  s.issue { opds := [.two .va a, .two .vd d], order := loadOrder, scope := anyScope, closes := true } (fun s =>
    let sc := s.cur.scope .package
    s.access { L := 0, cls := none, res := .load, dest := [d.toNat, d.toNat + 1] }
      (s.lanesAt a.toNat 8 (s.cur.order .relaxed) sc d.toNat true (fun _ _ => .load (if sc.wide then .l2 else .plain))))

/-! Engine counters (R173). -/

/-- Reports the earliest-issued deferred cause that a test lets through: PC and lane are those of the reporting instruction,
the address fields those of the failed operation (R173, R251, R290). -/
def State.reportDeferred (s : State) (w : Warp) (p : Deferred → Bool) : Option State :=
  match leastBy Deferred.id (w.deferred.filter p), s.active with
  | some x, (l, t) :: _ =>
    let s1 := s.modWarp (fun w => { w with deferred := w.deferred.erase x })
    some (s1.takeTrap { mkReport w x.cause l t.pc x.lo x.hi with deferred := true, cls := x.cls })
  | _, _ => none

/-- WAITC: reports a due deferred cause of the class, else waits until the counter is at most n (R173, R195). What a
completed copy or push wrote is then read at its home (R372). -/
def execWaitc (cls : BitVec 3) (n : BitVec 6) (s : State) : Out :=
  s.issue (Use.flow []) (fun s =>
    match s.warp? with
    | some w =>
      if s.live.isEmpty then .next s.finish
      else
        match s.reportDeferred w (fun x => x.cls == cls.toNat) with
        | some s1 => .next s1
        | none =>
          if n.toNat < w.cnt cls.toNat then .next (s.stall (s.live.map (·.1)) .count)
          else
            let s1 := if cls = 0 ∨ cls = 4 then s.dropClean s.cur.core w.curSlot else s
            .next s1.finish
    | none => .fault .noWarp)

/-! Atomics and reductions (R198, R199). -/

/-- The scope of an atomic's sc field (R27). -/
def scScope (sc : BitVec 2) : Scope :=
  match sc.toNat with | 0 => .block | 1 => .cluster | 2 => .package | _ => .pod

/-- ATOM (R198). -/
def execAtom (L : BitVec 4) (ar : Bool) (sc : BitVec 2) (o : AtomOp) (a d : Reg) (s : State) : Out :=
  s.issue { opds := [.atom d o, .two .va a], rep := true, order := fun _ => true, scope := anyScope, rm := atomFp o } (fun s =>
    let r := s.reg .vd d
    s.access { L := L, cls := none, res := .atom, dest := atomDest r o }
      (s.lanesAt (s.reg .va a) o.size (s.cur.order (if ar then .acqRel else .relaxed)) (s.cur.scope (scScope sc)) r false
        (fun _ t => let e := fpEnv s.cur t; .atom o (t.atomV r o) (t.atomV2 r o) e.rm e.cnan)))

/-- RED: its control field stands for the lane's FPMODE (R199). -/
def execRed (L : BitVec 4) (sat cn fz : Bool) (o : AtomOp) (a d : Reg) (s : State) : Out :=
  s.issue { opds := [.atom d o, .two .va a], rep := true, order := storeOrder, scope := anyScope, rm := atomFp o,
            ftz := atomFp o, cls := some 6 } (fun s =>
    let r := s.reg .vd d
    let rm := (s.cur.mod.bind (·.rm)).getD .rne
    let z := (s.cur.mod.bind (·.ftz)).getD fz
    s.access { L := L, cls := some 6, res := .load, dest := [] }
      (s.lanesAt (s.reg .va a) o.size (s.cur.order .relaxed) (s.cur.scope .package) 0 false
        (fun _ t => .red o (t.atomV r o) rm z cn sat)))

/-- RED.tm: a partial is merged into the one at its home vat (R273). -/
def execRedTm (L : BitVec 4) (a d : Reg) (s : State) : Out :=
  s.issue { opds := [.four .vd d, .two .va a], rep := true, order := storeOrder,
            scope := anyScope, cls := some 6 } (fun s =>
    let r := s.reg .vd d
    s.access { L := L, cls := some 6, res := .load, dest := [] }
      (s.lanesAt (s.reg .va a) 16 (s.cur.order .relaxed) (s.cur.scope .package) 0 false (fun _ t => .redTm (t.group r 4))))

/-! WFENCE (R131, R154). -/

/-- A load of one of a bundle's lanes that has not returned. -/
def State.loadOut (s : State) (m : Mask) (p : Pending) : Bool :=
  match p.kind with
  | .result .load ws => ws.any (fun x => laneIn m x.lane)
  | .access accs _ _ _ => accs.any (fun a => laneIn m a.lane && (match a.kind with | .load _ => true | _ => false))
  | .ldsSync l .. => l.any (fun x => laneIn m x.lane)
  | .wget ws => ws.any (fun x => laneIn m x.lane) || s.pkts.any (fun k => k.op == some p.id && laneIn m k.lane)
  | .ldat l _ _ => l.any (fun x => laneIn m x.lane) || s.pkts.any (fun k => k.op == some p.id && laneIn m k.lane)
  | _ => false

/-- WFENCE: waits for the bundle's loads; an acquire among those its lanes have issued acts for the whole bundle (R131, R154). -/
def execWfence (s : State) : Out :=
  s.issue { opds := [], rep := true } (fun s =>
    match s.warp? with
    | some w =>
      let c := s.cur.core
      if s.pend.any (fun p => p.core == c && p.slot == s.cur.slot && s.loadOut s.cur.mask p) then
        .next (s.stallAll .pend)
      else if s.active.any (fun p => p.2.acq) then
        .next (s.acquire c w.curSlot .cluster).finish
      else .next s.finish
    | none => .fault .noWarp)

/-! Results that arrive (R33, R122). -/

/-- A captured result of a kind is written to its registers. -/
def State.arrive (s : State) (id : Nat) (ok : ResKind → Bool) : Out :=
  match s.pend.find? (fun p => p.id == id) with
  | some p =>
    match p.kind with
    | .result k ws => if ok k then .next ((s.commit p.core p.slot ws).endPending p) else .fault .noSuchEvent
    | _ => .fault .noSuchEvent
  | none => .fault .noSuchEvent

/-- LOAD_RETURN: a load's value, or that of a read of a tile (R33, R215). -/
def execLoadReturn (s : State) : Out := s.arrive s.ev.id (fun k => k == .load || k == .mrd)

/-- ATOM_RETURN: the old value, and the flags, which never trap (R88, R198). -/
def execAtomReturn (s : State) : Out := s.arrive s.ev.id (fun k => k == .atom)

/-- PAGE_WALK_COMPLETE: the accesses that waited for the walk are performed, or held with a fault (R185, R282). -/
def execPageWalkComplete (s : State) : Out :=
  match s.pend.find? (fun p => p.id == s.ev.id) with
  | some p =>
    match p.kind, s.warpAt? p.core p.slot with
    | .access accs false res ws, some w => .next (s.walkDone p w accs res ws)
    | _, _ => .fault .noSuchEvent
  | none => .fault .noSuchEvent

/-- MONITOR_TIMEOUT: the sleeping lanes of a warp look at their words again (R169). -/
def execMonitorTimeout (s : State) : Out :=
  match s.warpAt? s.ev.core s.ev.slot with
  | some _ =>
    .next (s.wakeWarp s.ev.core s.ev.slot (fun x => match x with | .word .. | .line _ => true | _ => false))
  | none => .fault .noSuchEvent

/-! Writes and requests that reach their homes. -/

/-- DIRTY_LINE_WRITEBACK: a dirty line of an L1 goes to its home in time, or a line is evicted; a line that a .st access has
marked is evicted before any other (R181, R182, R236). -/
def execDirtyLineWriteback (s : State) : Out :=
  let c := s.ev.core
  let d := s.ev.slot
  let line := s.ev.addr / 128 * 128
  let here (a : Nat) : Bool := a / 128 * 128 == line
  let t := s.l1Of c d
  let soon := (tget (s.core c).soon d).getD []
  if !t.any (fun p => here p.1) || (s.ev.flag && !soon.isEmpty && !soon.contains line) then .fault .noSuchEvent
  else if s.ev.flag then .next ((s.leaveL1 c d here).wakeLine line)
  else
    .next ((s.writeDirty c (t.filter (fun p => here p.1))).setL1 c d (t.map (fun p => if here p.1 then (p.1, (p.2.1, false)) else p)))

/-- HOME_APPLY: a home bank applies a write that was sent through to it, in the order of its core's requests (R312, R326). -/
def execHomeApply (s : State) : Out :=
  match s.reqs.find? (fun r => r.id == s.ev.id) with
  | some r =>
    match r.kind with
    | .write _ => if s.mayApply r then .next (s.applyReq r) else .fault .noSuchEvent
    | _ => .fault .noSuchEvent
  | none => .fault .noSuchEvent

/-- VAT_APPLY: a home vat applies a reduction, a barrier addition or a partial merge, in that order too (R313, R326). -/
def execVatApply (s : State) : Out :=
  match s.reqs.find? (fun r => r.id == s.ev.id) with
  | some r =>
    match r.kind with
    | .write _ => .fault .noSuchEvent
    | _ => if s.mayApply r then .next (s.applyReq r) else .fault .noSuchEvent
  | none => .fault .noSuchEvent

/-- What two requests merge into, with the flags of the merge step (R314, R315). -/
def mergeKinds (a b : ReqKind) : Option (ReqKind × BitVec 5) :=
  match a, b with
  | .red o v rm fz cn sat, .red o' v' rm' fz' cn' sat' =>
    if o == o' && rm == rm' && fz == fz' && cn == cn' && sat == sat' && o.merges sat then
      let x := atomNew o v.toNat v'.toNat 0 rm fz cn sat
      some (.red o (BitVec.ofNat 64 x.bits) rm fz cn sat, x.flags)
    else none
  | .redTm ws, .redTm ws' => some (.redTm (mergeWords ws ws'), 0)
  | .bsig v, .bsig v' => some (.bsig (BitVec.ofNat 64 (bsigSum v.toNat v'.toNat)), 0)
  | _, _ => none

/-- Two requests meet R314's conditions: range, size, DID, world and scope; their orders may differ. -/
def Req.mayMerge (a b : Req) : Bool :=
  a.id != b.id && a.part == b.part && a.did == b.did && a.ns == b.ns && a.addr == b.addr && a.size == b.size && a.scope == b.scope

/-- The other requests that must reach the bank before one of two that merge (R326). -/
def State.mergeFirst (s : State) (a b : Req) : List Req :=
  (s.dueReqs (fun q => q.id == a.id || q.id == b.id) s.reqs).filter (fun q => q.id != a.id && q.id != b.id)

/-- Two requests can have met in a router, a first: those of one core come in its order, and none that must follow one of them must
reach the bank before the other (R315, R326). Requests of different cores arrive in any order. -/
def State.mayMeet (s : State) (a b : Req) : Bool :=
  (!a.shares b || s.reqBefore a b) &&
    (s.mergeFirst a b).all (fun q => !(s.reqBefore a q && s.precedes a q) && !(s.reqBefore b q && s.precedes b q))

/-- ROUTER_MERGE: two requests become one that carries both, behind those that must come before one of them and before all others:
merging only delays (R274, R314, R315, R326). -/
def execRouterMerge (s : State) : Out :=
  match s.reqs.find? (fun r => r.id == s.ev.id), s.reqs.find? (fun r => r.id == s.ev.id2) with
  | some a, some b =>
    match a.mayMerge b && s.mayMeet a b, mergeKinds a.kind b.kind with
    | true, some (k, fl) =>
      let m : Req := { b with
        kind := k, release := a.release || b.release, from_ := a.from_ ++ b.from_, counts := a.counts ++ b.counts }
      let first := s.mergeFirst a b
      let rest := s.reqs.filter (fun q => q.id != a.id && q.id != b.id && !first.any (fun x => x.id == q.id))
      let s1 := { s with reqs := first ++ (m :: rest) }
      .next (if fl = 0 then s1
        else { s1 with flagMsgs := s1.flagMsgs ++ m.from_.map (fun (f : Nat × Nat × Nat) => (f.1, f.2.1, f.2.2, fl)) })
    | _, _ => .fault .noSuchEvent
  | _, _ => .fault .noSuchEvent

/-- DUAL_BACKGROUND_COPY: the page stands at both homes from now on; the old one still serves it (R320). -/
def execDualBackgroundCopy (s : State) : Out :=
  if s.duals.any (fun d => d.page == s.ev.num) then
    .next ({ s with duals := s.duals.map (fun (d : Dual) => if d.page = s.ev.num then { d with copied := true } else d) }.wake
      (fun x => x == Wait.pend))
  else .fault .noSuchEvent

/-- Flags reach a lane: its FPFLAGS, or its pending-flag word while the warp is switched out (R84, R300). -/
def State.giveFlags (s : State) (c slot lane : Nat) (fl : BitVec 5) : State :=
  s.modWarpAt c slot (fun w =>
    let out := w.susp.isSome || w.slotsIn.any (s.core c).frozen.contains
    { w with threads := tmod w.threads lane (fun t => if out then { t with pflags := t.pflags ||| fl } else t.raise fl) })

/-- ASYNC_FLAG_ARRIVAL: the flags of a reduction or a vat reach their lane (R88, R300). -/
def execAsyncFlagArrival (s : State) : Out :=
  match s.flagMsgs.find? (fun f => f.1 == s.ev.core && f.2.1 == s.ev.slot && f.2.2.1 == s.ev.lane) with
  | some f => .next ({ s with flagMsgs := s.flagMsgs.erase f }.giveFlags f.1 f.2.1 f.2.2.1 f.2.2.2)
  | none => .fault .noSuchEvent

end Sys2Proof.Machine
end

