-- ==== Sys2Proof/Machine/Gates.lean ====
section
/-!
DEFINITION. Transfers through jump tables (R138–R141) and gate calls (R249–R254).
-/

namespace Sys2Proof.Machine

/-! Landing checks and jump tables. -/

/-- A word is LPAD with a label (R141). -/
def isLanding (b : List Byte) (label : Nat) : Bool := wordOf b == 0x61 + label * 128 && b.length == 4

/-- What a lane's transfer through a table comes to: a target, a fault with its address, or, in a helper lane whose table read
would fault, an exit (R139, R140). -/
inductive TableOut where
  | go (target : Nat)
  | bad (c : Cause) (addr : Nat)
  | leave
  deriving DecidableEq, Repr

/-- One relaxed 32-bit load of a table word at package scope, through L1 (R140, R181). -/
def State.tableRead (s : State) (w : Warp) (va : Nat) : Except Cause (Nat × State) :=
  if 2 ^ 56 ≤ va then .error .page
  else
    match s.xlateWalk (w.request true false false) va with
    | (.good pa rot, s1) =>
      if (regPage pa).isSome || (decide (1 < rotType rot) && !w.typeFree rot) then .error .rot
      else if s1.lineRefuses (w.request true false false) pa then .error .domain
      else if rotType rot == 1 then .ok (wordOf (s1.stampedRead pa 4), s1)
      else
        let (s2, b) := s1.l1Read s.cur.core w.curSlot pa 4
        .ok (wordOf b, s2)
    | (.bad c, _) => .error c
    | (.miss, _) => .error .page

/-- The landing at a code offset of the current segment (R20, R139, R141). A PAGE of the fetch reports the address of the missing halfword,
as R20 has it, and a CFLOW the target (log 74). -/
def State.landingAt (s : State) (w : Warp) (t label : Nat) : TableOut × State :=
  match s.fetchWord s.cur.core w t with
  | .error (c, a) => (.bad c a, s)
  | .ok (b, s1) => (if isLanding b label then .go t else .bad .cflow t, s1)

/-- One lane's transfer (R139). A CFLOW of the count or of the header word reports the base (log 63). A helper lane leaves
where its table read would fault, for the alignment of the base too (R59, R140). -/
def State.tableLane (s : State) (w : Warp) (base index : Nat) (helper : Bool) : TableOut × State :=
  let refuse (c : Cause) (a : Nat) : TableOut := if helper then .leave else .bad c a
  if base % 8 != 0 then (refuse .align base, s)
  else
    match s.tableRead w base with
    | .error c => (refuse c base, s)
    | .ok (count, s1) =>
      match s1.tableRead w (base + 4) with
      | .error c => (refuse c (base + 4), s1)
      | .ok (hdr, s2) =>
        if count = 0 ∨ 16777216 < count ∨ 2 ^ 25 ≤ hdr then (.bad .cflow base, s2)
        else
          let a := base + 8 + 4 * (if count ≤ index then 0 else index)
          match s2.tableRead w a with
          | .error c => (refuse c a, s2)
          | .ok (t, s3) => if t % 2 = 1 then (.bad .align t, s3) else s3.landingAt w t hdr

/-- The transfers of lanes, in increasing order. -/
def State.tableLanes (s : State) (w : Warp) (a b : Nat) : List (Nat × Thread) → List (Nat × TableOut) × State
  | [] => ([], s)
  | (n, t) :: l =>
    let (x, s1) := s.tableLane w (t.nat64 a) (t.nat b) t.helper
    let (xs, s2) := s1.tableLanes w a b l
    ((n, x) :: xs, s2)

/-- A transfer through a table: its faults, then each lane goes to its target; `link` is what a lane keeps first (R139). Inside a
gate call a helper lane that would leave raises GATE, as EXIT does (R140, R254). -/
def State.tableGo (s : State) (a b : Nat) (link : Thread → Thread) : Out :=
  match s.warp? with
  | none => .fault .noWarp
  | some w =>
    let held := s.heldLanes false false
    if !held.isEmpty then .next (s.stall held .pend)
    else
    let (outs0, s1) := s.tableLanes w a b s.active
    let outs := outs0.map (fun x => if x.2 == .leave && !w.gates.isEmpty then (x.1, TableOut.bad .gate 0) else x)
    match firstFault (outs.filterMap (fun x => match x.2 with | .bad c addr => some (c, x.1, addr) | _ => none)) with
    | some (c, lane, addr) => .next (s1.memFault c lane (BitVec.ofNat 32 addr) (BitVec.ofNat 32 (addr / 2 ^ 32)))
    | none =>
      let gone := (outs.filter (fun x => x.2 == .leave)).map (·.1)
      let s2 := s1.mapActive (fun n t => if gone.contains n then { t with exited := true } else link t)
      let s3 := s2.finishAt (fun n t => match tget outs n with | some (.go x) => BitVec.ofNat 32 x | _ => t.pc)
      .next (if gone.isEmpty then s3 else (s3.markWarp w).syncRelease w.block)

/-- JTAB (R139–R141). -/
def execJtab (b a : Reg) (s : State) : Out :=
  s.issue (Use.flow [.two .va a, .one .vb b]) (fun s => s.tableGo a.toNat b.toNat id)

/-- CALLT: as JTAB, with vd := PC + 4 (R139–R141). -/
def execCallt (b a d : Reg) (s : State) : Out :=
  s.issue (Use.flow [.one .vd d, .two .va a, .one .vb b]) (fun s =>
    s.tableGo a.toNat b.toNat (fun t => t.set d.toNat (s.nextPc t)))

/-! Gates (R249–R254). -/

/-- An entry of a gate table (R249). -/
structure Gate where
  entry : Nat
  valid : Bool
  argc : Nat
  label : Nat
  did : Nat
  code : CodeSeg
  reserved : Bool
  deriving DecidableEq, Repr

/-- The entry that eight words hold (R249). -/
def Gate.ofWords (l : List Word) : Gate :=
  let w (i : Nat) : Nat := (l.getD i 0).toNat
  { entry := w 0, valid := bit (w 1) 31, argc := field (w 1) 28 25, label := field (w 1) 24 0, did := field (w 2) 15 0,
    code := ⟨w 4 + 2 ^ 32 * field (w 5) 23 0, w 3⟩,
    reserved := field (w 1) 30 29 != 0 || field (w 2) 31 16 != 0 || field (w 5) 31 24 != 0 || w 6 != 0 || w 7 != 0 }

/-- The words of entry n of the gate table of a slot, read afresh; none where a page of the table is not the partition's, or
out of reach of its world, or not normal (R249, R277). The table has at most 2,048 entries, so it lies in the pages of its
first and its last byte. -/
def State.gateEntry (s : State) (part dp n : Nat) : Option (List Word) :=
  let ok (a : Nat) : Bool := backed a && s.keepsIn part a
  if ok (dpGt dp) && ok (dpGt dp + 32 * dpGcnt dp + 31) then some (bytesWords (s.homeRead (dpGt dp + 32 * n) 32)) else none

/-- A launched lane is missing from the bundle (R61, R252, R253). -/
def State.laneMissing (s : State) (w : Warp) : Bool := w.running.any (fun p => !laneIn s.cur.mask p.1)

/-- A domain of a core can be called: a slot holds it, has a resident warp, and it is not pre-empted (R252). -/
def State.gateSlot (s : State) (part did : Nat) : Option Nat :=
  let k := s.core s.cur.core
  match k.slotOf did with
  | some t => if k.warps.any (fun x => x.2.homeSlot == t) && !(s.domain part did).out && !k.frozen.contains t then some t else none
  | none => none

/-- The GATE checks of GCALL n: the entry's words, the gate and the slot it leads to (R252). A GCALL that waits for its counters
has read its entry (R249). -/
def State.gateCheck (s : State) (w : Warp) (n : Nat) : Option (List Word × Gate × Nat) :=
  let dp := (s.core s.cur.core).dp w.curSlot
  if s.laneMissing w || w.gates.length == 4 || w.xown || !dpGv dp || decide (dpGcnt dp < n) then none
  else
    match w.gcall.orElse (fun _ => s.gateEntry w.part dp n) with
    | some ws =>
      let g := Gate.ofWords ws
      if !g.valid || decide (8 < g.argc) || g.reserved || g.entry % 2 == 1 || decide (g.code.size ≤ g.entry) then none
      else (s.gateSlot w.part g.did).map (fun t => (ws, g, t))
    | none => none

/-- What a GCALL that waits has read (R249); nothing, once it is done or has faulted. -/
def State.keepGate (s : State) (g : Option (List Word)) : State := s.modWarp (fun w => { w with gcall := g })

/-- An access that has been accepted and waits for its translation: it belongs to the domain that issued it (R185, R252). -/
def Pending.walking (p : Pending) : Bool := match p.kind with | .access .. => true | _ => false

/-- The wait of GCALL and GRET before their effects: no access issued under one tag is left to be performed under the other, the
counters are 0, and then a deferred cause is reported (R251, R252). -/
def State.gateWait (s : State) (w : Warp) (go : State → State) : Out :=
  if s.pend.any (fun p => p.core == s.cur.core && p.slot == s.cur.slot && p.walking) then .next (s.stallAll .pend)
  else if w.engine.any (fun l => !l.isEmpty) then .next (s.stallAll .count)
  else
    match s.reportDeferred w (fun _ => true) with
    | some s1 => .next (s1.keepGate none)
    | none => .next (go (s.keepGate none))

/-- What a lane saves in a gate frame: MEETV, then v8 up to the last base register (R252). -/
def Thread.gateSave (t : Thread) (nbase : Nat) : List Word := t.meetv :: (t.regs.take nbase).drop 8

/-- A lane as the callee sees it: the arguments stay, the other base registers are zero (R252). -/
def Thread.gateEnter (t : Thread) (argc nbase : Nat) : Thread :=
  { t with
    regs := t.regs.zipIdx.map (fun x => if argc ≤ x.2 ∧ x.2 < max 8 nbase then 0 else x.1)
    meetv := 0xFFFFFFFF }

/-- A lane as its caller left it (R253). -/
def Thread.gateLeave (t : Thread) (saved : List Word) : Thread :=
  match saved with
  | m :: l => { t.setGroup 8 l with meetv := m }
  | [] => t

/-- A landing check of GCALL that fails: of supervisor class, CFLOW too (R252, R254). A CFLOW reports the entry's code offset, for which
R243 and R252 name no field (log 74). -/
def State.gateFault (s : State) (w : Warp) (x : TableOut) : State :=
  let pc := match s.active with | (_, t) :: _ => t.pc | [] => 0
  let (c, addr) := match x with | .bad c a => (c, a) | _ => (Cause.cflow, 0)
  s.takeTrap { mkReport w c s.firstLane pc (BitVec.ofNat 32 addr) (BitVec.ofNat 32 (addr / 2 ^ 32)) with super := true, mem := true }

/-- GCALL (R250–R252, R256). -/
def execGcall (n : BitVec 11) (s : State) : Out :=
  s.issue (Use.flow []) (fun s =>
    match s.warp? with
    | none => .fault .noWarp
    | some w =>
      match s.gateCheck w n.toNat with
      | none => .next ((s.keepGate none).fault .gate s.firstLane 0 0)
      | some (ws, g, t) =>
        match s.landingAt { w with curDid := g.did, code := g.code } g.entry g.label with
        | (.go _, s1) =>
          (s1.keepGate (some ws)).gateWait w (fun s =>
            let pc := match s.active with | (_, t) :: _ => s.nextPc t | [] => 0
            let frame : GateFrame :=
              ⟨pc, w.code, w.curDid, w.curSlot, w.partn, w.running.map (fun (p : Nat × Thread) => (p.1, p.2.gateSave w.nbase))⟩
            let s2 := (((s.changeSlot s.cur.core w.curSlot t).markDomain w.part w.curDid).markDomain w.part g.did).fixLaunch w
            let s3 := s2.modWarp (fun w => { w with
              gates := frame :: w.gates, partn := 5, curDid := g.did, curSlot := t, code := g.code })
            (s3.mapActive (fun _ t => t.gateEnter g.argc w.nbase)).finishAt (fun _ _ => BitVec.ofNat 32 g.entry))
        | (x, s1) => .next ((s1.keepGate none).gateFault w x))

/-- GRET (R146, R251, R253, R256). Its GATE reports 0 in the address fields, for which the spec gives nothing (log 74). -/
def execGret (s : State) : Out :=
  s.issue (Use.flow []) (fun s =>
    match s.warp? with
    | none => .fault .noWarp
    | some w =>
      match w.gates with
      | [] => .next (s.fault .gate s.firstLane 0 0)
      | f :: rest =>
        if s.laneMissing w then .next (s.fault .gate s.firstLane 0 0)
        else
          s.gateWait w (fun s =>
            let s1 := (((s.changeSlot s.cur.core w.curSlot f.slot).markDomain w.part w.curDid).markDomain w.part f.did).fixLaunch w
            let s2 := s1.modWarp (fun w => { w with
              gates := rest, partn := f.partn, curDid := f.did, curSlot := f.slot, code := f.code })
            (s2.mapActive (fun n t => t.gateLeave ((tget f.lanes n).getD []))).finishAt (fun _ _ => f.pc)))

end Sys2Proof.Machine
end

