-- ==== Sys2Proof/Machine/Lanes.lean ====
section
/-!
DEFINITION. Cross-lane and quad instructions of majors 0x18 and 0x19 (R91, R123–R135). Every active lane reads first, then
every active lane writes; a source outside the bundle or the tile is not usable.
-/

namespace Sys2Proof.Machine

/-- The size code of the warp's tiles (R62). -/
def Warp.tileCode (w : Warp) : Nat := field w.partn.toNat 2 0

/-- Two lanes lie in one tile (R62). -/
def sameTile (code a b : Nat) : Bool := a / 2 ^ code == b / 2 ^ code

/-- Two lanes lie in one quad (R50). -/
def sameQuad (a b : Nat) : Bool := a / 4 == b / 4

/-- The values of register n in the active lanes of the issuing bundle, before the instruction (R123). -/
def State.values (s : State) (n : Nat) : List (Nat × Word) := s.active.map (fun p => (p.1, p.2.get n))

/-- The size code in force for the issuing bundle. -/
def State.tileCode (s : State) : Nat := match s.warp? with | some w => w.tileCode | none => 5

/-- The lanes usable by a lane, with their values (R124). -/
def usable (code : Nat) (vals : List (Nat × Word)) (l : Nat) : List (Nat × Word) :=
  vals.filter (fun p => sameTile code p.1 l)

/-- A shuffle: each lane takes va of its source lane where that is usable, and keeps vd otherwise (R124, R126). -/
def shuffle (u : Use) (a d : Reg) (src : State → Nat → Thread → Int) (s : State) : Out :=
  s.issue u (fun s =>
    let vals := s.values (s.reg .va a)
    let code := s.tileCode
    .next (s.mapActive (fun l t =>
      match (usable code vals l).find? (fun p => (p.1 : Int) == src s l t) with
      | some p => t.set (s.reg .vd d) p.2
      | none => t)).finish)

/-- SHFL: lane base + b of the tile (R126). -/
def execShfl (b a d : Reg) (s : State) : Out :=
  shuffle (Use.f3 b a d) a d (fun s l t => (l / 2 ^ s.tileCode * 2 ^ s.tileCode + t.nat (s.reg .vb b) : Nat)) s

/-- SHFLLO: lane − b (R126). -/
def execShfllo (b a d : Reg) (s : State) : Out :=
  shuffle (Use.f3 b a d) a d (fun s l t => (l : Int) - t.nat (s.reg .vb b)) s

/-- SHFLHI: lane + b (R126). -/
def execShflhi (b a d : Reg) (s : State) : Out :=
  shuffle (Use.f3 b a d) a d (fun s l t => (l : Int) + t.nat (s.reg .vb b)) s

/-- SHFLX: lane XOR b (R126). -/
def execShflx (b a d : Reg) (s : State) : Out :=
  shuffle (Use.f3 b a d) a d (fun s l t => (l ^^^ t.nat (s.reg .vb b) : Nat)) s

/-- BCAST: base + vb of the lowest-numbered active lane of the tile (R126). -/
def execBcast (b a d : Reg) (s : State) : Out :=
  shuffle (Use.f3 b a d) a d (fun s l _ =>
    match usable s.tileCode (s.values (s.reg .vb b)) l with
    | p :: _ => (l / 2 ^ s.tileCode * 2 ^ s.tileCode + p.2.toNat : Nat)
    | [] => -1) s

/-- A vote, match, reduction or scan: a function of the lane and the usable lanes' values (R127–R129, R133). -/
def gather (a d : Reg) (near : Nat → Nat → Bool) (f : Nat → Word → List (Nat × Word) → Word) (s : State) : Out :=
  s.issue (Use.f2 a d) (fun s =>
    let vals := s.values (s.reg .va a)
    let code := s.tileCode
    .next (s.mapActive (fun l t =>
      t.set (s.reg .vd d) (f l (t.get (s.reg .va a)) ((usable code vals l).filter (fun p => near p.1 l))))).finish)

/-- Every usable lane counts. -/
def anyLane (_ _ : Nat) : Bool := true

/-- VOTE.any (R127). -/
def execVoteAny (a d : Reg) (s : State) : Out := gather a d anyLane (fun _ _ g => flagWord (g.any (fun p => p.2 != 0))) s

/-- VOTE.all (R127). -/
def execVoteAll (a d : Reg) (s : State) : Out := gather a d anyLane (fun _ _ g => flagWord (g.all (fun p => p.2 != 0))) s

/-- VOTE.bal (R127). -/
def execVoteBal (a d : Reg) (s : State) : Out :=
  gather a d anyLane (fun _ _ g => maskOf ((g.filter (fun p => p.2 != 0)).map (·.1))) s

/-- MATCH.b (R128). -/
def execMatchB (a d : Reg) (s : State) : Out :=
  gather a d anyLane (fun _ x g => maskOf ((g.filter (fun p => p.2 == x)).map (·.1))) s

/-- MATCH.f (R128). -/
def execMatchF (a d : Reg) (s : State) : Out :=
  gather a d anyLane (fun _ x g => maskOf ((g.filter (fun p => matchFloat p.2.toNat x.toNat)).map (·.1))) s

/-- The sum, signed minimum and signed maximum of values (R129). -/
def sumWords (g : List (Nat × Word)) : Word := g.foldl (fun acc p => acc + p.2) 0
def minWords (x : Word) (g : List (Nat × Word)) : Word := g.foldl (fun acc p => signedMin acc p.2) x
def maxWords (x : Word) (g : List (Nat × Word)) : Word := g.foldl (fun acc p => signedMax acc p.2) x

/-- REDW.add (R129). -/
def execRedwAdd (a d : Reg) (s : State) : Out := gather a d anyLane (fun _ _ g => sumWords g) s

/-- REDW.min (R129). -/
def execRedwMin (a d : Reg) (s : State) : Out := gather a d anyLane (fun _ x g => minWords x g) s

/-- REDW.max (R129). -/
def execRedwMax (a d : Reg) (s : State) : Out := gather a d anyLane (fun _ x g => maxWords x g) s

/-- SCANW.add: inclusive, in lane order (R129). -/
def execScanwAdd (a d : Reg) (s : State) : Out :=
  gather a d anyLane (fun l _ g => sumWords (g.filter (fun p => decide (p.1 ≤ l)))) s

/-- QRED.add over the quad (R133). -/
def execQredAdd (a d : Reg) (s : State) : Out := gather a d sameQuad (fun _ _ g => sumWords g) s

/-- QRED.min over the quad (R133). -/
def execQredMin (a d : Reg) (s : State) : Out := gather a d sameQuad (fun _ x g => minWords x g) s

/-- QRED.max over the quad (R133). -/
def execQredMax (a d : Reg) (s : State) : Out := gather a d sameQuad (fun _ x g => maxWords x g) s

/-- QSWP.h: lane XOR 1 (R132). -/
def execQswpH (a d : Reg) (s : State) : Out := shuffle (Use.f2 a d) a d (fun _ l _ => (l ^^^ 1 : Nat)) s

/-- QSWP.v: lane XOR 2 (R132). -/
def execQswpV (a d : Reg) (s : State) : Out := shuffle (Use.f2 a d) a d (fun _ l _ => (l ^^^ 2 : Nat)) s

/-- QSWP.d: lane XOR 3 (R132). -/
def execQswpD (a d : Reg) (s : State) : Out := shuffle (Use.f2 a d) a d (fun _ l _ => (l ^^^ 3 : Nat)) s

/-- QBCAST: quad lane n (R132). -/
def execQbcast (n : BitVec 7) (a d : Reg) (s : State) : Out :=
  shuffle (Use.f2 a d) a d (fun _ l _ => (4 * (l / 4) + n.toNat : Nat)) s

/-- TILEP: the old PARTN to vd, the new size for the whole warp; a bundle of helper lanes only leaves PARTN (R130). -/
def execTilep (n : BitVec 7) (d : Reg) (s : State) : Out :=
  s.issue { opds := [.one .vd d], rep := true } (fun s =>
    let old := match s.warp? with | some w => w.partn | none => 0
    let s1 := s.mapActive (fun _ t => t.set (s.reg .vd d) old)
    let s2 := if s.live.isEmpty then s1 else s1.modWarp (fun w => { w with partn := n.setWidth 32 })
    .next s2.finish)

/-- One butterfly step over (lane, value, flags): partners that are active combine lower with higher (R91). -/
def butterfly (op : Nat → Nat → Nat → FpOut) (dist : Nat) (l : List (Nat × Nat × BitVec 5)) : List (Nat × Nat × BitVec 5) :=
  l.map (fun p =>
    match l.find? (fun q => q.1 == p.1 ^^^ dist) with
    | some q =>
      let o := if p.1 < q.1 then op p.1 p.2.1 q.2.1 else op p.1 q.2.1 p.2.1
      (p.1, o.bits, p.2.2 ||| o.flags)
    | none => p)

/-- The steps of the butterfly for a tile size code: 16, 8, 4, 2, 1 below the tile size (R91). -/
def butterflySteps (code : Nat) : List Nat := [16, 8, 4, 2, 1].filter (fun d => decide (d < 2 ^ code))

/-- The environment of a tile: that of its lowest-numbered active lane, under MOD (R91, R134). -/
def tileEnv (s : State) (l : Nat) : FpEnv :=
  match s.active.find? (fun p => sameTile s.tileCode p.1 l) with
  | some p => fpEnv s.cur p.2
  | none => ⟨.rne, false, false, false⟩

/-- FREDW: the butterfly over the tile; a lane with an enabled exception stops, and its values still serve the others (R134). -/
def fredw (a d : Reg) (op : FpEnv → Nat → Nat → FpOut) (s : State) : Out :=
  s.issue (Use.f2 a d).fp (fun s =>
    let start := s.active.map (fun p => (p.1, p.2.nat (s.reg .va a), (0 : BitVec 5)))
    let res := (butterflySteps s.tileCode).foldl (fun l k => butterfly (fun lane => op (tileEnv s lane)) k l) start
    .next (s.mapActive (fun l t =>
      match res.find? (fun p => p.1 == l) with
      | some p => t.putFp32 (s.reg .vd d) ⟨p.2.1, p.2.2⟩
      | none => t)).finish)

/-- FREDW.add (R134). -/
def execFredwAdd (a d : Reg) (s : State) : Out := fredw a d (fpAdd .f32) s

/-- A step of FREDW.min or FREDW.max: FMIN or FMAX, whose subnormal result FTZ makes a zero of its sign (R80, R134, log 52). -/
def minMaxStep (isMax : Bool) (env : FpEnv) (a b : Nat) : FpOut :=
  let o := fpMinMax isMax .f32 env a b
  if env.ftz && o.bits / 2 ^ 23 % 256 == 0 && o.bits % 2 ^ 23 != 0 then
    ⟨o.bits / 2 ^ 31 * 2 ^ 31, o.flags ||| flagUF ||| flagNX⟩
  else o

/-- FREDW.min (R134). -/
def execFredwMin (a d : Reg) (s : State) : Out := fredw a d (minMaxStep false) s

/-- FREDW.max (R134). -/
def execFredwMax (a d : Reg) (s : State) : Out := fredw a d (minMaxStep true) s

/-- A regrouping boundary: a window of FPX stops ends with its interval, and the ready bundles at one PC and remaining count merge
(R55, R87). -/
def Warp.regroup (w : Warp) : Warp :=
  let w1 := if w.collecting then w.collectFpx else w
  { w1 with bundles := mergeBundles w1 w1.bundles }

/-- BUNDLE_REGROUP: a warp comes to a boundary (R55, R87). -/
def execBundleRegroup (s : State) : Out :=
  match s.warpAt? s.ev.core s.ev.slot with
  | some _ => .next (s.modWarpAt s.ev.core s.ev.slot Warp.regroup)
  | none => .fault .noSuchEvent

end Sys2Proof.Machine
end

