-- ==== Sys2Proof/Machine/Special.lean ====
section
/-!
DEFINITION. The special functions (R119–R121) and the powers, logarithms and exponentials of the transformed mean (R262–R266),
each with one rounding of its exact result. Quotients and roots are exact with a remainder; the transcendental ones are
enclosed in an interval, at rising precision, until the leading bits of both ends agree. Where the exact result is a number
that could stand on a rounding boundary it is recognised and formed exactly.
-/

namespace Sys2Proof.Machine

/-- Integer square root, one bit at a time. -/
def isqrtFrom : Nat → Nat → Nat → Nat
  | 0, _, r => r
  | k + 1, n, r =>
    let c := r + 2 ^ k
    isqrtFrom k n (if c * c ≤ n then c else r)

def isqrt (n : Nat) : Nat := isqrtFrom (bitLen n / 2 + 1) n 0

/-- Integer w-th root, one bit at a time. -/
def irootFrom (w : Nat) : Nat → Nat → Nat → Nat
  | 0, _, r => r
  | k + 1, n, r =>
    let c := r + 2 ^ k
    irootFrom w k n (if c ^ w ≤ n then c else r)

/-- The w-th root of n when it is a whole number. -/
def perfectRoot (w n : Nat) : Option Nat :=
  if n = 1 then some 1
  else if 64 < w then none
  else
    let r := irootFrom w (bitLen n / w + 1) n 0
    if r ^ w = n then some r else none

/-- a/b·2^e, to more than 80 bits and whether something remains. -/
def ratio (neg : Bool) (a b : Nat) (e : Int) : Exact :=
  let k := 90 + bitLen b - bitLen a
  ⟨neg, a * 2 ^ k / b, e - k, a * 2 ^ k % b != 0⟩

/-- m·2^e with e made even, m scaled by an even power of two to at least 2w bits. -/
def evenScale (m : Nat) (e : Int) (w : Nat) : Nat × Int :=
  let odd : Nat := if e % 2 = 0 then 0 else 1
  (m * 2 ^ (odd + 2 * w), e - odd - 2 * w)

/-- √(m·2^e). -/
def sqrtExact (m : Nat) (e : Int) : Exact :=
  let (n, x) := evenScale m e 80
  let r := isqrt n
  ⟨false, r, x / 2, r * r != n⟩

/-- 1/√(m·2^e). -/
def rsqrtExact (m : Nat) (e : Int) : Exact :=
  let (n, x) := evenScale m e 0
  let k := 90 + bitLen n
  let r := isqrt (2 ^ (2 * k) / n)
  ⟨false, r, -(k : Int) - x / 2, r * r * n != 2 ^ (2 * k)⟩

/-- An interval of fixed-point numbers at 2^−P. -/
structure Iv where
  lo : Int
  hi : Int
  deriving DecidableEq, Repr

/-- Rounds an integer quotient upward. -/
def ceilDiv (a : Int) (b : Int) : Int := -(-a / b)

/-- 2·atanh(t) for a fixed-point t below 1/3, by its series: a lower bound, its error below 4n + 8. -/
def atanhFrom (P : Nat) (t2 : Nat) : Nat → Nat → Nat → Nat → Nat
  | 0, _, _, acc => acc
  | k + 1, i, pw, acc => atanhFrom P t2 k (i + 1) (pw * t2 / 2 ^ P) (acc + 2 * pw / (2 * i + 1))

/-- ln(a/b) for b ≤ a < 2b. -/
def lnIv (P a b : Nat) : Iv :=
  let t := (a - b) * 2 ^ P / (a + b)
  let n := P / 3 + 3
  let s := atanhFrom P (t * t / 2 ^ P) n 0 t 0
  ⟨s, s + 8 * n + 16⟩

/-- ln 2. -/
def ln2Iv (P : Nat) : Iv :=
  let t := 2 ^ P / 3
  let n := P / 3 + 3
  let s := atanhFrom P (t * t / 2 ^ P) n 0 t 0
  ⟨s, s + 8 * n + 16⟩

/-- log₂ of a positive whole number. -/
def log2Iv (P a : Nat) : Iv :=
  let k := bitLen a - 1
  let l := lnIv P a (2 ^ k)
  let c := ln2Iv P
  ⟨k * 2 ^ P + l.lo * 2 ^ P / c.hi, k * 2 ^ P + ceilDiv (l.hi * 2 ^ P) c.lo⟩

/-- e^g by its series, rounded down or up: the terms left, the number of the term, the term and the sum. -/
def expFrom (P : Nat) (g : Int) (up : Bool) : Nat → Nat → Int → Int → Int
  | 0, _, _, acc => acc
  | k + 1, i, term, acc =>
    let nt := if up then ceilDiv (term * g) (2 ^ P * (i + 1)) else term * g / (2 ^ P * (i + 1))
    expFrom P g up k (i + 1) nt (acc + nt)

/-- 2^f for f from 0 to about 1. -/
def exp2Iv (P : Nat) (f : Iv) : Iv :=
  let c := ln2Iv P
  let n := P / 2 + 16
  let one : Int := 2 ^ P
  ⟨expFrom P (f.lo * c.lo / 2 ^ P) false n 0 one one,
   expFrom P (ceilDiv (f.hi * c.hi) (2 ^ P)) true n 0 one one + 4⟩

/-- The arctangent of 1/k by its series, within 2n + 4. -/
def atanFrom (k2 : Nat) : Nat → Nat → Nat → Int → Int
  | 0, _, _, acc => acc
  | j + 1, i, pw, acc =>
    let term : Int := (pw / (2 * i + 1) : Nat)
    atanFrom k2 j (i + 1) (pw / k2) (if i % 2 = 0 then acc + term else acc - term)

/-- π/2, by 8·atan(1/5) − 2·atan(1/239). -/
def halfPiIv (P : Nat) : Iv :=
  let n := P / 4 + 4
  let a := atanFrom 25 n 0 (2 ^ P / 5) 0
  let b := atanFrom 57121 n 0 (2 ^ P / 239) 0
  let err : Int := 10 * (2 * n + 4)
  ⟨8 * a - 2 * b - err, 8 * a - 2 * b + err⟩

/-- The terms of sine or cosine after the first, alternating: terms left, the next factor, the term, the sum. -/
def trigFrom (P : Nat) (x2 : Int) : Nat → Nat → Int → Int → Int
  | 0, _, _, acc => acc
  | k + 1, i, term, acc =>
    let nt := -(term * x2 / (2 ^ P * (i * (i + 1))))
    trigFrom P x2 k (i + 2) nt (acc + nt)

/-- sin r or cos r for r from 0 to about π/2. -/
def trigIv (P : Nat) (cosine : Bool) (r : Iv) : Iv :=
  let x2 := r.lo * r.lo / 2 ^ P
  let n := P / 4 + 8
  let s := if cosine then trigFrom P x2 n 1 (2 ^ P) (2 ^ P) else trigFrom P x2 n 2 r.lo r.lo
  let err : Int := 8 * n + 16 + (r.hi - r.lo)
  ⟨s - err, s + err⟩

/-- An interval whose ends agree in their leading 44 bits names its number (never one with so few bits, by the caller). -/
def settle (e : Int) (v : Iv) : Option Exact :=
  let neg := decide (v.hi < 0)
  let lo := if neg then v.hi.natAbs else v.lo.natAbs
  let hi := if neg then v.lo.natAbs else v.hi.natAbs
  let k := bitLen lo - 44
  if (neg || decide (0 < v.lo)) && decide (0 < k) && lo / 2 ^ k == hi / 2 ^ k then
    some ⟨neg, lo / 2 ^ k, e + k, true⟩
  else none

/-- The first precision at which an enclosure settles. -/
def firstSettled (f : Nat → Option Exact) : List Nat → Option Exact
  | [] => none
  | P :: l => match f P with
    | some x => some x
    | none => firstSettled f l

/-- The settled value, or the free one for this function and operand (log 12). -/
def settled (key : Nat) (f : Nat → Option Exact) : Exact :=
  match firstSettled f [96, 256, 768, 2048] with
  | some x => x
  | none =>
    let (n, m, e) := Config.undecided key
    ⟨n, m, e, true⟩

/-- m·2^e with an odd m, for m above 0: the trailing zero bits counted with fuel. -/
def oddFrom : Nat → Nat → Int → Nat × Int
  | 0, m, e => (m, e)
  | k + 1, m, e => if m % 2 = 0 then oddFrom k (m / 2) (e + 1) else (m, e)

def oddPart (m : Nat) (e : Int) : Nat × Int := if m = 0 then (0, e) else oddFrom (bitLen m) m e

/-- Fixed-point lower and upper bounds of ±(num/den)·2^e at 2^−P. -/
def fixIv (P : Nat) (num : Int) (den : Nat) (e : Int) : Iv :=
  let s := e + P
  if 0 ≤ s then ⟨num * 2 ^ s.toNat / den, ceilDiv (num * 2 ^ s.toNat) den⟩
  else ⟨num / (den * 2 ^ (-s).toNat : Nat), ceilDiv num (den * 2 ^ (-s).toNat : Nat)⟩

/-- 2^u for an enclosed u. -/
def exp2Settle (P : Nat) (u : Iv) : Option Exact :=
  let n := u.lo / 2 ^ P
  settle (n - P) (exp2Iv P ⟨u.lo - n * 2 ^ P, u.hi - n * 2 ^ P⟩)

/-- 2^(num/den·2^e), exact when the exponent is whole (R120, R266). Exponents beyond ±4,096 only overflow or vanish. -/
def exp2Exact (key : Nat) (num : Int) (den : Nat) (e : Int) : Exact :=
  let top : Int := e + bitLen num.natAbs - bitLen den
  if 13 < top then (if num < 0 then ⟨false, 1, -4096, true⟩ else ⟨false, 1, 4096, false⟩)
  else if den = 1 ∧ 0 ≤ e then ⟨false, 1, num * 2 ^ e.toNat, false⟩
  else if num = 0 then ⟨false, 1, 0, false⟩
  else if top < -200 then
    (if num < 0 then ⟨false, 2 ^ 100 - 1, -100, true⟩ else ⟨false, 2 ^ 100, -100, true⟩)
  else settled key (fun P => exp2Settle P (fixIv P num den e))

/-- log₂(m·2^e), exact for a power of two (R120, R262). -/
def log2Exact (key : Nat) (m : Nat) (e : Int) : Exact :=
  let (o, x) := oddPart m e
  if o = 1 then ⟨decide (x < 0), x.natAbs, 0, false⟩
  else settled key (fun P =>
    let l := log2Iv P o
    settle (-P) ⟨l.lo + x * 2 ^ P, l.hi + x * 2 ^ P⟩)

/-- (a/b·2^e)^r with r = ±(u/v)·2^t, for odd a, b, u and v, a and b without a common factor, u = 1 or v = 1 (R262, R266). -/
def powExact (key : Nat) (a b : Nat) (e : Int) (neg : Bool) (u v : Nat) (t : Int) : Exact :=
  let (a, b, e) := if neg then (b, a, -e) else (a, b, e)
  let w := v * 2 ^ (-t).toNat
  let n := u * 2 ^ t.toNat
  let whole : Option Exact :=
    if b = 1 ∧ e % (w : Int) = 0 then
      match perfectRoot w a with
      | some 1 => some ⟨false, 1, max (-20000) (min 20000 (e / w * n)), decide (e / w * n < -20000)⟩
      | some r => if n * bitLen r ≤ 4096 then some ⟨false, r ^ n, e / w * n, false⟩ else none
      | none => none
    else none
  match whole with
  | some x => x
  | none =>
    if w = 1 ∧ n = 1 then ratio false a b e
    else settled key (fun P =>
      let la := log2Iv P a
      let lb := log2Iv P b
      let lo := (la.lo - lb.hi + e * 2 ^ P) * u
      let hi := (la.hi - lb.lo + e * 2 ^ P) * u
      let u' : Iv := if 0 ≤ t then ⟨lo * 2 ^ t.toNat / v, ceilDiv (hi * 2 ^ t.toNat) v⟩
        else ⟨lo / (v * 2 ^ (-t).toNat : Nat), ceilDiv hi (v * 2 ^ (-t).toNat : Nat)⟩
      if 5000 * 2 ^ P < u'.lo then
        (if 20000 * 2 ^ P < u'.lo then some ⟨false, 1, 20000, false⟩ else exp2Settle P u')
      else if u'.hi < -20000 * 2 ^ P then some ⟨false, 1, -20000, true⟩
      else exp2Settle P u')

/-- sin and cos of ±m·2^e radians with exact range reduction (R120). -/
def trigExact (key : Nat) (cosine neg : Bool) (m : Nat) (e : Int) : Exact :=
  settled key (fun P0 =>
    let P := P0 + e.toNat + bitLen m
    let c := halfPiIv P
    let x := fixIv P m 1 e
    let q := x.lo / c.hi
    let q' := x.hi / c.lo
    if q = q' then
      let r : Iv := ⟨max 0 (x.lo - q * c.hi), x.hi - q * c.lo⟩
      let quad := q % 4
      let useCos := (quad % 2 == 1) != cosine
      let v := trigIv P useCos r
      let minus := if cosine then quad == 1 || quad == 2 else (decide (2 ≤ quad)) != neg
      settle (-P) (if minus then ⟨-v.hi, -v.lo⟩ else v)
    else none)

/-- tanh(±m·2^e), from 2^(2x·log₂e) (R120). Beyond 64 it lies within 2^−100 of 1. -/
def tanhExact (key : Nat) (neg : Bool) (m : Nat) (e : Int) : Exact :=
  if 6 < e + bitLen m then ⟨neg, 2 ^ 100 - 1, -100, true⟩
  else settled key (fun P =>
    let c := ln2Iv P
    let x := fixIv P (2 * m) 1 e
    let u : Iv := ⟨x.lo * 2 ^ P / c.hi, ceilDiv (x.hi * 2 ^ P) c.lo⟩
    let n := u.lo / 2 ^ P
    let y := exp2Iv P ⟨u.lo - n * 2 ^ P, u.hi - n * 2 ^ P⟩
    let k : Int := 2 ^ n.toNat
    let one : Int := 2 ^ P
    let v : Iv := ⟨(y.lo * k - one) * one / (y.lo * k + one), ceilDiv ((y.hi * k - one) * one) (y.hi * k + one)⟩
    settle (-P) (if neg then ⟨-v.hi, -v.lo⟩ else v))

/-- The operations of the SFU (R31, R119). -/
inductive SfuOp where
  | rcp | rsq | sqrt | exp2 | log2 | sin | cos | tanh
  deriving DecidableEq, Repr

def SfuOp.code : SfuOp → Nat
  | .rcp => 0 | .rsq => 1 | .sqrt => 2 | .exp2 => 3 | .log2 => 4 | .sin => 5 | .cos => 6 | .tanh => 7

/-- The exact result for a finite non-zero operand in the operation's domain. -/
def sfuExact (op : SfuOp) (neg : Bool) (m : Nat) (e : Int) : Exact :=
  let key := op.code * 2 ^ 64 + m * 2 ^ 20 + (e + 2000).toNat * 2 + (if neg then 1 else 0)
  match op with
  | .rcp => ratio neg 1 m (-e)
  | .rsq => rsqrtExact m e
  | .sqrt => sqrtExact m e
  | .exp2 =>
    let (o, x) := oddPart m e
    exp2Exact key (if neg then -(o : Int) else o) 1 x
  | .log2 => log2Exact key m e
  | .sin => trigExact key false neg m e
  | .cos => trigExact key true neg m e
  | .tanh => tanhExact key neg m e

/-- The special values (R121): some result, or none where the result is as computed. -/
def sfuSpecial (op : SfuOp) (f : NumFmt) (env : FpEnv) (x : Fp) : Option FpOut :=
  let one : Nat := fmtBias f * 2 ^ fracBits f
  let nan : Option FpOut := some ⟨canonNan f, flagIV⟩
  match x with
  | .nan .. => some ⟨nanBits f env [x], snanFlag [x]⟩
  | .inf n =>
    match op with
    | .rcp => some ⟨signBit f n, 0⟩
    | .rsq => if n then nan else some ⟨0, 0⟩
    | .sqrt | .log2 => if n then nan else some ⟨infMag f, 0⟩
    | .exp2 => if n then some ⟨0, 0⟩ else some ⟨infMag f, 0⟩
    | .sin | .cos => nan
    | .tanh => some ⟨signBit f n + one, 0⟩
  | .fin n m _ =>
    if m = 0 then
      match op with
      | .rcp | .rsq => some ⟨signBit f n + infMag f, flagDZ⟩
      | .sqrt | .sin | .tanh => some ⟨signBit f n, 0⟩
      | .exp2 | .cos => some ⟨one, 0⟩
      | .log2 => some ⟨signBit f true + infMag f, flagDZ⟩
    else if n then
      match op with
      | .rsq | .sqrt | .log2 => nan
      | _ => none
    else none

/-- Mode 00: a 22-bit significand, subnormals flushed, only invalid, divide by zero and overflow (R120). A NaN source gives
the NaN that FPMODE.CNAN selects (R81, R121, log 67). -/
def sfuApprox (op : SfuOp) (env : FpEnv) (a : Nat) : FpOut :=
  let x := Fp.ofBits .f32 (dazBits .f32 { env with daz := true } a)
  match sfuSpecial op .f32 env x with
  | some r => r
  | none =>
    match x with
    | .fin n m e =>
      let y := ((sfuExact op n m e).toPrec 22 .rne).1
      let top := y.e + bitLen y.m - 1
      if y.m ≠ 0 ∧ 128 ≤ top then ⟨signBit .f32 y.neg + infMag .f32, flagOF⟩
      else if top < -126 then ⟨signBit .f32 y.neg, 0⟩
      else ⟨(y.round .f32 .rne false false).bits, 0⟩
    | _ => ⟨0, 0⟩

/-- Modes 01 and 10: the correctly rounded value (R120). -/
def sfuRounded (op : SfuOp) (f : NumFmt) (env : FpEnv) (a : Nat) : FpOut :=
  let x := Fp.src f env a
  match sfuSpecial op f env x with
  | some r => r
  | none =>
    match x with
    | .fin n m e => (sfuExact op n m e).round f env.rm env.ftz false
    | _ => ⟨0, 0⟩

end Sys2Proof.Machine
end

