-- ==== Sys2Proof/Machine/Tm.lean ====
section
/-!
DEFINITION. The transformed mean (R240–R243, R262–R272): entry into a partial, exit from one, table pairs, and the
instructions of major 0x1A. The merge stands in Machine/Partial.lean.
-/

namespace Sys2Proof.Machine

/-! Shapes. -/

/-- The shape in TMSHAPE (R240, R262): 0, +∞, or ±u·2^t with odd u. -/
inductive Shape where
  | zero | top
  | pow (neg : Bool) (u : Nat) (t : Int)
  deriving DecidableEq, Repr

def Shape.ofBits (p : Word) : Shape :=
  match Fp.ofBits .f32 p.toNat with
  | .fin n m e => if m = 0 then .zero else let (u, t) := oddPart m e; .pow n u t
  | _ => .top

/-- The mode and the slot of TMCTL, and TARG (R240). -/
def Thread.tmTable (t : Thread) : Bool := bit t.tmctl.toNat 0
def Thread.tmSlot (t : Thread) : Nat := field t.tmctl.toNat 3 1
def Thread.tmTarg (t : Thread) : Bool := bit t.tmctl.toNat 4

/-! Table pairs (R267). -/

/-- A finite FP32 value in units of 2^−149. -/
def fix32 (x : Word) : Int :=
  match Fp.ofBits .f32 x.toNat with
  | .fin n m e => if n then -(m * 2 ^ (e + 149).toNat : Nat) else (m * 2 ^ (e + 149).toNat : Nat)
  | _ => 0

/-- An integer times 2^e as an exact value. -/
def exactInt (x : Int) (e : Int) : Exact := ⟨decide (x < 0), x.natAbs, e, false⟩

/-- The entry table at x, or none outside [lo, hi] (R267). -/
def TmSlot.entry (s : TmSlot) (x : Word) : Option Exact :=
  let X := fix32 x
  let lo := fix32 s.lo
  let hi := fix32 s.hi
  if X < lo ∨ hi < X then none
  else
    let i := min 255 (256 * (X - lo) / (hi - lo)).toNat
    some (exactInt (fix32 (s.words.getD (2 * i) 0) * 2 ^ 157 +
      fix32 (s.words.getD (2 * i + 1) 0) * (256 * (X - lo) - i * (hi - lo))) (-306))

/-- The exit table at S·2^k / n, or none outside its domain (R267). A value below every place that the tables can name counts
by its sign alone. -/
def TmSlot.exit (s : TmSlot) (S k : Int) (n : Nat) : Option Exact :=
  let (S, k) := if k < -1200 then ((if S < 0 then -1 else if S = 0 then 0 else 1 : Int), (-1200 : Int)) else (S, k)
  if 200 < k ∧ S ≠ 0 then none
  else
    let un : Int := if 200 < k then 0 else S * 2 ^ (k + 1200).toNat
    let a := fix32 s.ylo
    let b := fix32 s.yhi
    let c : Int := 2 ^ 1051 * n
    let T := un - min a b * c
    let W := (max a b - min a b) * c
    if T < 0 ∨ W < T then none
    else
      let j := min 255 (256 * T / W).toNat
      let num := fix32 (s.words.getD (512 + 2 * j) 0) * (256 * n * 2 ^ 1200) +
        fix32 (s.words.getD (512 + 2 * j + 1) 0) * (256 * T - j * W)
      some (if num = 0 then ⟨false, 0, 0, false⟩ else ratio (decide (num < 0)) num.natAbs n (-1357))

/-- The slot that a lane's TMCTL names on a core. -/
def State.tmSlotOf (s : State) (t : Thread) : Option TmSlot := tget (s.core s.cur.core).tms t.tmSlot

/-! Entry (R262, R264). -/

/-- The key of an undecided result of entry (log 12). -/
def entryKey (p x : Word) : Nat := 2 ^ 100 + p.toNat * 2 ^ 32 + x.toNat

/-- f(x) for a finite x, or none outside the domain (R262, R267). -/
def State.tmF (s : State) (t : Thread) (x : Word) (neg : Bool) (m : Nat) (e : Int) : Option Exact :=
  if t.tmTable then (s.tmSlotOf t).bind (fun k => k.entry x)
  else
    match Shape.ofBits t.tmshape with
    | .top => if neg && m != 0 then none else some ⟨false, m, e, false⟩
    | .zero => if neg || m == 0 then none else some (log2Exact (entryKey t.tmshape x) m e)
    | .pow pn u q =>
      if m = 0 then (if pn then none else some ⟨false, 0, 0, false⟩)
      else if neg then none
      else let (o, i) := oddPart m e; some (powExact (entryKey t.tmshape x) o 1 i pn u 1 q)

/-- The partial of an exact value (R263). -/
def Exact.partial_ (x : Exact) (slot : Nat) (maxm : Bool) : Partial :=
  Partial.norm ⟨if x.neg then -(x.m : Int) else x.m, x.e, 1, false, false, false, maxm, slot⟩

/-- entry(x): a partial and its flags; none outside the domain (R264). -/
def State.tmEntry (s : State) (t : Thread) (x : Word) : Option (Partial × BitVec 5) :=
  let slot := if t.tmTable then t.tmSlot else 0
  let top := !t.tmTable && Shape.ofBits t.tmshape == .top
  match Fp.ofBits .f32 x.toNat with
  | .nan _ sig _ => some (⟨0, 0, 1, false, true, false, false, slot⟩, if sig then flagIV else 0)
  | .inf _ => none
  | .fin neg m e =>
    match s.tmF t x neg m e with
    | none => none
    | some y =>
      if top then some (y.partial_ slot true, 0)
      else if y.m = 0 && !y.more then some (⟨0, 0, 1, false, false, false, false, slot⟩, 0)
      else
        let (r, inexact) := y.toPrec 24 .rne
        some (r.partial_ slot false, if inexact then flagNX else 0)

/-- The partial of an argument outside the domain, with TARG = 0 (R272). -/
def Thread.argPartial (t : Thread) : Partial := ⟨0, 0, 1, true, false, false, false, if t.tmTable then t.tmSlot else 0⟩

/-! Exit (R266). -/

/-- The key of an undecided result of exit (log 12). -/
def exitKey (p : Word) (x : Partial) : Nat :=
  2 ^ 240 + (((x.S + 2 ^ 63).toNat * 2 ^ 33 + (x.k + 2 ^ 31).toNat) * 2 ^ 24 + x.n) * 2 ^ 32 + p.toNat

/-- S·2^k / n as ±a/b·2^e with odd a and b without a common factor, for S above or below 0. -/
def Partial.mean (x : Partial) : Nat × Nat × Int :=
  let (a, i) := oddPart x.S.natAbs x.k
  let (b, j) := oddPart x.n 0
  let g := Nat.gcd a b
  (a / g, b / g, i - j)

/-- The canonical NaN of exit. -/
def exitNan (f : BitVec 5) : FpOut := ⟨0x7FC00000, f⟩

/-- exit in power mode (R266). -/
def powerExit (p : Word) (x : Partial) : FpOut :=
  let (a, b, e) := x.mean
  match Shape.ofBits p with
  | .top => exitNan flagIV
  | .zero =>
    (exp2Exact (exitKey p x) (if x.S < 0 then -(a : Int) else a) b e).round .f32 .rne false false
  | .pow pn u t =>
    if x.S < 0 then exitNan flagIV
    else if x.S = 0 then (if pn then ⟨0x7F800000, flagDZ⟩ else ⟨0, 0⟩)
    else (powExact (exitKey p x) a b e pn 1 u (-t)).round .f32 .rne false false

/-- exit(partial): the first case that applies (R266). -/
def State.tmExit (s : State) (t : Thread) (ws : List Word) : FpOut :=
  let x0 := Partial.ofWords ws
  let x := if x0.isEmpty then x0 else x0.norm
  if x.arg then exitNan flagIV
  else if x.nan then exitNan 0
  else if x.n = 0 then exitNan flagIV
  else if x.maxm then (exactInt x.S x.k).round .f32 .rne false false
  else if x.sat then exitNan flagIV
  else if t.tmTable then
    if x.slot ≠ t.tmSlot then exitNan flagIV
    else
      match (s.tmSlotOf t).bind (fun k => k.exit x.S x.k x.n) with
      | some y => y.round .f32 .rne false false
      | none => exitNan flagIV
  else if x.slot ≠ 0 then exitNan flagIV
  else powerExit t.tmshape x

/-! The instructions (R269–R271). -/

/-- Of faults of lanes, the one of highest rank, for the lowest lane (R291). -/
def topFault : List (Cause × Nat × Nat) → Option (Cause × Nat × Nat)
  | [] => none
  | x :: l =>
    match topFault l with
    | some y => if y.1.rank < x.1.rank then some y else some x
    | none => some x

/-- The table slot that TMCTL names is in the current domain slot's mask, and valid (R242, R268). -/
def State.tmCheck (s : State) (w : Warp) (t : Thread) : Option (Cause × Nat) :=
  if !t.tmTable then none
  else if !bit (dpTm ((s.core s.cur.core).dp w.curSlot)) t.tmSlot then some (.domain, t.tmSlot)
  else match s.tmSlotOf t with | some k => if k.valid then none else some (.format, 0) | none => some (.format, 0)

/-- A transformed-mean instruction of the lanes: the slot checks, the argument fault, then results that pend under the window.
`f` answers registers and flags, or none for an argument outside the domain; a lane with an enabled exception stops (R86). -/
def tmIssue (opds : List Opd) (L : BitVec 4) (check : Bool) (dst : List Nat) (arg : Thread → Word)
    (f : Nat → Thread → Option (List Word × BitVec 5)) (s0 : State) : Out :=
  s0.issue { opds := opds, rep := true } (fun s =>
    match s.warp? with
    | none => .fault .noWarp
    | some w =>
      let bad := s.active.filterMap (fun p =>
        match if check then s.tmCheck w p.2 else none with
        | some (c, slot) => some (c, p.1, slot)
        | none => if (f p.1 p.2).isNone then some (.argument, p.1, (arg p.2).toNat) else none)
      match topFault bad with
      | some (c, lane, lo) => .next (s.fault c lane (BitVec.ofNat 32 lo) 0)
      | none =>
        let out := s.active.map (fun p => (p.1, (f p.1 p.2).getD ([], 0)))
        let stops (n : Nat) (t : Thread) : Bool := match tget out n with | some x => x.2 &&& t.enables != 0 | none => false
        let ws : List LaneWrite := (s.active.filter (fun p => !stops p.1 p.2)).map (fun p =>
          let x := (tget out p.1).getD ([], 0)
          ⟨p.1, dst.zip x.1, x.2⟩)
        let (id, s1) := s.fresh
        let pc := match s.active with | (_, t) :: _ => t.pc | [] => 0
        let s2 := { s1 with pend := s1.pend ++ [(⟨id, s.cur.core, s.cur.slot, pc, none, .result .tm ws⟩ : Pending)] }
        .next (s2.mapActive (fun n t =>
          match tget out n with
          | some x => if x.2 &&& t.enables != 0 then t.stopFpx x.2 else t.openWindow s.cur.last L.toNat (t.enables != 0) [id] dst
          | none => t)).finish)

/-- Registers of a partial. -/
def four (r : Nat) : List Nat := [r, r + 1, r + 2, r + 3]

/-- TMCLR: the empty partial (R269). -/
def execTmclr (L : BitVec 4) (d : Reg) (s : State) : Out :=
  tmIssue [.four .vd d] L false (four (s.reg .vd d)) (fun _ => 0) (fun _ _ => some (Partial.empty.words, 0)) s

/-- The entry of a lane's x; outside the domain ARG is set, or nothing answered with TARG = 1 (R272). -/
def State.enter (s : State) (t : Thread) (x : Word) : Option (Partial × BitVec 5) :=
  match s.tmEntry t x with
  | some y => some y
  | none => if t.tmTarg then none else some (t.argPartial, 0)

/-- TMENT (R264). -/
def execTment (L : BitVec 4) (a d : Reg) (s : State) : Out :=
  let r := s.reg .va a
  tmIssue [.four .vd d, .one .va a] L true (four (s.reg .vd d)) (fun t => t.get r)
    (fun _ t => (s.enter t (t.get r)).map (fun x => (x.1.words, x.2))) s

/-- TMACC: the entry of x merges into vd (R269, R270). -/
def execTmacc (L : BitVec 4) (a d : Reg) (s : State) : Out :=
  let r := s.reg .va a
  let v := s.reg .vd d
  tmIssue [.four .vd d, .one .va a] L true (four v) (fun t => t.get r)
    (fun _ t => (s.enter t (t.get r)).map (fun x => (mergeWords (t.group v 4) x.1.words, x.2))) s

/-- TMMRG (R265, R269). -/
def execTmmrg (L : BitVec 4) (a d : Reg) (s : State) : Out :=
  let v := s.reg .vd d
  tmIssue [.four .vd d, .four .va a] L false (four v) (fun _ => 0)
    (fun _ t => some (mergeWords (t.group v 4) (t.group (s.reg .va a) 4), 0)) s

/-- One step of the merge tree over all 32 positions (R91, R271). -/
def mergeStep (dist : Nat) (l : List (List Word)) : List (List Word) :=
  (List.range 32).map (fun i =>
    let a := l.getD (min i (i ^^^ dist)) []
    let b := l.getD (max i (i ^^^ dist)) []
    mergeWords a b)

/-- TMREDW: the tile's partials by the butterfly, with an empty one where no active lane stands (R271). -/
def execTmredw (L : BitVec 4) (d : Reg) (s : State) : Out :=
  let v := s.reg .vd d
  let start : List (List Word) := (List.range 32).map (fun i =>
    match tget s.active i with
    | some t => t.group v 4
    | none => Partial.empty.words)
  let res := (butterflySteps s.tileCode).foldl (fun l k => mergeStep k l) start
  tmIssue [.four .vd d] L true (four v) (fun _ => 0) (fun n _ => some (res.getD n [], 0)) s

/-- TMEXIT (R266). -/
def execTmexit (L : BitVec 4) (a d : Reg) (s : State) : Out :=
  tmIssue [.one .vd d, .four .va a] L true [s.reg .vd d] (fun _ => 0)
    (fun _ t => let o := s.tmExit t (t.group (s.reg .va a) 4); some ([BitVec.ofNat 32 o.bits], o.flags)) s

/-- TM_RESULT_WRITTEN: destination and flags are written (R33, R269). -/
def execTmResultWritten (s : State) : Out := s.arrive s.ev.id (fun k => k == .tm)

/-! TMLD (R268). -/

/-- A finite FP32 value. -/
def finite32 (x : Word) : Bool := match Fp.ofBits .f32 x.toNat with | .fin .. => true | _ => false

/-- TMLD: the checks, then the wait for its counter, then acceptance in class 7 (R172, R268). -/
def execTmld (L : BitVec 4) (n : BitVec 3) (a d : Reg) (s : State) : Out :=
  s.issue { opds := [.four .vd d, .two .va a], rep := true } (fun s =>
    match s.warp?, s.live with
    | some w, (lane, t) :: _ =>
      let v := s.reg .vd d
      let va := t.nat64 (s.reg .va a)
      let ps := t.group v 4
      let x (i : Nat) : Int := fix32 (ps.getD i 0)
      if !bit (dpTm ((s.core s.cur.core).dp w.curSlot)) n.toNat then .next (s.fault .domain lane (BitVec.ofNat 32 n.toNat) 0)
      else if !ps.all finite32 || decide (x 1 ≤ x 0) || x 2 == x 3 then .next (s.fault .format lane 0 0)
      else if va % 64 ≠ 0 then .next (s.fault .align lane (BitVec.ofNat 32 va) (BitVec.ofNat 32 (va / 2 ^ 32)))
      else if 2 ^ 56 ≤ va then .next (s.fault .page lane (BitVec.ofNat 32 va) (BitVec.ofNat 32 (va / 2 ^ 32)))
      else if 63 ≤ w.cnt 7 then .next (s.stallAll .count)
      else
        let (id, s1) := s.fresh
        let ld : TmLoad := ⟨id, s.cur.core, s.cur.slot, lane, t.pc, n.toNat, va, ps, false⟩
        .next (({ s1 with loads := s1.loads ++ [ld] }.countEngine 7 id).openWindow L [] []).finish
    | some _, [] => .next s.finish
    | none, _ => .fault .noWarp)

/-- Reads bytes that a unit reads under a warp's authority, piece by piece within pages: the bytes, or a fault with its address
(R204, R268). An engine needs E on every page (R284); a stamped record gives its newest version (R340). -/
def State.engineRead (s : State) (w : Warp) (eng : Bool) : Nat → Nat → Nat → Except (Cause × Nat) (List Byte) × State
  | 0, _, _ => (.ok [], s)
  | k + 1, va, n =>
    if n = 0 then (.ok [], s)
    else if 2 ^ 56 ≤ va then (.error (.page, va), s)
    else
      let x : XReq := { w.request true false false with eng := eng }
      match s.xlateWalk x va with
      | (.good pa rot, s1) =>
        if (1 < rotType rot && !w.typeFree rot) || (regPage pa).isSome then (.error (.rot, va), s1)
        else if s1.lineRefuses x pa then (.error (.domain, va), s1)
        else
          let m := min n (65536 - va % 65536)
          match s1.engineRead w eng k (va + m) (n - m) with
          | (.ok b, s2) => (.ok ((if rotType rot = 1 then s1.stampedRead pa m else s1.homeRead pa m) ++ b), s2)
          | (.error e, s2) => (.error e, s2)
      | (.bad c, s1) => (.error (c, va), s1)
      | (.miss, s1) => (.error (.page, va), s1)

/-- TMLD_APPLY: the oldest load of its slot reads the pair; the slot is replaced whole, or made invalid with a deferred FORMAT;
a fault stops the load (R268). -/
def execTmldApply (s : State) : Out :=
  match s.loads.find? (fun l => l.id == s.ev.id) with
  | some l =>
    match s.warpAt? l.core l.slot, s.loads.find? (fun x => x.core == l.core && x.tslot == l.tslot) with
    | some w, some first =>
      if l.stopped || first.id != l.id then .fault .noSuchEvent
      else
        match s.engineRead w false 2 l.addr 4096 with
        | (.error (c, va), s1) =>
          .next (({ s1 with loads := s1.loads.map (fun (x : TmLoad) => if x.id = l.id then { x with stopped := true } else x) }).holdFault
            l.core l.slot (lateReport w c l.lane l.pc va l.id))
        | (.ok bytes, s1) =>
          let ws := bytesWords bytes
          let ok := ws.all finite32
          let p (i : Nat) : Word := l.params.getD i 0
          let s2 := { s1 with loads := s1.loads.filter (fun x => x.id != l.id) }
          let s3 := s2.modCore l.core (fun k => { k with
            tms := if ok then tput k.tms l.tslot ⟨true, p 0, p 1, p 2, p 3, ws⟩ else tdel k.tms l.tslot })
          let s4 := if ok then s3 else s3.modWarpAt l.core l.slot (fun w => { w with
            deferred := w.deferred ++ [⟨l.id, 7, .format, BitVec.ofNat 32 l.addr, BitVec.ofNat 32 (l.addr / 2 ^ 32)⟩] })
          .next (s4.completeEngine l.core l.slot 7 l.id)
    | _, _ => .fault .noSuchEvent
  | none => .fault .noSuchEvent

end Sys2Proof.Machine
end

