-- ==== Sys2Proof/Machine/Hash.lean ====
section
/-!
DEFINITION. SHA-512 (FIPS 180-4, log 18), and the manifest of a partition as its digests and settings make it (R385).
-/

namespace Sys2Proof.Machine

/-! SHA-512. -/

/-- Round constants 0 to 15. -/
def shaK0 : List Nat :=
  [0x428A2F98D728AE22, 0x7137449123EF65CD, 0xB5C0FBCFEC4D3B2F, 0xE9B5DBA58189DBBC,
   0x3956C25BF348B538, 0x59F111F1B605D019, 0x923F82A4AF194F9B, 0xAB1C5ED5DA6D8118,
   0xD807AA98A3030242, 0x12835B0145706FBE, 0x243185BE4EE4B28C, 0x550C7DC3D5FFB4E2,
   0x72BE5D74F27B896F, 0x80DEB1FE3B1696B1, 0x9BDC06A725C71235, 0xC19BF174CF692694]

/-- Round constants 16 to 31. -/
def shaK1 : List Nat :=
  [0xE49B69C19EF14AD2, 0xEFBE4786384F25E3, 0x0FC19DC68B8CD5B5, 0x240CA1CC77AC9C65,
   0x2DE92C6F592B0275, 0x4A7484AA6EA6E483, 0x5CB0A9DCBD41FBD4, 0x76F988DA831153B5,
   0x983E5152EE66DFAB, 0xA831C66D2DB43210, 0xB00327C898FB213F, 0xBF597FC7BEEF0EE4,
   0xC6E00BF33DA88FC2, 0xD5A79147930AA725, 0x06CA6351E003826F, 0x142929670A0E6E70]

/-- Round constants 32 to 47. -/
def shaK2 : List Nat :=
  [0x27B70A8546D22FFC, 0x2E1B21385C26C926, 0x4D2C6DFC5AC42AED, 0x53380D139D95B3DF,
   0x650A73548BAF63DE, 0x766A0ABB3C77B2A8, 0x81C2C92E47EDAEE6, 0x92722C851482353B,
   0xA2BFE8A14CF10364, 0xA81A664BBC423001, 0xC24B8B70D0F89791, 0xC76C51A30654BE30,
   0xD192E819D6EF5218, 0xD69906245565A910, 0xF40E35855771202A, 0x106AA07032BBD1B8]

/-- Round constants 48 to 63. -/
def shaK3 : List Nat :=
  [0x19A4C116B8D2D0C8, 0x1E376C085141AB53, 0x2748774CDF8EEB99, 0x34B0BCB5E19B48A8,
   0x391C0CB3C5C95A63, 0x4ED8AA4AE3418ACB, 0x5B9CCA4F7763E373, 0x682E6FF3D6B2B8A3,
   0x748F82EE5DEFB2FC, 0x78A5636F43172F60, 0x84C87814A1F0AB72, 0x8CC702081A6439EC,
   0x90BEFFFA23631E28, 0xA4506CEBDE82BDE9, 0xBEF9A3F7B2C67915, 0xC67178F2E372532B]

/-- Round constants 64 to 79. -/
def shaK4 : List Nat :=
  [0xCA273ECEEA26619C, 0xD186B8C721C0C207, 0xEADA7DD6CDE0EB1E, 0xF57D4F7FEE6ED178,
   0x06F067AA72176FBA, 0x0A637DC5A2C898A6, 0x113F9804BEF90DAE, 0x1B710B35131C471B,
   0x28DB77F523047D84, 0x32CAAB7B40C72493, 0x3C9EBE0A15C9BEBC, 0x431D67C49C100D4C,
   0x4CC5D4BECB3E42B6, 0x597F299CFC657E2A, 0x5FCB6FAB3AD6FAEC, 0x6C44198C4A475817]

/-- The 80 round constants. -/
def shaK : List Nat := shaK0 ++ shaK1 ++ shaK2 ++ shaK3 ++ shaK4

/-- The initial hash value. -/
def shaInit : List Nat :=
  [0x6A09E667F3BCC908, 0xBB67AE8584CAA73B, 0x3C6EF372FE94F82B, 0xA54FF53A5F1D36F1,
   0x510E527FADE682D1, 0x9B05688C2B3E6C1F, 0x1F83D9ABFB41BD6B, 0x5BE0CD19137E2179]

/-- Addition modulo 2^64. -/
def add64 (a b : Nat) : Nat := (a + b) % 2 ^ 64

/-- Rotation to the right by n. -/
def rotr64 (x n : Nat) : Nat := x / 2 ^ n + x % 2 ^ n * 2 ^ (64 - n)

def shaBig0 (x : Nat) : Nat := rotr64 x 28 ^^^ rotr64 x 34 ^^^ rotr64 x 39
def shaBig1 (x : Nat) : Nat := rotr64 x 14 ^^^ rotr64 x 18 ^^^ rotr64 x 41
def shaSmall0 (x : Nat) : Nat := rotr64 x 1 ^^^ rotr64 x 8 ^^^ (x / 2 ^ 7)
def shaSmall1 (x : Nat) : Nat := rotr64 x 19 ^^^ rotr64 x 61 ^^^ (x / 2 ^ 6)

/-- Big-endian number of bytes. -/
def beNat (l : List Byte) : Nat := l.foldl (fun n b => 256 * n + b.toNat) 0

/-- Big-endian bytes of a number. -/
def beBytes (n v : Nat) : List Byte := (leBytes n v).reverse

/-- The message padded to whole blocks. -/
def shaPad (m : List Byte) : List Byte :=
  m ++ [0x80] ++ List.replicate ((239 - m.length % 128) % 128) 0 ++ beBytes 16 (8 * m.length)

/-- The message schedule, newest word first, from the words so far. -/
def shaExtend : Nat → List Nat → List Nat
  | 0, w => w
  | k + 1, w =>
    let x := add64 (add64 (shaSmall1 (w.getD 1 0)) (w.getD 6 0)) (add64 (shaSmall0 (w.getD 14 0)) (w.getD 15 0))
    shaExtend k (x :: w)

/-- One round on the eight working variables. -/
def shaRound (v : List Nat) (kw : Nat × Nat) : List Nat :=
  match v with
  | [a, b, c, d, e, f, g, h] =>
    let ch := (e &&& f) ^^^ ((2 ^ 64 - 1 - e) &&& g)
    let maj := (a &&& b) ^^^ (a &&& c) ^^^ (b &&& c)
    let t1 := add64 (add64 h (shaBig1 e)) (add64 ch (add64 kw.1 kw.2))
    let t2 := add64 (shaBig0 a) maj
    [add64 t1 t2, a, b, c, add64 d t1, e, f, g]
  | _ => v

/-- One block. -/
def shaBlock (h : List Nat) (b : List Byte) : List Nat :=
  let w0 := (List.range 16).map (fun i => beNat ((b.drop (8 * i)).take 8))
  let w := (shaExtend 64 w0.reverse).reverse
  let v := (shaK.zip w).foldl shaRound h
  (h.zip v).map (fun x => add64 x.1 x.2)

/-- The blocks of a padded message, as many as the count says. -/
def shaBlocks : Nat → List Nat → List Byte → List Nat
  | 0, h, _ => h
  | n + 1, h, m => shaBlocks n (shaBlock h (m.take 128)) (m.drop 128)

/-- The 64-byte digest of a message. -/
def sha512 (m : List Byte) : List Byte :=
  let p := shaPad m
  (shaBlocks (p.length / 128) shaInit p).flatMap (beBytes 8)

/-! The manifest (R385). -/

/-- A list of bytes cut or filled with zeros to a length. -/
def fit (n : Nat) (l : List Byte) : List Byte := l.take n ++ List.replicate (n - l.length) 0

/-- The bytes of the table slots of a mask: a valid byte, then for a valid slot its bounds and pair (R385). -/
def Core.tableBytes (k : Core) (mask : Nat) : List Byte :=
  ((List.range 8).filter (bit mask)).flatMap (fun i =>
    match tget k.tms i with
    | some t => if t.valid then 1 :: (wordsBytes [t.lo, t.hi, t.ylo, t.yhi] ++ wordsBytes t.words) else [0]
    | none => [0])

/-- Field i of the present manifest of a partition, for the table slots of a domain slot of a core and a seed (R385). -/
def State.manifestField (s : State) (q : Part) (core dslot seed : Nat) (i : Nat) : List Byte :=
  let e := s.element
  match i with
  | 1 => fit 64 e.firmware
  | 2 => fit 64 e.hypervisor
  | 3 => fit 64 q.image
  | 4 => fit 64 e.routine
  | 5 => bytesOf 4 e.arithKhz ++ bytesOf 4 e.l2Khz
  | 6 => bytesOf 4 q.fpmdef.toNat
  | 7 => bytesOf 4 s.deckle.epsMax
  | 8 => sha512 ((s.core core).tableBytes (dpTm ((s.core core).dp dslot)))
  | 9 => bytesOf 8 seed
  | _ => []

/-- The whole manifest, with every field selected in its mask (R385). -/
def State.manifest (s : State) (q : Part) (core dslot seed : Nat) : List Byte :=
  bytesOf 4 1 ++ bytesOf 4 0x3FE ++ (List.range 9).flatMap (fun i => s.manifestField q core dslot seed (i + 1)) ++
    List.replicate 32 0

/-- Where a field of a stored manifest lies: offset and length (R385). -/
def manifestAt : Nat → Nat × Nat
  | 1 => (8, 64) | 2 => (72, 64) | 3 => (136, 64) | 4 => (200, 64) | 5 => (264, 8) | 6 => (272, 4) | 7 => (276, 4)
  | 8 => (280, 64) | _ => (344, 8)

end Sys2Proof.Machine
end

