-- ==== Sys2Proof/Machine/System.lean ====
section
/-!
DEFINITION. SRD and SWR (R45, R303), the SYSOP group but for launches and domains (R67, R304–R309, R386), RNDM (R384), and the
resident routine's encodings (R302, R387).
-/

namespace Sys2Proof.Machine

/-! Special registers. -/

/-- An instruction word that the register map makes illegal: ILLEGAL at the first word of the unit (R36, R45). -/
def State.illegalWord (s : State) : Out :=
  match s.active with
  | (l, _) :: _ => .next (s.faultAt .illegal l 0)
  | [] => .fault .noWarp

/-- The seed of the executing warp's launch (R383). -/
def State.launchSeed (s : State) (w : Warp) : Nat :=
  match (tget s.blocks w.block).bind (fun b => tget s.launches b.launch) with | some l => l.seed | none => 0

/-- Operands of SRD and SWR: one register, or an aligned group of four for a DPART (R246, R303). -/
def regOpd (n : Nat) (d : Reg) : Opd := if regWide n then .four .vd d else .one .vd d

/-- The four words of a 128-bit value. -/
def words128 (v : BitVec 128) : List Word := (List.range 4).map (fun i => BitVec.ofNat 32 (v.toNat / 2 ^ (32 * i)))

/-- SRD (R45, R70, R303). -/
def execSrd (r : BitVec 11) (d : Reg) (s : State) : Out :=
  let n := r.toNat
  match regLevel n with
  | none => s.illegalWord
  | some lv =>
    if regWide n && d.toNat % 4 != 0 then s.illegalWord
    else
      s.issue { opds := [regOpd n d], level := lv, closes := decide (0x00F < n) } (fun s =>
        match s.warp? with
        | none => .fault .noWarp
        | some w =>
          .next (s.mapActive (fun l t =>
            if n < 0x080 then t.set d.toNat (s.userReg w l t n)
            else
              let v := s.coreReg s.cur.core false (s.launchSeed w) n
              if regWide n then t.setGroup d.toNat (words128 v) else t.set d.toNat (v.setWidth 32))).finish)

/-- The 128-bit or 32-bit value SWR takes from a lane. -/
def Thread.swrValue (t : Thread) (n d : Nat) : BitVec 128 :=
  if regWide n then BitVec.ofNat 128 (t.nat64 d + 2 ^ 64 * t.nat64 (d + 2)) else (t.get d).setWidth 128

/-- SWR of a per-lane register: every lane writes its own; a refused value is ILLEGAL (R303). -/
def State.swrLanes (s : State) (n d : Nat) : Out :=
  match firstBad s.active (fun t => (t.writeReg n (t.get d)).isNone) with
  | some l => .next (s.faultAt .illegal l 0)
  | none => .next (s.mapActive (fun _ t => (t.writeReg n (t.get d)).getD t)).finish

/-- SWR (R45, R62, R303). -/
def execSwr (r : BitVec 11) (d : Reg) (s : State) : Out :=
  let n := r.toNat
  match regLevel n with
  | none => s.illegalWord
  | some lv =>
    if !regWritable n || (regWide n && d.toNat % 4 != 0) then s.illegalWord
    else
      s.issue { opds := [regOpd n d], level := lv, closes := true } (fun s =>
        if n < 0x080 && n != 0x013 then s.swrLanes n d.toNat
        else
          match s.live with
          | [] => .next s.finish
          | (l, t) :: _ =>
            if n = 0x013 then
              if partnOk (t.get d.toNat) then .next (s.modWarp (fun w => { w with partn := t.get d.toNat &&& 7 })).finish
              else .next (s.faultAt .illegal l 0)
            else
              match s.writeCoreReg s.cur.core false n (t.swrValue n d.toNat) with
              | some s1 => .next s1.finish
              | none => .next (s.faultAt .illegal l 0))

/-- Instructions of the SYSOP group: no prefix, windows closed (R304). -/
def Use.sysop (opds : List Opd) : Use := { opds := opds, closes := true }

/-! ERET (R305). -/

/-- A lane of the frame goes on: at its saved PC, or, for the reported lane, at the return PC or past the instruction (R305). -/
def TrapFrame.restore (f : TrapFrame) (skip : Bool) (past : Word) (n : Nat) (t : Thread) : Thread :=
  match tget f.lanes n with
  | some x =>
    let t1 := { t with
      pc := x.pc, meetv := x.meetv, rem := x.rem, arrived := x.arrived, wait := .run, regs := x.regs ++ t.regs.drop 8
      windows := t.windows ++ x.windows, repIds := x.repIds, repDests := x.repDests }
    if n = f.report.lane then
      (if skip then t1.skip f.report.rem f.report.pc past else { t1 with pc := f.retPc })
    else t1
  | none => t

/-- ERET on a compute core: the frame is restored in every launched lane, the lanes still pending are delivered next, and
otherwise the accesses that the trap stopped are issued again (R291, R305, R407). -/
def State.eretUser (s : State) (skip : Bool) (f : TrapFrame) : State :=
  let c := s.cycle + 1
  let past := match s.warp? with | some w => s.skipPc s.cur.core w f.report.pc | none => 0
  let s1 := (s.charge 1).modWarp (fun w =>
    let w1 := { w with
      threads := w.threads.map (fun (p : Nat × Thread) => (p.1, if p.2.exited then p.2 else f.restore skip past p.1 p.2))
      handler := none
      partn := f.partn
      pendingTraps := f.pending
      retry := f.retry }
    ((w1.oneBundle c).splitAll c).release c)
  let s2 := { s1 with cur := s.cur.clear, cycle := c }.deliverPending s.cur.core s.cur.slot
  match s2.warpAt? s.cur.core s.cur.slot with
  | some w => if w.handler.isNone then s2.retryWarp s.cur.core s.cur.slot else s2
  | none => s2

/-- What a control core's frame has kept for its threads comes back: the windows over stopped accesses and the repeats done so far
(R35, R407). -/
def TrapFrame.rejoin (f : Option TrapFrame) (n : Nat) (t : Thread) : Thread :=
  match f.bind (fun x => tget x.lanes n) with
  | some x => { t with windows := t.windows ++ x.windows, repIds := x.repIds, repDests := x.repDests }
  | none => t

/-- ERET on a control core: TPC, past the instruction there where m = 1, at the level in TFRAME; N clears (R305). Threads that meet
at TPC are released (R53), and then what the trap left undelivered or stopped goes on (R291, R407). -/
def State.eretControl (s : State) (skip : Bool) (w : Warp) (t : TrapRegs) : State :=
  let c := s.cycle + 1
  let fr := t.tframe.toNat
  let past := s.skipPc s.cur.core w t.tpc
  let s1 := (s.charge 1).modCore s.cur.core (fun k => { k with trap := { t with tframe := BitVec.ofNat 32 (fr % 1024) } })
  let s2 := s1.modWarp (fun w =>
    ((({ w with
      level := Level.ofCode (field fr 9 8)
      threads := w.threads.map (fun (p : Nat × Thread) =>
        let t1 := { TrapFrame.rejoin w.handler p.1 p.2 with pc := t.tpc, rem := field fr 6 0, wait := .run }
        (p.1, if skip then t1.skip (field fr 6 0) t.tpc past else t1))
      handler := none
      pendingTraps := match w.handler with | some f => f.pending | none => w.pendingTraps
      retry := match w.handler with | some f => f.retry | none => w.retry } : Warp).oneBundle c).splitAll c).release c)
  let s3 := { s2 with cur := s.cur.clear, cycle := c }.deliverPending s.cur.core s.cur.slot
  match s3.warpAt? s.cur.core s.cur.slot with
  | some w => if w.handler.isNone then s3.retryWarp s.cur.core s.cur.slot else s3
  | none => s3

/-- The return from a trap (R305). -/
def State.eret (s : State) (skip : Bool) : Out :=
  match s.warp? with
  | none => .fault .noWarp
  | some w =>
    if isControl s.cur.core then
      let t := (s.core s.cur.core).trap
      if bit t.tframe.toNat 10 then .next (s.eretControl skip w t) else s.illegalWord
    else
      match w.handler with
      | some f => .next (s.eretUser skip f)
      | none => s.illegalWord

/-- ERET 0 (R305). -/
def execEret0 (s : State) : Out := s.issue (Use.sysop []) (fun s => s.eret false)

/-- ERET 1 (R305, R408). -/
def execEret1 (s : State) : Out := s.issue (Use.sysop []) (fun s => s.eret true)

/-! XLOCK and XUNLK (R67). -/

/-- The extended registers of a lane. -/
def Thread.ext (t : Thread) : List Word := t.regs.drop 96

/-- A warp takes the set of its pair: v96 to v127 are the set's (R66). -/
def State.takeSet (s : State) (set : XSet) : State :=
  s.modWarp (fun w => { w with
    xown := true
    xreq := none
    threads := w.threads.map (fun (p : Nat × Thread) =>
      (p.1, { p.2 with regs := p.2.regs.take 96 ++ (tget set.lanes p.1).getD (List.replicate 32 0) })) })

/-- The sibling of a warp holds the set, or has asked for it earlier (R67). -/
def siblingFirst (k : Core) (slot now : Nat) (mine : Option Nat) : Bool :=
  match tget k.warps (slot ^^^ 1) with
  | some x =>
    x.xown || (x.susp.isNone && x.handler.isNone && (match x.xreq with | some r => decide (r < mine.getD now) | none => false))
  | none => false

/-- XLOCK; inside any gate call it raises DOMAIN, one back to the home DID too: R254 is read before R67, which raises it where the slots
differ (R67, R254, log 75). -/
def execXlock (s : State) : Out :=
  s.issue (Use.sysop []) (fun s =>
    match s.warp? with
    | none => .fault .noWarp
    | some w =>
      let k := s.core s.cur.core
      match tget k.xsets (s.cur.slot / 2) with
      | none => .next (s.fault .regrange s.firstLane 0 0)
      | some set =>
        if w.curSlot != w.homeSlot || !w.gates.isEmpty then .next (s.fault .domain s.firstLane 0 0)
        else if w.xown then .next s.finish
        else if siblingFirst k s.cur.slot s.cycle w.xreq then
          .next ((s.modWarp (fun w => { w with xreq := some (w.xreq.getD s.cycle) })).stallAll .lock)
        else .next (s.takeSet set).finish)

/-- A warp gives its set back: the registers go to the set, and a waiting sibling looks again (R66, R67). -/
def State.dropSet (s : State) (c slot : Nat) : State :=
  match s.warpAt? c slot with
  | some w =>
    if w.xown then
      let s1 := s.modCore c (fun k => { k with xsets := tmod k.xsets (slot / 2) (fun x =>
        { x with lanes := w.threads.foldl (fun t p => tput t p.1 p.2.ext) x.lanes }) })
      (s1.modWarpAt c slot (fun w => { w with xown := false })).wakeWarp c (slot ^^^ 1) (fun x => x == .lock)
    else s
  | none => s

/-- XUNLK (R67). -/
def execXunlk (s : State) : Out :=
  s.issue (Use.sysop []) (fun s =>
    match s.warp? with
    | none => .fault .noWarp
    | some w =>
      if w.xown then .next (s.dropSet s.cur.core s.cur.slot).finish
      else .next (s.fault .regrange s.firstLane 0 0))

/-! Invalidation (R287, R306, R307). -/

/-- A page of an entry's leaf lies among n pages from page p on; n = 0 covers all (R306). -/
def TlbEntry.within (e : TlbEntry) (p n : Nat) : Bool :=
  let per := 2 ^ (e.leaf - 16)
  n == 0 || (decide (p < (e.vpage / per + 1) * per) && decide (e.vpage / per * per < p + n))

/-- Applies the requests to a page and takes its lines out of every L1, the dirty bytes to their homes (R247, R287). -/
def State.flushPage (s : State) (page : Nat) : State :=
  let here (a : Nat) : Bool := a / 65536 == page
  s.cores.foldl (fun s k => k.2.l1.foldl (fun s d => s.leaveL1 k.1 d.1 here) s) (s.drain (fun r => here r.addr))

/-- What an invalidation still waits for: window accesses and stamped stores that used what it removes (R287). -/
def State.usersWait (s : State) (pkt : Pkt → Bool) (hold : Hold → Bool) : Option Wait :=
  if s.pkts.any pkt then some .window else if s.holds.any hold then some .time else none

/-- TLBINV, for each live lane: every access that used a removed translation is performed first (R287, R306). -/
def execTlbinv (b a : Reg) (s : State) : Out :=
  s.issue { Use.sysop [.two .va a, .one .vb b] with level := .supervisor } (fun s =>
    match s.warp? with
    | none => .fault .noWarp
    | some w =>
      let held := s.heldLanes true true
      let hit (e : TlbEntry) : Bool :=
        e.part == w.part && s.live.any (fun x => e.within (x.2.nat64 a.toNat / 65536) (x.2.nat b.toNat))
      let gone := s.tlb.filter hit
      let used (part va : Nat) : Bool := part == w.part && gone.any (fun e => e.vpage == va / 65536)
      if !held.isEmpty then .next (s.stall held .pend)
      else
        match s.usersWait (fun p => used p.part p.va) (fun h => used h.part h.va) with
        | some why => .next (s.stallAll why)
        | none =>
          let s1 := (gone.map (·.ppage)).dedup.foldl State.flushPage (s.release s.cur.core w.curSlot .package)
          .next { s1 with tlb := s1.tlb.filter (fun e => !hit e) }.finish)

/-- A page that is stamped no longer: each record's newest version becomes its plain contents (R338). -/
def State.unstampPage (s : State) (page : Nat) : State :=
  let mine := s.stamped.filter (fun r => r.1 / 65536 == page)
  let s1 := mine.foldl (fun s r => match r.2.versions.getLast? with | some v => s.homeWrite r.1 v.data | none => s) s
  { s1 with stamped := s1.stamped.filter (fun r => r.1 / 65536 != page) }

/-- An entry that opens a window of two homes (R319). -/
def State.opensDual (s : State) (r : Nat) : Bool :=
  rotDual r == 1 && !rotReserved (rotOwner r) ((tget s.parts (rotOwner r)).getD Part.idle) r

/-- The cached ROT result of a page is removed, with what a change of its entry brings: lines written back and dropped on a new
owner, DID, type or home (R247, R321), stamped versions given up (R338), a window of two homes opened or closed (R319–R321). -/
def State.rotinvPage (s : State) (page : Nat) : State :=
  let new := s.rotTable page
  let same := match tget s.rots page with
    | some r => rotOwner r.toNat == rotOwner new && rotDid r.toNat == rotDid new && rotType r.toNat == rotType new &&
        rotHome r.toNat == rotHome new
    | none => false
  let s1 := if same then s.drain (fun r => r.addr / 65536 == page) else s.flushPage page
  let s2 := { s1 with
    rots := tdel s1.rots page
    kept := if rotType new == 1 then tput s1.kept page 1 else tdel s1.kept page }
  let s3 := if rotType new == 1 then s2 else s2.unstampPage page
  let had := s3.duals.any (fun d => d.page == page && d.next == rotNext new)
  if s3.opensDual new then
    (if had then s3
      else { s3 with duals := s3.duals.filter (fun d => d.page != page) ++ [⟨page, rotHome new, rotNext new, false⟩] })
  else { s3 with duals := s3.duals.filter (fun d => d.page != page) }

/-- The pages a ROTINV covers, a run or all, where it has anything to do: those with a cached result, a type of their own, a
version, two homes, requests or lines, and those whose entry says stamped or two homes (R306, R319, R338). -/
def State.rotinvPages (s : State) (p n : Nat) : List Nat :=
  let inL1 : List Nat := s.cores.flatMap (fun (k : Nat × Core) =>
    k.2.l1.flatMap (fun (d : Nat × Tbl (Byte × Bool)) => d.2.map (fun (x : Nat × (Byte × Bool)) => x.1 / 65536)))
  let known : List Nat := (s.rots.map (fun (r : Nat × DWord) => r.1) ++ s.kept.map (fun (r : Nat × Nat) => r.1) ++
    s.stamped.map (fun (r : Nat × Stamped) => r.1 / 65536) ++ s.duals.map Dual.page ++ s.reqs.map (fun (r : Req) => r.addr / 65536) ++
    inL1 ++ s.rotPages (fun r => rotType r == 1 || rotDual r == 1)).dedup
  if n = 0 then known else known.filter (fun x => decide (p ≤ x) && decide (x < p + n))

/-- Of the pages a ROTINV covers, those it would make stamped (R338). -/
def State.newStamped (s : State) (pages : List Nat) : List Nat :=
  pages.filter (fun p => rotType (s.rotTable p) == 1 && tget s.kept p != some 1)

/-- Stamped pages after a ROTINV (R338). -/
def State.stampedAfter (s : State) (pages : List Nat) : Nat :=
  (s.kept.filter (fun (k : Nat × Nat) => k.2 == 1 && (!pages.contains k.1 || rotType (s.rotTable k.1) == 1))).length +
    (s.newStamped pages).length

/-- A refused ROTINV leaves the types as they are: a page without a cached result keeps the type normal (R338, log 64). -/
def State.keepTypes (s : State) (pages : List Nat) : State :=
  { s with kept := pages.foldl (fun k p =>
      tput k p (match tget s.rots p with | some r => rotType r.toNat | none => (tget s.kept p).getD 0)) s.kept }

/-- What a ROTINV of pages still waits for: accesses through windows and stamped stores that used their entries, and the
background copy of a window of two homes that it ends (R287, R321). -/
def State.rotinvWait (s : State) (pages : List Nat) : Option Wait :=
  let wins : List (Nat × Nat) := pages.filterMap (fun p =>
    let r := s.rotEntry (65536 * p)
    if rotType r == 2 then some (rotOwner r, field r 27 16) else none)
  match s.usersWait (fun p => wins.contains (p.part, p.w)) (fun h => match h.remote with
    | none => pages.contains (h.addr / 65536)
    | some x => wins.contains (h.part, x.1)) with
  | some why => some why
  | none =>
    if s.duals.any (fun d => !d.copied && pages.contains d.page && !s.opensDual (s.rotTable d.page)) then some .pend else none

/-- ROTINV, for each live lane: PAGE beyond the local space; ILLEGAL where more than 16,384 pages would be stamped (R287, R306,
R338). -/
def execRotinv (b a : Reg) (s : State) : Out :=
  s.issue { Use.sysop [.two .va a, .one .vb b] with level := .hypervisor } (fun s =>
    match s.warp? with
    | none => .fault .noWarp
    | some w =>
      let held := s.heldLanes true true
      if !held.isEmpty then .next (s.stall held .pend)
      else
        match firstBad s.live (fun t => decide (2 ^ 44 ≤ t.nat64 a.toNat)) with
        | some l =>
          let va := match s.live.find? (fun x => x.1 == l) with | some x => x.2.nat64 a.toNat | none => 0
          .next (s.fault .page l (BitVec.ofNat 32 va) (BitVec.ofNat 32 (va / 2 ^ 32)))
        | none =>
          let s1 := s.release s.cur.core w.curSlot .package
          let pages := (s1.live.flatMap (fun x => s1.rotinvPages (x.2.nat64 a.toNat / 65536) (x.2.nat b.toNat))).dedup
          let new := s1.newStamped pages
          if !new.isEmpty && decide (16384 < s1.stampedAfter pages) then
            .next ((s1.keepTypes new).faultAt .illegal s.firstLane 0)
          else
            match s1.rotinvWait pages with
            | some why => .next (s1.stallAll why)
            | none => .next (pages.foldl State.rotinvPage s1).finish)

/-- The cores of a partition, control cores too. -/
def coreOfPart (p : Nat) (q : Part) (c : Nat) : Bool := controlIn p q c || (!isControl c && inPart p q (c / 48))

/-- ICINV, for each live lane: code lines of the partition's cores go, after the thread's stores (R307). -/
def execIcinv (b a : Reg) (s : State) : Out :=
  s.issue (Use.sysop [.two .va a, .one .vb b]) (fun s =>
    match s.warp? with
    | none => .fault .noWarp
    | some w =>
      let held := s.heldLanes true true
      if !held.isEmpty then .next (s.stall held .pend)
      else
      let s1 := s.release s.cur.core w.curSlot .package
      .next (s1.live.foldl (fun s x =>
        let va := x.2.nat64 a.toNat
        let n := x.2.nat b.toNat
        let gone (a : Nat) : Bool := n == 0 || (decide (va / 128 ≤ a / 128) && decide (a / 128 ≤ (va + n - 1) / 128))
        { s with cores := s.cores.map (fun (k : Nat × Core) =>
            match tget s.parts w.part with
            | some q => if coreOfPart w.part q k.1 then (k.1, { k.2 with icache := k.2.icache.filter (fun c => !gone c.1) }) else k
            | none => k) }) s1).finish)

/-! HALT (R309) and CMPMAN (R386). -/

/-- HALT: the thread stops until a record is posted, a mailbox store comes, or E reaches its tick; 0 is never (R309). -/
def execHalt (a : Reg) (s : State) : Out :=
  s.issue { Use.sysop [.two .va a] with level := .supervisor, control := true } (fun s =>
    match s.live with
    | [] => .next s.finish
    | (_, t) :: _ =>
      let tick := t.nat64 a.toNat
      if tick != 0 && decide (tick ≤ s.deckle.early) then .next s.finish
      else .next (s.finish.modCore s.cur.core (fun k => { k with halted := some tick })))

/-- The units of 16 bytes of a stored manifest. -/
def manifestUnits (va : Nat) : List (Nat × Nat) := (List.range 24).map (fun k => (k, va + 16 * k))

/-- Where a unit of a manifest lies: behind a window, with its place there, or not (R184, R349, R386). -/
def State.unitAt (s : State) (w : Warp) (va : Nat) : Except Cause (Option (Nat × Nat)) :=
  match (s.xlateWalk (w.request true false false) va).1 with
  | .good pa rot =>
    if rotType rot != 2 then .ok none
    else if (s.windowOf w.part rot).isNone then .error .window
    else .ok (some (pa, rot))
  | _ => .ok none

/-- The first unit whose window refuses it, if one does, and the units behind windows. -/
def State.farUnits (s : State) (w : Warp) : List (Nat × Nat) → Except (Cause × Nat) (List (Nat × Nat × Nat × Nat))
  | [] => .ok []
  | (k, va) :: l =>
    match s.unitAt w va with
    | .error c => .error (c, va)
    | .ok x =>
      match s.farUnits w l with
      | .error e => .error e
      | .ok r => .ok (match x with | some (pa, rot) => (k, va, pa, rot) :: r | none => r)

/-- Words of memory by relaxed loads of package scope, until one faults; those behind a window have come already (R386). -/
def State.readWords (s : State) (w : Warp) (far : List Nat) (got : List (Nat × Word)) : Nat → Nat → Nat → Except (Cause × Nat) (List Word × State)
  | 0, _, _ => .ok ([], s)
  | n + 1, i, va =>
    if far.contains (i / 4) then
      match s.readWords w far got n (i + 1) (va + 4) with
      | .error e => .error e
      | .ok (l, s2) => .ok ((tget got i).getD 0 :: l, s2)
    else
      match s.tableRead w va with
      | .error c => .error (c, va)
      | .ok (x, s1) =>
        match s1.readWords w far got n (i + 1) (va + 4) with
        | .error e => .error e
        | .ok (l, s2) => .ok (BitVec.ofNat 32 x :: l, s2)

/-- A lane's reads of a manifest behind a window go out, and it waits for them (R184, R354, R386). -/
def State.sendManifest (s : State) (w : Warp) (lane : Nat) (far : List (Nat × Nat × Nat × Nat)) : State :=
  let (id, s1) := s.fresh
  let pc := match s.active with | (_, t) :: _ => t.pc | [] => 0
  let s2 := { s1 with pend := s1.pend ++ [(⟨id, s.cur.core, s.cur.slot, pc, none, .manifest lane []⟩ : Pending)] }
  (far.foldl (fun s x => s.windowAccess s.cur.core s.cur.slot w id
    { lane := lane, va := x.2.1, size := 16, kind := .load .plain, ord := .relaxed, scope := .package, dst := 4 * x.1, only := false }
    x.2.2.1 x.2.2.2) s2).stallAll .pend

/-- The words of a manifest that have come for a lane, with their operation. -/
def State.manifestOf (s : State) (c slot lane : Nat) : Option (Nat × List (Nat × Word)) :=
  s.pend.findSome? (fun p => match p.kind with
    | .manifest l ws => if p.core = c ∧ p.slot = slot ∧ l = lane then some (p.id, ws) else none
    | _ => none)

/-- The fields of a stored manifest keep R385. -/
def manifestOk (b : List Byte) : Bool :=
  wordOf (b.take 4) == 1 && wordOf ((b.drop 4).take 4) &&& 0xFFFFFC01 == 0 && (b.drop 352).all (· == 0)

/-- The least selected field that differs from the present one; 0 for none (R386). -/
def State.manifestDiff (s : State) (q : Part) (core dslot seed : Nat) (b : List Byte) : Nat :=
  let mask := wordOf ((b.drop 4).take 4)
  ((List.range 10).find? (fun i =>
    let (o, n) := manifestAt i
    decide (1 ≤ i) && bit mask i && (b.drop o).take n != s.manifestField q core dslot seed i)).getD 0

/-- The end of a CMPMAN whose words from behind a window, if any, have come (R386). -/
def State.compareManifest (s : State) (w : Warp) (l : Nat) (d : Reg) (va : Nat) (far : List Nat) (got : List (Nat × Word)) : State :=
  let bad (s : State) (c : Cause) (x : Nat) : State := s.fault c l (BitVec.ofNat 32 x) (BitVec.ofNat 32 (x / 2 ^ 32))
  match s.readWords w far got 96 0 va with
  | .error (c, x) => bad s c x
  | .ok (ws, s1) =>
    let b := wordsBytes ws
    if !manifestOk b then bad s1 .format va
    else
      let q := (tget s1.parts w.part).getD Part.idle
      let seed := if isControl s.cur.core then q.lseedhi.toNat * 2 ^ 32 + q.lseedlo.toNat else s1.launchSeed w
      let r := s1.manifestDiff q s.cur.core w.curSlot seed b
      (s1.mapActive (fun _ t => t.set d.toNat (if t.helper then 0 else BitVec.ofNat 32 r))).finish

/-- CMPMAN: the manifest is read by relaxed loads, through a window where its page is mapped there (R184, R386). -/
def execCmpman (a d : Reg) (s : State) : Out :=
  s.issue (Use.sysop [.one .vd d, .two .va a]) (fun s =>
    match s.warp?, s.live with
    | none, _ => .fault .noWarp
    | some _, [] => .next (s.mapActive (fun _ t => t.set d.toNat 0)).finish
    | some w, (l, t) :: _ =>
      let va := t.nat64 a.toNat
      let bad (s : State) (c : Cause) (x : Nat) : Out := .next (s.fault c l (BitVec.ofNat 32 x) (BitVec.ofNat 32 (x / 2 ^ 32)))
      let held := s.heldLanes false false
      if !held.isEmpty then .next (s.stall held .pend)
      else if va % 64 != 0 then bad s .align va
      else
        match s.farUnits w (manifestUnits va) with
        | .error (c, x) => bad s c x
        | .ok [] => .next (s.compareManifest w l d va [] [])
        | .ok far =>
          match s.manifestOf s.cur.core s.cur.slot l with
          | none =>
            match s.readWords w (far.map (fun (x : Nat × Nat × Nat × Nat) => x.1)) [] 96 0 va with
            | .error (c, x) => bad s c x
            | .ok (_, s1) => .next (s1.sendManifest w l far)
          | some (id, got) =>
            if s.pkts.any (fun (k : Pkt) => k.op == some id) then .next (s.stallAll .pend)
            else
              .next (({ s with pend := s.pend.filter (fun (p : Pending) => p.id != id) }).compareManifest w l d va (far.map (fun (x : Nat × Nat × Nat × Nat) => x.1)) got))

/-! RNDM (R384). -/

/-- RNDM: the counter mixed with the key (R384). -/
def execRndm (b a d : Reg) (s : State) : Out :=
  s.issue { opds := [.two .vd d, .two .va a, .two .vb b] } (fun s =>
    .next (s.mapActive (fun _ t =>
      t.setPair d.toNat (BitVec.ofNat 64 (rndm (t.nat64 a.toNat) (t.nat64 b.toNat))))).finish)

/-! The resident routine (R49, R302, R387). -/

/-- A routine encoding of three registers: windows closed, then one result per lane (R302). -/
def compat (b a d : Reg) (f : Word → Word → Word → Word) (s : State) : Out :=
  s.issue { opds := [.one .vd d, .one .va a, .one .vb b], closes := true } (fun s =>
    .next (s.mapActive (fun _ t => t.set d.toNat (f (t.get a.toNat) (t.get b.toNat) (t.get d.toNat)))).finish)

/-- The signed quotient rounded toward zero (R387). -/
def compatDivs (a b : Word) : Word := if b = 0 then 0xFFFFFFFF else BitVec.ofInt 32 (a.toInt.tdiv b.toInt)

/-- The signed remainder (R387). -/
def compatRems (a b : Word) : Word := if b = 0 then a else BitVec.ofInt 32 (a.toInt.tmod b.toInt)

/-- DIVS (R387). -/
def execDivs (b a d : Reg) (s : State) : Out := compat b a d (fun x y _ => compatDivs x y) s

/-- DIVU (R387). -/
def execDivu (b a d : Reg) (s : State) : Out :=
  compat b a d (fun x y _ => if y = 0 then 0xFFFFFFFF else BitVec.ofNat 32 (x.toNat / y.toNat)) s

/-- REMS (R387). -/
def execRems (b a d : Reg) (s : State) : Out := compat b a d (fun x y _ => compatRems x y) s

/-- REMU (R387). -/
def execRemu (b a d : Reg) (s : State) : Out :=
  compat b a d (fun x y _ => if y = 0 then x else BitVec.ofNat 32 (x.toNat % y.toNat)) s

/-- Result byte i of BYTEPERM: a byte of the pool d : a, or 0 (R387). -/
def permByte (pool sel i : Nat) : Nat :=
  if bit sel (4 * i + 3) then 0 else pool / 2 ^ (8 * field sel (4 * i + 2) (4 * i)) % 256

/-- BYTEPERM (R387). -/
def execByteperm (b a d : Reg) (s : State) : Out :=
  compat b a d (fun x y z =>
    let pool := x.toNat + 2 ^ 32 * z.toNat
    BitVec.ofNat 32 (((List.range 4).map (fun i => permByte pool y.toNat i * 2 ^ (8 * i))).sum)) s

/-- The data image of the executing warp's launch (R15, R222). -/
def State.dataImage (s : State) (w : Warp) : Nat :=
  match (tget s.blocks w.block).bind (fun b => tget s.launches b.launch) with | some l => l.w2 12 | none => 0

/-- LDC.32: a word of the data image, as a relaxed load of package scope (R387). -/
def execLdc32 (_L : BitVec 4) (a d : Reg) (s : State) : Out :=
  s.issue { opds := [.one .vd d, .one .va a], closes := true } (fun s =>
    match s.warp? with
    | none => .fault .noWarp
    | some w =>
      s.access { L := 0, cls := none, res := .load, dest := [d.toNat] }
        (s.live.map (fun p =>
          { lane := p.1, va := s.dataImage w + p.2.nat a.toNat, size := 4, kind := .load .plain, ord := .relaxed,
            scope := .package, dst := d.toNat, only := false })))

/-- BARSYNC: the block's barrier (R194, R387). -/
def execBarsync (s : State) : Out := s.issue { opds := [], closes := true } State.arriveBarrier

end Sys2Proof.Machine
end

