-- ==== Sys2Proof/Machine/Dispatcher.lean ====
section
/-!
DEFINITION. Launches (R222–R230, R376–R383): LNCH, the dispatcher, the end of warps and launches, the comparison of digests and
serial re-execution. What they share with traps stands in Machine/LaunchOps.lean.
-/

namespace Sys2Proof.Machine

/-! LNCH (R224). -/

/-- A launch is still in its queue: some of its blocks are not placed (R225). -/
def Launch.waits (l : Launch) : Bool := l.phase != .finished && decide (l.next < l.total)

/-- Launches a queue of a partition holds (R225). -/
def State.queued (s : State) (p q : Nat) : List (Nat × Launch) :=
  s.launches.filter (fun l => l.2.part == p && l.2.queue == q && l.2.waits)

/-- A launch as LNCH copies its record. -/
def newLaunch (part addr by_ seq : Nat) (words : List Word) : Launch where
  part := part
  addr := addr
  words := words
  seq := seq
  by_ := by_
  status := 0x01
  phase := .queued
  next := 0
  ended := 0
  placed := []
  digest := 0
  first := 0
  log := []
  fixed := false
  lastTick := 0

/-- The status LNCH gives a record (R223, R224). -/
def State.launchCode (s : State) (l : Launch) : Byte :=
  if !l.formatOk then 0x10
  else if (s.eligible l).isEmpty then 0x11
  else if !s.fitsEmpty l then 0x12
  else if 64 ≤ (s.queued l.part l.queue).length then 0x13
  else 0x01

/-- One lane's LNCH: the record is read as an acquire at package scope, the launch enters its queue, and the status is written
and given to vd; that write is a release store of the thread. It wakes the partition whatever its status (R180, R223, R224, R398). -/
def State.launchOne (s : State) (w : Warp) (d lane va pa : Nat) : State :=
  let c := s.cur.core
  let s1 := s.toHome c w.curSlot pa
  let ws := bytesWords (s1.homeRead pa 128)
  let s2 := s1.acquire c w.curSlot .package
  let (id, s3) := s2.fresh
  let l := newLaunch w.part va (c - 576) id ws
  let code := s3.launchCode l
  let s4 := (if code = 0x01 then { s3 with launches := tput s3.launches id l } else s3).wakePart w.part
  ((s4.release c w.curSlot .package).deviceWrite w.part (va + 112) [code]).modWarp (fun w =>
    w.mapLanes (maskOf [lane]) (fun _ t => t.set d (code.setWidth 32)))

/-- LNCH: supervisor level on a control core only (R224). -/
def execLnch (a d : Reg) (s : State) : Out :=
  s.issue { Use.sysop [.one .vd d, .two .va a] with level := .supervisor, control := true, only := true } (fun s =>
    match s.warp? with
    | none => .fault .noWarp
    | some w =>
      let held := s.heldLanes true true
      if !held.isEmpty then .next (s.stall held .pend)
      else
        let (refs, s1) := s.waitRefs w false 128 a.toNat s.live
        let bad := refs.filterMap (fun x => match x.2.2 with | .error c => some (c, x.1, x.2.1.nat64 a.toNat) | .ok _ => none)
        match firstFault bad with
        | some (c, lane, va) => .next (s1.memFault c lane (BitVec.ofNat 32 va) (BitVec.ofNat 32 (va / 2 ^ 32)))
        | none =>
          let s2 := s1.mapActive (fun _ t => if t.helper then t.set d.toNat 0 else t)
          .next (refs.foldl (fun s x =>
            match x.2.2 with
            | .ok (.mem pa) => s.launchOne w d.toNat x.1 (x.2.1.nat64 a.toNat) pa
            | _ => s) s2).finish)

/-! The dispatcher (R225, R226). -/

/-- The dependence of a launch is met (R225). An object that the partition's authority cannot read counts as not met (log 77). -/
def State.depMet (s : State) (l : Launch) : Bool :=
  l.w2 14 == 0 ||
    (match s.deviceRead l.part (l.w2 14) 8 with
      | some b => decide (l.w2 16 ≤ wordOf b)
      | none => false)

/-- The head of a queue: the launch in it whose LNCH came first. -/
def State.head (s : State) (p q : Nat) : Option (Nat × Launch) := leastBy (fun l => l.2.seq) (s.queued p q)

/-- Inserts a launch by the order of LNCH. -/
def insertSeq (x : Nat × Launch) : List (Nat × Launch) → List (Nat × Launch)
  | [] => [x]
  | y :: l => if x.2.seq < y.2.seq then x :: y :: l else y :: insertSeq x l

/-- The eligible heads of a partition, highest priority first, then the earliest LNCH (R226). -/
def State.heads (s : State) (p : Nat) : List (Nat × Launch) :=
  let l := ((List.range 16).filterMap (fun q => s.head p q)).filter (fun l => s.depMet l.2)
  [7, 6, 5, 4, 3, 2, 1, 0].flatMap (fun k =>
    (l.filter (fun x => x.2.prio == k)).foldl (fun acc x => insertSeq x acc) [])

/-- Cores on which a launch may not start: those of a launch of its domain under serial re-execution (R382). -/
def State.serialCores (s : State) (l : Launch) : List Nat :=
  s.launches.flatMap (fun x =>
    match x.2.phase with
    | .serial _ => if x.2.part == l.part && x.2.did == l.did then x.2.placed.map (·.2) else []
    | _ => [])

/-- Places blocks of the first head that can take room; cores eligible for a head that waits are kept from heads of lower
priority (R226). -/
def State.placeFirst (s : State) (held : List (Nat × Nat)) : List (Nat × Launch) → Option State
  | [] => none
  | (id, l) :: rest =>
    let bar := (held.filter (fun x => decide (l.prio < x.1))).map (·.2) ++ s.serialCores l
    match s.placeNext id l bar with
    | some s1 => some s1
    | none => s.placeFirst (held ++ (s.eligible l).map (fun x => (l.prio, x.1))) rest

/-- Blocks may start on a partition's cores: it is valid and runs, awake and outside a maintenance window (R392, R397, R398). -/
def Part.starts (q : Part) : Bool := q.valid && !q.failed && !q.maint && q.sleep == 0

/-- DISPATCH_PLACE: the dispatcher of a partition that is awake and outside a maintenance window places the next block, gang or
co-operative set (R226, R392, R398). -/
def execDispatchPlace (s : State) : Out :=
  match tget s.parts s.ev.part with
  | some q =>
    if !q.starts then .fault .noSuchEvent
    else
      match s.placeFirst [] (s.heads s.ev.part) with
      | some s1 => .next s1
      | none => .fault .noSuchEvent
  | none => .fault .noSuchEvent

/-! Ends (R143, R227). -/

/-- WARP_END: every lane has exited and every operation has completed, so the warp gives back what it holds; with its last warp
the block ends (R143). -/
def execWarpEnd (s : State) : Out :=
  let c := s.ev.core
  let slot := s.ev.slot
  match s.warpAt? c slot with
  | some w =>
    if isControl c || !s.warpDone c slot w then .fault .noSuchEvent
    else
      let launch := match tget s.blocks w.block with | some b => b.launch | none => 0
      let s0 := { s with launches := tmod s.launches launch (fun x => { x with lastTick := max x.lastTick w.lastTick }) }
      let s1 := (s0.dropSet c slot).modCore c (fun k => { k with warps := tdel k.warps slot })
      let left := (s1.core c).warps.any (fun x => x.2.block == w.block)
      .next (if left then s1 else s1.endBlock w.block)
  | none => .fault .noSuchEvent

/-- A launch is done: its final status is written, and its completion object is signalled where the outcome says so (R227,
R380). -/
def State.concludeLaunch (s : State) (id : Nat) (l : Launch) (code : Byte) (signal : Bool) : State :=
  let s1 := s.finishLaunch id code
  if signal && l.w2 18 != 0 then s1.deviceSignal l.part (l.w2 18) (l.w2 20) else s1

/-- The DIGEST record of a launch: word 2 names the control core that executed LNCH, words 4 and 5 the launch record (R296,
R380). -/
def Launch.digestWords (l : Launch) : List Word :=
  [BitVec.ofNat 32 (Cause.digest.code + 512), BitVec.ofNat 32 (l.did * 65537), BitVec.ofNat 32 (576 + l.by_), 0,
    BitVec.ofNat 32 l.addr, BitVec.ofNat 32 (l.addr / 2 ^ 32), 0]

/-- DETMODE.NOREPLAY of a partition (R383). -/
def State.noReplay (s : State) (p : Nat) : Bool := match tget s.parts p with | some q => bit q.detmode.toNat 0 | none => false

/-- The first completion of a deterministic launch with digest D (R380, R381). -/
def State.compareDigest (s : State) (id : Nat) (l : Launch) : State :=
  let s1 := { s with launches := tmod s.launches id (fun x => { x with first := l.digest }) }
  if l.recorded = 0 then
    (s1.deviceWrite l.part (l.addr + 96) (bytesOf 16 l.digest.toNat)).concludeLaunch id l 0x03 true
  else if l.digest = l.recorded then s1.concludeLaunch id l 0x03 true
  else
    let s2 := s1.postWords l.part l.digestWords
    let fixed := match tget s2.launches id with | some x => x.fixed | none => true
    if fixed || s.noReplay l.part then s2.concludeLaunch id l 0x15 false
    else
      let log := match tget s2.launches id with | some x => x.log | none => []
      let s3 := s2.undoLaunch { l with log := log }
      { s3 with launches := tmod s3.launches id (fun x => { x with phase := .serial 0, ended := 0, digest := 0 }) }

/-- LAUNCH_COMPLETE: every block has ended; every store is performed at package scope, and the outcome is written (R227, R380,
R382). -/
def execLaunchComplete (s : State) : Out :=
  let id := s.ev.launch
  match tget s.launches id with
  | some l0 =>
    let s1 := s.settleCores l0
    let l := (tget s1.launches id).getD l0
    if l.next < l.total ∨ l.ended < l.total then .fault .noSuchEvent
    else
      match l.phase with
      | .running => .next (if l.det then s1.compareDigest id l else s1.concludeLaunch id l 0x03 true)
      | .serial _ =>
        .next (if l.digest = l.recorded then s1.concludeLaunch id l 0x04 true else s1.concludeLaunch id l 0x16 false)
      | _ => .fault .noSuchEvent
  | none => .fault .noSuchEvent

/-! Serial re-execution (R382). -/

/-- The blocks of a unit go to the cores they were placed on. -/
def State.placeUnit (s : State) (id : Nat) (l : Launch) : Nat → Nat → Option State
  | 0, _ => some s
  | n + 1, b =>
    match tget l.placed b with
    | some c =>
      match (s.core c).slotOf l.did with
      | some d =>
        match s.canAdmit l (c, d) with
        | some a => (s.placeBlock id l b c (b % l.gang) a).placeUnit id l n (b + 1)
        | none => none
      | none => none
    | none => none

/-- SERIAL_UNIT_START: the previous unit has ended with its stores performed, and the next one starts, as any block does outside sleep
and maintenance (R382, R392, R397). -/
def execSerialUnitStart (s : State) : Out :=
  let id := s.ev.launch
  match tget s.launches id with
  | some l =>
    match l.phase with
    | .serial u =>
      let mayStart := match tget s.parts l.part with | some q => q.starts | none => false
      if !mayStart || l.ended != u * l.unit || decide (l.total ≤ u * l.unit) then .fault .noSuchEvent
      else
        let s1 := s.settleCores l
        match s1.placeUnit id l l.unit (u * l.unit) with
        | some s2 => .next { s2 with launches := tmod s2.launches id (fun x => { x with phase := .serial (u + 1) }) }
        | none => .fault .noSuchEvent
    | _ => .fault .noSuchEvent
  | none => .fault .noSuchEvent

/-- The stall limit of a partition in ticks (R382, R383). -/
def State.stallLimit (s : State) (p : Nat) : Nat :=
  let n := match tget s.parts p with | some q => field q.detmode.toNat 27 8 | none => 0
  (if n = 0 then 1024 else n) * 1024

/-- No bundle of a launch's blocks has issued for a number of ticks, those of warps that have ended too (R382). -/
def State.quietFor (s : State) (launch n : Nat) : Bool :=
  (match tget s.launches launch with | some l => decide (n ≤ s.deckle.tick - l.lastTick) | none => true) &&
  s.cores.all (fun k => k.2.warps.all (fun w =>
    !(s.blocksOf launch).contains w.2.block || decide (n ≤ s.deckle.tick - w.2.lastTick)))

/-- SERIAL_STALL: the running unit has stalled; its blocks end, their stores reach their homes, those of gate calls too, the launch is
undone where it can be, and no later unit runs (R382). -/
def execSerialStall (s : State) : Out :=
  let id := s.ev.launch
  match tget s.launches id with
  | some l =>
    match l.phase with
    | .serial _ =>
      if (s.blocksOf id).isEmpty || !s.quietFor id (s.stallLimit l.part) then .fault .noSuchEvent
      else
        let s1 := ((s.endBlocks (s.blocksOf id)).drain (fun r => (r.part == l.part && r.did == l.did) || r.from_.any (fun f => (l.placed.map (·.2)).contains f.1))).settleCores l
        let l1 := (tget s1.launches id).getD l
        .next ((if l1.fixed then s1 else s1.undoLaunch l1).concludeLaunch id l 0x17 false)
    | _ => .fault .noSuchEvent
  | none => .fault .noSuchEvent

end Sys2Proof.Machine
end

