-- ==== Sys2Proof/Machine/Domains.lean ====
section
/-!
DEFINITION. Checkpoints and pre-emption of domains (R220, R255–R261, R301, R308, R407): CHKP and the events that take, save, roll
back and drain.
-/

namespace Sys2Proof.Machine

/-! Where a domain is. -/

/-- The slots that hold a DID on the cores of a partition. -/
def State.domSlots (s : State) (p did : Nat) : List (Nat × Nat) :=
  match tget s.parts p with
  | some q => (partCores p q).filterMap (fun c => ((s.core c).slotOf did).map (fun d => (c, d)))
  | none => []

/-- Those on cores that anything has touched. -/
def State.domHere (s : State) (p did : Nat) : List (Nat × Nat) :=
  s.cores.filterMap (fun k =>
    match s.partOf k.1 with
    | some q => if q == p && !isControl k.1 then (k.2.slotOf did).map (fun d => (k.1, d)) else none
    | none => none)

/-- The warps a stop of a slot reaches: those whose home or current slot it is, and those inside a gate call into it or through it
(R257, R260). -/
def State.slotWarps (s : State) (x : Nat × Nat) : List (Nat × Nat) :=
  ((s.core x.1).warps.filter (fun w => w.2.slotsIn.contains x.2)).map (fun w => (x.1, w.1))

/-- The warps of a domain and its visitors, by core and slot. -/
def State.domWarps (s : State) (p did : Nat) : List (Nat × Nat) := (s.domHere p did).flatMap s.slotWarps

/-- The blocks of a domain. -/
def State.domBlocks (s : State) (p did : Nat) : Tbl Block :=
  let l := s.domHere p did
  s.blocks.filter (fun b => l.contains (b.2.core, b.2.slot))

/-! When nothing of it is under way (R257 step 2). -/

/-- An operation is held or stopped by a fault (R185, R218, R268, R374). -/
def State.stoppedOp (s : State) (id : Nat) : Bool :=
  s.pend.any (fun p => p.id == id && (match p.kind with | .access _ held _ _ => held | _ => false)) ||
    s.copies.any (fun c => c.id == id && c.stopped) || s.loads.any (fun l => l.id == id && l.stopped) ||
    s.clusters.any (fun k => k.2.table.any (fun m => m.id == id && m.stopped))

/-- A pending operation that a stop does not wait for: held by a fault, or waiting on its condition (R407). -/
def State.passes (s : State) (p : Pending) : Bool :=
  match p.kind with
  | .access _ held _ _ => held
  | _ => s.waitsOn p

/-- Every operation a warp has accepted is complete, or stopped by a fault (R220, R257). -/
def State.warpQuiet (s : State) (c slot : Nat) (w : Warp) : Bool :=
  s.pend.all (fun p => !(p.core == c && p.slot == slot) || s.passes p) &&
    w.engine.all (fun l => l.all (fun e => e.2 || s.stoppedOp e.1)) &&
    s.pkts.all (fun p => !(p.core == c && p.slot == slot)) && s.holds.all (fun h => !(h.core == c && h.slot == slot)) &&
    s.copies.all (fun x => !(x.core == c && x.slot == slot) || x.stopped) &&
    s.loads.all (fun x => !(x.core == c && x.slot == slot) || x.stopped) &&
    s.clusters.all (fun k => k.2.table.all (fun m =>
      !(m.core == c && m.slot == slot) || m.stopped || (match m.kind with | .mzero _ | .mrel _ => true | _ => false)))

/-- Every warp of a domain is quiet. -/
def State.quiet (s : State) (p did : Nat) : Bool :=
  (s.domWarps p did).all (fun x => match s.warpAt? x.1 x.2 with | some w => s.warpQuiet x.1 x.2 w | none => true)

/-! Intervals (R257, R258). -/

/-- What CKINT and CKINTDEF give. -/
def ckEffective (own dflt : Word) : Nat := max 1024 (if own = 0 then dflt.toNat else own.toNat)

/-- A checkpoint falls due: E has reached a multiple of an interval in force since the last one fell due (R257). -/
def State.ckDue (s : State) (p did : Nat) : Bool :=
  let e := s.deckle.early
  let last := (s.domain p did).dueAt
  (s.domSlots p did).any (fun x =>
    let n := (s.core x.1).ckUse.getD x.2 65536
    decide (last / n < e / n))

/-! Stopping and going on. -/

/-- Issue of a domain's slots stops (R257 step 1). -/
def State.stopDomain (s : State) (p did : Nat) : State :=
  (s.domHere p did).foldl (fun s x => s.modCore x.1 (fun k =>
    if k.stopSlots.contains x.2 then k else { k with stopSlots := x.2 :: k.stopSlots })) s

/-- Issue resumes. -/
def State.startDomain (s : State) (p did : Nat) : State :=
  (s.domHere p did).foldl (fun s x => s.modCore x.1 (fun k => { k with stopSlots := k.stopSlots.filter (· != x.2) })) s

/-- The accesses of a domain's warps that a stop has parked are issued again (R407). -/
def State.retryDomain (s : State) (p did : Nat) : State := (s.domWarps p did).foldl (fun s x => s.retryWarp x.1 x.2) s

/-- A lane as a context saves it: one that waits on a condition stands at its instruction and issues it again (R407). A lane
stopped in a window of traps stays stopped (R291). -/
def Thread.saved (t : Thread) : Thread := if t.wait = .fpx ∨ t.wait = .trap then t else { t with wait := .run }

/-- A warp as a context saves it. -/
def Warp.saved (w : Warp) : Warp := { w with threads := w.threads.map (fun (p : Nat × Thread) => (p.1, p.2.saved)) }

/-- Flags on their way to a domain's lanes arrive (R88, R300). -/
def State.landFlags (s : State) (ws : List (Nat × Nat)) : State :=
  let mine (f : Nat × Nat × Nat × BitVec 5) : Bool := ws.contains (f.1, f.2.1)
  let s1 := (s.flagMsgs.filter mine).foldl (fun s f => s.giveFlags f.1 f.2.1 f.2.2.1 f.2.2.2) s
  { s1 with flagMsgs := s1.flagMsgs.filter (fun f => !mine f) }

/-- Steps 2 and 3 of R257: the requests of a domain's warps are performed, the accesses that wait on a condition stopped (R407),
flags gathered, and the dirty lines of its slots written back. -/
def State.settleDomain (s : State) (p did : Nat) : State :=
  let ws := s.domWarps p did
  let s1 := ws.foldl (fun s x => (s.drainWarp x.1 x.2).parkSyncs x.1 x.2) s
  (s.domHere p did).foldl (fun s x => s.writeBack x.1 x.2) (s1.landFlags ws)

/-! The image (R257 step 4). -/

/-- The registers, extended sets and record slots of a slot's warps and blocks, and its table slots (R257, R268). -/
def State.coreImage (s : State) (c d : Nat) : CoreImage :=
  let k := s.core c
  let home := k.warps.filter (fun w => w.2.homeSlot == d)
  let mine := s.resident c d
  ⟨home.map (fun (w : Nat × Warp) => (w.1, w.2.saved)),
    k.xsets.filter (fun x => bit (dpWarps (k.dp d)) (2 * x.1) || bit (dpWarps (k.dp d)) (2 * x.1 + 1)),
    k.recs.filter (fun r => mine.any (fun b => b.2.recSlots.contains r.1)),
    k.tablesOf d⟩

/-- A mould-store byte lies in a region of a DID (R203). -/
def Cluster.cellOf (k : Cluster) (did : Nat) (x : Host.Cell) : Bool :=
  match tget k.tags (x.1 % 131072 / 4096) with | some t => t.1 == did | none => false

/-- The tiles, mould-store regions and stopped commands of a domain in a cluster (R220). -/
def Cluster.image (k : Cluster) (did : Nat) (blocks : List Nat) : ClusterImage :=
  ⟨(k.tiles.zipIdx.filter (fun x => match x.1.holder with | some b => blocks.contains b | none => false)).map
      (fun (x : Tile × Nat) => (x.2, x.1)),
    k.mould.filter (k.cellOf did), k.tags.filter (fun t => t.2.1 == did), k.table.filter (fun m => blocks.contains m.block)⟩

/-- A domain's image. -/
def State.imageOf (s : State) (p did : Nat) : Image :=
  let blocks := s.domBlocks p did
  let ids := blocks.map (·.1)
  let ws := s.domWarps p did
  { cores := (s.domHere p did).map (fun (x : Nat × Nat) => (x.1, s.coreImage x.1 x.2))
    blocks := blocks
    clusters := s.clusters.map (fun (k : Nat × Cluster) => (k.1, k.2.image did ids))
    pend := s.pend.filter (fun (q : Pending) => ws.contains (q.core, q.slot))
    copies := s.copies.filter (fun (q : CopyCmd) => ids.contains q.block)
    loads := s.loads.filter (fun (q : TmLoad) => ws.contains (q.core, q.slot)) }

/-! Askers (R308). -/

/-- What CHKP answers for a DID that several partitions use: the largest result, where a 2 stands behind any other (log 25). -/
def joinCode (a : Option Word) (b : Word) : Word :=
  match a with
  | none => b
  | some x => if x = 2 then b else if b = 2 then x else unsignedMax x b

/-- Another partition's domain still keeps a lane's CHKP waiting. -/
def Asker.same (a b : Asker) : Bool := a.core == b.core && a.lane == b.lane

/-- A control-core lane whose CHKP has finished on one partition's slots: once it has on all of them it takes its result and goes
on (R308). -/
def State.tellAsker (s : State) (a : Asker) (code : Word) : State :=
  let v := joinCode a.code code
  if s.domains.any (fun d => d.2.askers.any a.same) then
    { s with domains := s.domains.map (fun (d : Nat × Domain) =>
        (d.1, { d.2 with askers := d.2.askers.map (fun (x : Asker) => if a.same x then { x with code := some v } else x) })) }
  else
    s.wakeLane a.core 0 a.lane (fun t =>
      if t.wait = .domain then { t.set a.dst v with pc := t.pc + 4, rem := 0, wait := .run } else t)

/-- The askers of an action are told, and leave. -/
def State.tellAskers (s : State) (p did action : Nat) (code : Word) : State :=
  let l := (s.domain p did).askers
  if l.isEmpty then s
  else
    let s1 := s.modDomain p did (fun d => { d with askers := d.askers.filter (fun a => a.action != action) })
    (l.filter (fun a => a.action == action)).foldl (fun s a => s.tellAsker a code) s1

/-! The three outcomes. -/

/-- Step 4 of R257: the image is updated, and the log and the mark begin anew. -/
def State.saveDomain (s : State) (p did : Nat) : State :=
  let s1 := s.settleDomain p did
  let im := s1.imageOf p did
  s1.modDomain p did (fun d => { d with image := some im, log := [], full := false, mark := false })

/-- A checkpoint: it is saved, the intervals written meanwhile come into force, and issue resumes unless the domain leaves
(R257, R258). One that fell due meanwhile would save the same state, so it is taken with it. -/
def State.takeCheckpoint (s : State) (p did : Nat) : State :=
  let dflt := match tget s.parts p with | some q => q.ckintdef | none => 0
  let s1 := (s.saveDomain p did).modDomain p did (fun d => { d with due := false, dueAt := s.deckle.early })
  let s2 := (s1.domSlots p did).foldl (fun s x =>
    let n := ckEffective ((s.core x.1).ckint.getD x.2 0) dflt
    if (s.core x.1).ckUse.getD x.2 65536 = n then s else s.putCore x.1 (fun k => { k with ckUse := k.ckUse.set x.2 n })) s1
  let s3 := if (s2.domain p did).leaving then s2 else (s2.startDomain p did).retryDomain p did
  s3.tellAskers p did 0 0

/-- A gate call is open into or out of a domain (R259). -/
def State.gateOpen (s : State) (p did : Nat) : Bool :=
  (s.domHere p did).any (fun x => (s.core x.1).warps.any (fun w => !w.2.gates.isEmpty && w.2.slotsIn.contains x.2))

/-- The domain leaves issue, its state in its slots (R260). -/
def State.freeze (s : State) (p did : Nat) (code : Word) : State :=
  let s1 := (s.domHere p did).foldl (fun s x => s.modCore x.1 (fun k => { k with
    stopSlots := k.stopSlots.filter (· != x.2)
    frozen := if k.frozen.contains x.2 then k.frozen else x.2 :: k.frozen
    warps := k.warps.map (fun (w : Nat × Warp) => if w.2.homeSlot = x.2 then (w.1, w.2.saved) else w) })) s
  (s1.modDomain p did (fun d => { d with leaving := false, out := true })).tellAskers p did 1 code

/-- The tiles of a cluster after a rollback: the image's, in every tile that no block outside the domain holds (R220). -/
def Cluster.rollTiles (k : Cluster) (im : ClusterImage) (blocks : List Nat) : List Tile :=
  k.tiles.zipIdx.map (fun x =>
    match x.1.holder with
    | some b => if blocks.contains b then (tget im.tiles x.2).getD Tile.free else x.1
    | none => (tget im.tiles x.2).getD Tile.free)

/-- A cluster after a rollback: the domain's tiles, regions and commands are the image's (R220). -/
def Cluster.roll (k : Cluster) (im : ClusterImage) (did : Nat) (blocks : List Nat) : Cluster :=
  let others := k.tags.filter (fun t => t.2.1 != did)
  let back := im.tags.filter (fun t => (tget others t.1).isNone)
  let cells := im.mould.filter (fun c => (tget back (c.1 % 131072 / 4096)).isSome)
  { k with
    tiles := k.rollTiles im blocks
    tags := back.foldl (fun t x => tput t x.1 x.2) others
    mould := cells.foldl (fun m c => setByte m c.1 c.2) (k.mould.filter (fun c => !k.cellOf did c))
    table := k.table.filter (fun m => !blocks.contains m.block) ++ im.table }

/-- What a warp's suspension is after a rollback: a record posted or held since the checkpoint stays as it is and is not posted again;
one that names a warp which the checkpoint finds running suspends it there, so that its TSTAT action goes on from the checkpoint
(R259, R301). -/
def rollSusp : Option Susp → Option Susp → Option Susp
  | some u, some v => if u.report == v.report then some { v with posted := u.posted || v.posted } else some v
  | some u, none => some { u with report := { u.report with op := none }, mask := 0 }
  | none, v => v

/-- A warp of the image takes its slot again, with the reports of its other records that are posted (R259, R301). -/
def Warp.rollFrom (old : Option Warp) (w : Warp) : Warp :=
  match old with
  | some o =>
    let known (r : Report) : Bool := w.pendingTraps.any (fun x => { x with op := none } == { r with op := none })
    { w with
      susp := rollSusp o.susp w.susp
      pendingTraps := (o.pendingTraps.filter (fun r => r.posted && !known r)).foldl (fun l r => insertReport { r with op := none } l)
        w.pendingTraps }
  | none => w

/-- A held record is that of the suspension which a core's warp is in. -/
def State.stillHeld (s : State) : HeldRec → Bool
  | .warp c slot _ waits _ r _ => waits && (match (s.warpAt? c slot).bind (·.susp) with | some u => !u.posted && u.report == r | none => false)
  | .words _ => true

/-- A core after a rollback: the home warps of the slot, their extended sets, record slots and table slots are the image's, and
its L1 lines are dropped (R259, R268). -/
def Core.roll (k : Core) (im : CoreImage) (d : Nat) (mine : List (Nat × Block)) : Core :=
  let kept := k.warps.filter (fun w => w.2.homeSlot != d)
  let pair (x : Nat × XSet) : Bool := bit (dpWarps (k.dp d)) (2 * x.1) || bit (dpWarps (k.dp d)) (2 * x.1 + 1)
  let theirs (r : Nat) : Bool := mine.any (fun b => b.2.recSlots.contains r)
  { k with
    warps := im.warps.foldl (fun t w => tput t w.1 (Warp.rollFrom (tget k.warps w.1) w.2)) kept
    xsets := im.xsets.foldl (fun t x => tput t x.1 x.2) (k.xsets.filter (fun x => !pair x))
    recs := im.recs.foldl (fun t r => tput t r.1 r.2) (k.recs.filter (fun r => !theirs r.1))
    recOld := k.recOld.filter (fun r => !theirs r.1)
    tms := im.tms.foldl (fun t p => tput t p.1 p.2) (k.tms.filter (fun p => !bit (dpTm (k.dp d)) p.1))
    l1 := tdel k.l1 d
    soon := tdel k.soon d }

/-- A held record is that of the suspension a warp is in. -/
def HeldRec.isOf (c slot : Nat) : HeldRec → Bool
  | .warp c' slot' _ waits _ _ _ => c' == c && slot' == slot && waits
  | .words _ => false

/-- The warps among some for which no record is held. -/
def State.noneHeld (s : State) (ws : List (Nat × Nat)) : List (Nat × Nat) :=
  ws.filter (fun x => !s.parts.any (fun q => q.2.heldRecs.any (HeldRec.isOf x.1 x.2)))

/-- Rollback: memory returns to the last checkpoint through the felt, and the image is the domain's context (R259). -/
def State.rollback (s : State) (p did : Nat) : State :=
  let s1 := s.settleDomain p did
  let dom := s1.domain p did
  let s2 := s1.undoLog dom.log
  let im := dom.image.getD ⟨[], [], [], [], [], []⟩
  let ws := s2.domWarps p did
  let ids := (s2.domBlocks p did).map (·.1)
  let s3 := (s2.domHere p did).foldl (fun s x => s.modCore x.1 (fun k =>
    k.roll ((tget im.cores x.1).getD ⟨[], [], [], k.tablesOf x.2⟩) x.2 (s2.resident x.1 x.2))) s2
  let s4 := { s3 with
    blocks := im.blocks.foldl (fun (t : Tbl Block) (b : Nat × Block) => if ids.contains b.1 then tput t b.1 b.2 else t) s3.blocks
    clusters := s3.clusters.map (fun (k : Nat × Cluster) =>
      (k.1, k.2.roll ((tget im.clusters k.1).getD ⟨[], [], [], []⟩) did ids))
    pend := s3.pend.filter (fun (q : Pending) => !ws.contains (q.core, q.slot)) ++ im.pend
    copies := s3.copies.filter (fun (q : CopyCmd) => !ids.contains q.block) ++ im.copies
    loads := s3.loads.filter (fun (q : TmLoad) => !ws.contains (q.core, q.slot)) ++ im.loads }
  let s5 := s4.modPart p (fun q => { q with
    heldRecs := q.heldRecs.map (fun (h : HeldRec) => if s4.stillHeld h then h else h.letGo (fun a b => ws.contains (a, b))) })
  let s6 := (s5.noneHeld ws).foldl (fun s x => s.postRecord x.1 x.2) s5
  (s6.modDomain p did (fun d => { d with log := [], full := false })).freeze p did 0

/-- Drain: the state now is the new checkpoint (R259). -/
def State.drainDomain (s : State) (p did : Nat) : State := (s.saveDomain p did).freeze p did 4

/-- A pre-emption that can finish now does: first any checkpoint that is due, then rollback or drain; with CHKP's result (R259,
R308). -/
def State.preemptNow (s : State) (p did : Nat) : State × Word :=
  let s1 := if (s.domain p did).due || s.ckDue p did then s.takeCheckpoint p did else s
  if (s1.domain p did).mark || s1.gateOpen p did then (s1.drainDomain p did, 4) else (s1.rollback p did, 0)

/-- The domain resumes: its pending flags join FPFLAGS, a checkpoint that fell due meanwhile is taken, and its slots issue again
(R257, R260, R300). -/
def State.resumeDomain (s : State) (p did : Nat) : State :=
  let s1 := (s.domHere p did).foldl (fun s x => s.modCore x.1 (fun k => { k with
    frozen := k.frozen.filter (· != x.2)
    warps := k.warps.map (fun (w : Nat × Warp) => if w.2.homeSlot = x.2 then (w.1, w.2.joinFlags) else w) })) s
  let s2 := s1.modDomain p did (fun d => { d with out := false })
  if s2.ckDue p did then s2.takeCheckpoint p did else s2.retryDomain p did

/-! CHKP (R308). -/

/-- One action on the slots a partition holds for a DID: its result, or none where it waits for the domain to be quiet. -/
def State.chkpPart (s : State) (p did m : Nat) : State × Option Word :=
  let d := s.domain p did
  match m with
  | 0 =>
    if d.out then (s, some 2)
    else
      let s1 := (s.modDomain p did (fun d => { d with due := true })).stopDomain p did
      if s1.quiet p did then (s1.takeCheckpoint p did, some 0) else (s1, none)
  | 1 =>
    if d.out then (s, some 2)
    else
      let s1 := (s.modDomain p did (fun d => { d with leaving := true })).stopDomain p did
      if s1.quiet p did then
        let (s2, r) := s1.preemptNow p did
        (s2, some r)
      else (s1, none)
  | _ => if d.out then (s.resumeDomain p did, some 0) else (s, some 2)

/-- The partitions of the package whose cores hold a DID in a slot (R308). -/
def State.didParts (s : State) (did : Nat) : List Nat :=
  (s.parts.filter (fun q => q.2.valid && !(s.domSlots q.1 did).isEmpty)).map (·.1)

/-- One lane's CHKP on every core of the package: the results so far, and the partitions it waits for (R308). -/
def State.chkpLane (s : State) (did m : Nat) : State × Option Word × List Nat :=
  (s.didParts did).foldl (fun (x : State × Option Word × List Nat) p =>
    let (s1, r) := x.1.chkpPart p did m
    match r with
    | some v => (s1, some (joinCode x.2.1 v), x.2.2)
    | none => (s1, x.2.1, x.2.2 ++ [p])) (s, none, [])

/-- CHKP with action m, lane by lane: the DID is in va [15:0]; with no slot that holds it the result is 1 (R308). -/
def chkp (m : Nat) (a d : Reg) (s : State) : Out :=
  s.issue { Use.sysop [.one .vd d, .one .va a] with level := .supervisor, control := true } (fun s =>
    let c := s.cur.core
    let s1 := s.mapActive (fun _ t => if t.helper then t.set d.toNat 0 else t)
    .next (s1.live.foldl (fun s x =>
      let did := field (x.2.nat a.toNat) 15 0
      let (s2, got, rest) := s.chkpLane did m
      if rest.isEmpty then s2.modWarp (fun w => w.mapLanes (maskOf [x.1]) (fun _ t => t.set d.toNat (got.getD 1)))
      else
        (rest.foldl (fun (s : State) p => s.modDomain p did (fun k =>
          { k with askers := k.askers ++ [⟨c, x.1, d.toNat, m, got⟩] })) s2).modWarp (fun w =>
            w.mapLanes (maskOf [x.1]) (fun _ t => { t with wait := .domain }))) s1).finish)

/-- CHKP 0: take a checkpoint (R308). -/
def execChkpTake (a d : Reg) (s : State) : Out := chkp 0 a d s

/-- CHKP 1: pre-empt (R308). -/
def execChkpPreempt (a d : Reg) (s : State) : Out := chkp 1 a d s

/-- CHKP 2: resume (R308). -/
def execChkpResume (a d : Reg) (s : State) : Out := chkp 2 a d s

/-! The events. -/

/-- CHECKPOINT_DUE: E has reached a multiple of an interval, and the domain's issue stops (R257). -/
def execCheckpointDue (s : State) : Out :=
  let p := s.ev.part
  let did := s.ev.did
  let d := s.domain p did
  if d.out || d.due || !s.ckDue p did then .fault .noSuchEvent
  else .next ((s.modDomain p did (fun d => { d with due := true, dueAt := s.deckle.early })).stopDomain p did)

/-- CHECKPOINT_SAVE: everything the domain accepted is complete, and the checkpoint is saved (R257). -/
def execCheckpointSave (s : State) : Out :=
  let p := s.ev.part
  let did := s.ev.did
  if (s.domain p did).due && s.quiet p did then .next (s.takeCheckpoint p did) else .fault .noSuchEvent

/-- A pre-emption may finish: asked for, quiet, and no checkpoint due or in progress (R259). -/
def State.mayLeave (s : State) (p did : Nat) : Bool :=
  let d := s.domain p did
  d.leaving && !d.due && !s.ckDue p did && s.quiet p did

/-- PREEMPT_ROLLBACK (R259). -/
def execPreemptRollback (s : State) : Out :=
  let p := s.ev.part
  let did := s.ev.did
  if s.mayLeave p did && !(s.domain p did).mark && !s.gateOpen p did then .next (s.rollback p did) else .fault .noSuchEvent

/-- PREEMPT_DRAIN (R259). -/
def execPreemptDrain (s : State) : Out :=
  let p := s.ev.part
  let did := s.ev.did
  if s.mayLeave p did && ((s.domain p did).mark || s.gateOpen p did) then .next (s.drainDomain p did) else .fault .noSuchEvent

end Sys2Proof.Machine
end

