-- ==== Sys2Proof/Machine/Float.lean ====
section
/-!
DEFINITION. Floating-point instructions of majors 0x10 to 0x17 (R105–R122): FP32 and FP64 arithmetic and compares, packed
FP16 and BF16, conversions, dot products and the special functions.
-/

namespace Sys2Proof.Machine

/-- An FP32 operation on va, vb and the old vd. -/
def fp3 (b a d : Reg) (f : FpEnv → Nat → Nat → Nat → FpOut) (s : State) : Out :=
  s.issue (Use.f3 b a d).fp (fun s =>
    .next (s.mapActive (fun _ t =>
      t.putFp32 (s.reg .vd d)
        (f (fpEnv s.cur t) (t.nat (s.reg .va a)) (t.nat (s.reg .vb b)) (t.nat (s.reg .vd d))))).finish)

/-- An FP32 operation on va. -/
def fp2 (a d : Reg) (f : FpEnv → Nat → FpOut) (s : State) : Out :=
  s.issue (Use.f2 a d).fp (fun s =>
    .next (s.mapActive (fun _ t => t.putFp32 (s.reg .vd d) (f (fpEnv s.cur t) (t.nat (s.reg .va a))))).finish)

/-- A 16-bit FP32 operation on vd and vs (R23). -/
def fp16 (x d : BitVec 5) (f : FpEnv → Nat → Nat → FpOut) (s : State) : Out :=
  s.issue (Use.f2 (low5 x) (low5 d)).fp (fun s =>
    .next (s.mapActive (fun _ t =>
      t.putFp32 (s.reg .vd (low5 d))
        (f (fpEnv s.cur t) (t.nat (s.reg .vd (low5 d))) (t.nat (s.reg .va (low5 x)))))).finish)

/-- An FP64 operation on pairs. -/
def fpd3 (b a d : Reg) (f : FpEnv → Nat → Nat → Nat → FpOut) (s : State) : Out :=
  s.issue (Use.p3 b a d).fp (fun s =>
    .next (s.mapActive (fun _ t =>
      t.putFp64 (s.reg .vd d)
        (f (fpEnv s.cur t) (t.nat64 (s.reg .va a)) (t.nat64 (s.reg .vb b)) (t.nat64 (s.reg .vd d))))).finish2)

/-- An FP64 operation on one pair. -/
def fpd2 (a d : Reg) (f : FpEnv → Nat → FpOut) (s : State) : Out :=
  s.issue (Use.p2 a d).fp (fun s =>
    .next (s.mapActive (fun _ t => t.putFp64 (s.reg .vd d) (f (fpEnv s.cur t) (t.nat64 (s.reg .va a))))).finish2)

/-- FCMP.cc: 1 or 0, invalid for a signalling NaN, or for any NaN in the signalling forms (R110). -/
def execFcmp (cc : Cmp) (sig : Bool) (b a d : Reg) (s : State) : Out :=
  s.issue (Use.f3 b a d) (fun s =>
    .next (s.mapActive (fun _ t =>
      t.putFp32 (s.reg .vd d)
        (fpCmp .f32 (fpEnv s.cur t) cc sig (t.nat (s.reg .va a)) (t.nat (s.reg .vb b))))).finish)

/-- DCMP.cc on pairs, into one register (R110). -/
def execDcmp (cc : Cmp) (sig : Bool) (b a d : Reg) (s : State) : Out :=
  s.issue { opds := [.one .vd d, .two .va a, .two .vb b], rep := true } (fun s =>
    .next (s.mapActive (fun _ t =>
      t.putFp32 (s.reg .vd d)
        (fpCmp .f64 (fpEnv s.cur t) cc sig (t.nat64 (s.reg .va a)) (t.nat64 (s.reg .vb b))))).finish)

/-- The register operand of a CVT format (R113). -/
def cvtOpd (f : Fld) (n : NumFmt) (r : Reg) : Opd := if n.wide then .two f r else .one f r

/-- CVT: rounding by the rm field or MOD; an integer pair takes no MOD (R113–R117). -/
def execCvt (sat : Bool) (rm : Rm) (src dst : NumFmt) (a d : Reg) (s : State) : Out :=
  let fl := src.isFloat || dst.isFloat
  s.issue { opds := [cvtOpd .vd dst d, cvtOpd .va src a], rep := true, rm := fl, ftz := fl } (fun s =>
    .next (s.mapActive (fun _ t =>
      let x := if src.wide then t.nat64 (s.reg .va a) else t.nat (s.reg .va a)
      let r := cvt src dst (fpEnvRm s.cur rm t) sat x
      if dst.wide then t.putFp64 (s.reg .vd d) r else t.putFp32 (s.reg .vd d) r)).finish)

/-- An integer dot product: no flags, no MOD (R90, R118). -/
def dotI (b a d : Reg) (signed : Bool) (w n : Nat) (s : State) : Out :=
  alu3 b a d (fun x y z => BitVec.ofNat 32 (dotInt signed w n x.toNat y.toNat z.toNat)) s

/-- An SFU instruction: results are formed at issue and written at its completion. A lane with an enable set has every later
instruction wait; one whose result raises an enabled exception stops at once (R119–R122). -/
def sfu (u : Use) (L : BitVec 4) (dst : State → List Nat) (f : State → Thread → FpOut)
    (put : State → Nat → List (Nat × Word)) (s : State) : Out :=
  s.issue u (fun s =>
    let (id, s1) := s.fresh
    let traps (t : Thread) : Bool := (f s t).flags &&& t.enables != 0
    let ws := (s.active.filter (fun p => !traps p.2)).map (fun p =>
      (⟨p.1, put s (f s p.2).bits, (f s p.2).flags⟩ : LaneWrite))
    let pc := match s.active with | (_, t) :: _ => t.pc | [] => 0
    let s2 := { s1 with pend := s1.pend ++ [(⟨id, s.cur.core, s.cur.slot, pc, none, .result .sfu ws⟩ : Pending)] }
    .next (s2.mapActive (fun _ t =>
      if traps t then t.stopFpx (f s t).flags
      else t.openWindow s.cur.last L.toNat (t.enables != 0) [id] (dst s))).finish)

/-- Mode 00: the fixed approximate function, without MOD (R119, R120). -/
def sfu00 (op : SfuOp) (L : BitVec 4) (a d : Reg) (s : State) : Out :=
  sfu (Use.f2 a d) L (fun s => [s.reg .vd d]) (fun s t => sfuApprox op (fpEnv s.cur t) (t.nat (s.reg .va a)))
    (fun s x => [(s.reg .vd d, BitVec.ofNat 32 x)]) s

/-- Mode 01: the correctly rounded FP32 function (R119, R120). -/
def sfu01 (op : SfuOp) (L : BitVec 4) (rm : Rm) (a d : Reg) (s : State) : Out :=
  sfu (Use.f2 a d).fp L (fun s => [s.reg .vd d])
    (fun s t => sfuRounded op .f32 (fpEnvRm s.cur rm t) (t.nat (s.reg .va a)))
    (fun s x => [(s.reg .vd d, BitVec.ofNat 32 x)]) s

/-- Mode 10: the correctly rounded FP64 function (R119, R120). -/
def sfu10 (op : SfuOp) (L : BitVec 4) (rm : Rm) (a d : Reg) (s : State) : Out :=
  sfu (Use.p2 a d).fp L (fun s => [s.reg .vd d, s.reg .vd d + 1])
    (fun s t => sfuRounded op .f64 (fpEnvRm s.cur rm t) (t.nat64 (s.reg .va a)))
    (fun s x => [(s.reg .vd d, BitVec.ofNat 32 x), (s.reg .vd d + 1, BitVec.ofNat 32 (x / 2 ^ 32))]) s

/-- FADD: a + b (R106). -/
def execFadd (b a d : Reg) (s : State) : Out := fp3 b a d (fun e x y _ => fpAdd .f32 e x y) s

/-- FSUB: a − b (R106). -/
def execFsub (b a d : Reg) (s : State) : Out := fp3 b a d (fun e x y _ => fpSub .f32 e x y) s

/-- FMUL: a × b (R106). -/
def execFmul (b a d : Reg) (s : State) : Out := fp3 b a d (fun e x y _ => fpMul .f32 e x y) s

/-- FFMA: a × b + d, one rounding (R106). -/
def execFfma (b a d : Reg) (s : State) : Out := fp3 b a d (fun e x y z => fpFma .f32 e false false x y z) s

/-- FFMS: a × b − d, one rounding (R106). -/
def execFfms (b a d : Reg) (s : State) : Out := fp3 b a d (fun e x y z => fpFma .f32 e false true x y z) s

/-- FNFMA: d − a × b, one rounding (R106). -/
def execFnfma (b a d : Reg) (s : State) : Out := fp3 b a d (fun e x y z => fpFma .f32 e true false x y z) s

/-- FMIN (R107). -/
def execFmin (b a d : Reg) (s : State) : Out := fp3 b a d (fun e x y _ => fpMinMax false .f32 e x y) s

/-- FMAX (R107). -/
def execFmax (b a d : Reg) (s : State) : Out := fp3 b a d (fun e x y _ => fpMinMax true .f32 e x y) s

/-- FSCALEB.b0: a × 2^s for byte 0 of vb (R77, R109). -/
def execFscalebB0 (b a d : Reg) (s : State) : Out := fp3 b a d (fun e x y _ => fpScale .f32 e x (sextN (y / 2 ^ 0) 8)) s

/-- FSCALEB.b1: a × 2^s for byte 1 of vb (R77, R109). -/
def execFscalebB1 (b a d : Reg) (s : State) : Out := fp3 b a d (fun e x y _ => fpScale .f32 e x (sextN (y / 2 ^ 8) 8)) s

/-- FSCALEB.b2: a × 2^s for byte 2 of vb (R77, R109). -/
def execFscalebB2 (b a d : Reg) (s : State) : Out := fp3 b a d (fun e x y _ => fpScale .f32 e x (sextN (y / 2 ^ 16) 8)) s

/-- FSCALEB.b3: a × 2^s for byte 3 of vb (R77, R109). -/
def execFscalebB3 (b a d : Reg) (s : State) : Out := fp3 b a d (fun e x y _ => fpScale .f32 e x (sextN (y / 2 ^ 24) 8)) s

/-- FRND: an integral value (R108). -/
def execFrnd (a d : Reg) (s : State) : Out := fp2 a d (fun e x => fpRnd .f32 e x) s

/-- FCLS: the class of the raw bits, no flag (R108). -/
def execFcls (a d : Reg) (s : State) : Out := fp2 a d (fun _ x => ⟨fpClass .f32 x, 0⟩) s

/-- FABS: clears the sign, nothing else (R106). -/
def execFabs (a d : Reg) (s : State) : Out := fp2 a d (fun _ x => ⟨x % 2 ^ 31, 0⟩) s

/-- FNEG: flips the sign, nothing else (R106). -/
def execFneg (a d : Reg) (s : State) : Out := fp2 a d (fun _ x => ⟨(x + 2 ^ 31) % 2 ^ 32, 0⟩) s

/-- FADD, 16-bit form (R23). -/
def execFadd16 (x d : BitVec 5) (s : State) : Out := fp16 x d (fun e x y => fpAdd .f32 e x y) s

/-- FSUB, 16-bit form (R23). -/
def execFsub16 (x d : BitVec 5) (s : State) : Out := fp16 x d (fun e x y => fpSub .f32 e x y) s

/-- FMUL, 16-bit form (R23). -/
def execFmul16 (x d : BitVec 5) (s : State) : Out := fp16 x d (fun e x y => fpMul .f32 e x y) s

/-- FMAX, 16-bit form (R23). -/
def execFmax16 (x d : BitVec 5) (s : State) : Out := fp16 x d (fun e x y => fpMinMax true .f32 e x y) s

/-- DADD (R111). -/
def execDadd (b a d : Reg) (s : State) : Out := fpd3 b a d (fun e x y _ => fpAdd .f64 e x y) s

/-- DSUB (R111). -/
def execDsub (b a d : Reg) (s : State) : Out := fpd3 b a d (fun e x y _ => fpSub .f64 e x y) s

/-- DMUL (R111). -/
def execDmul (b a d : Reg) (s : State) : Out := fpd3 b a d (fun e x y _ => fpMul .f64 e x y) s

/-- DFMA: a × b + d, one rounding (R111). -/
def execDfma (b a d : Reg) (s : State) : Out := fpd3 b a d (fun e x y z => fpFma .f64 e false false x y z) s

/-- DMIN (R107, R111). -/
def execDmin (b a d : Reg) (s : State) : Out := fpd3 b a d (fun e x y _ => fpMinMax false .f64 e x y) s

/-- DMAX (R107, R111). -/
def execDmax (b a d : Reg) (s : State) : Out := fpd3 b a d (fun e x y _ => fpMinMax true .f64 e x y) s

/-- DRND (R108, R111). -/
def execDrnd (a d : Reg) (s : State) : Out := fpd2 a d (fun e x => fpRnd .f64 e x) s

/-- DABS: clears bit 63 (R111). -/
def execDabs (a d : Reg) (s : State) : Out := fpd2 a d (fun _ x => ⟨x % 2 ^ 63, 0⟩) s

/-- DNEG: flips bit 63 (R111). -/
def execDneg (a d : Reg) (s : State) : Out := fpd2 a d (fun _ x => ⟨(x + 2 ^ 63) % 2 ^ 64, 0⟩) s

/-- HADD2: per element, F16 (R112). -/
def execHadd2 (b a d : Reg) (s : State) : Out := fp3 b a d (fun e => pack2 (fun x y _ => fpAdd .f16 e x y)) s

/-- HSUB2: per element, F16 (R112). -/
def execHsub2 (b a d : Reg) (s : State) : Out := fp3 b a d (fun e => pack2 (fun x y _ => fpSub .f16 e x y)) s

/-- HMUL2: per element, F16 (R112). -/
def execHmul2 (b a d : Reg) (s : State) : Out := fp3 b a d (fun e => pack2 (fun x y _ => fpMul .f16 e x y)) s

/-- HFMA2: per element, F16 (R112). -/
def execHfma2 (b a d : Reg) (s : State) : Out := fp3 b a d (fun e => pack2 (fun x y z => fpFma .f16 e false false x y z)) s

/-- HMIN2: per element, F16 (R112). -/
def execHmin2 (b a d : Reg) (s : State) : Out := fp3 b a d (fun e => pack2 (fun x y _ => fpMinMax false .f16 e x y)) s

/-- HMAX2: per element, F16 (R112). -/
def execHmax2 (b a d : Reg) (s : State) : Out := fp3 b a d (fun e => pack2 (fun x y _ => fpMinMax true .f16 e x y)) s

/-- BADD2: per element, BF16 (R112). -/
def execBadd2 (b a d : Reg) (s : State) : Out := fp3 b a d (fun e => pack2 (fun x y _ => fpAdd .bf16 e x y)) s

/-- BSUB2: per element, BF16 (R112). -/
def execBsub2 (b a d : Reg) (s : State) : Out := fp3 b a d (fun e => pack2 (fun x y _ => fpSub .bf16 e x y)) s

/-- BMUL2: per element, BF16 (R112). -/
def execBmul2 (b a d : Reg) (s : State) : Out := fp3 b a d (fun e => pack2 (fun x y _ => fpMul .bf16 e x y)) s

/-- BFMA2: per element, BF16 (R112). -/
def execBfma2 (b a d : Reg) (s : State) : Out := fp3 b a d (fun e => pack2 (fun x y z => fpFma .bf16 e false false x y z)) s

/-- BMIN2: per element, BF16 (R112). -/
def execBmin2 (b a d : Reg) (s : State) : Out := fp3 b a d (fun e => pack2 (fun x y _ => fpMinMax false .bf16 e x y)) s

/-- BMAX2: per element, BF16 (R112). -/
def execBmax2 (b a d : Reg) (s : State) : Out := fp3 b a d (fun e => pack2 (fun x y _ => fpMinMax true .bf16 e x y)) s

/-- DOT8.s8 (R90). -/
def execDot8S8 (b a d : Reg) (s : State) : Out := dotI b a d true 8 4 s

/-- DOT8.u8 (R90). -/
def execDot8U8 (b a d : Reg) (s : State) : Out := dotI b a d false 8 4 s

/-- DOT4.s4 (R90). -/
def execDot4S4 (b a d : Reg) (s : State) : Out := dotI b a d true 4 8 s

/-- DOT8.e4m3: exact sum, one rounding (R90). -/
def execDot8E4m3 (b a d : Reg) (s : State) : Out := fp3 b a d (dotFloat .e4m3 8 4) s

/-- DOT8.e5m2: exact sum, one rounding (R90). -/
def execDot8E5m2 (b a d : Reg) (s : State) : Out := fp3 b a d (dotFloat .e5m2 8 4) s

/-- DOT4.e2m1: exact sum, one rounding (R90). -/
def execDot4E2m1 (b a d : Reg) (s : State) : Out := fp3 b a d (dotFloat .e2m1 4 8) s

/-- FRCP, mode 00 (R120, R121). -/
def execFrcp (L : BitVec 4) (a d : Reg) (s : State) : Out := sfu00 .rcp L a d s

/-- FRSQ, mode 00 (R120, R121). -/
def execFrsq (L : BitVec 4) (a d : Reg) (s : State) : Out := sfu00 .rsq L a d s

/-- FSQRT, mode 00 (R120, R121). -/
def execFsqrt (L : BitVec 4) (a d : Reg) (s : State) : Out := sfu00 .sqrt L a d s

/-- FEXP2, mode 00 (R120, R121). -/
def execFexp2 (L : BitVec 4) (a d : Reg) (s : State) : Out := sfu00 .exp2 L a d s

/-- FLOG2, mode 00 (R120, R121). -/
def execFlog2 (L : BitVec 4) (a d : Reg) (s : State) : Out := sfu00 .log2 L a d s

/-- FSIN, mode 00 (R120, R121). -/
def execFsin (L : BitVec 4) (a d : Reg) (s : State) : Out := sfu00 .sin L a d s

/-- FCOS, mode 00 (R120, R121). -/
def execFcos (L : BitVec 4) (a d : Reg) (s : State) : Out := sfu00 .cos L a d s

/-- FTANH, mode 00 (R120, R121). -/
def execFtanh (L : BitVec 4) (a d : Reg) (s : State) : Out := sfu00 .tanh L a d s

/-- FRCP.cr, mode 01 (R120, R121). -/
def execFrcpCr (rm : Rm) (L : BitVec 4) (a d : Reg) (s : State) : Out := sfu01 .rcp L rm a d s

/-- FRSQ.cr, mode 01 (R120, R121). -/
def execFrsqCr (rm : Rm) (L : BitVec 4) (a d : Reg) (s : State) : Out := sfu01 .rsq L rm a d s

/-- FSQRT.cr, mode 01 (R120, R121). -/
def execFsqrtCr (rm : Rm) (L : BitVec 4) (a d : Reg) (s : State) : Out := sfu01 .sqrt L rm a d s

/-- DRCP, mode 10 (R120, R121). -/
def execDrcp (rm : Rm) (L : BitVec 4) (a d : Reg) (s : State) : Out := sfu10 .rcp L rm a d s

/-- DRSQ, mode 10 (R120, R121). -/
def execDrsq (rm : Rm) (L : BitVec 4) (a d : Reg) (s : State) : Out := sfu10 .rsq L rm a d s

/-- DSQRT, mode 10 (R120, R121). -/
def execDsqrt (rm : Rm) (L : BitVec 4) (a d : Reg) (s : State) : Out := sfu10 .sqrt L rm a d s

/-- SFU_COMPLETE: the results of the oldest special function of the event's operation are written (R33, R122). -/
def execSfuComplete (s : State) : Out :=
  match s.pend.find? (fun p => p.id == s.ev.id) with
  | some p =>
    match p.kind with
    | .result .sfu ws => .next ((s.commit p.core p.slot ws).endPending p)
    | _ => .fault .noSuchEvent
  | none => .fault .noSuchEvent

end Sys2Proof.Machine
end

