-- ==== Sys2Proof/Machine/Matrix.lean ====
section
/-!
DEFINITION. The matrix engine and the mould store (R92, R157–R159, R200–R221): the format word, the checks of MLDB and MLOOP,
their passes, the arbiter, watermarks, and the reads of rows. The order on tiles stands in Machine/Tiles.lean.
-/

namespace Sys2Proof.Machine

/-! The format word (R157, R207). -/

/-- The element formats by CVT code (R32). -/
def fmtOfCode : Nat → Option NumFmt
  | 0 => some .f64 | 1 => some .f32 | 2 => some .f16 | 3 => some .bf16 | 4 => some .e4m3 | 5 => some .e5m2 | 6 => some .e2m1
  | _ => none

/-- A format word that names one of R207's combinations. -/
structure FmtWord where
  a : NumFmt
  b : NumFmt
  wide : Bool
  scaled : Bool
  bmajor : Bool
  fill : Nat
  /-- Products in a group (R92). -/
  group : Nat
  deriving DecidableEq, Repr

/-- FP8 formats. -/
def isFp8 (f : NumFmt) : Bool := f == .e4m3 || f == .e5m2

/-- The group size of a combination of operand formats, if it is one (R207). -/
def groupOf (a b : NumFmt) : Option Nat :=
  if a = .f64 ∧ b = .f64 then some 1
  else if a = .f32 ∧ b = .f32 then some 2
  else if (a = .f16 ∧ b = .f16) ∨ (a = .bf16 ∧ b = .bf16) then some 8
  else if a = .e2m1 ∧ b = .e2m1 then some 32
  else if (isFp8 a || a == .e2m1) && (isFp8 b || b == .e2m1) then some 16
  else none

/-- The meaning of a format word; none where it raises FORMAT (R157, R207, R208). -/
def FmtWord.of (x : Word) : Option FmtWord :=
  let w := x.toNat
  let scaled := bit w 13
  let acc := field w 11 8
  match fmtOfCode (field w 3 0), fmtOfCode (field w 7 4) with
  | some a, some b =>
    match groupOf a b with
    | some g =>
      if field w 31 19 ≠ 0 ∨ 4 ≤ field w 18 16 ∨ field w 15 14 ≠ (if scaled then 1 else 0) ∨ acc ≠ (if a = .f64 then 0 else 1) ∨
          (scaled && decide (g ≤ 2)) then none
      else some ⟨a, b, acc == 0, scaled, bit w 12, field w 18 16, g⟩
    | none => none
  | _, _ => none

/-- Width of an element in bits (R75). -/
def elemBits (f : NumFmt) : Nat := 1 + expBits f + fracBits f

/-- Bytes of n packed elements. -/
def runBytes (w n : Nat) : Nat := (n * w + 7) / 8

/-- Element k of packed bytes (R75). -/
def elemOf (b : List Byte) (w k : Nat) : Nat :=
  if w = 4 then (b.getD (k / 2) 0).toNat / 16 ^ (k % 2) % 16 else wordOf ((b.drop (k * w / 8)).take (w / 8))

/-- Elements packed into bytes (R75). -/
def packElems (w : Nat) (l : List Nat) : List Byte :=
  bytesOf (runBytes w l.length) (l.zipIdx.map (fun x => x.1 * 2 ^ (w * x.2))).sum

/-- The lowest-numbered lane whose word differs from that of the lowest active lane (R205). -/
def voteFails (l : List (Nat × Word)) : Option Nat :=
  match l with
  | (_, v) :: _ => (l.find? (fun p => p.2 != v)).map (·.1)
  | [] => none

/-! MLDB (R203, R204, R208). -/

/-- The first offset in a range of slice bytes whose region another tag holds, where a test says so (R203). -/
def Cluster.badRegion (k : Cluster) (lo len : Nat) (bad : Option (Nat × Bool) → Bool) : Option Nat :=
  if len = 0 then none
  else
    ((List.range ((lo + len - 1) / 4096 + 1 - lo / 4096)).find? (fun i => bad (tget k.tags (lo / 4096 + i)))).map
      (fun i => max lo (4096 * (lo / 4096 + i)))

/-- A DID has a block resident on a cluster's cores. -/
def State.didResident (s : State) (cl did : Nat) : Bool :=
  s.blocks.any (fun b => clusterOf b.2.core == cl &&
    (match tget s.launches b.2.launch with | some l => l.did == did | none => false))

/-- Regions of an accepted MLDB take the issuer's tag, cleared where another domain wrote last (R203). -/
def Cluster.claim (k : Cluster) (lo len : Nat) (tag : Nat × Bool) : Cluster :=
  let qs := (List.range ((lo + len - 1) / 4096 + 1 - lo / 4096)).map (lo / 4096 + ·)
  let clear := qs.filter (fun q => match tget k.tags q with | some t => t != tag | none => false)
  { k with
    mould := if clear.isEmpty then k.mould else k.mould.filter (fun c => !clear.contains (c.1 % 131072 / 4096))
    tags := qs.foldl (fun t q => tput t q tag) k.tags }

/-- The issuer's tag: current DID and world (R203). -/
def State.regionTag (s : State) (w : Warp) : Nat × Bool :=
  (w.curDid, match tget s.parts w.part with | some q => q.ns | none => true)

/-- The state of the issuing core's cluster. -/
def State.myCluster (s : State) : Cluster := (tget s.clusters (clusterOf s.cur.core)).getD Cluster.idle

/-- Enters a command in the cluster's table, in acceptance order (R201). -/
def State.enterCmd (s : State) (w : Warp) (lane : Nat) (pc : Word) (cls : Option Nat) (kind : MatKind) (f : Cluster → Cluster) : State :=
  let (id, s1) := s.fresh
  let m : MatCmd :=
    { id := id, core := s.cur.core, slot := s.cur.slot, lane := lane, lanes := maskOf (s.live.map (·.1)), pc := pc,
      block := w.block, part := w.part, did := w.curDid, prio := w.prio, kind := kind, done := 0, flags := 0, stopped := false }
  let s2 := s1.modCluster (clusterOf s.cur.core) (fun k => let k1 := f k; { k1 with table := k1.table ++ [m] })
  match cls with
  | some c => s2.countEngine c id
  | none => s2

/-- An accepted engine command's instruction ends; what can be applied is. -/
def State.endCmd (s : State) (L : BitVec 4) : State := ((s.openWindow L [] []).finish).settleTiles (clusterOf s.cur.core)

/-- A pair of words as a number. -/
def words2 (l : List Word) (i : Nat) : Nat := (l.getD i 0).toNat + 2 ^ 32 * (l.getD (i + 1) 0).toNat

/-- A fault that names a mould-store offset (R248). -/
def State.mouldFault (s : State) (lane off : Nat) : Out := .next (s.fault .domain lane (BitVec.ofNat 32 off) 1)

/-- MLDB (R204, R205); a bundle of helper lanes meets no check and issues no command (log 37). -/
def execMldb (L : BitVec 4) (a d : Reg) (s : State) : Out :=
  s.issue { opds := [.one .vd d, ⟨.va, a.toNat, 4, 2⟩] } (fun s =>
    match s.warp?, s.live with
    | some w, (lane, t) :: _ =>
      let cl := clusterOf s.cur.core
      let k := s.myCluster
      let ws := t.group a.toNat 4
      let B := words2 ws 0
      let off := (ws.getD 2 0).toNat
      let n := (ws.getD 3 0).toNat
      match voteFails (s.active.map (fun p => (p.1, p.2.get d.toNat))), FmtWord.of (t.get d.toNat) with
      | some l, _ => .next (s.fault .format l 0 0)
      | none, none => .next (s.fault .format lane 0 0)
      | none, some fw =>
        let len := 32 * ((n + 31) / 32) * elemBits fw.b / 8
        let tag := s.regionTag w
        if n = 0 ∨ 65536 < n then .next (s.fault .format lane 0 0)
        else if B % 16 ≠ 0 then .next (s.fault .align lane (ws.getD 0 0) (ws.getD 1 0))
        else if off % 16 ≠ 0 ∨ 131072 < off + len then .next (s.fault .format lane 0 0)
        else
          match k.badRegion off len (fun x => match x with | some y => y != tag && s.didResident cl y.1 | none => false) with
          | some o => s.mouldFault lane o
          | none =>
            if 32 ≤ k.table.length ∨ 63 ≤ w.cnt 1 then .next (s.stallAll .count)
            else
              .next ((s.enterCmd w lane t.pc (some 1) (.mldb (t.get d.toNat) B off n) (fun k => k.claim off len tag)).endCmd L)
    | some _, [] => .next s.finish
    | none, _ => .fault .noWarp)

/-- The fill element of a format (R208). -/
def fillElem (f : NumFmt) (code old : Nat) : Nat :=
  match code with
  | 0 => 0
  | 1 => 2 ^ (expBits f + fracBits f)
  | 2 => fmtBias f * 2 ^ fracBits f
  | _ => old

/-- The bytes of B that one block of 32 K-rows needs: rows of 64 elements, or one run per column (R204). -/
def mldbReads (fw : FmtWord) (addr k j : Nat) : List (Nat × Nat) :=
  let w := elemBits fw.b
  let rows := min 32 (k - 32 * j)
  if fw.bmajor then
    let S := (runBytes w k + 3) / 4 * 4
    (List.range 64).map (fun n => (addr + n * S + 32 * j * w / 8, runBytes w rows))
  else [(addr + 64 * 32 * j * w / 8, 64 * rows * w / 8)]

/-- Reads several runs under a warp's authority (R204, R209). -/
def State.readRuns (s : State) (w : Warp) : List (Nat × Nat) → Except (Cause × Nat) (List (List Byte)) × State
  | [] => (.ok [], s)
  | (va, n) :: l =>
    match s.engineRead w true 3 va n with
    | (.ok b, s1) =>
      match s1.readRuns w l with
      | (.ok bs, s2) => (.ok (b :: bs), s2)
      | (.error e, s2) => (.error e, s2)
    | (.error e, s1) => (.error e, s1)

/-- One block of rows of an MLDB goes into the 64 slices (R204, R208). -/
def Cluster.mldbPass (c : Cluster) (fw : FmtWord) (off k j : Nat) (runs : List (List Byte)) : Cluster :=
  let w := elemBits fw.b
  let rows := min 32 (k - 32 * j)
  { c with mould := (List.range 64).foldl (fun mo n =>
      let at_ := 131072 * n + off + 32 * j * w / 8
      let old := bytesAt mo at_ (32 * w / 8)
      let es := (List.range 32).map (fun i =>
        if i < rows then (if fw.bmajor then elemOf (runs.getD n []) w i else elemOf (runs.getD 0 []) w (64 * i + n))
        else fillElem fw.b fw.fill (elemOf old w i))
      setBytes mo at_ (packElems w es)) c.mould }

/-! MLOOP (R206–R213). -/

/-- The registers of an MLOOP block, from the lowest-numbered active lane (R158). -/
structure LoopBlock where
  addr : Nat
  boff : Nat
  stride : Nat
  ainc : Nat
  binc : Nat
  tile : Nat
  aspad : Bool
  k : Nat
  hi : Nat
  reserved : Bool
  deriving DecidableEq, Repr

def LoopBlock.of (l : List Word) : LoopBlock :=
  let n (i : Nat) : Nat := (l.getD i 0).toNat
  ⟨words2 l 0, n 2, n 3, n 4, n 5, field (n 6) 31 30, bit (n 6) 29, field (n 6) 8 0, n 1, field (n 6) 28 9 != 0 || n 7 != 0⟩

/-- The scale of a row or column at block b, from the captured registers (R210). -/
def scaleAt (regs : List Word) (x b : Nat) : Int :=
  sextN (field (regs.getD (4 * (x % 32) + x / 32 + 2 * (b / 4)) 0).toNat (8 * (b % 4) + 7) (8 * (b % 4))) 8

/-- The scales of all 64 rows or columns at a step; 0 where the loop is unscaled (R210). -/
def scalesAt (fw : FmtWord) (regs : List Word) (b : Nat) : List Int :=
  (List.range 64).map (fun x => if fw.scaled then scaleAt regs x b else 0)

/-- Captures four scale registers of every lane; a lane never launched or exited supplies −128 (R210). -/
def Warp.captureScales (w : Warp) (r : Nat) : List Word :=
  (List.range 32).flatMap (fun n =>
    match tget w.threads n with
    | some t => if t.exited then List.replicate 4 0x80808080 else t.group r 4
    | none => List.replicate 4 0x80808080)

/-- Rows of a step with a term that is not missing (R211). -/
def liveRows (sa sb : List Int) : List Nat :=
  if sb.all (· == -128) then [] else (List.range 64).filter (fun r => sa.getD r 0 != -128)

/-- Elements of a step. -/
def stepLen (k i : Nat) : Nat := min 32 (k - 32 * i)

/-- The runs of A a step reads: row and address (R209, R211). -/
def loopReads (fw : FmtWord) (b : LoopBlock) (ascale bscale : List Word) (s i : Nat) : List (Nat × Nat) :=
  (liveRows (scalesAt fw ascale (s + i)) (scalesAt fw bscale (s + i))).map (fun r => (r, b.addr + r * b.stride + i * b.ainc))

/-- The checks of R209 in its order, and of the scratchpad's owner (R165): a cause with its address words. -/
def State.loopCheck (s : State) (w : Warp) (fw : FmtWord) (b : LoopBlock) (ascale bscale : List Word) (s0 : Nat) :
    Option (Cause × Nat × Nat) :=
  let wa := elemBits fw.a
  let wb := elemBits fw.b
  let al := max 4 (wa / 8)
  let steps := (b.k + 31) / 32
  let runs := (List.range (min steps (8 - s0))).flatMap (fun i =>
    (loopReads fw b ascale bscale s0 i).map (fun x => (x.2, runBytes wa (stepLen b.k i))))
  let blk := tget s.blocks w.block
  let pad := match blk with | some x => x.pad | none => 0
  if b.addr % al ≠ 0 ∨ b.stride % al ≠ 0 ∨ b.ainc % al ≠ 0 then some (.align, b.addr % 2 ^ 32, b.hi)
  else if b.aspad ∧ 2 ^ 19 ≤ b.addr then some (.format, 0, 0)
  else
    match (if b.aspad then runs.find? (fun x => decide (pad < x.1 + x.2)) else none) with
    | some x => some (.page, x.1, spadHigh)
    | none =>
      let owner := match blk with | some x => dpDid ((s.core x.core).dp x.slot) | none => w.curDid
      if b.aspad && !runs.isEmpty && owner != w.curDid then some (.domain, b.addr, spadHigh)
      else if b.boff % 4 ≠ 0 ∨ b.binc % 4 ≠ 0 ∨
          (List.range steps).any (fun i => decide (131072 < b.boff + i * b.binc + 32 * wb / 8)) then some (.format, 0, 0)
      else if b.k = 0 ∨ 8 - s0 < steps then some (.format, 0, 0)
      else none

/-- The first mould offset of a read region that is not the issuer's (R203). -/
def Cluster.loopRegion (k : Cluster) (fw : FmtWord) (b : LoopBlock) (ascale bscale : List Word) (s0 : Nat) (tag : Nat × Bool) :
    Option Nat :=
  ((List.range ((b.k + 31) / 32)).filter (fun i => !(loopReads fw b ascale bscale s0 i).isEmpty)).findSome? (fun i =>
    k.badRegion (b.boff + i * b.binc) (runBytes (elemBits fw.b) (stepLen b.k i)) (fun x => x != some tag))

/-- A tile is or can be this block's (R200, R217). -/
def Cluster.mayTake (k : Cluster) (block tile : Nat) : Bool :=
  (k.tiles.getD tile Tile.free).holder.isNone || k.holds block tile

/-- Reserves a tile for a block that did not hold it (R200). -/
def Cluster.reserve (k : Cluster) (block tile : Nat) : Cluster :=
  { k with tiles := k.tiles.modify tile (fun t => if t.holder == some block then t else ⟨some block, none, 64, []⟩) }

/-- A tile instruction under a visiting tag (R247). -/
def Warp.visiting (w : Warp) : Bool := w.curSlot != w.homeSlot

/-- MLOOP: the vote, the block and the tile's format, the addresses, the tags, the waits, acceptance (R205–R207, R213). The DOMAIN
of a visiting warp stands between the addresses and the region tags (log 60); a bundle of helper lanes meets no check (log 37). -/
def execMloop (L : BitVec 4) (s0 : BitVec 2) (a d : Reg) (s : State) : Out :=
  s.issue { opds := [.one .vd d, ⟨.va, a.toNat, 16, 8⟩] } (fun s =>
    match s.warp?, s.live with
    | some w, (lane, t) :: _ =>
      let k := s.myCluster
      let b := LoopBlock.of (t.group a.toNat 8)
      let asc := w.captureScales (a.toNat + 8)
      let bsc := w.captureScales (a.toNat + 12)
      let held := k.tiles.getD b.tile Tile.free
      match voteFails (s.active.map (fun p => (p.1, p.2.get d.toNat))), FmtWord.of (t.get d.toNat) with
      | some l, _ => .next (s.fault .format l 0 0)
      | none, none => .next (s.fault .format lane 0 0)
      | none, some fw =>
        if w.running.any (fun p => !laneIn s.cur.mask p.1) || b.reserved ||
            (k.holds w.block b.tile && held.fp64 == some (!fw.wide)) then .next (s.fault .format lane 0 0)
        else
          match s.loopCheck w fw b asc bsc s0.toNat with
          | some (c, lo, hi) => .next (s.fault c lane (BitVec.ofNat 32 lo) (BitVec.ofNat 32 hi))
          | none =>
            if w.visiting then .next (s.fault .domain lane (BitVec.ofNat 32 b.tile) 0)
            else
              match k.loopRegion fw b asc bsc s0.toNat (s.regionTag w) with
              | some o => s.mouldFault lane o
              | none =>
                if !k.mayTake w.block b.tile || decide (32 ≤ k.table.length) || decide (63 ≤ w.cnt 1) then
                  .next (s.stallAll .count)
                else
                  .next ((s.enterCmd w lane t.pc (some 1)
                    (.mloop (t.get d.toNat) b.tile s0.toNat b.k b.aspad b.addr b.boff b.stride b.ainc b.binc asc bsc)
                    (fun k => let k1 := k.reserve w.block b.tile
                      { k1 with tiles := k1.tiles.modify b.tile (fun t => { t with fp64 := some fw.wide, mark := 0 }) })).endCmd L)
    | some _, [] => .next s.finish
    | none, _ => .fault .noWarp)

/-- A value times 2^s exactly (R77). -/
def Fp.scale (x : Fp) (s : Int) : Fp := match x with | .fin n m e => .fin n m (e + s) | y => y

/-- One group's exact sum added to an accumulator and rounded once by RNE: a missing term is +0, and a NaN
is looked for product by product, then in the accumulator (R81, R92, R211, R212, log 35). -/
def groupStep (fw : FmtWord) (as bs : List Nat) (sa sb : Int) (ks : List Nat) (len : Nat) (c : FpOut) : FpOut :=
  let f := if fw.wide then NumFmt.f64 else .f32
  let present := ks.filter (fun i => decide (i < len) && sa != -128 && sb != -128)
  let xs := present.map (fun i => (narrowElem fw.a (as.getD i 0)).scale sa)
  let ys := present.map (fun i => (narrowElem fw.b (bs.getD i 0)).scale sb)
  let z := Fp.ofBits f c.bits
  let missing : List (Option Fp) := if present.length < ks.length then [some (.fin false 0 0)] else []
  let ops := (List.zipWith (fun (a b : Fp) => [a, b]) xs ys).flatten ++ [z]
  let o := fpSum f ⟨.rne, false, false, false⟩ ops (List.zipWith Fp.mul xs ys ++ missing ++ [some z])
  ⟨o.bits, c.flags ||| o.flags⟩

/-- The first n elements of packed bytes (R75). -/
def rowElems (f : NumFmt) (b : List Byte) (n : Nat) : List Nat := (List.range n).map (fun i => elemOf b (elemBits f) i)

/-- One step of an MLOOP over the whole tile: new elements and the flags raised (R213). -/
def Cluster.loopPass (c : Cluster) (fw : FmtWord) (tile s0 k boff binc : Nat) (asc bsc : List Word) (i : Nat) (rows : Tbl (List Byte)) :
    Cluster × BitVec 5 :=
  let len := stepLen k i
  let wb := elemBits fw.b
  let sas := scalesAt fw asc (s0 + i)
  let sbs := scalesAt fw bsc (s0 + i)
  let cols := (List.range 64).map (fun n => rowElems fw.b (bytesAt c.mould (131072 * n + boff + i * binc) (runBytes wb len)) len)
  let groups := (List.range (32 / fw.group)).map (fun g => (List.range fw.group).map (fun x => g * fw.group + x))
  let t := c.tiles.getD tile Tile.free
  let out := (List.range 64).flatMap (fun r =>
    let as := match tget rows r with | some b => rowElems fw.a b len | none => []
    (List.range 64).map (fun n =>
      groups.foldl (fun acc ks => groupStep fw as (cols.getD n []) (sas.getD r 0) (sbs.getD n 0) ks len acc)
        ⟨(t.elems.getD (64 * r + n) 0).toNat, 0⟩))
  ({ c with tiles := c.tiles.set tile { t with elems := out.map (fun o => BitVec.ofNat 64 o.bits) } },
    out.foldl (fun f o => f ||| o.flags) 0)

/-! The arbiter (R201). -/

/-- Passes of a command. -/
def MatKind.passes : MatKind → Nat
  | .mldb _ _ _ k => (k + 31) / 32
  | .mloop _ _ _ k .. => (k + 31) / 32
  | _ => 0

/-- The mould-store bytes a pass reads or writes in every slice, as start and length: fill 011 leaves the padding as it is, and a step
whose every term is missing reads nothing (R208, R211). -/
def MatKind.span (m : MatKind) (i : Nat) : Nat × Nat :=
  match m with
  | .mldb fw _ off k =>
    match FmtWord.of fw with
    | some f => (off + 32 * i * elemBits f.b / 8, runBytes (elemBits f.b) (if f.fill = 3 then stepLen k i else 32))
    | none => (0, 0)
  | .mloop fw _ s k _ _ boff _ _ binc asc bsc =>
    match FmtWord.of fw with
    | some f =>
      let reads := !(liveRows (scalesAt f asc (s + i)) (scalesAt f bsc (s + i))).isEmpty
      (boff + i * binc, if reads then runBytes (elemBits f.b) (stepLen k i) else 0)
    | none => (0, 0)
  | _ => (0, 0)

def MatKind.isLoad : MatKind → Bool
  | .mldb .. => true
  | _ => false

/-- An earlier command still has a pass whose mould-store bytes meet those of this pass, and one of the two writes (R201). -/
def Cluster.hazard (k : Cluster) (m : MatCmd) : Bool :=
  let a := m.kind.span m.done
  k.table.any (fun x => decide (x.id < m.id) && x.kind.isLoad != m.kind.isLoad &&
    (List.range (x.kind.passes - x.done)).any (fun j =>
      let b := x.kind.span (x.done + j)
      decide (0 < a.2) && decide (0 < b.2) && decide (a.1 < b.1 + b.2) && decide (b.1 < a.1 + a.2)))

/-- A command's next pass may be granted (R201). -/
def State.eligibleCmd (s : State) (cl : Nat) (k : Cluster) (m : MatCmd) : Bool :=
  !m.stopped && decide (m.done < m.kind.passes) && !k.hazard m &&
    (match m.kind.tile with | some t => s.tileClear cl k t m.id | none => true)

/-- The command the arbiter grants: highest launch priority, then oldest (R201). -/
def State.granted (s : State) (cl : Nat) : Option MatCmd :=
  match tget s.clusters cl with
  | some k => leastBy (fun m => (7 - m.prio) * 2 ^ 64 + m.id) (k.table.filter (s.eligibleCmd cl k))
  | none => none

/-- Changes a command in its table. -/
def State.modCmd (s : State) (cl id : Nat) (f : MatCmd → MatCmd) : State :=
  s.modCluster cl (fun k => { k with table := k.table.map (fun (m : MatCmd) => if m.id = id then f m else m) })

/-- One pass of a command: the state after it, or the fault met while reading (R204, R213, R218). -/
def State.matPass (s : State) (cl : Nat) (m : MatCmd) (w : Warp) : Except (Cause × Nat) State × State :=
  match m.kind with
  | .mldb fw addr off k =>
    match FmtWord.of fw with
    | some f =>
      match s.readRuns w (mldbReads f addr k m.done) with
      | (.ok runs, s1) =>
        (.ok ((s1.modCluster cl (fun c => c.mldbPass f off k m.done runs)).modCmd cl m.id (fun m => { m with done := m.done + 1 })), s1)
      | (.error e, s1) => (.error e, s1)
    | none => (.error (.format, 0), s)
  | .mloop fw tile s0 k aspad addr boff stride ainc binc asc bsc =>
    match FmtWord.of fw with
    | some f =>
      let reads := loopReads f ⟨addr, boff, stride, ainc, binc, tile, aspad, k, 0, false⟩ asc bsc s0 m.done
      let n := runBytes (elemBits f.a) (stepLen k m.done)
      let got := if aspad then (.ok (reads.map (fun r => s.spRead ⟨m.block, r.2⟩ n)), s)
        else s.readRuns w (reads.map (fun r => (r.2, n)))
      match got with
      | (.ok runs, s1) =>
        let (c, fl) := ((tget s1.clusters cl).getD Cluster.idle).loopPass f tile s0 k boff binc asc bsc m.done
          ((reads.map (·.1)).zip runs)
        (.ok ((s1.modCluster cl (fun _ => c)).modCmd cl m.id (fun m => { m with done := m.done + 1, flags := m.flags ||| fl })), s1)
      | (.error e, s1) => (.error e, s1)
    | none => (.error (.format, 0), s)
  | _ => (.error (.format, 0), s)

/-- Rows that have become final raise the watermark of the last command on its tile; row 63 is left to MLOOP_COMPLETE (R214). -/
def State.raiseMark (s : State) (cl id n : Nat) : State :=
  s.modCluster cl (fun k =>
    match k.table.find? (fun m => m.id == id) with
    | some m =>
      match m.kind.tile with
      | some t =>
        if m.done < m.kind.passes || k.later t id then k
        else { k with tiles := k.tiles.modify t (fun x => { x with mark := max x.mark (min n 63) }) }
      | none => k
    | none => k)

/-- MATRIX_PASS: the arbiter's next pass, and the rows that are final after it; with no pass to grant, further rows of a loop
that has done its steps become final one after another (R201, R214). -/
def execMatrixPass (s : State) : Out :=
  let cl := s.ev.cluster
  match s.granted cl with
  | some m =>
    match s.warpAt? m.core m.slot with
    | some w =>
      match s.matPass cl m w with
      | (.ok s1, _) => .next ((s1.raiseMark cl m.id s.ev.num).settleTiles cl)
      | (.error _, _) => .fault .noSuchEvent
    | none => .fault .noSuchEvent
  | none =>
    match tget s.clusters cl with
    | some k =>
      if k.table.any (fun m => m.id == s.ev.id) then .next ((s.raiseMark cl s.ev.id s.ev.num).settleTiles cl)
      else .fault .noSuchEvent
    | none => .fault .noSuchEvent

/-- The command an event names, when it has done all its passes. -/
def State.doneCmd (s : State) (cl id : Nat) (load : Bool) : Option MatCmd :=
  match tget s.clusters cl with
  | some k => k.table.find? (fun m => m.id == id && m.kind.isLoad == load && decide (0 < m.kind.passes) && m.done == m.kind.passes)
  | none => none

/-- MLDB_COMPLETE: every element is written and the count falls (R204). -/
def execMldbComplete (s : State) : Out :=
  let cl := s.ev.cluster
  match s.doneCmd cl s.ev.id true with
  | some m =>
    let s1 := s.modCluster cl (fun k => { k with table := k.table.filter (fun x => x.id != m.id) })
    .next ((s1.completeEngine m.core m.slot 1 m.id).settleTiles cl)
  | none => .fault .noSuchEvent

/-- MLOOP_COMPLETE: row 63 is final, the flags go to the lanes that issued it, and the count falls (R212–R214). -/
def execMloopComplete (s : State) : Out :=
  let cl := s.ev.cluster
  match s.doneCmd cl s.ev.id false with
  | some m =>
    let s1 := s.modCluster cl (fun k =>
      let k1 := { k with table := k.table.filter (fun x => x.id != m.id) }
      match m.kind.tile with
      | some t => { k1 with tiles := k1.tiles.modify t (fun x => { x with mark := if k.later t m.id then x.mark else 64 }) }
      | none => k1)
    let s2 := if m.flags = 0 then s1
      else ((List.range 32).filter (laneIn m.lanes)).foldl (fun s n => s.giveFlags m.core m.slot n m.flags) s1
    .next ((s2.completeEngine m.core m.slot 1 m.id).settleTiles cl)
  | none => .fault .noSuchEvent

/-- MATRIX_FAULT: the granted command meets a fault while reading memory; it stops at its pass, and the fault is posted
(R218). -/
def execMatrixFault (s : State) : Out :=
  let cl := s.ev.cluster
  match s.granted cl with
  | some m =>
    match s.warpAt? m.core m.slot with
    | some w =>
      match s.matPass cl m w with
      | (.error (c, va), s1) =>
        .next (((s1.modCmd cl m.id (fun m => { m with stopped := true })).holdFault m.core m.slot
          (lateReport w c m.lane m.pc va m.id)).settleTiles cl)
      | (.ok _, _) => .fault .noSuchEvent
    | none => .fault .noSuchEvent
  | none => .fault .noSuchEvent

/-! Reading and releasing tiles (R215–R217). -/

/-- A tile instruction: a visiting tag raises DOMAIN, and where `held` is asked a tile the block does not hold raises ENGINE;
a bundle of helper lanes only gets zeros (R59, R221, R247). The DOMAIN reports the tile's number (log 61). -/
def tileIssue (opds : List Opd) (L : BitVec 4) (t : Nat) (held : Bool) (dest : List Nat)
    (body : State → Warp → Nat → Out) (s : State) : Out :=
  s.issue { opds := opds } (fun s =>
    match s.warp?, s.live with
    | some w, (lane, _) :: _ =>
      if w.visiting then .next (s.fault .domain lane (BitVec.ofNat 32 t) 0)
      else if held && !s.myCluster.holds w.block t then .next (s.fault .engine lane 0 0)
      else body s w lane
    | some _, [] => .next ((s.mapActive (fun _ t => t.setAll (dest.map (fun r => (r, 0))))).openWindow L [] dest).finish
    | none, _ => .fault .noWarp)

/-- MRD: one row a lane, once it is final with respect to what was accepted before (R215). -/
def execMrd (L : BitVec 4) (t : BitVec 2) (a d : Reg) (s : State) : Out :=
  tileIssue [.two .vd d, .one .va a] L t.toNat true [d.toNat, d.toNat + 1] (fun s _ _ =>
    let cl := clusterOf s.cur.core
    let wide := (s.myCluster.tiles.getD t.toNat Tile.free).fp64 == some true
    let rows := s.live.map (fun p => (p.1, p.2.get a.toNat))
    match rows.find? (fun x => field x.2.toNat 31 7 != 0 || (!wide && bit x.2.toNat 6)) with
    | some x => .next (s.fault .engine x.1 0 0)
    | none =>
      let s1 := s.mapActive (fun _ th => if th.helper then th.setPair d.toNat 0 else th)
      .next ((s1.begin_ L none [d.toNat, d.toNat + 1] (.mrd cl t.toNat wide rows d.toNat)).finish.settleTiles cl)) s

/-- MWM: the watermark to every live lane (R216). -/
def execMwm (L : BitVec 4) (t : BitVec 2) (d : Reg) (s : State) : Out :=
  tileIssue [.one .vd d] L t.toNat true [d.toNat] (fun s _ _ =>
    let v := BitVec.ofNat 32 (s.myCluster.tiles.getD t.toNat Tile.free).mark
    let s1 := s.mapActive (fun _ th => if th.helper then th.set d.toNat 0 else th)
    .next (s1.begin_ L none [d.toNat] (.result .mrd (s.live.map (fun p => ⟨p.1, [(d.toNat, v)], 0⟩)))).finish) s

/-- MZERO: reserves the tile; applied in its turn (R200, R217). The tile's format goes at acceptance (log 62). -/
def execMzero (L : BitVec 4) (t : BitVec 2) (s : State) : Out :=
  tileIssue [] L t.toNat false [] (fun s w lane =>
    let k := s.myCluster
    let pc := match s.live with | (_, th) :: _ => th.pc | [] => 0
    if !k.mayTake w.block t.toNat || decide (32 ≤ k.table.length) then .next (s.stallAll .count)
    else
      .next ((s.enterCmd w lane pc none (.mzero t.toNat) (fun k => let k1 := k.reserve w.block t.toNat
        { k1 with tiles := k1.tiles.modify t.toNat (fun x => { x with fp64 := none, mark := 0 }) })).endCmd L)) s

/-- MREL: the tile becomes free in its turn (R217). -/
def execMrel (L : BitVec 4) (t : BitVec 2) (s : State) : Out :=
  tileIssue [] L t.toNat true [] (fun s w lane =>
    let pc := match s.live with | (_, th) :: _ => th.pc | [] => 0
    if 32 ≤ s.myCluster.table.length then .next (s.stallAll .count)
    else .next ((s.enterCmd w lane pc none (.mrel t.toNat) (fun k => k)).endCmd L)) s

end Sys2Proof.Machine
end

