-- ==== Sys2Proof/Machine/Windows.lean ====
section
/-!
DEFINITION. Windows to other packages (R347–R358, R363): WSTR, WGET, WCNT and WWAIT, the answers that packets bring back, and
requests that arrive from other packages.
-/

namespace Sys2Proof

/-- A request writes, or reads, its target (R350). -/
def WinOp.writes : WinOp → Bool
  | .read _ => false
  | .ldat _ => false
  | _ => true

/-- The payload of a request fits its packet (R356). -/
def WinOp.fits : WinOp → Bool
  | .write data => decide (data.length ≤ 1024)
  | _ => true

def WinOp.reads : WinOp → Bool
  | .write _ => false
  | _ => true

/-- What a request may do to a type of page (R350). -/
def WinOp.typeOk (o : WinOp) (type : Nat) : Bool :=
  match o with
  | .ldat _ => type == 1
  | .read _ => type == 0 || type == 1
  | _ => type == 0

end Sys2Proof

namespace Sys2Proof.Machine

/-! The page a lane names (R349, R352). -/

/-- A window-mapped place: window number, package, remote local address. -/
structure WinRef where
  w : Nat
  rpkg : Nat
  raddr : Nat
  deriving DecidableEq, Repr

/-- The checks of one lane's address: alignment, PAGE, ROT, and WINDOW for a page that is no window or fails R349. The walk is
done at once, so its faults are precise. -/
def State.winRef (s : State) (w : Warp) (wr : Bool) (size va : Nat) : Except Cause WinRef × State :=
  if va % size != 0 then (.error .align, s)
  else if 2 ^ 56 ≤ va then (.error .page, s)
  else
    match s.xlateWalk (w.request (!wr) wr false) va with
    | (.good pa rot, s1) =>
      (if (regPage pa).isSome then .error .rot
        else if rotType rot != 2 then .error .window
        else
          match s1.windowOf w.part rot with
          | some (win, rpkg, base) => .ok ⟨win, rpkg, base + pa % 65536⟩
          | none => .error .window, s1)
    | (.bad c, s1) => (.error c, s1)
    | (.miss, s1) => (.error .page, s1)

/-- The places of lanes. -/
def State.winRefs (s : State) (w : Warp) (wr : Bool) (size r : Nat) :
    List (Nat × Thread) → List (Nat × Thread × Except Cause WinRef) × State
  | [] => ([], s)
  | (n, t) :: l =>
    let (x, s1) := s.winRef w wr size (t.nat64 r)
    let (xs, s2) := s1.winRefs w wr size r l
    ((n, t, x) :: xs, s2)

/-- A window instruction: its lanes' checks, then its effect on the lanes' places. -/
def winIssue (u : Use) (wr : Bool) (size : Nat) (a : Reg) (body : State → Warp → List (Nat × Thread × WinRef) → Out)
    (s : State) : Out :=
  s.issue u (fun s =>
    match s.warp? with
    | none => .fault .noWarp
    | some w =>
      let held := s.heldLanes wr false
      if !held.isEmpty then .next (s.stall held .pend)
      else
        let (refs, s1) := s.winRefs w wr size a.toNat s.live
        let bad := refs.filterMap (fun x => match x.2.2 with | .error c => some (c, x.1, x.2.1.nat64 a.toNat) | .ok _ => none)
        match firstFault bad with
        | some (c, lane, va) => .next (s1.memFault c lane (BitVec.ofNat 32 va) (BitVec.ofNat 32 (va / 2 ^ 32)))
        | none =>
          body s1 w (refs.filterMap (fun x => match x.2.2 with | .ok r => some (x.1, x.2.1, r) | .error _ => none)))

/-- A packet of the issuing bundle to a window place. -/
def State.winPkt (s : State) (w : Warp) (lane va : Nat) (r : WinRef) (kind : PktKind) (cls : Traffic) (op : Option Nat)
    (cnt : Option (Nat × Nat)) : State :=
  s.sendPkt {
    id := 0, op := op, part := w.part, core := s.cur.core, slot := s.cur.slot, lane := lane, cmd := none, w := r.w,
    rpkg := r.rpkg, raddr := r.raddr, va := va, kind := kind, cls := cls,
    src := s.pkg, key := s.keyOf w.part, ns := s.nsOf w.part, bank := false, sent := false, lost := false, cnt := cnt }

/-- A window command of a partition without engines raises ENGINE, for the first lane (R278). -/
def State.engineRefuses (s : State) (w : Warp) (a : Reg) (l : List (Nat × Thread × WinRef)) : Option State :=
  match l with
  | x :: _ =>
    if s.mayCopy w then none
    else
      let va := x.2.1.nat64 a.toNat
      some (s.fault .engine x.1 (BitVec.ofNat 32 va) (BitVec.ofNat 32 (va / 2 ^ 32)))
  | [] => none

/-- WSTR (R351, R352, R377). -/
def execWstr (_L : BitVec 4) (z : Sz) (a d : Reg) (s : State) : Out :=
  winIssue { opds := [.ofSize .vd d z, .two .va a] } true (szBytes z) a (fun s w l =>
    match s.engineRefuses w a l with
    | some s1 => .next s1
    | none =>
      if l.isEmpty then .next s.finish
      else if 63 ≤ w.cnt 3 then .next (s.stallAll .count)
      else
        let (id, s1) := s.fresh
        let s2 := (s1.countEngine 3 id).irrevocable w
        .next (l.foldl (fun s x =>
          let data := x.2.1.storeData d.toNat z
          let va := x.2.1.nat64 a.toNat
          (s.foldStore w.block va false data).winPkt w x.1 va x.2.2 (.write data) .adaptive none (some (3, id))) s2).finish) s

/-- WGET (R352). -/
def execWget (L : BitVec 4) (z : Sz) (a d : Reg) (s : State) : Out :=
  winIssue { opds := [.ofSize .vd d z, .two .va a] } false (szBytes z) a (fun s w l =>
    let dest := (List.range (szRegs z)).map (d.toNat + ·)
    let helpers (s : State) : State := s.mapActive (fun _ t => if t.helper then t.setAll (dest.map (fun r => (r, 0))) else t)
    match s.engineRefuses w a l with
    | some s1 => .next s1
    | none =>
      if l.isEmpty then .next ((helpers s).openWindow L [] dest).finish
      else if 63 ≤ w.cnt 3 then .next (s.stallAll .count)
      else
        let id := s.nextId
        let s1 := s.begin_ L (some 3) dest (.wget [])
        .next (helpers (l.foldl (fun s x =>
          s.winPkt w x.1 (x.2.1.nat64 a.toNat) x.2.2 (.read (szBytes z) d.toNat false) .adaptive (some id) none) s1)).finish) s

/-- A window counter as a lane reads it: 48 bits (R348, R353). -/
def State.counterOf (s : State) (w : Warp) (land : Bool) (r : WinRef) : Nat :=
  match tget s.parts w.part with | some q => s.winCounter w.part q r.w land | none => 0

/-- WCNT: the counter, zero-extended (R353). -/
def execWcnt (L : BitVec 4) (c : Bool) (a d : Reg) (s : State) : Out :=
  winIssue { opds := [.two .vd d, .two .va a] } false 1 a (fun s w l =>
    let r := d.toNat
    let ws : List LaneWrite := l.map (fun x =>
      let v := s.counterOf w c x.2.2
      ⟨x.1, [(r, BitVec.ofNat 32 v), (r + 1, BitVec.ofNat 32 (v / 2 ^ 32))], 0⟩)
    let s1 := s.mapActive (fun _ t => if t.helper then t.setPair r 0 else t)
    if l.isEmpty then .next (s1.openWindow L [] [r, r + 1]).finish
    else .next (s1.begin_ L none [r, r + 1] (.result .window ws)).finish) s

/-- The counter has reached a threshold, modulo 2^48 (R353). -/
def counterMet (counter threshold : Nat) : Bool := decide ((counter + 2 ^ 48 - threshold % 2 ^ 48) % 2 ^ 48 < 2 ^ 47)

/-- WWAIT: lanes whose counter has reached the threshold go on, with an acquire at package scope for .acq (R353, R363). -/
def execWwait (q c : Bool) (a d : Reg) (s : State) : Out :=
  winIssue { opds := [.two .vd d, .two .va a] } false 1 a (fun s w l =>
    let met (x : Nat × Thread × WinRef) : Bool := counterMet (s.counterOf w c x.2.2) (x.2.1.nat64 d.toNat)
    let done := (l.filter met).map (·.1)
    let late := (l.filter (fun x => !met x)).map (·.1)
    let s1 := if q && !done.isEmpty then s.acquire s.cur.core w.curSlot .package else s
    let s2 := s1.mapActive (fun n t =>
      if late.contains n then { s.cur.uncount n t with wait := .window }
      else if q && done.contains n then { t with acq := true } else t)
    .next s2.finish) s

/-! Answers (R350–R355). -/

/-- Lanes of a packet's warp that wait for window accesses, or for an earlier access, look again. -/
def State.wakeFor (s : State) (p : Pkt) : State := s.wakeWarp p.core p.slot (fun x => x == .window || x == .pend)

/-- A lane's result of a window read arrives and is written, and the operation is complete in that lane; the last one ends it
(R33, R352). -/
def State.answer (s : State) (p : Pkt) (regs : List (Nat × Word)) (flags : BitVec 5) : State :=
  match p.op with
  | none => s
  | some id =>
    match s.pend.find? (fun x => x.id == id) with
    | some x =>
      match x.kind with
      | .wget ws =>
        let s1 := s.commit x.core x.slot [⟨p.lane, regs, flags⟩]
        if s.pkts.any (fun k => k.op == some id) then s1.laneDone x.core x.slot p.lane id
        else (s1.commit x.core x.slot ws).endPending x
      | .ldat lanes _ next =>
        let s1 := (s.commit x.core x.slot [⟨p.lane, regs, flags⟩]).moveOn x.core x.slot p.lane x.kind.dest next
        if lanes.isEmpty && !s1.pkts.any (fun k => k.op == some id) then s1.endPending x else s1.laneDone x.core x.slot p.lane id
      | .manifest lane ws => s.setPend id (.manifest lane (ws ++ regs))
      | _ => s
    | none => s

/-- A packet that is out, and may reach its target. -/
def State.pktOut (s : State) (id : Nat) : Option Pkt := s.pkts.find? (fun p => p.id == id && p.sent && !p.lost)

/-- A packet that the fabric has dropped where it left (R359). -/
def State.pktLost (s : State) (id : Nat) : Option Pkt := s.pkts.find? (fun p => p.id == id && p.lost)

/-- WINDOW_ACK: a write, a reduction or a merge has been applied at its target; a write's bytes count as acknowledged (R351,
R352, R354). -/
def execWindowAck (s : State) : Out :=
  match s.pktOut s.ev.id with
  | some p =>
    let s1 := s.dropPkt p.id
    let settle (s : State) : State := match p.cnt with | some (k, id) => s.settleCount p.core p.slot k id | none => s
    match p.kind with
    | .write data => .next ((settle (s1.winAdd p.part p.w false data.length)).wakeFor p)
    | .red .. =>
      let s2 := if s.ev.flags = 0 then s1 else { s1 with flagMsgs := s1.flagMsgs ++ [(p.core, p.slot, p.lane, s.ev.flags)] }
      .next ((settle s2).wakeFor p)
    | .redTm _ => .next ((settle s1).wakeFor p)
    | _ => .fault .noSuchEvent
  | none => .fault .noSuchEvent

/-- The registers of an LDAT's answer: sixteen bytes of the version, its stamp, status and source, zero (R330). -/
def ldatRegs (dst : Nat) (b : List Byte) : List (Nat × Word) := (List.range 8).map (fun i =>
  (dst + i, BitVec.ofNat 32 (wordOf ((b.drop (4 * i)).take 4))))

/-- The acquire of a read or an atomic through a window, once its value has come (R180, R354). -/
def State.acquireFor (s : State) (p : Pkt) (acq : Bool) : State :=
  match acq, s.warpAt? p.core p.slot with
  | true, some w => s.acquire p.core w.curSlot .package
  | _, _ => s

/-- WINDOW_READ_RETURN: a window read, an atomic's old value or an LDAT's version comes back, or a counter that WCNT read; the
acquire of an LD.acq follows it (R352–R354, R371). -/
def execWindowReadReturn (s : State) : Out :=
  match s.pktOut s.ev.id with
  | some p =>
    let s1 := s.dropPkt p.id
    let data := s.ev.data
    match p.kind with
    | .read size dst acq =>
      if data.length != size then .fault .noSuchEvent
      else
        match p.cmd with
        | some c => .next { s1 with copies := s1.copies.map (fun (x : CopyCmd) =>
            if x.id = c then { x with buf := tput x.buf dst data } else x) }
        | none =>
          .next (((s1.answer p (loadRegs dst data) 0).acquireFor p acq).wakeFor p)
    | .atom op _ _ _ _ dst acq =>
      if data.length != op.size then .fault .noSuchEvent
      else .next (((s1.answer p (loadRegs dst data) s.ev.flags).acquireFor p acq).wakeFor p)
    | .ldat _ dst => if data.length != 32 then .fault .noSuchEvent else .next ((s1.answer p (ldatRegs dst data) 0).wakeFor p)
    | _ => .fault .noSuchEvent
  | none => s.arrive s.ev.id (fun k => k == .window)

/-- A deferred WINDOW of a class for a packet's warp (R290, R352). -/
def State.deferWindow (s : State) (p : Pkt) (id cls : Nat) : State :=
  s.modWarpAt p.core p.slot (fun w => { w with
    deferred := w.deferred ++ [⟨id, cls, .window, BitVec.ofNat 32 p.va, BitVec.ofNat 32 (p.va / 2 ^ 32)⟩] })

/-- The registers a refused read writes: zeros, and REFUSED for LDAT (R330, R352, R354). -/
def refusedRegs : PktKind → List (Nat × Word)
  | .read size dst _ => (List.range ((size + 3) / 4)).map (fun i => (dst + i, 0))
  | .atom op _ _ _ _ dst _ => (List.range (op.size / 4)).map (fun i => (dst + i, 0))
  | .ldat _ dst => (List.range 8).map (fun i => (dst + i, if i = 6 then 3 else 0))
  | _ => []

/-- A refusal of a packet: nothing was applied. A read's registers are zero, and WINDOW waits for the class's next WAITC (R350,
R352, R354); an engine's command is abandoned (R371, R374). -/
def State.refusePkt (s : State) (p : Pkt) : Out :=
  let s1 := s.dropPkt p.id
  let opid := match p.cnt with | some (_, id) => id | none => p.op.getD p.id
  match p.cmd with
  | some c =>
    .next (match s.warpAt? p.core p.slot with
      | some w => s1.giveUp p.core p.slot c (lateReport w .window p.lane 0 p.va c) (some .window)
      | none => s1)
  | none =>
    let cls := match p.kind with | .red .. => 6 | .redTm _ => 6 | .stst .. => 5 | _ => 3
    let s2 := s1.deferWindow p opid cls
    let s3 := match p.kind with
      | .read .. => s2.answer p (refusedRegs p.kind) 0
      | .atom .. => s2.answer p (refusedRegs p.kind) 0
      | .ldat .. => s2.answer p (refusedRegs p.kind) 0
      | .stst stamp _ => { s2 with holds := s2.holds.filter (fun h => h.stamp != stamp) }
      | _ => s2
    let s4 := match p.cnt with | some (k, id) => s3.settleCount p.core p.slot k id | none => s3
    .next (s4.wakeFor p)

/-- WINDOW_REFUSAL: the target refuses a packet that is out, or the fabric has dropped one for which no port was open; a stamped
store that it drops is reported LATE instead (R337, R350, R359). -/
def execWindowRefusal (s : State) : Out :=
  match s.pktOut s.ev.id, s.pktLost s.ev.id with
  | some p, _ => s.refusePkt p
  | none, some p => (match p.kind with | .stst .. => .fault .noSuchEvent | _ => s.refusePkt p)
  | none, none => .fault .noSuchEvent

/-! Requests from other packages (R350, R351, R354, R358). -/

/-- The stamped version LDAT reads at a tick, as its 32 bytes of answer (R328, R330, R339). -/
def State.versionAt (s : State) (pa t : Nat) : List Byte :=
  let r := (tget s.stamped pa).getD ⟨[], false⟩
  let answer (data : List Byte) (stamp status source : Nat) : List Byte :=
    data ++ bytesOf 8 stamp ++ bytesOf 4 (status + 65536 * source) ++ bytesOf 4 0
  match (r.versions.filter (fun v => decide (v.stamp ≤ t))).getLast? with
  | some v => answer v.data v.stamp 0 v.source
  | none =>
    if !r.gone then answer (bytesAt s.mem pa 16) 0 2 0
    else answer (List.replicate 16 0) (match r.versions with | v :: _ => v.stamp | [] => 0) 1 0

/-- The partition that holds a packet's key (R358). -/
def State.keyHolder (s : State) (key : Nat) : Option (Nat × Part) :=
  if key = 0 then none else tfind? s.parts (fun _ q => q.valid && q.pkey.toNat == key)

/-- The checks of an arriving request at its target (R350). -/
def State.winAdmits (s : State) (p : Nat) (q : Part) (w source : Nat) (ns : Bool) (pa : Nat) (typeOk wr rd : Bool) : Bool :=
  let r := s.rotEntry pa
  decide (w < 2 ^ q.wtsize.toNat) && bit (s.winWord p q w 1) 31 && field (s.winWord p q w 1) 28 16 == source &&
    backed pa && !rotReserved p q r && s.owns p pa && !(ns && (!rotNs r || s.secure pa)) && rotE r && (!wr || rotW r) && (!rd || rotR r) && typeOk

/-- A write that arrives at a mailbox page ends halts and sleep (R309, R398). -/
def State.arrivalNote (s : State) (p pa : Nat) : State :=
  if rotMb (s.rotEntry pa) then (s.endHalts p).wakePart p else s

/-- Applies an admitted request: the state, and the bytes of its answer (R350, R351, R354). -/
def State.winApply (s : State) (p w pa : Nat) (o : WinOp) : State × List Byte :=
  match o with
  | .write data =>
    (((s.arrivalNote p pa).homeWriteLong (data.length / 128 + 2) pa data).winAdd p w true data.length, [])
  | .read n => (s, s.stampedRead pa n)
  | .ldat t => (s, s.versionAt pa t)
  | .atom op v v2 rm cn =>
    let s1 := s.arrivalNote p pa
    let old := s1.homeRead pa op.size
    let x := atomNew op (wordOf old) v.toNat v2.toNat rm false cn false
    (s1.homeWrite pa (bytesOf op.size x.bits), old ++ [x.flags.setWidth 8])
  | .red op v rm fz cn sat =>
    let s1 := s.arrivalNote p pa
    let x := atomNew op (wordOf (s1.homeRead pa op.size)) v.toNat 0 rm fz cn sat
    (s1.homeWrite pa (bytesOf op.size x.bits), [x.flags.setWidth 8])
  | .redTm ws =>
    let s1 := s.arrivalNote p pa
    (s1.homeWrite pa (wordsBytes (mergeWords (bytesWords (s1.homeRead pa 16)) ws)), [])

/-- A refusal goes back in class NOTICE (R350). -/
def State.refuseTo (s : State) (source : Nat) : State :=
  { s with fabric := { s.fabric with sentNotices := ⟨8, 0, source, 0, 0⟩ :: s.fabric.sentNotices } }

/-- An answer goes back to its source. -/
def State.replyTo (s : State) (source : Nat) (b : List Byte) : State :=
  { s with fabric := { s.fabric with replies := (source, b) :: s.fabric.replies } }

/-- A packet with a key that no partition holds is dropped and counted at its port (R358). -/
def State.keyMissed (s : State) (port source : Nat) : State :=
  let s1 := s.refuseTo source
  { s1 with fabric := { s1.fabric with keymiss := s1.fabric.keymiss.modify port (fun n => min (n + 1) (2 ^ 32 - 1)) } }

/-- WINDOW_REQUEST_ARRIVAL: a request from another package is checked and applied, or refused; a sleeping partition's request
waits at the hub (R350, R351, R358, R398). No packet carries more than 1,024 bytes (R356). -/
def execWindowRequestArrival (s : State) : Out :=
  let e := s.ev
  if !e.op.fits then .fault .noSuchEvent
  else
  match s.keyHolder e.key with
  | none => .next (s.keyMissed e.port e.sender)
  | some (p, q) =>
    if q.sleep != 0 then
      .next ({ s with asleep := s.asleep ++ [(p, Turn.event .windowRequestArrival e)] }.wakePart p)
    else if s.winAdmits p q e.num e.sender e.flag e.addr (e.op.typeOk (rotType (s.rotEntry e.addr))) e.op.writes e.op.reads then
      let (s1, b) := s.winApply p e.num e.addr e.op
      .next (s1.replyTo e.sender b)
    else .next (s.refuseTo e.sender)

end Sys2Proof.Machine
end

