-- ==== Sys2Proof/Machine/Time.lean ====
section
/-!
DEFINITION. The deckle and stamped memory (R327–R346): TIMEI, COMMITW, STST and LDAT, the hold of a stamped store and its
landing, the tick and the sources of time, failure, exclusion and rejoining, and pod parameters.
-/

namespace Sys2Proof.Machine

/-! TIMEI and COMMITW (R331). -/

/-- L as TIMEI reads it: all ones while FAIL is set (R331). -/
def Deckle.lateRead (d : Deckle) : Nat := if d.fail then 2 ^ 64 - 1 else d.late

/-- TIMEI: both edges at one instant (R331). -/
def execTimei (d : Reg) (s : State) : Out :=
  s.issue { opds := [.four .vd d] } (fun s =>
    .next (s.mapActive (fun _ t =>
      (t.setPair d.toNat (BitVec.ofNat 64 s.deckle.early)).setPair (d.toNat + 2) (BitVec.ofNat 64 s.deckle.lateRead))).finish)

/-- COMMITW: waits until E exceeds the lane's tick; a helper's is met at once (R331). -/
def execCommitw (a : Reg) (s : State) : Out :=
  s.issue { opds := [.two .va a], closes := true } (fun s =>
    .next (s.mapActive (fun _ t =>
      if t.helper || decide (t.nat64 a.toNat < s.deckle.early) then t else { t with wait := .time })).finish)

/-! The record a lane names (R328). -/

/-- A stamped record: its address, and for a remote one its window and package. -/
structure RecRef where
  addr : Nat
  remote : Option (Nat × Nat)
  deriving DecidableEq, Repr

/-- The checks of a lane's record (R328, R349). The walk is done at once, so its faults are precise. -/
def State.recRef (s : State) (w : Warp) (wr : Bool) (va : Nat) : Except Cause RecRef × State :=
  if va % 16 != 0 then (.error .align, s)
  else if 2 ^ 56 ≤ va then (.error .page, s)
  else
    match s.xlateWalk (w.request (!wr) wr false) va with
    | (.good pa rot, s1) =>
      (if (regPage pa).isSome then .error .rot
        else if rotType rot == 1 then (if s1.lineRefuses (w.request (!wr) wr false) pa then .error .domain else .ok ⟨pa, none⟩)
        else if rotType rot == 2 then
          match s1.windowOf w.part rot with
          | some (win, rpkg, base) => .ok ⟨base + pa % 65536, some (win, rpkg)⟩
          | none => .error .window
        else .error .rot, s1)
    | (.bad c, s1) => (.error c, s1)
    | (.miss, s1) => (.error .page, s1)

/-- The records of lanes. -/
def State.recRefs (s : State) (w : Warp) (wr : Bool) (r : Nat) :
    List (Nat × Thread) → List (Nat × Thread × Except Cause RecRef) × State
  | [] => ([], s)
  | (n, t) :: l =>
    let (x, s1) := s.recRef w wr (t.nat64 r)
    let (xs, s2) := s1.recRefs w wr r l
    ((n, t, x) :: xs, s2)

/-- A stamped instruction: its lanes' checks in the order of R346, then its effect. `early`: a lane's tick is out of range. -/
def stampIssue (opds : List Opd) (wr : Bool) (a : Reg) (early : Thread → Bool)
    (body : State → Warp → List (Nat × Thread × RecRef) → Out) (s : State) : Out :=
  s.issue { opds := opds } (fun s =>
    match s.warp? with
    | none => .fault .noWarp
    | some w =>
      let held := s.heldLanes wr false
      if !held.isEmpty then .next (s.stall held .pend)
      else
        let (refs, s1) := s.recRefs w wr a.toNat s.live
        let at_ (t : Thread) : Nat := t.nat64 a.toNat
        let bad := refs.filterMap (fun x => match x.2.2 with | .error c => some (c, x.1, at_ x.2.1) | .ok _ => none)
        let late := refs.filterMap (fun x =>
          if s.deckle.refuses || early x.2.1 then some (Cause.stamp, x.1, at_ x.2.1) else none)
        match firstFault (bad ++ late) with
        | some (c, lane, va) => .next (s1.memFault c lane (BitVec.ofNat 32 va) (BitVec.ofNat 32 (va / 2 ^ 32)))
        | none => body s1 w (refs.filterMap (fun x => match x.2.2 with | .ok r => some (x.1, x.2.1, r) | .error _ => none)))

/-! STST (R329). -/

/-- One lane's stamped store is accepted: it takes its stamp and is held (R329, R336, R377). -/
def State.takeStamp (s : State) (w : Warp) (id a d : Nat) (x : Nat × Thread × RecRef) : State :=
  let stamp := max s.deckle.late (s.deckle.lastStamp + 1)
  let va := x.2.1.nat64 a
  let data := wordsBytes (x.2.1.group d 4)
  let h : Hold :=
    { id := id, part := w.part, core := s.cur.core, slot := s.cur.slot, lane := x.1, va := va, addr := x.2.2.addr,
      remote := x.2.2.remote, data := data, stamp := stamp, left_ := false }
  let s1 := s.foldStore w.block va false data
  { s1 with
    deckle := { s1.deckle with lastStamp := stamp }
    holds := s1.holds ++ [h] }.modWarp (fun w => w.mapLanes (maskOf [x.1]) (fun _ t => { t with lstamp := BitVec.ofNat 64 stamp }))

/-- STST (R329, R336). -/
def execStst (_L : BitVec 4) (a d : Reg) (s : State) : Out :=
  stampIssue [.four .vd d, .two .va a] true a (fun _ => false) (fun s w l =>
    if l.isEmpty then .next s.finish
    else if 63 ≤ w.cnt 5 then .next (s.stallAll .count)
    else
      let (id, s1) := s.fresh
      .next (l.foldl (fun s x => s.takeStamp w id a.toNat d.toNat x) ((s1.countEngine 5 id).irrevocable w)).finish) s

/-- A deferred cause of a stamped store (R173, R337). -/
def State.deferStamp (s : State) (h : Hold) (c : Cause) : State :=
  s.modWarpAt h.core h.slot (fun w => { w with
    deferred := w.deferred ++ [⟨h.id, 5, c, BitVec.ofNat 32 h.va, BitVec.ofNat 32 (h.va / 2 ^ 32)⟩] })

/-- A stamped store is complete: applied, rejected or discarded (R172, R329). -/
def State.endHold (s : State) (h : Hold) (c : Option Cause) : State :=
  let s1 := { s with holds := s.holds.filter (fun x => !(x.id == h.id && x.lane == h.lane)) }
  let s2 := match c with | some x => s1.deferStamp h x | none => s1
  (s2.settleCount h.core h.slot 5 h.id).wakeWarp h.core h.slot (fun x => x == .time)

/-- STST_HOLD_END: E has passed the stamp, so the store leaves, through its window where the record is remote (R329, R337). -/
def execStstHoldEnd (s : State) : Out :=
  match s.holds.find? (fun h => h.id == s.ev.id && h.lane == s.ev.lane && !h.left_) with
  | some h =>
    if s.deckle.fail || s.deckle.early ≤ h.stamp then .fault .noSuchEvent
    else
      let s1 := { s with holds := s.holds.map (fun (x : Hold) =>
        if x.id = h.id ∧ x.lane = h.lane then { x with left_ := true } else x) }
      let s2 := match h.remote with
        | some (w, rpkg) => s1.sendPkt {
          id := 0, op := none, part := h.part, core := h.core, slot := h.slot, lane := h.lane,
          cmd := none, w := w, rpkg := rpkg, raddr := h.addr, va := h.va, kind := .stst h.stamp h.data, cls := .time,
          src := s.pkg, key := s.keyOf h.part, ns := s.nsOf h.part, bank := false, sent := false, lost := false, cnt := some (5, h.id) }
        | none => s1
      .next (s2.wakeWarp h.core h.slot (fun x => x == .time))
  | none => .fault .noSuchEvent

/-! Landing (R337, R339). -/

/-- Version a stands before version b (R336). -/
def Version.before (a b : Version) : Bool :=
  decide (a.stamp < b.stamp) || (a.stamp == b.stamp && decide (a.source < b.source))

/-- Inserts a version in its order. -/
def insertVersion (v : Version) : List Version → List Version
  | [] => [v]
  | x :: l => if v.before x then v :: x :: l else x :: insertVersion v l

/-- A record after an insertion: at most four versions, and the initial contents gone once four have been held (R339). -/
def Stamped.insert (r : Stamped) (v : Version) : Stamped :=
  let l := insertVersion v r.versions
  ⟨if 4 < l.length then l.drop 1 else l, r.gone || decide (4 ≤ l.length)⟩

/-- What the home of a stamped store answers at an edge L. XCL says that the package holds a notice naming itself (R337, R342,
R343). -/
def State.landing (s : State) (source stamp late : Nat) : Option Cause :=
  if s.deckle.excluded.contains source || (s.deckle.xcl && source == s.pkg) then some .stamp
  else if s.deckle.fail || decide (stamp + s.deckle.deltaLate < late) then some .late
  else none

/-- Inserts a version into its record, a write of its page in the dirty log (R400, log 69). -/
def State.insertStamped (s : State) (pa stamp source : Nat) (data : List Byte) : State :=
  { s.migRecord pa with stamped := tput s.stamped pa (((tget s.stamped pa).getD ⟨[], false⟩).insert ⟨stamp, source, data⟩) }

/-- A code for the answer to a stamped store: applied, rejected for STAMP, for LATE. -/
def landCode : Option Cause → Byte
  | none => 0
  | some .stamp => 1
  | some _ => 2

/-- A stamped store reaches its home, which inserts or rejects it by a late edge. One of this package completes its hold; one of
another is checked as a window request, and waits at the hub while its partition sleeps, with the edge it met there (R337, R350,
R398). -/
def State.landStamped (s : State) (late : Nat) : Out :=
  let e := s.ev
  if e.sender = s.pkg then
    match s.holds.find? (fun h => h.stamp == e.num && h.left_ && h.remote.isNone) with
    | some h =>
      let c := s.landing s.pkg h.stamp late
      let s1 := if c.isNone then s.insertStamped h.addr h.stamp s.pkg h.data else s
      .next (s1.endHold h c)
    | none => .fault .noSuchEvent
  else if e.data.length ≠ 16 ∨ e.addr % 16 ≠ 0 then .fault .noSuchEvent
  else
    match s.keyHolder e.key with
    | none => .next (s.keyMissed e.port e.sender)
    | some (p, q) =>
      if q.sleep != 0 then
        .next ({ s with asleep := s.asleep ++ [(p, Turn.event .stampedArrival { e with bound := s.deckle.late })] }.wakePart p)
      else if s.winAdmits p q e.id2 e.sender e.flag e.addr (rotType (s.rotEntry e.addr) == 1) true false then
        let c := s.landing e.sender e.num late
        let s1 := if c.isNone then s.insertStamped e.addr e.num e.sender e.data else s
        .next (s1.replyTo e.sender [landCode c])
      else .next (s.refuseTo e.sender)

/-- STAMPED_ARRIVAL: a stamped store meets the late edge of the tick at which it reaches its package (R337). -/
def execStampedArrival (s : State) : Out := s.landStamped s.deckle.late

/-- The cause of an outcome (R337). -/
def outcomeCause : StampedOutcome → Option Cause
  | .applied => none
  | .rejectedStamp => some .stamp
  | .rejectedLate => some .late
  | .dropped => some .late

/-- STAMPED_STORE_OUTCOME: the remote home's answer, or the fabric's notice that it dropped the store, as it does with one for
which no port was open (R329, R337, R359). -/
def execStampedStoreOutcome (s : State) : Out :=
  match (s.pktOut s.ev.id).or (if s.ev.outcome = .dropped then s.pktLost s.ev.id else none) with
  | some p =>
    match p.kind, s.holds.find? (fun h => h.left_ && p.cnt == some (5, h.id) && h.lane == p.lane) with
    | .stst .., some h => .next ((s.dropPkt p.id).endHold h (outcomeCause s.ev.outcome))
    | _, _ => .fault .noSuchEvent
  | none => .fault .noSuchEvent

/-! LDAT (R330, R341). -/

/-- LDAT: each lane waits for its tick; with no lookahead it is held at the instruction (R33, R330). -/
def execLdat (L : BitVec 4) (a d : Reg) (s : State) : Out :=
  stampIssue [⟨.vd, d.toNat, 8, 8⟩, .two .va a] false a (fun t => decide (2 ^ 63 ≤ t.nat64 d.toNat)) (fun s _ l =>
    let dest := (List.range 8).map (d.toNat + ·)
    let s1 := s.mapActive (fun _ t => if t.helper then t.setGroup d.toNat (List.replicate 8 0) else t)
    if l.isEmpty then .next (s1.openWindow L [] dest).finish
    else
      let lanes : List LdatLane := l.map (fun x => ⟨x.1, x.2.1.nat64 d.toNat, x.2.1.nat64 a.toNat⟩)
      let s2 := s1.queueSync L (lanes.map (·.lane)) dest (fun n => .ldat lanes d.toNat n)
      .next (s2.mapActive (fun _ t => if t.helper then t.openWindow s.cur.last L.toNat false [] dest else t)).finish) s

/-- LDAT_SERVE: E has passed t + Δ, so a lane's read is served at its home, or leaves for the remote one (R330, R341). It uses the
translation that holds now: a lane whose page an invalidation has taken away stops at its LDAT (R287). -/
def execLdatServe (s : State) : Out :=
  match s.pend.find? (fun p => p.id == s.ev.id) with
  | some p =>
    match p.kind with
    | .ldat lanes dst next =>
      match lanes.find? (fun x => x.lane == s.ev.lane), s.warpAt? p.core p.slot with
      | some x, some w =>
        if s.deckle.refuses || s.deckle.early ≤ x.tick + s.deckle.deltaRead then .fault .noSuchEvent
        else
          match s.recRef w false x.va with
          | (.error c, s1) => .next (s1.stopLdat p [x] c false)
          | (.ok ⟨addr, none⟩, s1) =>
            .next ((s1.commit p.core p.slot [⟨x.lane, ldatRegs dst (s1.versionAt addr x.tick), 0⟩]).leaveQueue p x.lane)
          | (.ok ⟨addr, some (win, rpkg)⟩, s1) =>
            .next ((s1.setPend p.id (.ldat (lanes.filter (fun y => y.lane != x.lane)) dst next)).sendPkt
              { id := 0, op := some p.id, part := w.part, core := p.core, slot := p.slot, lane := x.lane, cmd := none, w := win,
                rpkg := rpkg, raddr := addr, va := x.va, kind := .ldat x.tick dst, cls := .time, src := s.pkg, key := s.keyOf w.part,
                ns := s.nsOf w.part, bank := false, sent := false, lost := false, cnt := none })
      | _, _ => .fault .noSuchEvent
    | _ => .fault .noSuchEvent
  | none => .fault .noSuchEvent

/-! Failure (R329, R330, R342, R343). -/

/-- The lanes of an LDAT that wait when the clock fails stop at it with deferred STAMP (R330). -/
def State.failLdat (s : State) (p : Pending) : State :=
  match p.kind with
  | .ldat lanes _ _ => s.stopLdat p lanes .stamp true
  | _ => s

/-- Everything that waits on this package's clock stops: waits of LDAT (R330). -/
def State.failLdats (s : State) : State :=
  (s.pend.filter (fun p => match p.kind with | .ldat l _ _ => !l.isEmpty | _ => false)).foldl State.failLdat s

/-- The source number of the package's own clock as a candidate (R333). -/
def ownClock : Nat := 17

/-- FAIL is set: held stores are discarded, waiting reads stop, and the package's own clock is no candidate (R342, R343). -/
def State.setFail (s : State) (xcl : Bool) : State :=
  let d := s.deckle
  let s1 := { s with deckle := { d with
    fail := true, xcl := d.xcl || xcl, good := 0, candidates := d.candidates.filter (fun c => c.source != ownClock) } }
  ((s1.holds.filter (fun h => !h.left_)).foldl (fun s h => s.endHold h (some .stamp)) s1).failLdats

/-- A notice sent to the pod: kind as in R393, port, package named. -/
def State.sendNotice (s : State) (kind port named : Nat) : State :=
  { s with fabric := { s.fabric with sentNotices := ⟨kind, port, named, 0, 0⟩ :: s.fabric.sentNotices } }

/-- A notice enters the log, a ring of 4,096 entries (R393). -/
def State.logNotice (s : State) (kind port sender named : Nat) : State :=
  let l := s.element.notices ++ [⟨s.deckle.early, kind, port, sender, named⟩]
  { s with element := { s.element with
      notices := l.drop (l.length - 4096), nextNotice := s.element.nextNotice + 1 } }

/-! The tick (R332, R333). -/

/-- A candidate's bound at a tick: it grows by one tick per 40,000, rounded up (R333). -/
def Candidate.boundAt (c : Candidate) (now : Nat) : Nat := c.eps + (now - c.tick + 39999) / 40000

/-- A candidate's time at a tick. -/
def Candidate.timeAt (c : Candidate) (now : Nat) : Nat := c.time + (now - c.tick)

/-- The candidate with the smallest bound at a tick (R333). -/
def Deckle.best (d : Deckle) (now : Nat) : Option Candidate := leastBy (fun c => c.boundAt now) d.candidates

/-- A candidate is accepted, in the place of its source's last one unless that one's bound is smaller still (R333). -/
def Deckle.accept (d : Deckle) (c : Candidate) : Deckle :=
  if d.candidates.any (fun x => x.source == c.source && decide (x.boundAt c.tick < c.eps)) then d
  else { d with candidates := d.candidates.filter (fun x => x.source != c.source) ++ [c] }

/-- A candidate that is used sets the package's own clock and its bound, which from then on is a candidate too (R333). -/
def Deckle.adopt (d : Deckle) (c : Candidate) : Deckle :=
  if c.source = ownClock then d
  else { d with candidates := d.candidates.filter (fun x => x.source != ownClock) ++ [{ c with source := ownClock }] }

/-- Both edges at a tick (R332). -/
def Deckle.edges (d : Deckle) : Deckle :=
  { d with early := max d.early (d.clock - d.eps), late := max d.late (d.clock + d.eps) }

/-- The deckle uses its best candidate, and holds both edges (R332, R333). Before the first lock it uses none (R334). Under
FAIL, E runs on from the oscillator. -/
def Deckle.use (d : Deckle) (now : Nat) : Deckle :=
  if d.eps = 0xFFFFFFFF then d
  else
    let d1 := match d.best now with
      | some c =>
        let d1 := { d with clock := c.timeAt now, eps := c.boundAt now }
        if d.fail then d1 else d1.adopt c
      | none => d
    if d1.fail then d1 else d1.edges

/-- One tick: the clock steps, the best candidate is used, and a change's transition that is over ends (R332, R333, R335,
R344). -/
def Deckle.step (d : Deckle) : Deckle :=
  let now := d.tick + 1
  let d1 := { d with tick := now, clock := d.clock + 1, early := if d.fail then d.early + 1 else d.early }
  let d2 := d1.use now
  let held := d2.candidates.any (fun c => c.source != ownClock && decide (c.boundAt now ≤ d2.epsMax))
  { d2 with
    good := if d.fail && held then d.good + 1 else 0
    changes := d2.changes.filter (fun c => match c.deltas with | some (_, _, e) => decide (d2.early ≤ e) | none => true) }

/-- Control cores whose halt's tick E has reached go on (R309). -/
def State.endTimedHalts (s : State) : State :=
  { s with cores := s.cores.map (fun (k : Nat × Core) =>
      match k.2.halted with
      | some t => if t ≠ 0 ∧ t ≤ s.deckle.early then (k.1, k.2.resumeHalt) else k
      | none => k) }

/-- Two intervals overlap. -/
def meetsInterval (t e t' e' : Nat) : Bool := decide (t - e ≤ t' + e') && decide (t' - e' ≤ t + e)

/-- Two accepted candidates do not overlap, so one bound is false (R342). -/
def Deckle.conflict (d : Deckle) : Bool :=
  let l := d.candidates.filter (fun c => c.source != ownClock)
  l.any (fun a => l.any (fun b =>
    !meetsInterval (a.timeAt d.tick) (a.boundAt d.tick) (b.timeAt d.tick) (b.boundAt d.tick)))

/-- A change takes force (R335). -/
def Deckle.switch (d : Deckle) (c : ParamChange) : Deckle :=
  let old := closing d.epsMax d.dlvb
  let d1 := if c.isD then { d with dlvb := c.value } else { d with epsMax := c.value }
  let new := closing d1.epsMax d1.dlvb
  { d1 with changes := d1.changes.map (fun x => if x = c then { x with deltas := some (old, new, c.tick + 2 * max old new) } else x) }

/-- Changes whose tick E has passed take force (R335). -/
def Deckle.switchAll (d : Deckle) : Deckle :=
  d.changes.foldl (fun d c => if c.deltas.isNone && decide (c.tick < d.early) then d.switch c else d) d

/-- What must have happened when a tick ends: the refill of budgets (R279), parameter changes whose tick E has passed (R335), and
FAIL where two candidates contradict each other (R342). -/
def State.beforeTick (s : State) : State :=
  let s1 := if s.refillDue then s.refill else s
  let s2 := { s1 with deckle := s1.deckle.switchAll }
  if !s2.deckle.fail && s2.deckle.conflict then (s2.setFail false).sendNotice 2 0 s2.pkg else s2

/-- DECKLE_TICK: one tick of the package oscillator; lanes that wait for time look again, and a bound that passes EPSMAX stops the
waits of LDAT (R309, R330–R332). What the tick that ends has brought is done before it. -/
def execDeckleTick (s : State) : Out :=
  let s0 := s.beforeTick
  let s1 := { s0 with deckle := s0.deckle.step }
  let s2 := if s1.deckle.refuses then s1.failLdats else s1
  .next (s2.endTimedHalts.wake (fun x => x == .time))

/-! Sources of time (R333, R334, R342). -/

/-- The first bound within EPSMAX after power-on clears FAIL, and the edges start from it (R334). A package that a notice has
named before then keeps FAIL until it rejoins (R342, R344). -/
def Deckle.lock (d : Deckle) (c : Candidate) : Deckle :=
  let d1 := d.accept c
  if d.eps = 0xFFFFFFFF ∧ c.eps ≤ d.epsMax then
    if d.xcl then { d1 with clock := c.time, eps := c.eps }
    else { d1.adopt c with fail := false, clock := c.time, eps := c.eps, early := c.time - c.eps, late := c.time + c.eps }
  else d1

/-- What a servo states is taken, unless the package's record names another origin (R334). -/
def State.fromServo (s : State) (f : Deckle → Candidate → Deckle) : State :=
  if Config.sharesOrigin s.pkg then { s with deckle := f s.deckle ⟨0, s.ev.time, s.ev.bound, s.deckle.tick, s.pkg⟩ } else s

/-- SERVO_CANDIDATE: a locked reference package's servo states a time and a bound of at least one tick (R333, R334). -/
def execServoCandidate (s : State) : Out :=
  if s.deckle.ref && decide (1 ≤ s.ev.bound) && (s.deckle.eps != 0xFFFFFFFF || decide (s.deckle.epsMax < s.ev.bound)) then
    .next (s.fromServo Deckle.accept)
  else .fault .noSuchEvent

/-- REFERENCE_LOCK: a reference's servo first states a bound of at most EPSMAX, and FAIL clears (R334). -/
def execReferenceLock (s : State) : Out :=
  if s.deckle.ref && decide (1 ≤ s.ev.bound) && decide (s.ev.bound ≤ s.deckle.epsMax) && s.deckle.eps == 0xFFFFFFFF then
    .next (s.fromServo Deckle.lock)
  else .fault .noSuchEvent

/-- TIME_BEAT_SEND: every port sends a beat every 1,024 ticks, with the package's clock and its bound (R333). -/
def execTimeBeatSend (s : State) : Out :=
  if s.deckle.tick % 1024 = 0 ∧ s.ev.port < 16 then
    .next { s with fabric := { s.fabric with
      sentNotices := ⟨0, s.ev.port, s.pkg, s.deckle.clock, s.deckle.unc⟩ :: s.fabric.sentNotices } }
  else .fault .noSuchEvent

/-- TIME_BEAT_RECEIVE: a beat gives the peer's clock, corrected by the two-way delay, with its bound plus the port's asymmetry and
one; one that does not meet the package's own interval names its neighbour (R333, R342, R344). A reference of the pod's origin
locks by its servo alone, any other package by its first good beat (R334). -/
def execTimeBeatReceive (s : State) : Out :=
  let e := s.ev
  if 16 ≤ e.port then .fault .noSuchEvent
  else
    let d := { s.deckle with heard := tput s.deckle.heard e.port s.deckle.tick }
    let time := e.time + e.delay
    let eps := e.bound + Config.portAsymmetry e.port % 8 + 1
    if e.flag || d.excluded.contains e.sender then .next { s with deckle := d }
    else
      let c : Candidate := ⟨1 + e.port, time, eps, d.tick, e.sender⟩
      let s1 := { s with deckle := if d.ref && Config.sharesOrigin s.pkg then d.accept c else d.lock c }
      .next (if !d.fail && !meetsInterval time eps d.clock d.eps then s1.sendNotice 2 0 e.sender else s1)

/-- DECKLE_FAIL: the oscillator leaves its rate, or two candidates contradict each other; the package names itself in a notice
(R342). -/
def execDeckleFail (s : State) : Out :=
  if !s.deckle.fail && (s.ev.flag || s.deckle.conflict) then .next ((s.setFail false).sendNotice 2 0 s.pkg)
  else .fault .noSuchEvent

/-- NEIGHBOUR_SILENCE: no beat from a neighbour for 65,536 ticks (R342). -/
def execNeighbourSilence (s : State) : Out :=
  let last := (tget s.deckle.heard s.ev.port).getD 0
  if 65536 ≤ s.deckle.tick - last ∧ s.ev.port < 16 then .next (s.sendNotice 2 0 s.ev.named) else .fault .noSuchEvent

/-- TIME_EXCLUSION_NOTICE: the package named is excluded; where it is this one, and another has sent the notice, FAIL and XCL are
set. The package's own clock stays a candidate, whoever's beat it was set by (R333, R342, R344, R393). -/
def execTimeExclusionNotice (s : State) : Out :=
  let s1 := s.logNotice 2 0 s.ev.sender s.ev.named
  if s.ev.named = s.pkg then .next (if s.ev.sender = s.pkg then s1 else s1.setFail true)
  else
    let d := s1.deckle
    .next { s1 with deckle := { d with
      excluded := if d.excluded.contains s.ev.named then d.excluded else d.excluded ++ [s.ev.named]
      candidates := d.candidates.filter (fun c => c.source == ownClock || c.sender != s.ev.named) } }

/-- REJOIN: after a million ticks with a good candidate, and a sound oscillator, FAIL and XCL clear (R344). A package that has never
locked waits for its lock (R334). -/
def execRejoin (s : State) : Out :=
  let d := s.deckle
  if d.fail && d.eps != 0xFFFFFFFF && decide (1000000 ≤ d.good) && s.ev.flag then
    .next ({ s with deckle := ({ d with fail := false, xcl := false, good := 0 } : Deckle).use d.tick }.sendNotice 3 0 s.pkg)
  else .fault .noSuchEvent

/-- REJOIN_NOTICE: the sender is excluded no longer (R344). -/
def execRejoinNotice (s : State) : Out :=
  let s1 := s.logNotice 3 0 s.ev.sender s.ev.sender
  .next { s1 with deckle := { s1.deckle with excluded := s1.deckle.excluded.erase s.ev.sender } }

/-! Pod parameters (R335). -/

/-- PARAM_NOTICE: a new EPSMAX (flag clear) or D (flag set), in force at a tick (R335, R393). -/
def execParamNotice (s : State) : Out :=
  let s1 := s.logNotice 4 0 s.ev.sender 0
  .next { s1 with deckle := { s1.deckle with changes := s1.deckle.changes ++ [⟨s.ev.flag, s.ev.num, s.ev.time, none⟩] } }

/-- PARAM_SWITCH: E has passed a change's tick (R335). -/
def execParamSwitch (s : State) : Out :=
  match s.deckle.changes.find? (fun c => c.deltas.isNone && decide (c.tick < s.deckle.early)) with
  | some c => .next { s with deckle := s.deckle.switch c }
  | none => .fault .noSuchEvent

end Sys2Proof.Machine
end

