-- ==== Sys2Proof/Machine/Traps.lean ====
section
/-!
DEFINITION. The events of traps (R87, R291, R294–R298) and the writes of registers that act on the machine (R54, R246, R276, R279,
R293, R303, R335, R400). Taking a trap itself stands in Machine/Ops.lean, the registers in Machine/Registers.lean.
-/

namespace Sys2Proof.Machine

/-! Delivery. -/

/-- FPX_WINDOW_END: the lanes stopped for FPX in the interval are gathered, and the first is delivered once the warp's
long-latency work is done (R87, R291). -/
def execFpxWindowEnd (s : State) : Out :=
  match s.warpAt? s.ev.core s.ev.slot with
  | some w =>
    if w.collecting then
      .next ((s.modWarpAt s.ev.core s.ev.slot Warp.collectFpx).deliverPending s.ev.core s.ev.slot)
    else .fault .noSuchEvent
  | none => .fault .noSuchEvent

/-- The first report a warp still holds, when it can be delivered now. -/
def State.readyReport (s : State) (c slot : Nat) : Option Report :=
  match s.warpAt? c slot with
  | some w => if w.susp.isSome || s.inFlight c slot then none else w.pendingTraps.head?
  | none => none

/-- USER_TRAP_DELIVERY: the warp has stopped with nothing in flight, and its first user-class report enters the launch's handler
(R294, R295). -/
def execUserTrapDelivery (s : State) : Out :=
  match s.readyReport s.ev.core s.ev.slot with
  | some r => if r.super then .fault .noSuchEvent else .next (s.deliverPending s.ev.core s.ev.slot)
  | none => .fault .noSuchEvent

/-- FAULT_RECORD_POST: a warp's first report, of supervisor class, suspends it and posts its record; or the oldest record held
by a partition is posted, now that its queue has room (R293, R296). -/
def execFaultRecordPost (s : State) : Out :=
  match s.readyReport s.ev.core s.ev.slot with
  | some r => if r.super then .next (s.deliverPending s.ev.core s.ev.slot) else .fault .noSuchEvent
  | none =>
    match tget s.parts s.ev.part with
    | some q =>
      if !q.heldRecs.isEmpty && s.queueValid s.ev.part q && q.queueRoom then .next (s.postHeld s.ev.part)
      else .fault .noSuchEvent
    | none => .fault .noSuchEvent

/-! Register writes. One that its chapter refuses leaves the register as it is; the ILLEGAL is the writing instruction's. -/

/-- A write takes effect, or is refused and changes nothing. -/
def State.orSame (s : State) (o : Option State) : Out := .next (o.getD s)

/-- A register of a partition, through its first control core. -/
def State.partWrite (s : State) (p n : Nat) (v : BitVec 128) : Out :=
  match tget s.parts p with
  | some q => if q.valid then s.orSame (s.writeCoreReg (576 + 2 * p) false n v) else .fault .noSuchEvent
  | none => .fault .noSuchEvent

/-- TSTAT_RESUME: action 00 (R298). -/
def execTstatResume (s : State) : Out := s.orSame (s.tstatResume s.ev.core s.ev.slot)

/-- TSTAT_SKIP: action 01 (R298, R408). -/
def execTstatSkip (s : State) : Out := s.orSame (s.tstatSkip s.ev.core s.ev.slot)

/-- TSTAT_DELIVER: action 10, with its code (R298). -/
def execTstatDeliver (s : State) : Out := s.orSame (s.tstatDeliver s.ev.core s.ev.slot s.ev.num)

/-- TSTAT_END_LAUNCH: action 11 (R298). -/
def execTstatEndLaunch (s : State) : Out := s.orSame (s.tstatEnd s.ev.core s.ev.slot)

/-- FQHEAD_WRITE (R292, R296). -/
def execFqheadWrite (s : State) : Out := s.partWrite s.ev.part 0x08C (s.ev.word.setWidth 128)

/-- FQSIZE_WRITE (R292, R293). -/
def execFqsizeWrite (s : State) : Out := s.partWrite s.ev.part 0x08A (s.ev.word.setWidth 128)

/-- FQBASE_WRITE: the low word, or the high one where the event's flag says so (R292, R293). -/
def execFqbaseWrite (s : State) : Out :=
  s.partWrite s.ev.part (if s.ev.flag then 0x089 else 0x088) (s.ev.word.setWidth 128)

/-- A lane's MEETV takes a value: the thread may park, and its group may be released (R52–R54). -/
def Warp.setMeetv (w : Warp) (lane : Nat) (v : Word) (c : Nat) : Warp :=
  let w1 := { w with threads := tmod w.threads lane (fun t => { t with meetv := v }) }
  match w1.bundles.find? (fun b => laneIn b.mask lane) with
  | some b => w1.settle b.mask c
  | none => w1.release c

/-- A lane's MEETV is written (R54). -/
def State.meetvWrite (s : State) : Out :=
  match (s.warpAt? s.ev.core s.ev.slot).bind (fun w => tget w.threads s.ev.lane) with
  | some t =>
    if t.exited then .fault .noSuchEvent
    else .next (s.modWarpAt s.ev.core s.ev.slot (fun w => w.setMeetv s.ev.lane s.ev.word (s.cycle + 1)))
  | none => .fault .noSuchEvent

/-- MEETV_WRITE (R54). -/
def execMeetvWrite (s : State) : Out := s.meetvWrite

/-- DPART_WRITE: domain slot `slot` of a compute core (R246). -/
def execDpartWrite (s : State) : Out :=
  if 4 ≤ s.ev.slot ∨ isControl s.ev.core then .fault .noSuchEvent
  else s.orSame (s.writeDpart s.ev.core s.ev.slot s.ev.value)

/-- PARTCFG_WRITE (R276, R278). -/
def execPartcfgWrite (s : State) : Out := s.orSame (s.writePartcfg s.ev.word)

/-- EOTHI_WRITE: the budget of an ownership entry, and its balance (R279). -/
def execEothiWrite (s : State) : Out :=
  if 12 ≤ s.ev.num then .fault .noSuchEvent
  else .next (s.putPart s.ev.num (fun q => { q with eot := q.eot.setBudget s.ev.word }))

/-- EPSMAXSET_WRITE (R335). -/
def execEpsmaxsetWrite (s : State) : Out := s.orSame (s.announce false s.ev.word.toNat)

/-- DLVBSET_WRITE (R335). -/
def execDlvbsetWrite (s : State) : Out := s.orSame (s.announce true s.ev.word.toNat)

/-- MIGCTL_SWITCH: SW with the other fields as they are (R400). -/
def execMigctlSwitch (s : State) : Out :=
  match tget s.parts s.ev.part with
  | some _ =>
    .next (s.modPart s.ev.part (fun q =>
      q.writeMigctl (BitVec.ofNat 32 ((if q.migEn then 1 else 0) + 4 + 256 * q.migLog))))
  | none => .fault .noSuchEvent

/-- REGISTER_WRITE: a user-level register of a lane, LATTOL through the configuration page, or a register of a core (R303, R393,
R397). -/
def execRegisterWrite (s : State) : Out :=
  let e := s.ev
  if e.num = 0x042 then
    match tget s.parts e.part with
    | some _ => .next (s.modPart e.part (fun q => { q with lattol := e.word }))
    | none => .fault .noSuchEvent
  else if e.num = 0x013 then
    match s.warpAt? e.core e.slot with
    | some _ =>
      if partnOk e.word then .next (s.modWarpAt e.core e.slot (fun w => { w with partn := e.word &&& 7 })) else .next s
    | none => .fault .noSuchEvent
  else if e.num = 0x014 then s.meetvWrite
  else if e.num < 0x080 then
    match (s.warpAt? e.core e.slot).bind (fun w => tget w.threads e.lane) with
    | some t =>
      match t.writeReg e.num e.word with
      | some t1 => .next (s.modWarpAt e.core e.slot (fun w => { w with threads := tput w.threads e.lane t1 }))
      | none => .next s
    | none => .fault .noSuchEvent
  else s.orSame (s.writeCoreReg e.core false e.num e.value)

end Sys2Proof.Machine
end

