-- ==== Sys2Proof/Machine/Platform.lean ====
section
/-!
DEFINITION. The platform (R359–R362, R388–R399): the host link, boot and images, the management element's requests, links and
notices, power states, clocks, and faults of the hardware.
-/

namespace Sys2Proof.Machine

/-! The host link (R362). -/

/-- The pages that the BAR0 of a partition's virtual function maps: the first 16 by address of its normal pages with MB = 1 that its
world may reach (R277, R283, R362, log 72). -/
def State.mailboxes (s : State) (p : Nat) : List Nat :=
  ((s.rotPages (fun r => rotMb r && rotOwner r == p)).filter (fun n =>
    let r := s.rotEntry (n * 65536)
    backed (n * 65536) && rotMb r && rotType r == 0 && s.reaches p (n * 65536))).take 16

/-- A range of a page that BAR0 maps (R362). -/
def State.inMailbox (s : State) (p a n : Nat) : Bool :=
  (s.mailboxes p).contains (a / 65536) && decide (1 ≤ n) && decide (a % 65536 + n ≤ 65536)

/-- A request addressed to a sleeping partition waits at the hub and starts its exit (R398). -/
def State.holdAtHub (s : State) (p : Nat) (i : Instr) : State :=
  { s with asleep := s.asleep ++ [(p, Turn.event i s.ev)] }.wakePart p

/-- Whether a partition sleeps or is leaving sleep. -/
def State.sleeps (s : State) (p : Nat) : Bool := match tget s.parts p with | some q => q.sleep != 0 | none => false

/-- The host's write is performed, and ends halts (R309, R362). -/
def State.hostWrite (s : State) : State :=
  (s.homeWriteLong (s.ev.data.length / 128 + 2) s.ev.addr s.ev.data).endHalts s.ev.part

/-- The host's read is served. -/
def State.hostRead (s : State) : State := { s with hostReads := s.homeRead s.ev.addr s.ev.size :: s.hostReads }

/-- The management element's request page, as far as it is not zero: SEQ, STAT, ARG, RES and BULK (R391). -/
def State.requestPage (s : State) : List Byte :=
  let e := s.element
  bytesOf 4 0 ++ bytesOf 4 e.seq.toNat ++ bytesOf 4 e.stat.toNat ++ bytesOf 4 0 ++ fit 240 e.arg ++ fit 3840 e.res ++ fit 32768 e.bulk

/-- An access to the request page by a virtual function or an agent of a partition raises ROT (R390). -/
def State.denyRequest (s : State) : State := { s with element := { s.element with denied := s.ev.part :: s.element.denied } }

/-- A request starts: STAT reads busy (R391). -/
def Element.start (e : Element) (req : Nat) : Element := { e with req := some req, stat := (e.stat &&& 0xFFFF0000) ||| 1 }

/-- Bytes of a page with some overwritten. -/
def patch (page : List Byte) (a : Nat) (data : List Byte) : List Byte := page.take a ++ data ++ page.drop (a + data.length)

/-- A write of the request page: SEQ, ARG and BULK take it, and a write of REQ starts a request, but is ignored while STAT reads busy
(R391). -/
def State.requestWrite (s : State) : State :=
  let e := s.element
  let page := patch s.requestPage s.ev.addr s.ev.data
  let e1 := { e with
    seq := BitVec.ofNat 32 (wordOf ((page.drop 4).take 4)), arg := (page.drop 16).take 240, bulk := (page.drop 4096).take 32768 }
  { s with element := if s.ev.addr < 4 && e.req.isNone then e1.start (wordOf (page.take 4)) else e1 }

/-- HOST_MAILBOX_WRITE: a system-scope store; `flag3`: a write of the request page, from a virtual function or an agent where `flag` says
so (R309, R362, R390, R391, R398). -/
def execHostMailboxWrite (s : State) : Out :=
  let e := s.ev
  if e.flag3 then
    if decide (65536 < e.addr + e.data.length) || e.data.isEmpty then .fault .noSuchEvent
    else .next (if e.flag then s.denyRequest else s.requestWrite)
  else if !s.inMailbox e.part e.addr e.data.length then .fault .noSuchEvent
  else if s.sleeps e.part then .next (s.holdAtHub e.part .hostMailboxWrite)
  else .next s.hostWrite

/-- The configuration page of a partition, as far as it is not zero: LATTOL, PSTATE, MBCOUNT, PSTATUS (R393). -/
def State.configPage (s : State) (p : Nat) : List Byte :=
  let q := (tget s.parts p).getD Part.idle
  bytesOf 4 q.lattol.toNat ++ bytesOf 4 q.sleep ++ bytesOf 4 (s.mailboxes p).length ++
    bytesOf 4 ((if q.valid then 1 else 0) + (if q.failed then 2 else 0))

/-- The host's read of one of these pages, which no sleep holds up (R391, R393, R397). -/
def State.pageRead (s : State) (page : List Byte) : State :=
  { s with hostReads := fit s.ev.size (page.drop s.ev.addr) :: s.hostReads }

/-- HOST_READ: values from the homes; of the partition's configuration page where `flag2` says so, and of the request page where
`flag3` does, which only the physical function may read (R261, R362, R390, R391, R393). -/
def execHostRead (s : State) : Out :=
  let e := s.ev
  if e.flag3 then .next (if e.flag then s.denyRequest else s.pageRead s.requestPage)
  else if e.flag2 then .next (s.pageRead (s.configPage e.part))
  else if !s.inMailbox e.part e.addr e.size then .fault .noSuchEvent
  else if s.sleeps e.part then .next (s.holdAtHub e.part .hostRead)
  else .next s.hostRead

/-- A request that the hub held is served: a stamped store by the late edge it met when it came (R398). -/
def State.serveHeld (s : State) (t : Turn) : State :=
  match t with
  | .event i e =>
    let s1 := { s with ev := e }
    match i with
    | .hostMailboxWrite => s1.hostWrite
    | .hostRead => s1.hostRead
    | .windowRequestArrival => (match execWindowRequestArrival s1 with | .next x => x | _ => s)
    | .stampedArrival => (match s1.landStamped e.bound with | .next x => x | _ => s)
    | _ => s
  | .issue .. => s

/-! Boot (R388). -/

/-- The management element reports a failure to the host. -/
def State.reportFailure (s : State) (x : Nat) : State := { s with element := { s.element with reports := x :: s.element.reports } }

/-- A control core's thread as its image starts: one live lane at a level (R288, R388). -/
def imageThread (entry : Word) : Thread := { newThread ⟨0, 0, [], 0, 0, 0, .queued, 0, 0, [], 0, 0, [], false, 0⟩ 0 false with pc := entry }

/-- The warp of a control core. -/
def imageWarp (part : Nat) (level : Level) (code : CodeSeg) (entry : Word) (cycle tick : Nat) : Warp where
  threads := [(0, imageThread entry)]
  bundles := [⟨1, cycle, 0⟩]
  block := 0
  index := 0
  part := part
  level := level
  homeDid := 0
  curDid := 0
  homeSlot := 0
  curSlot := 0
  code := code
  partn := 5
  nbase := 96
  engine := [[], [], [], [], [], [], [], []]
  gates := []
  handler := none
  pendingTraps := []
  deferred := []
  susp := none
  xown := false
  xreq := none
  trapVec := none
  prio := 0
  admitted := 0
  lastTick := tick
  retry := []
  gcall := none

/-- Control cores start an image with the register values of partition start: segment and entry are the event's `addr`, `size` and
`word` (R231, R246, R268, R293, R388). -/
def State.startImage (s : State) (cores : List Nat) (part : Nat) (level : Level) : State :=
  let w := imageWarp part level ⟨s.ev.addr, s.ev.size⟩ s.ev.word (s.cycle + 1) s.deckle.tick
  cores.foldl (fun s c => s.putCore c (fun k => { k.startPart part with
    warps := [(0, w)], trap := Core.idle.trap, stopped := false, halted := none })) s

/-- The 24 control cores. -/
def controlCores : List Nat := (List.range 24).map (576 + ·)

/-- POWER_ON_BOOT: firmware, then the routine and the hypervisor image are verified, the configuration record takes force, and the
hypervisor starts. `flag`, `flag2`, `flag3`: the firmware, the routine and the hypervisor verify; `data`: their three digests
in that order; `num`: the package index, 0 to 8,191 (R2); `id`, `id2`: the secure range (R277, R334, R388). -/
def execPowerOnBoot (s : State) : Out :=
  let e := s.ev
  if s.element.boot != 0 || !s.element.reports.isEmpty || decide (8192 ≤ e.num) then .fault .noSuchEvent
  else if !e.flag then .next (s.reportFailure 1)
  else
    let s1 := { s with
      pkg := e.num
      secLo := e.id
      secHi := e.id2
      deckle := { s.deckle with ref := Config.reference e.num } }
    if !e.flag2 || !e.flag3 then .next ({ s1 with element := { s1.element with boot := 1 } }.reportFailure 2)
    else
      let s2 := { s1 with element := { s1.element with
        boot := 4
        firmware := e.data.take 64
        routine := (e.data.drop 64).take 64
        hypervisor := (e.data.drop 128).take 64 } }
      .next (s2.startImage controlCores noPart .hypervisor)

/-- PARTITION_IMAGE_START: a partition's system image is verified (`flag`), its digest (`data`) becomes manifest field 3, and the
partition's control cores start it at supervisor level (R275, R388). -/
def execPartitionImageStart (s : State) : Out :=
  let e := s.ev
  match tget s.parts e.part with
  | some q =>
    if s.element.boot != 4 || !q.valid || q.started then .fault .noSuchEvent
    else if !e.flag then .next (s.reportFailure (16 + e.part))
    else
      let s1 := s.modPart e.part (fun q => { q with started := true, image := e.data.take 64 })
      .next (s1.startImage (controlCores.filter (controlIn e.part q)) e.part .supervisor)
  | none => .fault .noSuchEvent

/-! The request page (R390–R393). A command's event serves the request in service, or, where there is none, one that the requester
makes with it: `word` is SEQ, `data` ARG and `bulk` BULK (log 27). -/

/-- The requester writes ARG, BULK and SEQ, then REQ (R391). -/
def State.ask (s : State) (req : Nat) : State :=
  let e := { s.element with
    seq := s.ev.word, arg := fit 240 s.ev.data, bulk := if s.ev.bulk.isEmpty then s.element.bulk else s.ev.bulk }
  { s with element := e.start req }

/-- The service of a request, one at a time (R390, R391). -/
def State.serveRequest (s : State) (req : Nat) (f : State → Out) : Out :=
  if s.ev.flag then .next s.denyRequest
  else
    match s.element.req with
    | none => f (s.ask req)
    | some r => if r = req then f s else .fault .noSuchEvent

/-- A request ends: STAT holds the state, the reason and the low half of SEQ (R391). -/
def State.endRequest (s : State) (state reason : Nat) : State :=
  let e := s.element
  { s with element := { e with
      req := none, stat := BitVec.ofNat 32 (state + 256 * reason + 65536 * (e.seq.toNat % 65536)) } }

/-- A request that is done, with its results (R391). -/
def State.served (s : State) (res : List Byte) : Out :=
  let s1 := s.endRequest 2 0
  .next { s1 with element := { s1.element with res := res } }

/-- A refused request changes nothing but STAT (R391). -/
def State.turnedAway (s : State) (reason : Nat) : Out := .next (s.endRequest 3 reason)

/-- Word i of ARG. -/
def State.argWord (s : State) (i : Nat) : Nat := wordOf (((fit 240 s.element.arg).drop (4 * i)).take 4)

/-- The partition that a request names by its first slice. -/
def State.argPart (s : State) : Option (Nat × Part) :=
  let p := s.argWord 0
  match tget s.parts p with
  | some q => if q.valid then some (p, q) else none
  | none => none

/-- A partition's present manifest, with the table slots of slot 0 of its first core (R385, log 48). -/
def State.partManifest (s : State) (p : Nat) (q : Part) : List Byte :=
  s.manifest q (48 * p) 0 (q.lseedhi.toNat * 2 ^ 32 + q.lseedlo.toNat)

/-- The quote of a partition (R389). -/
def State.quote (s : State) : Out :=
  match s.argPart with
  | some (p, q) =>
    let body := s.partManifest p q ++ ((fit 240 s.element.arg).drop 16).take 32 ++ bytesOf 4 s.pkg ++ List.replicate 28 0
    s.served (body ++ bytesOf 64 (Config.deviceSignature (sha512 body)).toNat)
  | none => s.turnedAway 0x06

/-- QUOTE (R389, R392). -/
def execQuote (s : State) : Out := s.serveRequest 0x01 State.quote

/-- MANIFEST (R392). -/
def execManifest (s : State) : Out :=
  s.serveRequest 0x02 (fun s =>
    match s.argPart with
    | some (p, q) => s.served (s.partManifest p q)
    | none => s.turnedAway 0x06)

/-- Writes entries from a destination on. -/
def Fabric.write (f : Fabric) (b : Bool) (d : Nat) (ws : List Word) : Fabric :=
  let t := ws.zipIdx.foldl (fun (t : Tbl Word) (x : Word × Nat) => tput t (d + x.2) (x.1 &&& 0xFFFF)) (f.bank b)
  if b then { f with bank1 := t } else { f with bank0 := t }

/-- No packet routed by the idle bank remains in this package (R360). -/
def State.drained (s : State) : Bool :=
  s.pkts.all (fun p => !p.sent || p.lost || p.acked || p.bank == s.fabric.active) &&
    s.fabric.transit.all (fun h => h.bank == s.fabric.active)

/-- RTSEL (R360). -/
def State.rtsel (s : State) : Nat := (if s.fabric.active then 1 else 0) + (if s.drained then 2 else 0)

/-- The bank, first destination and count of a routing request. -/
def State.routeArg (s : State) : Bool × Nat × Nat := (bit (s.argWord 0) 13, field (s.argWord 0) 12 0, s.argWord 1)

/-- RTREAD (R392). -/
def execRtread (s : State) : Out :=
  s.serveRequest 0x10 (fun s =>
    let (b, d, n) := s.routeArg
    if n = 0 ∨ 960 < n ∨ 8192 < d + n then s.turnedAway 0x02
    else s.served (wordsBytes ((List.range n).map (fun i => s.fabric.entry b (d + i)))))

/-- RTWRITE (R360, R392). -/
def execRtwrite (s : State) : Out :=
  s.serveRequest 0x11 (fun s =>
    let (b, d, n) := s.routeArg
    if n = 0 ∨ 8192 < n ∨ 8192 < d + n then s.turnedAway 0x02
    else if b = s.fabric.active then s.turnedAway 0x04
    else if !s.drained then s.turnedAway 0x03
    else
      let ws := (bytesWords (fit (4 * n) s.element.bulk)).take n
      { s with fabric := s.fabric.write b d ws }.served [])

/-- RTFLIP: the selector flips, and a notice of the flip goes out (R357, R360, R392). -/
def execRtflip (s : State) : Out :=
  s.serveRequest 0x12 (fun s =>
    let s1 := ({ s with fabric := { s.fabric with active := !s.fabric.active } }.sendNotice 7 0 s.pkg).sendAll
    s1.served (bytesOf 4 s1.rtsel))

/-- FABSTAT (R358, R360, R392). -/
def execFabstat (s : State) : Out :=
  s.serveRequest 0x13 (fun s =>
    let f := s.fabric
    let res := bytesOf 4 s.rtsel ++ bytesOf 4 f.ports.toNat ++ f.keymiss.flatMap (bytesOf 4)
    let s1 := if bit (s.argWord 0) 0 then { s with fabric := { f with keymiss := List.replicate 16 0 } } else s
    s1.served res)

/-- An entry of the notice log (R393). -/
def Notice.bytes (n : Notice) : List Byte :=
  bytesOf 8 n.early ++ bytesOf 1 n.kind ++ bytesOf 1 n.port ++ bytesOf 2 (n.sender % 8192) ++ bytesOf 2 (n.named % 8192) ++ [0, 0]

/-- The entries that stand from a log index on: the index is that of the last entry which has it modulo 2^32, or of the next one (R393). -/
def Element.noticesFrom (e : Element) (i : Nat) : List Notice :=
  let back := (e.nextNotice + 2 ^ 32 - i % 2 ^ 32) % 2 ^ 32
  if e.nextNotice < back then [] else e.notices.drop (e.notices.length - back)

/-- NOTICES: up to 239 of the entries that stand, from an index on (R392, R393). -/
def execNotices (s : State) : Out :=
  s.serveRequest 0x20 (fun s =>
    let got := (s.element.noticesFrom (s.argWord 0)).take 239
    s.served (bytesOf 4 s.element.nextNotice ++ bytesOf 4 got.length ++ got.flatMap Notice.bytes))

/-- A partition is idle: no block resident, no launch queued, no copy command (R397). -/
def State.partIdle (s : State) (p : Nat) (q : Part) : Bool :=
  !s.blocks.any (fun b => inPart p q (b.2.core / 48)) && !s.launches.any (fun l => l.2.part == p && l.2.waits) &&
    !s.copies.any (fun c => c.part == p)

/-- A maintenance window opens for partitions that are idle (R392, R395). -/
def State.openMaint (s : State) : Out :=
  let m := s.argWord 0
  let named := (List.range 12).filter (bit m)
  let part (p : Nat) : Option Part := (tget s.parts p).bind (fun q => if q.valid then some q else none)
  if 4096 ≤ m then s.turnedAway 0x02
  else if s.element.window then s.turnedAway 0x07
  else if named.any (fun p => (part p).isNone) then s.turnedAway 0x06
  else if named.any (fun p => match part p with | some q => !s.partIdle p q | none => false) then s.turnedAway 0x05
  else
    let s1 := named.foldl (fun s p => s.modPart p (fun q => { q with maint := true })) s
    { s1 with element := { s1.element with window := true } }.served []

/-- MAINTOPEN (R392, R395). -/
def execMaintopen (s : State) : Out := s.serveRequest 0x30 State.openMaint

/-- The re-plan lowers the nominal arithmetic clock by `num` steps of 25 MHz, slowed regions run freely again, and the window closes
(R394, R395). -/
def State.closeMaint (s : State) : Out :=
  if !s.element.window then s.turnedAway 0x07
  else
    let e := s.element
    let khz := e.arithKhz - 25000 * s.ev.num
    let s1 := { s with
      parts := s.parts.map (fun (p : Nat × Part) => (p.1, { p.2 with maint := false }))
      element := { e with window := false, arithKhz := khz, arithMhz := min e.arithMhz (khz / 1000), slow := [] } }
    s1.served (bytesOf 4 khz ++ bytesOf 4 e.l2Khz)

/-- MAINTCLOSE (R392, R395). -/
def execMaintclose (s : State) : Out := s.serveRequest 0x31 State.closeMaint

/-- A REQ value that names no command (R391, R392). -/
def badRequest (req : Nat) : Bool :=
  !([0x01, 0x02, 0x10, 0x11, 0x12, 0x13, 0x20, 0x30, 0x31].contains req)

/-- REQ_UNKNOWN_COMMAND: the REQ value is that of the request in service, or `num` (R391). -/
def execReqUnknownCommand (s : State) : Out :=
  let req := s.element.req.getD s.ev.num
  if badRequest req then s.serveRequest req (fun s => s.turnedAway 0x01) else .fault .noSuchEvent

/-! Power (R396–R398). -/

/-- The deepest sleep state a tolerance in µs admits (R397). -/
def deepest (lattol : Nat) : Nat :=
  if 2000 ≤ lattol then 3 else if 50 ≤ lattol then 2 else if 2 ≤ lattol then 1 else 0

/-- PARTITION_SLEEP (R397). -/
def execPartitionSleep (s : State) : Out :=
  let p := s.ev.part
  match tget s.parts p with
  | some q =>
    let n := deepest q.lattol.toNat
    if !q.valid || q.sleep != 0 || n == 0 || !s.partIdle p q then .fault .noSuchEvent
    else .next (s.modPart p (fun q => { q with sleep := n, waking := false }))
  | none => .fault .noSuchEvent

/-- PARTITION_WAKE_EVENT (R398). -/
def execPartitionWakeEvent (s : State) : Out :=
  if s.sleeps s.ev.part then .next (s.wakePart s.ev.part) else .fault .noSuchEvent

/-- WAKE_COMPLETE: the held requests are served in order of arrival (R398). -/
def execWakeComplete (s : State) : Out :=
  let p := s.ev.part
  match tget s.parts p with
  | some q =>
    if q.sleep != 0 && q.waking then
      let s1 := { s.modPart p (fun q => { q with sleep := 0, waking := false }) with
        asleep := s.asleep.filter (fun x => x.1 != p) }
      .next (((s.asleep.filter (fun x => x.1 == p)).map (·.2)).foldl State.serveHeld s1)
    else .fault .noSuchEvent
  | none => .fault .noSuchEvent

/-- POWER_GOVERNOR: the arithmetic clock goes down or up by 25 MHz, between 425 MHz and the nominal one (R396). -/
def execPowerGovernor (s : State) : Out :=
  let e := s.element
  let mhz := if s.ev.flag then max 425 (e.arithMhz - 25) else min (e.arithKhz / 1000) (e.arithMhz + 25)
  .next { s with element := { e with arithMhz := mhz } }

/-- MARGIN_LOW: a region stretches its clock until the next maintenance window (R394). -/
def execMarginLow (s : State) : Out :=
  let e := s.element
  .next { s with element := { e with slow := if e.slow.contains s.ev.num then e.slow else e.slow ++ [s.ev.num] } }

/-! Faults of the hardware (R399). -/

/-- An error that cannot be corrected stops its partition: its launches that run end ABORTED, its control cores stop, and a
machine-check record goes to the hypervisor and the host (R399). -/
def State.machineCheck (s : State) (p : Nat) (q : Part) : State :=
  let running := (s.launches.filter (fun l => l.2.part == p && l.2.runs)).map (·.1)
  let s1 := running.foldl (fun s l => s.abortLaunch l) s
  { s1.modPart p (fun q => { q with failed := true }) with
    cores := s1.cores.map (fun (k : Nat × Core) => if controlIn p q k.1 then (k.1, { k.2 with stopped := true }) else k)
    element := { s1.element with checks := p :: s1.element.checks, reports := (16 + p) :: s1.element.reports } }

/-- MACHINE_CHECK (R399). -/
def execMachineCheck (s : State) : Out :=
  match tget s.parts s.ev.part with
  | some q => if q.valid then .next (s.machineCheck s.ev.part q) else .fault .noSuchEvent
  | none => .fault .noSuchEvent

/-- PATROL_SCRUB: an error corrected (`flag`) is only counted; another one stops the partition (R399). -/
def execPatrolScrub (s : State) : Out :=
  if s.ev.flag then .next { s with element := { s.element with corrections := s.element.corrections + 1 } }
  else
    match tget s.parts s.ev.part with
    | some q => if q.valid then .next (s.machineCheck s.ev.part q) else .fault .noSuchEvent
    | none => .fault .noSuchEvent

/-! Links (R359, R361, R393). -/

/-- A packet of the package whose flits the next hop had not acknowledged as their port fell is resent by another port of its mask, or
dropped for want of one (R361). -/
def Fabric.resend (f : Fabric) (port : Nat) (p : Pkt) : Pkt :=
  if p.sent && !p.lost && !p.acked && p.port == some port then
    let q := f.route p.bank p
    { p with port := q, lost := q.isNone, again := p.cls == .ordered && q.isSome }
  else p

/-- The same of a packet passed on, which is gone where there is no other port (R361). -/
def Fabric.rehop (f : Fabric) (port : Nat) (h : Hop) : Option Hop :=
  if h.port == some port then
    let q := if h.cls = .ordered then f.orderedPort h.bank h.dest h.addr else (f.openPorts h.bank h.dest).head?
    match q with
    | some q => some { h with port := some q, again := h.cls == .ordered }
    | none => none
  else some h

/-- A port goes down: routing skips it, what had not got through goes another way, the package logs it, and a link-failure notice goes
to the pod (R361, R393). -/
def State.portDown (s : State) (port far : Nat) : State :=
  let f := { s.fabric with ports := s.fabric.ports &&& ~~~(1#16 <<< port), retries := s.fabric.retries.set port 0 }
  let gone := f.transit.filter (fun h => (f.rehop port h).isNone)
  let s1 := { s with
    fabric := { f with transit := f.transit.filterMap (f.rehop port) }, pkts := s.pkts.map (f.resend port) }
  ((gone.foldl (fun s h => s.refuseTo h.source) s1).logNotice 5 port s.pkg s.pkg).sendNotice 1 port far

/-- FLIT_CRC_FAIL: a flit fails and is resent; the retry corrects it, which is counted, or fails too where `flag` says so. The sixteenth
failed retry in a row takes the port down (R361, R399). -/
def execFlitCrcFail (s : State) : Out :=
  let p := s.ev.port
  if 16 ≤ p ∨ !s.fabric.ports.getLsbD p then .fault .noSuchEvent
  else if !s.ev.flag then
    .next { s with
      fabric := { s.fabric with retries := s.fabric.retries.set p 0 }
      element := { s.element with corrections := s.element.corrections + 1 } }
  else
    let n := s.fabric.retries.getD p 0 + 1
    if 16 ≤ n then .next (s.portDown p s.ev.named)
    else .next { s with fabric := { s.fabric with retries := s.fabric.retries.set p n } }

/-- LINK_DOWN: a port loses lock (R361). -/
def execLinkDown (s : State) : Out :=
  if 16 ≤ s.ev.port ∨ !s.fabric.ports.getLsbD s.ev.port then .fault .noSuchEvent else .next (s.portDown s.ev.port s.ev.named)

/-- PORT_UP (R393). -/
def execPortUp (s : State) : Out :=
  let p := s.ev.port
  if 16 ≤ p ∨ s.fabric.ports.getLsbD p then .fault .noSuchEvent
  else .next ({ s with fabric := { s.fabric with ports := s.fabric.ports ||| (1#16 <<< p) } }.logNotice 6 p s.pkg s.pkg)

/-- LINK_FAILURE_NOTICE (R361, R393). -/
def execLinkFailureNotice (s : State) : Out := .next (s.logNotice 1 (s.ev.port % 16) s.ev.sender s.ev.named)

/-- A packet of class ORDERED to a destination is held behind one that a link failure has sent another way (R361). -/
def State.heldBehind (s : State) (d : Nat) : Bool :=
  s.fabric.behind d || s.pkts.any (fun p => p.again && !p.acked && p.rpkg == d)

/-- Packets passed on that nothing holds any longer leave in their order, or are refused for want of a port (R361). -/
def State.passOn (s : State) (h : Hop) : State :=
  if h.port.isSome || s.heldBehind h.dest then s
  else
    match s.fabric.orderedPort h.bank h.dest h.addr with
    | some q =>
      { s with fabric := { s.fabric with
          transit := s.fabric.transit.map (fun (x : Hop) => if x.id = h.id then { x with port := some q } else x)
          hops := (h.dest, q) :: s.fabric.hops } }
    | none => { s with fabric := { s.fabric with transit := s.fabric.transit.filter (fun (x : Hop) => x.id != h.id) } }.refuseTo h.source

/-- The next hop has acknowledged the flits of a packet, which has left the package (R360, R361). -/
def State.hopAcked (s : State) (id : Nat) : Option State :=
  let on (s : State) : State := (s.fabric.transit.foldl State.passOn s).sendAll
  if s.pkts.any (fun p => p.id == id && p.sent && !p.lost && !p.acked) then
    some (on { s with pkts := s.pkts.map (fun (p : Pkt) => if p.id = id then { p with acked := true } else p) })
  else if s.fabric.transit.any (fun h => h.id == id && h.port.isSome) then
    some (on { s with fabric := { s.fabric with transit := s.fabric.transit.filter (fun (h : Hop) => h.id != id) } })
  else none

/-- PACKET_HOP: a packet for another package leaves by a port of its bank's entry (`flag`: the bank): by the hash for class
ORDERED, by any one (`port`) otherwise; with none it is dropped and refused. `flag2`: the next hop acknowledges the packet `id` (R359,
R361, log 31). -/
def execPacketHop (s : State) : Out :=
  let e := s.ev
  if e.flag2 then (match s.hopAcked e.id with | some s1 => .next s1 | none => .fault .noSuchEvent)
  else if e.named = s.pkg then .fault .noSuchEvent
  else
    let (id, s1) := s.fresh
    let l := s.fabric.openPorts e.flag e.named
    let go (port : Option Nat) : Out :=
      .next { s1 with fabric := { s.fabric with
        hops := (match port with | some q => (e.named, q) :: s.fabric.hops | none => s.fabric.hops)
        transit := s.fabric.transit ++ [⟨id, e.named, e.sender, e.cls, e.flag, e.addr, port, false⟩] } }
    if l.isEmpty then .next (s.refuseTo e.sender)
    else if e.cls = .ordered then go (if s.heldBehind e.named then none else s.fabric.orderedPort e.flag e.named e.addr)
    else if l.contains e.port then go (some e.port)
    else .fault .noSuchEvent

end Sys2Proof.Machine
end

