-- ==== Sys2Proof/Machine/Dispatch.lean ====
section
/-!
DEFINITION. The meaning of every instruction of the opcode table, one arm each.
-/

namespace Sys2Proof.Machine

def exec (i : Instr) (s : State) : Host.Outcome State Fault Refusal :=
  match i with
  | .add b a d => Sys2Proof.Machine.execAdd b a d s
  | .sub b a d => Sys2Proof.Machine.execSub b a d s
  | .mul b a d => Sys2Proof.Machine.execMul b a d s
  | .mulhu b a d => Sys2Proof.Machine.execMulhu b a d s
  | .mulhs b a d => Sys2Proof.Machine.execMulhs b a d s
  | .mad b a d => Sys2Proof.Machine.execMad b a d s
  | .and b a d => Sys2Proof.Machine.execAnd b a d s
  | .or b a d => Sys2Proof.Machine.execOr b a d s
  | .xor b a d => Sys2Proof.Machine.execXor b a d s
  | .andn b a d => Sys2Proof.Machine.execAndn b a d s
  | .shl b a d => Sys2Proof.Machine.execShl b a d s
  | .shru b a d => Sys2Proof.Machine.execShru b a d s
  | .shrs b a d => Sys2Proof.Machine.execShrs b a d s
  | .rotl b a d => Sys2Proof.Machine.execRotl b a d s
  | .addp b a d => Sys2Proof.Machine.execAddp b a d s
  | .sel b a d => Sys2Proof.Machine.execSel b a d s
  | .mins b a d => Sys2Proof.Machine.execMins b a d s
  | .minu b a d => Sys2Proof.Machine.execMinu b a d s
  | .maxs b a d => Sys2Proof.Machine.execMaxs b a d s
  | .maxu b a d => Sys2Proof.Machine.execMaxu b a d s
  | .clz a d => Sys2Proof.Machine.execClz a d s
  | .popc a d => Sys2Proof.Machine.execPopc a d s
  | .brev a d => Sys2Proof.Machine.execBrev a d s
  | .cmpeq b a d => Sys2Proof.Machine.execCmpeq b a d s
  | .cmpne b a d => Sys2Proof.Machine.execCmpne b a d s
  | .cmplts b a d => Sys2Proof.Machine.execCmplts b a d s
  | .cmpltu b a d => Sys2Proof.Machine.execCmpltu b a d s
  | .cmples b a d => Sys2Proof.Machine.execCmples b a d s
  | .cmpleu b a d => Sys2Proof.Machine.execCmpleu b a d s
  | .bfx b a d => Sys2Proof.Machine.execBfx b a d s
  | .bfi b a d => Sys2Proof.Machine.execBfi b a d s
  | .addi im a d => Sys2Proof.Machine.execAddi im a d s
  | .andi im a d => Sys2Proof.Machine.execAndi im a d s
  | .ori im a d => Sys2Proof.Machine.execOri im a d s
  | .xori im a d => Sys2Proof.Machine.execXori im a d s
  | .shli c a d => Sys2Proof.Machine.execShli c a d s
  | .shrui c a d => Sys2Proof.Machine.execShrui c a d s
  | .shrsi c a d => Sys2Proof.Machine.execShrsi c a d s
  | .rotli c a d => Sys2Proof.Machine.execRotli c a d s
  | .cmpeqi im a d => Sys2Proof.Machine.execCmpeqi im a d s
  | .cmpltsi im a d => Sys2Proof.Machine.execCmpltsi im a d s
  | .cmpltui im a d => Sys2Proof.Machine.execCmpltui im a d s
  | .cmpnei im a d => Sys2Proof.Machine.execCmpnei im a d s
  | .addpi im a d => Sys2Proof.Machine.execAddpi im a d s
  | .lui im d => Sys2Proof.Machine.execLui im d s
  | .auip im d => Sys2Proof.Machine.execAuip im d s
  | .movri a d => Sys2Proof.Machine.execMovri a d s
  | .movro a d => Sys2Proof.Machine.execMovro a d s
  | .mov16 sx d => Sys2Proof.Machine.execMov16 sx d s
  | .movi16 im d => Sys2Proof.Machine.execMovi16 im d s
  | .add16 sx d => Sys2Proof.Machine.execAdd16 sx d s
  | .addi16 im d => Sys2Proof.Machine.execAddi16 im d s
  | .sub16 sx d => Sys2Proof.Machine.execSub16 sx d s
  | .subi16 im d => Sys2Proof.Machine.execSubi16 im d s
  | .mul16 sx d => Sys2Proof.Machine.execMul16 sx d s
  | .muli16 im d => Sys2Proof.Machine.execMuli16 im d s
  | .and16 sx d => Sys2Proof.Machine.execAnd16 sx d s
  | .andi16 im d => Sys2Proof.Machine.execAndi16 im d s
  | .or16 sx d => Sys2Proof.Machine.execOr16 sx d s
  | .ori16 im d => Sys2Proof.Machine.execOri16 im d s
  | .xor16 sx d => Sys2Proof.Machine.execXor16 sx d s
  | .xori16 im d => Sys2Proof.Machine.execXori16 im d s
  | .shl16 sx d => Sys2Proof.Machine.execShl16 sx d s
  | .shli16 c d => Sys2Proof.Machine.execShli16 c d s
  | .shru16 sx d => Sys2Proof.Machine.execShru16 sx d s
  | .shrui16 c d => Sys2Proof.Machine.execShrui16 c d s
  | .shrs16 sx d => Sys2Proof.Machine.execShrs16 sx d s
  | .shrsi16 c d => Sys2Proof.Machine.execShrsi16 c d s
  | .mins16 sx d => Sys2Proof.Machine.execMins16 sx d s
  | .minsi16 im d => Sys2Proof.Machine.execMinsi16 im d s
  | .maxs16 sx d => Sys2Proof.Machine.execMaxs16 sx d s
  | .maxsi16 im d => Sys2Proof.Machine.execMaxsi16 im d s
  | .fadd16 sx d => Sys2Proof.Machine.execFadd16 sx d s
  | .fsub16 sx d => Sys2Proof.Machine.execFsub16 sx d s
  | .fmul16 sx d => Sys2Proof.Machine.execFmul16 sx d s
  | .fmax16 sx d => Sys2Proof.Machine.execFmax16 sx d s
  | .fadd b a d => Sys2Proof.Machine.execFadd b a d s
  | .fsub b a d => Sys2Proof.Machine.execFsub b a d s
  | .fmul b a d => Sys2Proof.Machine.execFmul b a d s
  | .ffma b a d => Sys2Proof.Machine.execFfma b a d s
  | .ffms b a d => Sys2Proof.Machine.execFfms b a d s
  | .fnfma b a d => Sys2Proof.Machine.execFnfma b a d s
  | .fmin b a d => Sys2Proof.Machine.execFmin b a d s
  | .fmax b a d => Sys2Proof.Machine.execFmax b a d s
  | .frnd a d => Sys2Proof.Machine.execFrnd a d s
  | .fcls a d => Sys2Proof.Machine.execFcls a d s
  | .fscalebB0 b a d => Sys2Proof.Machine.execFscalebB0 b a d s
  | .fscalebB1 b a d => Sys2Proof.Machine.execFscalebB1 b a d s
  | .fscalebB2 b a d => Sys2Proof.Machine.execFscalebB2 b a d s
  | .fscalebB3 b a d => Sys2Proof.Machine.execFscalebB3 b a d s
  | .fabs a d => Sys2Proof.Machine.execFabs a d s
  | .fneg a d => Sys2Proof.Machine.execFneg a d s
  | .fcmp cc sig b a d => Sys2Proof.Machine.execFcmp cc sig b a d s
  | .dcmp cc sig b a d => Sys2Proof.Machine.execDcmp cc sig b a d s
  | .dadd b a d => Sys2Proof.Machine.execDadd b a d s
  | .dsub b a d => Sys2Proof.Machine.execDsub b a d s
  | .dmul b a d => Sys2Proof.Machine.execDmul b a d s
  | .dfma b a d => Sys2Proof.Machine.execDfma b a d s
  | .dmin b a d => Sys2Proof.Machine.execDmin b a d s
  | .dmax b a d => Sys2Proof.Machine.execDmax b a d s
  | .drnd a d => Sys2Proof.Machine.execDrnd a d s
  | .dabs a d => Sys2Proof.Machine.execDabs a d s
  | .dneg a d => Sys2Proof.Machine.execDneg a d s
  | .hadd2 b a d => Sys2Proof.Machine.execHadd2 b a d s
  | .hsub2 b a d => Sys2Proof.Machine.execHsub2 b a d s
  | .hmul2 b a d => Sys2Proof.Machine.execHmul2 b a d s
  | .hfma2 b a d => Sys2Proof.Machine.execHfma2 b a d s
  | .hmin2 b a d => Sys2Proof.Machine.execHmin2 b a d s
  | .hmax2 b a d => Sys2Proof.Machine.execHmax2 b a d s
  | .badd2 b a d => Sys2Proof.Machine.execBadd2 b a d s
  | .bsub2 b a d => Sys2Proof.Machine.execBsub2 b a d s
  | .bmul2 b a d => Sys2Proof.Machine.execBmul2 b a d s
  | .bfma2 b a d => Sys2Proof.Machine.execBfma2 b a d s
  | .bmin2 b a d => Sys2Proof.Machine.execBmin2 b a d s
  | .bmax2 b a d => Sys2Proof.Machine.execBmax2 b a d s
  | .cvt t r c e a d => Sys2Proof.Machine.execCvt t r c e a d s
  | .dot8S8 b a d => Sys2Proof.Machine.execDot8S8 b a d s
  | .dot8U8 b a d => Sys2Proof.Machine.execDot8U8 b a d s
  | .dot8E4m3 b a d => Sys2Proof.Machine.execDot8E4m3 b a d s
  | .dot8E5m2 b a d => Sys2Proof.Machine.execDot8E5m2 b a d s
  | .dot4S4 b a d => Sys2Proof.Machine.execDot4S4 b a d s
  | .dot4E2m1 b a d => Sys2Proof.Machine.execDot4E2m1 b a d s
  | .frcp L a d => Sys2Proof.Machine.execFrcp L a d s
  | .frsq L a d => Sys2Proof.Machine.execFrsq L a d s
  | .fsqrt L a d => Sys2Proof.Machine.execFsqrt L a d s
  | .fexp2 L a d => Sys2Proof.Machine.execFexp2 L a d s
  | .flog2 L a d => Sys2Proof.Machine.execFlog2 L a d s
  | .fsin L a d => Sys2Proof.Machine.execFsin L a d s
  | .fcos L a d => Sys2Proof.Machine.execFcos L a d s
  | .ftanh L a d => Sys2Proof.Machine.execFtanh L a d s
  | .frcpCr r L a d => Sys2Proof.Machine.execFrcpCr r L a d s
  | .frsqCr r L a d => Sys2Proof.Machine.execFrsqCr r L a d s
  | .fsqrtCr r L a d => Sys2Proof.Machine.execFsqrtCr r L a d s
  | .drcp r L a d => Sys2Proof.Machine.execDrcp r L a d s
  | .drsq r L a d => Sys2Proof.Machine.execDrsq r L a d s
  | .dsqrt r L a d => Sys2Proof.Machine.execDsqrt r L a d s
  | .shfl b a d => Sys2Proof.Machine.execShfl b a d s
  | .shfllo b a d => Sys2Proof.Machine.execShfllo b a d s
  | .shflhi b a d => Sys2Proof.Machine.execShflhi b a d s
  | .shflx b a d => Sys2Proof.Machine.execShflx b a d s
  | .bcast b a d => Sys2Proof.Machine.execBcast b a d s
  | .voteAny a d => Sys2Proof.Machine.execVoteAny a d s
  | .voteAll a d => Sys2Proof.Machine.execVoteAll a d s
  | .voteBal a d => Sys2Proof.Machine.execVoteBal a d s
  | .matchB a d => Sys2Proof.Machine.execMatchB a d s
  | .matchF a d => Sys2Proof.Machine.execMatchF a d s
  | .redwAdd a d => Sys2Proof.Machine.execRedwAdd a d s
  | .redwMin a d => Sys2Proof.Machine.execRedwMin a d s
  | .redwMax a d => Sys2Proof.Machine.execRedwMax a d s
  | .scanwAdd a d => Sys2Proof.Machine.execScanwAdd a d s
  | .tilep sx d => Sys2Proof.Machine.execTilep sx d s
  | .qswpH a d => Sys2Proof.Machine.execQswpH a d s
  | .qswpV a d => Sys2Proof.Machine.execQswpV a d s
  | .qswpD a d => Sys2Proof.Machine.execQswpD a d s
  | .qbcast n a d => Sys2Proof.Machine.execQbcast n a d s
  | .qredAdd a d => Sys2Proof.Machine.execQredAdd a d s
  | .qredMin a d => Sys2Proof.Machine.execQredMin a d s
  | .qredMax a d => Sys2Proof.Machine.execQredMax a d s
  | .fredwAdd a d => Sys2Proof.Machine.execFredwAdd a d s
  | .fredwMin a d => Sys2Proof.Machine.execFredwMin a d s
  | .fredwMax a d => Sys2Proof.Machine.execFredwMax a d s
  | .tmclr L d => Sys2Proof.Machine.execTmclr L d s
  | .tment L a d => Sys2Proof.Machine.execTment L a d s
  | .tmacc L a d => Sys2Proof.Machine.execTmacc L a d s
  | .tmmrg L a d => Sys2Proof.Machine.execTmmrg L a d s
  | .tmredw L d => Sys2Proof.Machine.execTmredw L d s
  | .tmexit L a d => Sys2Proof.Machine.execTmexit L a d s
  | .tmld L sx a d => Sys2Proof.Machine.execTmld L sx a d s
  | .ld o k L z a d => Sys2Proof.Machine.execLd o k L z a d s
  | .st o k L z a d => Sys2Proof.Machine.execSt o k L z a d s
  | .lds L z a d => Sys2Proof.Machine.execLds L z a d s
  | .ldsSync L a d => Sys2Proof.Machine.execLdsSync L a d s
  | .ldsPeek L a d => Sys2Proof.Machine.execLdsPeek L a d s
  | .sts L z a d => Sys2Proof.Machine.execSts L z a d s
  | .stsSync L a d => Sys2Proof.Machine.execStsSync L a d s
  | .stsFill L a d => Sys2Proof.Machine.execStsFill L a d s
  | .stsEmpty L a => Sys2Proof.Machine.execStsEmpty L a s
  | .ldx h L sx a d => Sys2Proof.Machine.execLdx h L sx a d s
  | .stx h L sx a d => Sys2Proof.Machine.execStx h L sx a d s
  | .pref k a => Sys2Proof.Machine.execPref k a s
  | .fence e k sx => Sys2Proof.Machine.execFence e k sx s
  | .waita o k z a d => Sys2Proof.Machine.execWaita o k z a d s
  | .bsig b a => Sys2Proof.Machine.execBsig b a s
  | .bwait b a => Sys2Proof.Machine.execBwait b a s
  | .brdc a d => Sys2Proof.Machine.execBrdc a d s
  | .waitc c n => Sys2Proof.Machine.execWaitc c n s
  | .atom L ar sc o a d => Sys2Proof.Machine.execAtom L ar sc o a d s
  | .red L sat cn fz o a d => Sys2Proof.Machine.execRed L sat cn fz o a d s
  | .redTm L a d => Sys2Proof.Machine.execRedTm L a d s
  | .atoms L ar sc o a d => Sys2Proof.Machine.execAtoms L ar sc o a d s
  | .bra d => Sys2Proof.Machine.execBra d s
  | .bz d p => Sys2Proof.Machine.execBz d p s
  | .bnz d p => Sys2Proof.Machine.execBnz d p s
  | .call im d => Sys2Proof.Machine.execCall im d s
  | .ret a => Sys2Proof.Machine.execRet a s
  | .jtab b a => Sys2Proof.Machine.execJtab b a s
  | .callt b a d => Sys2Proof.Machine.execCallt b a d s
  | .trap a => Sys2Proof.Machine.execTrap a s
  | .lpad l => Sys2Proof.Machine.execLpad l s
  | .meet im d => Sys2Proof.Machine.execMeet im d s
  | .gcall n => Sys2Proof.Machine.execGcall n s
  | .timei d => Sys2Proof.Machine.execTimei d s
  | .commitw a => Sys2Proof.Machine.execCommitw a s
  | .stst L a d => Sys2Proof.Machine.execStst L a d s
  | .ldat L a d => Sys2Proof.Machine.execLdat L a d s
  | .cpy L a d => Sys2Proof.Machine.execCpy L a d s
  | .cpytIn L a d => Sys2Proof.Machine.execCpytIn L a d s
  | .cpytOut L a d => Sys2Proof.Machine.execCpytOut L a d s
  | .halo L a d => Sys2Proof.Machine.execHalo L a d s
  | .wstr L sx a d => Sys2Proof.Machine.execWstr L sx a d s
  | .wget L sx a d => Sys2Proof.Machine.execWget L sx a d s
  | .wcnt L c a d => Sys2Proof.Machine.execWcnt L c a d s
  | .wwait q c a d => Sys2Proof.Machine.execWwait q c a d s
  | .mloop L sx a d => Sys2Proof.Machine.execMloop L sx a d s
  | .mldb L a d => Sys2Proof.Machine.execMldb L a d s
  | .mrd L t a d => Sys2Proof.Machine.execMrd L t a d s
  | .mwm L t d => Sys2Proof.Machine.execMwm L t d s
  | .mzero L t => Sys2Proof.Machine.execMzero L t s
  | .mrel L t => Sys2Proof.Machine.execMrel L t s
  | .rndm b a d => Sys2Proof.Machine.execRndm b a d s
  | .srd r d => Sys2Proof.Machine.execSrd r d s
  | .swr r d => Sys2Proof.Machine.execSwr r d s
  | .tlbinv b a => Sys2Proof.Machine.execTlbinv b a s
  | .rotinv b a => Sys2Proof.Machine.execRotinv b a s
  | .cmpman a d => Sys2Proof.Machine.execCmpman a d s
  | .lnch a d => Sys2Proof.Machine.execLnch a d s
  | .chkpTake a d => Sys2Proof.Machine.execChkpTake a d s
  | .chkpPreempt a d => Sys2Proof.Machine.execChkpPreempt a d s
  | .chkpResume a d => Sys2Proof.Machine.execChkpResume a d s
  | .halt a => Sys2Proof.Machine.execHalt a s
  | .icinv b a => Sys2Proof.Machine.execIcinv b a s
  | .tlrwRd n d => Sys2Proof.Machine.execTlrwRd n d s
  | .tlrwWr n d => Sys2Proof.Machine.execTlrwWr n d s
  | .repPfx sx x y z c => Sys2Proof.Machine.execRepPfx sx x y z c s
  | .modPfx f z u r o p q e => Sys2Proof.Machine.execModPfx f z u r o p q e s
  | .divs b a d => Sys2Proof.Machine.execDivs b a d s
  | .divu b a d => Sys2Proof.Machine.execDivu b a d s
  | .rems b a d => Sys2Proof.Machine.execRems b a d s
  | .remu b a d => Sys2Proof.Machine.execRemu b a d s
  | .byteperm b a d => Sys2Proof.Machine.execByteperm b a d s
  | .ldc32 L a d => Sys2Proof.Machine.execLdc32 L a d s
  | .sfuComplete => Sys2Proof.Machine.execSfuComplete s
  | .wfence => Sys2Proof.Machine.execWfence s
  | .tmldApply => Sys2Proof.Machine.execTmldApply s
  | .loadReturn => Sys2Proof.Machine.execLoadReturn s
  | .monitorTimeout => Sys2Proof.Machine.execMonitorTimeout s
  | .syncb => Sys2Proof.Machine.execSyncb s
  | .atomReturn => Sys2Proof.Machine.execAtomReturn s
  | .exit => Sys2Proof.Machine.execExit s
  | .yield => Sys2Proof.Machine.execYield s
  | .nop => Sys2Proof.Machine.execNop s
  | .brk => Sys2Proof.Machine.execBrk s
  | .gret => Sys2Proof.Machine.execGret s
  | .matrixPass => Sys2Proof.Machine.execMatrixPass s
  | .mldbComplete => Sys2Proof.Machine.execMldbComplete s
  | .mloopComplete => Sys2Proof.Machine.execMloopComplete s
  | .matrixFault => Sys2Proof.Machine.execMatrixFault s
  | .eret0 => Sys2Proof.Machine.execEret0 s
  | .eret1 => Sys2Proof.Machine.execEret1 s
  | .xlock => Sys2Proof.Machine.execXlock s
  | .xunlk => Sys2Proof.Machine.execXunlk s
  | .tfence => Sys2Proof.Machine.execTfence s
  | .barsync => Sys2Proof.Machine.execBarsync s
  | .bundleRegroup => Sys2Proof.Machine.execBundleRegroup s
  | .fpxWindowEnd => Sys2Proof.Machine.execFpxWindowEnd s
  | .userTrapDelivery => Sys2Proof.Machine.execUserTrapDelivery s
  | .faultRecordPost => Sys2Proof.Machine.execFaultRecordPost s
  | .pageWalkComplete => Sys2Proof.Machine.execPageWalkComplete s
  | .tstatResume => Sys2Proof.Machine.execTstatResume s
  | .tstatSkip => Sys2Proof.Machine.execTstatSkip s
  | .tstatDeliver => Sys2Proof.Machine.execTstatDeliver s
  | .tstatEndLaunch => Sys2Proof.Machine.execTstatEndLaunch s
  | .fqheadWrite => Sys2Proof.Machine.execFqheadWrite s
  | .fqsizeWrite => Sys2Proof.Machine.execFqsizeWrite s
  | .meetvWrite => Sys2Proof.Machine.execMeetvWrite s
  | .dpartWrite => Sys2Proof.Machine.execDpartWrite s
  | .partcfgWrite => Sys2Proof.Machine.execPartcfgWrite s
  | .eothiWrite => Sys2Proof.Machine.execEothiWrite s
  | .epsmaxsetWrite => Sys2Proof.Machine.execEpsmaxsetWrite s
  | .dlvbsetWrite => Sys2Proof.Machine.execDlvbsetWrite s
  | .migctlSwitch => Sys2Proof.Machine.execMigctlSwitch s
  | .registerWrite => Sys2Proof.Machine.execRegisterWrite s
  | .asyncFlagArrival => Sys2Proof.Machine.execAsyncFlagArrival s
  | .dirtyLineWriteback => Sys2Proof.Machine.execDirtyLineWriteback s
  | .homeApply => Sys2Proof.Machine.execHomeApply s
  | .vatApply => Sys2Proof.Machine.execVatApply s
  | .routerMerge => Sys2Proof.Machine.execRouterMerge s
  | .dualBackgroundCopy => Sys2Proof.Machine.execDualBackgroundCopy s
  | .dispatchPlace => Sys2Proof.Machine.execDispatchPlace s
  | .warpEnd => Sys2Proof.Machine.execWarpEnd s
  | .launchComplete => Sys2Proof.Machine.execLaunchComplete s
  | .serialUnitStart => Sys2Proof.Machine.execSerialUnitStart s
  | .serialStall => Sys2Proof.Machine.execSerialStall s
  | .checkpointDue => Sys2Proof.Machine.execCheckpointDue s
  | .checkpointSave => Sys2Proof.Machine.execCheckpointSave s
  | .preemptRollback => Sys2Proof.Machine.execPreemptRollback s
  | .preemptDrain => Sys2Proof.Machine.execPreemptDrain s
  | .copyEngineStart => Sys2Proof.Machine.execCopyEngineStart s
  | .budgetSuspend => Sys2Proof.Machine.execBudgetSuspend s
  | .priorityTakeover => Sys2Proof.Machine.execPriorityTakeover s
  | .budgetRefill => Sys2Proof.Machine.execBudgetRefill s
  | .copyComplete => Sys2Proof.Machine.execCopyComplete s
  | .enginePageFault => Sys2Proof.Machine.execEnginePageFault s
  | .timeBeatSend => Sys2Proof.Machine.execTimeBeatSend s
  | .timeBeatReceive => Sys2Proof.Machine.execTimeBeatReceive s
  | .referenceLock => Sys2Proof.Machine.execReferenceLock s
  | .deckleFail => Sys2Proof.Machine.execDeckleFail s
  | .neighbourSilence => Sys2Proof.Machine.execNeighbourSilence s
  | .timeExclusionNotice => Sys2Proof.Machine.execTimeExclusionNotice s
  | .rejoin => Sys2Proof.Machine.execRejoin s
  | .rejoinNotice => Sys2Proof.Machine.execRejoinNotice s
  | .paramNotice => Sys2Proof.Machine.execParamNotice s
  | .paramSwitch => Sys2Proof.Machine.execParamSwitch s
  | .ststHoldEnd => Sys2Proof.Machine.execStstHoldEnd s
  | .stampedArrival => Sys2Proof.Machine.execStampedArrival s
  | .ldatServe => Sys2Proof.Machine.execLdatServe s
  | .windowRequestArrival => Sys2Proof.Machine.execWindowRequestArrival s
  | .windowRefusal => Sys2Proof.Machine.execWindowRefusal s
  | .windowAck => Sys2Proof.Machine.execWindowAck s
  | .windowReadReturn => Sys2Proof.Machine.execWindowReadReturn s
  | .flitCrcFail => Sys2Proof.Machine.execFlitCrcFail s
  | .linkDown => Sys2Proof.Machine.execLinkDown s
  | .portUp => Sys2Proof.Machine.execPortUp s
  | .linkFailureNotice => Sys2Proof.Machine.execLinkFailureNotice s
  | .hostMailboxWrite => Sys2Proof.Machine.execHostMailboxWrite s
  | .hostRead => Sys2Proof.Machine.execHostRead s
  | .powerOnBoot => Sys2Proof.Machine.execPowerOnBoot s
  | .partitionImageStart => Sys2Proof.Machine.execPartitionImageStart s
  | .quote => Sys2Proof.Machine.execQuote s
  | .manifest => Sys2Proof.Machine.execManifest s
  | .rtread => Sys2Proof.Machine.execRtread s
  | .rtwrite => Sys2Proof.Machine.execRtwrite s
  | .rtflip => Sys2Proof.Machine.execRtflip s
  | .fabstat => Sys2Proof.Machine.execFabstat s
  | .notices => Sys2Proof.Machine.execNotices s
  | .maintopen => Sys2Proof.Machine.execMaintopen s
  | .maintclose => Sys2Proof.Machine.execMaintclose s
  | .reqUnknownCommand => Sys2Proof.Machine.execReqUnknownCommand s
  | .partitionSleep => Sys2Proof.Machine.execPartitionSleep s
  | .partitionWakeEvent => Sys2Proof.Machine.execPartitionWakeEvent s
  | .wakeComplete => Sys2Proof.Machine.execWakeComplete s
  | .powerGovernor => Sys2Proof.Machine.execPowerGovernor s
  | .marginLow => Sys2Proof.Machine.execMarginLow s
  | .patrolScrub => Sys2Proof.Machine.execPatrolScrub s
  | .machineCheck => Sys2Proof.Machine.execMachineCheck s
  | .illegalEncoding => Sys2Proof.Machine.execIllegalEncoding s
  | .fetchPageFault => Sys2Proof.Machine.execFetchPageFault s
  | .deckleTick => Sys2Proof.Machine.execDeckleTick s
  | .servoCandidate => Sys2Proof.Machine.execServoCandidate s
  | .stampedStoreOutcome => Sys2Proof.Machine.execStampedStoreOutcome s
  | .tmResultWritten => Sys2Proof.Machine.execTmResultWritten s
  | .fqbaseWrite => Sys2Proof.Machine.execFqbaseWrite s
  | .packetHop => Sys2Proof.Machine.execPacketHop s

end Sys2Proof.Machine
end

