-- ==== Sys2Proof/Machine/Issue.lean ====
section
/-!
DEFINITION. Which bundle issues (R57, R58, R231, R232), the fetch and decoding of its unit word by word (R19–R21, R36), and who acts
where no turn is laid down (log 4).
-/

namespace Sys2Proof.Machine

/-! Choosing a bundle (R232). -/

/-- A bundle is ready: its lanes run, none parked or waiting (R58). -/
def Warp.ready (w : Warp) (b : Bundle) : Bool :=
  let l := w.lanes b.mask
  !l.isEmpty && l.all (fun p => !p.2.exited && p.2.wait == .run && !p.2.parked)

/-- The instructions that close the windows of their thread (R34). -/
def closesWindows : Instr → Bool
  | .srd r _ => decide (0x00F < r.toNat)
  | .call .. | .callt .. | .jtab .. | .ret .. | .lpad .. | .meet .. | .exit | .yield | .nop | .brk | .trap .. | .gcall .. | .gret
  | .fence .. | .syncb | .barsync | .brdc .. | .bsig .. | .bwait .. | .waita .. | .waitc .. | .commitw .. | .swr ..
  | .chkpTake .. | .chkpPreempt .. | .chkpResume .. | .cmpman .. | .eret0 .. | .eret1 .. | .halt .. | .icinv .. | .lnch ..
  | .rotinv .. | .tfence .. | .tlbinv .. | .xlock .. | .xunlk ..
  | .divs .. | .divu .. | .rems .. | .remu .. | .byteperm .. | .ldc32 .. => true
  | _ => false

/-- The instruction at an offset, past prefixes, closes windows. -/
def State.closerAt (s : State) (c : Nat) (w : Warp) : Nat → Nat → Bool
  | 0, _ => false
  | n + 1, off =>
    match s.fetchWord c w off with
    | .ok (b, _) =>
      (match decode b with
        | .ok (.repPfx .., _) | .ok (.modPfx .., _) => s.closerAt c w n (off + 4)
        | .ok (i, _) => closesWindows i
        | .error _ => false)
    | .error _ => false

/-- The next instruction of a bundle waits for a window of one of its lanes: it is its instruction L + 1, or it closes windows (R33, R34,
R58). -/
def State.windowWaits (s : State) (c : Nat) (w : Warp) (b : Bundle) : Bool :=
  match (w.lanes b.mask).filter (fun p => p.2.windows.any (fun x => s.open_ x.ids)) with
  | [] => false
  | (l, t) :: rest =>
    ((l, t) :: rest).any (fun p => p.2.windows.any (fun x => (x.left == 0 || x.strict) && s.open_ x.ids)) ||
      s.closerAt c w 3 t.pc.toNat

/-- A warp may issue: it is not suspended, it holds no undelivered report, and none of its slots is stopped (R87, R257, R260,
R296). -/
def Core.mayIssue (k : Core) (w : Warp) : Bool := w.susp.isNone && w.pendingTraps.isEmpty && k.openTo w

/-- The ready bundles of a partition of a core, with their warp slots and warps. Outside every partition only the hypervisor runs
(R275, R288). -/
def State.readyIn (s : State) (c p : Nat) : List (Nat × Warp × Bundle) :=
  let k := s.core c
  let held := (s.partOf c).isSome
  if k.stopped || k.halted.isSome then []
  else
    (k.warps.filter (fun x => x.1 % 4 == p && k.mayIssue x.2 && (held || x.2.level == .hypervisor))).flatMap (fun x =>
      (x.2.bundles.filter x.2.ready).map (fun b => (x.1, x.2, b)))

/-- A bundle passed over after YIELD is no candidate while its domain slot has another (R144, R232). -/
def dropYielded (now : Nat) (l : List (Nat × Warp × Bundle)) : List (Nat × Warp × Bundle) :=
  let fresh (x : Nat × Warp × Bundle) : Bool := decide (x.2.2.yield ≤ now)
  l.filter (fun x => fresh x || !l.any (fun y => y.2.1.homeSlot == x.2.1.homeSlot && fresh y))

/-- The place of domain slot d of partition p in a core's lists. -/
def shareAt (p d : Nat) : Nat := 4 * p + d

/-- Domain slots with a quantum and a ready bundle. -/
def Core.candidates (k : Core) (p : Nat) (l : List (Nat × Warp × Bundle)) : List Nat :=
  [0, 1, 2, 3].filter (fun d => decide (0 < k.share.getD (shareAt p d) 0) && l.any (fun x => x.2.1.homeSlot == d))

/-- The deficit of a domain slot. -/
def Core.deficitOf (k : Core) (p d : Nat) : Int := k.deficit.getD (shareAt p d) 0

/-- A new round: the quanta written meanwhile come into force, and deficits grow (R231, R232). -/
def Core.newRound (k : Core) (p : Nat) (l : List (Nat × Warp × Bundle)) : Core :=
  let k1 := [0, 1, 2, 3].foldl (fun (k : Core) d =>
    { k with share := k.share.set (shareAt p d) (min 16 (k.ishare.getD d 0).toNat) }) k
  let cand := k1.candidates p l
  [0, 1, 2, 3].foldl (fun (k : Core) d =>
    let q : Int := (k.share.getD (shareAt p d) 0 : Nat)
    { k with deficit := k.deficit.set (shareAt p d) (min ((if cand.contains d then k.deficitOf p d + q else 0)) q) }) k1

/-- Slot d goes before slot e: the larger deficit, then the longer wait since its last issue, then the lower number (R232). -/
def Core.slotBefore (k : Core) (p d e : Nat) : Bool :=
  let last (x : Nat) : Nat := k.lastIssue.getD (shareAt p x) 0
  decide (k.deficitOf p e < k.deficitOf p d) ||
    (k.deficitOf p d == k.deficitOf p e && (decide (last d < last e) || (last d == last e && decide (d < e))))

/-- The slot that goes first. -/
def Core.firstSlot (k : Core) (p : Nat) : List Nat → Option Nat
  | [] => none
  | d :: l =>
    match k.firstSlot p l with
    | some e => if k.slotBefore p e d then some e else some d
    | none => some d

/-- The lowest lane of a mask. -/
def lowLane (m : Mask) : Nat := ((List.range 32).find? (laneIn m)).getD 32

/-- A bundle goes before another: ready longer, then the older admission, then the lowest lane (R232). Two warps of
one block with the same lowest lane are equal in it (log 76). -/
def bundleBefore (x y : Nat × Warp × Bundle) : Bool :=
  decide (x.2.2.since < y.2.2.since) || (x.2.2.since == y.2.2.since &&
    (decide (x.2.1.admitted < y.2.1.admitted) || (x.2.1.admitted == y.2.1.admitted && decide (lowLane x.2.2.mask < lowLane y.2.2.mask))))

/-- The bundle that goes first; of two that `bundleBefore` leaves equal, that of the lower warp slot (log 76). -/
def firstBundle : List (Nat × Warp × Bundle) → Option (Nat × Warp × Bundle)
  | [] => none
  | x :: l =>
    match firstBundle l with
    | some y => if bundleBefore y x then some y else some x
    | none => some x

/-- The choice of R232 in partition p of core c, and the core with the deficits of the round. -/
def State.pick (s : State) (c p : Nat) : Option (Nat × Mask × Core) :=
  let l := dropYielded s.cycle (s.readyIn c p)
  let k := s.core c
  let k1 := if (k.candidates p l).all (fun d => decide (k.deficitOf p d ≤ 0)) then k.newRound p l else k
  match k1.firstSlot p (k1.candidates p l) with
  | some d => (firstBundle (l.filter (fun x => x.2.1.homeSlot == d))).map (fun x => (x.1, x.2.2.mask, k1))
  | none => none

/-- Bundles that would wait for a window are not ready: their lanes wait until its results have come (R58, R232). -/
def State.holdWaiting (s : State) (c p : Nat) : State :=
  (s.readyIn c p).foldl (fun s x =>
    if s.windowWaits c x.2.1 x.2.2 then
      s.modWarpAt c x.1 (fun w => w.mapLanes x.2.2.mask (fun _ t => { t with wait := .pend }))
    else s) s

/-- A cycle of a partition of a core without a candidate: a new round, in which nothing gains (R232). -/
def State.idleRound (s : State) (c p : Nat) : State := s.modCore c (fun k => k.newRound p (dropYielded s.cycle (s.readyIn c p)))

/-- The rounds of all partitions of cores in which nothing can issue. -/
def State.idleRounds (s : State) : State :=
  s.cores.foldl (fun s k => [0, 1, 2, 3].foldl (fun s p =>
    let s1 := s.holdWaiting k.1 p
    if (s1.pick k.1 p).isNone then s1.idleRound k.1 p else s1) s) s

/-- The chosen bundle begins a unit. -/
def State.grant (s0 : State) (c p : Nat) : Option State :=
  let s := s0.holdWaiting c p
  (s.pick c p).map (fun x =>
    { s.modCore c (fun _ => x.2.2) with cur := ⟨c, x.1, x.2.1, 0, none, none, 0, 0, []⟩ })

/-! Fetch and decoding. -/

/-- What a fetch finds: an instruction and its length in bytes, a word that names nothing with the place in its unit where the
fault lies, or no word (R19, R20, R36, R43). -/
inductive Fetched where
  | word (i : Instr) (len : Nat)
  | illegal (off : Nat)
  | missing (c : Cause) (addr : Nat)
  deriving DecidableEq, Repr

/-- Where in its unit the fault of a word that names nothing lies: at the unit's first word; for a word of a prefix's major at the
prefix that breaks a rule, which is the word itself, or the MOD that stands before a REP (R36, R43, log 51). -/
def Cur.faultOff (c : Cur) (b : List Byte) : Nat :=
  let m := field (wordOf b) 6 0
  if m = 0x79 then (if c.mod.isSome then c.off - 4 else c.off) else if m = 0x7B then c.off else 0

/-- The word of the issuing bundle's unit that is next. -/
def State.fetchNext (s : State) : Fetched × State :=
  match s.warp?, s.active with
  | some w, (_, t) :: _ =>
    match s.fetchWord s.cur.core w (t.pc.toNat + s.cur.off) with
    | .ok (b, s1) =>
      (match decode b with
        | .ok (i, _) => .word i b.length
        | .error _ => .illegal (s.cur.faultOff b), s1)
    | .error (c, a) => (.missing c a, s)
  | _, _ => (.illegal 0, s)

/-- Executes the next word of the issuing bundle's unit. -/
def State.runUnit (s : State) : Out :=
  match s.fetchNext with
  | (.word i n, s1) => exec i { s1 with cur := { s1.cur with len := n } }
  | (.illegal off, s1) => exec .illegalEncoding { s1 with cur := { s1.cur with faultAddr := off } }
  | (.missing .page a, s1) => exec .fetchPageFault { s1 with cur := { s1.cur with faultAddr := a } }
  | (.missing c a, s1) => .next (s1.fault c s1.firstLane (BitVec.ofNat 32 a) (BitVec.ofNat 32 (a / 2 ^ 32)))

/-! Turns that nobody has laid down (log 4). -/

/-- Event data for one warp, lane and operation. -/
def dueWarp (c slot lane id : Nat) : EventData := { EventData.none with core := c, slot := slot, lane := lane, id := id }

/-- Operations whose results can arrive. -/
def State.dueResults (s : State) : List (Instr × EventData) :=
  s.pend.flatMap (fun p =>
    let e := dueWarp p.core p.slot 0 p.id
    match p.kind with
    | .result .load _ | .result .mrd _ => [(Instr.loadReturn, e)]
    | .result .atom _ => [(Instr.atomReturn, e)]
    | .result .sfu _ => [(Instr.sfuComplete, e)]
    | .result .tm _ => [(Instr.tmResultWritten, e)]
    | .result .window _ => [(Instr.windowReadReturn, e)]
    | .access _ false _ _ => [(Instr.pageWalkComplete, e)]
    | .ldat lanes _ _ => lanes.map (fun x => (Instr.ldatServe, dueWarp p.core p.slot x.lane p.id))
    | _ => [])

/-- An event with its data. -/
abbrev Due := Instr × EventData

/-- Requests and flags on their way, and stamped stores held. -/
def State.dueTraffic (s : State) : List Due :=
  let reqs : List Due := s.reqs.flatMap (fun r => [(Instr.homeApply, dueWarp 0 0 0 r.id), (Instr.vatApply, dueWarp 0 0 0 r.id)])
  let flags : List Due := s.flagMsgs.map (fun f => (Instr.asyncFlagArrival, dueWarp f.1 f.2.1 f.2.2.1 0))
  let holds : List Due := s.holds.map (fun h =>
    if h.left_ then (Instr.stampedArrival, { EventData.none with sender := s.pkg, num := h.stamp })
    else (Instr.ststHoldEnd, dueWarp h.core h.slot h.lane h.id))
  let lost : List Due := (s.pkts.filter (·.lost)).flatMap (fun p =>
    let e : EventData := dueWarp p.core p.slot p.lane p.id
    [(Instr.windowRefusal, e), (Instr.stampedStoreOutcome, { e with outcome := .dropped })])
  reqs ++ (flags ++ (holds ++ lost))

/-- Engines with something to do. -/
def State.dueEngines (s : State) : List Due :=
  let matrix : List Due := s.clusters.flatMap (fun k =>
    let e : EventData := { EventData.none with cluster := k.1 }
    let ends : List Due := k.2.table.flatMap (fun m =>
      let em : EventData := { e with id := m.id }
      [(Instr.mldbComplete, em), (Instr.mloopComplete, em)])
    ends ++ [(Instr.matrixPass, { e with id := s.nextId }), (Instr.matrixFault, e)])
  let loads : List Due := s.loads.map (fun l => (Instr.tmldApply, dueWarp l.core l.slot 0 l.id))
  let copies : List Due := s.copies.flatMap (fun c =>
    let e : EventData := { EventData.none with id := c.id, part := c.part, engine := c.engine.getD 0, units := 1, clocks := 1 }
    [(Instr.copyComplete, { e with units := 0 }), (Instr.enginePageFault, { e with units := 0 }), (Instr.copyEngineStart, e),
      (Instr.budgetSuspend, { e with units := 0, clocks := 0 })])
  matrix ++ (loads ++ copies)

/-- What a warp is due: the end of a window of FPX stops with its interval of four cycles, a report, or its end (R87). -/
def dueOfWarp (cycle core slot : Nat) (w : Warp) : List Due :=
  let e := { dueWarp core slot 0 0 with part := w.part }
  let fpx : List Due := if w.collecting && cycle % 4 == 0 then [(Instr.fpxWindowEnd, e)] else []
  let traps : List Due := if w.pendingTraps.isEmpty then [] else [(Instr.userTrapDelivery, e), (Instr.faultRecordPost, e)]
  let ends : List Due := if w.running.isEmpty then [(Instr.warpEnd, e)] else []
  fpx ++ (traps ++ ends)

/-- What every warp is due. -/
def State.dueWarps (s : State) : List Due := s.cores.flatMap (fun k => k.2.warps.flatMap (fun w => dueOfWarp s.cycle k.1 w.1 w.2))

/-- Launches, domains and partitions with something to do. -/
def State.dueWork (s : State) : List Due :=
  let launches : List Due := s.launches.flatMap (fun l =>
    let e : EventData := { EventData.none with launch := l.1, part := l.2.part }
    if l.2.phase = .finished then []
    else [(Instr.launchComplete, e), (Instr.serialUnitStart, e), (Instr.serialStall, e), (Instr.dispatchPlace, e)])
  let domains : List Due := s.domains.flatMap (fun d =>
    let e : EventData := { EventData.none with part := d.1 / 65536, did := d.1 % 65536 }
    [(Instr.checkpointSave, e), (Instr.preemptRollback, e), (Instr.preemptDrain, e), (Instr.checkpointDue, e)])
  let parts : List Due := s.parts.flatMap (fun p =>
    let e : EventData := { EventData.none with part := p.1 }
    if p.2.waking then [(Instr.wakeComplete, e)] else if p.2.heldRecs.isEmpty then [] else [(Instr.faultRecordPost, e)])
  launches ++ (domains ++ parts)

/-- The first event that can occur. -/
def State.firstDue (s : State) : List (Instr × EventData) → Option State
  | [] => none
  | (i, e) :: l =>
    match exec i { s with ev := e } with
    | .next s1 => some s1
    | _ => s.firstDue l

/-- A partition of a core with a ready bundle, by how long it has been ready. -/
def State.readyPlaces (s : State) : List ((Nat × Nat) × Nat) :=
  s.cores.flatMap (fun k => [0, 1, 2, 3].filterMap (fun p =>
    match firstBundle (s.readyIn k.1 p) with
    | some x => if (s.pick k.1 p).isSome then some ((k.1, p), x.2.2.since) else none
    | none => none))

/-- Where nothing is laid down: what is due occurs; else the bundle that has been ready longest issues, after a regrouping every
fourth cycle; else, and at every 64th cycle, the oscillator ticks. -/
def State.runDefault (s : State) : Out :=
  match s.firstDue (s.dueResults ++ (s.dueTraffic ++ (s.dueEngines ++ (s.dueWarps ++ s.dueWork)))) with
  | some s1 => .next s1
  | none =>
    let s := s.idleRounds
    match leastBy (·.2) s.readyPlaces with
    | some ((c, p), _) =>
      let s1 := if s.cycle % 4 = 0 then
          s.modCore c (fun k => { k with warps := k.warps.map (fun (w : Nat × Warp) =>
            (w.1, w.2.regroup)) })
        else s
      let s2 := if s.cycle % 64 = 63 then (match exec .deckleTick s1 with | .next x => x | _ => s1) else s1
      match s2.grant c p with
      | some s3 => s3.runUnit
      | none => .next s2
    | none => exec .deckleTick { s with cycle := s.cycle + 1 }

/-- A turn is taken: an event occurs, or a partition of a core issues; where nothing is ready its cycle passes. -/
def State.takeTurn (s : State) (t : Turn) : Out :=
  match t with
  | .event i e => if i.isEvent then exec i { s with ev := e } else .fault .noSuchEvent
  | .issue c p =>
    match s.grant c p with
    | some s1 => s1.runUnit
    | none => .next ((s.holdWaiting c p).idleRound c p)

/-! Laying down one instruction. -/

/-- A live lane at offset 0 whose registers are zero. -/
def probeThread : Thread where
  helper := false
  exited := false
  pc := 0
  meetv := 0xFFFFFFFF
  rem := 0
  regs := List.replicate 128 0
  fpmode := 0
  fpflags := 0
  excmask := 0
  tmctl := 0
  tmshape := 0x3F800000
  lstamp := 0
  acq := false
  windows := []
  repIds := []
  repDests := []
  wait := .run
  syncs := 0
  arrived := false
  pflags := 0

/-- A warp of one live lane at user level, at offset 0 of a code segment at address 0. -/
def probeWarp : Warp where
  threads := [(0, probeThread)]
  bundles := [⟨1, 0, 0⟩]
  block := 0
  index := 0
  part := 0
  level := .user
  homeDid := 0
  curDid := 0
  homeSlot := 0
  curSlot := 0
  code := ⟨0, 4096⟩
  partn := 5
  nbase := 96
  engine := [[], [], [], [], [], [], [], []]
  gates := []
  handler := none
  pendingTraps := []
  deferred := []
  susp := none
  xown := false
  xreq := none
  trapVec := none
  prio := 0
  admitted := 0
  lastTick := 0
  retry := []
  gcall := none

/-- A machine whose next step fetches the bytes given, on core 0. -/
def State.withCode (s : State) (b : List Byte) : State :=
  { s with
    cur := ⟨0, 0, 0, 0, none, none, 0, 0, []⟩
    turns := .issue 0 0 :: s.turns
    cores := tput s.cores 0 { Core.idle with warps := [(0, probeWarp)] }
    parts := tput s.parts 0 { Part.idle with valid := true, size := 1 }
    mem := setBytes s.mem 0 b
    tlb := ⟨0, 0, 0, false, true, true, true, 16⟩ :: s.tlb
    rots := tput s.rots 0 0x000008180000000F#64 }

end Sys2Proof.Machine
end

