-- ==== Sys2Proof/Machine/Step.lean ====
section
/-!
DEFINITION. One step of the machine: the unit in progress goes on, else the next turn is taken, else the default policy acts.
-/

namespace Sys2Proof.Machine

/-- The step. -/
def step (s : State) : Host.Outcome State Fault Refusal :=
  if s.cur.off ≠ 0 then s.runUnit
  else
    match s.turns with
    | t :: rest => { s with turns := rest }.takeTurn t
    | [] => s.runDefault

/-- The state with an instruction's bits where the next step fetches: nbits bits of w, then zeros up to four bytes. -/
def State.withFetchWord (s : State) (nbits w : Nat) : State := s.withCode (leBytes 4 (w % 2 ^ nbits))

end Sys2Proof.Machine
end

