-- ==== Sys2Proof/Laws/PerInstr.lean ====
section
/-!
SUPPORT. Statements made for each constructor: the family RoundTrip says that decoding the word of a well-formed
instruction gives it back, with every operand.
-/

namespace Sys2Proof

@[simp] theorem Rm.ofCode_code (x : Rm) : Rm.ofCode x.code = x := by cases x <;> rfl
@[simp] theorem Cmp.ofCode_code (x : Cmp) : Cmp.ofCode x.code = x := by cases x <;> rfl
@[simp] theorem NumFmt.ofCode_code (x : NumFmt) : NumFmt.ofCode x.code = x := by cases x <;> rfl
@[simp] theorem FenceKind.ofCode_code (x : FenceKind) : FenceKind.ofCode x.code = x := by cases x <;> rfl
@[simp] theorem Sz.ofCode_code (x : Sz) : Sz.ofCode x.code = some x := by cases x <;> rfl
@[simp] theorem Ord.ofCode_code (x : Ord) : Ord.ofCode x.code = some x := by cases x <;> rfl
@[simp] theorem Scope.ofCode_code (x : Scope) : Scope.ofCode x.code = some x := by cases x <;> rfl
@[simp] theorem Hint.ofCode_code (x : Hint) : Hint.ofCode x.code = some x := by cases x <;> rfl
@[simp] theorem AtomOp.ofCode_code (x : AtomOp) : AtomOp.ofCode x.code = some x := by cases x <;> rfl
@[simp] theorem WaitCond.ofCode_code (x : WaitCond) : WaitCond.ofCode x.code = some x := by cases x <;> rfl
theorem Rm.code_lt (x : Rm) : x.code < 4 := by cases x <;> decide
theorem Cmp.code_lt (x : Cmp) : x.code < 8 := by cases x <;> decide
theorem NumFmt.code_lt (x : NumFmt) : x.code < 16 := by cases x <;> decide
theorem FenceKind.code_lt (x : FenceKind) : x.code < 4 := by cases x <;> decide
theorem Sz.code_lt (x : Sz) : x.code < 5 := by cases x <;> decide
theorem Ord.code_lt (x : Ord) : x.code < 3 := by cases x <;> decide
theorem Scope.code_lt (x : Scope) : x.code < 6 := by cases x <;> decide
theorem Hint.code_lt (x : Hint) : x.code < 3 := by cases x <;> decide
theorem AtomOp.code_lt (x : AtomOp) : x.code < 15 := by cases x <;> decide
theorem WaitCond.code_lt (x : WaitCond) : x.code < 3 := by cases x <;> decide

/-- The word of a well-formed instruction decodes to that instruction, every operand kept. -/
def Laws.RoundTrip.Statement (i : Instr) : Prop :=
  i.isEvent = false → i.wf = true → decodeRaw (encodeWord i) = some i

namespace Laws.RoundTrip

theorem add (b : Reg) (a : Reg) (d : Reg) : Statement (.add b a d) := by
  intro _ _
  have hb_b := b.isLt
  have hb_a := a.isLt
  have hb_d := d.isLt
  obtain ⟨w, hw⟩ : ∃ w, w = 0x1 + b.toNat * 2097152 + a.toNat * 16384 + d.toNat * 128 := ⟨_, rfl⟩
  have he : encodeWord (.add b a d) = w := hw.symm
  have h0 : w % 2 = 1 := by omega
  have h1 : w / 2 ^ 1 % 2 ^ (6 + 1 - 1) = 0 := by omega
  have h2 : w / 2 ^ 28 % 2 ^ (31 + 1 - 28) = 0 := by omega
  have f_b : w / 2 ^ 21 % 2 ^ (27 + 1 - 21) = b.toNat := by omega
  have f_a : w / 2 ^ 14 % 2 ^ (20 + 1 - 14) = a.toNat := by omega
  have f_d : w / 2 ^ 7 % 2 ^ (13 + 1 - 7) = d.toNat := by omega
  rw [he]
  simp [decodeRaw, decode32, decodeMajor00, h0, h1, h2, f_b, f_a, f_d]

theorem sub (b : Reg) (a : Reg) (d : Reg) : Statement (.sub b a d) := by
  intro _ _
  have hb_b := b.isLt
  have hb_a := a.isLt
  have hb_d := d.isLt
  obtain ⟨w, hw⟩ : ∃ w, w = 0x10000001 + b.toNat * 2097152 + a.toNat * 16384 + d.toNat * 128 := ⟨_, rfl⟩
  have he : encodeWord (.sub b a d) = w := hw.symm
  have h0 : w % 2 = 1 := by omega
  have h1 : w / 2 ^ 1 % 2 ^ (6 + 1 - 1) = 0 := by omega
  have h2 : w / 2 ^ 28 % 2 ^ (31 + 1 - 28) = 1 := by omega
  have f_b : w / 2 ^ 21 % 2 ^ (27 + 1 - 21) = b.toNat := by omega
  have f_a : w / 2 ^ 14 % 2 ^ (20 + 1 - 14) = a.toNat := by omega
  have f_d : w / 2 ^ 7 % 2 ^ (13 + 1 - 7) = d.toNat := by omega
  rw [he]
  simp [decodeRaw, decode32, decodeMajor00, h0, h1, h2, f_b, f_a, f_d]

theorem mul (b : Reg) (a : Reg) (d : Reg) : Statement (.mul b a d) := by
  intro _ _
  have hb_b := b.isLt
  have hb_a := a.isLt
  have hb_d := d.isLt
  obtain ⟨w, hw⟩ : ∃ w, w = 0x20000001 + b.toNat * 2097152 + a.toNat * 16384 + d.toNat * 128 := ⟨_, rfl⟩
  have he : encodeWord (.mul b a d) = w := hw.symm
  have h0 : w % 2 = 1 := by omega
  have h1 : w / 2 ^ 1 % 2 ^ (6 + 1 - 1) = 0 := by omega
  have h2 : w / 2 ^ 28 % 2 ^ (31 + 1 - 28) = 2 := by omega
  have f_b : w / 2 ^ 21 % 2 ^ (27 + 1 - 21) = b.toNat := by omega
  have f_a : w / 2 ^ 14 % 2 ^ (20 + 1 - 14) = a.toNat := by omega
  have f_d : w / 2 ^ 7 % 2 ^ (13 + 1 - 7) = d.toNat := by omega
  rw [he]
  simp [decodeRaw, decode32, decodeMajor00, h0, h1, h2, f_b, f_a, f_d]

theorem mulhu (b : Reg) (a : Reg) (d : Reg) : Statement (.mulhu b a d) := by
  intro _ _
  have hb_b := b.isLt
  have hb_a := a.isLt
  have hb_d := d.isLt
  obtain ⟨w, hw⟩ : ∃ w, w = 0x30000001 + b.toNat * 2097152 + a.toNat * 16384 + d.toNat * 128 := ⟨_, rfl⟩
  have he : encodeWord (.mulhu b a d) = w := hw.symm
  have h0 : w % 2 = 1 := by omega
  have h1 : w / 2 ^ 1 % 2 ^ (6 + 1 - 1) = 0 := by omega
  have h2 : w / 2 ^ 28 % 2 ^ (31 + 1 - 28) = 3 := by omega
  have f_b : w / 2 ^ 21 % 2 ^ (27 + 1 - 21) = b.toNat := by omega
  have f_a : w / 2 ^ 14 % 2 ^ (20 + 1 - 14) = a.toNat := by omega
  have f_d : w / 2 ^ 7 % 2 ^ (13 + 1 - 7) = d.toNat := by omega
  rw [he]
  simp [decodeRaw, decode32, decodeMajor00, h0, h1, h2, f_b, f_a, f_d]

theorem mulhs (b : Reg) (a : Reg) (d : Reg) : Statement (.mulhs b a d) := by
  intro _ _
  have hb_b := b.isLt
  have hb_a := a.isLt
  have hb_d := d.isLt
  obtain ⟨w, hw⟩ : ∃ w, w = 0x40000001 + b.toNat * 2097152 + a.toNat * 16384 + d.toNat * 128 := ⟨_, rfl⟩
  have he : encodeWord (.mulhs b a d) = w := hw.symm
  have h0 : w % 2 = 1 := by omega
  have h1 : w / 2 ^ 1 % 2 ^ (6 + 1 - 1) = 0 := by omega
  have h2 : w / 2 ^ 28 % 2 ^ (31 + 1 - 28) = 4 := by omega
  have f_b : w / 2 ^ 21 % 2 ^ (27 + 1 - 21) = b.toNat := by omega
  have f_a : w / 2 ^ 14 % 2 ^ (20 + 1 - 14) = a.toNat := by omega
  have f_d : w / 2 ^ 7 % 2 ^ (13 + 1 - 7) = d.toNat := by omega
  rw [he]
  simp [decodeRaw, decode32, decodeMajor00, h0, h1, h2, f_b, f_a, f_d]

theorem mad (b : Reg) (a : Reg) (d : Reg) : Statement (.mad b a d) := by
  intro _ _
  have hb_b := b.isLt
  have hb_a := a.isLt
  have hb_d := d.isLt
  obtain ⟨w, hw⟩ : ∃ w, w = 0x50000001 + b.toNat * 2097152 + a.toNat * 16384 + d.toNat * 128 := ⟨_, rfl⟩
  have he : encodeWord (.mad b a d) = w := hw.symm
  have h0 : w % 2 = 1 := by omega
  have h1 : w / 2 ^ 1 % 2 ^ (6 + 1 - 1) = 0 := by omega
  have h2 : w / 2 ^ 28 % 2 ^ (31 + 1 - 28) = 5 := by omega
  have f_b : w / 2 ^ 21 % 2 ^ (27 + 1 - 21) = b.toNat := by omega
  have f_a : w / 2 ^ 14 % 2 ^ (20 + 1 - 14) = a.toNat := by omega
  have f_d : w / 2 ^ 7 % 2 ^ (13 + 1 - 7) = d.toNat := by omega
  rw [he]
  simp [decodeRaw, decode32, decodeMajor00, h0, h1, h2, f_b, f_a, f_d]

theorem and (b : Reg) (a : Reg) (d : Reg) : Statement (.and b a d) := by
  intro _ _
  have hb_b := b.isLt
  have hb_a := a.isLt
  have hb_d := d.isLt
  obtain ⟨w, hw⟩ : ∃ w, w = 0x60000001 + b.toNat * 2097152 + a.toNat * 16384 + d.toNat * 128 := ⟨_, rfl⟩
  have he : encodeWord (.and b a d) = w := hw.symm
  have h0 : w % 2 = 1 := by omega
  have h1 : w / 2 ^ 1 % 2 ^ (6 + 1 - 1) = 0 := by omega
  have h2 : w / 2 ^ 28 % 2 ^ (31 + 1 - 28) = 6 := by omega
  have f_b : w / 2 ^ 21 % 2 ^ (27 + 1 - 21) = b.toNat := by omega
  have f_a : w / 2 ^ 14 % 2 ^ (20 + 1 - 14) = a.toNat := by omega
  have f_d : w / 2 ^ 7 % 2 ^ (13 + 1 - 7) = d.toNat := by omega
  rw [he]
  simp [decodeRaw, decode32, decodeMajor00, h0, h1, h2, f_b, f_a, f_d]

theorem or (b : Reg) (a : Reg) (d : Reg) : Statement (.or b a d) := by
  intro _ _
  have hb_b := b.isLt
  have hb_a := a.isLt
  have hb_d := d.isLt
  obtain ⟨w, hw⟩ : ∃ w, w = 0x70000001 + b.toNat * 2097152 + a.toNat * 16384 + d.toNat * 128 := ⟨_, rfl⟩
  have he : encodeWord (.or b a d) = w := hw.symm
  have h0 : w % 2 = 1 := by omega
  have h1 : w / 2 ^ 1 % 2 ^ (6 + 1 - 1) = 0 := by omega
  have h2 : w / 2 ^ 28 % 2 ^ (31 + 1 - 28) = 7 := by omega
  have f_b : w / 2 ^ 21 % 2 ^ (27 + 1 - 21) = b.toNat := by omega
  have f_a : w / 2 ^ 14 % 2 ^ (20 + 1 - 14) = a.toNat := by omega
  have f_d : w / 2 ^ 7 % 2 ^ (13 + 1 - 7) = d.toNat := by omega
  rw [he]
  simp [decodeRaw, decode32, decodeMajor00, h0, h1, h2, f_b, f_a, f_d]

theorem xor (b : Reg) (a : Reg) (d : Reg) : Statement (.xor b a d) := by
  intro _ _
  have hb_b := b.isLt
  have hb_a := a.isLt
  have hb_d := d.isLt
  obtain ⟨w, hw⟩ : ∃ w, w = 0x80000001 + b.toNat * 2097152 + a.toNat * 16384 + d.toNat * 128 := ⟨_, rfl⟩
  have he : encodeWord (.xor b a d) = w := hw.symm
  have h0 : w % 2 = 1 := by omega
  have h1 : w / 2 ^ 1 % 2 ^ (6 + 1 - 1) = 0 := by omega
  have h2 : w / 2 ^ 28 % 2 ^ (31 + 1 - 28) = 8 := by omega
  have f_b : w / 2 ^ 21 % 2 ^ (27 + 1 - 21) = b.toNat := by omega
  have f_a : w / 2 ^ 14 % 2 ^ (20 + 1 - 14) = a.toNat := by omega
  have f_d : w / 2 ^ 7 % 2 ^ (13 + 1 - 7) = d.toNat := by omega
  rw [he]
  simp [decodeRaw, decode32, decodeMajor00, h0, h1, h2, f_b, f_a, f_d]

theorem andn (b : Reg) (a : Reg) (d : Reg) : Statement (.andn b a d) := by
  intro _ _
  have hb_b := b.isLt
  have hb_a := a.isLt
  have hb_d := d.isLt
  obtain ⟨w, hw⟩ : ∃ w, w = 0x90000001 + b.toNat * 2097152 + a.toNat * 16384 + d.toNat * 128 := ⟨_, rfl⟩
  have he : encodeWord (.andn b a d) = w := hw.symm
  have h0 : w % 2 = 1 := by omega
  have h1 : w / 2 ^ 1 % 2 ^ (6 + 1 - 1) = 0 := by omega
  have h2 : w / 2 ^ 28 % 2 ^ (31 + 1 - 28) = 9 := by omega
  have f_b : w / 2 ^ 21 % 2 ^ (27 + 1 - 21) = b.toNat := by omega
  have f_a : w / 2 ^ 14 % 2 ^ (20 + 1 - 14) = a.toNat := by omega
  have f_d : w / 2 ^ 7 % 2 ^ (13 + 1 - 7) = d.toNat := by omega
  rw [he]
  simp [decodeRaw, decode32, decodeMajor00, h0, h1, h2, f_b, f_a, f_d]

theorem shl (b : Reg) (a : Reg) (d : Reg) : Statement (.shl b a d) := by
  intro _ _
  have hb_b := b.isLt
  have hb_a := a.isLt
  have hb_d := d.isLt
  obtain ⟨w, hw⟩ : ∃ w, w = 0xa0000001 + b.toNat * 2097152 + a.toNat * 16384 + d.toNat * 128 := ⟨_, rfl⟩
  have he : encodeWord (.shl b a d) = w := hw.symm
  have h0 : w % 2 = 1 := by omega
  have h1 : w / 2 ^ 1 % 2 ^ (6 + 1 - 1) = 0 := by omega
  have h2 : w / 2 ^ 28 % 2 ^ (31 + 1 - 28) = 10 := by omega
  have f_b : w / 2 ^ 21 % 2 ^ (27 + 1 - 21) = b.toNat := by omega
  have f_a : w / 2 ^ 14 % 2 ^ (20 + 1 - 14) = a.toNat := by omega
  have f_d : w / 2 ^ 7 % 2 ^ (13 + 1 - 7) = d.toNat := by omega
  rw [he]
  simp [decodeRaw, decode32, decodeMajor00, h0, h1, h2, f_b, f_a, f_d]

theorem shru (b : Reg) (a : Reg) (d : Reg) : Statement (.shru b a d) := by
  intro _ _
  have hb_b := b.isLt
  have hb_a := a.isLt
  have hb_d := d.isLt
  obtain ⟨w, hw⟩ : ∃ w, w = 0xb0000001 + b.toNat * 2097152 + a.toNat * 16384 + d.toNat * 128 := ⟨_, rfl⟩
  have he : encodeWord (.shru b a d) = w := hw.symm
  have h0 : w % 2 = 1 := by omega
  have h1 : w / 2 ^ 1 % 2 ^ (6 + 1 - 1) = 0 := by omega
  have h2 : w / 2 ^ 28 % 2 ^ (31 + 1 - 28) = 11 := by omega
  have f_b : w / 2 ^ 21 % 2 ^ (27 + 1 - 21) = b.toNat := by omega
  have f_a : w / 2 ^ 14 % 2 ^ (20 + 1 - 14) = a.toNat := by omega
  have f_d : w / 2 ^ 7 % 2 ^ (13 + 1 - 7) = d.toNat := by omega
  rw [he]
  simp [decodeRaw, decode32, decodeMajor00, h0, h1, h2, f_b, f_a, f_d]

theorem shrs (b : Reg) (a : Reg) (d : Reg) : Statement (.shrs b a d) := by
  intro _ _
  have hb_b := b.isLt
  have hb_a := a.isLt
  have hb_d := d.isLt
  obtain ⟨w, hw⟩ : ∃ w, w = 0xc0000001 + b.toNat * 2097152 + a.toNat * 16384 + d.toNat * 128 := ⟨_, rfl⟩
  have he : encodeWord (.shrs b a d) = w := hw.symm
  have h0 : w % 2 = 1 := by omega
  have h1 : w / 2 ^ 1 % 2 ^ (6 + 1 - 1) = 0 := by omega
  have h2 : w / 2 ^ 28 % 2 ^ (31 + 1 - 28) = 12 := by omega
  have f_b : w / 2 ^ 21 % 2 ^ (27 + 1 - 21) = b.toNat := by omega
  have f_a : w / 2 ^ 14 % 2 ^ (20 + 1 - 14) = a.toNat := by omega
  have f_d : w / 2 ^ 7 % 2 ^ (13 + 1 - 7) = d.toNat := by omega
  rw [he]
  simp [decodeRaw, decode32, decodeMajor00, h0, h1, h2, f_b, f_a, f_d]

theorem rotl (b : Reg) (a : Reg) (d : Reg) : Statement (.rotl b a d) := by
  intro _ _
  have hb_b := b.isLt
  have hb_a := a.isLt
  have hb_d := d.isLt
  obtain ⟨w, hw⟩ : ∃ w, w = 0xd0000001 + b.toNat * 2097152 + a.toNat * 16384 + d.toNat * 128 := ⟨_, rfl⟩
  have he : encodeWord (.rotl b a d) = w := hw.symm
  have h0 : w % 2 = 1 := by omega
  have h1 : w / 2 ^ 1 % 2 ^ (6 + 1 - 1) = 0 := by omega
  have h2 : w / 2 ^ 28 % 2 ^ (31 + 1 - 28) = 13 := by omega
  have f_b : w / 2 ^ 21 % 2 ^ (27 + 1 - 21) = b.toNat := by omega
  have f_a : w / 2 ^ 14 % 2 ^ (20 + 1 - 14) = a.toNat := by omega
  have f_d : w / 2 ^ 7 % 2 ^ (13 + 1 - 7) = d.toNat := by omega
  rw [he]
  simp [decodeRaw, decode32, decodeMajor00, h0, h1, h2, f_b, f_a, f_d]

theorem addp (b : Reg) (a : Reg) (d : Reg) : Statement (.addp b a d) := by
  intro _ _
  have hb_b := b.isLt
  have hb_a := a.isLt
  have hb_d := d.isLt
  obtain ⟨w, hw⟩ : ∃ w, w = 0xe0000001 + b.toNat * 2097152 + a.toNat * 16384 + d.toNat * 128 := ⟨_, rfl⟩
  have he : encodeWord (.addp b a d) = w := hw.symm
  have h0 : w % 2 = 1 := by omega
  have h1 : w / 2 ^ 1 % 2 ^ (6 + 1 - 1) = 0 := by omega
  have h2 : w / 2 ^ 28 % 2 ^ (31 + 1 - 28) = 14 := by omega
  have f_b : w / 2 ^ 21 % 2 ^ (27 + 1 - 21) = b.toNat := by omega
  have f_a : w / 2 ^ 14 % 2 ^ (20 + 1 - 14) = a.toNat := by omega
  have f_d : w / 2 ^ 7 % 2 ^ (13 + 1 - 7) = d.toNat := by omega
  rw [he]
  simp [decodeRaw, decode32, decodeMajor00, h0, h1, h2, f_b, f_a, f_d]

theorem sel (b : Reg) (a : Reg) (d : Reg) : Statement (.sel b a d) := by
  intro _ _
  have hb_b := b.isLt
  have hb_a := a.isLt
  have hb_d := d.isLt
  obtain ⟨w, hw⟩ : ∃ w, w = 0xf0000001 + b.toNat * 2097152 + a.toNat * 16384 + d.toNat * 128 := ⟨_, rfl⟩
  have he : encodeWord (.sel b a d) = w := hw.symm
  have h0 : w % 2 = 1 := by omega
  have h1 : w / 2 ^ 1 % 2 ^ (6 + 1 - 1) = 0 := by omega
  have h2 : w / 2 ^ 28 % 2 ^ (31 + 1 - 28) = 15 := by omega
  have f_b : w / 2 ^ 21 % 2 ^ (27 + 1 - 21) = b.toNat := by omega
  have f_a : w / 2 ^ 14 % 2 ^ (20 + 1 - 14) = a.toNat := by omega
  have f_d : w / 2 ^ 7 % 2 ^ (13 + 1 - 7) = d.toNat := by omega
  rw [he]
  simp [decodeRaw, decode32, decodeMajor00, h0, h1, h2, f_b, f_a, f_d]

theorem mins (b : Reg) (a : Reg) (d : Reg) : Statement (.mins b a d) := by
  intro _ _
  have hb_b := b.isLt
  have hb_a := a.isLt
  have hb_d := d.isLt
  obtain ⟨w, hw⟩ : ∃ w, w = 0x3 + b.toNat * 2097152 + a.toNat * 16384 + d.toNat * 128 := ⟨_, rfl⟩
  have he : encodeWord (.mins b a d) = w := hw.symm
  have h0 : w % 2 = 1 := by omega
  have h1 : w / 2 ^ 1 % 2 ^ (6 + 1 - 1) = 1 := by omega
  have h2 : w / 2 ^ 28 % 2 ^ (31 + 1 - 28) = 0 := by omega
  have f_b : w / 2 ^ 21 % 2 ^ (27 + 1 - 21) = b.toNat := by omega
  have f_a : w / 2 ^ 14 % 2 ^ (20 + 1 - 14) = a.toNat := by omega
  have f_d : w / 2 ^ 7 % 2 ^ (13 + 1 - 7) = d.toNat := by omega
  rw [he]
  simp [decodeRaw, decode32, decodeMajor01, h0, h1, h2, f_b, f_a, f_d]

theorem minu (b : Reg) (a : Reg) (d : Reg) : Statement (.minu b a d) := by
  intro _ _
  have hb_b := b.isLt
  have hb_a := a.isLt
  have hb_d := d.isLt
  obtain ⟨w, hw⟩ : ∃ w, w = 0x10000003 + b.toNat * 2097152 + a.toNat * 16384 + d.toNat * 128 := ⟨_, rfl⟩
  have he : encodeWord (.minu b a d) = w := hw.symm
  have h0 : w % 2 = 1 := by omega
  have h1 : w / 2 ^ 1 % 2 ^ (6 + 1 - 1) = 1 := by omega
  have h2 : w / 2 ^ 28 % 2 ^ (31 + 1 - 28) = 1 := by omega
  have f_b : w / 2 ^ 21 % 2 ^ (27 + 1 - 21) = b.toNat := by omega
  have f_a : w / 2 ^ 14 % 2 ^ (20 + 1 - 14) = a.toNat := by omega
  have f_d : w / 2 ^ 7 % 2 ^ (13 + 1 - 7) = d.toNat := by omega
  rw [he]
  simp [decodeRaw, decode32, decodeMajor01, h0, h1, h2, f_b, f_a, f_d]

theorem maxs (b : Reg) (a : Reg) (d : Reg) : Statement (.maxs b a d) := by
  intro _ _
  have hb_b := b.isLt
  have hb_a := a.isLt
  have hb_d := d.isLt
  obtain ⟨w, hw⟩ : ∃ w, w = 0x20000003 + b.toNat * 2097152 + a.toNat * 16384 + d.toNat * 128 := ⟨_, rfl⟩
  have he : encodeWord (.maxs b a d) = w := hw.symm
  have h0 : w % 2 = 1 := by omega
  have h1 : w / 2 ^ 1 % 2 ^ (6 + 1 - 1) = 1 := by omega
  have h2 : w / 2 ^ 28 % 2 ^ (31 + 1 - 28) = 2 := by omega
  have f_b : w / 2 ^ 21 % 2 ^ (27 + 1 - 21) = b.toNat := by omega
  have f_a : w / 2 ^ 14 % 2 ^ (20 + 1 - 14) = a.toNat := by omega
  have f_d : w / 2 ^ 7 % 2 ^ (13 + 1 - 7) = d.toNat := by omega
  rw [he]
  simp [decodeRaw, decode32, decodeMajor01, h0, h1, h2, f_b, f_a, f_d]

theorem maxu (b : Reg) (a : Reg) (d : Reg) : Statement (.maxu b a d) := by
  intro _ _
  have hb_b := b.isLt
  have hb_a := a.isLt
  have hb_d := d.isLt
  obtain ⟨w, hw⟩ : ∃ w, w = 0x30000003 + b.toNat * 2097152 + a.toNat * 16384 + d.toNat * 128 := ⟨_, rfl⟩
  have he : encodeWord (.maxu b a d) = w := hw.symm
  have h0 : w % 2 = 1 := by omega
  have h1 : w / 2 ^ 1 % 2 ^ (6 + 1 - 1) = 1 := by omega
  have h2 : w / 2 ^ 28 % 2 ^ (31 + 1 - 28) = 3 := by omega
  have f_b : w / 2 ^ 21 % 2 ^ (27 + 1 - 21) = b.toNat := by omega
  have f_a : w / 2 ^ 14 % 2 ^ (20 + 1 - 14) = a.toNat := by omega
  have f_d : w / 2 ^ 7 % 2 ^ (13 + 1 - 7) = d.toNat := by omega
  rw [he]
  simp [decodeRaw, decode32, decodeMajor01, h0, h1, h2, f_b, f_a, f_d]

theorem clz (a : Reg) (d : Reg) : Statement (.clz a d) := by
  intro _ _
  have hb_a := a.isLt
  have hb_d := d.isLt
  obtain ⟨w, hw⟩ : ∃ w, w = 0x40000003 + a.toNat * 16384 + d.toNat * 128 := ⟨_, rfl⟩
  have he : encodeWord (.clz a d) = w := hw.symm
  have h0 : w % 2 = 1 := by omega
  have h1 : w / 2 ^ 1 % 2 ^ (6 + 1 - 1) = 1 := by omega
  have h2 : w / 2 ^ 28 % 2 ^ (31 + 1 - 28) = 4 := by omega
  have h3 : w / 2 ^ 21 % 2 ^ (27 + 1 - 21) = 0 := by omega
  have f_a : w / 2 ^ 14 % 2 ^ (20 + 1 - 14) = a.toNat := by omega
  have f_d : w / 2 ^ 7 % 2 ^ (13 + 1 - 7) = d.toNat := by omega
  rw [he]
  simp [decodeRaw, decode32, decodeMajor01, h0, h1, h2, h3, f_a, f_d]

theorem popc (a : Reg) (d : Reg) : Statement (.popc a d) := by
  intro _ _
  have hb_a := a.isLt
  have hb_d := d.isLt
  obtain ⟨w, hw⟩ : ∃ w, w = 0x50000003 + a.toNat * 16384 + d.toNat * 128 := ⟨_, rfl⟩
  have he : encodeWord (.popc a d) = w := hw.symm
  have h0 : w % 2 = 1 := by omega
  have h1 : w / 2 ^ 1 % 2 ^ (6 + 1 - 1) = 1 := by omega
  have h2 : w / 2 ^ 28 % 2 ^ (31 + 1 - 28) = 5 := by omega
  have h3 : w / 2 ^ 21 % 2 ^ (27 + 1 - 21) = 0 := by omega
  have f_a : w / 2 ^ 14 % 2 ^ (20 + 1 - 14) = a.toNat := by omega
  have f_d : w / 2 ^ 7 % 2 ^ (13 + 1 - 7) = d.toNat := by omega
  rw [he]
  simp [decodeRaw, decode32, decodeMajor01, h0, h1, h2, h3, f_a, f_d]

theorem brev (a : Reg) (d : Reg) : Statement (.brev a d) := by
  intro _ _
  have hb_a := a.isLt
  have hb_d := d.isLt
  obtain ⟨w, hw⟩ : ∃ w, w = 0x60000003 + a.toNat * 16384 + d.toNat * 128 := ⟨_, rfl⟩
  have he : encodeWord (.brev a d) = w := hw.symm
  have h0 : w % 2 = 1 := by omega
  have h1 : w / 2 ^ 1 % 2 ^ (6 + 1 - 1) = 1 := by omega
  have h2 : w / 2 ^ 28 % 2 ^ (31 + 1 - 28) = 6 := by omega
  have h3 : w / 2 ^ 21 % 2 ^ (27 + 1 - 21) = 0 := by omega
  have f_a : w / 2 ^ 14 % 2 ^ (20 + 1 - 14) = a.toNat := by omega
  have f_d : w / 2 ^ 7 % 2 ^ (13 + 1 - 7) = d.toNat := by omega
  rw [he]
  simp [decodeRaw, decode32, decodeMajor01, h0, h1, h2, h3, f_a, f_d]

theorem cmpeq (b : Reg) (a : Reg) (d : Reg) : Statement (.cmpeq b a d) := by
  intro _ _
  have hb_b := b.isLt
  have hb_a := a.isLt
  have hb_d := d.isLt
  obtain ⟨w, hw⟩ : ∃ w, w = 0x70000003 + b.toNat * 2097152 + a.toNat * 16384 + d.toNat * 128 := ⟨_, rfl⟩
  have he : encodeWord (.cmpeq b a d) = w := hw.symm
  have h0 : w % 2 = 1 := by omega
  have h1 : w / 2 ^ 1 % 2 ^ (6 + 1 - 1) = 1 := by omega
  have h2 : w / 2 ^ 28 % 2 ^ (31 + 1 - 28) = 7 := by omega
  have f_b : w / 2 ^ 21 % 2 ^ (27 + 1 - 21) = b.toNat := by omega
  have f_a : w / 2 ^ 14 % 2 ^ (20 + 1 - 14) = a.toNat := by omega
  have f_d : w / 2 ^ 7 % 2 ^ (13 + 1 - 7) = d.toNat := by omega
  rw [he]
  simp [decodeRaw, decode32, decodeMajor01, h0, h1, h2, f_b, f_a, f_d]

theorem cmpne (b : Reg) (a : Reg) (d : Reg) : Statement (.cmpne b a d) := by
  intro _ _
  have hb_b := b.isLt
  have hb_a := a.isLt
  have hb_d := d.isLt
  obtain ⟨w, hw⟩ : ∃ w, w = 0x80000003 + b.toNat * 2097152 + a.toNat * 16384 + d.toNat * 128 := ⟨_, rfl⟩
  have he : encodeWord (.cmpne b a d) = w := hw.symm
  have h0 : w % 2 = 1 := by omega
  have h1 : w / 2 ^ 1 % 2 ^ (6 + 1 - 1) = 1 := by omega
  have h2 : w / 2 ^ 28 % 2 ^ (31 + 1 - 28) = 8 := by omega
  have f_b : w / 2 ^ 21 % 2 ^ (27 + 1 - 21) = b.toNat := by omega
  have f_a : w / 2 ^ 14 % 2 ^ (20 + 1 - 14) = a.toNat := by omega
  have f_d : w / 2 ^ 7 % 2 ^ (13 + 1 - 7) = d.toNat := by omega
  rw [he]
  simp [decodeRaw, decode32, decodeMajor01, h0, h1, h2, f_b, f_a, f_d]

theorem cmplts (b : Reg) (a : Reg) (d : Reg) : Statement (.cmplts b a d) := by
  intro _ _
  have hb_b := b.isLt
  have hb_a := a.isLt
  have hb_d := d.isLt
  obtain ⟨w, hw⟩ : ∃ w, w = 0x90000003 + b.toNat * 2097152 + a.toNat * 16384 + d.toNat * 128 := ⟨_, rfl⟩
  have he : encodeWord (.cmplts b a d) = w := hw.symm
  have h0 : w % 2 = 1 := by omega
  have h1 : w / 2 ^ 1 % 2 ^ (6 + 1 - 1) = 1 := by omega
  have h2 : w / 2 ^ 28 % 2 ^ (31 + 1 - 28) = 9 := by omega
  have f_b : w / 2 ^ 21 % 2 ^ (27 + 1 - 21) = b.toNat := by omega
  have f_a : w / 2 ^ 14 % 2 ^ (20 + 1 - 14) = a.toNat := by omega
  have f_d : w / 2 ^ 7 % 2 ^ (13 + 1 - 7) = d.toNat := by omega
  rw [he]
  simp [decodeRaw, decode32, decodeMajor01, h0, h1, h2, f_b, f_a, f_d]

theorem cmpltu (b : Reg) (a : Reg) (d : Reg) : Statement (.cmpltu b a d) := by
  intro _ _
  have hb_b := b.isLt
  have hb_a := a.isLt
  have hb_d := d.isLt
  obtain ⟨w, hw⟩ : ∃ w, w = 0xa0000003 + b.toNat * 2097152 + a.toNat * 16384 + d.toNat * 128 := ⟨_, rfl⟩
  have he : encodeWord (.cmpltu b a d) = w := hw.symm
  have h0 : w % 2 = 1 := by omega
  have h1 : w / 2 ^ 1 % 2 ^ (6 + 1 - 1) = 1 := by omega
  have h2 : w / 2 ^ 28 % 2 ^ (31 + 1 - 28) = 10 := by omega
  have f_b : w / 2 ^ 21 % 2 ^ (27 + 1 - 21) = b.toNat := by omega
  have f_a : w / 2 ^ 14 % 2 ^ (20 + 1 - 14) = a.toNat := by omega
  have f_d : w / 2 ^ 7 % 2 ^ (13 + 1 - 7) = d.toNat := by omega
  rw [he]
  simp [decodeRaw, decode32, decodeMajor01, h0, h1, h2, f_b, f_a, f_d]

theorem cmples (b : Reg) (a : Reg) (d : Reg) : Statement (.cmples b a d) := by
  intro _ _
  have hb_b := b.isLt
  have hb_a := a.isLt
  have hb_d := d.isLt
  obtain ⟨w, hw⟩ : ∃ w, w = 0xb0000003 + b.toNat * 2097152 + a.toNat * 16384 + d.toNat * 128 := ⟨_, rfl⟩
  have he : encodeWord (.cmples b a d) = w := hw.symm
  have h0 : w % 2 = 1 := by omega
  have h1 : w / 2 ^ 1 % 2 ^ (6 + 1 - 1) = 1 := by omega
  have h2 : w / 2 ^ 28 % 2 ^ (31 + 1 - 28) = 11 := by omega
  have f_b : w / 2 ^ 21 % 2 ^ (27 + 1 - 21) = b.toNat := by omega
  have f_a : w / 2 ^ 14 % 2 ^ (20 + 1 - 14) = a.toNat := by omega
  have f_d : w / 2 ^ 7 % 2 ^ (13 + 1 - 7) = d.toNat := by omega
  rw [he]
  simp [decodeRaw, decode32, decodeMajor01, h0, h1, h2, f_b, f_a, f_d]

theorem cmpleu (b : Reg) (a : Reg) (d : Reg) : Statement (.cmpleu b a d) := by
  intro _ _
  have hb_b := b.isLt
  have hb_a := a.isLt
  have hb_d := d.isLt
  obtain ⟨w, hw⟩ : ∃ w, w = 0xc0000003 + b.toNat * 2097152 + a.toNat * 16384 + d.toNat * 128 := ⟨_, rfl⟩
  have he : encodeWord (.cmpleu b a d) = w := hw.symm
  have h0 : w % 2 = 1 := by omega
  have h1 : w / 2 ^ 1 % 2 ^ (6 + 1 - 1) = 1 := by omega
  have h2 : w / 2 ^ 28 % 2 ^ (31 + 1 - 28) = 12 := by omega
  have f_b : w / 2 ^ 21 % 2 ^ (27 + 1 - 21) = b.toNat := by omega
  have f_a : w / 2 ^ 14 % 2 ^ (20 + 1 - 14) = a.toNat := by omega
  have f_d : w / 2 ^ 7 % 2 ^ (13 + 1 - 7) = d.toNat := by omega
  rw [he]
  simp [decodeRaw, decode32, decodeMajor01, h0, h1, h2, f_b, f_a, f_d]

theorem bfx (b : Reg) (a : Reg) (d : Reg) : Statement (.bfx b a d) := by
  intro _ _
  have hb_b := b.isLt
  have hb_a := a.isLt
  have hb_d := d.isLt
  obtain ⟨w, hw⟩ : ∃ w, w = 0xd0000003 + b.toNat * 2097152 + a.toNat * 16384 + d.toNat * 128 := ⟨_, rfl⟩
  have he : encodeWord (.bfx b a d) = w := hw.symm
  have h0 : w % 2 = 1 := by omega
  have h1 : w / 2 ^ 1 % 2 ^ (6 + 1 - 1) = 1 := by omega
  have h2 : w / 2 ^ 28 % 2 ^ (31 + 1 - 28) = 13 := by omega
  have f_b : w / 2 ^ 21 % 2 ^ (27 + 1 - 21) = b.toNat := by omega
  have f_a : w / 2 ^ 14 % 2 ^ (20 + 1 - 14) = a.toNat := by omega
  have f_d : w / 2 ^ 7 % 2 ^ (13 + 1 - 7) = d.toNat := by omega
  rw [he]
  simp [decodeRaw, decode32, decodeMajor01, h0, h1, h2, f_b, f_a, f_d]

theorem bfi (b : Reg) (a : Reg) (d : Reg) : Statement (.bfi b a d) := by
  intro _ _
  have hb_b := b.isLt
  have hb_a := a.isLt
  have hb_d := d.isLt
  obtain ⟨w, hw⟩ : ∃ w, w = 0xe0000003 + b.toNat * 2097152 + a.toNat * 16384 + d.toNat * 128 := ⟨_, rfl⟩
  have he : encodeWord (.bfi b a d) = w := hw.symm
  have h0 : w % 2 = 1 := by omega
  have h1 : w / 2 ^ 1 % 2 ^ (6 + 1 - 1) = 1 := by omega
  have h2 : w / 2 ^ 28 % 2 ^ (31 + 1 - 28) = 14 := by omega
  have f_b : w / 2 ^ 21 % 2 ^ (27 + 1 - 21) = b.toNat := by omega
  have f_a : w / 2 ^ 14 % 2 ^ (20 + 1 - 14) = a.toNat := by omega
  have f_d : w / 2 ^ 7 % 2 ^ (13 + 1 - 7) = d.toNat := by omega
  rw [he]
  simp [decodeRaw, decode32, decodeMajor01, h0, h1, h2, f_b, f_a, f_d]

theorem addi (i : BitVec 11) (a : Reg) (d : Reg) : Statement (.addi i a d) := by
  intro _ _
  have hb_i := i.isLt
  have hb_a := a.isLt
  have hb_d := d.isLt
  obtain ⟨w, hw⟩ : ∃ w, w = 0x5 + i.toNat * 2097152 + a.toNat * 16384 + d.toNat * 128 := ⟨_, rfl⟩
  have he : encodeWord (.addi i a d) = w := hw.symm
  have h0 : w % 2 = 1 := by omega
  have h1 : w / 2 ^ 1 % 2 ^ (6 + 1 - 1) = 2 := by omega
  have f_i : w / 2 ^ 21 % 2 ^ (31 + 1 - 21) = i.toNat := by omega
  have f_a : w / 2 ^ 14 % 2 ^ (20 + 1 - 14) = a.toNat := by omega
  have f_d : w / 2 ^ 7 % 2 ^ (13 + 1 - 7) = d.toNat := by omega
  rw [he]
  simp [decodeRaw, decode32, decodeMajor02, h0, h1, f_i, f_a, f_d]

theorem andi (i : BitVec 11) (a : Reg) (d : Reg) : Statement (.andi i a d) := by
  intro _ _
  have hb_i := i.isLt
  have hb_a := a.isLt
  have hb_d := d.isLt
  obtain ⟨w, hw⟩ : ∃ w, w = 0x7 + i.toNat * 2097152 + a.toNat * 16384 + d.toNat * 128 := ⟨_, rfl⟩
  have he : encodeWord (.andi i a d) = w := hw.symm
  have h0 : w % 2 = 1 := by omega
  have h1 : w / 2 ^ 1 % 2 ^ (6 + 1 - 1) = 3 := by omega
  have f_i : w / 2 ^ 21 % 2 ^ (31 + 1 - 21) = i.toNat := by omega
  have f_a : w / 2 ^ 14 % 2 ^ (20 + 1 - 14) = a.toNat := by omega
  have f_d : w / 2 ^ 7 % 2 ^ (13 + 1 - 7) = d.toNat := by omega
  rw [he]
  simp [decodeRaw, decode32, decodeMajor03, h0, h1, f_i, f_a, f_d]

theorem ori (i : BitVec 11) (a : Reg) (d : Reg) : Statement (.ori i a d) := by
  intro _ _
  have hb_i := i.isLt
  have hb_a := a.isLt
  have hb_d := d.isLt
  obtain ⟨w, hw⟩ : ∃ w, w = 0x9 + i.toNat * 2097152 + a.toNat * 16384 + d.toNat * 128 := ⟨_, rfl⟩
  have he : encodeWord (.ori i a d) = w := hw.symm
  have h0 : w % 2 = 1 := by omega
  have h1 : w / 2 ^ 1 % 2 ^ (6 + 1 - 1) = 4 := by omega
  have f_i : w / 2 ^ 21 % 2 ^ (31 + 1 - 21) = i.toNat := by omega
  have f_a : w / 2 ^ 14 % 2 ^ (20 + 1 - 14) = a.toNat := by omega
  have f_d : w / 2 ^ 7 % 2 ^ (13 + 1 - 7) = d.toNat := by omega
  rw [he]
  simp [decodeRaw, decode32, decodeMajor04, h0, h1, f_i, f_a, f_d]

theorem xori (i : BitVec 11) (a : Reg) (d : Reg) : Statement (.xori i a d) := by
  intro _ _
  have hb_i := i.isLt
  have hb_a := a.isLt
  have hb_d := d.isLt
  obtain ⟨w, hw⟩ : ∃ w, w = 0xb + i.toNat * 2097152 + a.toNat * 16384 + d.toNat * 128 := ⟨_, rfl⟩
  have he : encodeWord (.xori i a d) = w := hw.symm
  have h0 : w % 2 = 1 := by omega
  have h1 : w / 2 ^ 1 % 2 ^ (6 + 1 - 1) = 5 := by omega
  have f_i : w / 2 ^ 21 % 2 ^ (31 + 1 - 21) = i.toNat := by omega
  have f_a : w / 2 ^ 14 % 2 ^ (20 + 1 - 14) = a.toNat := by omega
  have f_d : w / 2 ^ 7 % 2 ^ (13 + 1 - 7) = d.toNat := by omega
  rw [he]
  simp [decodeRaw, decode32, decodeMajor05, h0, h1, f_i, f_a, f_d]

theorem shli (c : BitVec 5) (a : Reg) (d : Reg) : Statement (.shli c a d) := by
  intro _ _
  have hb_c := c.isLt
  have hb_a := a.isLt
  have hb_d := d.isLt
  obtain ⟨w, hw⟩ : ∃ w, w = 0xd + c.toNat * 2097152 + a.toNat * 16384 + d.toNat * 128 := ⟨_, rfl⟩
  have he : encodeWord (.shli c a d) = w := hw.symm
  have h0 : w % 2 = 1 := by omega
  have h1 : w / 2 ^ 1 % 2 ^ (6 + 1 - 1) = 6 := by omega
  have h2 : w / 2 ^ 26 % 2 ^ (31 + 1 - 26) = 0 := by omega
  have f_c : w / 2 ^ 21 % 2 ^ (25 + 1 - 21) = c.toNat := by omega
  have f_a : w / 2 ^ 14 % 2 ^ (20 + 1 - 14) = a.toNat := by omega
  have f_d : w / 2 ^ 7 % 2 ^ (13 + 1 - 7) = d.toNat := by omega
  rw [he]
  simp [decodeRaw, decode32, decodeMajor06, h0, h1, h2, f_c, f_a, f_d]

theorem shrui (c : BitVec 5) (a : Reg) (d : Reg) : Statement (.shrui c a d) := by
  intro _ _
  have hb_c := c.isLt
  have hb_a := a.isLt
  have hb_d := d.isLt
  obtain ⟨w, hw⟩ : ∃ w, w = 0x400000d + c.toNat * 2097152 + a.toNat * 16384 + d.toNat * 128 := ⟨_, rfl⟩
  have he : encodeWord (.shrui c a d) = w := hw.symm
  have h0 : w % 2 = 1 := by omega
  have h1 : w / 2 ^ 1 % 2 ^ (6 + 1 - 1) = 6 := by omega
  have h2 : w / 2 ^ 26 % 2 ^ (31 + 1 - 26) = 1 := by omega
  have f_c : w / 2 ^ 21 % 2 ^ (25 + 1 - 21) = c.toNat := by omega
  have f_a : w / 2 ^ 14 % 2 ^ (20 + 1 - 14) = a.toNat := by omega
  have f_d : w / 2 ^ 7 % 2 ^ (13 + 1 - 7) = d.toNat := by omega
  rw [he]
  simp [decodeRaw, decode32, decodeMajor06, h0, h1, h2, f_c, f_a, f_d]

theorem shrsi (c : BitVec 5) (a : Reg) (d : Reg) : Statement (.shrsi c a d) := by
  intro _ _
  have hb_c := c.isLt
  have hb_a := a.isLt
  have hb_d := d.isLt
  obtain ⟨w, hw⟩ : ∃ w, w = 0x800000d + c.toNat * 2097152 + a.toNat * 16384 + d.toNat * 128 := ⟨_, rfl⟩
  have he : encodeWord (.shrsi c a d) = w := hw.symm
  have h0 : w % 2 = 1 := by omega
  have h1 : w / 2 ^ 1 % 2 ^ (6 + 1 - 1) = 6 := by omega
  have h2 : w / 2 ^ 26 % 2 ^ (31 + 1 - 26) = 2 := by omega
  have f_c : w / 2 ^ 21 % 2 ^ (25 + 1 - 21) = c.toNat := by omega
  have f_a : w / 2 ^ 14 % 2 ^ (20 + 1 - 14) = a.toNat := by omega
  have f_d : w / 2 ^ 7 % 2 ^ (13 + 1 - 7) = d.toNat := by omega
  rw [he]
  simp [decodeRaw, decode32, decodeMajor06, h0, h1, h2, f_c, f_a, f_d]

theorem rotli (c : BitVec 5) (a : Reg) (d : Reg) : Statement (.rotli c a d) := by
  intro _ _
  have hb_c := c.isLt
  have hb_a := a.isLt
  have hb_d := d.isLt
  obtain ⟨w, hw⟩ : ∃ w, w = 0xc00000d + c.toNat * 2097152 + a.toNat * 16384 + d.toNat * 128 := ⟨_, rfl⟩
  have he : encodeWord (.rotli c a d) = w := hw.symm
  have h0 : w % 2 = 1 := by omega
  have h1 : w / 2 ^ 1 % 2 ^ (6 + 1 - 1) = 6 := by omega
  have h2 : w / 2 ^ 26 % 2 ^ (31 + 1 - 26) = 3 := by omega
  have f_c : w / 2 ^ 21 % 2 ^ (25 + 1 - 21) = c.toNat := by omega
  have f_a : w / 2 ^ 14 % 2 ^ (20 + 1 - 14) = a.toNat := by omega
  have f_d : w / 2 ^ 7 % 2 ^ (13 + 1 - 7) = d.toNat := by omega
  rw [he]
  simp [decodeRaw, decode32, decodeMajor06, h0, h1, h2, f_c, f_a, f_d]

theorem cmpeqi (i : BitVec 9) (a : Reg) (d : Reg) : Statement (.cmpeqi i a d) := by
  intro _ _
  have hb_i := i.isLt
  have hb_a := a.isLt
  have hb_d := d.isLt
  obtain ⟨w, hw⟩ : ∃ w, w = 0xf + i.toNat * 2097152 + a.toNat * 16384 + d.toNat * 128 := ⟨_, rfl⟩
  have he : encodeWord (.cmpeqi i a d) = w := hw.symm
  have h0 : w % 2 = 1 := by omega
  have h1 : w / 2 ^ 1 % 2 ^ (6 + 1 - 1) = 7 := by omega
  have h2 : w / 2 ^ 30 % 2 ^ (31 + 1 - 30) = 0 := by omega
  have f_i : w / 2 ^ 21 % 2 ^ (29 + 1 - 21) = i.toNat := by omega
  have f_a : w / 2 ^ 14 % 2 ^ (20 + 1 - 14) = a.toNat := by omega
  have f_d : w / 2 ^ 7 % 2 ^ (13 + 1 - 7) = d.toNat := by omega
  rw [he]
  simp [decodeRaw, decode32, decodeMajor07, h0, h1, h2, f_i, f_a, f_d]

theorem cmpltsi (i : BitVec 9) (a : Reg) (d : Reg) : Statement (.cmpltsi i a d) := by
  intro _ _
  have hb_i := i.isLt
  have hb_a := a.isLt
  have hb_d := d.isLt
  obtain ⟨w, hw⟩ : ∃ w, w = 0x4000000f + i.toNat * 2097152 + a.toNat * 16384 + d.toNat * 128 := ⟨_, rfl⟩
  have he : encodeWord (.cmpltsi i a d) = w := hw.symm
  have h0 : w % 2 = 1 := by omega
  have h1 : w / 2 ^ 1 % 2 ^ (6 + 1 - 1) = 7 := by omega
  have h2 : w / 2 ^ 30 % 2 ^ (31 + 1 - 30) = 1 := by omega
  have f_i : w / 2 ^ 21 % 2 ^ (29 + 1 - 21) = i.toNat := by omega
  have f_a : w / 2 ^ 14 % 2 ^ (20 + 1 - 14) = a.toNat := by omega
  have f_d : w / 2 ^ 7 % 2 ^ (13 + 1 - 7) = d.toNat := by omega
  rw [he]
  simp [decodeRaw, decode32, decodeMajor07, h0, h1, h2, f_i, f_a, f_d]

theorem cmpltui (i : BitVec 9) (a : Reg) (d : Reg) : Statement (.cmpltui i a d) := by
  intro _ _
  have hb_i := i.isLt
  have hb_a := a.isLt
  have hb_d := d.isLt
  obtain ⟨w, hw⟩ : ∃ w, w = 0x8000000f + i.toNat * 2097152 + a.toNat * 16384 + d.toNat * 128 := ⟨_, rfl⟩
  have he : encodeWord (.cmpltui i a d) = w := hw.symm
  have h0 : w % 2 = 1 := by omega
  have h1 : w / 2 ^ 1 % 2 ^ (6 + 1 - 1) = 7 := by omega
  have h2 : w / 2 ^ 30 % 2 ^ (31 + 1 - 30) = 2 := by omega
  have f_i : w / 2 ^ 21 % 2 ^ (29 + 1 - 21) = i.toNat := by omega
  have f_a : w / 2 ^ 14 % 2 ^ (20 + 1 - 14) = a.toNat := by omega
  have f_d : w / 2 ^ 7 % 2 ^ (13 + 1 - 7) = d.toNat := by omega
  rw [he]
  simp [decodeRaw, decode32, decodeMajor07, h0, h1, h2, f_i, f_a, f_d]

theorem cmpnei (i : BitVec 9) (a : Reg) (d : Reg) : Statement (.cmpnei i a d) := by
  intro _ _
  have hb_i := i.isLt
  have hb_a := a.isLt
  have hb_d := d.isLt
  obtain ⟨w, hw⟩ : ∃ w, w = 0xc000000f + i.toNat * 2097152 + a.toNat * 16384 + d.toNat * 128 := ⟨_, rfl⟩
  have he : encodeWord (.cmpnei i a d) = w := hw.symm
  have h0 : w % 2 = 1 := by omega
  have h1 : w / 2 ^ 1 % 2 ^ (6 + 1 - 1) = 7 := by omega
  have h2 : w / 2 ^ 30 % 2 ^ (31 + 1 - 30) = 3 := by omega
  have f_i : w / 2 ^ 21 % 2 ^ (29 + 1 - 21) = i.toNat := by omega
  have f_a : w / 2 ^ 14 % 2 ^ (20 + 1 - 14) = a.toNat := by omega
  have f_d : w / 2 ^ 7 % 2 ^ (13 + 1 - 7) = d.toNat := by omega
  rw [he]
  simp [decodeRaw, decode32, decodeMajor07, h0, h1, h2, f_i, f_a, f_d]

theorem addpi (i : BitVec 11) (a : Reg) (d : Reg) : Statement (.addpi i a d) := by
  intro _ _
  have hb_i := i.isLt
  have hb_a := a.isLt
  have hb_d := d.isLt
  obtain ⟨w, hw⟩ : ∃ w, w = 0x11 + i.toNat * 2097152 + a.toNat * 16384 + d.toNat * 128 := ⟨_, rfl⟩
  have he : encodeWord (.addpi i a d) = w := hw.symm
  have h0 : w % 2 = 1 := by omega
  have h1 : w / 2 ^ 1 % 2 ^ (6 + 1 - 1) = 8 := by omega
  have f_i : w / 2 ^ 21 % 2 ^ (31 + 1 - 21) = i.toNat := by omega
  have f_a : w / 2 ^ 14 % 2 ^ (20 + 1 - 14) = a.toNat := by omega
  have f_d : w / 2 ^ 7 % 2 ^ (13 + 1 - 7) = d.toNat := by omega
  rw [he]
  simp [decodeRaw, decode32, decodeMajor08, h0, h1, f_i, f_a, f_d]

theorem lui (i : BitVec 18) (d : Reg) : Statement (.lui i d) := by
  intro _ _
  have hb_i := i.isLt
  have hb_d := d.isLt
  obtain ⟨w, hw⟩ : ∃ w, w = 0x13 + i.toNat * 16384 + d.toNat * 128 := ⟨_, rfl⟩
  have he : encodeWord (.lui i d) = w := hw.symm
  have h0 : w % 2 = 1 := by omega
  have h1 : w / 2 ^ 1 % 2 ^ (6 + 1 - 1) = 9 := by omega
  have f_i : w / 2 ^ 14 % 2 ^ (31 + 1 - 14) = i.toNat := by omega
  have f_d : w / 2 ^ 7 % 2 ^ (13 + 1 - 7) = d.toNat := by omega
  rw [he]
  simp [decodeRaw, decode32, decodeMajor09, h0, h1, f_i, f_d]

theorem auip (i : BitVec 18) (d : Reg) : Statement (.auip i d) := by
  intro _ _
  have hb_i := i.isLt
  have hb_d := d.isLt
  obtain ⟨w, hw⟩ : ∃ w, w = 0x15 + i.toNat * 16384 + d.toNat * 128 := ⟨_, rfl⟩
  have he : encodeWord (.auip i d) = w := hw.symm
  have h0 : w % 2 = 1 := by omega
  have h1 : w / 2 ^ 1 % 2 ^ (6 + 1 - 1) = 10 := by omega
  have f_i : w / 2 ^ 14 % 2 ^ (31 + 1 - 14) = i.toNat := by omega
  have f_d : w / 2 ^ 7 % 2 ^ (13 + 1 - 7) = d.toNat := by omega
  rw [he]
  simp [decodeRaw, decode32, decodeMajor0A, h0, h1, f_i, f_d]

theorem movri (a : Reg) (d : Reg) : Statement (.movri a d) := by
  intro _ _
  have hb_a := a.isLt
  have hb_d := d.isLt
  obtain ⟨w, hw⟩ : ∃ w, w = 0x17 + a.toNat * 16384 + d.toNat * 128 := ⟨_, rfl⟩
  have he : encodeWord (.movri a d) = w := hw.symm
  have h0 : w % 2 = 1 := by omega
  have h1 : w / 2 ^ 1 % 2 ^ (6 + 1 - 1) = 11 := by omega
  have h2 : w / 2 ^ 21 % 2 ^ (31 + 1 - 21) = 0 := by omega
  have f_a : w / 2 ^ 14 % 2 ^ (20 + 1 - 14) = a.toNat := by omega
  have f_d : w / 2 ^ 7 % 2 ^ (13 + 1 - 7) = d.toNat := by omega
  rw [he]
  simp [decodeRaw, decode32, decodeMajor0B, h0, h1, h2, f_a, f_d]

theorem movro (a : Reg) (d : Reg) : Statement (.movro a d) := by
  intro _ _
  have hb_a := a.isLt
  have hb_d := d.isLt
  obtain ⟨w, hw⟩ : ∃ w, w = 0x200017 + a.toNat * 16384 + d.toNat * 128 := ⟨_, rfl⟩
  have he : encodeWord (.movro a d) = w := hw.symm
  have h0 : w % 2 = 1 := by omega
  have h1 : w / 2 ^ 1 % 2 ^ (6 + 1 - 1) = 11 := by omega
  have h2 : w / 2 ^ 21 % 2 ^ (31 + 1 - 21) = 1 := by omega
  have f_a : w / 2 ^ 14 % 2 ^ (20 + 1 - 14) = a.toNat := by omega
  have f_d : w / 2 ^ 7 % 2 ^ (13 + 1 - 7) = d.toNat := by omega
  rw [he]
  simp [decodeRaw, decode32, decodeMajor0B, h0, h1, h2, f_a, f_d]

theorem mov16 (s : BitVec 5) (d : BitVec 5) : Statement (.mov16 s d) := by
  intro _ _
  have hb_s := s.isLt
  have hb_d := d.isLt
  obtain ⟨w, hw⟩ : ∃ w, w = 0x0 + s.toNat * 2048 + d.toNat * 64 := ⟨_, rfl⟩
  have he : encodeWord (.mov16 s d) = w := hw.symm
  have h0 : w % 2 = 0 := by omega
  have h1 : w % 65536 = w := by omega
  have h2 : w / 2 ^ 0 % 2 ^ (5 + 1 - 0) = 0 := by omega
  have f_s : w / 2 ^ 11 % 2 ^ (15 + 1 - 11) = s.toNat := by omega
  have f_d : w / 2 ^ 6 % 2 ^ (10 + 1 - 6) = d.toNat := by omega
  rw [he]
  simp [decodeRaw, decode16, h0, h1, h2, f_s, f_d]

theorem movi16 (i : BitVec 5) (d : BitVec 5) : Statement (.movi16 i d) := by
  intro _ _
  have hb_i := i.isLt
  have hb_d := d.isLt
  obtain ⟨w, hw⟩ : ∃ w, w = 0x2 + i.toNat * 2048 + d.toNat * 64 := ⟨_, rfl⟩
  have he : encodeWord (.movi16 i d) = w := hw.symm
  have h0 : w % 2 = 0 := by omega
  have h1 : w % 65536 = w := by omega
  have h2 : w / 2 ^ 0 % 2 ^ (5 + 1 - 0) = 2 := by omega
  have f_i : w / 2 ^ 11 % 2 ^ (15 + 1 - 11) = i.toNat := by omega
  have f_d : w / 2 ^ 6 % 2 ^ (10 + 1 - 6) = d.toNat := by omega
  rw [he]
  simp [decodeRaw, decode16, h0, h1, h2, f_i, f_d]

theorem add16 (s : BitVec 5) (d : BitVec 5) : Statement (.add16 s d) := by
  intro _ _
  have hb_s := s.isLt
  have hb_d := d.isLt
  obtain ⟨w, hw⟩ : ∃ w, w = 0x4 + s.toNat * 2048 + d.toNat * 64 := ⟨_, rfl⟩
  have he : encodeWord (.add16 s d) = w := hw.symm
  have h0 : w % 2 = 0 := by omega
  have h1 : w % 65536 = w := by omega
  have h2 : w / 2 ^ 0 % 2 ^ (5 + 1 - 0) = 4 := by omega
  have f_s : w / 2 ^ 11 % 2 ^ (15 + 1 - 11) = s.toNat := by omega
  have f_d : w / 2 ^ 6 % 2 ^ (10 + 1 - 6) = d.toNat := by omega
  rw [he]
  simp [decodeRaw, decode16, h0, h1, h2, f_s, f_d]

theorem addi16 (i : BitVec 5) (d : BitVec 5) : Statement (.addi16 i d) := by
  intro _ _
  have hb_i := i.isLt
  have hb_d := d.isLt
  obtain ⟨w, hw⟩ : ∃ w, w = 0x6 + i.toNat * 2048 + d.toNat * 64 := ⟨_, rfl⟩
  have he : encodeWord (.addi16 i d) = w := hw.symm
  have h0 : w % 2 = 0 := by omega
  have h1 : w % 65536 = w := by omega
  have h2 : w / 2 ^ 0 % 2 ^ (5 + 1 - 0) = 6 := by omega
  have f_i : w / 2 ^ 11 % 2 ^ (15 + 1 - 11) = i.toNat := by omega
  have f_d : w / 2 ^ 6 % 2 ^ (10 + 1 - 6) = d.toNat := by omega
  rw [he]
  simp [decodeRaw, decode16, h0, h1, h2, f_i, f_d]

theorem sub16 (s : BitVec 5) (d : BitVec 5) : Statement (.sub16 s d) := by
  intro _ _
  have hb_s := s.isLt
  have hb_d := d.isLt
  obtain ⟨w, hw⟩ : ∃ w, w = 0x8 + s.toNat * 2048 + d.toNat * 64 := ⟨_, rfl⟩
  have he : encodeWord (.sub16 s d) = w := hw.symm
  have h0 : w % 2 = 0 := by omega
  have h1 : w % 65536 = w := by omega
  have h2 : w / 2 ^ 0 % 2 ^ (5 + 1 - 0) = 8 := by omega
  have f_s : w / 2 ^ 11 % 2 ^ (15 + 1 - 11) = s.toNat := by omega
  have f_d : w / 2 ^ 6 % 2 ^ (10 + 1 - 6) = d.toNat := by omega
  rw [he]
  simp [decodeRaw, decode16, h0, h1, h2, f_s, f_d]

theorem subi16 (i : BitVec 5) (d : BitVec 5) : Statement (.subi16 i d) := by
  intro _ _
  have hb_i := i.isLt
  have hb_d := d.isLt
  obtain ⟨w, hw⟩ : ∃ w, w = 0xa + i.toNat * 2048 + d.toNat * 64 := ⟨_, rfl⟩
  have he : encodeWord (.subi16 i d) = w := hw.symm
  have h0 : w % 2 = 0 := by omega
  have h1 : w % 65536 = w := by omega
  have h2 : w / 2 ^ 0 % 2 ^ (5 + 1 - 0) = 10 := by omega
  have f_i : w / 2 ^ 11 % 2 ^ (15 + 1 - 11) = i.toNat := by omega
  have f_d : w / 2 ^ 6 % 2 ^ (10 + 1 - 6) = d.toNat := by omega
  rw [he]
  simp [decodeRaw, decode16, h0, h1, h2, f_i, f_d]

theorem mul16 (s : BitVec 5) (d : BitVec 5) : Statement (.mul16 s d) := by
  intro _ _
  have hb_s := s.isLt
  have hb_d := d.isLt
  obtain ⟨w, hw⟩ : ∃ w, w = 0xc + s.toNat * 2048 + d.toNat * 64 := ⟨_, rfl⟩
  have he : encodeWord (.mul16 s d) = w := hw.symm
  have h0 : w % 2 = 0 := by omega
  have h1 : w % 65536 = w := by omega
  have h2 : w / 2 ^ 0 % 2 ^ (5 + 1 - 0) = 12 := by omega
  have f_s : w / 2 ^ 11 % 2 ^ (15 + 1 - 11) = s.toNat := by omega
  have f_d : w / 2 ^ 6 % 2 ^ (10 + 1 - 6) = d.toNat := by omega
  rw [he]
  simp [decodeRaw, decode16, h0, h1, h2, f_s, f_d]

theorem muli16 (i : BitVec 5) (d : BitVec 5) : Statement (.muli16 i d) := by
  intro _ _
  have hb_i := i.isLt
  have hb_d := d.isLt
  obtain ⟨w, hw⟩ : ∃ w, w = 0xe + i.toNat * 2048 + d.toNat * 64 := ⟨_, rfl⟩
  have he : encodeWord (.muli16 i d) = w := hw.symm
  have h0 : w % 2 = 0 := by omega
  have h1 : w % 65536 = w := by omega
  have h2 : w / 2 ^ 0 % 2 ^ (5 + 1 - 0) = 14 := by omega
  have f_i : w / 2 ^ 11 % 2 ^ (15 + 1 - 11) = i.toNat := by omega
  have f_d : w / 2 ^ 6 % 2 ^ (10 + 1 - 6) = d.toNat := by omega
  rw [he]
  simp [decodeRaw, decode16, h0, h1, h2, f_i, f_d]

theorem and16 (s : BitVec 5) (d : BitVec 5) : Statement (.and16 s d) := by
  intro _ _
  have hb_s := s.isLt
  have hb_d := d.isLt
  obtain ⟨w, hw⟩ : ∃ w, w = 0x10 + s.toNat * 2048 + d.toNat * 64 := ⟨_, rfl⟩
  have he : encodeWord (.and16 s d) = w := hw.symm
  have h0 : w % 2 = 0 := by omega
  have h1 : w % 65536 = w := by omega
  have h2 : w / 2 ^ 0 % 2 ^ (5 + 1 - 0) = 16 := by omega
  have f_s : w / 2 ^ 11 % 2 ^ (15 + 1 - 11) = s.toNat := by omega
  have f_d : w / 2 ^ 6 % 2 ^ (10 + 1 - 6) = d.toNat := by omega
  rw [he]
  simp [decodeRaw, decode16, h0, h1, h2, f_s, f_d]

theorem andi16 (i : BitVec 5) (d : BitVec 5) : Statement (.andi16 i d) := by
  intro _ _
  have hb_i := i.isLt
  have hb_d := d.isLt
  obtain ⟨w, hw⟩ : ∃ w, w = 0x12 + i.toNat * 2048 + d.toNat * 64 := ⟨_, rfl⟩
  have he : encodeWord (.andi16 i d) = w := hw.symm
  have h0 : w % 2 = 0 := by omega
  have h1 : w % 65536 = w := by omega
  have h2 : w / 2 ^ 0 % 2 ^ (5 + 1 - 0) = 18 := by omega
  have f_i : w / 2 ^ 11 % 2 ^ (15 + 1 - 11) = i.toNat := by omega
  have f_d : w / 2 ^ 6 % 2 ^ (10 + 1 - 6) = d.toNat := by omega
  rw [he]
  simp [decodeRaw, decode16, h0, h1, h2, f_i, f_d]

theorem or16 (s : BitVec 5) (d : BitVec 5) : Statement (.or16 s d) := by
  intro _ _
  have hb_s := s.isLt
  have hb_d := d.isLt
  obtain ⟨w, hw⟩ : ∃ w, w = 0x14 + s.toNat * 2048 + d.toNat * 64 := ⟨_, rfl⟩
  have he : encodeWord (.or16 s d) = w := hw.symm
  have h0 : w % 2 = 0 := by omega
  have h1 : w % 65536 = w := by omega
  have h2 : w / 2 ^ 0 % 2 ^ (5 + 1 - 0) = 20 := by omega
  have f_s : w / 2 ^ 11 % 2 ^ (15 + 1 - 11) = s.toNat := by omega
  have f_d : w / 2 ^ 6 % 2 ^ (10 + 1 - 6) = d.toNat := by omega
  rw [he]
  simp [decodeRaw, decode16, h0, h1, h2, f_s, f_d]

theorem ori16 (i : BitVec 5) (d : BitVec 5) : Statement (.ori16 i d) := by
  intro _ _
  have hb_i := i.isLt
  have hb_d := d.isLt
  obtain ⟨w, hw⟩ : ∃ w, w = 0x16 + i.toNat * 2048 + d.toNat * 64 := ⟨_, rfl⟩
  have he : encodeWord (.ori16 i d) = w := hw.symm
  have h0 : w % 2 = 0 := by omega
  have h1 : w % 65536 = w := by omega
  have h2 : w / 2 ^ 0 % 2 ^ (5 + 1 - 0) = 22 := by omega
  have f_i : w / 2 ^ 11 % 2 ^ (15 + 1 - 11) = i.toNat := by omega
  have f_d : w / 2 ^ 6 % 2 ^ (10 + 1 - 6) = d.toNat := by omega
  rw [he]
  simp [decodeRaw, decode16, h0, h1, h2, f_i, f_d]

theorem xor16 (s : BitVec 5) (d : BitVec 5) : Statement (.xor16 s d) := by
  intro _ _
  have hb_s := s.isLt
  have hb_d := d.isLt
  obtain ⟨w, hw⟩ : ∃ w, w = 0x18 + s.toNat * 2048 + d.toNat * 64 := ⟨_, rfl⟩
  have he : encodeWord (.xor16 s d) = w := hw.symm
  have h0 : w % 2 = 0 := by omega
  have h1 : w % 65536 = w := by omega
  have h2 : w / 2 ^ 0 % 2 ^ (5 + 1 - 0) = 24 := by omega
  have f_s : w / 2 ^ 11 % 2 ^ (15 + 1 - 11) = s.toNat := by omega
  have f_d : w / 2 ^ 6 % 2 ^ (10 + 1 - 6) = d.toNat := by omega
  rw [he]
  simp [decodeRaw, decode16, h0, h1, h2, f_s, f_d]

theorem xori16 (i : BitVec 5) (d : BitVec 5) : Statement (.xori16 i d) := by
  intro _ _
  have hb_i := i.isLt
  have hb_d := d.isLt
  obtain ⟨w, hw⟩ : ∃ w, w = 0x1a + i.toNat * 2048 + d.toNat * 64 := ⟨_, rfl⟩
  have he : encodeWord (.xori16 i d) = w := hw.symm
  have h0 : w % 2 = 0 := by omega
  have h1 : w % 65536 = w := by omega
  have h2 : w / 2 ^ 0 % 2 ^ (5 + 1 - 0) = 26 := by omega
  have f_i : w / 2 ^ 11 % 2 ^ (15 + 1 - 11) = i.toNat := by omega
  have f_d : w / 2 ^ 6 % 2 ^ (10 + 1 - 6) = d.toNat := by omega
  rw [he]
  simp [decodeRaw, decode16, h0, h1, h2, f_i, f_d]

theorem shl16 (s : BitVec 5) (d : BitVec 5) : Statement (.shl16 s d) := by
  intro _ _
  have hb_s := s.isLt
  have hb_d := d.isLt
  obtain ⟨w, hw⟩ : ∃ w, w = 0x1c + s.toNat * 2048 + d.toNat * 64 := ⟨_, rfl⟩
  have he : encodeWord (.shl16 s d) = w := hw.symm
  have h0 : w % 2 = 0 := by omega
  have h1 : w % 65536 = w := by omega
  have h2 : w / 2 ^ 0 % 2 ^ (5 + 1 - 0) = 28 := by omega
  have f_s : w / 2 ^ 11 % 2 ^ (15 + 1 - 11) = s.toNat := by omega
  have f_d : w / 2 ^ 6 % 2 ^ (10 + 1 - 6) = d.toNat := by omega
  rw [he]
  simp [decodeRaw, decode16, h0, h1, h2, f_s, f_d]

theorem shli16 (c : BitVec 5) (d : BitVec 5) : Statement (.shli16 c d) := by
  intro _ _
  have hb_c := c.isLt
  have hb_d := d.isLt
  obtain ⟨w, hw⟩ : ∃ w, w = 0x1e + c.toNat * 2048 + d.toNat * 64 := ⟨_, rfl⟩
  have he : encodeWord (.shli16 c d) = w := hw.symm
  have h0 : w % 2 = 0 := by omega
  have h1 : w % 65536 = w := by omega
  have h2 : w / 2 ^ 0 % 2 ^ (5 + 1 - 0) = 30 := by omega
  have f_c : w / 2 ^ 11 % 2 ^ (15 + 1 - 11) = c.toNat := by omega
  have f_d : w / 2 ^ 6 % 2 ^ (10 + 1 - 6) = d.toNat := by omega
  rw [he]
  simp [decodeRaw, decode16, h0, h1, h2, f_c, f_d]

theorem shru16 (s : BitVec 5) (d : BitVec 5) : Statement (.shru16 s d) := by
  intro _ _
  have hb_s := s.isLt
  have hb_d := d.isLt
  obtain ⟨w, hw⟩ : ∃ w, w = 0x20 + s.toNat * 2048 + d.toNat * 64 := ⟨_, rfl⟩
  have he : encodeWord (.shru16 s d) = w := hw.symm
  have h0 : w % 2 = 0 := by omega
  have h1 : w % 65536 = w := by omega
  have h2 : w / 2 ^ 0 % 2 ^ (5 + 1 - 0) = 32 := by omega
  have f_s : w / 2 ^ 11 % 2 ^ (15 + 1 - 11) = s.toNat := by omega
  have f_d : w / 2 ^ 6 % 2 ^ (10 + 1 - 6) = d.toNat := by omega
  rw [he]
  simp [decodeRaw, decode16, h0, h1, h2, f_s, f_d]

theorem shrui16 (c : BitVec 5) (d : BitVec 5) : Statement (.shrui16 c d) := by
  intro _ _
  have hb_c := c.isLt
  have hb_d := d.isLt
  obtain ⟨w, hw⟩ : ∃ w, w = 0x22 + c.toNat * 2048 + d.toNat * 64 := ⟨_, rfl⟩
  have he : encodeWord (.shrui16 c d) = w := hw.symm
  have h0 : w % 2 = 0 := by omega
  have h1 : w % 65536 = w := by omega
  have h2 : w / 2 ^ 0 % 2 ^ (5 + 1 - 0) = 34 := by omega
  have f_c : w / 2 ^ 11 % 2 ^ (15 + 1 - 11) = c.toNat := by omega
  have f_d : w / 2 ^ 6 % 2 ^ (10 + 1 - 6) = d.toNat := by omega
  rw [he]
  simp [decodeRaw, decode16, h0, h1, h2, f_c, f_d]

theorem shrs16 (s : BitVec 5) (d : BitVec 5) : Statement (.shrs16 s d) := by
  intro _ _
  have hb_s := s.isLt
  have hb_d := d.isLt
  obtain ⟨w, hw⟩ : ∃ w, w = 0x24 + s.toNat * 2048 + d.toNat * 64 := ⟨_, rfl⟩
  have he : encodeWord (.shrs16 s d) = w := hw.symm
  have h0 : w % 2 = 0 := by omega
  have h1 : w % 65536 = w := by omega
  have h2 : w / 2 ^ 0 % 2 ^ (5 + 1 - 0) = 36 := by omega
  have f_s : w / 2 ^ 11 % 2 ^ (15 + 1 - 11) = s.toNat := by omega
  have f_d : w / 2 ^ 6 % 2 ^ (10 + 1 - 6) = d.toNat := by omega
  rw [he]
  simp [decodeRaw, decode16, h0, h1, h2, f_s, f_d]

theorem shrsi16 (c : BitVec 5) (d : BitVec 5) : Statement (.shrsi16 c d) := by
  intro _ _
  have hb_c := c.isLt
  have hb_d := d.isLt
  obtain ⟨w, hw⟩ : ∃ w, w = 0x26 + c.toNat * 2048 + d.toNat * 64 := ⟨_, rfl⟩
  have he : encodeWord (.shrsi16 c d) = w := hw.symm
  have h0 : w % 2 = 0 := by omega
  have h1 : w % 65536 = w := by omega
  have h2 : w / 2 ^ 0 % 2 ^ (5 + 1 - 0) = 38 := by omega
  have f_c : w / 2 ^ 11 % 2 ^ (15 + 1 - 11) = c.toNat := by omega
  have f_d : w / 2 ^ 6 % 2 ^ (10 + 1 - 6) = d.toNat := by omega
  rw [he]
  simp [decodeRaw, decode16, h0, h1, h2, f_c, f_d]

theorem mins16 (s : BitVec 5) (d : BitVec 5) : Statement (.mins16 s d) := by
  intro _ _
  have hb_s := s.isLt
  have hb_d := d.isLt
  obtain ⟨w, hw⟩ : ∃ w, w = 0x28 + s.toNat * 2048 + d.toNat * 64 := ⟨_, rfl⟩
  have he : encodeWord (.mins16 s d) = w := hw.symm
  have h0 : w % 2 = 0 := by omega
  have h1 : w % 65536 = w := by omega
  have h2 : w / 2 ^ 0 % 2 ^ (5 + 1 - 0) = 40 := by omega
  have f_s : w / 2 ^ 11 % 2 ^ (15 + 1 - 11) = s.toNat := by omega
  have f_d : w / 2 ^ 6 % 2 ^ (10 + 1 - 6) = d.toNat := by omega
  rw [he]
  simp [decodeRaw, decode16, h0, h1, h2, f_s, f_d]

theorem minsi16 (i : BitVec 5) (d : BitVec 5) : Statement (.minsi16 i d) := by
  intro _ _
  have hb_i := i.isLt
  have hb_d := d.isLt
  obtain ⟨w, hw⟩ : ∃ w, w = 0x2a + i.toNat * 2048 + d.toNat * 64 := ⟨_, rfl⟩
  have he : encodeWord (.minsi16 i d) = w := hw.symm
  have h0 : w % 2 = 0 := by omega
  have h1 : w % 65536 = w := by omega
  have h2 : w / 2 ^ 0 % 2 ^ (5 + 1 - 0) = 42 := by omega
  have f_i : w / 2 ^ 11 % 2 ^ (15 + 1 - 11) = i.toNat := by omega
  have f_d : w / 2 ^ 6 % 2 ^ (10 + 1 - 6) = d.toNat := by omega
  rw [he]
  simp [decodeRaw, decode16, h0, h1, h2, f_i, f_d]

theorem maxs16 (s : BitVec 5) (d : BitVec 5) : Statement (.maxs16 s d) := by
  intro _ _
  have hb_s := s.isLt
  have hb_d := d.isLt
  obtain ⟨w, hw⟩ : ∃ w, w = 0x2c + s.toNat * 2048 + d.toNat * 64 := ⟨_, rfl⟩
  have he : encodeWord (.maxs16 s d) = w := hw.symm
  have h0 : w % 2 = 0 := by omega
  have h1 : w % 65536 = w := by omega
  have h2 : w / 2 ^ 0 % 2 ^ (5 + 1 - 0) = 44 := by omega
  have f_s : w / 2 ^ 11 % 2 ^ (15 + 1 - 11) = s.toNat := by omega
  have f_d : w / 2 ^ 6 % 2 ^ (10 + 1 - 6) = d.toNat := by omega
  rw [he]
  simp [decodeRaw, decode16, h0, h1, h2, f_s, f_d]

theorem maxsi16 (i : BitVec 5) (d : BitVec 5) : Statement (.maxsi16 i d) := by
  intro _ _
  have hb_i := i.isLt
  have hb_d := d.isLt
  obtain ⟨w, hw⟩ : ∃ w, w = 0x2e + i.toNat * 2048 + d.toNat * 64 := ⟨_, rfl⟩
  have he : encodeWord (.maxsi16 i d) = w := hw.symm
  have h0 : w % 2 = 0 := by omega
  have h1 : w % 65536 = w := by omega
  have h2 : w / 2 ^ 0 % 2 ^ (5 + 1 - 0) = 46 := by omega
  have f_i : w / 2 ^ 11 % 2 ^ (15 + 1 - 11) = i.toNat := by omega
  have f_d : w / 2 ^ 6 % 2 ^ (10 + 1 - 6) = d.toNat := by omega
  rw [he]
  simp [decodeRaw, decode16, h0, h1, h2, f_i, f_d]

theorem fadd16 (s : BitVec 5) (d : BitVec 5) : Statement (.fadd16 s d) := by
  intro _ _
  have hb_s := s.isLt
  have hb_d := d.isLt
  obtain ⟨w, hw⟩ : ∃ w, w = 0x30 + s.toNat * 2048 + d.toNat * 64 := ⟨_, rfl⟩
  have he : encodeWord (.fadd16 s d) = w := hw.symm
  have h0 : w % 2 = 0 := by omega
  have h1 : w % 65536 = w := by omega
  have h2 : w / 2 ^ 0 % 2 ^ (5 + 1 - 0) = 48 := by omega
  have f_s : w / 2 ^ 11 % 2 ^ (15 + 1 - 11) = s.toNat := by omega
  have f_d : w / 2 ^ 6 % 2 ^ (10 + 1 - 6) = d.toNat := by omega
  rw [he]
  simp [decodeRaw, decode16, h0, h1, h2, f_s, f_d]

theorem fsub16 (s : BitVec 5) (d : BitVec 5) : Statement (.fsub16 s d) := by
  intro _ _
  have hb_s := s.isLt
  have hb_d := d.isLt
  obtain ⟨w, hw⟩ : ∃ w, w = 0x34 + s.toNat * 2048 + d.toNat * 64 := ⟨_, rfl⟩
  have he : encodeWord (.fsub16 s d) = w := hw.symm
  have h0 : w % 2 = 0 := by omega
  have h1 : w % 65536 = w := by omega
  have h2 : w / 2 ^ 0 % 2 ^ (5 + 1 - 0) = 52 := by omega
  have f_s : w / 2 ^ 11 % 2 ^ (15 + 1 - 11) = s.toNat := by omega
  have f_d : w / 2 ^ 6 % 2 ^ (10 + 1 - 6) = d.toNat := by omega
  rw [he]
  simp [decodeRaw, decode16, h0, h1, h2, f_s, f_d]

theorem fmul16 (s : BitVec 5) (d : BitVec 5) : Statement (.fmul16 s d) := by
  intro _ _
  have hb_s := s.isLt
  have hb_d := d.isLt
  obtain ⟨w, hw⟩ : ∃ w, w = 0x38 + s.toNat * 2048 + d.toNat * 64 := ⟨_, rfl⟩
  have he : encodeWord (.fmul16 s d) = w := hw.symm
  have h0 : w % 2 = 0 := by omega
  have h1 : w % 65536 = w := by omega
  have h2 : w / 2 ^ 0 % 2 ^ (5 + 1 - 0) = 56 := by omega
  have f_s : w / 2 ^ 11 % 2 ^ (15 + 1 - 11) = s.toNat := by omega
  have f_d : w / 2 ^ 6 % 2 ^ (10 + 1 - 6) = d.toNat := by omega
  rw [he]
  simp [decodeRaw, decode16, h0, h1, h2, f_s, f_d]

theorem fmax16 (s : BitVec 5) (d : BitVec 5) : Statement (.fmax16 s d) := by
  intro _ _
  have hb_s := s.isLt
  have hb_d := d.isLt
  obtain ⟨w, hw⟩ : ∃ w, w = 0x3c + s.toNat * 2048 + d.toNat * 64 := ⟨_, rfl⟩
  have he : encodeWord (.fmax16 s d) = w := hw.symm
  have h0 : w % 2 = 0 := by omega
  have h1 : w % 65536 = w := by omega
  have h2 : w / 2 ^ 0 % 2 ^ (5 + 1 - 0) = 60 := by omega
  have f_s : w / 2 ^ 11 % 2 ^ (15 + 1 - 11) = s.toNat := by omega
  have f_d : w / 2 ^ 6 % 2 ^ (10 + 1 - 6) = d.toNat := by omega
  rw [he]
  simp [decodeRaw, decode16, h0, h1, h2, f_s, f_d]

theorem fadd (b : Reg) (a : Reg) (d : Reg) : Statement (.fadd b a d) := by
  intro _ _
  have hb_b := b.isLt
  have hb_a := a.isLt
  have hb_d := d.isLt
  obtain ⟨w, hw⟩ : ∃ w, w = 0x21 + b.toNat * 2097152 + a.toNat * 16384 + d.toNat * 128 := ⟨_, rfl⟩
  have he : encodeWord (.fadd b a d) = w := hw.symm
  have h0 : w % 2 = 1 := by omega
  have h1 : w / 2 ^ 1 % 2 ^ (6 + 1 - 1) = 16 := by omega
  have h2 : w / 2 ^ 28 % 2 ^ (31 + 1 - 28) = 0 := by omega
  have f_b : w / 2 ^ 21 % 2 ^ (27 + 1 - 21) = b.toNat := by omega
  have f_a : w / 2 ^ 14 % 2 ^ (20 + 1 - 14) = a.toNat := by omega
  have f_d : w / 2 ^ 7 % 2 ^ (13 + 1 - 7) = d.toNat := by omega
  rw [he]
  simp [decodeRaw, decode32, decodeMajor10, h0, h1, h2, f_b, f_a, f_d]

theorem fsub (b : Reg) (a : Reg) (d : Reg) : Statement (.fsub b a d) := by
  intro _ _
  have hb_b := b.isLt
  have hb_a := a.isLt
  have hb_d := d.isLt
  obtain ⟨w, hw⟩ : ∃ w, w = 0x10000021 + b.toNat * 2097152 + a.toNat * 16384 + d.toNat * 128 := ⟨_, rfl⟩
  have he : encodeWord (.fsub b a d) = w := hw.symm
  have h0 : w % 2 = 1 := by omega
  have h1 : w / 2 ^ 1 % 2 ^ (6 + 1 - 1) = 16 := by omega
  have h2 : w / 2 ^ 28 % 2 ^ (31 + 1 - 28) = 1 := by omega
  have f_b : w / 2 ^ 21 % 2 ^ (27 + 1 - 21) = b.toNat := by omega
  have f_a : w / 2 ^ 14 % 2 ^ (20 + 1 - 14) = a.toNat := by omega
  have f_d : w / 2 ^ 7 % 2 ^ (13 + 1 - 7) = d.toNat := by omega
  rw [he]
  simp [decodeRaw, decode32, decodeMajor10, h0, h1, h2, f_b, f_a, f_d]

theorem fmul (b : Reg) (a : Reg) (d : Reg) : Statement (.fmul b a d) := by
  intro _ _
  have hb_b := b.isLt
  have hb_a := a.isLt
  have hb_d := d.isLt
  obtain ⟨w, hw⟩ : ∃ w, w = 0x20000021 + b.toNat * 2097152 + a.toNat * 16384 + d.toNat * 128 := ⟨_, rfl⟩
  have he : encodeWord (.fmul b a d) = w := hw.symm
  have h0 : w % 2 = 1 := by omega
  have h1 : w / 2 ^ 1 % 2 ^ (6 + 1 - 1) = 16 := by omega
  have h2 : w / 2 ^ 28 % 2 ^ (31 + 1 - 28) = 2 := by omega
  have f_b : w / 2 ^ 21 % 2 ^ (27 + 1 - 21) = b.toNat := by omega
  have f_a : w / 2 ^ 14 % 2 ^ (20 + 1 - 14) = a.toNat := by omega
  have f_d : w / 2 ^ 7 % 2 ^ (13 + 1 - 7) = d.toNat := by omega
  rw [he]
  simp [decodeRaw, decode32, decodeMajor10, h0, h1, h2, f_b, f_a, f_d]

theorem ffma (b : Reg) (a : Reg) (d : Reg) : Statement (.ffma b a d) := by
  intro _ _
  have hb_b := b.isLt
  have hb_a := a.isLt
  have hb_d := d.isLt
  obtain ⟨w, hw⟩ : ∃ w, w = 0x30000021 + b.toNat * 2097152 + a.toNat * 16384 + d.toNat * 128 := ⟨_, rfl⟩
  have he : encodeWord (.ffma b a d) = w := hw.symm
  have h0 : w % 2 = 1 := by omega
  have h1 : w / 2 ^ 1 % 2 ^ (6 + 1 - 1) = 16 := by omega
  have h2 : w / 2 ^ 28 % 2 ^ (31 + 1 - 28) = 3 := by omega
  have f_b : w / 2 ^ 21 % 2 ^ (27 + 1 - 21) = b.toNat := by omega
  have f_a : w / 2 ^ 14 % 2 ^ (20 + 1 - 14) = a.toNat := by omega
  have f_d : w / 2 ^ 7 % 2 ^ (13 + 1 - 7) = d.toNat := by omega
  rw [he]
  simp [decodeRaw, decode32, decodeMajor10, h0, h1, h2, f_b, f_a, f_d]

theorem ffms (b : Reg) (a : Reg) (d : Reg) : Statement (.ffms b a d) := by
  intro _ _
  have hb_b := b.isLt
  have hb_a := a.isLt
  have hb_d := d.isLt
  obtain ⟨w, hw⟩ : ∃ w, w = 0x40000021 + b.toNat * 2097152 + a.toNat * 16384 + d.toNat * 128 := ⟨_, rfl⟩
  have he : encodeWord (.ffms b a d) = w := hw.symm
  have h0 : w % 2 = 1 := by omega
  have h1 : w / 2 ^ 1 % 2 ^ (6 + 1 - 1) = 16 := by omega
  have h2 : w / 2 ^ 28 % 2 ^ (31 + 1 - 28) = 4 := by omega
  have f_b : w / 2 ^ 21 % 2 ^ (27 + 1 - 21) = b.toNat := by omega
  have f_a : w / 2 ^ 14 % 2 ^ (20 + 1 - 14) = a.toNat := by omega
  have f_d : w / 2 ^ 7 % 2 ^ (13 + 1 - 7) = d.toNat := by omega
  rw [he]
  simp [decodeRaw, decode32, decodeMajor10, h0, h1, h2, f_b, f_a, f_d]

theorem fnfma (b : Reg) (a : Reg) (d : Reg) : Statement (.fnfma b a d) := by
  intro _ _
  have hb_b := b.isLt
  have hb_a := a.isLt
  have hb_d := d.isLt
  obtain ⟨w, hw⟩ : ∃ w, w = 0x50000021 + b.toNat * 2097152 + a.toNat * 16384 + d.toNat * 128 := ⟨_, rfl⟩
  have he : encodeWord (.fnfma b a d) = w := hw.symm
  have h0 : w % 2 = 1 := by omega
  have h1 : w / 2 ^ 1 % 2 ^ (6 + 1 - 1) = 16 := by omega
  have h2 : w / 2 ^ 28 % 2 ^ (31 + 1 - 28) = 5 := by omega
  have f_b : w / 2 ^ 21 % 2 ^ (27 + 1 - 21) = b.toNat := by omega
  have f_a : w / 2 ^ 14 % 2 ^ (20 + 1 - 14) = a.toNat := by omega
  have f_d : w / 2 ^ 7 % 2 ^ (13 + 1 - 7) = d.toNat := by omega
  rw [he]
  simp [decodeRaw, decode32, decodeMajor10, h0, h1, h2, f_b, f_a, f_d]

theorem fmin (b : Reg) (a : Reg) (d : Reg) : Statement (.fmin b a d) := by
  intro _ _
  have hb_b := b.isLt
  have hb_a := a.isLt
  have hb_d := d.isLt
  obtain ⟨w, hw⟩ : ∃ w, w = 0x60000021 + b.toNat * 2097152 + a.toNat * 16384 + d.toNat * 128 := ⟨_, rfl⟩
  have he : encodeWord (.fmin b a d) = w := hw.symm
  have h0 : w % 2 = 1 := by omega
  have h1 : w / 2 ^ 1 % 2 ^ (6 + 1 - 1) = 16 := by omega
  have h2 : w / 2 ^ 28 % 2 ^ (31 + 1 - 28) = 6 := by omega
  have f_b : w / 2 ^ 21 % 2 ^ (27 + 1 - 21) = b.toNat := by omega
  have f_a : w / 2 ^ 14 % 2 ^ (20 + 1 - 14) = a.toNat := by omega
  have f_d : w / 2 ^ 7 % 2 ^ (13 + 1 - 7) = d.toNat := by omega
  rw [he]
  simp [decodeRaw, decode32, decodeMajor10, h0, h1, h2, f_b, f_a, f_d]

theorem fmax (b : Reg) (a : Reg) (d : Reg) : Statement (.fmax b a d) := by
  intro _ _
  have hb_b := b.isLt
  have hb_a := a.isLt
  have hb_d := d.isLt
  obtain ⟨w, hw⟩ : ∃ w, w = 0x70000021 + b.toNat * 2097152 + a.toNat * 16384 + d.toNat * 128 := ⟨_, rfl⟩
  have he : encodeWord (.fmax b a d) = w := hw.symm
  have h0 : w % 2 = 1 := by omega
  have h1 : w / 2 ^ 1 % 2 ^ (6 + 1 - 1) = 16 := by omega
  have h2 : w / 2 ^ 28 % 2 ^ (31 + 1 - 28) = 7 := by omega
  have f_b : w / 2 ^ 21 % 2 ^ (27 + 1 - 21) = b.toNat := by omega
  have f_a : w / 2 ^ 14 % 2 ^ (20 + 1 - 14) = a.toNat := by omega
  have f_d : w / 2 ^ 7 % 2 ^ (13 + 1 - 7) = d.toNat := by omega
  rw [he]
  simp [decodeRaw, decode32, decodeMajor10, h0, h1, h2, f_b, f_a, f_d]

theorem frnd (a : Reg) (d : Reg) : Statement (.frnd a d) := by
  intro _ _
  have hb_a := a.isLt
  have hb_d := d.isLt
  obtain ⟨w, hw⟩ : ∃ w, w = 0x80000021 + a.toNat * 16384 + d.toNat * 128 := ⟨_, rfl⟩
  have he : encodeWord (.frnd a d) = w := hw.symm
  have h0 : w % 2 = 1 := by omega
  have h1 : w / 2 ^ 1 % 2 ^ (6 + 1 - 1) = 16 := by omega
  have h2 : w / 2 ^ 28 % 2 ^ (31 + 1 - 28) = 8 := by omega
  have h3 : w / 2 ^ 21 % 2 ^ (27 + 1 - 21) = 0 := by omega
  have f_a : w / 2 ^ 14 % 2 ^ (20 + 1 - 14) = a.toNat := by omega
  have f_d : w / 2 ^ 7 % 2 ^ (13 + 1 - 7) = d.toNat := by omega
  rw [he]
  simp [decodeRaw, decode32, decodeMajor10, h0, h1, h2, h3, f_a, f_d]

theorem fcls (a : Reg) (d : Reg) : Statement (.fcls a d) := by
  intro _ _
  have hb_a := a.isLt
  have hb_d := d.isLt
  obtain ⟨w, hw⟩ : ∃ w, w = 0x90000021 + a.toNat * 16384 + d.toNat * 128 := ⟨_, rfl⟩
  have he : encodeWord (.fcls a d) = w := hw.symm
  have h0 : w % 2 = 1 := by omega
  have h1 : w / 2 ^ 1 % 2 ^ (6 + 1 - 1) = 16 := by omega
  have h2 : w / 2 ^ 28 % 2 ^ (31 + 1 - 28) = 9 := by omega
  have h3 : w / 2 ^ 21 % 2 ^ (27 + 1 - 21) = 0 := by omega
  have f_a : w / 2 ^ 14 % 2 ^ (20 + 1 - 14) = a.toNat := by omega
  have f_d : w / 2 ^ 7 % 2 ^ (13 + 1 - 7) = d.toNat := by omega
  rw [he]
  simp [decodeRaw, decode32, decodeMajor10, h0, h1, h2, h3, f_a, f_d]

theorem fscalebB0 (b : Reg) (a : Reg) (d : Reg) : Statement (.fscalebB0 b a d) := by
  intro _ _
  have hb_b := b.isLt
  have hb_a := a.isLt
  have hb_d := d.isLt
  obtain ⟨w, hw⟩ : ∃ w, w = 0xa0000021 + b.toNat * 2097152 + a.toNat * 16384 + d.toNat * 128 := ⟨_, rfl⟩
  have he : encodeWord (.fscalebB0 b a d) = w := hw.symm
  have h0 : w % 2 = 1 := by omega
  have h1 : w / 2 ^ 1 % 2 ^ (6 + 1 - 1) = 16 := by omega
  have h2 : w / 2 ^ 28 % 2 ^ (31 + 1 - 28) = 10 := by omega
  have f_b : w / 2 ^ 21 % 2 ^ (27 + 1 - 21) = b.toNat := by omega
  have f_a : w / 2 ^ 14 % 2 ^ (20 + 1 - 14) = a.toNat := by omega
  have f_d : w / 2 ^ 7 % 2 ^ (13 + 1 - 7) = d.toNat := by omega
  rw [he]
  simp [decodeRaw, decode32, decodeMajor10, h0, h1, h2, f_b, f_a, f_d]

theorem fscalebB1 (b : Reg) (a : Reg) (d : Reg) : Statement (.fscalebB1 b a d) := by
  intro _ _
  have hb_b := b.isLt
  have hb_a := a.isLt
  have hb_d := d.isLt
  obtain ⟨w, hw⟩ : ∃ w, w = 0xb0000021 + b.toNat * 2097152 + a.toNat * 16384 + d.toNat * 128 := ⟨_, rfl⟩
  have he : encodeWord (.fscalebB1 b a d) = w := hw.symm
  have h0 : w % 2 = 1 := by omega
  have h1 : w / 2 ^ 1 % 2 ^ (6 + 1 - 1) = 16 := by omega
  have h2 : w / 2 ^ 28 % 2 ^ (31 + 1 - 28) = 11 := by omega
  have f_b : w / 2 ^ 21 % 2 ^ (27 + 1 - 21) = b.toNat := by omega
  have f_a : w / 2 ^ 14 % 2 ^ (20 + 1 - 14) = a.toNat := by omega
  have f_d : w / 2 ^ 7 % 2 ^ (13 + 1 - 7) = d.toNat := by omega
  rw [he]
  simp [decodeRaw, decode32, decodeMajor10, h0, h1, h2, f_b, f_a, f_d]

theorem fscalebB2 (b : Reg) (a : Reg) (d : Reg) : Statement (.fscalebB2 b a d) := by
  intro _ _
  have hb_b := b.isLt
  have hb_a := a.isLt
  have hb_d := d.isLt
  obtain ⟨w, hw⟩ : ∃ w, w = 0xc0000021 + b.toNat * 2097152 + a.toNat * 16384 + d.toNat * 128 := ⟨_, rfl⟩
  have he : encodeWord (.fscalebB2 b a d) = w := hw.symm
  have h0 : w % 2 = 1 := by omega
  have h1 : w / 2 ^ 1 % 2 ^ (6 + 1 - 1) = 16 := by omega
  have h2 : w / 2 ^ 28 % 2 ^ (31 + 1 - 28) = 12 := by omega
  have f_b : w / 2 ^ 21 % 2 ^ (27 + 1 - 21) = b.toNat := by omega
  have f_a : w / 2 ^ 14 % 2 ^ (20 + 1 - 14) = a.toNat := by omega
  have f_d : w / 2 ^ 7 % 2 ^ (13 + 1 - 7) = d.toNat := by omega
  rw [he]
  simp [decodeRaw, decode32, decodeMajor10, h0, h1, h2, f_b, f_a, f_d]

theorem fscalebB3 (b : Reg) (a : Reg) (d : Reg) : Statement (.fscalebB3 b a d) := by
  intro _ _
  have hb_b := b.isLt
  have hb_a := a.isLt
  have hb_d := d.isLt
  obtain ⟨w, hw⟩ : ∃ w, w = 0xd0000021 + b.toNat * 2097152 + a.toNat * 16384 + d.toNat * 128 := ⟨_, rfl⟩
  have he : encodeWord (.fscalebB3 b a d) = w := hw.symm
  have h0 : w % 2 = 1 := by omega
  have h1 : w / 2 ^ 1 % 2 ^ (6 + 1 - 1) = 16 := by omega
  have h2 : w / 2 ^ 28 % 2 ^ (31 + 1 - 28) = 13 := by omega
  have f_b : w / 2 ^ 21 % 2 ^ (27 + 1 - 21) = b.toNat := by omega
  have f_a : w / 2 ^ 14 % 2 ^ (20 + 1 - 14) = a.toNat := by omega
  have f_d : w / 2 ^ 7 % 2 ^ (13 + 1 - 7) = d.toNat := by omega
  rw [he]
  simp [decodeRaw, decode32, decodeMajor10, h0, h1, h2, f_b, f_a, f_d]

theorem fabs (a : Reg) (d : Reg) : Statement (.fabs a d) := by
  intro _ _
  have hb_a := a.isLt
  have hb_d := d.isLt
  obtain ⟨w, hw⟩ : ∃ w, w = 0xe0000021 + a.toNat * 16384 + d.toNat * 128 := ⟨_, rfl⟩
  have he : encodeWord (.fabs a d) = w := hw.symm
  have h0 : w % 2 = 1 := by omega
  have h1 : w / 2 ^ 1 % 2 ^ (6 + 1 - 1) = 16 := by omega
  have h2 : w / 2 ^ 28 % 2 ^ (31 + 1 - 28) = 14 := by omega
  have h3 : w / 2 ^ 21 % 2 ^ (27 + 1 - 21) = 0 := by omega
  have f_a : w / 2 ^ 14 % 2 ^ (20 + 1 - 14) = a.toNat := by omega
  have f_d : w / 2 ^ 7 % 2 ^ (13 + 1 - 7) = d.toNat := by omega
  rw [he]
  simp [decodeRaw, decode32, decodeMajor10, h0, h1, h2, h3, f_a, f_d]

theorem fneg (a : Reg) (d : Reg) : Statement (.fneg a d) := by
  intro _ _
  have hb_a := a.isLt
  have hb_d := d.isLt
  obtain ⟨w, hw⟩ : ∃ w, w = 0xf0000021 + a.toNat * 16384 + d.toNat * 128 := ⟨_, rfl⟩
  have he : encodeWord (.fneg a d) = w := hw.symm
  have h0 : w % 2 = 1 := by omega
  have h1 : w / 2 ^ 1 % 2 ^ (6 + 1 - 1) = 16 := by omega
  have h2 : w / 2 ^ 28 % 2 ^ (31 + 1 - 28) = 15 := by omega
  have h3 : w / 2 ^ 21 % 2 ^ (27 + 1 - 21) = 0 := by omega
  have f_a : w / 2 ^ 14 % 2 ^ (20 + 1 - 14) = a.toNat := by omega
  have f_d : w / 2 ^ 7 % 2 ^ (13 + 1 - 7) = d.toNat := by omega
  rw [he]
  simp [decodeRaw, decode32, decodeMajor10, h0, h1, h2, h3, f_a, f_d]

theorem fcmp (cc : Cmp) (sig : Bool) (b : Reg) (a : Reg) (d : Reg) : Statement (.fcmp cc sig b a d) := by
  intro _ _
  have hb_cc := cc.code_lt
  have hb_sig := sig.toNat_le
  have hb_b := b.isLt
  have hb_a := a.isLt
  have hb_d := d.isLt
  obtain ⟨w, hw⟩ : ∃ w, w = 0x23 + cc.code * 268435456 + sig.toNat * 2147483648 + b.toNat * 2097152 + a.toNat * 16384 + d.toNat * 128 := ⟨_, rfl⟩
  have he : encodeWord (.fcmp cc sig b a d) = w := hw.symm
  have h0 : w % 2 = 1 := by omega
  have h1 : w / 2 ^ 1 % 2 ^ (6 + 1 - 1) = 17 := by omega
  have f_cc : w / 2 ^ 28 % 2 ^ (30 + 1 - 28) = cc.code := by omega
  have f_sig : w / 2 ^ 31 % 2 ^ (31 + 1 - 31) = sig.toNat := by omega
  have f_b : w / 2 ^ 21 % 2 ^ (27 + 1 - 21) = b.toNat := by omega
  have f_a : w / 2 ^ 14 % 2 ^ (20 + 1 - 14) = a.toNat := by omega
  have f_d : w / 2 ^ 7 % 2 ^ (13 + 1 - 7) = d.toNat := by omega
  rw [he]
  simp [decodeRaw, decode32, decodeMajor11, h0, h1, f_cc, f_sig, f_b, f_a, f_d]

theorem dcmp (cc : Cmp) (sig : Bool) (b : Reg) (a : Reg) (d : Reg) : Statement (.dcmp cc sig b a d) := by
  intro _ _
  have hb_cc := cc.code_lt
  have hb_sig := sig.toNat_le
  have hb_b := b.isLt
  have hb_a := a.isLt
  have hb_d := d.isLt
  obtain ⟨w, hw⟩ : ∃ w, w = 0x27 + cc.code * 268435456 + sig.toNat * 2147483648 + b.toNat * 2097152 + a.toNat * 16384 + d.toNat * 128 := ⟨_, rfl⟩
  have he : encodeWord (.dcmp cc sig b a d) = w := hw.symm
  have h0 : w % 2 = 1 := by omega
  have h1 : w / 2 ^ 1 % 2 ^ (6 + 1 - 1) = 19 := by omega
  have f_cc : w / 2 ^ 28 % 2 ^ (30 + 1 - 28) = cc.code := by omega
  have f_sig : w / 2 ^ 31 % 2 ^ (31 + 1 - 31) = sig.toNat := by omega
  have f_b : w / 2 ^ 21 % 2 ^ (27 + 1 - 21) = b.toNat := by omega
  have f_a : w / 2 ^ 14 % 2 ^ (20 + 1 - 14) = a.toNat := by omega
  have f_d : w / 2 ^ 7 % 2 ^ (13 + 1 - 7) = d.toNat := by omega
  rw [he]
  simp [decodeRaw, decode32, decodeMajor13, h0, h1, f_cc, f_sig, f_b, f_a, f_d]

theorem dadd (b : Reg) (a : Reg) (d : Reg) : Statement (.dadd b a d) := by
  intro _ _
  have hb_b := b.isLt
  have hb_a := a.isLt
  have hb_d := d.isLt
  obtain ⟨w, hw⟩ : ∃ w, w = 0x25 + b.toNat * 2097152 + a.toNat * 16384 + d.toNat * 128 := ⟨_, rfl⟩
  have he : encodeWord (.dadd b a d) = w := hw.symm
  have h0 : w % 2 = 1 := by omega
  have h1 : w / 2 ^ 1 % 2 ^ (6 + 1 - 1) = 18 := by omega
  have h2 : w / 2 ^ 28 % 2 ^ (31 + 1 - 28) = 0 := by omega
  have f_b : w / 2 ^ 21 % 2 ^ (27 + 1 - 21) = b.toNat := by omega
  have f_a : w / 2 ^ 14 % 2 ^ (20 + 1 - 14) = a.toNat := by omega
  have f_d : w / 2 ^ 7 % 2 ^ (13 + 1 - 7) = d.toNat := by omega
  rw [he]
  simp [decodeRaw, decode32, decodeMajor12, h0, h1, h2, f_b, f_a, f_d]

theorem dsub (b : Reg) (a : Reg) (d : Reg) : Statement (.dsub b a d) := by
  intro _ _
  have hb_b := b.isLt
  have hb_a := a.isLt
  have hb_d := d.isLt
  obtain ⟨w, hw⟩ : ∃ w, w = 0x10000025 + b.toNat * 2097152 + a.toNat * 16384 + d.toNat * 128 := ⟨_, rfl⟩
  have he : encodeWord (.dsub b a d) = w := hw.symm
  have h0 : w % 2 = 1 := by omega
  have h1 : w / 2 ^ 1 % 2 ^ (6 + 1 - 1) = 18 := by omega
  have h2 : w / 2 ^ 28 % 2 ^ (31 + 1 - 28) = 1 := by omega
  have f_b : w / 2 ^ 21 % 2 ^ (27 + 1 - 21) = b.toNat := by omega
  have f_a : w / 2 ^ 14 % 2 ^ (20 + 1 - 14) = a.toNat := by omega
  have f_d : w / 2 ^ 7 % 2 ^ (13 + 1 - 7) = d.toNat := by omega
  rw [he]
  simp [decodeRaw, decode32, decodeMajor12, h0, h1, h2, f_b, f_a, f_d]

theorem dmul (b : Reg) (a : Reg) (d : Reg) : Statement (.dmul b a d) := by
  intro _ _
  have hb_b := b.isLt
  have hb_a := a.isLt
  have hb_d := d.isLt
  obtain ⟨w, hw⟩ : ∃ w, w = 0x20000025 + b.toNat * 2097152 + a.toNat * 16384 + d.toNat * 128 := ⟨_, rfl⟩
  have he : encodeWord (.dmul b a d) = w := hw.symm
  have h0 : w % 2 = 1 := by omega
  have h1 : w / 2 ^ 1 % 2 ^ (6 + 1 - 1) = 18 := by omega
  have h2 : w / 2 ^ 28 % 2 ^ (31 + 1 - 28) = 2 := by omega
  have f_b : w / 2 ^ 21 % 2 ^ (27 + 1 - 21) = b.toNat := by omega
  have f_a : w / 2 ^ 14 % 2 ^ (20 + 1 - 14) = a.toNat := by omega
  have f_d : w / 2 ^ 7 % 2 ^ (13 + 1 - 7) = d.toNat := by omega
  rw [he]
  simp [decodeRaw, decode32, decodeMajor12, h0, h1, h2, f_b, f_a, f_d]

theorem dfma (b : Reg) (a : Reg) (d : Reg) : Statement (.dfma b a d) := by
  intro _ _
  have hb_b := b.isLt
  have hb_a := a.isLt
  have hb_d := d.isLt
  obtain ⟨w, hw⟩ : ∃ w, w = 0x30000025 + b.toNat * 2097152 + a.toNat * 16384 + d.toNat * 128 := ⟨_, rfl⟩
  have he : encodeWord (.dfma b a d) = w := hw.symm
  have h0 : w % 2 = 1 := by omega
  have h1 : w / 2 ^ 1 % 2 ^ (6 + 1 - 1) = 18 := by omega
  have h2 : w / 2 ^ 28 % 2 ^ (31 + 1 - 28) = 3 := by omega
  have f_b : w / 2 ^ 21 % 2 ^ (27 + 1 - 21) = b.toNat := by omega
  have f_a : w / 2 ^ 14 % 2 ^ (20 + 1 - 14) = a.toNat := by omega
  have f_d : w / 2 ^ 7 % 2 ^ (13 + 1 - 7) = d.toNat := by omega
  rw [he]
  simp [decodeRaw, decode32, decodeMajor12, h0, h1, h2, f_b, f_a, f_d]

theorem dmin (b : Reg) (a : Reg) (d : Reg) : Statement (.dmin b a d) := by
  intro _ _
  have hb_b := b.isLt
  have hb_a := a.isLt
  have hb_d := d.isLt
  obtain ⟨w, hw⟩ : ∃ w, w = 0x40000025 + b.toNat * 2097152 + a.toNat * 16384 + d.toNat * 128 := ⟨_, rfl⟩
  have he : encodeWord (.dmin b a d) = w := hw.symm
  have h0 : w % 2 = 1 := by omega
  have h1 : w / 2 ^ 1 % 2 ^ (6 + 1 - 1) = 18 := by omega
  have h2 : w / 2 ^ 28 % 2 ^ (31 + 1 - 28) = 4 := by omega
  have f_b : w / 2 ^ 21 % 2 ^ (27 + 1 - 21) = b.toNat := by omega
  have f_a : w / 2 ^ 14 % 2 ^ (20 + 1 - 14) = a.toNat := by omega
  have f_d : w / 2 ^ 7 % 2 ^ (13 + 1 - 7) = d.toNat := by omega
  rw [he]
  simp [decodeRaw, decode32, decodeMajor12, h0, h1, h2, f_b, f_a, f_d]

theorem dmax (b : Reg) (a : Reg) (d : Reg) : Statement (.dmax b a d) := by
  intro _ _
  have hb_b := b.isLt
  have hb_a := a.isLt
  have hb_d := d.isLt
  obtain ⟨w, hw⟩ : ∃ w, w = 0x50000025 + b.toNat * 2097152 + a.toNat * 16384 + d.toNat * 128 := ⟨_, rfl⟩
  have he : encodeWord (.dmax b a d) = w := hw.symm
  have h0 : w % 2 = 1 := by omega
  have h1 : w / 2 ^ 1 % 2 ^ (6 + 1 - 1) = 18 := by omega
  have h2 : w / 2 ^ 28 % 2 ^ (31 + 1 - 28) = 5 := by omega
  have f_b : w / 2 ^ 21 % 2 ^ (27 + 1 - 21) = b.toNat := by omega
  have f_a : w / 2 ^ 14 % 2 ^ (20 + 1 - 14) = a.toNat := by omega
  have f_d : w / 2 ^ 7 % 2 ^ (13 + 1 - 7) = d.toNat := by omega
  rw [he]
  simp [decodeRaw, decode32, decodeMajor12, h0, h1, h2, f_b, f_a, f_d]

theorem drnd (a : Reg) (d : Reg) : Statement (.drnd a d) := by
  intro _ _
  have hb_a := a.isLt
  have hb_d := d.isLt
  obtain ⟨w, hw⟩ : ∃ w, w = 0x60000025 + a.toNat * 16384 + d.toNat * 128 := ⟨_, rfl⟩
  have he : encodeWord (.drnd a d) = w := hw.symm
  have h0 : w % 2 = 1 := by omega
  have h1 : w / 2 ^ 1 % 2 ^ (6 + 1 - 1) = 18 := by omega
  have h2 : w / 2 ^ 28 % 2 ^ (31 + 1 - 28) = 6 := by omega
  have h3 : w / 2 ^ 21 % 2 ^ (27 + 1 - 21) = 0 := by omega
  have f_a : w / 2 ^ 14 % 2 ^ (20 + 1 - 14) = a.toNat := by omega
  have f_d : w / 2 ^ 7 % 2 ^ (13 + 1 - 7) = d.toNat := by omega
  rw [he]
  simp [decodeRaw, decode32, decodeMajor12, h0, h1, h2, h3, f_a, f_d]

theorem dabs (a : Reg) (d : Reg) : Statement (.dabs a d) := by
  intro _ _
  have hb_a := a.isLt
  have hb_d := d.isLt
  obtain ⟨w, hw⟩ : ∃ w, w = 0x70000025 + a.toNat * 16384 + d.toNat * 128 := ⟨_, rfl⟩
  have he : encodeWord (.dabs a d) = w := hw.symm
  have h0 : w % 2 = 1 := by omega
  have h1 : w / 2 ^ 1 % 2 ^ (6 + 1 - 1) = 18 := by omega
  have h2 : w / 2 ^ 28 % 2 ^ (31 + 1 - 28) = 7 := by omega
  have h3 : w / 2 ^ 21 % 2 ^ (27 + 1 - 21) = 0 := by omega
  have f_a : w / 2 ^ 14 % 2 ^ (20 + 1 - 14) = a.toNat := by omega
  have f_d : w / 2 ^ 7 % 2 ^ (13 + 1 - 7) = d.toNat := by omega
  rw [he]
  simp [decodeRaw, decode32, decodeMajor12, h0, h1, h2, h3, f_a, f_d]

theorem dneg (a : Reg) (d : Reg) : Statement (.dneg a d) := by
  intro _ _
  have hb_a := a.isLt
  have hb_d := d.isLt
  obtain ⟨w, hw⟩ : ∃ w, w = 0x80000025 + a.toNat * 16384 + d.toNat * 128 := ⟨_, rfl⟩
  have he : encodeWord (.dneg a d) = w := hw.symm
  have h0 : w % 2 = 1 := by omega
  have h1 : w / 2 ^ 1 % 2 ^ (6 + 1 - 1) = 18 := by omega
  have h2 : w / 2 ^ 28 % 2 ^ (31 + 1 - 28) = 8 := by omega
  have h3 : w / 2 ^ 21 % 2 ^ (27 + 1 - 21) = 0 := by omega
  have f_a : w / 2 ^ 14 % 2 ^ (20 + 1 - 14) = a.toNat := by omega
  have f_d : w / 2 ^ 7 % 2 ^ (13 + 1 - 7) = d.toNat := by omega
  rw [he]
  simp [decodeRaw, decode32, decodeMajor12, h0, h1, h2, h3, f_a, f_d]

theorem hadd2 (b : Reg) (a : Reg) (d : Reg) : Statement (.hadd2 b a d) := by
  intro _ _
  have hb_b := b.isLt
  have hb_a := a.isLt
  have hb_d := d.isLt
  obtain ⟨w, hw⟩ : ∃ w, w = 0x29 + b.toNat * 2097152 + a.toNat * 16384 + d.toNat * 128 := ⟨_, rfl⟩
  have he : encodeWord (.hadd2 b a d) = w := hw.symm
  have h0 : w % 2 = 1 := by omega
  have h1 : w / 2 ^ 1 % 2 ^ (6 + 1 - 1) = 20 := by omega
  have h2 : w / 2 ^ 28 % 2 ^ (31 + 1 - 28) = 0 := by omega
  have f_b : w / 2 ^ 21 % 2 ^ (27 + 1 - 21) = b.toNat := by omega
  have f_a : w / 2 ^ 14 % 2 ^ (20 + 1 - 14) = a.toNat := by omega
  have f_d : w / 2 ^ 7 % 2 ^ (13 + 1 - 7) = d.toNat := by omega
  rw [he]
  simp [decodeRaw, decode32, decodeMajor14, h0, h1, h2, f_b, f_a, f_d]

theorem hsub2 (b : Reg) (a : Reg) (d : Reg) : Statement (.hsub2 b a d) := by
  intro _ _
  have hb_b := b.isLt
  have hb_a := a.isLt
  have hb_d := d.isLt
  obtain ⟨w, hw⟩ : ∃ w, w = 0x10000029 + b.toNat * 2097152 + a.toNat * 16384 + d.toNat * 128 := ⟨_, rfl⟩
  have he : encodeWord (.hsub2 b a d) = w := hw.symm
  have h0 : w % 2 = 1 := by omega
  have h1 : w / 2 ^ 1 % 2 ^ (6 + 1 - 1) = 20 := by omega
  have h2 : w / 2 ^ 28 % 2 ^ (31 + 1 - 28) = 1 := by omega
  have f_b : w / 2 ^ 21 % 2 ^ (27 + 1 - 21) = b.toNat := by omega
  have f_a : w / 2 ^ 14 % 2 ^ (20 + 1 - 14) = a.toNat := by omega
  have f_d : w / 2 ^ 7 % 2 ^ (13 + 1 - 7) = d.toNat := by omega
  rw [he]
  simp [decodeRaw, decode32, decodeMajor14, h0, h1, h2, f_b, f_a, f_d]

theorem hmul2 (b : Reg) (a : Reg) (d : Reg) : Statement (.hmul2 b a d) := by
  intro _ _
  have hb_b := b.isLt
  have hb_a := a.isLt
  have hb_d := d.isLt
  obtain ⟨w, hw⟩ : ∃ w, w = 0x20000029 + b.toNat * 2097152 + a.toNat * 16384 + d.toNat * 128 := ⟨_, rfl⟩
  have he : encodeWord (.hmul2 b a d) = w := hw.symm
  have h0 : w % 2 = 1 := by omega
  have h1 : w / 2 ^ 1 % 2 ^ (6 + 1 - 1) = 20 := by omega
  have h2 : w / 2 ^ 28 % 2 ^ (31 + 1 - 28) = 2 := by omega
  have f_b : w / 2 ^ 21 % 2 ^ (27 + 1 - 21) = b.toNat := by omega
  have f_a : w / 2 ^ 14 % 2 ^ (20 + 1 - 14) = a.toNat := by omega
  have f_d : w / 2 ^ 7 % 2 ^ (13 + 1 - 7) = d.toNat := by omega
  rw [he]
  simp [decodeRaw, decode32, decodeMajor14, h0, h1, h2, f_b, f_a, f_d]

theorem hfma2 (b : Reg) (a : Reg) (d : Reg) : Statement (.hfma2 b a d) := by
  intro _ _
  have hb_b := b.isLt
  have hb_a := a.isLt
  have hb_d := d.isLt
  obtain ⟨w, hw⟩ : ∃ w, w = 0x30000029 + b.toNat * 2097152 + a.toNat * 16384 + d.toNat * 128 := ⟨_, rfl⟩
  have he : encodeWord (.hfma2 b a d) = w := hw.symm
  have h0 : w % 2 = 1 := by omega
  have h1 : w / 2 ^ 1 % 2 ^ (6 + 1 - 1) = 20 := by omega
  have h2 : w / 2 ^ 28 % 2 ^ (31 + 1 - 28) = 3 := by omega
  have f_b : w / 2 ^ 21 % 2 ^ (27 + 1 - 21) = b.toNat := by omega
  have f_a : w / 2 ^ 14 % 2 ^ (20 + 1 - 14) = a.toNat := by omega
  have f_d : w / 2 ^ 7 % 2 ^ (13 + 1 - 7) = d.toNat := by omega
  rw [he]
  simp [decodeRaw, decode32, decodeMajor14, h0, h1, h2, f_b, f_a, f_d]

theorem hmin2 (b : Reg) (a : Reg) (d : Reg) : Statement (.hmin2 b a d) := by
  intro _ _
  have hb_b := b.isLt
  have hb_a := a.isLt
  have hb_d := d.isLt
  obtain ⟨w, hw⟩ : ∃ w, w = 0x40000029 + b.toNat * 2097152 + a.toNat * 16384 + d.toNat * 128 := ⟨_, rfl⟩
  have he : encodeWord (.hmin2 b a d) = w := hw.symm
  have h0 : w % 2 = 1 := by omega
  have h1 : w / 2 ^ 1 % 2 ^ (6 + 1 - 1) = 20 := by omega
  have h2 : w / 2 ^ 28 % 2 ^ (31 + 1 - 28) = 4 := by omega
  have f_b : w / 2 ^ 21 % 2 ^ (27 + 1 - 21) = b.toNat := by omega
  have f_a : w / 2 ^ 14 % 2 ^ (20 + 1 - 14) = a.toNat := by omega
  have f_d : w / 2 ^ 7 % 2 ^ (13 + 1 - 7) = d.toNat := by omega
  rw [he]
  simp [decodeRaw, decode32, decodeMajor14, h0, h1, h2, f_b, f_a, f_d]

theorem hmax2 (b : Reg) (a : Reg) (d : Reg) : Statement (.hmax2 b a d) := by
  intro _ _
  have hb_b := b.isLt
  have hb_a := a.isLt
  have hb_d := d.isLt
  obtain ⟨w, hw⟩ : ∃ w, w = 0x50000029 + b.toNat * 2097152 + a.toNat * 16384 + d.toNat * 128 := ⟨_, rfl⟩
  have he : encodeWord (.hmax2 b a d) = w := hw.symm
  have h0 : w % 2 = 1 := by omega
  have h1 : w / 2 ^ 1 % 2 ^ (6 + 1 - 1) = 20 := by omega
  have h2 : w / 2 ^ 28 % 2 ^ (31 + 1 - 28) = 5 := by omega
  have f_b : w / 2 ^ 21 % 2 ^ (27 + 1 - 21) = b.toNat := by omega
  have f_a : w / 2 ^ 14 % 2 ^ (20 + 1 - 14) = a.toNat := by omega
  have f_d : w / 2 ^ 7 % 2 ^ (13 + 1 - 7) = d.toNat := by omega
  rw [he]
  simp [decodeRaw, decode32, decodeMajor14, h0, h1, h2, f_b, f_a, f_d]

theorem badd2 (b : Reg) (a : Reg) (d : Reg) : Statement (.badd2 b a d) := by
  intro _ _
  have hb_b := b.isLt
  have hb_a := a.isLt
  have hb_d := d.isLt
  obtain ⟨w, hw⟩ : ∃ w, w = 0x80000029 + b.toNat * 2097152 + a.toNat * 16384 + d.toNat * 128 := ⟨_, rfl⟩
  have he : encodeWord (.badd2 b a d) = w := hw.symm
  have h0 : w % 2 = 1 := by omega
  have h1 : w / 2 ^ 1 % 2 ^ (6 + 1 - 1) = 20 := by omega
  have h2 : w / 2 ^ 28 % 2 ^ (31 + 1 - 28) = 8 := by omega
  have f_b : w / 2 ^ 21 % 2 ^ (27 + 1 - 21) = b.toNat := by omega
  have f_a : w / 2 ^ 14 % 2 ^ (20 + 1 - 14) = a.toNat := by omega
  have f_d : w / 2 ^ 7 % 2 ^ (13 + 1 - 7) = d.toNat := by omega
  rw [he]
  simp [decodeRaw, decode32, decodeMajor14, h0, h1, h2, f_b, f_a, f_d]

theorem bsub2 (b : Reg) (a : Reg) (d : Reg) : Statement (.bsub2 b a d) := by
  intro _ _
  have hb_b := b.isLt
  have hb_a := a.isLt
  have hb_d := d.isLt
  obtain ⟨w, hw⟩ : ∃ w, w = 0x90000029 + b.toNat * 2097152 + a.toNat * 16384 + d.toNat * 128 := ⟨_, rfl⟩
  have he : encodeWord (.bsub2 b a d) = w := hw.symm
  have h0 : w % 2 = 1 := by omega
  have h1 : w / 2 ^ 1 % 2 ^ (6 + 1 - 1) = 20 := by omega
  have h2 : w / 2 ^ 28 % 2 ^ (31 + 1 - 28) = 9 := by omega
  have f_b : w / 2 ^ 21 % 2 ^ (27 + 1 - 21) = b.toNat := by omega
  have f_a : w / 2 ^ 14 % 2 ^ (20 + 1 - 14) = a.toNat := by omega
  have f_d : w / 2 ^ 7 % 2 ^ (13 + 1 - 7) = d.toNat := by omega
  rw [he]
  simp [decodeRaw, decode32, decodeMajor14, h0, h1, h2, f_b, f_a, f_d]

theorem bmul2 (b : Reg) (a : Reg) (d : Reg) : Statement (.bmul2 b a d) := by
  intro _ _
  have hb_b := b.isLt
  have hb_a := a.isLt
  have hb_d := d.isLt
  obtain ⟨w, hw⟩ : ∃ w, w = 0xa0000029 + b.toNat * 2097152 + a.toNat * 16384 + d.toNat * 128 := ⟨_, rfl⟩
  have he : encodeWord (.bmul2 b a d) = w := hw.symm
  have h0 : w % 2 = 1 := by omega
  have h1 : w / 2 ^ 1 % 2 ^ (6 + 1 - 1) = 20 := by omega
  have h2 : w / 2 ^ 28 % 2 ^ (31 + 1 - 28) = 10 := by omega
  have f_b : w / 2 ^ 21 % 2 ^ (27 + 1 - 21) = b.toNat := by omega
  have f_a : w / 2 ^ 14 % 2 ^ (20 + 1 - 14) = a.toNat := by omega
  have f_d : w / 2 ^ 7 % 2 ^ (13 + 1 - 7) = d.toNat := by omega
  rw [he]
  simp [decodeRaw, decode32, decodeMajor14, h0, h1, h2, f_b, f_a, f_d]

theorem bfma2 (b : Reg) (a : Reg) (d : Reg) : Statement (.bfma2 b a d) := by
  intro _ _
  have hb_b := b.isLt
  have hb_a := a.isLt
  have hb_d := d.isLt
  obtain ⟨w, hw⟩ : ∃ w, w = 0xb0000029 + b.toNat * 2097152 + a.toNat * 16384 + d.toNat * 128 := ⟨_, rfl⟩
  have he : encodeWord (.bfma2 b a d) = w := hw.symm
  have h0 : w % 2 = 1 := by omega
  have h1 : w / 2 ^ 1 % 2 ^ (6 + 1 - 1) = 20 := by omega
  have h2 : w / 2 ^ 28 % 2 ^ (31 + 1 - 28) = 11 := by omega
  have f_b : w / 2 ^ 21 % 2 ^ (27 + 1 - 21) = b.toNat := by omega
  have f_a : w / 2 ^ 14 % 2 ^ (20 + 1 - 14) = a.toNat := by omega
  have f_d : w / 2 ^ 7 % 2 ^ (13 + 1 - 7) = d.toNat := by omega
  rw [he]
  simp [decodeRaw, decode32, decodeMajor14, h0, h1, h2, f_b, f_a, f_d]

theorem bmin2 (b : Reg) (a : Reg) (d : Reg) : Statement (.bmin2 b a d) := by
  intro _ _
  have hb_b := b.isLt
  have hb_a := a.isLt
  have hb_d := d.isLt
  obtain ⟨w, hw⟩ : ∃ w, w = 0xc0000029 + b.toNat * 2097152 + a.toNat * 16384 + d.toNat * 128 := ⟨_, rfl⟩
  have he : encodeWord (.bmin2 b a d) = w := hw.symm
  have h0 : w % 2 = 1 := by omega
  have h1 : w / 2 ^ 1 % 2 ^ (6 + 1 - 1) = 20 := by omega
  have h2 : w / 2 ^ 28 % 2 ^ (31 + 1 - 28) = 12 := by omega
  have f_b : w / 2 ^ 21 % 2 ^ (27 + 1 - 21) = b.toNat := by omega
  have f_a : w / 2 ^ 14 % 2 ^ (20 + 1 - 14) = a.toNat := by omega
  have f_d : w / 2 ^ 7 % 2 ^ (13 + 1 - 7) = d.toNat := by omega
  rw [he]
  simp [decodeRaw, decode32, decodeMajor14, h0, h1, h2, f_b, f_a, f_d]

theorem bmax2 (b : Reg) (a : Reg) (d : Reg) : Statement (.bmax2 b a d) := by
  intro _ _
  have hb_b := b.isLt
  have hb_a := a.isLt
  have hb_d := d.isLt
  obtain ⟨w, hw⟩ : ∃ w, w = 0xd0000029 + b.toNat * 2097152 + a.toNat * 16384 + d.toNat * 128 := ⟨_, rfl⟩
  have he : encodeWord (.bmax2 b a d) = w := hw.symm
  have h0 : w % 2 = 1 := by omega
  have h1 : w / 2 ^ 1 % 2 ^ (6 + 1 - 1) = 20 := by omega
  have h2 : w / 2 ^ 28 % 2 ^ (31 + 1 - 28) = 13 := by omega
  have f_b : w / 2 ^ 21 % 2 ^ (27 + 1 - 21) = b.toNat := by omega
  have f_a : w / 2 ^ 14 % 2 ^ (20 + 1 - 14) = a.toNat := by omega
  have f_d : w / 2 ^ 7 % 2 ^ (13 + 1 - 7) = d.toNat := by omega
  rw [he]
  simp [decodeRaw, decode32, decodeMajor14, h0, h1, h2, f_b, f_a, f_d]

theorem cvt (t : Bool) (r : Rm) (c : NumFmt) (e : NumFmt) (a : Reg) (d : Reg) : Statement (.cvt t r c e a d) := by
  intro _ _
  have hb_t := t.toNat_le
  have hb_r := r.code_lt
  have hb_c := c.code_lt
  have hb_e := e.code_lt
  have hb_a := a.isLt
  have hb_d := d.isLt
  obtain ⟨w, hw⟩ : ∃ w, w = 0x2b + t.toNat * 2147483648 + r.code * 536870912 + c.code * 33554432 + e.code * 2097152 + a.toNat * 16384 + d.toNat * 128 := ⟨_, rfl⟩
  have he : encodeWord (.cvt t r c e a d) = w := hw.symm
  have h0 : w % 2 = 1 := by omega
  have h1 : w / 2 ^ 1 % 2 ^ (6 + 1 - 1) = 21 := by omega
  have f_t : w / 2 ^ 31 % 2 ^ (31 + 1 - 31) = t.toNat := by omega
  have f_r : w / 2 ^ 29 % 2 ^ (30 + 1 - 29) = r.code := by omega
  have f_c : w / 2 ^ 25 % 2 ^ (28 + 1 - 25) = c.code := by omega
  have f_e : w / 2 ^ 21 % 2 ^ (24 + 1 - 21) = e.code := by omega
  have f_a : w / 2 ^ 14 % 2 ^ (20 + 1 - 14) = a.toNat := by omega
  have f_d : w / 2 ^ 7 % 2 ^ (13 + 1 - 7) = d.toNat := by omega
  rw [he]
  simp [decodeRaw, decode32, decodeMajor15, h0, h1, f_t, f_r, f_c, f_e, f_a, f_d]

theorem dot8S8 (b : Reg) (a : Reg) (d : Reg) : Statement (.dot8S8 b a d) := by
  intro _ _
  have hb_b := b.isLt
  have hb_a := a.isLt
  have hb_d := d.isLt
  obtain ⟨w, hw⟩ : ∃ w, w = 0x2d + b.toNat * 2097152 + a.toNat * 16384 + d.toNat * 128 := ⟨_, rfl⟩
  have he : encodeWord (.dot8S8 b a d) = w := hw.symm
  have h0 : w % 2 = 1 := by omega
  have h1 : w / 2 ^ 1 % 2 ^ (6 + 1 - 1) = 22 := by omega
  have h2 : w / 2 ^ 28 % 2 ^ (31 + 1 - 28) = 0 := by omega
  have f_b : w / 2 ^ 21 % 2 ^ (27 + 1 - 21) = b.toNat := by omega
  have f_a : w / 2 ^ 14 % 2 ^ (20 + 1 - 14) = a.toNat := by omega
  have f_d : w / 2 ^ 7 % 2 ^ (13 + 1 - 7) = d.toNat := by omega
  rw [he]
  simp [decodeRaw, decode32, decodeMajor16, h0, h1, h2, f_b, f_a, f_d]

theorem dot8U8 (b : Reg) (a : Reg) (d : Reg) : Statement (.dot8U8 b a d) := by
  intro _ _
  have hb_b := b.isLt
  have hb_a := a.isLt
  have hb_d := d.isLt
  obtain ⟨w, hw⟩ : ∃ w, w = 0x1000002d + b.toNat * 2097152 + a.toNat * 16384 + d.toNat * 128 := ⟨_, rfl⟩
  have he : encodeWord (.dot8U8 b a d) = w := hw.symm
  have h0 : w % 2 = 1 := by omega
  have h1 : w / 2 ^ 1 % 2 ^ (6 + 1 - 1) = 22 := by omega
  have h2 : w / 2 ^ 28 % 2 ^ (31 + 1 - 28) = 1 := by omega
  have f_b : w / 2 ^ 21 % 2 ^ (27 + 1 - 21) = b.toNat := by omega
  have f_a : w / 2 ^ 14 % 2 ^ (20 + 1 - 14) = a.toNat := by omega
  have f_d : w / 2 ^ 7 % 2 ^ (13 + 1 - 7) = d.toNat := by omega
  rw [he]
  simp [decodeRaw, decode32, decodeMajor16, h0, h1, h2, f_b, f_a, f_d]

theorem dot8E4m3 (b : Reg) (a : Reg) (d : Reg) : Statement (.dot8E4m3 b a d) := by
  intro _ _
  have hb_b := b.isLt
  have hb_a := a.isLt
  have hb_d := d.isLt
  obtain ⟨w, hw⟩ : ∃ w, w = 0x2000002d + b.toNat * 2097152 + a.toNat * 16384 + d.toNat * 128 := ⟨_, rfl⟩
  have he : encodeWord (.dot8E4m3 b a d) = w := hw.symm
  have h0 : w % 2 = 1 := by omega
  have h1 : w / 2 ^ 1 % 2 ^ (6 + 1 - 1) = 22 := by omega
  have h2 : w / 2 ^ 28 % 2 ^ (31 + 1 - 28) = 2 := by omega
  have f_b : w / 2 ^ 21 % 2 ^ (27 + 1 - 21) = b.toNat := by omega
  have f_a : w / 2 ^ 14 % 2 ^ (20 + 1 - 14) = a.toNat := by omega
  have f_d : w / 2 ^ 7 % 2 ^ (13 + 1 - 7) = d.toNat := by omega
  rw [he]
  simp [decodeRaw, decode32, decodeMajor16, h0, h1, h2, f_b, f_a, f_d]

theorem dot8E5m2 (b : Reg) (a : Reg) (d : Reg) : Statement (.dot8E5m2 b a d) := by
  intro _ _
  have hb_b := b.isLt
  have hb_a := a.isLt
  have hb_d := d.isLt
  obtain ⟨w, hw⟩ : ∃ w, w = 0x3000002d + b.toNat * 2097152 + a.toNat * 16384 + d.toNat * 128 := ⟨_, rfl⟩
  have he : encodeWord (.dot8E5m2 b a d) = w := hw.symm
  have h0 : w % 2 = 1 := by omega
  have h1 : w / 2 ^ 1 % 2 ^ (6 + 1 - 1) = 22 := by omega
  have h2 : w / 2 ^ 28 % 2 ^ (31 + 1 - 28) = 3 := by omega
  have f_b : w / 2 ^ 21 % 2 ^ (27 + 1 - 21) = b.toNat := by omega
  have f_a : w / 2 ^ 14 % 2 ^ (20 + 1 - 14) = a.toNat := by omega
  have f_d : w / 2 ^ 7 % 2 ^ (13 + 1 - 7) = d.toNat := by omega
  rw [he]
  simp [decodeRaw, decode32, decodeMajor16, h0, h1, h2, f_b, f_a, f_d]

theorem dot4S4 (b : Reg) (a : Reg) (d : Reg) : Statement (.dot4S4 b a d) := by
  intro _ _
  have hb_b := b.isLt
  have hb_a := a.isLt
  have hb_d := d.isLt
  obtain ⟨w, hw⟩ : ∃ w, w = 0x4000002d + b.toNat * 2097152 + a.toNat * 16384 + d.toNat * 128 := ⟨_, rfl⟩
  have he : encodeWord (.dot4S4 b a d) = w := hw.symm
  have h0 : w % 2 = 1 := by omega
  have h1 : w / 2 ^ 1 % 2 ^ (6 + 1 - 1) = 22 := by omega
  have h2 : w / 2 ^ 28 % 2 ^ (31 + 1 - 28) = 4 := by omega
  have f_b : w / 2 ^ 21 % 2 ^ (27 + 1 - 21) = b.toNat := by omega
  have f_a : w / 2 ^ 14 % 2 ^ (20 + 1 - 14) = a.toNat := by omega
  have f_d : w / 2 ^ 7 % 2 ^ (13 + 1 - 7) = d.toNat := by omega
  rw [he]
  simp [decodeRaw, decode32, decodeMajor16, h0, h1, h2, f_b, f_a, f_d]

theorem dot4E2m1 (b : Reg) (a : Reg) (d : Reg) : Statement (.dot4E2m1 b a d) := by
  intro _ _
  have hb_b := b.isLt
  have hb_a := a.isLt
  have hb_d := d.isLt
  obtain ⟨w, hw⟩ : ∃ w, w = 0x5000002d + b.toNat * 2097152 + a.toNat * 16384 + d.toNat * 128 := ⟨_, rfl⟩
  have he : encodeWord (.dot4E2m1 b a d) = w := hw.symm
  have h0 : w % 2 = 1 := by omega
  have h1 : w / 2 ^ 1 % 2 ^ (6 + 1 - 1) = 22 := by omega
  have h2 : w / 2 ^ 28 % 2 ^ (31 + 1 - 28) = 5 := by omega
  have f_b : w / 2 ^ 21 % 2 ^ (27 + 1 - 21) = b.toNat := by omega
  have f_a : w / 2 ^ 14 % 2 ^ (20 + 1 - 14) = a.toNat := by omega
  have f_d : w / 2 ^ 7 % 2 ^ (13 + 1 - 7) = d.toNat := by omega
  rw [he]
  simp [decodeRaw, decode32, decodeMajor16, h0, h1, h2, f_b, f_a, f_d]

theorem frcp (L : BitVec 4) (a : Reg) (d : Reg) : Statement (.frcp L a d) := by
  intro _ _
  have hb_L := L.isLt
  have hb_a := a.isLt
  have hb_d := d.isLt
  obtain ⟨w, hw⟩ : ∃ w, w = 0x2f + L.toNat * 16777216 + a.toNat * 16384 + d.toNat * 128 := ⟨_, rfl⟩
  have he : encodeWord (.frcp L a d) = w := hw.symm
  have h0 : w % 2 = 1 := by omega
  have h1 : w / 2 ^ 1 % 2 ^ (6 + 1 - 1) = 23 := by omega
  have h2 : w / 2 ^ 30 % 2 ^ (31 + 1 - 30) = 0 := by omega
  have h3 : w / 2 ^ 21 % 2 ^ (23 + 1 - 21) = 0 := by omega
  have h4 : w / 2 ^ 28 % 2 ^ (29 + 1 - 28) = 0 := by omega
  have f_L : w / 2 ^ 24 % 2 ^ (27 + 1 - 24) = L.toNat := by omega
  have f_a : w / 2 ^ 14 % 2 ^ (20 + 1 - 14) = a.toNat := by omega
  have f_d : w / 2 ^ 7 % 2 ^ (13 + 1 - 7) = d.toNat := by omega
  rw [he]
  simp [decodeRaw, decode32, decodeMajor17, h0, h1, h2, h3, h4, f_L, f_a, f_d]

theorem frsq (L : BitVec 4) (a : Reg) (d : Reg) : Statement (.frsq L a d) := by
  intro _ _
  have hb_L := L.isLt
  have hb_a := a.isLt
  have hb_d := d.isLt
  obtain ⟨w, hw⟩ : ∃ w, w = 0x20002f + L.toNat * 16777216 + a.toNat * 16384 + d.toNat * 128 := ⟨_, rfl⟩
  have he : encodeWord (.frsq L a d) = w := hw.symm
  have h0 : w % 2 = 1 := by omega
  have h1 : w / 2 ^ 1 % 2 ^ (6 + 1 - 1) = 23 := by omega
  have h2 : w / 2 ^ 30 % 2 ^ (31 + 1 - 30) = 0 := by omega
  have h3 : w / 2 ^ 21 % 2 ^ (23 + 1 - 21) = 1 := by omega
  have h4 : w / 2 ^ 28 % 2 ^ (29 + 1 - 28) = 0 := by omega
  have f_L : w / 2 ^ 24 % 2 ^ (27 + 1 - 24) = L.toNat := by omega
  have f_a : w / 2 ^ 14 % 2 ^ (20 + 1 - 14) = a.toNat := by omega
  have f_d : w / 2 ^ 7 % 2 ^ (13 + 1 - 7) = d.toNat := by omega
  rw [he]
  simp [decodeRaw, decode32, decodeMajor17, h0, h1, h2, h3, h4, f_L, f_a, f_d]

theorem fsqrt (L : BitVec 4) (a : Reg) (d : Reg) : Statement (.fsqrt L a d) := by
  intro _ _
  have hb_L := L.isLt
  have hb_a := a.isLt
  have hb_d := d.isLt
  obtain ⟨w, hw⟩ : ∃ w, w = 0x40002f + L.toNat * 16777216 + a.toNat * 16384 + d.toNat * 128 := ⟨_, rfl⟩
  have he : encodeWord (.fsqrt L a d) = w := hw.symm
  have h0 : w % 2 = 1 := by omega
  have h1 : w / 2 ^ 1 % 2 ^ (6 + 1 - 1) = 23 := by omega
  have h2 : w / 2 ^ 30 % 2 ^ (31 + 1 - 30) = 0 := by omega
  have h3 : w / 2 ^ 21 % 2 ^ (23 + 1 - 21) = 2 := by omega
  have h4 : w / 2 ^ 28 % 2 ^ (29 + 1 - 28) = 0 := by omega
  have f_L : w / 2 ^ 24 % 2 ^ (27 + 1 - 24) = L.toNat := by omega
  have f_a : w / 2 ^ 14 % 2 ^ (20 + 1 - 14) = a.toNat := by omega
  have f_d : w / 2 ^ 7 % 2 ^ (13 + 1 - 7) = d.toNat := by omega
  rw [he]
  simp [decodeRaw, decode32, decodeMajor17, h0, h1, h2, h3, h4, f_L, f_a, f_d]

theorem fexp2 (L : BitVec 4) (a : Reg) (d : Reg) : Statement (.fexp2 L a d) := by
  intro _ _
  have hb_L := L.isLt
  have hb_a := a.isLt
  have hb_d := d.isLt
  obtain ⟨w, hw⟩ : ∃ w, w = 0x60002f + L.toNat * 16777216 + a.toNat * 16384 + d.toNat * 128 := ⟨_, rfl⟩
  have he : encodeWord (.fexp2 L a d) = w := hw.symm
  have h0 : w % 2 = 1 := by omega
  have h1 : w / 2 ^ 1 % 2 ^ (6 + 1 - 1) = 23 := by omega
  have h2 : w / 2 ^ 30 % 2 ^ (31 + 1 - 30) = 0 := by omega
  have h3 : w / 2 ^ 21 % 2 ^ (23 + 1 - 21) = 3 := by omega
  have h4 : w / 2 ^ 28 % 2 ^ (29 + 1 - 28) = 0 := by omega
  have f_L : w / 2 ^ 24 % 2 ^ (27 + 1 - 24) = L.toNat := by omega
  have f_a : w / 2 ^ 14 % 2 ^ (20 + 1 - 14) = a.toNat := by omega
  have f_d : w / 2 ^ 7 % 2 ^ (13 + 1 - 7) = d.toNat := by omega
  rw [he]
  simp [decodeRaw, decode32, decodeMajor17, h0, h1, h2, h3, h4, f_L, f_a, f_d]

theorem flog2 (L : BitVec 4) (a : Reg) (d : Reg) : Statement (.flog2 L a d) := by
  intro _ _
  have hb_L := L.isLt
  have hb_a := a.isLt
  have hb_d := d.isLt
  obtain ⟨w, hw⟩ : ∃ w, w = 0x80002f + L.toNat * 16777216 + a.toNat * 16384 + d.toNat * 128 := ⟨_, rfl⟩
  have he : encodeWord (.flog2 L a d) = w := hw.symm
  have h0 : w % 2 = 1 := by omega
  have h1 : w / 2 ^ 1 % 2 ^ (6 + 1 - 1) = 23 := by omega
  have h2 : w / 2 ^ 30 % 2 ^ (31 + 1 - 30) = 0 := by omega
  have h3 : w / 2 ^ 21 % 2 ^ (23 + 1 - 21) = 4 := by omega
  have h4 : w / 2 ^ 28 % 2 ^ (29 + 1 - 28) = 0 := by omega
  have f_L : w / 2 ^ 24 % 2 ^ (27 + 1 - 24) = L.toNat := by omega
  have f_a : w / 2 ^ 14 % 2 ^ (20 + 1 - 14) = a.toNat := by omega
  have f_d : w / 2 ^ 7 % 2 ^ (13 + 1 - 7) = d.toNat := by omega
  rw [he]
  simp [decodeRaw, decode32, decodeMajor17, h0, h1, h2, h3, h4, f_L, f_a, f_d]

theorem fsin (L : BitVec 4) (a : Reg) (d : Reg) : Statement (.fsin L a d) := by
  intro _ _
  have hb_L := L.isLt
  have hb_a := a.isLt
  have hb_d := d.isLt
  obtain ⟨w, hw⟩ : ∃ w, w = 0xa0002f + L.toNat * 16777216 + a.toNat * 16384 + d.toNat * 128 := ⟨_, rfl⟩
  have he : encodeWord (.fsin L a d) = w := hw.symm
  have h0 : w % 2 = 1 := by omega
  have h1 : w / 2 ^ 1 % 2 ^ (6 + 1 - 1) = 23 := by omega
  have h2 : w / 2 ^ 30 % 2 ^ (31 + 1 - 30) = 0 := by omega
  have h3 : w / 2 ^ 21 % 2 ^ (23 + 1 - 21) = 5 := by omega
  have h4 : w / 2 ^ 28 % 2 ^ (29 + 1 - 28) = 0 := by omega
  have f_L : w / 2 ^ 24 % 2 ^ (27 + 1 - 24) = L.toNat := by omega
  have f_a : w / 2 ^ 14 % 2 ^ (20 + 1 - 14) = a.toNat := by omega
  have f_d : w / 2 ^ 7 % 2 ^ (13 + 1 - 7) = d.toNat := by omega
  rw [he]
  simp [decodeRaw, decode32, decodeMajor17, h0, h1, h2, h3, h4, f_L, f_a, f_d]

theorem fcos (L : BitVec 4) (a : Reg) (d : Reg) : Statement (.fcos L a d) := by
  intro _ _
  have hb_L := L.isLt
  have hb_a := a.isLt
  have hb_d := d.isLt
  obtain ⟨w, hw⟩ : ∃ w, w = 0xc0002f + L.toNat * 16777216 + a.toNat * 16384 + d.toNat * 128 := ⟨_, rfl⟩
  have he : encodeWord (.fcos L a d) = w := hw.symm
  have h0 : w % 2 = 1 := by omega
  have h1 : w / 2 ^ 1 % 2 ^ (6 + 1 - 1) = 23 := by omega
  have h2 : w / 2 ^ 30 % 2 ^ (31 + 1 - 30) = 0 := by omega
  have h3 : w / 2 ^ 21 % 2 ^ (23 + 1 - 21) = 6 := by omega
  have h4 : w / 2 ^ 28 % 2 ^ (29 + 1 - 28) = 0 := by omega
  have f_L : w / 2 ^ 24 % 2 ^ (27 + 1 - 24) = L.toNat := by omega
  have f_a : w / 2 ^ 14 % 2 ^ (20 + 1 - 14) = a.toNat := by omega
  have f_d : w / 2 ^ 7 % 2 ^ (13 + 1 - 7) = d.toNat := by omega
  rw [he]
  simp [decodeRaw, decode32, decodeMajor17, h0, h1, h2, h3, h4, f_L, f_a, f_d]

theorem ftanh (L : BitVec 4) (a : Reg) (d : Reg) : Statement (.ftanh L a d) := by
  intro _ _
  have hb_L := L.isLt
  have hb_a := a.isLt
  have hb_d := d.isLt
  obtain ⟨w, hw⟩ : ∃ w, w = 0xe0002f + L.toNat * 16777216 + a.toNat * 16384 + d.toNat * 128 := ⟨_, rfl⟩
  have he : encodeWord (.ftanh L a d) = w := hw.symm
  have h0 : w % 2 = 1 := by omega
  have h1 : w / 2 ^ 1 % 2 ^ (6 + 1 - 1) = 23 := by omega
  have h2 : w / 2 ^ 30 % 2 ^ (31 + 1 - 30) = 0 := by omega
  have h3 : w / 2 ^ 21 % 2 ^ (23 + 1 - 21) = 7 := by omega
  have h4 : w / 2 ^ 28 % 2 ^ (29 + 1 - 28) = 0 := by omega
  have f_L : w / 2 ^ 24 % 2 ^ (27 + 1 - 24) = L.toNat := by omega
  have f_a : w / 2 ^ 14 % 2 ^ (20 + 1 - 14) = a.toNat := by omega
  have f_d : w / 2 ^ 7 % 2 ^ (13 + 1 - 7) = d.toNat := by omega
  rw [he]
  simp [decodeRaw, decode32, decodeMajor17, h0, h1, h2, h3, h4, f_L, f_a, f_d]

theorem frcpCr (r : Rm) (L : BitVec 4) (a : Reg) (d : Reg) : Statement (.frcpCr r L a d) := by
  intro _ _
  have hb_r := r.code_lt
  have hb_L := L.isLt
  have hb_a := a.isLt
  have hb_d := d.isLt
  obtain ⟨w, hw⟩ : ∃ w, w = 0x4000002f + r.code * 268435456 + L.toNat * 16777216 + a.toNat * 16384 + d.toNat * 128 := ⟨_, rfl⟩
  have he : encodeWord (.frcpCr r L a d) = w := hw.symm
  have h0 : w % 2 = 1 := by omega
  have h1 : w / 2 ^ 1 % 2 ^ (6 + 1 - 1) = 23 := by omega
  have h2 : w / 2 ^ 30 % 2 ^ (31 + 1 - 30) = 1 := by omega
  have h3 : w / 2 ^ 21 % 2 ^ (23 + 1 - 21) = 0 := by omega
  have f_r : w / 2 ^ 28 % 2 ^ (29 + 1 - 28) = r.code := by omega
  have f_L : w / 2 ^ 24 % 2 ^ (27 + 1 - 24) = L.toNat := by omega
  have f_a : w / 2 ^ 14 % 2 ^ (20 + 1 - 14) = a.toNat := by omega
  have f_d : w / 2 ^ 7 % 2 ^ (13 + 1 - 7) = d.toNat := by omega
  rw [he]
  simp [decodeRaw, decode32, decodeMajor17, h0, h1, h2, h3, f_r, f_L, f_a, f_d]

theorem frsqCr (r : Rm) (L : BitVec 4) (a : Reg) (d : Reg) : Statement (.frsqCr r L a d) := by
  intro _ _
  have hb_r := r.code_lt
  have hb_L := L.isLt
  have hb_a := a.isLt
  have hb_d := d.isLt
  obtain ⟨w, hw⟩ : ∃ w, w = 0x4020002f + r.code * 268435456 + L.toNat * 16777216 + a.toNat * 16384 + d.toNat * 128 := ⟨_, rfl⟩
  have he : encodeWord (.frsqCr r L a d) = w := hw.symm
  have h0 : w % 2 = 1 := by omega
  have h1 : w / 2 ^ 1 % 2 ^ (6 + 1 - 1) = 23 := by omega
  have h2 : w / 2 ^ 30 % 2 ^ (31 + 1 - 30) = 1 := by omega
  have h3 : w / 2 ^ 21 % 2 ^ (23 + 1 - 21) = 1 := by omega
  have f_r : w / 2 ^ 28 % 2 ^ (29 + 1 - 28) = r.code := by omega
  have f_L : w / 2 ^ 24 % 2 ^ (27 + 1 - 24) = L.toNat := by omega
  have f_a : w / 2 ^ 14 % 2 ^ (20 + 1 - 14) = a.toNat := by omega
  have f_d : w / 2 ^ 7 % 2 ^ (13 + 1 - 7) = d.toNat := by omega
  rw [he]
  simp [decodeRaw, decode32, decodeMajor17, h0, h1, h2, h3, f_r, f_L, f_a, f_d]

theorem fsqrtCr (r : Rm) (L : BitVec 4) (a : Reg) (d : Reg) : Statement (.fsqrtCr r L a d) := by
  intro _ _
  have hb_r := r.code_lt
  have hb_L := L.isLt
  have hb_a := a.isLt
  have hb_d := d.isLt
  obtain ⟨w, hw⟩ : ∃ w, w = 0x4040002f + r.code * 268435456 + L.toNat * 16777216 + a.toNat * 16384 + d.toNat * 128 := ⟨_, rfl⟩
  have he : encodeWord (.fsqrtCr r L a d) = w := hw.symm
  have h0 : w % 2 = 1 := by omega
  have h1 : w / 2 ^ 1 % 2 ^ (6 + 1 - 1) = 23 := by omega
  have h2 : w / 2 ^ 30 % 2 ^ (31 + 1 - 30) = 1 := by omega
  have h3 : w / 2 ^ 21 % 2 ^ (23 + 1 - 21) = 2 := by omega
  have f_r : w / 2 ^ 28 % 2 ^ (29 + 1 - 28) = r.code := by omega
  have f_L : w / 2 ^ 24 % 2 ^ (27 + 1 - 24) = L.toNat := by omega
  have f_a : w / 2 ^ 14 % 2 ^ (20 + 1 - 14) = a.toNat := by omega
  have f_d : w / 2 ^ 7 % 2 ^ (13 + 1 - 7) = d.toNat := by omega
  rw [he]
  simp [decodeRaw, decode32, decodeMajor17, h0, h1, h2, h3, f_r, f_L, f_a, f_d]

theorem drcp (r : Rm) (L : BitVec 4) (a : Reg) (d : Reg) : Statement (.drcp r L a d) := by
  intro _ _
  have hb_r := r.code_lt
  have hb_L := L.isLt
  have hb_a := a.isLt
  have hb_d := d.isLt
  obtain ⟨w, hw⟩ : ∃ w, w = 0x8000002f + r.code * 268435456 + L.toNat * 16777216 + a.toNat * 16384 + d.toNat * 128 := ⟨_, rfl⟩
  have he : encodeWord (.drcp r L a d) = w := hw.symm
  have h0 : w % 2 = 1 := by omega
  have h1 : w / 2 ^ 1 % 2 ^ (6 + 1 - 1) = 23 := by omega
  have h2 : w / 2 ^ 30 % 2 ^ (31 + 1 - 30) = 2 := by omega
  have h3 : w / 2 ^ 21 % 2 ^ (23 + 1 - 21) = 0 := by omega
  have f_r : w / 2 ^ 28 % 2 ^ (29 + 1 - 28) = r.code := by omega
  have f_L : w / 2 ^ 24 % 2 ^ (27 + 1 - 24) = L.toNat := by omega
  have f_a : w / 2 ^ 14 % 2 ^ (20 + 1 - 14) = a.toNat := by omega
  have f_d : w / 2 ^ 7 % 2 ^ (13 + 1 - 7) = d.toNat := by omega
  rw [he]
  simp [decodeRaw, decode32, decodeMajor17, h0, h1, h2, h3, f_r, f_L, f_a, f_d]

theorem drsq (r : Rm) (L : BitVec 4) (a : Reg) (d : Reg) : Statement (.drsq r L a d) := by
  intro _ _
  have hb_r := r.code_lt
  have hb_L := L.isLt
  have hb_a := a.isLt
  have hb_d := d.isLt
  obtain ⟨w, hw⟩ : ∃ w, w = 0x8020002f + r.code * 268435456 + L.toNat * 16777216 + a.toNat * 16384 + d.toNat * 128 := ⟨_, rfl⟩
  have he : encodeWord (.drsq r L a d) = w := hw.symm
  have h0 : w % 2 = 1 := by omega
  have h1 : w / 2 ^ 1 % 2 ^ (6 + 1 - 1) = 23 := by omega
  have h2 : w / 2 ^ 30 % 2 ^ (31 + 1 - 30) = 2 := by omega
  have h3 : w / 2 ^ 21 % 2 ^ (23 + 1 - 21) = 1 := by omega
  have f_r : w / 2 ^ 28 % 2 ^ (29 + 1 - 28) = r.code := by omega
  have f_L : w / 2 ^ 24 % 2 ^ (27 + 1 - 24) = L.toNat := by omega
  have f_a : w / 2 ^ 14 % 2 ^ (20 + 1 - 14) = a.toNat := by omega
  have f_d : w / 2 ^ 7 % 2 ^ (13 + 1 - 7) = d.toNat := by omega
  rw [he]
  simp [decodeRaw, decode32, decodeMajor17, h0, h1, h2, h3, f_r, f_L, f_a, f_d]

theorem dsqrt (r : Rm) (L : BitVec 4) (a : Reg) (d : Reg) : Statement (.dsqrt r L a d) := by
  intro _ _
  have hb_r := r.code_lt
  have hb_L := L.isLt
  have hb_a := a.isLt
  have hb_d := d.isLt
  obtain ⟨w, hw⟩ : ∃ w, w = 0x8040002f + r.code * 268435456 + L.toNat * 16777216 + a.toNat * 16384 + d.toNat * 128 := ⟨_, rfl⟩
  have he : encodeWord (.dsqrt r L a d) = w := hw.symm
  have h0 : w % 2 = 1 := by omega
  have h1 : w / 2 ^ 1 % 2 ^ (6 + 1 - 1) = 23 := by omega
  have h2 : w / 2 ^ 30 % 2 ^ (31 + 1 - 30) = 2 := by omega
  have h3 : w / 2 ^ 21 % 2 ^ (23 + 1 - 21) = 2 := by omega
  have f_r : w / 2 ^ 28 % 2 ^ (29 + 1 - 28) = r.code := by omega
  have f_L : w / 2 ^ 24 % 2 ^ (27 + 1 - 24) = L.toNat := by omega
  have f_a : w / 2 ^ 14 % 2 ^ (20 + 1 - 14) = a.toNat := by omega
  have f_d : w / 2 ^ 7 % 2 ^ (13 + 1 - 7) = d.toNat := by omega
  rw [he]
  simp [decodeRaw, decode32, decodeMajor17, h0, h1, h2, h3, f_r, f_L, f_a, f_d]

theorem shfl (b : Reg) (a : Reg) (d : Reg) : Statement (.shfl b a d) := by
  intro _ _
  have hb_b := b.isLt
  have hb_a := a.isLt
  have hb_d := d.isLt
  obtain ⟨w, hw⟩ : ∃ w, w = 0x31 + b.toNat * 2097152 + a.toNat * 16384 + d.toNat * 128 := ⟨_, rfl⟩
  have he : encodeWord (.shfl b a d) = w := hw.symm
  have h0 : w % 2 = 1 := by omega
  have h1 : w / 2 ^ 1 % 2 ^ (6 + 1 - 1) = 24 := by omega
  have h2 : w / 2 ^ 28 % 2 ^ (31 + 1 - 28) = 0 := by omega
  have f_b : w / 2 ^ 21 % 2 ^ (27 + 1 - 21) = b.toNat := by omega
  have f_a : w / 2 ^ 14 % 2 ^ (20 + 1 - 14) = a.toNat := by omega
  have f_d : w / 2 ^ 7 % 2 ^ (13 + 1 - 7) = d.toNat := by omega
  rw [he]
  simp [decodeRaw, decode32, decodeMajor18, h0, h1, h2, f_b, f_a, f_d]

theorem shfllo (b : Reg) (a : Reg) (d : Reg) : Statement (.shfllo b a d) := by
  intro _ _
  have hb_b := b.isLt
  have hb_a := a.isLt
  have hb_d := d.isLt
  obtain ⟨w, hw⟩ : ∃ w, w = 0x10000031 + b.toNat * 2097152 + a.toNat * 16384 + d.toNat * 128 := ⟨_, rfl⟩
  have he : encodeWord (.shfllo b a d) = w := hw.symm
  have h0 : w % 2 = 1 := by omega
  have h1 : w / 2 ^ 1 % 2 ^ (6 + 1 - 1) = 24 := by omega
  have h2 : w / 2 ^ 28 % 2 ^ (31 + 1 - 28) = 1 := by omega
  have f_b : w / 2 ^ 21 % 2 ^ (27 + 1 - 21) = b.toNat := by omega
  have f_a : w / 2 ^ 14 % 2 ^ (20 + 1 - 14) = a.toNat := by omega
  have f_d : w / 2 ^ 7 % 2 ^ (13 + 1 - 7) = d.toNat := by omega
  rw [he]
  simp [decodeRaw, decode32, decodeMajor18, h0, h1, h2, f_b, f_a, f_d]

theorem shflhi (b : Reg) (a : Reg) (d : Reg) : Statement (.shflhi b a d) := by
  intro _ _
  have hb_b := b.isLt
  have hb_a := a.isLt
  have hb_d := d.isLt
  obtain ⟨w, hw⟩ : ∃ w, w = 0x20000031 + b.toNat * 2097152 + a.toNat * 16384 + d.toNat * 128 := ⟨_, rfl⟩
  have he : encodeWord (.shflhi b a d) = w := hw.symm
  have h0 : w % 2 = 1 := by omega
  have h1 : w / 2 ^ 1 % 2 ^ (6 + 1 - 1) = 24 := by omega
  have h2 : w / 2 ^ 28 % 2 ^ (31 + 1 - 28) = 2 := by omega
  have f_b : w / 2 ^ 21 % 2 ^ (27 + 1 - 21) = b.toNat := by omega
  have f_a : w / 2 ^ 14 % 2 ^ (20 + 1 - 14) = a.toNat := by omega
  have f_d : w / 2 ^ 7 % 2 ^ (13 + 1 - 7) = d.toNat := by omega
  rw [he]
  simp [decodeRaw, decode32, decodeMajor18, h0, h1, h2, f_b, f_a, f_d]

theorem shflx (b : Reg) (a : Reg) (d : Reg) : Statement (.shflx b a d) := by
  intro _ _
  have hb_b := b.isLt
  have hb_a := a.isLt
  have hb_d := d.isLt
  obtain ⟨w, hw⟩ : ∃ w, w = 0x30000031 + b.toNat * 2097152 + a.toNat * 16384 + d.toNat * 128 := ⟨_, rfl⟩
  have he : encodeWord (.shflx b a d) = w := hw.symm
  have h0 : w % 2 = 1 := by omega
  have h1 : w / 2 ^ 1 % 2 ^ (6 + 1 - 1) = 24 := by omega
  have h2 : w / 2 ^ 28 % 2 ^ (31 + 1 - 28) = 3 := by omega
  have f_b : w / 2 ^ 21 % 2 ^ (27 + 1 - 21) = b.toNat := by omega
  have f_a : w / 2 ^ 14 % 2 ^ (20 + 1 - 14) = a.toNat := by omega
  have f_d : w / 2 ^ 7 % 2 ^ (13 + 1 - 7) = d.toNat := by omega
  rw [he]
  simp [decodeRaw, decode32, decodeMajor18, h0, h1, h2, f_b, f_a, f_d]

theorem bcast (b : Reg) (a : Reg) (d : Reg) : Statement (.bcast b a d) := by
  intro _ _
  have hb_b := b.isLt
  have hb_a := a.isLt
  have hb_d := d.isLt
  obtain ⟨w, hw⟩ : ∃ w, w = 0x40000031 + b.toNat * 2097152 + a.toNat * 16384 + d.toNat * 128 := ⟨_, rfl⟩
  have he : encodeWord (.bcast b a d) = w := hw.symm
  have h0 : w % 2 = 1 := by omega
  have h1 : w / 2 ^ 1 % 2 ^ (6 + 1 - 1) = 24 := by omega
  have h2 : w / 2 ^ 28 % 2 ^ (31 + 1 - 28) = 4 := by omega
  have f_b : w / 2 ^ 21 % 2 ^ (27 + 1 - 21) = b.toNat := by omega
  have f_a : w / 2 ^ 14 % 2 ^ (20 + 1 - 14) = a.toNat := by omega
  have f_d : w / 2 ^ 7 % 2 ^ (13 + 1 - 7) = d.toNat := by omega
  rw [he]
  simp [decodeRaw, decode32, decodeMajor18, h0, h1, h2, f_b, f_a, f_d]

theorem voteAny (a : Reg) (d : Reg) : Statement (.voteAny a d) := by
  intro _ _
  have hb_a := a.isLt
  have hb_d := d.isLt
  obtain ⟨w, hw⟩ : ∃ w, w = 0x50000031 + a.toNat * 16384 + d.toNat * 128 := ⟨_, rfl⟩
  have he : encodeWord (.voteAny a d) = w := hw.symm
  have h0 : w % 2 = 1 := by omega
  have h1 : w / 2 ^ 1 % 2 ^ (6 + 1 - 1) = 24 := by omega
  have h2 : w / 2 ^ 28 % 2 ^ (31 + 1 - 28) = 5 := by omega
  have h3 : w / 2 ^ 21 % 2 ^ (27 + 1 - 21) = 0 := by omega
  have f_a : w / 2 ^ 14 % 2 ^ (20 + 1 - 14) = a.toNat := by omega
  have f_d : w / 2 ^ 7 % 2 ^ (13 + 1 - 7) = d.toNat := by omega
  rw [he]
  simp [decodeRaw, decode32, decodeMajor18, h0, h1, h2, h3, f_a, f_d]

theorem voteAll (a : Reg) (d : Reg) : Statement (.voteAll a d) := by
  intro _ _
  have hb_a := a.isLt
  have hb_d := d.isLt
  obtain ⟨w, hw⟩ : ∃ w, w = 0x60000031 + a.toNat * 16384 + d.toNat * 128 := ⟨_, rfl⟩
  have he : encodeWord (.voteAll a d) = w := hw.symm
  have h0 : w % 2 = 1 := by omega
  have h1 : w / 2 ^ 1 % 2 ^ (6 + 1 - 1) = 24 := by omega
  have h2 : w / 2 ^ 28 % 2 ^ (31 + 1 - 28) = 6 := by omega
  have h3 : w / 2 ^ 21 % 2 ^ (27 + 1 - 21) = 0 := by omega
  have f_a : w / 2 ^ 14 % 2 ^ (20 + 1 - 14) = a.toNat := by omega
  have f_d : w / 2 ^ 7 % 2 ^ (13 + 1 - 7) = d.toNat := by omega
  rw [he]
  simp [decodeRaw, decode32, decodeMajor18, h0, h1, h2, h3, f_a, f_d]

theorem voteBal (a : Reg) (d : Reg) : Statement (.voteBal a d) := by
  intro _ _
  have hb_a := a.isLt
  have hb_d := d.isLt
  obtain ⟨w, hw⟩ : ∃ w, w = 0x70000031 + a.toNat * 16384 + d.toNat * 128 := ⟨_, rfl⟩
  have he : encodeWord (.voteBal a d) = w := hw.symm
  have h0 : w % 2 = 1 := by omega
  have h1 : w / 2 ^ 1 % 2 ^ (6 + 1 - 1) = 24 := by omega
  have h2 : w / 2 ^ 28 % 2 ^ (31 + 1 - 28) = 7 := by omega
  have h3 : w / 2 ^ 21 % 2 ^ (27 + 1 - 21) = 0 := by omega
  have f_a : w / 2 ^ 14 % 2 ^ (20 + 1 - 14) = a.toNat := by omega
  have f_d : w / 2 ^ 7 % 2 ^ (13 + 1 - 7) = d.toNat := by omega
  rw [he]
  simp [decodeRaw, decode32, decodeMajor18, h0, h1, h2, h3, f_a, f_d]

theorem matchB (a : Reg) (d : Reg) : Statement (.matchB a d) := by
  intro _ _
  have hb_a := a.isLt
  have hb_d := d.isLt
  obtain ⟨w, hw⟩ : ∃ w, w = 0x80000031 + a.toNat * 16384 + d.toNat * 128 := ⟨_, rfl⟩
  have he : encodeWord (.matchB a d) = w := hw.symm
  have h0 : w % 2 = 1 := by omega
  have h1 : w / 2 ^ 1 % 2 ^ (6 + 1 - 1) = 24 := by omega
  have h2 : w / 2 ^ 28 % 2 ^ (31 + 1 - 28) = 8 := by omega
  have h3 : w / 2 ^ 21 % 2 ^ (27 + 1 - 21) = 0 := by omega
  have f_a : w / 2 ^ 14 % 2 ^ (20 + 1 - 14) = a.toNat := by omega
  have f_d : w / 2 ^ 7 % 2 ^ (13 + 1 - 7) = d.toNat := by omega
  rw [he]
  simp [decodeRaw, decode32, decodeMajor18, h0, h1, h2, h3, f_a, f_d]

theorem matchF (a : Reg) (d : Reg) : Statement (.matchF a d) := by
  intro _ _
  have hb_a := a.isLt
  have hb_d := d.isLt
  obtain ⟨w, hw⟩ : ∃ w, w = 0x90000031 + a.toNat * 16384 + d.toNat * 128 := ⟨_, rfl⟩
  have he : encodeWord (.matchF a d) = w := hw.symm
  have h0 : w % 2 = 1 := by omega
  have h1 : w / 2 ^ 1 % 2 ^ (6 + 1 - 1) = 24 := by omega
  have h2 : w / 2 ^ 28 % 2 ^ (31 + 1 - 28) = 9 := by omega
  have h3 : w / 2 ^ 21 % 2 ^ (27 + 1 - 21) = 0 := by omega
  have f_a : w / 2 ^ 14 % 2 ^ (20 + 1 - 14) = a.toNat := by omega
  have f_d : w / 2 ^ 7 % 2 ^ (13 + 1 - 7) = d.toNat := by omega
  rw [he]
  simp [decodeRaw, decode32, decodeMajor18, h0, h1, h2, h3, f_a, f_d]

theorem redwAdd (a : Reg) (d : Reg) : Statement (.redwAdd a d) := by
  intro _ _
  have hb_a := a.isLt
  have hb_d := d.isLt
  obtain ⟨w, hw⟩ : ∃ w, w = 0xa0000031 + a.toNat * 16384 + d.toNat * 128 := ⟨_, rfl⟩
  have he : encodeWord (.redwAdd a d) = w := hw.symm
  have h0 : w % 2 = 1 := by omega
  have h1 : w / 2 ^ 1 % 2 ^ (6 + 1 - 1) = 24 := by omega
  have h2 : w / 2 ^ 28 % 2 ^ (31 + 1 - 28) = 10 := by omega
  have h3 : w / 2 ^ 21 % 2 ^ (27 + 1 - 21) = 0 := by omega
  have f_a : w / 2 ^ 14 % 2 ^ (20 + 1 - 14) = a.toNat := by omega
  have f_d : w / 2 ^ 7 % 2 ^ (13 + 1 - 7) = d.toNat := by omega
  rw [he]
  simp [decodeRaw, decode32, decodeMajor18, h0, h1, h2, h3, f_a, f_d]

theorem redwMin (a : Reg) (d : Reg) : Statement (.redwMin a d) := by
  intro _ _
  have hb_a := a.isLt
  have hb_d := d.isLt
  obtain ⟨w, hw⟩ : ∃ w, w = 0xb0000031 + a.toNat * 16384 + d.toNat * 128 := ⟨_, rfl⟩
  have he : encodeWord (.redwMin a d) = w := hw.symm
  have h0 : w % 2 = 1 := by omega
  have h1 : w / 2 ^ 1 % 2 ^ (6 + 1 - 1) = 24 := by omega
  have h2 : w / 2 ^ 28 % 2 ^ (31 + 1 - 28) = 11 := by omega
  have h3 : w / 2 ^ 21 % 2 ^ (27 + 1 - 21) = 0 := by omega
  have f_a : w / 2 ^ 14 % 2 ^ (20 + 1 - 14) = a.toNat := by omega
  have f_d : w / 2 ^ 7 % 2 ^ (13 + 1 - 7) = d.toNat := by omega
  rw [he]
  simp [decodeRaw, decode32, decodeMajor18, h0, h1, h2, h3, f_a, f_d]

theorem redwMax (a : Reg) (d : Reg) : Statement (.redwMax a d) := by
  intro _ _
  have hb_a := a.isLt
  have hb_d := d.isLt
  obtain ⟨w, hw⟩ : ∃ w, w = 0xc0000031 + a.toNat * 16384 + d.toNat * 128 := ⟨_, rfl⟩
  have he : encodeWord (.redwMax a d) = w := hw.symm
  have h0 : w % 2 = 1 := by omega
  have h1 : w / 2 ^ 1 % 2 ^ (6 + 1 - 1) = 24 := by omega
  have h2 : w / 2 ^ 28 % 2 ^ (31 + 1 - 28) = 12 := by omega
  have h3 : w / 2 ^ 21 % 2 ^ (27 + 1 - 21) = 0 := by omega
  have f_a : w / 2 ^ 14 % 2 ^ (20 + 1 - 14) = a.toNat := by omega
  have f_d : w / 2 ^ 7 % 2 ^ (13 + 1 - 7) = d.toNat := by omega
  rw [he]
  simp [decodeRaw, decode32, decodeMajor18, h0, h1, h2, h3, f_a, f_d]

theorem scanwAdd (a : Reg) (d : Reg) : Statement (.scanwAdd a d) := by
  intro _ _
  have hb_a := a.isLt
  have hb_d := d.isLt
  obtain ⟨w, hw⟩ : ∃ w, w = 0xd0000031 + a.toNat * 16384 + d.toNat * 128 := ⟨_, rfl⟩
  have he : encodeWord (.scanwAdd a d) = w := hw.symm
  have h0 : w % 2 = 1 := by omega
  have h1 : w / 2 ^ 1 % 2 ^ (6 + 1 - 1) = 24 := by omega
  have h2 : w / 2 ^ 28 % 2 ^ (31 + 1 - 28) = 13 := by omega
  have h3 : w / 2 ^ 21 % 2 ^ (27 + 1 - 21) = 0 := by omega
  have f_a : w / 2 ^ 14 % 2 ^ (20 + 1 - 14) = a.toNat := by omega
  have f_d : w / 2 ^ 7 % 2 ^ (13 + 1 - 7) = d.toNat := by omega
  rw [he]
  simp [decodeRaw, decode32, decodeMajor18, h0, h1, h2, h3, f_a, f_d]

theorem tilep (s : BitVec 7) (d : Reg) : Statement (.tilep s d) := by
  intro _ _
  have hb_s := s.isLt
  have hb_d := d.isLt
  obtain ⟨w, hw⟩ : ∃ w, w = 0xe0000031 + s.toNat * 2097152 + d.toNat * 128 := ⟨_, rfl⟩
  have he : encodeWord (.tilep s d) = w := hw.symm
  have h0 : w % 2 = 1 := by omega
  have h1 : w / 2 ^ 1 % 2 ^ (6 + 1 - 1) = 24 := by omega
  have h2 : w / 2 ^ 28 % 2 ^ (31 + 1 - 28) = 14 := by omega
  have h3 : w / 2 ^ 14 % 2 ^ (20 + 1 - 14) = 0 := by omega
  have f_s : w / 2 ^ 21 % 2 ^ (27 + 1 - 21) = s.toNat := by omega
  have f_d : w / 2 ^ 7 % 2 ^ (13 + 1 - 7) = d.toNat := by omega
  rw [he]
  simp [decodeRaw, decode32, decodeMajor18, h0, h1, h2, h3, f_s, f_d]

theorem qswpH (a : Reg) (d : Reg) : Statement (.qswpH a d) := by
  intro _ _
  have hb_a := a.isLt
  have hb_d := d.isLt
  obtain ⟨w, hw⟩ : ∃ w, w = 0x33 + a.toNat * 16384 + d.toNat * 128 := ⟨_, rfl⟩
  have he : encodeWord (.qswpH a d) = w := hw.symm
  have h0 : w % 2 = 1 := by omega
  have h1 : w / 2 ^ 1 % 2 ^ (6 + 1 - 1) = 25 := by omega
  have h2 : w / 2 ^ 28 % 2 ^ (31 + 1 - 28) = 0 := by omega
  have h3 : w / 2 ^ 21 % 2 ^ (27 + 1 - 21) = 0 := by omega
  have f_a : w / 2 ^ 14 % 2 ^ (20 + 1 - 14) = a.toNat := by omega
  have f_d : w / 2 ^ 7 % 2 ^ (13 + 1 - 7) = d.toNat := by omega
  rw [he]
  simp [decodeRaw, decode32, decodeMajor19, h0, h1, h2, h3, f_a, f_d]

theorem qswpV (a : Reg) (d : Reg) : Statement (.qswpV a d) := by
  intro _ _
  have hb_a := a.isLt
  have hb_d := d.isLt
  obtain ⟨w, hw⟩ : ∃ w, w = 0x10000033 + a.toNat * 16384 + d.toNat * 128 := ⟨_, rfl⟩
  have he : encodeWord (.qswpV a d) = w := hw.symm
  have h0 : w % 2 = 1 := by omega
  have h1 : w / 2 ^ 1 % 2 ^ (6 + 1 - 1) = 25 := by omega
  have h2 : w / 2 ^ 28 % 2 ^ (31 + 1 - 28) = 1 := by omega
  have h3 : w / 2 ^ 21 % 2 ^ (27 + 1 - 21) = 0 := by omega
  have f_a : w / 2 ^ 14 % 2 ^ (20 + 1 - 14) = a.toNat := by omega
  have f_d : w / 2 ^ 7 % 2 ^ (13 + 1 - 7) = d.toNat := by omega
  rw [he]
  simp [decodeRaw, decode32, decodeMajor19, h0, h1, h2, h3, f_a, f_d]

theorem qswpD (a : Reg) (d : Reg) : Statement (.qswpD a d) := by
  intro _ _
  have hb_a := a.isLt
  have hb_d := d.isLt
  obtain ⟨w, hw⟩ : ∃ w, w = 0x20000033 + a.toNat * 16384 + d.toNat * 128 := ⟨_, rfl⟩
  have he : encodeWord (.qswpD a d) = w := hw.symm
  have h0 : w % 2 = 1 := by omega
  have h1 : w / 2 ^ 1 % 2 ^ (6 + 1 - 1) = 25 := by omega
  have h2 : w / 2 ^ 28 % 2 ^ (31 + 1 - 28) = 2 := by omega
  have h3 : w / 2 ^ 21 % 2 ^ (27 + 1 - 21) = 0 := by omega
  have f_a : w / 2 ^ 14 % 2 ^ (20 + 1 - 14) = a.toNat := by omega
  have f_d : w / 2 ^ 7 % 2 ^ (13 + 1 - 7) = d.toNat := by omega
  rw [he]
  simp [decodeRaw, decode32, decodeMajor19, h0, h1, h2, h3, f_a, f_d]

theorem qbcast (n : BitVec 7) (a : Reg) (d : Reg) : Statement (.qbcast n a d) := by
  intro _ _
  have hb_n := n.isLt
  have hb_a := a.isLt
  have hb_d := d.isLt
  obtain ⟨w, hw⟩ : ∃ w, w = 0x30000033 + n.toNat * 2097152 + a.toNat * 16384 + d.toNat * 128 := ⟨_, rfl⟩
  have he : encodeWord (.qbcast n a d) = w := hw.symm
  have h0 : w % 2 = 1 := by omega
  have h1 : w / 2 ^ 1 % 2 ^ (6 + 1 - 1) = 25 := by omega
  have h2 : w / 2 ^ 28 % 2 ^ (31 + 1 - 28) = 3 := by omega
  have f_n : w / 2 ^ 21 % 2 ^ (27 + 1 - 21) = n.toNat := by omega
  have f_a : w / 2 ^ 14 % 2 ^ (20 + 1 - 14) = a.toNat := by omega
  have f_d : w / 2 ^ 7 % 2 ^ (13 + 1 - 7) = d.toNat := by omega
  rw [he]
  simp [decodeRaw, decode32, decodeMajor19, h0, h1, h2, f_n, f_a, f_d]

theorem qredAdd (a : Reg) (d : Reg) : Statement (.qredAdd a d) := by
  intro _ _
  have hb_a := a.isLt
  have hb_d := d.isLt
  obtain ⟨w, hw⟩ : ∃ w, w = 0x40000033 + a.toNat * 16384 + d.toNat * 128 := ⟨_, rfl⟩
  have he : encodeWord (.qredAdd a d) = w := hw.symm
  have h0 : w % 2 = 1 := by omega
  have h1 : w / 2 ^ 1 % 2 ^ (6 + 1 - 1) = 25 := by omega
  have h2 : w / 2 ^ 28 % 2 ^ (31 + 1 - 28) = 4 := by omega
  have h3 : w / 2 ^ 21 % 2 ^ (27 + 1 - 21) = 0 := by omega
  have f_a : w / 2 ^ 14 % 2 ^ (20 + 1 - 14) = a.toNat := by omega
  have f_d : w / 2 ^ 7 % 2 ^ (13 + 1 - 7) = d.toNat := by omega
  rw [he]
  simp [decodeRaw, decode32, decodeMajor19, h0, h1, h2, h3, f_a, f_d]

theorem qredMin (a : Reg) (d : Reg) : Statement (.qredMin a d) := by
  intro _ _
  have hb_a := a.isLt
  have hb_d := d.isLt
  obtain ⟨w, hw⟩ : ∃ w, w = 0x50000033 + a.toNat * 16384 + d.toNat * 128 := ⟨_, rfl⟩
  have he : encodeWord (.qredMin a d) = w := hw.symm
  have h0 : w % 2 = 1 := by omega
  have h1 : w / 2 ^ 1 % 2 ^ (6 + 1 - 1) = 25 := by omega
  have h2 : w / 2 ^ 28 % 2 ^ (31 + 1 - 28) = 5 := by omega
  have h3 : w / 2 ^ 21 % 2 ^ (27 + 1 - 21) = 0 := by omega
  have f_a : w / 2 ^ 14 % 2 ^ (20 + 1 - 14) = a.toNat := by omega
  have f_d : w / 2 ^ 7 % 2 ^ (13 + 1 - 7) = d.toNat := by omega
  rw [he]
  simp [decodeRaw, decode32, decodeMajor19, h0, h1, h2, h3, f_a, f_d]

theorem qredMax (a : Reg) (d : Reg) : Statement (.qredMax a d) := by
  intro _ _
  have hb_a := a.isLt
  have hb_d := d.isLt
  obtain ⟨w, hw⟩ : ∃ w, w = 0x60000033 + a.toNat * 16384 + d.toNat * 128 := ⟨_, rfl⟩
  have he : encodeWord (.qredMax a d) = w := hw.symm
  have h0 : w % 2 = 1 := by omega
  have h1 : w / 2 ^ 1 % 2 ^ (6 + 1 - 1) = 25 := by omega
  have h2 : w / 2 ^ 28 % 2 ^ (31 + 1 - 28) = 6 := by omega
  have h3 : w / 2 ^ 21 % 2 ^ (27 + 1 - 21) = 0 := by omega
  have f_a : w / 2 ^ 14 % 2 ^ (20 + 1 - 14) = a.toNat := by omega
  have f_d : w / 2 ^ 7 % 2 ^ (13 + 1 - 7) = d.toNat := by omega
  rw [he]
  simp [decodeRaw, decode32, decodeMajor19, h0, h1, h2, h3, f_a, f_d]

theorem fredwAdd (a : Reg) (d : Reg) : Statement (.fredwAdd a d) := by
  intro _ _
  have hb_a := a.isLt
  have hb_d := d.isLt
  obtain ⟨w, hw⟩ : ∃ w, w = 0x70000033 + a.toNat * 16384 + d.toNat * 128 := ⟨_, rfl⟩
  have he : encodeWord (.fredwAdd a d) = w := hw.symm
  have h0 : w % 2 = 1 := by omega
  have h1 : w / 2 ^ 1 % 2 ^ (6 + 1 - 1) = 25 := by omega
  have h2 : w / 2 ^ 28 % 2 ^ (31 + 1 - 28) = 7 := by omega
  have h3 : w / 2 ^ 21 % 2 ^ (27 + 1 - 21) = 0 := by omega
  have f_a : w / 2 ^ 14 % 2 ^ (20 + 1 - 14) = a.toNat := by omega
  have f_d : w / 2 ^ 7 % 2 ^ (13 + 1 - 7) = d.toNat := by omega
  rw [he]
  simp [decodeRaw, decode32, decodeMajor19, h0, h1, h2, h3, f_a, f_d]

theorem fredwMin (a : Reg) (d : Reg) : Statement (.fredwMin a d) := by
  intro _ _
  have hb_a := a.isLt
  have hb_d := d.isLt
  obtain ⟨w, hw⟩ : ∃ w, w = 0x80000033 + a.toNat * 16384 + d.toNat * 128 := ⟨_, rfl⟩
  have he : encodeWord (.fredwMin a d) = w := hw.symm
  have h0 : w % 2 = 1 := by omega
  have h1 : w / 2 ^ 1 % 2 ^ (6 + 1 - 1) = 25 := by omega
  have h2 : w / 2 ^ 28 % 2 ^ (31 + 1 - 28) = 8 := by omega
  have h3 : w / 2 ^ 21 % 2 ^ (27 + 1 - 21) = 0 := by omega
  have f_a : w / 2 ^ 14 % 2 ^ (20 + 1 - 14) = a.toNat := by omega
  have f_d : w / 2 ^ 7 % 2 ^ (13 + 1 - 7) = d.toNat := by omega
  rw [he]
  simp [decodeRaw, decode32, decodeMajor19, h0, h1, h2, h3, f_a, f_d]

theorem fredwMax (a : Reg) (d : Reg) : Statement (.fredwMax a d) := by
  intro _ _
  have hb_a := a.isLt
  have hb_d := d.isLt
  obtain ⟨w, hw⟩ : ∃ w, w = 0x90000033 + a.toNat * 16384 + d.toNat * 128 := ⟨_, rfl⟩
  have he : encodeWord (.fredwMax a d) = w := hw.symm
  have h0 : w % 2 = 1 := by omega
  have h1 : w / 2 ^ 1 % 2 ^ (6 + 1 - 1) = 25 := by omega
  have h2 : w / 2 ^ 28 % 2 ^ (31 + 1 - 28) = 9 := by omega
  have h3 : w / 2 ^ 21 % 2 ^ (27 + 1 - 21) = 0 := by omega
  have f_a : w / 2 ^ 14 % 2 ^ (20 + 1 - 14) = a.toNat := by omega
  have f_d : w / 2 ^ 7 % 2 ^ (13 + 1 - 7) = d.toNat := by omega
  rw [he]
  simp [decodeRaw, decode32, decodeMajor19, h0, h1, h2, h3, f_a, f_d]

theorem tmclr (L : BitVec 4) (d : Reg) : Statement (.tmclr L d) := by
  intro _ _
  have hb_L := L.isLt
  have hb_d := d.isLt
  obtain ⟨w, hw⟩ : ∃ w, w = 0x35 + L.toNat * 268435456 + d.toNat * 128 := ⟨_, rfl⟩
  have he : encodeWord (.tmclr L d) = w := hw.symm
  have h0 : w % 2 = 1 := by omega
  have h1 : w / 2 ^ 1 % 2 ^ (6 + 1 - 1) = 26 := by omega
  have h2 : w / 2 ^ 21 % 2 ^ (24 + 1 - 21) = 0 := by omega
  have h3 : w / 2 ^ 25 % 2 ^ (27 + 1 - 25) = 0 := by omega
  have h4 : w / 2 ^ 14 % 2 ^ (20 + 1 - 14) = 0 := by omega
  have f_L : w / 2 ^ 28 % 2 ^ (31 + 1 - 28) = L.toNat := by omega
  have f_d : w / 2 ^ 7 % 2 ^ (13 + 1 - 7) = d.toNat := by omega
  rw [he]
  simp [decodeRaw, decode32, decodeMajor1A, h0, h1, h2, h3, h4, f_L, f_d]

theorem tment (L : BitVec 4) (a : Reg) (d : Reg) : Statement (.tment L a d) := by
  intro _ _
  have hb_L := L.isLt
  have hb_a := a.isLt
  have hb_d := d.isLt
  obtain ⟨w, hw⟩ : ∃ w, w = 0x200035 + L.toNat * 268435456 + a.toNat * 16384 + d.toNat * 128 := ⟨_, rfl⟩
  have he : encodeWord (.tment L a d) = w := hw.symm
  have h0 : w % 2 = 1 := by omega
  have h1 : w / 2 ^ 1 % 2 ^ (6 + 1 - 1) = 26 := by omega
  have h2 : w / 2 ^ 21 % 2 ^ (24 + 1 - 21) = 1 := by omega
  have h3 : w / 2 ^ 25 % 2 ^ (27 + 1 - 25) = 0 := by omega
  have f_L : w / 2 ^ 28 % 2 ^ (31 + 1 - 28) = L.toNat := by omega
  have f_a : w / 2 ^ 14 % 2 ^ (20 + 1 - 14) = a.toNat := by omega
  have f_d : w / 2 ^ 7 % 2 ^ (13 + 1 - 7) = d.toNat := by omega
  rw [he]
  simp [decodeRaw, decode32, decodeMajor1A, h0, h1, h2, h3, f_L, f_a, f_d]

theorem tmacc (L : BitVec 4) (a : Reg) (d : Reg) : Statement (.tmacc L a d) := by
  intro _ _
  have hb_L := L.isLt
  have hb_a := a.isLt
  have hb_d := d.isLt
  obtain ⟨w, hw⟩ : ∃ w, w = 0x400035 + L.toNat * 268435456 + a.toNat * 16384 + d.toNat * 128 := ⟨_, rfl⟩
  have he : encodeWord (.tmacc L a d) = w := hw.symm
  have h0 : w % 2 = 1 := by omega
  have h1 : w / 2 ^ 1 % 2 ^ (6 + 1 - 1) = 26 := by omega
  have h2 : w / 2 ^ 21 % 2 ^ (24 + 1 - 21) = 2 := by omega
  have h3 : w / 2 ^ 25 % 2 ^ (27 + 1 - 25) = 0 := by omega
  have f_L : w / 2 ^ 28 % 2 ^ (31 + 1 - 28) = L.toNat := by omega
  have f_a : w / 2 ^ 14 % 2 ^ (20 + 1 - 14) = a.toNat := by omega
  have f_d : w / 2 ^ 7 % 2 ^ (13 + 1 - 7) = d.toNat := by omega
  rw [he]
  simp [decodeRaw, decode32, decodeMajor1A, h0, h1, h2, h3, f_L, f_a, f_d]

theorem tmmrg (L : BitVec 4) (a : Reg) (d : Reg) : Statement (.tmmrg L a d) := by
  intro _ _
  have hb_L := L.isLt
  have hb_a := a.isLt
  have hb_d := d.isLt
  obtain ⟨w, hw⟩ : ∃ w, w = 0x600035 + L.toNat * 268435456 + a.toNat * 16384 + d.toNat * 128 := ⟨_, rfl⟩
  have he : encodeWord (.tmmrg L a d) = w := hw.symm
  have h0 : w % 2 = 1 := by omega
  have h1 : w / 2 ^ 1 % 2 ^ (6 + 1 - 1) = 26 := by omega
  have h2 : w / 2 ^ 21 % 2 ^ (24 + 1 - 21) = 3 := by omega
  have h3 : w / 2 ^ 25 % 2 ^ (27 + 1 - 25) = 0 := by omega
  have f_L : w / 2 ^ 28 % 2 ^ (31 + 1 - 28) = L.toNat := by omega
  have f_a : w / 2 ^ 14 % 2 ^ (20 + 1 - 14) = a.toNat := by omega
  have f_d : w / 2 ^ 7 % 2 ^ (13 + 1 - 7) = d.toNat := by omega
  rw [he]
  simp [decodeRaw, decode32, decodeMajor1A, h0, h1, h2, h3, f_L, f_a, f_d]

theorem tmredw (L : BitVec 4) (d : Reg) : Statement (.tmredw L d) := by
  intro _ _
  have hb_L := L.isLt
  have hb_d := d.isLt
  obtain ⟨w, hw⟩ : ∃ w, w = 0x800035 + L.toNat * 268435456 + d.toNat * 128 := ⟨_, rfl⟩
  have he : encodeWord (.tmredw L d) = w := hw.symm
  have h0 : w % 2 = 1 := by omega
  have h1 : w / 2 ^ 1 % 2 ^ (6 + 1 - 1) = 26 := by omega
  have h2 : w / 2 ^ 21 % 2 ^ (24 + 1 - 21) = 4 := by omega
  have h3 : w / 2 ^ 25 % 2 ^ (27 + 1 - 25) = 0 := by omega
  have h4 : w / 2 ^ 14 % 2 ^ (20 + 1 - 14) = 0 := by omega
  have f_L : w / 2 ^ 28 % 2 ^ (31 + 1 - 28) = L.toNat := by omega
  have f_d : w / 2 ^ 7 % 2 ^ (13 + 1 - 7) = d.toNat := by omega
  rw [he]
  simp [decodeRaw, decode32, decodeMajor1A, h0, h1, h2, h3, h4, f_L, f_d]

theorem tmexit (L : BitVec 4) (a : Reg) (d : Reg) : Statement (.tmexit L a d) := by
  intro _ _
  have hb_L := L.isLt
  have hb_a := a.isLt
  have hb_d := d.isLt
  obtain ⟨w, hw⟩ : ∃ w, w = 0xa00035 + L.toNat * 268435456 + a.toNat * 16384 + d.toNat * 128 := ⟨_, rfl⟩
  have he : encodeWord (.tmexit L a d) = w := hw.symm
  have h0 : w % 2 = 1 := by omega
  have h1 : w / 2 ^ 1 % 2 ^ (6 + 1 - 1) = 26 := by omega
  have h2 : w / 2 ^ 21 % 2 ^ (24 + 1 - 21) = 5 := by omega
  have h3 : w / 2 ^ 25 % 2 ^ (27 + 1 - 25) = 0 := by omega
  have f_L : w / 2 ^ 28 % 2 ^ (31 + 1 - 28) = L.toNat := by omega
  have f_a : w / 2 ^ 14 % 2 ^ (20 + 1 - 14) = a.toNat := by omega
  have f_d : w / 2 ^ 7 % 2 ^ (13 + 1 - 7) = d.toNat := by omega
  rw [he]
  simp [decodeRaw, decode32, decodeMajor1A, h0, h1, h2, h3, f_L, f_a, f_d]

theorem tmld (L : BitVec 4) (s : BitVec 3) (a : Reg) (d : Reg) : Statement (.tmld L s a d) := by
  intro _ _
  have hb_L := L.isLt
  have hb_s := s.isLt
  have hb_a := a.isLt
  have hb_d := d.isLt
  obtain ⟨w, hw⟩ : ∃ w, w = 0xc00035 + L.toNat * 268435456 + s.toNat * 33554432 + a.toNat * 16384 + d.toNat * 128 := ⟨_, rfl⟩
  have he : encodeWord (.tmld L s a d) = w := hw.symm
  have h0 : w % 2 = 1 := by omega
  have h1 : w / 2 ^ 1 % 2 ^ (6 + 1 - 1) = 26 := by omega
  have h2 : w / 2 ^ 21 % 2 ^ (24 + 1 - 21) = 6 := by omega
  have f_L : w / 2 ^ 28 % 2 ^ (31 + 1 - 28) = L.toNat := by omega
  have f_s : w / 2 ^ 25 % 2 ^ (27 + 1 - 25) = s.toNat := by omega
  have f_a : w / 2 ^ 14 % 2 ^ (20 + 1 - 14) = a.toNat := by omega
  have f_d : w / 2 ^ 7 % 2 ^ (13 + 1 - 7) = d.toNat := by omega
  rw [he]
  simp [decodeRaw, decode32, decodeMajor1A, h0, h1, h2, f_L, f_s, f_a, f_d]

theorem ld (o : Ord) (k : Hint) (L : BitVec 4) (z : Sz) (a : Reg) (d : Reg) : Statement (.ld o k L z a d) := by
  intro _ _
  have hb_o := o.code_lt
  have hb_k := k.code_lt
  have hb_L := L.isLt
  have hb_z := z.code_lt
  have hb_a := a.isLt
  have hb_d := d.isLt
  obtain ⟨w, hw⟩ : ∃ w, w = 0x39 + o.code * 1073741824 + k.code * 268435456 + L.toNat * 16777216 + z.code * 2097152 + a.toNat * 16384 + d.toNat * 128 := ⟨_, rfl⟩
  have he : encodeWord (.ld o k L z a d) = w := hw.symm
  have h0 : w % 2 = 1 := by omega
  have h1 : w / 2 ^ 1 % 2 ^ (6 + 1 - 1) = 28 := by omega
  have f_o : w / 2 ^ 30 % 2 ^ (31 + 1 - 30) = o.code := by omega
  have f_k : w / 2 ^ 28 % 2 ^ (29 + 1 - 28) = k.code := by omega
  have f_L : w / 2 ^ 24 % 2 ^ (27 + 1 - 24) = L.toNat := by omega
  have f_z : w / 2 ^ 21 % 2 ^ (23 + 1 - 21) = z.code := by omega
  have f_a : w / 2 ^ 14 % 2 ^ (20 + 1 - 14) = a.toNat := by omega
  have f_d : w / 2 ^ 7 % 2 ^ (13 + 1 - 7) = d.toNat := by omega
  rw [he]
  simp [decodeRaw, decode32, decodeMajor1C, h0, h1, f_o, f_k, f_L, f_z, f_a, f_d]

theorem st (o : Ord) (k : Hint) (L : BitVec 4) (z : Sz) (a : Reg) (d : Reg) : Statement (.st o k L z a d) := by
  intro _ _
  have hb_o := o.code_lt
  have hb_k := k.code_lt
  have hb_L := L.isLt
  have hb_z := z.code_lt
  have hb_a := a.isLt
  have hb_d := d.isLt
  obtain ⟨w, hw⟩ : ∃ w, w = 0x3b + o.code * 1073741824 + k.code * 268435456 + L.toNat * 16777216 + z.code * 2097152 + a.toNat * 16384 + d.toNat * 128 := ⟨_, rfl⟩
  have he : encodeWord (.st o k L z a d) = w := hw.symm
  have h0 : w % 2 = 1 := by omega
  have h1 : w / 2 ^ 1 % 2 ^ (6 + 1 - 1) = 29 := by omega
  have f_o : w / 2 ^ 30 % 2 ^ (31 + 1 - 30) = o.code := by omega
  have f_k : w / 2 ^ 28 % 2 ^ (29 + 1 - 28) = k.code := by omega
  have f_L : w / 2 ^ 24 % 2 ^ (27 + 1 - 24) = L.toNat := by omega
  have f_z : w / 2 ^ 21 % 2 ^ (23 + 1 - 21) = z.code := by omega
  have f_a : w / 2 ^ 14 % 2 ^ (20 + 1 - 14) = a.toNat := by omega
  have f_d : w / 2 ^ 7 % 2 ^ (13 + 1 - 7) = d.toNat := by omega
  rw [he]
  simp [decodeRaw, decode32, decodeMajor1D, h0, h1, f_o, f_k, f_L, f_z, f_a, f_d]

theorem lds (L : BitVec 4) (z : Sz) (a : Reg) (d : Reg) : Statement (.lds L z a d) := by
  intro _ _
  have hb_L := L.isLt
  have hb_z := z.code_lt
  have hb_a := a.isLt
  have hb_d := d.isLt
  obtain ⟨w, hw⟩ : ∃ w, w = 0x3d + L.toNat * 16777216 + z.code * 2097152 + a.toNat * 16384 + d.toNat * 128 := ⟨_, rfl⟩
  have he : encodeWord (.lds L z a d) = w := hw.symm
  have h0 : w % 2 = 1 := by omega
  have h1 : w / 2 ^ 1 % 2 ^ (6 + 1 - 1) = 30 := by omega
  have h2 : w / 2 ^ 28 % 2 ^ (31 + 1 - 28) = 0 := by omega
  have f_L : w / 2 ^ 24 % 2 ^ (27 + 1 - 24) = L.toNat := by omega
  have f_z : w / 2 ^ 21 % 2 ^ (23 + 1 - 21) = z.code := by omega
  have f_a : w / 2 ^ 14 % 2 ^ (20 + 1 - 14) = a.toNat := by omega
  have f_d : w / 2 ^ 7 % 2 ^ (13 + 1 - 7) = d.toNat := by omega
  rw [he]
  simp [decodeRaw, decode32, decodeMajor1E, h0, h1, h2, f_L, f_z, f_a, f_d]

theorem ldsSync (L : BitVec 4) (a : Reg) (d : Reg) : Statement (.ldsSync L a d) := by
  intro _ _
  have hb_L := L.isLt
  have hb_a := a.isLt
  have hb_d := d.isLt
  obtain ⟨w, hw⟩ : ∃ w, w = 0x1040003d + L.toNat * 16777216 + a.toNat * 16384 + d.toNat * 128 := ⟨_, rfl⟩
  have he : encodeWord (.ldsSync L a d) = w := hw.symm
  have h0 : w % 2 = 1 := by omega
  have h1 : w / 2 ^ 1 % 2 ^ (6 + 1 - 1) = 30 := by omega
  have h2 : w / 2 ^ 28 % 2 ^ (31 + 1 - 28) = 1 := by omega
  have h3 : w / 2 ^ 21 % 2 ^ (23 + 1 - 21) = 2 := by omega
  have f_L : w / 2 ^ 24 % 2 ^ (27 + 1 - 24) = L.toNat := by omega
  have f_a : w / 2 ^ 14 % 2 ^ (20 + 1 - 14) = a.toNat := by omega
  have f_d : w / 2 ^ 7 % 2 ^ (13 + 1 - 7) = d.toNat := by omega
  rw [he]
  simp [decodeRaw, decode32, decodeMajor1E, h0, h1, h2, h3, f_L, f_a, f_d]

theorem ldsPeek (L : BitVec 4) (a : Reg) (d : Reg) : Statement (.ldsPeek L a d) := by
  intro _ _
  have hb_L := L.isLt
  have hb_a := a.isLt
  have hb_d := d.isLt
  obtain ⟨w, hw⟩ : ∃ w, w = 0x2040003d + L.toNat * 16777216 + a.toNat * 16384 + d.toNat * 128 := ⟨_, rfl⟩
  have he : encodeWord (.ldsPeek L a d) = w := hw.symm
  have h0 : w % 2 = 1 := by omega
  have h1 : w / 2 ^ 1 % 2 ^ (6 + 1 - 1) = 30 := by omega
  have h2 : w / 2 ^ 28 % 2 ^ (31 + 1 - 28) = 2 := by omega
  have h3 : w / 2 ^ 21 % 2 ^ (23 + 1 - 21) = 2 := by omega
  have f_L : w / 2 ^ 24 % 2 ^ (27 + 1 - 24) = L.toNat := by omega
  have f_a : w / 2 ^ 14 % 2 ^ (20 + 1 - 14) = a.toNat := by omega
  have f_d : w / 2 ^ 7 % 2 ^ (13 + 1 - 7) = d.toNat := by omega
  rw [he]
  simp [decodeRaw, decode32, decodeMajor1E, h0, h1, h2, h3, f_L, f_a, f_d]

theorem sts (L : BitVec 4) (z : Sz) (a : Reg) (d : Reg) : Statement (.sts L z a d) := by
  intro _ _
  have hb_L := L.isLt
  have hb_z := z.code_lt
  have hb_a := a.isLt
  have hb_d := d.isLt
  obtain ⟨w, hw⟩ : ∃ w, w = 0x3f + L.toNat * 16777216 + z.code * 2097152 + a.toNat * 16384 + d.toNat * 128 := ⟨_, rfl⟩
  have he : encodeWord (.sts L z a d) = w := hw.symm
  have h0 : w % 2 = 1 := by omega
  have h1 : w / 2 ^ 1 % 2 ^ (6 + 1 - 1) = 31 := by omega
  have h2 : w / 2 ^ 28 % 2 ^ (31 + 1 - 28) = 0 := by omega
  have f_L : w / 2 ^ 24 % 2 ^ (27 + 1 - 24) = L.toNat := by omega
  have f_z : w / 2 ^ 21 % 2 ^ (23 + 1 - 21) = z.code := by omega
  have f_a : w / 2 ^ 14 % 2 ^ (20 + 1 - 14) = a.toNat := by omega
  have f_d : w / 2 ^ 7 % 2 ^ (13 + 1 - 7) = d.toNat := by omega
  rw [he]
  simp [decodeRaw, decode32, decodeMajor1F, h0, h1, h2, f_L, f_z, f_a, f_d]

theorem stsSync (L : BitVec 4) (a : Reg) (d : Reg) : Statement (.stsSync L a d) := by
  intro _ _
  have hb_L := L.isLt
  have hb_a := a.isLt
  have hb_d := d.isLt
  obtain ⟨w, hw⟩ : ∃ w, w = 0x1040003f + L.toNat * 16777216 + a.toNat * 16384 + d.toNat * 128 := ⟨_, rfl⟩
  have he : encodeWord (.stsSync L a d) = w := hw.symm
  have h0 : w % 2 = 1 := by omega
  have h1 : w / 2 ^ 1 % 2 ^ (6 + 1 - 1) = 31 := by omega
  have h2 : w / 2 ^ 28 % 2 ^ (31 + 1 - 28) = 1 := by omega
  have h3 : w / 2 ^ 21 % 2 ^ (23 + 1 - 21) = 2 := by omega
  have f_L : w / 2 ^ 24 % 2 ^ (27 + 1 - 24) = L.toNat := by omega
  have f_a : w / 2 ^ 14 % 2 ^ (20 + 1 - 14) = a.toNat := by omega
  have f_d : w / 2 ^ 7 % 2 ^ (13 + 1 - 7) = d.toNat := by omega
  rw [he]
  simp [decodeRaw, decode32, decodeMajor1F, h0, h1, h2, h3, f_L, f_a, f_d]

theorem stsFill (L : BitVec 4) (a : Reg) (d : Reg) : Statement (.stsFill L a d) := by
  intro _ _
  have hb_L := L.isLt
  have hb_a := a.isLt
  have hb_d := d.isLt
  obtain ⟨w, hw⟩ : ∃ w, w = 0x2040003f + L.toNat * 16777216 + a.toNat * 16384 + d.toNat * 128 := ⟨_, rfl⟩
  have he : encodeWord (.stsFill L a d) = w := hw.symm
  have h0 : w % 2 = 1 := by omega
  have h1 : w / 2 ^ 1 % 2 ^ (6 + 1 - 1) = 31 := by omega
  have h2 : w / 2 ^ 28 % 2 ^ (31 + 1 - 28) = 2 := by omega
  have h3 : w / 2 ^ 21 % 2 ^ (23 + 1 - 21) = 2 := by omega
  have f_L : w / 2 ^ 24 % 2 ^ (27 + 1 - 24) = L.toNat := by omega
  have f_a : w / 2 ^ 14 % 2 ^ (20 + 1 - 14) = a.toNat := by omega
  have f_d : w / 2 ^ 7 % 2 ^ (13 + 1 - 7) = d.toNat := by omega
  rw [he]
  simp [decodeRaw, decode32, decodeMajor1F, h0, h1, h2, h3, f_L, f_a, f_d]

theorem stsEmpty (L : BitVec 4) (a : Reg) : Statement (.stsEmpty L a) := by
  intro _ _
  have hb_L := L.isLt
  have hb_a := a.isLt
  obtain ⟨w, hw⟩ : ∃ w, w = 0x3040003f + L.toNat * 16777216 + a.toNat * 16384 := ⟨_, rfl⟩
  have he : encodeWord (.stsEmpty L a) = w := hw.symm
  have h0 : w % 2 = 1 := by omega
  have h1 : w / 2 ^ 1 % 2 ^ (6 + 1 - 1) = 31 := by omega
  have h2 : w / 2 ^ 28 % 2 ^ (31 + 1 - 28) = 3 := by omega
  have h3 : w / 2 ^ 21 % 2 ^ (23 + 1 - 21) = 2 := by omega
  have h4 : w / 2 ^ 7 % 2 ^ (13 + 1 - 7) = 0 := by omega
  have f_L : w / 2 ^ 24 % 2 ^ (27 + 1 - 24) = L.toNat := by omega
  have f_a : w / 2 ^ 14 % 2 ^ (20 + 1 - 14) = a.toNat := by omega
  rw [he]
  simp [decodeRaw, decode32, decodeMajor1F, h0, h1, h2, h3, h4, f_L, f_a]

theorem ldx (h : Bool) (L : BitVec 4) (s : BitVec 4) (a : Reg) (d : Reg) : Statement (.ldx h L s a d) := by
  intro _ _
  have hb_h := h.toNat_le
  have hb_L := L.isLt
  have hb_s := s.isLt
  have hb_a := a.isLt
  have hb_d := d.isLt
  obtain ⟨w, hw⟩ : ∃ w, w = 0x41 + h.toNat * 536870912 + L.toNat * 33554432 + s.toNat * 2097152 + a.toNat * 16384 + d.toNat * 128 := ⟨_, rfl⟩
  have he : encodeWord (.ldx h L s a d) = w := hw.symm
  have h0 : w % 2 = 1 := by omega
  have h1 : w / 2 ^ 1 % 2 ^ (6 + 1 - 1) = 32 := by omega
  have h2 : w / 2 ^ 30 % 2 ^ (31 + 1 - 30) = 0 := by omega
  have f_h : w / 2 ^ 29 % 2 ^ (29 + 1 - 29) = h.toNat := by omega
  have f_L : w / 2 ^ 25 % 2 ^ (28 + 1 - 25) = L.toNat := by omega
  have f_s : w / 2 ^ 21 % 2 ^ (24 + 1 - 21) = s.toNat := by omega
  have f_a : w / 2 ^ 14 % 2 ^ (20 + 1 - 14) = a.toNat := by omega
  have f_d : w / 2 ^ 7 % 2 ^ (13 + 1 - 7) = d.toNat := by omega
  rw [he]
  simp [decodeRaw, decode32, decodeMajor20, h0, h1, h2, f_h, f_L, f_s, f_a, f_d]

theorem stx (h : Bool) (L : BitVec 4) (s : BitVec 4) (a : Reg) (d : Reg) : Statement (.stx h L s a d) := by
  intro _ _
  have hb_h := h.toNat_le
  have hb_L := L.isLt
  have hb_s := s.isLt
  have hb_a := a.isLt
  have hb_d := d.isLt
  obtain ⟨w, hw⟩ : ∃ w, w = 0x43 + h.toNat * 536870912 + L.toNat * 33554432 + s.toNat * 2097152 + a.toNat * 16384 + d.toNat * 128 := ⟨_, rfl⟩
  have he : encodeWord (.stx h L s a d) = w := hw.symm
  have h0 : w % 2 = 1 := by omega
  have h1 : w / 2 ^ 1 % 2 ^ (6 + 1 - 1) = 33 := by omega
  have h2 : w / 2 ^ 30 % 2 ^ (31 + 1 - 30) = 0 := by omega
  have f_h : w / 2 ^ 29 % 2 ^ (29 + 1 - 29) = h.toNat := by omega
  have f_L : w / 2 ^ 25 % 2 ^ (28 + 1 - 25) = L.toNat := by omega
  have f_s : w / 2 ^ 21 % 2 ^ (24 + 1 - 21) = s.toNat := by omega
  have f_a : w / 2 ^ 14 % 2 ^ (20 + 1 - 14) = a.toNat := by omega
  have f_d : w / 2 ^ 7 % 2 ^ (13 + 1 - 7) = d.toNat := by omega
  rw [he]
  simp [decodeRaw, decode32, decodeMajor21, h0, h1, h2, f_h, f_L, f_s, f_a, f_d]

theorem pref (k : Bool) (a : Reg) : Statement (.pref k a) := by
  intro _ _
  have hb_k := k.toNat_le
  have hb_a := a.isLt
  obtain ⟨w, hw⟩ : ∃ w, w = 0x45 + k.toNat * 268435456 + a.toNat * 16384 := ⟨_, rfl⟩
  have he : encodeWord (.pref k a) = w := hw.symm
  have h0 : w % 2 = 1 := by omega
  have h1 : w / 2 ^ 1 % 2 ^ (6 + 1 - 1) = 34 := by omega
  have h2 : w / 2 ^ 29 % 2 ^ (31 + 1 - 29) = 0 := by omega
  have h3 : w / 2 ^ 21 % 2 ^ (27 + 1 - 21) = 0 := by omega
  have h4 : w / 2 ^ 7 % 2 ^ (13 + 1 - 7) = 0 := by omega
  have f_k : w / 2 ^ 28 % 2 ^ (28 + 1 - 28) = k.toNat := by omega
  have f_a : w / 2 ^ 14 % 2 ^ (20 + 1 - 14) = a.toNat := by omega
  rw [he]
  simp [decodeRaw, decode32, decodeMajor22, h0, h1, h2, h3, h4, f_k, f_a]

theorem fence (e : Bool) (k : FenceKind) (s : Scope) : Statement (.fence e k s) := by
  intro _ _
  have hb_e := e.toNat_le
  have hb_k := k.code_lt
  have hb_s := s.code_lt
  obtain ⟨w, hw⟩ : ∃ w, w = 0x47 + e.toNat * 67108864 + k.code * 16777216 + s.code * 2097152 := ⟨_, rfl⟩
  have he : encodeWord (.fence e k s) = w := hw.symm
  have h0 : w % 2 = 1 := by omega
  have h1 : w / 2 ^ 1 % 2 ^ (6 + 1 - 1) = 35 := by omega
  have h2 : w / 2 ^ 27 % 2 ^ (31 + 1 - 27) = 0 := by omega
  have h3 : w / 2 ^ 7 % 2 ^ (20 + 1 - 7) = 0 := by omega
  have f_e : w / 2 ^ 26 % 2 ^ (26 + 1 - 26) = e.toNat := by omega
  have f_k : w / 2 ^ 24 % 2 ^ (25 + 1 - 24) = k.code := by omega
  have f_s : w / 2 ^ 21 % 2 ^ (23 + 1 - 21) = s.code := by omega
  rw [he]
  simp [decodeRaw, decode32, decodeMajor23, h0, h1, h2, h3, f_e, f_k, f_s]

theorem waita (o : Bool) (k : WaitCond) (z : Bool) (a : Reg) (d : Reg) : Statement (.waita o k z a d) := by
  intro _ _
  have hb_o := o.toNat_le
  have hb_k := k.code_lt
  have hb_z := z.toNat_le
  have hb_a := a.isLt
  have hb_d := d.isLt
  obtain ⟨w, hw⟩ : ∃ w, w = 0x400049 + o.toNat * 1073741824 + k.code * 268435456 + z.toNat * 2097152 + a.toNat * 16384 + d.toNat * 128 := ⟨_, rfl⟩
  have he : encodeWord (.waita o k z a d) = w := hw.symm
  have h0 : w % 2 = 1 := by omega
  have h1 : w / 2 ^ 1 % 2 ^ (6 + 1 - 1) = 36 := by omega
  have h2 : w / 2 ^ 31 % 2 ^ (31 + 1 - 31) = 0 := by omega
  have h3 : w / 2 ^ 22 % 2 ^ (27 + 1 - 22) = 1 := by omega
  have f_o : w / 2 ^ 30 % 2 ^ (30 + 1 - 30) = o.toNat := by omega
  have f_k : w / 2 ^ 28 % 2 ^ (29 + 1 - 28) = k.code := by omega
  have f_z : w / 2 ^ 21 % 2 ^ (21 + 1 - 21) = z.toNat := by omega
  have f_a : w / 2 ^ 14 % 2 ^ (20 + 1 - 14) = a.toNat := by omega
  have f_d : w / 2 ^ 7 % 2 ^ (13 + 1 - 7) = d.toNat := by omega
  rw [he]
  simp [decodeRaw, decode32, decodeMajor24, h0, h1, h2, h3, f_o, f_k, f_z, f_a, f_d]

theorem bsig (b : Reg) (a : Reg) : Statement (.bsig b a) := by
  intro _ _
  have hb_b := b.isLt
  have hb_a := a.isLt
  obtain ⟨w, hw⟩ : ∃ w, w = 0x4b + b.toNat * 2097152 + a.toNat * 16384 := ⟨_, rfl⟩
  have he : encodeWord (.bsig b a) = w := hw.symm
  have h0 : w % 2 = 1 := by omega
  have h1 : w / 2 ^ 1 % 2 ^ (6 + 1 - 1) = 37 := by omega
  have h2 : w / 2 ^ 28 % 2 ^ (31 + 1 - 28) = 0 := by omega
  have h3 : w / 2 ^ 7 % 2 ^ (13 + 1 - 7) = 0 := by omega
  have f_b : w / 2 ^ 21 % 2 ^ (27 + 1 - 21) = b.toNat := by omega
  have f_a : w / 2 ^ 14 % 2 ^ (20 + 1 - 14) = a.toNat := by omega
  rw [he]
  simp [decodeRaw, decode32, decodeMajor25, h0, h1, h2, h3, f_b, f_a]

theorem bwait (b : Reg) (a : Reg) : Statement (.bwait b a) := by
  intro _ _
  have hb_b := b.isLt
  have hb_a := a.isLt
  obtain ⟨w, hw⟩ : ∃ w, w = 0x1000004b + b.toNat * 2097152 + a.toNat * 16384 := ⟨_, rfl⟩
  have he : encodeWord (.bwait b a) = w := hw.symm
  have h0 : w % 2 = 1 := by omega
  have h1 : w / 2 ^ 1 % 2 ^ (6 + 1 - 1) = 37 := by omega
  have h2 : w / 2 ^ 28 % 2 ^ (31 + 1 - 28) = 1 := by omega
  have h3 : w / 2 ^ 7 % 2 ^ (13 + 1 - 7) = 0 := by omega
  have f_b : w / 2 ^ 21 % 2 ^ (27 + 1 - 21) = b.toNat := by omega
  have f_a : w / 2 ^ 14 % 2 ^ (20 + 1 - 14) = a.toNat := by omega
  rw [he]
  simp [decodeRaw, decode32, decodeMajor25, h0, h1, h2, h3, f_b, f_a]

theorem brdc (a : Reg) (d : Reg) : Statement (.brdc a d) := by
  intro _ _
  have hb_a := a.isLt
  have hb_d := d.isLt
  obtain ⟨w, hw⟩ : ∃ w, w = 0x2000004b + a.toNat * 16384 + d.toNat * 128 := ⟨_, rfl⟩
  have he : encodeWord (.brdc a d) = w := hw.symm
  have h0 : w % 2 = 1 := by omega
  have h1 : w / 2 ^ 1 % 2 ^ (6 + 1 - 1) = 37 := by omega
  have h2 : w / 2 ^ 28 % 2 ^ (31 + 1 - 28) = 2 := by omega
  have h3 : w / 2 ^ 21 % 2 ^ (27 + 1 - 21) = 0 := by omega
  have f_a : w / 2 ^ 14 % 2 ^ (20 + 1 - 14) = a.toNat := by omega
  have f_d : w / 2 ^ 7 % 2 ^ (13 + 1 - 7) = d.toNat := by omega
  rw [he]
  simp [decodeRaw, decode32, decodeMajor25, h0, h1, h2, h3, f_a, f_d]

theorem waitc (c : BitVec 3) (n : BitVec 6) : Statement (.waitc c n) := by
  intro _ _
  have hb_c := c.isLt
  have hb_n := n.isLt
  obtain ⟨w, hw⟩ : ∃ w, w = 0x4d + c.toNat * 134217728 + n.toNat * 2097152 := ⟨_, rfl⟩
  have he : encodeWord (.waitc c n) = w := hw.symm
  have h0 : w % 2 = 1 := by omega
  have h1 : w / 2 ^ 1 % 2 ^ (6 + 1 - 1) = 38 := by omega
  have h2 : w / 2 ^ 30 % 2 ^ (31 + 1 - 30) = 0 := by omega
  have h3 : w / 2 ^ 7 % 2 ^ (20 + 1 - 7) = 0 := by omega
  have f_c : w / 2 ^ 27 % 2 ^ (29 + 1 - 27) = c.toNat := by omega
  have f_n : w / 2 ^ 21 % 2 ^ (26 + 1 - 21) = n.toNat := by omega
  rw [he]
  simp [decodeRaw, decode32, decodeMajor26, h0, h1, h2, h3, f_c, f_n]

theorem atom (L : BitVec 4) (ar : Bool) (sc : BitVec 2) (o : AtomOp) (a : Reg) (d : Reg) : Statement (.atom L ar sc o a d) := by
  intro _ _
  have hb_L := L.isLt
  have hb_ar := ar.toNat_le
  have hb_sc := sc.isLt
  have hb_o := o.code_lt
  have hb_a := a.isLt
  have hb_d := d.isLt
  obtain ⟨w, hw⟩ : ∃ w, w = 0x51 + L.toNat * 268435456 + ar.toNat * 134217728 + sc.toNat * 33554432 + o.code * 2097152 + a.toNat * 16384 + d.toNat * 128 := ⟨_, rfl⟩
  have he : encodeWord (.atom L ar sc o a d) = w := hw.symm
  have h0 : w % 2 = 1 := by omega
  have h1 : w / 2 ^ 1 % 2 ^ (6 + 1 - 1) = 40 := by omega
  have f_L : w / 2 ^ 28 % 2 ^ (31 + 1 - 28) = L.toNat := by omega
  have f_ar : w / 2 ^ 27 % 2 ^ (27 + 1 - 27) = ar.toNat := by omega
  have f_sc : w / 2 ^ 25 % 2 ^ (26 + 1 - 25) = sc.toNat := by omega
  have f_o : w / 2 ^ 21 % 2 ^ (24 + 1 - 21) = o.code := by omega
  have f_a : w / 2 ^ 14 % 2 ^ (20 + 1 - 14) = a.toNat := by omega
  have f_d : w / 2 ^ 7 % 2 ^ (13 + 1 - 7) = d.toNat := by omega
  rw [he]
  simp [decodeRaw, decode32, decodeMajor28, h0, h1, f_L, f_ar, f_sc, f_o, f_a, f_d]

theorem red (L : BitVec 4) (sat : Bool) (cn : Bool) (fz : Bool) (o : AtomOp) (a : Reg) (d : Reg) : Statement (.red L sat cn fz o a d) := by
  intro _ _
  have hb_L := L.isLt
  have hb_sat := sat.toNat_le
  have hb_cn := cn.toNat_le
  have hb_fz := fz.toNat_le
  have hb_o := o.code_lt
  have hb_a := a.isLt
  have hb_d := d.isLt
  obtain ⟨w, hw⟩ : ∃ w, w = 0x53 + L.toNat * 268435456 + sat.toNat * 134217728 + cn.toNat * 67108864 + fz.toNat * 33554432 + o.code * 2097152 + a.toNat * 16384 + d.toNat * 128 := ⟨_, rfl⟩
  have he : encodeWord (.red L sat cn fz o a d) = w := hw.symm
  have h0 : w % 2 = 1 := by omega
  have h1 : w / 2 ^ 1 % 2 ^ (6 + 1 - 1) = 41 := by omega
  have f_L : w / 2 ^ 28 % 2 ^ (31 + 1 - 28) = L.toNat := by omega
  have f_sat : w / 2 ^ 27 % 2 ^ (27 + 1 - 27) = sat.toNat := by omega
  have f_cn : w / 2 ^ 26 % 2 ^ (26 + 1 - 26) = cn.toNat := by omega
  have f_fz : w / 2 ^ 25 % 2 ^ (25 + 1 - 25) = fz.toNat := by omega
  have f_o : w / 2 ^ 21 % 2 ^ (24 + 1 - 21) = o.code := by omega
  have f_a : w / 2 ^ 14 % 2 ^ (20 + 1 - 14) = a.toNat := by omega
  have f_d : w / 2 ^ 7 % 2 ^ (13 + 1 - 7) = d.toNat := by omega
  have hn : o.code ≠ 15 := by omega
  rw [he]
  simp only [decodeRaw, decode32, decodeMajor29, field, h0, h1, f_L, f_sat, f_cn, f_fz, f_o, f_a, f_d]
  cases o <;> simp [AtomOp.code, AtomOp.ofCode]

theorem redTm (L : BitVec 4) (a : Reg) (d : Reg) : Statement (.redTm L a d) := by
  intro _ _
  have hb_L := L.isLt
  have hb_a := a.isLt
  have hb_d := d.isLt
  obtain ⟨w, hw⟩ : ∃ w, w = 0x1e00053 + L.toNat * 268435456 + a.toNat * 16384 + d.toNat * 128 := ⟨_, rfl⟩
  have he : encodeWord (.redTm L a d) = w := hw.symm
  have h0 : w % 2 = 1 := by omega
  have h1 : w / 2 ^ 1 % 2 ^ (6 + 1 - 1) = 41 := by omega
  have h2 : w / 2 ^ 21 % 2 ^ (24 + 1 - 21) = 15 := by omega
  have h3 : w / 2 ^ 25 % 2 ^ (27 + 1 - 25) = 0 := by omega
  have f_L : w / 2 ^ 28 % 2 ^ (31 + 1 - 28) = L.toNat := by omega
  have f_a : w / 2 ^ 14 % 2 ^ (20 + 1 - 14) = a.toNat := by omega
  have f_d : w / 2 ^ 7 % 2 ^ (13 + 1 - 7) = d.toNat := by omega
  rw [he]
  simp [decodeRaw, decode32, decodeMajor29, h0, h1, h2, h3, f_L, f_a, f_d]

theorem atoms (L : BitVec 4) (ar : Bool) (sc : BitVec 2) (o : AtomOp) (a : Reg) (d : Reg) : Statement (.atoms L ar sc o a d) := by
  intro _ _
  have hb_L := L.isLt
  have hb_ar := ar.toNat_le
  have hb_sc := sc.isLt
  have hb_o := o.code_lt
  have hb_a := a.isLt
  have hb_d := d.isLt
  obtain ⟨w, hw⟩ : ∃ w, w = 0x55 + L.toNat * 268435456 + ar.toNat * 134217728 + sc.toNat * 33554432 + o.code * 2097152 + a.toNat * 16384 + d.toNat * 128 := ⟨_, rfl⟩
  have he : encodeWord (.atoms L ar sc o a d) = w := hw.symm
  have h0 : w % 2 = 1 := by omega
  have h1 : w / 2 ^ 1 % 2 ^ (6 + 1 - 1) = 42 := by omega
  have f_L : w / 2 ^ 28 % 2 ^ (31 + 1 - 28) = L.toNat := by omega
  have f_ar : w / 2 ^ 27 % 2 ^ (27 + 1 - 27) = ar.toNat := by omega
  have f_sc : w / 2 ^ 25 % 2 ^ (26 + 1 - 25) = sc.toNat := by omega
  have f_o : w / 2 ^ 21 % 2 ^ (24 + 1 - 21) = o.code := by omega
  have f_a : w / 2 ^ 14 % 2 ^ (20 + 1 - 14) = a.toNat := by omega
  have f_d : w / 2 ^ 7 % 2 ^ (13 + 1 - 7) = d.toNat := by omega
  rw [he]
  simp [decodeRaw, decode32, decodeMajor2A, h0, h1, f_L, f_ar, f_sc, f_o, f_a, f_d]

theorem bra (d : BitVec 21) : Statement (.bra d) := by
  intro _ _
  have hb_d := d.isLt
  obtain ⟨w, hw⟩ : ∃ w, w = 0x59 + d.toNat * 2048 := ⟨_, rfl⟩
  have he : encodeWord (.bra d) = w := hw.symm
  have h0 : w % 2 = 1 := by omega
  have h1 : w / 2 ^ 1 % 2 ^ (6 + 1 - 1) = 44 := by omega
  have h2 : w / 2 ^ 7 % 2 ^ (10 + 1 - 7) = 0 := by omega
  have f_d : w / 2 ^ 11 % 2 ^ (31 + 1 - 11) = d.toNat := by omega
  rw [he]
  simp [decodeRaw, decode32, decodeMajor2C, h0, h1, h2, f_d]

theorem bz (d : BitVec 17) (p : Reg) : Statement (.bz d p) := by
  intro _ _
  have hb_d := d.isLt
  have hb_p := p.isLt
  obtain ⟨w, hw⟩ : ∃ w, w = 0x5b + d.toNat * 32768 + p.toNat * 128 := ⟨_, rfl⟩
  have he : encodeWord (.bz d p) = w := hw.symm
  have h0 : w % 2 = 1 := by omega
  have h1 : w / 2 ^ 1 % 2 ^ (6 + 1 - 1) = 45 := by omega
  have h2 : w / 2 ^ 14 % 2 ^ (14 + 1 - 14) = 0 := by omega
  have f_d : w / 2 ^ 15 % 2 ^ (31 + 1 - 15) = d.toNat := by omega
  have f_p : w / 2 ^ 7 % 2 ^ (13 + 1 - 7) = p.toNat := by omega
  rw [he]
  simp [decodeRaw, decode32, decodeMajor2D, h0, h1, h2, f_d, f_p]

theorem bnz (d : BitVec 17) (p : Reg) : Statement (.bnz d p) := by
  intro _ _
  have hb_d := d.isLt
  have hb_p := p.isLt
  obtain ⟨w, hw⟩ : ∃ w, w = 0x405b + d.toNat * 32768 + p.toNat * 128 := ⟨_, rfl⟩
  have he : encodeWord (.bnz d p) = w := hw.symm
  have h0 : w % 2 = 1 := by omega
  have h1 : w / 2 ^ 1 % 2 ^ (6 + 1 - 1) = 45 := by omega
  have h2 : w / 2 ^ 14 % 2 ^ (14 + 1 - 14) = 1 := by omega
  have f_d : w / 2 ^ 15 % 2 ^ (31 + 1 - 15) = d.toNat := by omega
  have f_p : w / 2 ^ 7 % 2 ^ (13 + 1 - 7) = p.toNat := by omega
  rw [he]
  simp [decodeRaw, decode32, decodeMajor2D, h0, h1, h2, f_d, f_p]

theorem call (i : BitVec 18) (d : Reg) : Statement (.call i d) := by
  intro _ _
  have hb_i := i.isLt
  have hb_d := d.isLt
  obtain ⟨w, hw⟩ : ∃ w, w = 0x5d + i.toNat * 16384 + d.toNat * 128 := ⟨_, rfl⟩
  have he : encodeWord (.call i d) = w := hw.symm
  have h0 : w % 2 = 1 := by omega
  have h1 : w / 2 ^ 1 % 2 ^ (6 + 1 - 1) = 46 := by omega
  have f_i : w / 2 ^ 14 % 2 ^ (31 + 1 - 14) = i.toNat := by omega
  have f_d : w / 2 ^ 7 % 2 ^ (13 + 1 - 7) = d.toNat := by omega
  rw [he]
  simp [decodeRaw, decode32, decodeMajor2E, h0, h1, f_i, f_d]

theorem ret (a : Reg) : Statement (.ret a) := by
  intro _ _
  have hb_a := a.isLt
  obtain ⟨w, hw⟩ : ∃ w, w = 0x5f + a.toNat * 16384 := ⟨_, rfl⟩
  have he : encodeWord (.ret a) = w := hw.symm
  have h0 : w % 2 = 1 := by omega
  have h1 : w / 2 ^ 1 % 2 ^ (6 + 1 - 1) = 47 := by omega
  have h2 : w / 2 ^ 28 % 2 ^ (31 + 1 - 28) = 0 := by omega
  have h3 : w / 2 ^ 21 % 2 ^ (27 + 1 - 21) = 0 := by omega
  have h4 : w / 2 ^ 7 % 2 ^ (13 + 1 - 7) = 0 := by omega
  have f_a : w / 2 ^ 14 % 2 ^ (20 + 1 - 14) = a.toNat := by omega
  rw [he]
  simp [decodeRaw, decode32, decodeMajor2F, h0, h1, h2, h3, h4, f_a]

theorem jtab (b : Reg) (a : Reg) : Statement (.jtab b a) := by
  intro _ _
  have hb_b := b.isLt
  have hb_a := a.isLt
  obtain ⟨w, hw⟩ : ∃ w, w = 0x1000005f + b.toNat * 2097152 + a.toNat * 16384 := ⟨_, rfl⟩
  have he : encodeWord (.jtab b a) = w := hw.symm
  have h0 : w % 2 = 1 := by omega
  have h1 : w / 2 ^ 1 % 2 ^ (6 + 1 - 1) = 47 := by omega
  have h2 : w / 2 ^ 28 % 2 ^ (31 + 1 - 28) = 1 := by omega
  have h3 : w / 2 ^ 7 % 2 ^ (13 + 1 - 7) = 0 := by omega
  have f_b : w / 2 ^ 21 % 2 ^ (27 + 1 - 21) = b.toNat := by omega
  have f_a : w / 2 ^ 14 % 2 ^ (20 + 1 - 14) = a.toNat := by omega
  rw [he]
  simp [decodeRaw, decode32, decodeMajor2F, h0, h1, h2, h3, f_b, f_a]

theorem callt (b : Reg) (a : Reg) (d : Reg) : Statement (.callt b a d) := by
  intro _ _
  have hb_b := b.isLt
  have hb_a := a.isLt
  have hb_d := d.isLt
  obtain ⟨w, hw⟩ : ∃ w, w = 0x2000005f + b.toNat * 2097152 + a.toNat * 16384 + d.toNat * 128 := ⟨_, rfl⟩
  have he : encodeWord (.callt b a d) = w := hw.symm
  have h0 : w % 2 = 1 := by omega
  have h1 : w / 2 ^ 1 % 2 ^ (6 + 1 - 1) = 47 := by omega
  have h2 : w / 2 ^ 28 % 2 ^ (31 + 1 - 28) = 2 := by omega
  have f_b : w / 2 ^ 21 % 2 ^ (27 + 1 - 21) = b.toNat := by omega
  have f_a : w / 2 ^ 14 % 2 ^ (20 + 1 - 14) = a.toNat := by omega
  have f_d : w / 2 ^ 7 % 2 ^ (13 + 1 - 7) = d.toNat := by omega
  rw [he]
  simp [decodeRaw, decode32, decodeMajor2F, h0, h1, h2, f_b, f_a, f_d]

theorem trap (a : Reg) : Statement (.trap a) := by
  intro _ _
  have hb_a := a.isLt
  obtain ⟨w, hw⟩ : ∃ w, w = 0x7000005f + a.toNat * 16384 := ⟨_, rfl⟩
  have he : encodeWord (.trap a) = w := hw.symm
  have h0 : w % 2 = 1 := by omega
  have h1 : w / 2 ^ 1 % 2 ^ (6 + 1 - 1) = 47 := by omega
  have h2 : w / 2 ^ 28 % 2 ^ (31 + 1 - 28) = 7 := by omega
  have h3 : w / 2 ^ 21 % 2 ^ (27 + 1 - 21) = 0 := by omega
  have h4 : w / 2 ^ 7 % 2 ^ (13 + 1 - 7) = 0 := by omega
  have f_a : w / 2 ^ 14 % 2 ^ (20 + 1 - 14) = a.toNat := by omega
  rw [he]
  simp [decodeRaw, decode32, decodeMajor2F, h0, h1, h2, h3, h4, f_a]

theorem lpad (l : BitVec 25) : Statement (.lpad l) := by
  intro _ _
  have hb_l := l.isLt
  obtain ⟨w, hw⟩ : ∃ w, w = 0x61 + l.toNat * 128 := ⟨_, rfl⟩
  have he : encodeWord (.lpad l) = w := hw.symm
  have h0 : w % 2 = 1 := by omega
  have h1 : w / 2 ^ 1 % 2 ^ (6 + 1 - 1) = 48 := by omega
  have f_l : w / 2 ^ 7 % 2 ^ (31 + 1 - 7) = l.toNat := by omega
  rw [he]
  simp [decodeRaw, decode32, decodeMajor30, h0, h1, f_l]

theorem meet (i : BitVec 18) (d : Reg) : Statement (.meet i d) := by
  intro _ _
  have hb_i := i.isLt
  have hb_d := d.isLt
  obtain ⟨w, hw⟩ : ∃ w, w = 0x63 + i.toNat * 16384 + d.toNat * 128 := ⟨_, rfl⟩
  have he : encodeWord (.meet i d) = w := hw.symm
  have h0 : w % 2 = 1 := by omega
  have h1 : w / 2 ^ 1 % 2 ^ (6 + 1 - 1) = 49 := by omega
  have f_i : w / 2 ^ 14 % 2 ^ (31 + 1 - 14) = i.toNat := by omega
  have f_d : w / 2 ^ 7 % 2 ^ (13 + 1 - 7) = d.toNat := by omega
  rw [he]
  simp [decodeRaw, decode32, decodeMajor31, h0, h1, f_i, f_d]

theorem gcall (n : BitVec 11) : Statement (.gcall n) := by
  intro _ _
  have hb_n := n.isLt
  obtain ⟨w, hw⟩ : ∃ w, w = 0x65 + n.toNat * 2097152 := ⟨_, rfl⟩
  have he : encodeWord (.gcall n) = w := hw.symm
  have h0 : w % 2 = 1 := by omega
  have h1 : w / 2 ^ 1 % 2 ^ (6 + 1 - 1) = 50 := by omega
  have h2 : w / 2 ^ 7 % 2 ^ (20 + 1 - 7) = 0 := by omega
  have f_n : w / 2 ^ 21 % 2 ^ (31 + 1 - 21) = n.toNat := by omega
  rw [he]
  simp [decodeRaw, decode32, decodeMajor32, h0, h1, h2, f_n]

theorem timei (d : Reg) : Statement (.timei d) := by
  intro _ _
  have hb_d := d.isLt
  obtain ⟨w, hw⟩ : ∃ w, w = 0x67 + d.toNat * 128 := ⟨_, rfl⟩
  have he : encodeWord (.timei d) = w := hw.symm
  have h0 : w % 2 = 1 := by omega
  have h1 : w / 2 ^ 1 % 2 ^ (6 + 1 - 1) = 51 := by omega
  have h2 : w / 2 ^ 28 % 2 ^ (31 + 1 - 28) = 0 := by omega
  have h3 : w / 2 ^ 14 % 2 ^ (27 + 1 - 14) = 0 := by omega
  have f_d : w / 2 ^ 7 % 2 ^ (13 + 1 - 7) = d.toNat := by omega
  rw [he]
  simp [decodeRaw, decode32, decodeMajor33, h0, h1, h2, h3, f_d]

theorem commitw (a : Reg) : Statement (.commitw a) := by
  intro _ _
  have hb_a := a.isLt
  obtain ⟨w, hw⟩ : ∃ w, w = 0x10000067 + a.toNat * 16384 := ⟨_, rfl⟩
  have he : encodeWord (.commitw a) = w := hw.symm
  have h0 : w % 2 = 1 := by omega
  have h1 : w / 2 ^ 1 % 2 ^ (6 + 1 - 1) = 51 := by omega
  have h2 : w / 2 ^ 28 % 2 ^ (31 + 1 - 28) = 1 := by omega
  have h3 : w / 2 ^ 21 % 2 ^ (27 + 1 - 21) = 0 := by omega
  have h4 : w / 2 ^ 7 % 2 ^ (13 + 1 - 7) = 0 := by omega
  have f_a : w / 2 ^ 14 % 2 ^ (20 + 1 - 14) = a.toNat := by omega
  rw [he]
  simp [decodeRaw, decode32, decodeMajor33, h0, h1, h2, h3, h4, f_a]

theorem stst (L : BitVec 4) (a : Reg) (d : Reg) : Statement (.stst L a d) := by
  intro _ _
  have hb_L := L.isLt
  have hb_a := a.isLt
  have hb_d := d.isLt
  obtain ⟨w, hw⟩ : ∃ w, w = 0x800069 + L.toNat * 16777216 + a.toNat * 16384 + d.toNat * 128 := ⟨_, rfl⟩
  have he : encodeWord (.stst L a d) = w := hw.symm
  have h0 : w % 2 = 1 := by omega
  have h1 : w / 2 ^ 1 % 2 ^ (6 + 1 - 1) = 52 := by omega
  have h2 : w / 2 ^ 28 % 2 ^ (31 + 1 - 28) = 0 := by omega
  have h3 : w / 2 ^ 21 % 2 ^ (23 + 1 - 21) = 4 := by omega
  have f_L : w / 2 ^ 24 % 2 ^ (27 + 1 - 24) = L.toNat := by omega
  have f_a : w / 2 ^ 14 % 2 ^ (20 + 1 - 14) = a.toNat := by omega
  have f_d : w / 2 ^ 7 % 2 ^ (13 + 1 - 7) = d.toNat := by omega
  rw [he]
  simp [decodeRaw, decode32, decodeMajor34, h0, h1, h2, h3, f_L, f_a, f_d]

theorem ldat (L : BitVec 4) (a : Reg) (d : Reg) : Statement (.ldat L a d) := by
  intro _ _
  have hb_L := L.isLt
  have hb_a := a.isLt
  have hb_d := d.isLt
  obtain ⟨w, hw⟩ : ∃ w, w = 0x80006b + L.toNat * 16777216 + a.toNat * 16384 + d.toNat * 128 := ⟨_, rfl⟩
  have he : encodeWord (.ldat L a d) = w := hw.symm
  have h0 : w % 2 = 1 := by omega
  have h1 : w / 2 ^ 1 % 2 ^ (6 + 1 - 1) = 53 := by omega
  have h2 : w / 2 ^ 28 % 2 ^ (31 + 1 - 28) = 0 := by omega
  have h3 : w / 2 ^ 21 % 2 ^ (23 + 1 - 21) = 4 := by omega
  have f_L : w / 2 ^ 24 % 2 ^ (27 + 1 - 24) = L.toNat := by omega
  have f_a : w / 2 ^ 14 % 2 ^ (20 + 1 - 14) = a.toNat := by omega
  have f_d : w / 2 ^ 7 % 2 ^ (13 + 1 - 7) = d.toNat := by omega
  rw [he]
  simp [decodeRaw, decode32, decodeMajor35, h0, h1, h2, h3, f_L, f_a, f_d]

theorem cpy (L : BitVec 4) (a : Reg) (d : Reg) : Statement (.cpy L a d) := by
  intro _ _
  have hb_L := L.isLt
  have hb_a := a.isLt
  have hb_d := d.isLt
  obtain ⟨w, hw⟩ : ∃ w, w = 0x6d + L.toNat * 268435456 + a.toNat * 16384 + d.toNat * 128 := ⟨_, rfl⟩
  have he : encodeWord (.cpy L a d) = w := hw.symm
  have h0 : w % 2 = 1 := by omega
  have h1 : w / 2 ^ 1 % 2 ^ (6 + 1 - 1) = 54 := by omega
  have h2 : w / 2 ^ 21 % 2 ^ (24 + 1 - 21) = 0 := by omega
  have h3 : w / 2 ^ 25 % 2 ^ (27 + 1 - 25) = 0 := by omega
  have f_L : w / 2 ^ 28 % 2 ^ (31 + 1 - 28) = L.toNat := by omega
  have f_a : w / 2 ^ 14 % 2 ^ (20 + 1 - 14) = a.toNat := by omega
  have f_d : w / 2 ^ 7 % 2 ^ (13 + 1 - 7) = d.toNat := by omega
  rw [he]
  simp [decodeRaw, decode32, decodeMajor36, h0, h1, h2, h3, f_L, f_a, f_d]

theorem cpytIn (L : BitVec 4) (a : Reg) (d : Reg) : Statement (.cpytIn L a d) := by
  intro _ _
  have hb_L := L.isLt
  have hb_a := a.isLt
  have hb_d := d.isLt
  obtain ⟨w, hw⟩ : ∃ w, w = 0x20006d + L.toNat * 268435456 + a.toNat * 16384 + d.toNat * 128 := ⟨_, rfl⟩
  have he : encodeWord (.cpytIn L a d) = w := hw.symm
  have h0 : w % 2 = 1 := by omega
  have h1 : w / 2 ^ 1 % 2 ^ (6 + 1 - 1) = 54 := by omega
  have h2 : w / 2 ^ 21 % 2 ^ (24 + 1 - 21) = 1 := by omega
  have h3 : w / 2 ^ 25 % 2 ^ (27 + 1 - 25) = 0 := by omega
  have f_L : w / 2 ^ 28 % 2 ^ (31 + 1 - 28) = L.toNat := by omega
  have f_a : w / 2 ^ 14 % 2 ^ (20 + 1 - 14) = a.toNat := by omega
  have f_d : w / 2 ^ 7 % 2 ^ (13 + 1 - 7) = d.toNat := by omega
  rw [he]
  simp [decodeRaw, decode32, decodeMajor36, h0, h1, h2, h3, f_L, f_a, f_d]

theorem cpytOut (L : BitVec 4) (a : Reg) (d : Reg) : Statement (.cpytOut L a d) := by
  intro _ _
  have hb_L := L.isLt
  have hb_a := a.isLt
  have hb_d := d.isLt
  obtain ⟨w, hw⟩ : ∃ w, w = 0x220006d + L.toNat * 268435456 + a.toNat * 16384 + d.toNat * 128 := ⟨_, rfl⟩
  have he : encodeWord (.cpytOut L a d) = w := hw.symm
  have h0 : w % 2 = 1 := by omega
  have h1 : w / 2 ^ 1 % 2 ^ (6 + 1 - 1) = 54 := by omega
  have h2 : w / 2 ^ 21 % 2 ^ (24 + 1 - 21) = 1 := by omega
  have h3 : w / 2 ^ 25 % 2 ^ (27 + 1 - 25) = 1 := by omega
  have f_L : w / 2 ^ 28 % 2 ^ (31 + 1 - 28) = L.toNat := by omega
  have f_a : w / 2 ^ 14 % 2 ^ (20 + 1 - 14) = a.toNat := by omega
  have f_d : w / 2 ^ 7 % 2 ^ (13 + 1 - 7) = d.toNat := by omega
  rw [he]
  simp [decodeRaw, decode32, decodeMajor36, h0, h1, h2, h3, f_L, f_a, f_d]

theorem halo (L : BitVec 4) (a : Reg) (d : Reg) : Statement (.halo L a d) := by
  intro _ _
  have hb_L := L.isLt
  have hb_a := a.isLt
  have hb_d := d.isLt
  obtain ⟨w, hw⟩ : ∃ w, w = 0x40006d + L.toNat * 268435456 + a.toNat * 16384 + d.toNat * 128 := ⟨_, rfl⟩
  have he : encodeWord (.halo L a d) = w := hw.symm
  have h0 : w % 2 = 1 := by omega
  have h1 : w / 2 ^ 1 % 2 ^ (6 + 1 - 1) = 54 := by omega
  have h2 : w / 2 ^ 21 % 2 ^ (24 + 1 - 21) = 2 := by omega
  have h3 : w / 2 ^ 25 % 2 ^ (27 + 1 - 25) = 0 := by omega
  have f_L : w / 2 ^ 28 % 2 ^ (31 + 1 - 28) = L.toNat := by omega
  have f_a : w / 2 ^ 14 % 2 ^ (20 + 1 - 14) = a.toNat := by omega
  have f_d : w / 2 ^ 7 % 2 ^ (13 + 1 - 7) = d.toNat := by omega
  rw [he]
  simp [decodeRaw, decode32, decodeMajor36, h0, h1, h2, h3, f_L, f_a, f_d]

theorem wstr (L : BitVec 4) (s : Sz) (a : Reg) (d : Reg) : Statement (.wstr L s a d) := by
  intro _ _
  have hb_L := L.isLt
  have hb_s := s.code_lt
  have hb_a := a.isLt
  have hb_d := d.isLt
  obtain ⟨w, hw⟩ : ∃ w, w = 0x60006d + L.toNat * 268435456 + s.code * 33554432 + a.toNat * 16384 + d.toNat * 128 := ⟨_, rfl⟩
  have he : encodeWord (.wstr L s a d) = w := hw.symm
  have h0 : w % 2 = 1 := by omega
  have h1 : w / 2 ^ 1 % 2 ^ (6 + 1 - 1) = 54 := by omega
  have h2 : w / 2 ^ 21 % 2 ^ (24 + 1 - 21) = 3 := by omega
  have f_L : w / 2 ^ 28 % 2 ^ (31 + 1 - 28) = L.toNat := by omega
  have f_s : w / 2 ^ 25 % 2 ^ (27 + 1 - 25) = s.code := by omega
  have f_a : w / 2 ^ 14 % 2 ^ (20 + 1 - 14) = a.toNat := by omega
  have f_d : w / 2 ^ 7 % 2 ^ (13 + 1 - 7) = d.toNat := by omega
  rw [he]
  simp [decodeRaw, decode32, decodeMajor36, h0, h1, h2, f_L, f_s, f_a, f_d]

theorem wget (L : BitVec 4) (s : Sz) (a : Reg) (d : Reg) : Statement (.wget L s a d) := by
  intro _ _
  have hb_L := L.isLt
  have hb_s := s.code_lt
  have hb_a := a.isLt
  have hb_d := d.isLt
  obtain ⟨w, hw⟩ : ∃ w, w = 0x80006d + L.toNat * 268435456 + s.code * 33554432 + a.toNat * 16384 + d.toNat * 128 := ⟨_, rfl⟩
  have he : encodeWord (.wget L s a d) = w := hw.symm
  have h0 : w % 2 = 1 := by omega
  have h1 : w / 2 ^ 1 % 2 ^ (6 + 1 - 1) = 54 := by omega
  have h2 : w / 2 ^ 21 % 2 ^ (24 + 1 - 21) = 4 := by omega
  have f_L : w / 2 ^ 28 % 2 ^ (31 + 1 - 28) = L.toNat := by omega
  have f_s : w / 2 ^ 25 % 2 ^ (27 + 1 - 25) = s.code := by omega
  have f_a : w / 2 ^ 14 % 2 ^ (20 + 1 - 14) = a.toNat := by omega
  have f_d : w / 2 ^ 7 % 2 ^ (13 + 1 - 7) = d.toNat := by omega
  rw [he]
  simp [decodeRaw, decode32, decodeMajor36, h0, h1, h2, f_L, f_s, f_a, f_d]

theorem wcnt (L : BitVec 4) (c : Bool) (a : Reg) (d : Reg) : Statement (.wcnt L c a d) := by
  intro _ _
  have hb_L := L.isLt
  have hb_c := c.toNat_le
  have hb_a := a.isLt
  have hb_d := d.isLt
  obtain ⟨w, hw⟩ : ∃ w, w = 0xa0006d + L.toNat * 268435456 + c.toNat * 33554432 + a.toNat * 16384 + d.toNat * 128 := ⟨_, rfl⟩
  have he : encodeWord (.wcnt L c a d) = w := hw.symm
  have h0 : w % 2 = 1 := by omega
  have h1 : w / 2 ^ 1 % 2 ^ (6 + 1 - 1) = 54 := by omega
  have h2 : w / 2 ^ 21 % 2 ^ (24 + 1 - 21) = 5 := by omega
  have h3 : w / 2 ^ 26 % 2 ^ (27 + 1 - 26) = 0 := by omega
  have f_L : w / 2 ^ 28 % 2 ^ (31 + 1 - 28) = L.toNat := by omega
  have f_c : w / 2 ^ 25 % 2 ^ (25 + 1 - 25) = c.toNat := by omega
  have f_a : w / 2 ^ 14 % 2 ^ (20 + 1 - 14) = a.toNat := by omega
  have f_d : w / 2 ^ 7 % 2 ^ (13 + 1 - 7) = d.toNat := by omega
  rw [he]
  simp [decodeRaw, decode32, decodeMajor36, h0, h1, h2, h3, f_L, f_c, f_a, f_d]

theorem wwait (q : Bool) (c : Bool) (a : Reg) (d : Reg) : Statement (.wwait q c a d) := by
  intro _ _
  have hb_q := q.toNat_le
  have hb_c := c.toNat_le
  have hb_a := a.isLt
  have hb_d := d.isLt
  obtain ⟨w, hw⟩ : ∃ w, w = 0xc0006d + q.toNat * 67108864 + c.toNat * 33554432 + a.toNat * 16384 + d.toNat * 128 := ⟨_, rfl⟩
  have he : encodeWord (.wwait q c a d) = w := hw.symm
  have h0 : w % 2 = 1 := by omega
  have h1 : w / 2 ^ 1 % 2 ^ (6 + 1 - 1) = 54 := by omega
  have h2 : w / 2 ^ 21 % 2 ^ (24 + 1 - 21) = 6 := by omega
  have h3 : w / 2 ^ 27 % 2 ^ (31 + 1 - 27) = 0 := by omega
  have f_q : w / 2 ^ 26 % 2 ^ (26 + 1 - 26) = q.toNat := by omega
  have f_c : w / 2 ^ 25 % 2 ^ (25 + 1 - 25) = c.toNat := by omega
  have f_a : w / 2 ^ 14 % 2 ^ (20 + 1 - 14) = a.toNat := by omega
  have f_d : w / 2 ^ 7 % 2 ^ (13 + 1 - 7) = d.toNat := by omega
  rw [he]
  simp [decodeRaw, decode32, decodeMajor36, h0, h1, h2, h3, f_q, f_c, f_a, f_d]

theorem mloop (L : BitVec 4) (s : BitVec 2) (a : Reg) (d : Reg) : Statement (.mloop L s a d) := by
  intro _ _
  have hb_L := L.isLt
  have hb_s := s.isLt
  have hb_a := a.isLt
  have hb_d := d.isLt
  obtain ⟨w, hw⟩ : ∃ w, w = 0xe0006d + L.toNat * 268435456 + s.toNat * 33554432 + a.toNat * 16384 + d.toNat * 128 := ⟨_, rfl⟩
  have he : encodeWord (.mloop L s a d) = w := hw.symm
  have h0 : w % 2 = 1 := by omega
  have h1 : w / 2 ^ 1 % 2 ^ (6 + 1 - 1) = 54 := by omega
  have h2 : w / 2 ^ 21 % 2 ^ (24 + 1 - 21) = 7 := by omega
  have h3 : w / 2 ^ 27 % 2 ^ (27 + 1 - 27) = 0 := by omega
  have f_L : w / 2 ^ 28 % 2 ^ (31 + 1 - 28) = L.toNat := by omega
  have f_s : w / 2 ^ 25 % 2 ^ (26 + 1 - 25) = s.toNat := by omega
  have f_a : w / 2 ^ 14 % 2 ^ (20 + 1 - 14) = a.toNat := by omega
  have f_d : w / 2 ^ 7 % 2 ^ (13 + 1 - 7) = d.toNat := by omega
  rw [he]
  simp [decodeRaw, decode32, decodeMajor36, h0, h1, h2, h3, f_L, f_s, f_a, f_d]

theorem mldb (L : BitVec 4) (a : Reg) (d : Reg) : Statement (.mldb L a d) := by
  intro _ _
  have hb_L := L.isLt
  have hb_a := a.isLt
  have hb_d := d.isLt
  obtain ⟨w, hw⟩ : ∃ w, w = 0x100006d + L.toNat * 268435456 + a.toNat * 16384 + d.toNat * 128 := ⟨_, rfl⟩
  have he : encodeWord (.mldb L a d) = w := hw.symm
  have h0 : w % 2 = 1 := by omega
  have h1 : w / 2 ^ 1 % 2 ^ (6 + 1 - 1) = 54 := by omega
  have h2 : w / 2 ^ 21 % 2 ^ (24 + 1 - 21) = 8 := by omega
  have h3 : w / 2 ^ 25 % 2 ^ (27 + 1 - 25) = 0 := by omega
  have f_L : w / 2 ^ 28 % 2 ^ (31 + 1 - 28) = L.toNat := by omega
  have f_a : w / 2 ^ 14 % 2 ^ (20 + 1 - 14) = a.toNat := by omega
  have f_d : w / 2 ^ 7 % 2 ^ (13 + 1 - 7) = d.toNat := by omega
  rw [he]
  simp [decodeRaw, decode32, decodeMajor36, h0, h1, h2, h3, f_L, f_a, f_d]

theorem mrd (L : BitVec 4) (t : BitVec 2) (a : Reg) (d : Reg) : Statement (.mrd L t a d) := by
  intro _ _
  have hb_L := L.isLt
  have hb_t := t.isLt
  have hb_a := a.isLt
  have hb_d := d.isLt
  obtain ⟨w, hw⟩ : ∃ w, w = 0x120006d + L.toNat * 268435456 + t.toNat * 33554432 + a.toNat * 16384 + d.toNat * 128 := ⟨_, rfl⟩
  have he : encodeWord (.mrd L t a d) = w := hw.symm
  have h0 : w % 2 = 1 := by omega
  have h1 : w / 2 ^ 1 % 2 ^ (6 + 1 - 1) = 54 := by omega
  have h2 : w / 2 ^ 21 % 2 ^ (24 + 1 - 21) = 9 := by omega
  have h3 : w / 2 ^ 27 % 2 ^ (27 + 1 - 27) = 0 := by omega
  have f_L : w / 2 ^ 28 % 2 ^ (31 + 1 - 28) = L.toNat := by omega
  have f_t : w / 2 ^ 25 % 2 ^ (26 + 1 - 25) = t.toNat := by omega
  have f_a : w / 2 ^ 14 % 2 ^ (20 + 1 - 14) = a.toNat := by omega
  have f_d : w / 2 ^ 7 % 2 ^ (13 + 1 - 7) = d.toNat := by omega
  rw [he]
  simp [decodeRaw, decode32, decodeMajor36, h0, h1, h2, h3, f_L, f_t, f_a, f_d]

theorem mwm (L : BitVec 4) (t : BitVec 2) (d : Reg) : Statement (.mwm L t d) := by
  intro _ _
  have hb_L := L.isLt
  have hb_t := t.isLt
  have hb_d := d.isLt
  obtain ⟨w, hw⟩ : ∃ w, w = 0x140006d + L.toNat * 268435456 + t.toNat * 33554432 + d.toNat * 128 := ⟨_, rfl⟩
  have he : encodeWord (.mwm L t d) = w := hw.symm
  have h0 : w % 2 = 1 := by omega
  have h1 : w / 2 ^ 1 % 2 ^ (6 + 1 - 1) = 54 := by omega
  have h2 : w / 2 ^ 21 % 2 ^ (24 + 1 - 21) = 10 := by omega
  have h3 : w / 2 ^ 27 % 2 ^ (27 + 1 - 27) = 0 := by omega
  have h4 : w / 2 ^ 14 % 2 ^ (20 + 1 - 14) = 0 := by omega
  have f_L : w / 2 ^ 28 % 2 ^ (31 + 1 - 28) = L.toNat := by omega
  have f_t : w / 2 ^ 25 % 2 ^ (26 + 1 - 25) = t.toNat := by omega
  have f_d : w / 2 ^ 7 % 2 ^ (13 + 1 - 7) = d.toNat := by omega
  rw [he]
  simp [decodeRaw, decode32, decodeMajor36, h0, h1, h2, h3, h4, f_L, f_t, f_d]

theorem mzero (L : BitVec 4) (t : BitVec 2) : Statement (.mzero L t) := by
  intro _ _
  have hb_L := L.isLt
  have hb_t := t.isLt
  obtain ⟨w, hw⟩ : ∃ w, w = 0x160006d + L.toNat * 268435456 + t.toNat * 33554432 := ⟨_, rfl⟩
  have he : encodeWord (.mzero L t) = w := hw.symm
  have h0 : w % 2 = 1 := by omega
  have h1 : w / 2 ^ 1 % 2 ^ (6 + 1 - 1) = 54 := by omega
  have h2 : w / 2 ^ 21 % 2 ^ (24 + 1 - 21) = 11 := by omega
  have h3 : w / 2 ^ 27 % 2 ^ (27 + 1 - 27) = 0 := by omega
  have h4 : w / 2 ^ 7 % 2 ^ (20 + 1 - 7) = 0 := by omega
  have f_L : w / 2 ^ 28 % 2 ^ (31 + 1 - 28) = L.toNat := by omega
  have f_t : w / 2 ^ 25 % 2 ^ (26 + 1 - 25) = t.toNat := by omega
  rw [he]
  simp [decodeRaw, decode32, decodeMajor36, h0, h1, h2, h3, h4, f_L, f_t]

theorem mrel (L : BitVec 4) (t : BitVec 2) : Statement (.mrel L t) := by
  intro _ _
  have hb_L := L.isLt
  have hb_t := t.isLt
  obtain ⟨w, hw⟩ : ∃ w, w = 0x180006d + L.toNat * 268435456 + t.toNat * 33554432 := ⟨_, rfl⟩
  have he : encodeWord (.mrel L t) = w := hw.symm
  have h0 : w % 2 = 1 := by omega
  have h1 : w / 2 ^ 1 % 2 ^ (6 + 1 - 1) = 54 := by omega
  have h2 : w / 2 ^ 21 % 2 ^ (24 + 1 - 21) = 12 := by omega
  have h3 : w / 2 ^ 27 % 2 ^ (27 + 1 - 27) = 0 := by omega
  have h4 : w / 2 ^ 7 % 2 ^ (20 + 1 - 7) = 0 := by omega
  have f_L : w / 2 ^ 28 % 2 ^ (31 + 1 - 28) = L.toNat := by omega
  have f_t : w / 2 ^ 25 % 2 ^ (26 + 1 - 25) = t.toNat := by omega
  rw [he]
  simp [decodeRaw, decode32, decodeMajor36, h0, h1, h2, h3, h4, f_L, f_t]

theorem rndm (b : Reg) (a : Reg) (d : Reg) : Statement (.rndm b a d) := by
  intro _ _
  have hb_b := b.isLt
  have hb_a := a.isLt
  have hb_d := d.isLt
  obtain ⟨w, hw⟩ : ∃ w, w = 0x6f + b.toNat * 2097152 + a.toNat * 16384 + d.toNat * 128 := ⟨_, rfl⟩
  have he : encodeWord (.rndm b a d) = w := hw.symm
  have h0 : w % 2 = 1 := by omega
  have h1 : w / 2 ^ 1 % 2 ^ (6 + 1 - 1) = 55 := by omega
  have h2 : w / 2 ^ 28 % 2 ^ (31 + 1 - 28) = 0 := by omega
  have f_b : w / 2 ^ 21 % 2 ^ (27 + 1 - 21) = b.toNat := by omega
  have f_a : w / 2 ^ 14 % 2 ^ (20 + 1 - 14) = a.toNat := by omega
  have f_d : w / 2 ^ 7 % 2 ^ (13 + 1 - 7) = d.toNat := by omega
  rw [he]
  simp [decodeRaw, decode32, decodeMajor37, h0, h1, h2, f_b, f_a, f_d]

theorem srd (r : BitVec 11) (d : Reg) : Statement (.srd r d) := by
  intro _ _
  have hb_r := r.isLt
  have hb_d := d.isLt
  obtain ⟨w, hw⟩ : ∃ w, w = 0x71 + r.toNat * 2097152 + d.toNat * 128 := ⟨_, rfl⟩
  have he : encodeWord (.srd r d) = w := hw.symm
  have h0 : w % 2 = 1 := by omega
  have h1 : w / 2 ^ 1 % 2 ^ (6 + 1 - 1) = 56 := by omega
  have h2 : w / 2 ^ 14 % 2 ^ (20 + 1 - 14) = 0 := by omega
  have f_r : w / 2 ^ 21 % 2 ^ (31 + 1 - 21) = r.toNat := by omega
  have f_d : w / 2 ^ 7 % 2 ^ (13 + 1 - 7) = d.toNat := by omega
  rw [he]
  simp [decodeRaw, decode32, decodeMajor38, h0, h1, h2, f_r, f_d]

theorem swr (r : BitVec 11) (d : Reg) : Statement (.swr r d) := by
  intro _ _
  have hb_r := r.isLt
  have hb_d := d.isLt
  obtain ⟨w, hw⟩ : ∃ w, w = 0x73 + r.toNat * 2097152 + d.toNat * 128 := ⟨_, rfl⟩
  have he : encodeWord (.swr r d) = w := hw.symm
  have h0 : w % 2 = 1 := by omega
  have h1 : w / 2 ^ 1 % 2 ^ (6 + 1 - 1) = 57 := by omega
  have h2 : w / 2 ^ 14 % 2 ^ (20 + 1 - 14) = 0 := by omega
  have f_r : w / 2 ^ 21 % 2 ^ (31 + 1 - 21) = r.toNat := by omega
  have f_d : w / 2 ^ 7 % 2 ^ (13 + 1 - 7) = d.toNat := by omega
  rw [he]
  simp [decodeRaw, decode32, decodeMajor39, h0, h1, h2, f_r, f_d]

theorem tlbinv (b : Reg) (a : Reg) : Statement (.tlbinv b a) := by
  intro _ _
  have hb_b := b.isLt
  have hb_a := a.isLt
  obtain ⟨w, hw⟩ : ∃ w, w = 0x30000075 + b.toNat * 2097152 + a.toNat * 16384 := ⟨_, rfl⟩
  have he : encodeWord (.tlbinv b a) = w := hw.symm
  have h0 : w % 2 = 1 := by omega
  have h1 : w / 2 ^ 1 % 2 ^ (6 + 1 - 1) = 58 := by omega
  have h2 : w / 2 ^ 28 % 2 ^ (31 + 1 - 28) = 3 := by omega
  have h3 : w / 2 ^ 7 % 2 ^ (13 + 1 - 7) = 0 := by omega
  have f_b : w / 2 ^ 21 % 2 ^ (27 + 1 - 21) = b.toNat := by omega
  have f_a : w / 2 ^ 14 % 2 ^ (20 + 1 - 14) = a.toNat := by omega
  rw [he]
  simp [decodeRaw, decode32, decodeMajor3A, h0, h1, h2, h3, f_b, f_a]

theorem rotinv (b : Reg) (a : Reg) : Statement (.rotinv b a) := by
  intro _ _
  have hb_b := b.isLt
  have hb_a := a.isLt
  obtain ⟨w, hw⟩ : ∃ w, w = 0x40000075 + b.toNat * 2097152 + a.toNat * 16384 := ⟨_, rfl⟩
  have he : encodeWord (.rotinv b a) = w := hw.symm
  have h0 : w % 2 = 1 := by omega
  have h1 : w / 2 ^ 1 % 2 ^ (6 + 1 - 1) = 58 := by omega
  have h2 : w / 2 ^ 28 % 2 ^ (31 + 1 - 28) = 4 := by omega
  have h3 : w / 2 ^ 7 % 2 ^ (13 + 1 - 7) = 0 := by omega
  have f_b : w / 2 ^ 21 % 2 ^ (27 + 1 - 21) = b.toNat := by omega
  have f_a : w / 2 ^ 14 % 2 ^ (20 + 1 - 14) = a.toNat := by omega
  rw [he]
  simp [decodeRaw, decode32, decodeMajor3A, h0, h1, h2, h3, f_b, f_a]

theorem cmpman (a : Reg) (d : Reg) : Statement (.cmpman a d) := by
  intro _ _
  have hb_a := a.isLt
  have hb_d := d.isLt
  obtain ⟨w, hw⟩ : ∃ w, w = 0x50000075 + a.toNat * 16384 + d.toNat * 128 := ⟨_, rfl⟩
  have he : encodeWord (.cmpman a d) = w := hw.symm
  have h0 : w % 2 = 1 := by omega
  have h1 : w / 2 ^ 1 % 2 ^ (6 + 1 - 1) = 58 := by omega
  have h2 : w / 2 ^ 28 % 2 ^ (31 + 1 - 28) = 5 := by omega
  have h3 : w / 2 ^ 21 % 2 ^ (27 + 1 - 21) = 0 := by omega
  have f_a : w / 2 ^ 14 % 2 ^ (20 + 1 - 14) = a.toNat := by omega
  have f_d : w / 2 ^ 7 % 2 ^ (13 + 1 - 7) = d.toNat := by omega
  rw [he]
  simp [decodeRaw, decode32, decodeMajor3A, h0, h1, h2, h3, f_a, f_d]

theorem lnch (a : Reg) (d : Reg) : Statement (.lnch a d) := by
  intro _ _
  have hb_a := a.isLt
  have hb_d := d.isLt
  obtain ⟨w, hw⟩ : ∃ w, w = 0x60000075 + a.toNat * 16384 + d.toNat * 128 := ⟨_, rfl⟩
  have he : encodeWord (.lnch a d) = w := hw.symm
  have h0 : w % 2 = 1 := by omega
  have h1 : w / 2 ^ 1 % 2 ^ (6 + 1 - 1) = 58 := by omega
  have h2 : w / 2 ^ 28 % 2 ^ (31 + 1 - 28) = 6 := by omega
  have h3 : w / 2 ^ 21 % 2 ^ (27 + 1 - 21) = 0 := by omega
  have f_a : w / 2 ^ 14 % 2 ^ (20 + 1 - 14) = a.toNat := by omega
  have f_d : w / 2 ^ 7 % 2 ^ (13 + 1 - 7) = d.toNat := by omega
  rw [he]
  simp [decodeRaw, decode32, decodeMajor3A, h0, h1, h2, h3, f_a, f_d]

theorem chkpTake (a : Reg) (d : Reg) : Statement (.chkpTake a d) := by
  intro _ _
  have hb_a := a.isLt
  have hb_d := d.isLt
  obtain ⟨w, hw⟩ : ∃ w, w = 0x70000075 + a.toNat * 16384 + d.toNat * 128 := ⟨_, rfl⟩
  have he : encodeWord (.chkpTake a d) = w := hw.symm
  have h0 : w % 2 = 1 := by omega
  have h1 : w / 2 ^ 1 % 2 ^ (6 + 1 - 1) = 58 := by omega
  have h2 : w / 2 ^ 28 % 2 ^ (31 + 1 - 28) = 7 := by omega
  have h3 : w / 2 ^ 21 % 2 ^ (27 + 1 - 21) = 0 := by omega
  have f_a : w / 2 ^ 14 % 2 ^ (20 + 1 - 14) = a.toNat := by omega
  have f_d : w / 2 ^ 7 % 2 ^ (13 + 1 - 7) = d.toNat := by omega
  rw [he]
  simp [decodeRaw, decode32, decodeMajor3A, h0, h1, h2, h3, f_a, f_d]

theorem chkpPreempt (a : Reg) (d : Reg) : Statement (.chkpPreempt a d) := by
  intro _ _
  have hb_a := a.isLt
  have hb_d := d.isLt
  obtain ⟨w, hw⟩ : ∃ w, w = 0x70200075 + a.toNat * 16384 + d.toNat * 128 := ⟨_, rfl⟩
  have he : encodeWord (.chkpPreempt a d) = w := hw.symm
  have h0 : w % 2 = 1 := by omega
  have h1 : w / 2 ^ 1 % 2 ^ (6 + 1 - 1) = 58 := by omega
  have h2 : w / 2 ^ 28 % 2 ^ (31 + 1 - 28) = 7 := by omega
  have h3 : w / 2 ^ 21 % 2 ^ (27 + 1 - 21) = 1 := by omega
  have f_a : w / 2 ^ 14 % 2 ^ (20 + 1 - 14) = a.toNat := by omega
  have f_d : w / 2 ^ 7 % 2 ^ (13 + 1 - 7) = d.toNat := by omega
  rw [he]
  simp [decodeRaw, decode32, decodeMajor3A, h0, h1, h2, h3, f_a, f_d]

theorem chkpResume (a : Reg) (d : Reg) : Statement (.chkpResume a d) := by
  intro _ _
  have hb_a := a.isLt
  have hb_d := d.isLt
  obtain ⟨w, hw⟩ : ∃ w, w = 0x70400075 + a.toNat * 16384 + d.toNat * 128 := ⟨_, rfl⟩
  have he : encodeWord (.chkpResume a d) = w := hw.symm
  have h0 : w % 2 = 1 := by omega
  have h1 : w / 2 ^ 1 % 2 ^ (6 + 1 - 1) = 58 := by omega
  have h2 : w / 2 ^ 28 % 2 ^ (31 + 1 - 28) = 7 := by omega
  have h3 : w / 2 ^ 21 % 2 ^ (27 + 1 - 21) = 2 := by omega
  have f_a : w / 2 ^ 14 % 2 ^ (20 + 1 - 14) = a.toNat := by omega
  have f_d : w / 2 ^ 7 % 2 ^ (13 + 1 - 7) = d.toNat := by omega
  rw [he]
  simp [decodeRaw, decode32, decodeMajor3A, h0, h1, h2, h3, f_a, f_d]

theorem halt (a : Reg) : Statement (.halt a) := by
  intro _ _
  have hb_a := a.isLt
  obtain ⟨w, hw⟩ : ∃ w, w = 0x80000075 + a.toNat * 16384 := ⟨_, rfl⟩
  have he : encodeWord (.halt a) = w := hw.symm
  have h0 : w % 2 = 1 := by omega
  have h1 : w / 2 ^ 1 % 2 ^ (6 + 1 - 1) = 58 := by omega
  have h2 : w / 2 ^ 28 % 2 ^ (31 + 1 - 28) = 8 := by omega
  have h3 : w / 2 ^ 21 % 2 ^ (27 + 1 - 21) = 0 := by omega
  have h4 : w / 2 ^ 7 % 2 ^ (13 + 1 - 7) = 0 := by omega
  have f_a : w / 2 ^ 14 % 2 ^ (20 + 1 - 14) = a.toNat := by omega
  rw [he]
  simp [decodeRaw, decode32, decodeMajor3A, h0, h1, h2, h3, h4, f_a]

theorem icinv (b : Reg) (a : Reg) : Statement (.icinv b a) := by
  intro _ _
  have hb_b := b.isLt
  have hb_a := a.isLt
  obtain ⟨w, hw⟩ : ∃ w, w = 0xa0000075 + b.toNat * 2097152 + a.toNat * 16384 := ⟨_, rfl⟩
  have he : encodeWord (.icinv b a) = w := hw.symm
  have h0 : w % 2 = 1 := by omega
  have h1 : w / 2 ^ 1 % 2 ^ (6 + 1 - 1) = 58 := by omega
  have h2 : w / 2 ^ 28 % 2 ^ (31 + 1 - 28) = 10 := by omega
  have h3 : w / 2 ^ 7 % 2 ^ (13 + 1 - 7) = 0 := by omega
  have f_b : w / 2 ^ 21 % 2 ^ (27 + 1 - 21) = b.toNat := by omega
  have f_a : w / 2 ^ 14 % 2 ^ (20 + 1 - 14) = a.toNat := by omega
  rw [he]
  simp [decodeRaw, decode32, decodeMajor3A, h0, h1, h2, h3, f_b, f_a]

theorem tlrwRd (n : BitVec 7) (d : Reg) : Statement (.tlrwRd n d) := by
  intro _ _
  have hb_n := n.isLt
  have hb_d := d.isLt
  obtain ⟨w, hw⟩ : ∃ w, w = 0x77 + n.toNat * 2097152 + d.toNat * 128 := ⟨_, rfl⟩
  have he : encodeWord (.tlrwRd n d) = w := hw.symm
  have h0 : w % 2 = 1 := by omega
  have h1 : w / 2 ^ 1 % 2 ^ (6 + 1 - 1) = 59 := by omega
  have h2 : w / 2 ^ 28 % 2 ^ (31 + 1 - 28) = 0 := by omega
  have h3 : w / 2 ^ 14 % 2 ^ (20 + 1 - 14) = 0 := by omega
  have f_n : w / 2 ^ 21 % 2 ^ (27 + 1 - 21) = n.toNat := by omega
  have f_d : w / 2 ^ 7 % 2 ^ (13 + 1 - 7) = d.toNat := by omega
  rw [he]
  simp [decodeRaw, decode32, decodeMajor3B, h0, h1, h2, h3, f_n, f_d]

theorem tlrwWr (n : BitVec 7) (d : Reg) : Statement (.tlrwWr n d) := by
  intro _ _
  have hb_n := n.isLt
  have hb_d := d.isLt
  obtain ⟨w, hw⟩ : ∃ w, w = 0x10000077 + n.toNat * 2097152 + d.toNat * 128 := ⟨_, rfl⟩
  have he : encodeWord (.tlrwWr n d) = w := hw.symm
  have h0 : w % 2 = 1 := by omega
  have h1 : w / 2 ^ 1 % 2 ^ (6 + 1 - 1) = 59 := by omega
  have h2 : w / 2 ^ 28 % 2 ^ (31 + 1 - 28) = 1 := by omega
  have h3 : w / 2 ^ 14 % 2 ^ (20 + 1 - 14) = 0 := by omega
  have f_n : w / 2 ^ 21 % 2 ^ (27 + 1 - 21) = n.toNat := by omega
  have f_d : w / 2 ^ 7 % 2 ^ (13 + 1 - 7) = d.toNat := by omega
  rw [he]
  simp [decodeRaw, decode32, decodeMajor3B, h0, h1, h2, h3, f_n, f_d]

theorem repPfx (s : BitVec 2) (x : Bool) (y : Bool) (z : Bool) (c : BitVec 6) : Statement (.repPfx s x y z c) := by
  intro _ _
  have hb_s := s.isLt
  have hb_x := x.toNat_le
  have hb_y := y.toNat_le
  have hb_z := z.toNat_le
  have hb_c := c.isLt
  obtain ⟨w, hw⟩ : ∃ w, w = 0x79 + s.toNat * 65536 + x.toNat * 32768 + y.toNat * 16384 + z.toNat * 8192 + c.toNat * 128 := ⟨_, rfl⟩
  have he : encodeWord (.repPfx s x y z c) = w := hw.symm
  have h0 : w % 2 = 1 := by omega
  have h1 : w / 2 ^ 1 % 2 ^ (6 + 1 - 1) = 60 := by omega
  have h2 : w / 2 ^ 18 % 2 ^ (31 + 1 - 18) = 0 := by omega
  have f_s : w / 2 ^ 16 % 2 ^ (17 + 1 - 16) = s.toNat := by omega
  have f_x : w / 2 ^ 15 % 2 ^ (15 + 1 - 15) = x.toNat := by omega
  have f_y : w / 2 ^ 14 % 2 ^ (14 + 1 - 14) = y.toNat := by omega
  have f_z : w / 2 ^ 13 % 2 ^ (13 + 1 - 13) = z.toNat := by omega
  have f_c : w / 2 ^ 7 % 2 ^ (12 + 1 - 7) = c.toNat := by omega
  rw [he]
  simp [decodeRaw, decode32, decodeMajor3C, h0, h1, h2, f_s, f_x, f_y, f_z, f_c]

theorem modPfx (f : Bool) (z : Bool) (u : Bool) (r : BitVec 2) (o : Bool) (p : BitVec 2) (q : Bool) (e : BitVec 3) : Statement (.modPfx f z u r o p q e) := by
  intro _ _
  have hb_f := f.toNat_le
  have hb_z := z.toNat_le
  have hb_u := u.toNat_le
  have hb_r := r.isLt
  have hb_o := o.toNat_le
  have hb_p := p.isLt
  have hb_q := q.toNat_le
  have hb_e := e.isLt
  obtain ⟨w, hw⟩ : ∃ w, w = 0x7b + f.toNat * 262144 + z.toNat * 131072 + u.toNat * 65536 + r.toNat * 16384 + o.toNat * 8192 + p.toNat * 2048 + q.toNat * 1024 + e.toNat * 128 := ⟨_, rfl⟩
  have he : encodeWord (.modPfx f z u r o p q e) = w := hw.symm
  have h0 : w % 2 = 1 := by omega
  have h1 : w / 2 ^ 1 % 2 ^ (6 + 1 - 1) = 61 := by omega
  have h2 : w / 2 ^ 19 % 2 ^ (31 + 1 - 19) = 0 := by omega
  have f_f : w / 2 ^ 18 % 2 ^ (18 + 1 - 18) = f.toNat := by omega
  have f_z : w / 2 ^ 17 % 2 ^ (17 + 1 - 17) = z.toNat := by omega
  have f_u : w / 2 ^ 16 % 2 ^ (16 + 1 - 16) = u.toNat := by omega
  have f_r : w / 2 ^ 14 % 2 ^ (15 + 1 - 14) = r.toNat := by omega
  have f_o : w / 2 ^ 13 % 2 ^ (13 + 1 - 13) = o.toNat := by omega
  have f_p : w / 2 ^ 11 % 2 ^ (12 + 1 - 11) = p.toNat := by omega
  have f_q : w / 2 ^ 10 % 2 ^ (10 + 1 - 10) = q.toNat := by omega
  have f_e : w / 2 ^ 7 % 2 ^ (9 + 1 - 7) = e.toNat := by omega
  rw [he]
  simp [decodeRaw, decode32, decodeMajor3D, h0, h1, h2, f_f, f_z, f_u, f_r, f_o, f_p, f_q, f_e]

theorem divs (b : Reg) (a : Reg) (d : Reg) : Statement (.divs b a d) := by
  intro _ _
  have hb_b := b.isLt
  have hb_a := a.isLt
  have hb_d := d.isLt
  obtain ⟨w, hw⟩ : ∃ w, w = 0x19 + b.toNat * 2097152 + a.toNat * 16384 + d.toNat * 128 := ⟨_, rfl⟩
  have he : encodeWord (.divs b a d) = w := hw.symm
  have h0 : w % 2 = 1 := by omega
  have h1 : w / 2 ^ 1 % 2 ^ (6 + 1 - 1) = 12 := by omega
  have h2 : w / 2 ^ 28 % 2 ^ (31 + 1 - 28) = 0 := by omega
  have f_b : w / 2 ^ 21 % 2 ^ (27 + 1 - 21) = b.toNat := by omega
  have f_a : w / 2 ^ 14 % 2 ^ (20 + 1 - 14) = a.toNat := by omega
  have f_d : w / 2 ^ 7 % 2 ^ (13 + 1 - 7) = d.toNat := by omega
  rw [he]
  simp [decodeRaw, decode32, decodeMajor0C, h0, h1, h2, f_b, f_a, f_d]

theorem divu (b : Reg) (a : Reg) (d : Reg) : Statement (.divu b a d) := by
  intro _ _
  have hb_b := b.isLt
  have hb_a := a.isLt
  have hb_d := d.isLt
  obtain ⟨w, hw⟩ : ∃ w, w = 0x10000019 + b.toNat * 2097152 + a.toNat * 16384 + d.toNat * 128 := ⟨_, rfl⟩
  have he : encodeWord (.divu b a d) = w := hw.symm
  have h0 : w % 2 = 1 := by omega
  have h1 : w / 2 ^ 1 % 2 ^ (6 + 1 - 1) = 12 := by omega
  have h2 : w / 2 ^ 28 % 2 ^ (31 + 1 - 28) = 1 := by omega
  have f_b : w / 2 ^ 21 % 2 ^ (27 + 1 - 21) = b.toNat := by omega
  have f_a : w / 2 ^ 14 % 2 ^ (20 + 1 - 14) = a.toNat := by omega
  have f_d : w / 2 ^ 7 % 2 ^ (13 + 1 - 7) = d.toNat := by omega
  rw [he]
  simp [decodeRaw, decode32, decodeMajor0C, h0, h1, h2, f_b, f_a, f_d]

theorem rems (b : Reg) (a : Reg) (d : Reg) : Statement (.rems b a d) := by
  intro _ _
  have hb_b := b.isLt
  have hb_a := a.isLt
  have hb_d := d.isLt
  obtain ⟨w, hw⟩ : ∃ w, w = 0x20000019 + b.toNat * 2097152 + a.toNat * 16384 + d.toNat * 128 := ⟨_, rfl⟩
  have he : encodeWord (.rems b a d) = w := hw.symm
  have h0 : w % 2 = 1 := by omega
  have h1 : w / 2 ^ 1 % 2 ^ (6 + 1 - 1) = 12 := by omega
  have h2 : w / 2 ^ 28 % 2 ^ (31 + 1 - 28) = 2 := by omega
  have f_b : w / 2 ^ 21 % 2 ^ (27 + 1 - 21) = b.toNat := by omega
  have f_a : w / 2 ^ 14 % 2 ^ (20 + 1 - 14) = a.toNat := by omega
  have f_d : w / 2 ^ 7 % 2 ^ (13 + 1 - 7) = d.toNat := by omega
  rw [he]
  simp [decodeRaw, decode32, decodeMajor0C, h0, h1, h2, f_b, f_a, f_d]

theorem remu (b : Reg) (a : Reg) (d : Reg) : Statement (.remu b a d) := by
  intro _ _
  have hb_b := b.isLt
  have hb_a := a.isLt
  have hb_d := d.isLt
  obtain ⟨w, hw⟩ : ∃ w, w = 0x30000019 + b.toNat * 2097152 + a.toNat * 16384 + d.toNat * 128 := ⟨_, rfl⟩
  have he : encodeWord (.remu b a d) = w := hw.symm
  have h0 : w % 2 = 1 := by omega
  have h1 : w / 2 ^ 1 % 2 ^ (6 + 1 - 1) = 12 := by omega
  have h2 : w / 2 ^ 28 % 2 ^ (31 + 1 - 28) = 3 := by omega
  have f_b : w / 2 ^ 21 % 2 ^ (27 + 1 - 21) = b.toNat := by omega
  have f_a : w / 2 ^ 14 % 2 ^ (20 + 1 - 14) = a.toNat := by omega
  have f_d : w / 2 ^ 7 % 2 ^ (13 + 1 - 7) = d.toNat := by omega
  rw [he]
  simp [decodeRaw, decode32, decodeMajor0C, h0, h1, h2, f_b, f_a, f_d]

theorem byteperm (b : Reg) (a : Reg) (d : Reg) : Statement (.byteperm b a d) := by
  intro _ _
  have hb_b := b.isLt
  have hb_a := a.isLt
  have hb_d := d.isLt
  obtain ⟨w, hw⟩ : ∃ w, w = 0xf0000003 + b.toNat * 2097152 + a.toNat * 16384 + d.toNat * 128 := ⟨_, rfl⟩
  have he : encodeWord (.byteperm b a d) = w := hw.symm
  have h0 : w % 2 = 1 := by omega
  have h1 : w / 2 ^ 1 % 2 ^ (6 + 1 - 1) = 1 := by omega
  have h2 : w / 2 ^ 28 % 2 ^ (31 + 1 - 28) = 15 := by omega
  have f_b : w / 2 ^ 21 % 2 ^ (27 + 1 - 21) = b.toNat := by omega
  have f_a : w / 2 ^ 14 % 2 ^ (20 + 1 - 14) = a.toNat := by omega
  have f_d : w / 2 ^ 7 % 2 ^ (13 + 1 - 7) = d.toNat := by omega
  rw [he]
  simp [decodeRaw, decode32, decodeMajor01, h0, h1, h2, f_b, f_a, f_d]

theorem ldc32 (L : BitVec 4) (a : Reg) (d : Reg) : Statement (.ldc32 L a d) := by
  intro _ _
  have hb_L := L.isLt
  have hb_a := a.isLt
  have hb_d := d.isLt
  obtain ⟨w, hw⟩ : ∃ w, w = 0x400037 + L.toNat * 16777216 + a.toNat * 16384 + d.toNat * 128 := ⟨_, rfl⟩
  have he : encodeWord (.ldc32 L a d) = w := hw.symm
  have h0 : w % 2 = 1 := by omega
  have h1 : w / 2 ^ 1 % 2 ^ (6 + 1 - 1) = 27 := by omega
  have h2 : w / 2 ^ 28 % 2 ^ (31 + 1 - 28) = 0 := by omega
  have h3 : w / 2 ^ 21 % 2 ^ (23 + 1 - 21) = 2 := by omega
  have f_L : w / 2 ^ 24 % 2 ^ (27 + 1 - 24) = L.toNat := by omega
  have f_a : w / 2 ^ 14 % 2 ^ (20 + 1 - 14) = a.toNat := by omega
  have f_d : w / 2 ^ 7 % 2 ^ (13 + 1 - 7) = d.toNat := by omega
  rw [he]
  simp [decodeRaw, decode32, decodeMajor1B, h0, h1, h2, h3, f_L, f_a, f_d]

theorem sfuComplete : Statement .sfuComplete := fun h => nomatch h

theorem wfence : Statement .wfence := fun _ _ => by decide

theorem tmldApply : Statement .tmldApply := fun h => nomatch h

theorem loadReturn : Statement .loadReturn := fun h => nomatch h

theorem monitorTimeout : Statement .monitorTimeout := fun h => nomatch h

theorem syncb : Statement .syncb := fun _ _ => by decide

theorem atomReturn : Statement .atomReturn := fun h => nomatch h

theorem exit : Statement .exit := fun _ _ => by decide

theorem yield : Statement .yield := fun _ _ => by decide

theorem nop : Statement .nop := fun _ _ => by decide

theorem brk : Statement .brk := fun _ _ => by decide

theorem gret : Statement .gret := fun _ _ => by decide

theorem matrixPass : Statement .matrixPass := fun h => nomatch h

theorem mldbComplete : Statement .mldbComplete := fun h => nomatch h

theorem mloopComplete : Statement .mloopComplete := fun h => nomatch h

theorem matrixFault : Statement .matrixFault := fun h => nomatch h

theorem eret0 : Statement .eret0 := fun _ _ => by decide

theorem eret1 : Statement .eret1 := fun _ _ => by decide

theorem xlock : Statement .xlock := fun _ _ => by decide

theorem xunlk : Statement .xunlk := fun _ _ => by decide

theorem tfence : Statement .tfence := fun _ _ => by decide

theorem barsync : Statement .barsync := fun _ _ => by decide

theorem bundleRegroup : Statement .bundleRegroup := fun h => nomatch h

theorem fpxWindowEnd : Statement .fpxWindowEnd := fun h => nomatch h

theorem userTrapDelivery : Statement .userTrapDelivery := fun h => nomatch h

theorem faultRecordPost : Statement .faultRecordPost := fun h => nomatch h

theorem pageWalkComplete : Statement .pageWalkComplete := fun h => nomatch h

theorem tstatResume : Statement .tstatResume := fun h => nomatch h

theorem tstatSkip : Statement .tstatSkip := fun h => nomatch h

theorem tstatDeliver : Statement .tstatDeliver := fun h => nomatch h

theorem tstatEndLaunch : Statement .tstatEndLaunch := fun h => nomatch h

theorem fqheadWrite : Statement .fqheadWrite := fun h => nomatch h

theorem fqsizeWrite : Statement .fqsizeWrite := fun h => nomatch h

theorem meetvWrite : Statement .meetvWrite := fun h => nomatch h

theorem dpartWrite : Statement .dpartWrite := fun h => nomatch h

theorem partcfgWrite : Statement .partcfgWrite := fun h => nomatch h

theorem eothiWrite : Statement .eothiWrite := fun h => nomatch h

theorem epsmaxsetWrite : Statement .epsmaxsetWrite := fun h => nomatch h

theorem dlvbsetWrite : Statement .dlvbsetWrite := fun h => nomatch h

theorem migctlSwitch : Statement .migctlSwitch := fun h => nomatch h

theorem registerWrite : Statement .registerWrite := fun h => nomatch h

theorem asyncFlagArrival : Statement .asyncFlagArrival := fun h => nomatch h

theorem dirtyLineWriteback : Statement .dirtyLineWriteback := fun h => nomatch h

theorem homeApply : Statement .homeApply := fun h => nomatch h

theorem vatApply : Statement .vatApply := fun h => nomatch h

theorem routerMerge : Statement .routerMerge := fun h => nomatch h

theorem dualBackgroundCopy : Statement .dualBackgroundCopy := fun h => nomatch h

theorem dispatchPlace : Statement .dispatchPlace := fun h => nomatch h

theorem warpEnd : Statement .warpEnd := fun h => nomatch h

theorem launchComplete : Statement .launchComplete := fun h => nomatch h

theorem serialUnitStart : Statement .serialUnitStart := fun h => nomatch h

theorem serialStall : Statement .serialStall := fun h => nomatch h

theorem checkpointDue : Statement .checkpointDue := fun h => nomatch h

theorem checkpointSave : Statement .checkpointSave := fun h => nomatch h

theorem preemptRollback : Statement .preemptRollback := fun h => nomatch h

theorem preemptDrain : Statement .preemptDrain := fun h => nomatch h

theorem copyEngineStart : Statement .copyEngineStart := fun h => nomatch h

theorem budgetSuspend : Statement .budgetSuspend := fun h => nomatch h

theorem priorityTakeover : Statement .priorityTakeover := fun h => nomatch h

theorem budgetRefill : Statement .budgetRefill := fun h => nomatch h

theorem copyComplete : Statement .copyComplete := fun h => nomatch h

theorem enginePageFault : Statement .enginePageFault := fun h => nomatch h

theorem timeBeatSend : Statement .timeBeatSend := fun h => nomatch h

theorem timeBeatReceive : Statement .timeBeatReceive := fun h => nomatch h

theorem referenceLock : Statement .referenceLock := fun h => nomatch h

theorem deckleFail : Statement .deckleFail := fun h => nomatch h

theorem neighbourSilence : Statement .neighbourSilence := fun h => nomatch h

theorem timeExclusionNotice : Statement .timeExclusionNotice := fun h => nomatch h

theorem rejoin : Statement .rejoin := fun h => nomatch h

theorem rejoinNotice : Statement .rejoinNotice := fun h => nomatch h

theorem paramNotice : Statement .paramNotice := fun h => nomatch h

theorem paramSwitch : Statement .paramSwitch := fun h => nomatch h

theorem ststHoldEnd : Statement .ststHoldEnd := fun h => nomatch h

theorem stampedArrival : Statement .stampedArrival := fun h => nomatch h

theorem ldatServe : Statement .ldatServe := fun h => nomatch h

theorem windowRequestArrival : Statement .windowRequestArrival := fun h => nomatch h

theorem windowRefusal : Statement .windowRefusal := fun h => nomatch h

theorem windowAck : Statement .windowAck := fun h => nomatch h

theorem windowReadReturn : Statement .windowReadReturn := fun h => nomatch h

theorem flitCrcFail : Statement .flitCrcFail := fun h => nomatch h

theorem linkDown : Statement .linkDown := fun h => nomatch h

theorem portUp : Statement .portUp := fun h => nomatch h

theorem linkFailureNotice : Statement .linkFailureNotice := fun h => nomatch h

theorem hostMailboxWrite : Statement .hostMailboxWrite := fun h => nomatch h

theorem hostRead : Statement .hostRead := fun h => nomatch h

theorem powerOnBoot : Statement .powerOnBoot := fun h => nomatch h

theorem partitionImageStart : Statement .partitionImageStart := fun h => nomatch h

theorem quote : Statement .quote := fun h => nomatch h

theorem manifest : Statement .manifest := fun h => nomatch h

theorem rtread : Statement .rtread := fun h => nomatch h

theorem rtwrite : Statement .rtwrite := fun h => nomatch h

theorem rtflip : Statement .rtflip := fun h => nomatch h

theorem fabstat : Statement .fabstat := fun h => nomatch h

theorem notices : Statement .notices := fun h => nomatch h

theorem maintopen : Statement .maintopen := fun h => nomatch h

theorem maintclose : Statement .maintclose := fun h => nomatch h

theorem reqUnknownCommand : Statement .reqUnknownCommand := fun h => nomatch h

theorem partitionSleep : Statement .partitionSleep := fun h => nomatch h

theorem partitionWakeEvent : Statement .partitionWakeEvent := fun h => nomatch h

theorem wakeComplete : Statement .wakeComplete := fun h => nomatch h

theorem powerGovernor : Statement .powerGovernor := fun h => nomatch h

theorem marginLow : Statement .marginLow := fun h => nomatch h

theorem patrolScrub : Statement .patrolScrub := fun h => nomatch h

theorem machineCheck : Statement .machineCheck := fun h => nomatch h

theorem illegalEncoding : Statement .illegalEncoding := fun h => nomatch h

theorem fetchPageFault : Statement .fetchPageFault := fun h => nomatch h

theorem deckleTick : Statement .deckleTick := fun h => nomatch h

theorem servoCandidate : Statement .servoCandidate := fun h => nomatch h

theorem stampedStoreOutcome : Statement .stampedStoreOutcome := fun h => nomatch h

theorem tmResultWritten : Statement .tmResultWritten := fun h => nomatch h

theorem fqbaseWrite : Statement .fqbaseWrite := fun h => nomatch h

theorem packetHop : Statement .packetHop := fun h => nomatch h

end Laws.RoundTrip

end Sys2Proof
end

