-- ==== Sys2Proof/Safety.lean ====
section
/-!
DEFINITION. The words in which claims are made: what a lane is before and after an instruction, when an issuing bundle passes
every check, what an instruction leaves alone, and the invariants of the machine.
-/

namespace Sys2Proof.Machine

/-! Threads and what an instruction may touch. -/

/-- A thread by core, warp slot and lane. -/
def State.thread? (s : State) (c w l : Nat) : Option Thread := (s.warpAt? c w).bind (fun x => tget x.threads l)

/-- Everything of a thread but MEETV, which the release of a meeting group may change in any lane of the warp (R53). -/
def Thread.noMeet (t : Thread) : Thread := { t with meetv := 0 }

/-- The state but for what issuing from a warp slot changes as bookkeeping: the unit in progress, the cycle number, the
core's deficits, and the warp's bundles, last tick and threads. -/
def State.rest (s : State) (c w : Nat) : State :=
  { s with
    cur := ⟨0, 0, 0, 0, none, none, 0, 0, []⟩
    cycle := 0
    cores := tmod s.cores c (fun k => { k with
      deficit := []
      lastIssue := []
      warps := tmod k.warps w (fun x => { x with threads := [], bundles := [], lastTick := 0 }) }) }

/-- From s to t nothing changes but the threads of the issuing warp: every byte of memory, every special register, every
other warp, core, block, partition and queue is as it was. -/
def OnlyLanes (s t : State) : Prop :=
  t.rest s.cur.core s.cur.slot = s.rest s.cur.core s.cur.slot ∧ ∀ a, byteAt t.mem a = byteAt s.mem a

/-- The threads of the issuing warp in t are those of s, each active one as `f` makes it; MEETV aside. -/
def LaneStep (s t : State) (f : Nat → Thread → Thread) : Prop :=
  ∀ l, (t.thread? s.cur.core s.cur.slot l).map Thread.noMeet =
    (s.thread? s.cur.core s.cur.slot l).map (fun th => (if laneIn s.cur.mask l then f l th else th).noMeet)

/-- How a lane goes on from its instruction: past it or to the next repeat (R38), unless it waits or has exited; one stopped for
FPX has not counted the instruction in its windows, and stands at the repeat it stopped in (R33, R38, R86). -/
def Thread.after (c : Cur) (old new : Thread) : Thread :=
  if new.wait == .fpx then { new with windows := old.windows, rem := c.left new }
  else if new.stays then new else new.advance c

/-- A lane after an instruction of use `u` whose effect on it is `g`: it has counted in its windows (R33), and goes on. -/
def Use.ran (u : Use) (c : Cur) (g : Thread → Thread) (th : Thread) : Thread := Thread.after c th (g (u.count c th))

/-- A lane after a control transfer (R136). -/
def Use.jumped (u : Use) (c : Cur) (g : Thread → Thread) (target : Word) (th : Thread) : Thread :=
  let new := g (u.count c th)
  if new.wait == .fpx then { new with windows := th.windows, rem := c.left new }
  else if new.stays then new else { new with pc := target, rem := 0 }

/-! When an instruction executes. -/

/-- The issuing bundle may execute an instruction of use `u`: it has a lane, the unit's prefixes suit it (R36, R37, R40), the
level serves (R44, R45), every register it reaches may be used (R63, R65), no lane breaks or waits for a window (R33–R35,
R122), and the engine counter has room (R172). -/
def State.canIssue (s : State) (u : Use) : Bool :=
  match s.warp? with
  | none => false
  | some w =>
    !s.active.isEmpty && (u.badPrefix s.cur).isNone && levelOk w.level u.level && (!u.only || w.level == u.level) &&
      (!u.control || isControl s.cur.core) && s.active.all (fun p => (s.knownRegs u p.2).all w.hasReg) &&
      s.active.all (fun p => !s.looksAhead u p.2) && s.active.all (fun p => !s.mustWait u s.cur p.2) &&
      (!u.counterFull w || s.live.isEmpty)

/-- The state in which an instruction of use `u` has counted in the windows of the active lanes (R33). -/
def State.counted (s : State) (u : Use) : State :=
  { s.mapActive (fun _ t => u.count s.cur t) with cur := { s.cur with before := s.active.map (fun p => (p.1, p.2.windows)) } }

/-! Operations that go on after their instruction. -/

/-- The PC of the lowest-numbered active lane. -/
def State.firstPc (s : State) : Word := match s.active with | (_, t) :: _ => t.pc | [] => 0

/-- The pending operation an instruction of the issuing bundle enters. -/
def State.pending (s : State) (cls : Option Nat) (kind : PendKind) : Pending :=
  ⟨s.nextId, s.cur.core, s.cur.slot, s.firstPc, cls, kind⟩

/-- The state but for its pending operations and the number the next one takes. -/
def State.noPend (s : State) : State := { s with pend := [], nextId := 0 }

/-- From s to t one operation becomes pending, and nothing else changes but the threads of the issuing warp. -/
def OnlyPending (s t : State) (p : Pending) : Prop :=
  t.pend = s.pend ++ [p] ∧ t.nextId = s.nextId + 1 ∧ OnlyLanes s.noPend t.noPend

/-- The results of a special function: those of the active lanes in which no flag it raises is enabled (R86, R122). -/
def State.sfuWrites (s : State) (f : Thread → FpOut) (put : Nat → List (Nat × Word)) : List LaneWrite :=
  (s.active.filter (fun p => !((f p.2).flags &&& p.2.enables != 0))).map (fun p => ⟨p.1, put (f p.2).bits, (f p.2).flags⟩)

/-- A lane after a special function: stopped for an enabled flag, or with a window that is strict where any flag is enabled
(R86, R122). -/
def Thread.sfuStep (c : Cur) (L : BitVec 4) (f : Thread → FpOut) (id : Nat) (dest : List Nat) (th x : Thread) : Thread :=
  if (f th).flags &&& th.enables != 0 then x.stopFpx (f th).flags
  else x.openWindow c.last L.toNat (th.enables != 0) [id] dest

/-- The values of a tile's reduction tree, by lane, with the flags of its steps (R91, R134). -/
def State.treeOf (s : State) (op : FpEnv → Nat → Nat → FpOut) (n : Nat) : List (Nat × Nat × BitVec 5) :=
  (butterflySteps s.tileCode).foldl (fun l k => butterfly (fun lane => op (tileEnv s lane)) k l)
    (s.active.map (fun p => (p.1, p.2.nat n, (0 : BitVec 5))))

/-! Memory. -/

/-- The state in which the accesses of an instruction are checked: a control core's have been walked (R299). -/
def State.accessFrom (s : State) (w : Warp) (accs : List Acc) : State :=
  if isControl s.cur.core then s.walkAll w (accs.filter (fun a => a.va % a.size == 0 && decide (a.va < 2 ^ 56))) else s

/-- No earlier operation holds back a lane's access, no access faults, and no release waits for window writes (R180, R184, R185,
R354). -/
def State.accessOk (s : State) (w : Warp) (accs : List Acc) : Bool :=
  let x := s.accessFrom w accs
  (x.accessHeld accs).isEmpty && (x.accessLate w accs).isEmpty && (x.accessBad w accs).isEmpty && (x.accessBusy w accs).isEmpty

/-- The byte that domain slot d of core c sees at a local address: its L1's, else the home's (R181). -/
def State.sees (s : State) (c d a : Nat) : Byte := match tget (s.l1Of c d) a with | some (b, _) => b | none => byteAt s.mem a

/-- L1 of a domain slot holds the whole line of an address. -/
def State.wholeLine (s : State) (c d a : Nat) : Bool :=
  (List.range 128).all (fun i => (tget (s.l1Of c d) (a / 128 * 128 + i)).isSome)

/-- The byte that a load takes: L1's where it holds the whole line, or where the byte is dirty, else the home's (R149, R181). -/
def State.loads1 (s : State) (c d a : Nat) : Byte :=
  match tget (s.l1Of c d) a with
  | some (b, dirty) => if dirty || s.wholeLine c d a then b else byteAt s.mem a
  | none => byteAt s.mem a

/-- The issuing warp has no stamped store and no LDAT under way, whose records its lanes' accesses would wait for (R150). -/
def State.noStamps (s : State) : Bool :=
  s.holds.all (fun h => !(h.core == s.cur.core && h.slot == s.cur.slot)) &&
    s.pend.all (fun p => !(p.core == s.cur.core && p.slot == s.cur.slot) || match p.kind with | .ldat .. => false | _ => true)

/-- Bytes laid over others. -/
def overlay (f : Nat → Byte) (a : Nat) (l : List Byte) (x : Nat) : Byte :=
  if a ≤ x ∧ x < a + l.length then l.getD (x - a) 0 else f x

/-- The local address of an access of a warp, where it is aligned, cached, permitted, in a normal page that is neither shared
nor a mailbox, and in no register page, and whose line no other domain holds (log 70). -/
def State.plainAt (s : State) (w : Warp) (rd wr : Bool) (size va : Nat) : Option Nat :=
  if va % size != 0 || decide (2 ^ 56 ≤ va) then none
  else
    match s.xlate (w.request rd wr false) va with
    | .good pa rot => if (regPage pa).isNone && rotType rot == 0 && !rotSh rot && !rotMb rot && !s.lineRefuses (w.request rd wr false) pa then some pa else none
    | _ => none

/-- No partition logs its writes for a migration (R400). -/
def State.noMig (s : State) : Bool := s.parts.all (fun x => !x.2.migEn)

/-- The state but for the L1s and the marks of their lines. -/
def Core.noL1 (k : Core) : Core := { k with l1 := [], soon := [] }

def State.noL1 (s : State) : State := { s with cores := s.cores.map (fun k => (k.1, k.2.noL1)) }

/-! Scratchpad. -/

/-- No sync access waits on a full/empty bit (R168). -/
def State.noWaiters (s : State) : Bool :=
  s.pend.all (fun p => match p.kind with
    | .ldsSync .. => false
    | .stsSync .. => false
    | _ => true)

/-- A byte of a block's scratchpad. -/
def State.padByte (s : State) (block a : Nat) : Byte :=
  match tget s.blocks block with | some b => byteAt b.sp a | none => 0

/-- The state but for the scratchpads, the full/empty bits and the digests of its blocks. -/
def Block.noPad (b : Block) : Block := { b with sp := [], full := [], digest := 0 }

def State.noPad (s : State) : State := { s with blocks := s.blocks.map (fun b => (b.1, b.2.noPad)) }

/-! The transformed mean. -/

/-- What a transformed-mean instruction answers in a lane: the words and flags of `f`. -/
def State.tmOut (s : State) (f : Nat → Thread → Option (List Word × BitVec 5)) (l : Nat) : List Word × BitVec 5 :=
  (tget (s.active.map (fun p => (p.1, (f p.1 p.2).getD ([], 0)))) l).getD ([], 0)

/-- The results of the active lanes in which no flag that is raised is enabled (R86, R122). -/
def State.tmWrites (s : State) (dst : List Nat) (f : Nat → Thread → Option (List Word × BitVec 5)) : List LaneWrite :=
  (s.active.filter (fun p => !((s.tmOut f p.1).2 &&& p.2.enables != 0))).map (fun p =>
    ⟨p.1, dst.zip (s.tmOut f p.1).1, (s.tmOut f p.1).2⟩)

/-- A lane after such an instruction: stopped for an enabled flag, or under its window (R33, R86). -/
def Thread.tmStep (c : Cur) (L : BitVec 4) (o : List Word × BitVec 5) (id : Nat) (dst : List Nat) (th x : Thread) : Thread :=
  if o.2 &&& th.enables != 0 then x.stopFpx o.2 else x.openWindow c.last L.toNat (th.enables != 0) [id] dst

/-- The merge tree of TMREDW over the 32 positions of a bundle (R91, R271). -/
def State.tmTree (s : State) (v : Nat) : List (List Word) :=
  (butterflySteps s.tileCode).foldl (fun l k => mergeStep k l) ((List.range 32).map (fun i =>
    match tget s.active i with
    | some t => t.group v 4
    | none => Partial.empty.words))

/-! Families of instructions of one shape. -/

/-- Three-register instructions: vd := f(va, vb, vd) (R96–R98, R90). -/
def wordOps3 : List ((Reg → Reg → Reg → Instr) × (Word → Word → Word → Word)) :=
  [(Instr.add, (fun a b _ => a + b)),
    (Instr.sub, (fun a b _ => a - b)),
    (Instr.mul, (fun a b _ => a * b)),
    (Instr.mulhu, (fun a b _ => mulHighU a b)),
    (Instr.mulhs, (fun a b _ => mulHighS a b)),
    (Instr.mad, (fun a b d => a * b + d)),
    (Instr.and, (fun a b _ => a &&& b)),
    (Instr.or, (fun a b _ => a ||| b)),
    (Instr.xor, (fun a b _ => a ^^^ b)),
    (Instr.andn, (fun a b _ => a &&& ~~~b)),
    (Instr.shl, (fun a b _ => a <<< shAmt b)),
    (Instr.shru, (fun a b _ => a >>> shAmt b)),
    (Instr.shrs, (fun a b _ => a.sshiftRight (shAmt b))),
    (Instr.rotl, (fun a b _ => a.rotateLeft (shAmt b))),
    (Instr.sel, (fun a b d => if d = 0 then b else a)),
    (Instr.mins, (fun a b _ => signedMin a b)),
    (Instr.minu, (fun a b _ => unsignedMin a b)),
    (Instr.maxs, (fun a b _ => signedMax a b)),
    (Instr.maxu, (fun a b _ => unsignedMax a b)),
    (Instr.cmpeq, (fun a b _ => flagWord (a == b))),
    (Instr.cmpne, (fun a b _ => flagWord (a != b))),
    (Instr.cmplts, (fun a b _ => flagWord (decide (a.toInt < b.toInt)))),
    (Instr.cmpltu, (fun a b _ => flagWord (decide (a.toNat < b.toNat)))),
    (Instr.cmples, (fun a b _ => flagWord (decide (a.toInt ≤ b.toInt)))),
    (Instr.cmpleu, (fun a b _ => flagWord (decide (a.toNat ≤ b.toNat)))),
    (Instr.bfx, (fun a b _ => bfxValue a b)),
    (Instr.bfi, (fun a b d => bfiValue a b d)),
    (Instr.dot8S8, fun x y z => BitVec.ofNat 32 (dotInt true 8 4 x.toNat y.toNat z.toNat)),
    (Instr.dot8U8, fun x y z => BitVec.ofNat 32 (dotInt false 8 4 x.toNat y.toNat z.toNat)),
    (Instr.dot4S4, fun x y z => BitVec.ofNat 32 (dotInt true 4 8 x.toNat y.toNat z.toNat))]

/-- Instructions of one source register: vd := f(va) (R97, R99–R101). -/
def wordOps2 (i11 : BitVec 11) (i9 : BitVec 9) (c : BitVec 5) : List ((Reg → Reg → Instr) × (Word → Word)) :=
  [(Instr.clz, (fun a => clzValue a)),
    (Instr.popc, (fun a => popcValue a)),
    (Instr.brev, (fun a => a.reverse)),
    (Instr.addi i11, (fun a => a + i11.signExtend 32)),
    (Instr.andi i11, (fun a => a &&& i11.signExtend 32)),
    (Instr.ori i11, (fun a => a ||| i11.setWidth 32)),
    (Instr.xori i11, (fun a => a ^^^ i11.setWidth 32)),
    (Instr.cmpeqi i9, (fun a => flagWord (a == i9.signExtend 32))),
    (Instr.cmpltsi i9, (fun a => flagWord (decide (a.toInt < (i9.signExtend 32).toInt)))),
    (Instr.cmpltui i9, (fun a => flagWord (decide (a.toNat < (i9.signExtend 32).toNat)))),
    (Instr.cmpnei i9, (fun a => flagWord (a != i9.signExtend 32))),
    (Instr.shli c, (fun a => a <<< c.toNat)),
    (Instr.shrui c, (fun a => a >>> c.toNat)),
    (Instr.shrsi c, (fun a => a.sshiftRight c.toNat)),
    (Instr.rotli c, (fun a => a.rotateLeft c.toNat))]

/-- 16-bit instructions of two registers: vd := f(vs, vd) (R23). -/
def wordOps16 : List ((BitVec 5 → BitVec 5 → Instr) × (Word → Word → Word)) :=
  [(Instr.mov16, (fun x _ => x)),
    (Instr.add16, (fun x d => d + x)),
    (Instr.sub16, (fun x d => d - x)),
    (Instr.mul16, (fun x d => d * x)),
    (Instr.and16, (fun x d => d &&& x)),
    (Instr.or16, (fun x d => d ||| x)),
    (Instr.xor16, (fun x d => d ^^^ x)),
    (Instr.shl16, (fun x d => d <<< shAmt x)),
    (Instr.shru16, (fun x d => d >>> shAmt x)),
    (Instr.shrs16, (fun x d => d.sshiftRight (shAmt x))),
    (Instr.mins16, (fun x d => signedMin d x)),
    (Instr.maxs16, (fun x d => signedMax d x))]

/-- 16-bit instructions of a register and an immediate: vd := f(vd) (R23). -/
def wordOpsImm16 (i : BitVec 5) : List ((BitVec 5 → Instr) × (Word → Word)) :=
  [(Instr.movi16 i, (fun _ => i.signExtend 32)),
    (Instr.addi16 i, (fun d => d + i.signExtend 32)),
    (Instr.subi16 i, (fun d => d - i.signExtend 32)),
    (Instr.muli16 i, (fun d => d * i.signExtend 32)),
    (Instr.andi16 i, (fun d => d &&& i.signExtend 32)),
    (Instr.ori16 i, (fun d => d ||| i.signExtend 32)),
    (Instr.xori16 i, (fun d => d ^^^ i.signExtend 32)),
    (Instr.shli16 i, (fun d => d <<< i.toNat)),
    (Instr.shrui16 i, (fun d => d >>> i.toNat)),
    (Instr.shrsi16 i, (fun d => d.sshiftRight i.toNat)),
    (Instr.minsi16 i, (fun d => signedMin d (i.signExtend 32))),
    (Instr.maxsi16 i, (fun d => signedMax d (i.signExtend 32)))]

/-- FP32 and packed instructions of three registers: vd := f(environment, va, vb, vd) (R90, R106, R107, R109, R112). -/
def floatOps3 : List ((Reg → Reg → Reg → Instr) × (FpEnv → Nat → Nat → Nat → FpOut)) :=
  [(Instr.fadd, (fun e x y _ => fpAdd .f32 e x y)),
    (Instr.fsub, (fun e x y _ => fpSub .f32 e x y)),
    (Instr.fmul, (fun e x y _ => fpMul .f32 e x y)),
    (Instr.ffma, (fun e x y z => fpFma .f32 e false false x y z)),
    (Instr.ffms, (fun e x y z => fpFma .f32 e false true x y z)),
    (Instr.fnfma, (fun e x y z => fpFma .f32 e true false x y z)),
    (Instr.fmin, (fun e x y _ => fpMinMax false .f32 e x y)),
    (Instr.fmax, (fun e x y _ => fpMinMax true .f32 e x y)),
    (Instr.fscalebB0, (fun e x y _ => fpScale .f32 e x (sextN (y / 2 ^ 0) 8))),
    (Instr.fscalebB1, (fun e x y _ => fpScale .f32 e x (sextN (y / 2 ^ 8) 8))),
    (Instr.fscalebB2, (fun e x y _ => fpScale .f32 e x (sextN (y / 2 ^ 16) 8))),
    (Instr.fscalebB3, (fun e x y _ => fpScale .f32 e x (sextN (y / 2 ^ 24) 8))),
    (Instr.hadd2, (fun e => pack2 (fun x y _ => fpAdd .f16 e x y))),
    (Instr.hsub2, (fun e => pack2 (fun x y _ => fpSub .f16 e x y))),
    (Instr.hmul2, (fun e => pack2 (fun x y _ => fpMul .f16 e x y))),
    (Instr.hfma2, (fun e => pack2 (fun x y z => fpFma .f16 e false false x y z))),
    (Instr.hmin2, (fun e => pack2 (fun x y _ => fpMinMax false .f16 e x y))),
    (Instr.hmax2, (fun e => pack2 (fun x y _ => fpMinMax true .f16 e x y))),
    (Instr.badd2, (fun e => pack2 (fun x y _ => fpAdd .bf16 e x y))),
    (Instr.bsub2, (fun e => pack2 (fun x y _ => fpSub .bf16 e x y))),
    (Instr.bmul2, (fun e => pack2 (fun x y _ => fpMul .bf16 e x y))),
    (Instr.bfma2, (fun e => pack2 (fun x y z => fpFma .bf16 e false false x y z))),
    (Instr.bmin2, (fun e => pack2 (fun x y _ => fpMinMax false .bf16 e x y))),
    (Instr.bmax2, (fun e => pack2 (fun x y _ => fpMinMax true .bf16 e x y))),
    (Instr.dot8E4m3, (dotFloat .e4m3 8 4)),
    (Instr.dot8E5m2, (dotFloat .e5m2 8 4)),
    (Instr.dot4E2m1, (dotFloat .e2m1 4 8))]

/-- FP32 instructions of one source (R106, R108). -/
def floatOps2 : List ((Reg → Reg → Instr) × (FpEnv → Nat → FpOut)) :=
  [(Instr.frnd, (fun e x => fpRnd .f32 e x)),
    (Instr.fcls, (fun _ x => ⟨fpClass .f32 x, 0⟩)),
    (Instr.fabs, (fun _ x => ⟨x % 2 ^ 31, 0⟩)),
    (Instr.fneg, (fun _ x => ⟨(x + 2 ^ 31) % 2 ^ 32, 0⟩))]

/-- 16-bit FP32 instructions: vd := f(environment, vd, vs) (R23). -/
def floatOps16 : List ((BitVec 5 → BitVec 5 → Instr) × (FpEnv → Nat → Nat → FpOut)) :=
  [(Instr.fadd16, (fun e x y => fpAdd .f32 e x y)),
    (Instr.fsub16, (fun e x y => fpSub .f32 e x y)),
    (Instr.fmul16, (fun e x y => fpMul .f32 e x y)),
    (Instr.fmax16, (fun e x y => fpMinMax true .f32 e x y))]

/-- FP64 instructions of three pairs (R107, R111). -/
def doubleOps3 : List ((Reg → Reg → Reg → Instr) × (FpEnv → Nat → Nat → Nat → FpOut)) :=
  [(Instr.dadd, (fun e x y _ => fpAdd .f64 e x y)),
    (Instr.dsub, (fun e x y _ => fpSub .f64 e x y)),
    (Instr.dmul, (fun e x y _ => fpMul .f64 e x y)),
    (Instr.dfma, (fun e x y z => fpFma .f64 e false false x y z)),
    (Instr.dmin, (fun e x y _ => fpMinMax false .f64 e x y)),
    (Instr.dmax, (fun e x y _ => fpMinMax true .f64 e x y))]

/-- FP64 instructions of one source pair (R108, R111). -/
def doubleOps2 : List ((Reg → Reg → Instr) × (FpEnv → Nat → FpOut)) :=
  [(Instr.drnd, (fun e x => fpRnd .f64 e x)),
    (Instr.dabs, (fun _ x => ⟨x % 2 ^ 63, 0⟩)),
    (Instr.dneg, (fun _ x => ⟨(x + 2 ^ 63) % 2 ^ 64, 0⟩))]

/-- Special functions of mode 00 (R119, R120). -/
def sfuOps00 : List ((BitVec 4 → Reg → Reg → Instr) × SfuOp) :=
  [(Instr.frcp, .rcp), (Instr.frsq, .rsq), (Instr.fsqrt, .sqrt), (Instr.fexp2, .exp2), (Instr.flog2, .log2), (Instr.fsin, .sin), (Instr.fcos, .cos), (Instr.ftanh, .tanh)]

/-- Correctly rounded FP32 special functions, mode 01 (R119, R120). -/
def sfuOps01 : List ((Rm → BitVec 4 → Reg → Reg → Instr) × SfuOp) :=
  [(Instr.frcpCr, .rcp), (Instr.frsqCr, .rsq), (Instr.fsqrtCr, .sqrt)]

/-- Correctly rounded FP64 special functions, mode 10 (R119, R120). -/
def sfuOps10 : List ((Rm → BitVec 4 → Reg → Reg → Instr) × SfuOp) :=
  [(Instr.drcp, .rcp), (Instr.drsq, .rsq), (Instr.dsqrt, .sqrt)]

/-- Shuffles with a source register: the lane whose va a lane takes, from the lane, its vb and what the bundle's lanes hold in
vb (R126). -/
def shuffleOps3 : List ((Reg → Reg → Reg → Instr) × (Nat → Nat → Nat → List (Nat × Word) → Int)) :=
  [(Instr.shfl, fun code l x _ => (l / 2 ^ code * 2 ^ code + x : Nat)),
    (Instr.shfllo, fun _ l x _ => (l : Int) - x),
    (Instr.shflhi, fun _ l x _ => (l : Int) + x),
    (Instr.shflx, fun _ l x _ => (l ^^^ x : Nat)),
    (Instr.bcast, fun code l _ vs => match usable code vs l with | p :: _ => (l / 2 ^ code * 2 ^ code + p.2.toNat : Nat) | [] => -1)]

/-- Quad exchanges: the lane whose va a lane takes (R132). -/
def shuffleOps2 (n : BitVec 7) : List ((Reg → Reg → Instr) × (Nat → Nat)) :=
  [(Instr.qswpH, fun l => l ^^^ 1), (Instr.qswpV, fun l => l ^^^ 2), (Instr.qswpD, fun l => l ^^^ 3),
    (Instr.qbcast n, fun l => 4 * (l / 4) + n.toNat)]

/-- Votes, matches, reductions and scans: which usable lanes count, and the result from the lane, its value and the values
that count (R127–R129, R133). -/
def gatherOps : List ((Reg → Reg → Instr) × (Nat → Nat → Bool) × (Nat → Word → List (Nat × Word) → Word)) :=
  [(Instr.voteAny, anyLane, (fun _ _ g => flagWord (g.any (fun p => p.2 != 0)))),
    (Instr.voteAll, anyLane, (fun _ _ g => flagWord (g.all (fun p => p.2 != 0)))),
    (Instr.voteBal, anyLane, (fun _ _ g => maskOf ((g.filter (fun p => p.2 != 0)).map (·.1)))),
    (Instr.matchB, anyLane, (fun _ x g => maskOf ((g.filter (fun p => p.2 == x)).map (·.1)))),
    (Instr.matchF, anyLane, (fun _ x g => maskOf ((g.filter (fun p => matchFloat p.2.toNat x.toNat)).map (·.1)))),
    (Instr.redwAdd, anyLane, (fun _ _ g => sumWords g)),
    (Instr.redwMin, anyLane, (fun _ x g => minWords x g)),
    (Instr.redwMax, anyLane, (fun _ x g => maxWords x g)),
    (Instr.scanwAdd, anyLane, (fun l _ g => sumWords (g.filter (fun p => decide (p.1 ≤ l))))),
    (Instr.qredAdd, sameQuad, (fun _ _ g => sumWords g)),
    (Instr.qredMin, sameQuad, (fun _ x g => minWords x g)),
    (Instr.qredMax, sameQuad, (fun _ x g => maxWords x g))]

/-- Floating-point reductions over a tile, by their steps (R134, log 52). -/
def fredwOps : List ((Reg → Reg → Instr) × (FpEnv → Nat → Nat → FpOut)) :=
  [(Instr.fredwAdd, fpAdd .f32), (Instr.fredwMin, minMaxStep false), (Instr.fredwMax, minMaxStep true)]

/-- Encodings of the resident routine with three registers: vd := f(va, vb, vd) (R387). -/
def compatOps : List ((Reg → Reg → Reg → Instr) × (Word → Word → Word → Word)) :=
  [(Instr.divs, (fun x y _ => compatDivs x y)),
    (Instr.divu, (fun x y _ => if y = 0 then 0xFFFFFFFF else BitVec.ofNat 32 (x.toNat / y.toNat))),
    (Instr.rems, (fun x y _ => compatRems x y)),
    (Instr.remu, (fun x y _ => if y = 0 then x else BitVec.ofNat 32 (x.toNat % y.toNat))),
    (Instr.byteperm, fun x y z => BitVec.ofNat 32 (((List.range 4).map (fun i => permByte (x.toNat + 2 ^ 32 * z.toNat) y.toNat i * 2 ^ (8 * i))).sum))]

end Sys2Proof.Machine
end

