-- ==== Sys2Proof/Certificates/Slice0/Obligations.lean ====
section
/-!
DEFINITION. The statements for the provers.
-/

open Sys2Proof Sys2Proof.Machine


/-- O1. A step runs the instruction that the fetched bytes decode to (R19–R21, R57): the next word of the unit in progress, or
the first of the bundle a partition of a core grants, with the word's length beside it; an event laid down as the next turn runs
with its data. What is decoded is well formed. -/
def Obligations.StepRunsDecoded : Prop :=
  (∀ (s y : State) (w : Warp) (l : Nat) (t : Thread) (rest : List (Nat × Thread)) (b r : List Byte) (i : Instr),
    s.warp? = some w → s.active = (l, t) :: rest → s.fetchWord s.cur.core w (t.pc.toNat + s.cur.off) = .ok (b, y) →
    decode b = .ok (i, r) →
    i.wf = true ∧
    (s.cur.off ≠ 0 → step s = exec i { y with cur := { y.cur with len := b.length } }) ∧
    ∀ (x : State) (c p : Nat) (ts : List Turn), x.cur.off = 0 → x.turns = .issue c p :: ts →
      ({ x with turns := ts } : State).grant c p = some s →
      step x = exec i { y with cur := { y.cur with len := b.length } }) ∧
  ∀ (s : State) (i : Instr) (e : EventData) (ts : List Turn), s.cur.off = 0 → s.turns = .event i e :: ts → i.isEvent = true →
    step s = exec i { s with turns := ts, ev := e }

/-- O2. Words that the spec works out, of many families, decode to their instructions (R24, R131, R137, R141, R143–R146, R190,
R250, R303–R305, R384, R386). -/
def Obligations.WorkedWords : Prop :=
  decodeTableWord 16 0x0000 = some (.mov16 0 0) ∧
  ∀ p ∈ [(0x5000005F, Instr.nop), (0x3000005F, .exit), (0x4000005F, .yield), (0x6000005F, .brk), (0x8000005F, .gret),
      (0x00091A61, .lpad 0x1234), (0x00200F5D, .call 0x80 30), (0x0007805F, .ret 30), (0x7000C05F, .trap 3),
      (0xF0000031, .wfence), (0x00000371, .srd 0 6), (0x02200073, .swr 0x011 0), (0x10018045, .pref true 6),
      (0x0101826F, .rndm 8 6 4), (0x50028275, .cmpman 10 4), (0x90000075, .tfence), (0x00000075, .eret0), (0x00200075, .eret1),
      (0x7002C533, .fredwAdd 11 10), (0x02C00673, .swr 0x016 12), (0x00218835, .tment 0 6 16), (0x00800835, .tmredw 0 16),
      (0x01E28853, .redTm 0 10 16), (0x00A40635, .tmexit 0 16 12), (0x00A00065, .gcall 5)],
    decodeTableWord 32 p.1 = some p.2

/-- O3. Decoding undoes encoding (R19, R22, R26–R32): the word of every well-formed instruction decodes to it, every operand kept,
and so do its bytes whatever follows them. -/
def Obligations.RoundTrip : Prop :=
  (∀ i : Instr, Laws.RoundTrip.Statement i) ∧
  ∀ (i : Instr) (rest : List Byte), i.isEvent = false → i.wf = true → decode (encode i ++ rest) = .ok (i, rest)

/-- O4. The machine at power-on (R334, R335, R360, R388, R393): FAIL set, UNC all ones; EPSMAX 32 and D 2,000; no
partition, warp, launch or request; routing bank 0 active with no destination reachable; no notice; boot at its first stage. That
the clock C begins at 0 is the model's choice (log 2), that every byte of memory reads 0 is log 3's, and that the package is not yet
booted log 16's; so is the rest that State.reset holds. -/
def Obligations.ResetState : Prop :=
  State.reset.deckle.fail = true ∧ State.reset.deckle.unc = 0xFFFFFFFF ∧ State.reset.deckle.clock = 0 ∧
  State.reset.deckle.epsMax = 32 ∧ State.reset.deckle.dlvb = 2000 ∧
  State.reset.parts = [] ∧ State.reset.cores = [] ∧ State.reset.launches = [] ∧ State.reset.blocks = [] ∧
  State.reset.pend = [] ∧ State.reset.reqs = [] ∧ State.reset.pkts = [] ∧ State.reset.element.boot = 0 ∧
  State.reset.element.notices = [] ∧ State.reset.fabric.active = false ∧
  (∀ n, State.reset.fabric.entry false n = 0) ∧ ∀ a, byteAt State.reset.mem a = 0

/-- O5. Reset memory lists nothing and has the canonical form. The form is the model's (log 3). -/
def Obligations.CanonicalMemoryAtReset : Prop := State.reset.mem = [] ∧ Memory.wf State.reset.mem = true

/-- O6. Every step keeps the canonical form of memory (log 3): from a state whose memory is canonical, reached or not, the
next state's is. -/
def Obligations.CanonicalMemoryKept : Prop :=
  ∀ s t : State, Memory.wf s.mem = true → step s = .next t → Memory.wf t.mem = true

/-- O7. Three-register instructions of the lane's integer arithmetic (R96–R98, R90): where the checks of R44 pass, every active
lane's vd takes f(va, vb, vd), all read before any is written, and the lane goes on; nothing else changes. -/
def Obligations.ThreeRegisterArithmetic : Prop :=
  ∀ p ∈ wordOps3, ∀ (b a d : Reg) (s : State), s.canIssue (Use.f3 b a d) = true →
    ∃ t, exec (p.1 b a d) s = .next t ∧ OnlyLanes s t ∧
      LaneStep s t (fun _ th => (Use.f3 b a d).ran s.cur (fun x =>
        x.set (s.reg .vd d) (p.2 (th.get (s.reg .va a)) (th.get (s.reg .vb b)) (th.get (s.reg .vd d)))) th)

/-- O8. Instructions of one source register, with and without an immediate (R97, R99–R102): vd := f(va), and for LUI, whose
word is imm × 2^14 + vd × 2^7 + 0x13, vd := imm × 2^14, so that bits [13:0] are 0. -/
def Obligations.OneSourceArithmetic : Prop :=
  (∀ (i11 : BitVec 11) (i9 : BitVec 9) (c : BitVec 5), ∀ p ∈ wordOps2 i11 i9 c, ∀ (a d : Reg) (s : State),
    s.canIssue (Use.f2 a d) = true →
      ∃ t, exec (p.1 a d) s = .next t ∧ OnlyLanes s t ∧
        LaneStep s t (fun _ th => (Use.f2 a d).ran s.cur (fun x => x.set (s.reg .vd d) (p.2 (th.get (s.reg .va a)))) th)) ∧
  (∀ (i : BitVec 18) (d : Reg), decodeTableWord 32 (i.toNat * 2 ^ 14 + d.toNat * 2 ^ 7 + 0x13) = some (.lui i d) ∧
    (BitVec.ofNat 32 (i.toNat * 2 ^ 14)).extractLsb' 0 14 = 0 ∧
    ∀ (s : State), s.canIssue { opds := [.one .vd d], rep := true } = true →
      ∃ t, exec (.lui i d) s = .next t ∧ OnlyLanes s t ∧
        LaneStep s t (fun _ th => ({ opds := [.one .vd d], rep := true } : Use).ran s.cur (fun x =>
          x.set (s.reg .vd d) (BitVec.ofNat 32 (i.toNat * 2 ^ 14))) th))

/-- O9. The 16-bit integer instructions (R22, R23): registers v0 to v31, and an immediate that is sign-extended. -/
def Obligations.ShortArithmetic : Prop :=
  (∀ p ∈ wordOps16, ∀ (x d : BitVec 5) (s : State), s.canIssue (Use.f2 (low5 x) (low5 d)) = true →
    ∃ t, exec (p.1 x d) s = .next t ∧ OnlyLanes s t ∧
      LaneStep s t (fun _ th => (Use.f2 (low5 x) (low5 d)).ran s.cur (fun y =>
        y.set (s.reg .vd (low5 d)) (p.2 (th.get (s.reg .va (low5 x))) (th.get (s.reg .vd (low5 d))))) th)) ∧
  (∀ (i : BitVec 5), ∀ p ∈ wordOpsImm16 i, ∀ (d : BitVec 5) (s : State),
    s.canIssue { opds := [.one .vd (low5 d)], rep := true } = true →
      ∃ t, exec (p.1 d) s = .next t ∧ OnlyLanes s t ∧
        LaneStep s t (fun _ th => ({ opds := [.one .vd (low5 d)], rep := true } : Use).ran s.cur (fun y =>
          y.set (s.reg .vd (low5 d)) (p.2 (th.get (s.reg .vd (low5 d))))) th))

/-- O10. Pairs, addresses and registers named by an index (R42, R96, R103, R104): ADDP, ADDPI, AUIP, MOVRI and MOVRO. -/
def Obligations.PairsAndIndexedMoves : Prop :=
  (∀ (b a d : Reg) (s : State), s.canIssue { opds := [.two .vd d, .two .va a, .one .vb b], rep := true } = true →
    ∃ t, exec (.addp b a d) s = .next t ∧ OnlyLanes s t ∧
      LaneStep s t (fun _ th => ({ opds := [.two .vd d, .two .va a, .one .vb b], rep := true } : Use).ran s.cur (fun x =>
        x.setPair (s.reg .vd d) (th.pair (s.reg .va a) + (th.get (s.reg .vb b)).signExtend 64)) th)) ∧
  (∀ (i : BitVec 11) (a d : Reg) (s : State), s.canIssue (Use.p2 a d) = true →
    ∃ t, exec (.addpi i a d) s = .next t ∧ OnlyLanes s t ∧
      LaneStep s t (fun _ th => (Use.p2 a d).ran s.cur (fun x =>
        x.setPair (s.reg .vd d) (th.pair (s.reg .va a) + i.signExtend 64)) th)) ∧
  (∀ (i : BitVec 18) (d : Reg) (s : State), s.canIssue { opds := [.one .vd d], rep := true } = true →
    ∃ t, exec (.auip i d) s = .next t ∧ OnlyLanes s t ∧
      LaneStep s t (fun _ th => ({ opds := [.one .vd d], rep := true } : Use).ran s.cur (fun x =>
        x.set (s.reg .vd d) (s.ownPc th + i.signExtend 32 * 2)) th)) ∧
  (∀ (a d : Reg) (s : State),
    s.canIssue { Use.f2 a d with more := fun t => [t.nat (s.reg .va a)], srcs := [.one .va a] } = true →
    ∃ t, exec (.movri a d) s = .next t ∧ OnlyLanes s t ∧
      LaneStep s t (fun _ th => (Use.f2 a d).ran s.cur (fun x =>
        x.set (s.reg .vd d) (th.get (th.get (s.reg .va a)).toNat)) th)) ∧
  (∀ (a d : Reg) (s : State),
    s.canIssue { Use.f2 a d with more := fun t => [t.nat (s.reg .vd d)], srcs := [.one .vd d] } = true →
    ∃ t, exec (.movro a d) s = .next t ∧ OnlyLanes s t ∧
      LaneStep s t (fun _ th => (Use.f2 a d).ran s.cur (fun x =>
        x.set (th.get (s.reg .vd d)).toNat (th.get (s.reg .va a))) th))

/-- O11. FP32 and packed arithmetic (R84, R86, R90, R106–R109, R112): the result and its flags under the lane's environment, or,
where a flag is enabled, no result and a stopped lane. -/
def Obligations.Fp32Arithmetic : Prop :=
  (∀ p ∈ floatOps3, ∀ (b a d : Reg) (s : State), s.canIssue (Use.f3 b a d).fp = true →
    ∃ t, exec (p.1 b a d) s = .next t ∧ OnlyLanes s t ∧
      LaneStep s t (fun _ th => (Use.f3 b a d).fp.ran s.cur (fun x =>
        x.putFp32 (s.reg .vd d)
          (p.2 (fpEnv s.cur th) (th.nat (s.reg .va a)) (th.nat (s.reg .vb b)) (th.nat (s.reg .vd d)))) th)) ∧
  (∀ p ∈ floatOps2, ∀ (a d : Reg) (s : State), s.canIssue (Use.f2 a d).fp = true →
    ∃ t, exec (p.1 a d) s = .next t ∧ OnlyLanes s t ∧
      LaneStep s t (fun _ th => (Use.f2 a d).fp.ran s.cur (fun x =>
        x.putFp32 (s.reg .vd d) (p.2 (fpEnv s.cur th) (th.nat (s.reg .va a)))) th)) ∧
  (∀ p ∈ floatOps16, ∀ (x d : BitVec 5) (s : State), s.canIssue (Use.f2 (low5 x) (low5 d)).fp = true →
    ∃ t, exec (p.1 x d) s = .next t ∧ OnlyLanes s t ∧
      LaneStep s t (fun _ th => (Use.f2 (low5 x) (low5 d)).fp.ran s.cur (fun y =>
        y.putFp32 (s.reg .vd (low5 d))
          (p.2 (fpEnv s.cur th) (th.nat (s.reg .vd (low5 d))) (th.nat (s.reg .va (low5 x))))) th))

/-- O12. FP64 arithmetic on pairs (R111). -/
def Obligations.Fp64Arithmetic : Prop :=
  (∀ p ∈ doubleOps3, ∀ (b a d : Reg) (s : State), s.canIssue (Use.p3 b a d).fp = true →
    ∃ t, exec (p.1 b a d) s = .next t ∧ OnlyLanes s t ∧
      LaneStep s t (fun _ th => (Use.p3 b a d).fp.ran s.cur (fun x =>
        x.putFp64 (s.reg .vd d)
          (p.2 (fpEnv s.cur th) (th.nat64 (s.reg .va a)) (th.nat64 (s.reg .vb b)) (th.nat64 (s.reg .vd d)))) th)) ∧
  (∀ p ∈ doubleOps2, ∀ (a d : Reg) (s : State), s.canIssue (Use.p2 a d).fp = true →
    ∃ t, exec (p.1 a d) s = .next t ∧ OnlyLanes s t ∧
      LaneStep s t (fun _ th => (Use.p2 a d).fp.ran s.cur (fun x =>
        x.putFp64 (s.reg .vd d) (p.2 (fpEnv s.cur th) (th.nat64 (s.reg .va a)))) th))

/-- O13. Comparisons and conversions (R110, R113–R117): FCMP and DCMP write 1 or 0 into one register, CVT the value in its new
format, into a pair where that format is 64 bits wide. -/
def Obligations.ComparesAndConversions : Prop :=
  (∀ (cc : Cmp) (sig : Bool) (b a d : Reg) (s : State), s.canIssue (Use.f3 b a d) = true →
    ∃ t, exec (.fcmp cc sig b a d) s = .next t ∧ OnlyLanes s t ∧
      LaneStep s t (fun _ th => (Use.f3 b a d).ran s.cur (fun x =>
        x.putFp32 (s.reg .vd d) (fpCmp .f32 (fpEnv s.cur th) cc sig (th.nat (s.reg .va a)) (th.nat (s.reg .vb b)))) th)) ∧
  (∀ (cc : Cmp) (sig : Bool) (b a d : Reg) (s : State),
    s.canIssue { opds := [.one .vd d, .two .va a, .two .vb b], rep := true } = true →
    ∃ t, exec (.dcmp cc sig b a d) s = .next t ∧ OnlyLanes s t ∧
      LaneStep s t (fun _ th => ({ opds := [.one .vd d, .two .va a, .two .vb b], rep := true } : Use).ran s.cur (fun x =>
        x.putFp32 (s.reg .vd d) (fpCmp .f64 (fpEnv s.cur th) cc sig (th.nat64 (s.reg .va a)) (th.nat64 (s.reg .vb b)))) th)) ∧
  (∀ (sat : Bool) (rm : Rm) (src dst : NumFmt) (a d : Reg) (s : State),
    let u : Use := { opds := [cvtOpd .vd dst d, cvtOpd .va src a], rep := true, rm := src.isFloat || dst.isFloat,
                     ftz := src.isFloat || dst.isFloat }
    s.canIssue u = true →
    ∃ t, exec (.cvt sat rm src dst a d) s = .next t ∧ OnlyLanes s t ∧
      LaneStep s t (fun _ th => u.ran s.cur (fun x =>
        let r := cvt src dst (fpEnvRm s.cur rm th) sat (if src.wide then th.nat64 (s.reg .va a) else th.nat (s.reg .va a))
        if dst.wide then x.putFp64 (s.reg .vd d) r else x.putFp32 (s.reg .vd d) r) th))

/-- O14. Shuffles and quad exchanges (R123, R124, R126, R132): a lane takes va of its source lane where that lane is active in its
tile, and keeps vd otherwise. -/
def Obligations.Shuffles : Prop :=
  (∀ p ∈ shuffleOps3, ∀ (b a d : Reg) (s : State), s.canIssue (Use.f3 b a d) = true →
    ∃ t, exec (p.1 b a d) s = .next t ∧ OnlyLanes s t ∧
      LaneStep s t (fun l th => (Use.f3 b a d).ran s.cur (fun x =>
        match (usable s.tileCode (s.values (s.reg .va a)) l).find? (fun q =>
          (q.1 : Int) == p.2 s.tileCode l (th.nat (s.reg .vb b)) (s.values (s.reg .vb b))) with
        | some q => x.set (s.reg .vd d) q.2
        | none => x) th)) ∧
  (∀ (n : BitVec 7), ∀ p ∈ shuffleOps2 n, ∀ (a d : Reg) (s : State), s.canIssue (Use.f2 a d) = true →
    ∃ t, exec (p.1 a d) s = .next t ∧ OnlyLanes s t ∧
      LaneStep s t (fun l th => (Use.f2 a d).ran s.cur (fun x =>
        match (usable s.tileCode (s.values (s.reg .va a)) l).find? (fun q => q.1 == p.2 l) with
        | some q => x.set (s.reg .vd d) q.2
        | none => x) th))

/-- O15. Votes, matches, reductions and scans over the usable lanes of a tile or quad (R127–R129, R133). -/
def Obligations.VotesAndReductions : Prop :=
  ∀ p ∈ gatherOps, ∀ (a d : Reg) (s : State), s.canIssue (Use.f2 a d) = true →
    ∃ t, exec (p.1 a d) s = .next t ∧ OnlyLanes s t ∧
      LaneStep s t (fun l th => (Use.f2 a d).ran s.cur (fun x =>
        x.set (s.reg .vd d) (p.2.2 l (th.get (s.reg .va a))
          ((usable s.tileCode (s.values (s.reg .va a)) l).filter (fun q => p.2.1 q.1 l)))) th)

/-- O16. The resident routine's arithmetic (R302, R387): quotients and remainders, with their results for a divisor of 0, and the
byte permutation. -/
def Obligations.RoutineArithmetic : Prop :=
  ∀ p ∈ compatOps, ∀ (b a d : Reg) (s : State),
    let u : Use := { opds := [.one .vd d, .one .va a, .one .vb b], closes := true }
    s.canIssue u = true →
    ∃ t, exec (p.1 b a d) s = .next t ∧ OnlyLanes s t ∧
      LaneStep s t (fun _ th => u.ran s.cur (fun x =>
        x.set d.toNat (p.2 (th.get a.toNat) (th.get b.toNat) (th.get d.toNat))) th)

/-- O17. Special functions (R33, R86, R119–R122): each active lane's result, in the mode's rounding, becomes pending and its
window opens; a lane in which an enabled flag rises is stopped at the instruction and has no result. -/
def Obligations.SpecialFunctions : Prop :=
  (∀ p ∈ sfuOps00, ∀ (L : BitVec 4) (a d : Reg) (s : State), s.canIssue (Use.f2 a d) = true →
    let f (t : Thread) : FpOut := sfuApprox p.2 (fpEnv s.cur t) (t.nat (s.reg .va a))
    let put (x : Nat) : List (Nat × Word) := [(s.reg .vd d, BitVec.ofNat 32 x)]
    ∃ t, exec (p.1 L a d) s = .next t ∧ OnlyPending s t (s.pending none (.result .sfu (s.sfuWrites f put))) ∧
      LaneStep s t (fun _ th => (Use.f2 a d).ran s.cur (Thread.sfuStep s.cur L f s.nextId [s.reg .vd d] th) th)) ∧
  (∀ p ∈ sfuOps01, ∀ (rm : Rm) (L : BitVec 4) (a d : Reg) (s : State), s.canIssue (Use.f2 a d).fp = true →
    let f (t : Thread) : FpOut := sfuRounded p.2 .f32 (fpEnvRm s.cur rm t) (t.nat (s.reg .va a))
    let put (x : Nat) : List (Nat × Word) := [(s.reg .vd d, BitVec.ofNat 32 x)]
    ∃ t, exec (p.1 rm L a d) s = .next t ∧ OnlyPending s t (s.pending none (.result .sfu (s.sfuWrites f put))) ∧
      LaneStep s t (fun _ th => (Use.f2 a d).fp.ran s.cur (Thread.sfuStep s.cur L f s.nextId [s.reg .vd d] th) th)) ∧
  (∀ p ∈ sfuOps10, ∀ (rm : Rm) (L : BitVec 4) (a d : Reg) (s : State), s.canIssue (Use.p2 a d).fp = true →
    let f (t : Thread) : FpOut := sfuRounded p.2 .f64 (fpEnvRm s.cur rm t) (t.nat64 (s.reg .va a))
    let put (x : Nat) : List (Nat × Word) :=
      [(s.reg .vd d, BitVec.ofNat 32 x), (s.reg .vd d + 1, BitVec.ofNat 32 (x / 2 ^ 32))]
    ∃ t, exec (p.1 rm L a d) s = .next t ∧ OnlyPending s t (s.pending none (.result .sfu (s.sfuWrites f put))) ∧
      LaneStep s t (fun _ th => (Use.p2 a d).fp.ran s.cur
        (Thread.sfuStep s.cur L f s.nextId [s.reg .vd d, s.reg .vd d + 1] th) th))

/-- O18. Floating-point reductions over a tile (R91, R134): FREDW.add, FREDW.min and FREDW.max, of whose steps FTZ makes a subnormal
result a zero of its sign with underflow and inexact (R80; for min and max, which R107 exempts, by log 52). TILEP (R62, R130): the old
PARTN goes to each active lane, the new one to the warp unless only helper lanes execute it. -/
def Obligations.TileReductions : Prop :=
  (∀ p ∈ fredwOps, ∀ (a d : Reg) (s : State), s.canIssue (Use.f2 a d).fp = true →
    ∃ t, exec (p.1 a d) s = .next t ∧ OnlyLanes s t ∧
      LaneStep s t (fun l th => (Use.f2 a d).fp.ran s.cur (fun x =>
        match (s.treeOf p.2 (s.reg .va a)).find? (fun q => q.1 == l) with
        | some q => x.putFp32 (s.reg .vd d) ⟨q.2.1, q.2.2⟩
        | none => x) th)) ∧
  (∀ (n : BitVec 7) (d : Reg) (s : State) (w : Warp), s.canIssue { opds := [.one .vd d], rep := true } = true →
    s.warp? = some w →
    ∃ t, exec (.tilep n d) s = .next t ∧
      LaneStep s t (fun _ th => ({ opds := [.one .vd d], rep := true } : Use).ran s.cur
        (fun x => x.set (s.reg .vd d) w.partn) th) ∧
      OnlyLanes (s.modWarp (fun x => { x with partn := if s.live.isEmpty then x.partn else n.setWidth 32 })) t)

/-- O19. RNDM (R384): its word; its result, by the steps of the rule; the bijection of the counter that they are for any key,
and 0 for 0 and 0; no prefix, and no other fn. -/
def Obligations.RandomNumbers : Prop :=
  let mix (c k : BitVec 64) : BitVec 64 :=
    let x := (c ^^^ k) * 0xB5AD4ECEDA1CE2A9
    let y := (x ^^^ (x >>> 31)) * 0x8E4C3A9D1F2B6C75
    (y ^^^ (y >>> 29)) + k
  let u (b a d : Reg) : Use := { opds := [.two .vd d, .two .va a, .two .vb b] }
  (∀ (b a d : Reg) (s : State), s.canIssue (u b a d) = true →
    ∃ t, exec (.rndm b a d) s = .next t ∧ OnlyLanes s t ∧
      LaneStep s t (fun _ th => (u b a d).ran s.cur (fun x => x.setPair d.toNat (mix (th.pair a.toNat) (th.pair b.toNat))) th)) ∧
  (∀ (b a d : Reg) (s : State) (w : Warp) (l : Nat) (t : Thread) (rest : List (Nat × Thread)), s.warp? = some w →
    s.active = (l, t) :: rest → (s.cur.rep ≠ none ∨ ∃ m, s.cur.mod = some m ∧ m ≠ ⟨none, none, none, none⟩) → exec (.rndm b a d) s = .next (s.faultAt .illegal l 0)) ∧
  (∀ k, Function.Bijective (fun c => mix c k)) ∧ mix 0 0 = 0 ∧
  ∀ (b a d : Reg) (f : BitVec 4),
    decodeTableWord 32 (f.toNat * 2 ^ 28 + b.toNat * 2 ^ 21 + a.toNat * 2 ^ 14 + d.toNat * 2 ^ 7 + 0x6F) =
      if f = 0 ∧ b.toNat % 2 = 0 ∧ a.toNat % 2 = 0 ∧ d.toNat % 2 = 0 then some (.rndm b a d) else none

/-- O20. Branches (R42, R136): each lane goes to its own target, or past the instruction. -/
def Obligations.Branches : Prop :=
  (∀ (i : BitVec 21) (s : State), s.canIssue { opds := [] } = true →
    ∃ t, exec (.bra i) s = .next t ∧ OnlyLanes s t ∧
      LaneStep s t (fun _ th => ({ opds := [] } : Use).jumped s.cur id (branchTarget s th i.toInt) th)) ∧
  (∀ (i : BitVec 17) (p : Reg) (s : State), s.canIssue { opds := [.one .vd p] } = true →
    (∃ t, exec (.bz i p) s = .next t ∧ OnlyLanes s t ∧
      LaneStep s t (fun _ th => ({ opds := [.one .vd p] } : Use).jumped s.cur id
        (if th.get p.toNat = 0 then branchTarget s th i.toInt else s.nextPc th) th)) ∧
    (∃ t, exec (.bnz i p) s = .next t ∧ OnlyLanes s t ∧
      LaneStep s t (fun _ th => ({ opds := [.one .vd p] } : Use).jumped s.cur id
        (if th.get p.toNat = 0 then s.nextPc th else branchTarget s th i.toInt) th)))

/-- O21. CALL writes PC + 4 and jumps (R137); RET jumps to va, and raises ALIGN for the lowest lane with an odd one, with no
effect in any lane (R20, R137). -/
def Obligations.CallsAndReturns : Prop :=
  (∀ (i : BitVec 18) (d : Reg) (s : State), s.canIssue (Use.flow [.one .vd d]) = true →
    ∃ t, exec (.call i d) s = .next t ∧ OnlyLanes s t ∧
      LaneStep s t (fun _ th => (Use.flow [.one .vd d]).jumped s.cur (fun x => x.set d.toNat (s.nextPc th))
        (branchTarget s th i.toInt) th)) ∧
  (∀ (a : Reg) (s : State), s.canIssue (Use.flow [.one .va a]) = true →
    (s.active.all (fun p => (p.2.nat a.toNat) % 2 == 0) = true →
      ∃ t, exec (.ret a) s = .next t ∧ OnlyLanes s t ∧
        LaneStep s t (fun _ th => (Use.flow [.one .va a]).jumped s.cur id (th.get a.toNat) th)) ∧
    (∀ l, firstBad s.active (fun t => t.nat a.toNat % 2 == 1) = some l →
      exec (.ret a) s = .next ((s.counted (Use.flow [.one .va a])).fault .align l 0 0)))

/-- O22. The instructions that change no state but close the windows, and the NOPs (R24, R46, R141, R144, R177, R197): the
halfword 0 and the word 0x5000_005F; LPAD fallen through to, whatever its label; TFENCE, after which engine commands see the
records its warp has written; and YIELD, whose bundle is passed over for 16 cycles. -/
def Obligations.NoOperations : Prop :=
  (decodeTableWord 16 0 = some (.mov16 0 0) ∧ ∀ (s : State), s.canIssue (Use.f2 0 0) = true →
    ∃ t, exec (.mov16 0 0) s = .next t ∧ OnlyLanes s t ∧
      LaneStep s t (fun _ th => (Use.f2 0 0).ran s.cur (fun x => x.set (s.reg .vd 0) (th.get (s.reg .va 0))) th) ∧
      (s.cur.rep = none → LaneStep s t (fun _ th => (Use.f2 0 0).ran s.cur id th))) ∧
  decodeTableWord 32 0x5000005F = some .nop ∧
  (∀ (s : State), s.canIssue (Use.flow []) = true → ∀ (x : BitVec 25), ∀ i ∈ [Instr.nop, .lpad x],
    ∃ t, exec i s = .next t ∧ OnlyLanes s t ∧ LaneStep s t (fun _ th => (Use.flow []).ran s.cur id th)) ∧
  (∀ (s : State), s.canIssue (Use.flow []) = true →
    ∃ t, exec .tfence s = .next t ∧ OnlyLanes (s.modCore s.cur.core (fun k => k.fenceRecs s.cur.slot)) t ∧
      LaneStep s t (fun _ th => (Use.flow []).ran s.cur id th)) ∧
  (∀ (s : State), s.canIssue (Use.flow []) = true →
    ∃ t, exec .yield s = .next t ∧ OnlyLanes s t ∧ LaneStep s t (fun _ th => (Use.flow []).ran s.cur id th) ∧
      ∀ w, t.warpAt? s.cur.core s.cur.slot = some w → ∀ b ∈ w.bundles, b.mask &&& s.cur.mask ≠ 0 → b.yield = s.cycle + 17)

/-- O23. MEET completes wherever it may issue (R52, R53, R142): vd takes the old MEETV and MEETV the target, and the thread
goes on past it. Then the threads of a meeting group all of whose members are parked have no meeting address, and every other
thread of the warp has the address it took or held. -/
def Obligations.Meet : Prop :=
  ∀ (i : BitVec 18) (d : Reg) (s : State) (w : Warp),
    let u := Use.flow [.one .vd d]
    let take (th : Thread) : Thread := { th.set d.toNat th.meetv with meetv := branchTarget s th i.toInt }
    let x := w.mapLanes s.cur.mask (fun _ th => u.ran s.cur take th)
    s.canIssue u = true → s.warp? = some w →
    exec (.meet i d) s = .next ((s.counted u).mapActive (fun _ th => take th)).finish ∧
    ∃ t, exec (.meet i d) s = .next t ∧ OnlyLanes s t ∧ LaneStep s t (fun _ th => u.ran s.cur take th) ∧
      ∀ l th, tget x.threads l = some th → ∃ y, t.thread? s.cur.core s.cur.slot l = some y ∧
        y.meetv = if !th.exited && (x.meeting th.meetv).all (fun p => p.2.parked) then 0xFFFFFFFF else th.meetv

/-- O24. When an instruction ends, no meeting group of the warp stays with every member parked: the last to park releases all
(R53). -/
def Obligations.MeetingGroupsAreReleased : Prop :=
  ∀ (w : Warp) (m : Mask) (c : Nat) (a : Word), a ≠ 0xFFFFFFFF →
    let g := (w.settle m c).meeting a
    g = [] ∨ ∃ p ∈ g, p.2.parked = false

/-- O25. EXIT (R61, R143, R254, R256): inside a gate call GATE, with no effect; otherwise every active thread has ended, the
warp's home and current domain are marked, and no register of any thread and no byte of memory changes. -/
def Obligations.Exit : Prop :=
  ∀ (s : State) (w : Warp), s.canIssue (Use.flow []) = true → s.warp? = some w →
    (w.gates ≠ [] → exec .exit s = .next ((s.counted (Use.flow [])).fault .gate s.firstLane 0 0)) ∧
    (w.gates = [] → ∃ t, exec .exit s = .next t ∧
      (∀ l th, laneIn s.cur.mask l = true → s.thread? s.cur.core s.cur.slot l = some th →
        ∃ y, t.thread? s.cur.core s.cur.slot l = some y ∧ y.exited = true) ∧
      (∀ c k l, (t.thread? c k l).map Thread.regs = (s.thread? c k l).map Thread.regs) ∧
      (t.domain w.part w.homeDid).mark = true ∧ (t.domain w.part w.curDid).mark = true ∧
      ∀ a, byteAt t.mem a = byteAt s.mem a)

/-- O26. SYNCB, and BARSYNC in the resident routine (R185, R194, R387, R407): where no active lane has an earlier access still
to be performed it completes. Each active thread arrives once, and either waits in the barrier at its own PC or has been
released past it, as the block's threads that have reached it say; no register of any thread changes, and no byte of memory where its
release takes no L1 action, as in a block that lies in one domain slot (log 71). Lanes with such an access wait, and the bundle issues
it again. -/
def Obligations.Barriers : Prop :=
  ∀ (s : State) (w : Warp), s.canIssue (Use.flow []) = true → s.warp? = some w → ∀ i ∈ [Instr.syncb, .barsync],
    let x := s.counted (Use.flow [])
    (x.heldLanes true true ≠ [] → exec i s = .next (x.stall (x.heldLanes true true) .pend)) ∧
    (x.heldLanes true true = [] → exec i s = .next (((x.release s.cur.core w.curSlot .block).mapActive (fun _ th =>
      { th with syncs := if th.arrived then th.syncs else th.syncs + 1, arrived := true, wait := .barrier })).finish.syncRelease
        w.block)) ∧
    (x.heldLanes true true = [] → ∃ t, exec i s = .next t ∧
      (∀ l th, laneIn s.cur.mask l = true → s.thread? s.cur.core s.cur.slot l = some th →
        ∃ y, t.thread? s.cur.core s.cur.slot l = some y ∧ y.syncs = (if th.arrived then th.syncs else th.syncs + 1) ∧
          ((y.wait = .barrier ∧ y.arrived = true ∧ y.pc = th.pc) ∨
            (y.wait = .run ∧ y.arrived = false ∧ y.pc = th.pc + 4))) ∧
      (∀ c k l, (t.thread? c k l).map Thread.regs = (s.thread? c k l).map Thread.regs) ∧
      (s.actsOnL1 s.cur.core w.curSlot .block = false → ∀ a, byteAt t.mem a = byteAt s.mem a))

/-- O27. The instructions and words whose effect is a trap (R20, R36, R43, R145): BRK for the lowest active lane; TRAP, an issue that is
complete when it is taken and ends as any other, with that lane's va in the low address word; a word that names nothing, ILLEGAL
at the unit's first word or at the prefix that breaks a rule (log 51); a
fetch that may not be made, PAGE with the missing address. -/
def Obligations.RaisedTraps : Prop :=
  (∀ (s : State), s.canIssue (Use.flow []) = true →
    exec .brk s = .next ((s.counted (Use.flow [])).fault .brk s.firstLane 0 0)) ∧
  (∀ (a : Reg) (s : State) (w : Warp) (l : Nat) (t : Thread) (rest : List (Nat × Thread)),
    s.canIssue (Use.flow [.one .va a]) = true → s.warp? = some w → s.active = (l, t) :: rest →
    exec (.trap a) s = .next ((s.counted (Use.flow [.one .va a])).finish.report s.cur.core s.cur.slot s.cur.mask
      (mkReport (w.mapLanes s.cur.mask (fun _ th => (Use.flow [.one .va a]).count s.cur th)) .trap l t.pc (t.get a.toNat) 0))) ∧
  (∀ (s : State) (l : Nat) (t : Thread) (rest : List (Nat × Thread)), s.active = (l, t) :: rest →
    exec .illegalEncoding s = .next (s.faultAt .illegal l s.cur.faultAddr) ∧
    exec .fetchPageFault s = .next (s.fault .page l (BitVec.ofNat 32 s.cur.faultAddr) (BitVec.ofNat 32 (s.cur.faultAddr / 2 ^ 32))))

/-- O28. The prefixes (R36–R40): REP latches its stride, its stepped fields and which repeat comes, from the remaining count of
the lowest active lane; MOD latches its valid fields; one that may not stand where it stands raises ILLEGAL, a MOD before a REP
being reported at the MOD (log 38). -/
def Obligations.Prefixes : Prop :=
  ∀ (s : State) (l : Nat) (t : Thread) (rest : List (Nat × Thread)), s.active = (l, t) :: rest →
    (∀ (st : BitVec 2) (x y z : Bool) (c : BitVec 6),
      (s.cur.mod = none → s.cur.rep = none → exec (.repPfx st x y z c) s = .next { s with cur := { s.cur with
        off := s.cur.off + s.cur.len, len := 0,
        rep := some ⟨2 ^ st.toNat, x, y, z, if t.rem = 0 then 0 else c.toNat + 1 - t.rem, c.toNat + 1⟩ } }) ∧
      (s.cur.mod = none → s.cur.rep ≠ none → exec (.repPfx st x y z c) s = .next (s.faultAt .illegal l s.cur.off)) ∧
      (s.cur.mod ≠ none → exec (.repPfx st x y z c) s = .next (s.faultAt .illegal l (s.cur.off - 4)))) ∧
    (∀ (f z u : Bool) (r : BitVec 2) (o : Bool) (p : BitVec 2) (q : Bool) (e : BitVec 3),
      (s.cur.mod ≠ none → exec (.modPfx f z u r o p q e) s = .next (s.faultAt .illegal l s.cur.off)) ∧
      (s.cur.mod = none → ∃ m, exec (.modPfx f z u r o p q e) s = .next { s with cur := { s.cur with
          off := s.cur.off + s.cur.len, len := 0, mod := some m } } ∧
        m.ftz = (if f then some z else none) ∧
        m.rm = (if u then some ([Rm.rne, .rz, .ru, .rd].getD r.toNat .rne) else none) ∧
        m.order = (if o then some ([Order.relaxed, .acquire, .release, .acqRel].getD p.toNat .relaxed) else none) ∧
        m.scope = (if q then some ([Scope.block, .cluster, .package, .pod].getD e.toNat .system) else none)))

/-- O29. The decode-time checks in their order (R36, R44, R45, R63, R65): a prefix that does not suit the instruction, then the
level, then a register the warp may not use, then a destination of an open window; each is reported for the lowest lane in which
it holds, whatever the instruction. A computed index is looked at once its register can be read (R33, R104). -/
def Obligations.DecodeTimeChecks : Prop :=
  ∀ (s : State) (u : Use) (body : State → Out) (w : Warp) (l : Nat) (t : Thread) (rest : List (Nat × Thread)),
    s.warp? = some w → s.active = (l, t) :: rest →
    (∀ off, u.badPrefix s.cur = some off → s.issue u body = .next (s.faultAt .illegal l off)) ∧
    (u.badPrefix s.cur = none →
      (w.level.code < u.level.code → s.issue u body = .next (s.fault .priv l 0 0)) ∧
      (u.control = true → isControl s.cur.core = false → s.issue u body = .next (s.fault .priv l 0 0)) ∧
      (u.level.code ≤ w.level.code → u.only = false → u.control = false →
        (∀ n, firstBad s.active (fun x => (s.knownRegs u x).any (fun r => !w.hasReg r)) = some n →
          s.issue u body = .next (s.fault .regrange n 0 0)) ∧
        (firstBad s.active (fun x => (s.knownRegs u x).any (fun r => !w.hasReg r)) = none →
          ∀ n, firstBad s.active (s.looksAhead u) = some n → s.issue u body = .next (s.fault .lookahead n 0 0))))

/-- O30. Entry into a launch's trap handler (R289, R290, R292, R294). A user-class cause of a warp with a handler, none of
whose operations is in flight and no lane of which is stopped for FPX, outside a repeated unit: every launched lane that has
not exited goes to the handler with MEETV all ones, v0 to v7 hold cause, PC, lane, address and zeros, the frame holds what
they held with PC, MEETV and remaining count, the tile is the whole warp, one bundle is left, and no byte of memory changes. -/
def Obligations.UserTrapEntry : Prop :=
  ∀ (s : State) (w : Warp) (h : Word) (cause : Cause) (lane : Nat) (lo hi : Word) (q : Thread),
    s.warp? = some w → isControl s.cur.core = false → w.gates = [] → w.handler = none → w.trapVec = some h →
    cause.isSuper = false → cause ≠ .trap → cause ≠ .fpx → s.cur.rep = none → w.collecting = false →
    s.inFlight s.cur.core s.cur.slot = false → tget w.threads lane = some q →
    ∃ v f n, (s.fault cause lane lo hi).warpAt? s.cur.core s.cur.slot = some v ∧ v.handler = some f ∧ v.partn = 5 ∧
      v.bundles = [⟨maskOf (w.running.map (·.1)), n, 0⟩] ∧ f.partn = w.partn ∧ f.retPc = q.pc ∧
      (∀ l th, tget w.threads l = some th → th.exited = false → ∃ y x, tget v.threads l = some y ∧ tget f.lanes l = some x ∧
        y.pc = h ∧ y.meetv = 0xFFFFFFFF ∧ y.rem = 0 ∧ y.wait = .run ∧
        y.regs = [BitVec.ofNat 32 cause.code, q.pc, BitVec.ofNat 32 lane, lo, hi, 0, 0, 0] ++ th.regs.drop 8 ∧
        x.pc = th.pc ∧ x.meetv = th.meetv ∧ x.rem = th.rem ∧ x.regs = th.regs.take 8) ∧
      ∀ a, byteAt (s.fault cause lane lo hi).mem a = byteAt s.mem a

/-- O31. A supervisor-class cause suspends its warp (R293, R296): where the partition's queue is valid and has room the record's
eight words stand at the tail, the tail grows by one, and the core's trap registers hold the report; where it is not, nothing is
written and the warp holds its record. No register of any thread changes. (No partition logs its writes for a migration here,
R400: that log is memory too.) -/
def Obligations.SupervisorTrap : Prop :=
  ∀ (s : State) (w : Warp) (p : Part) (cause : Cause) (lane : Nat) (lo hi : Word) (q : Thread),
    s.warp? = some w → tget s.parts w.part = some p → isControl s.cur.core = false → cause.isSuper = true →
    s.cur.rep = none → w.collecting = false → s.inFlight s.cur.core s.cur.slot = false → tget w.threads lane = some q →
    let t := s.fault cause lane lo hi
    let r := mkReport w cause lane q.pc lo hi
    let place := p.fqhi.toNat * 2 ^ 32 + p.fqlo.toNat + 32 * (p.fqtail.toNat % 2 ^ p.fqsize.toNat)
    (∀ c k l, (t.thread? c k l).map Thread.regs = (s.thread? c k l).map Thread.regs) ∧
    (Memory.wf s.mem = true → s.queueValid w.part p = true → p.queueRoom = true → s.parts.all (fun x => !x.2.migEn) = true →
      bytesAt t.mem place 32 = wordsBytes (recordWords r w s.cur.core s.cur.slot w.curDid p.fqtail) ∧
      (∃ p', tget t.parts w.part = some p' ∧ p'.fqtail = p.fqtail + 1) ∧
      (t.core s.cur.core).trap = trapRegs (s.core s.cur.core).trap r w.level.code false ∧
      ∃ v, t.warpAt? s.cur.core s.cur.slot = some v ∧ v.susp = some ⟨r, s.cur.mask, true, w.curDid⟩) ∧
    ((s.queueValid w.part p && p.queueRoom) = false →
      t.mem = s.mem ∧ ∃ v, t.warpAt? s.cur.core s.cur.slot = some v ∧ v.susp = some ⟨r, s.cur.mask, false, w.curDid⟩)

/-- O32. A trap of a control core's thread (R292, R293, R299): with N clear and a handler, the core's registers hold the
report, N is set, and the threads go to TVEC, TPC holding the return PC, which for TRAP is past it; a second one, or one
without a handler, stops the core and fails its partition. -/
def Obligations.ControlTrap : Prop :=
  ∀ (s : State) (w : Warp) (k : Core) (cause : Cause) (lane : Nat) (lo hi : Word) (q : Thread),
    s.warp? = some w → isControl s.cur.core = true → s.cur.slot = 0 → tget s.cores s.cur.core = some k →
    s.cur.rep = none → w.collecting = false → s.inFlight s.cur.core 0 = false → tget w.threads lane = some q →
    let t := s.fault cause lane lo hi
    (∀ c k l, (t.thread? c k l).map Thread.regs = (s.thread? c k l).map Thread.regs) ∧ (∀ a, byteAt t.mem a = byteAt s.mem a) ∧
    (bit k.trap.tframe.toNat 10 = false → k.trap.tvec ≠ 0xFFFFFFFF →
      (∃ k', tget t.cores s.cur.core = some k' ∧ k'.trap = { k.trap with
        tcause := (mkReport w cause lane q.pc lo hi).tcause, tpc := if cause = .trap then q.pc + 4 else q.pc, tlane := BitVec.ofNat 32 lane, taddrlo := lo,
        taddrhi := hi, tframe := BitVec.ofNat 32 (q.rem + 256 * w.level.code + 1024) }) ∧
      ∀ l th, tget w.threads l = some th → ∃ y, t.thread? s.cur.core 0 l = some y ∧ y.pc = k.trap.tvec ∧ y.rem = 0 ∧ y.wait = .run) ∧
    (bit k.trap.tframe.toNat 10 = true ∨ k.trap.tvec = 0xFFFFFFFF →
      (∃ k', tget t.cores s.cur.core = some k' ∧ k'.stopped = true ∧ k'.trap = k.trap) ∧
      ∀ p, tget s.parts w.part = some p → ∃ p', tget t.parts w.part = some p' ∧ p'.failed = true)

/-- O33. ERET on a compute core (R294, R305): with no more reports to deliver and no access to issue again, each lane goes on
with the PC, the remaining count and v0 to v7 of its frame, the reported lane at the return PC, under the frame's tiles;
without a frame it is ILLEGAL. -/
def Obligations.ReturnFromUserTrap : Prop :=
  ∀ (s : State) (w : Warp), s.canIssue (Use.sysop []) = true → s.warp? = some w → isControl s.cur.core = false →
    (∀ f, w.handler = some f → f.pending = [] → f.retry = [] →
      (∃ t v, exec .eret0 s = .next t ∧ t.warpAt? s.cur.core s.cur.slot = some v ∧ v.handler = none ∧ v.partn = f.partn ∧
        t.mem = s.mem ∧ t.pend = s.pend ∧
        ∀ l th x, tget w.threads l = some th → th.exited = false → tget f.lanes l = some x →
          ∃ y, tget v.threads l = some y ∧ y.regs = x.regs ++ th.regs.drop 8 ∧ y.rem = x.rem ∧ y.wait = .run ∧
            y.pc = (if l = f.report.lane then f.retPc else x.pc) ∧ (y.meetv = x.meetv ∨ y.meetv = 0xFFFFFFFF)) ∧
      exec .eret1 s = .next ((s.counted (Use.sysop [])).eretUser true f)) ∧
    (w.handler = none → ∀ i ∈ [Instr.eret0, .eret1],
      exec i s = .next ((s.counted (Use.sysop [])).faultAt .illegal s.firstLane 0))

/-- O34. ERET on a control core (R292, R305): with N set, and no report to deliver and no access to issue again, the thread goes on
at TPC with the remaining count and the level TFRAME holds, and N clears; with N clear it is ILLEGAL. -/
def Obligations.ReturnFromControlTrap : Prop :=
  ∀ (s : State) (w : Warp) (k : Core), s.canIssue (Use.sysop []) = true → s.warp? = some w → isControl s.cur.core = true →
    tget s.cores s.cur.core = some k →
    (bit k.trap.tframe.toNat 10 = true →
      (match w.handler with | some f => f.pending = [] ∧ f.retry = [] | none => w.pendingTraps = [] ∧ w.retry = []) →
      ∃ t v k', exec .eret0 s = .next t ∧ t.mem = s.mem ∧ t.warpAt? s.cur.core s.cur.slot = some v ∧
        v.level = Level.ofCode (field k.trap.tframe.toNat 9 8) ∧ tget t.cores s.cur.core = some k' ∧
        k'.trap = { k.trap with tframe := BitVec.ofNat 32 (k.trap.tframe.toNat % 1024) } ∧
        (∀ l th, tget w.threads l = some th → ∃ y, tget v.threads l = some y ∧ y.regs = th.regs ∧ y.pc = k.trap.tpc ∧
          y.rem = field k.trap.tframe.toNat 6 0 ∧ y.wait = .run) ∧
        exec .eret1 s = .next ((s.counted (Use.sysop [])).eretControl true
          (w.mapLanes s.cur.mask (fun _ th => (Use.sysop []).count s.cur th)) k.trap)) ∧
    (bit k.trap.tframe.toNat 10 = false → ∀ i ∈ [Instr.eret0, .eret1],
      exec i s = .next ((s.counted (Use.sysop [])).faultAt .illegal s.firstLane 0))

/-- O35. Memory instructions (R180–R185, R187, R193, R198, R199, R273, R387): where no access of a live lane faults or has to
wait, each is accepted with one access per live lane at the lane's pair (for LDC32 at its word above the data image), of the
size, order, scope, destination and operation that the instruction and MOD give. -/
def Obligations.MemoryInstructions : Prop :=
  (∀ (o : Ord) (k : Hint) (L : BitVec 4) (z : Sz) (a d : Reg) (s : State) (w : Warp),
    let uL : Use := { opds := [.ofSize .vd d z, .two .va a], rep := true, order := loadOrder, scope := anyScope }
    let uS : Use := { opds := [.ofSize .vd d z, .two .va a], rep := true, order := storeOrder, scope := anyScope }
    let xL := s.counted uL
    let xS := s.counted uS
    let ord := s.cur.order (ordOf o)
    let loads := xL.lanesAt (s.reg .va a) (szBytes z) ord (s.cur.scope .package) (s.reg .vd d) false
      (fun _ _ => .load (s.cur.hint k ord))
    let stores := xS.lanesAt (s.reg .va a) (szBytes z) ord (s.cur.scope .package) 0 false
      (fun _ t => .store (t.storeData (s.reg .vd d) z) k)
    (s.canIssue uL = true → xL.warp? = some w → xL.accessOk w loads = true →
      exec (.ld o k L z a d) s = .next ((xL.accessFrom w loads).accessGo w
        { L := L, cls := none, res := .load, dest := (List.range (szRegs z)).map (s.reg .vd d + ·) } loads)) ∧
    (s.canIssue uS = true → xS.warp? = some w → xS.accessOk w stores = true →
      exec (.st o k L z a d) s = .next ((xS.accessFrom w stores).accessGo w
        { L := L, cls := none, res := .load, dest := [] } stores))) ∧
  (∀ (b a : Reg) (s : State) (w : Warp),
    let u : Use := { opds := [.two .va a, .two .vb b], order := storeOrder, scope := anyScope, closes := true }
    let x := s.counted u
    let adds := x.lanesAt a.toNat 8 (s.cur.order .relaxed) (s.cur.scope .package) 0 false (fun _ t => .bsig (t.pair b.toNat))
    s.canIssue u = true → x.warp? = some w → x.accessOk w adds = true →
    exec (.bsig b a) s = .next ((x.accessFrom w adds).accessGo w { L := 0, cls := none, res := .load, dest := [] } adds)) ∧
  (∀ (L : BitVec 4) (ar : Bool) (sc : BitVec 2) (o : AtomOp) (a d : Reg) (s : State) (w : Warp),
    let u : Use := { opds := [.atom d o, .two .va a], rep := true, order := fun _ => true, scope := anyScope, rm := atomFp o }
    let x := s.counted u
    let ops := x.lanesAt (s.reg .va a) o.size (s.cur.order (if ar then .acqRel else .relaxed)) (s.cur.scope (scScope sc))
      (s.reg .vd d) false
      (fun _ t => .atom o (t.atomV (s.reg .vd d) o) (t.atomV2 (s.reg .vd d) o) (fpEnv s.cur t).rm (fpEnv s.cur t).cnan)
    s.canIssue u = true → x.warp? = some w → x.accessOk w ops = true →
    exec (.atom L ar sc o a d) s = .next ((x.accessFrom w ops).accessGo w
      { L := L, cls := none, res := .atom, dest := atomDest (s.reg .vd d) o } ops)) ∧
  (∀ (L : BitVec 4) (sat cn fz : Bool) (o : AtomOp) (a d : Reg) (s : State) (w : Warp),
    let u : Use :=
      { opds := [.atom d o, .two .va a], rep := true, order := storeOrder, scope := anyScope, rm := atomFp o,
        ftz := atomFp o, cls := some 6 }
    let x := s.counted u
    let ops := x.lanesAt (s.reg .va a) o.size (s.cur.order .relaxed) (s.cur.scope .package) 0 false
      (fun _ t => .red o (t.atomV (s.reg .vd d) o) ((s.cur.mod.bind (·.rm)).getD .rne) ((s.cur.mod.bind (·.ftz)).getD fz) cn sat)
    s.canIssue u = true → x.warp? = some w → x.accessOk w ops = true →
    exec (.red L sat cn fz o a d) s = .next ((x.accessFrom w ops).accessGo w
      { L := L, cls := some 6, res := .load, dest := [] } ops)) ∧
  (∀ (L : BitVec 4) (a d : Reg) (s : State) (w : Warp),
    let u : Use := { opds := [.four .vd d, .two .va a], rep := true, order := storeOrder, scope := anyScope, cls := some 6 }
    let x := s.counted u
    let ops := x.lanesAt (s.reg .va a) 16 (s.cur.order .relaxed) (s.cur.scope .package) 0 false
      (fun _ t => .redTm (t.group (s.reg .vd d) 4))
    s.canIssue u = true → x.warp? = some w → x.accessOk w ops = true →
    exec (.redTm L a d) s = .next ((x.accessFrom w ops).accessGo w
      { L := L, cls := some 6, res := .load, dest := [] } ops)) ∧
  (∀ (L : BitVec 4) (a d : Reg) (s : State) (w : Warp),
    let u : Use := { opds := [.one .vd d, .one .va a], closes := true }
    let x := s.counted u
    let ops := x.live.map (fun p => (⟨p.1, x.dataImage w + p.2.nat a.toNat, 4, .load .plain, .relaxed, .package, d.toNat, false⟩ : Acc))
    s.canIssue u = true → x.warp? = some w → x.accessOk w ops = true →
    exec (.ldc32 L a d) s = .next ((x.accessFrom w ops).accessGo w
      { L := 0, cls := none, res := .load, dest := [d.toNat] } ops))

/-- O36. A memory instruction whose accesses do not all pass, none held back by an earlier one of its lane (R150, R180), has no
effect in any lane (R183, R184, R291): the fault of highest rank is taken, for the lowest lane, with that lane's address. -/
def Obligations.MemoryFaults : Prop :=
  ∀ (s : State) (m : MemUse) (accs : List Acc) (w : Warp) (c : Cause) (lane va : Nat),
    s.warp? = some w → let x := s.accessFrom w accs
    x.accessHeld accs = [] → x.accessLate w accs = [] → firstFault (x.accessBad w accs) = some (c, lane, va) →
    s.access m accs = .next (x.memFault c lane (BitVec.ofNat 32 va) (BitVec.ofNat 32 (va / 2 ^ 32))) ∧
    (∃ a ∈ accs, a.lane = lane ∧ a.va = va) ∧ ∀ y ∈ x.accessBad w accs, memRank c ≤ memRank y.1

/-- O37. A relaxed load from normal pages (R59, R149, R151, R181, R187): each live lane's result pends under the lane's window. It is
what L1 holds where L1 holds the whole line; otherwise the line is filled, and each of its bytes that is not dirty is the home's.
That the result is the value at the load's issue is the model's choice (log 7), and so is what L1 then holds (log 8). Helper lanes'
destinations are 0; memory stays as it is, and so does what any domain slot of any core sees, but for the lines filled, and the rest of
the machine but for the bytes that L1 holds and the marks of its lines. -/
def Obligations.PlainLoad : Prop :=
  ∀ (k : Hint) (L : BitVec 4) (z : Sz) (a d : Reg) (s : State) (w : Warp) (pa : Nat → Nat),
    let u : Use := { opds := [.ofSize .vd d z, .two .va a], rep := true, order := loadOrder, scope := anyScope }
    let dest := (List.range (szRegs z)).map (s.reg .vd d + ·)
    s.canIssue u = true → s.warp? = some w → isControl s.cur.core = false → s.cur.mod = none → k ≠ .l2 → s.live ≠ [] →
    s.reqs = [] → s.noStamps = true → (∀ p ∈ s.live, s.laneHeld s.cur.core s.cur.slot p.1 false false = false) →
    s.pkts.all (fun p => p.op != some s.nextId) = true →
    (∀ p ∈ s.live, s.plainAt w true false (szBytes z) (p.2.nat64 (s.reg .va a)) = some (pa p.1)) →
    let out : List LaneWrite := s.live.map (fun p =>
      ⟨p.1, loadRegs (s.reg .vd d) ((List.range (szBytes z)).map (fun i => s.loads1 s.cur.core w.curSlot (pa p.1 + i))), 0⟩)
    ∃ t, exec (.ld .rlx k L z a d) s = .next t ∧ OnlyPending s.noL1 t.noL1 (s.pending none (.result .load out)) ∧
      LaneStep s t (fun _ th => u.ran s.cur (fun x =>
        (if th.helper then x.setAll (dest.map (fun r => (r, 0))) else x).openWindow s.cur.last L.toNat false [s.nextId] dest) th) ∧
      ∀ c e x, t.sees c e x =
        if c = s.cur.core ∧ e = w.curSlot ∧ s.live.any (fun p => pa p.1 / 128 == x / 128) = true then s.loads1 c e x else s.sees c e x

/-- O38. A relaxed store to normal pages (R166, R180–R183, R187): in lane order each live lane's bytes come to stand where its
domain slot sees them; no home's byte, no other domain slot and no register changes, and nothing pends. -/
def Obligations.PlainStore : Prop :=
  ∀ (k : Hint) (L : BitVec 4) (z : Sz) (a d : Reg) (s : State) (w : Warp) (pa : Nat → Nat),
    let u : Use := { opds := [.ofSize .vd d z, .two .va a], rep := true, order := storeOrder, scope := anyScope }
    s.canIssue u = true → s.warp? = some w → isControl s.cur.core = false → s.cur.mod = none → k ≠ .l2 →
    s.noStamps = true → (∀ p ∈ s.live, s.laneHeld s.cur.core s.cur.slot p.1 true false = false) →
    s.pkts.all (fun p => p.op != some s.nextId) = true →
    (∀ p ∈ s.live, s.plainAt w false true (szBytes z) (p.2.nat64 (s.reg .va a)) = some (pa p.1)) →
    ∃ t, exec (.st .rlx k L z a d) s = .next t ∧ t.pend = s.pend ∧ (∀ x, byteAt t.mem x = byteAt s.mem x) ∧
      (∀ x, t.sees s.cur.core w.curSlot x = s.live.foldl (fun f p => overlay f (pa p.1) (p.2.storeData (s.reg .vd d) z))
        (s.sees s.cur.core w.curSlot) x) ∧
      (∀ c e x, (c ≠ s.cur.core ∨ e ≠ w.curSlot) → t.sees c e x = s.sees c e x) ∧
      ∀ c n l, (t.thread? c n l).map Thread.regs = (s.thread? c n l).map Thread.regs

/-- O39. An atomic of one lane past the block (R180, R198), relaxed and with no byte of its line in L1: the old value is its
pending result, with the flags of the operation; the home's bytes take the new one, in the step that issues the atomic (log 9's
choice), and no other byte of memory changes. (No
partition logs its writes for a migration here, R400.) -/
def Obligations.AtomicAtHome : Prop :=
  ∀ (L : BitVec 4) (sc : BitVec 2) (o : AtomOp) (a d : Reg) (s : State) (w : Warp) (l : Nat) (th : Thread) (pa : Nat),
    let u : Use := { opds := [.atom d o, .two .va a], rep := true, order := fun _ => true, scope := anyScope, rm := atomFp o }
    let r := s.reg .vd d
    let old := bytesAt s.mem pa o.size
    let new := atomNew o (wordOf old) (th.atomV r o).toNat (th.atomV2 r o).toNat (fpEnv s.cur th).rm false (fpEnv s.cur th).cnan false
    s.canIssue u = true → s.warp? = some w → isControl s.cur.core = false → s.cur.mod = none → sc ≠ 0 → s.live = [(l, th)] →
    s.reqs = [] → s.noStamps = true → s.laneHeld s.cur.core s.cur.slot l true false = false → s.pkts.all (fun p => p.op != some s.nextId) = true →
    Memory.wf s.mem = true → s.noMig = true → s.plainAt w true true o.size (th.nat64 (s.reg .va a)) = some pa →
    (∀ x ∈ s.l1Of s.cur.core w.curSlot, x.1 / 128 ≠ pa / 128) →
    ∃ t, exec (.atom L false sc o a d) s = .next t ∧
      t.pend = s.pend ++ [s.pending none (.result .atom [⟨l, loadRegs r (bytesOf o.size (wordOf old)), new.flags⟩])] ∧
      (∀ x, byteAt t.mem x = overlay (byteAt s.mem) pa (bytesOf o.size new.bits) x) ∧
      ∀ c n m, (t.thread? c n m).map Thread.regs = (s.thread? c n m).map (fun q =>
        if c = s.cur.core ∧ n = s.cur.slot ∧ laneIn s.cur.mask m = true ∧ q.helper = true then
          (q.setAll ((atomDest r o).map (fun i => (i, 0)))).regs else q.regs)

/-- O40. A long-latency lane operation's result arrives (R33, R84, R88): its lanes' destination registers and flags are
written, it is pending no more, and no other lane's registers or flags and no byte of memory change. -/
def Obligations.ResultsArrive : Prop :=
  ∀ (s : State) (p : Pending) (k : ResKind) (ws : List LaneWrite),
    s.pend.find? (fun q => q.id == s.ev.id) = some p → p.kind = .result k ws →
    ∀ e ∈ [(Instr.loadReturn, [ResKind.load, .mrd]), (.atomReturn, [.atom]), (.sfuComplete, [.sfu]), (.tmResultWritten, [.tm])],
      k ∈ e.2 → ∃ t, exec e.1 s = .next t ∧ t.pend = s.pend.filter (fun q => q.id != s.ev.id) ∧ t.mem = s.mem ∧
        ∀ c n l th, s.thread? c n l = some th → ∃ y, t.thread? c n l = some y ∧
          match (if c = p.core ∧ n = p.slot then ws.find? (fun x => x.lane == l) else none) with
          | some x => y.regs = (th.setAll x.regs).regs ∧ y.fpflags = th.fpflags ||| x.flags.setWidth 32
          | none => y.regs = th.regs ∧ y.fpflags = th.fpflags

/-- O41. A request that none of its core's earlier ones holds back (R326) is applied at its home as one operation (R170, R199,
R273, R312, R313): a write's bytes, a reduction's new value, a merged partial or a grown barrier counter stand there; no other
byte of memory changes, and the request is gone. (No partition logs its writes for a migration here, R400.) -/
def Obligations.RequestsAtHomes : Prop :=
  ∀ (s : State) (r : Req), s.reqs.find? (fun x => x.id == s.ev.id) = some r → s.mayApply r = true → Memory.wf s.mem = true → s.noMig = true →
    let was (n : Nat) : Nat := wordOf (bytesAt s.mem r.addr n)
    (∀ data, r.kind = .write data → ∃ t, exec .homeApply s = .next t ∧ t.reqs = s.reqs.filter (fun x => x.id != s.ev.id) ∧
      ∀ a, byteAt t.mem a = overlay (byteAt s.mem) r.addr data a) ∧
    (∀ new, ((∃ op v rm fz cn sat, r.kind = .red op v rm fz cn sat ∧
          new = bytesOf r.size (atomNew op (was r.size) v.toNat 0 rm fz cn sat).bits) ∨
        (∃ ws, r.kind = .redTm ws ∧ new = wordsBytes (mergeWords (bytesWords (bytesAt s.mem r.addr 16)) ws)) ∨
        (∃ v, r.kind = .bsig v ∧ new = bytesOf 8 (min (was 8 + v.toNat) (2 ^ 64 - 1)))) →
      ∃ t, exec .vatApply s = .next t ∧ t.reqs = s.reqs.filter (fun x => x.id != s.ev.id) ∧
        ∀ a, byteAt t.mem a = overlay (byteAt s.mem) r.addr new a)

/-- O42. A router's merge (R274, R314, R315, R326): two requests of the same range, size, domain, world and scope whose operations
merge, which can have met in this order, become one that answers for both. It stands behind those that must reach the bank before one
of the two and before all others, a place that is the model's choice (log 9); nothing else changes but flags on their way. -/
def Obligations.RouterMerges : Prop :=
  ∀ (s : State) (a b : Req) (k : ReqKind) (fl : BitVec 5),
    s.reqs.find? (fun r => r.id == s.ev.id) = some a → s.reqs.find? (fun r => r.id == s.ev.id2) = some b →
    a.mayMerge b = true → s.mayMeet a b = true → mergeKinds a.kind b.kind = some (k, fl) →
    let m : Req := { b with
      kind := k, release := a.release || b.release, from_ := a.from_ ++ b.from_, counts := a.counts ++ b.counts }
    ∃ t, exec .routerMerge s = .next t ∧ { t with reqs := [], flagMsgs := [] } = { s with reqs := [], flagMsgs := [] } ∧
      t.reqs = s.mergeFirst a b ++ (m :: s.reqs.filter (fun r =>
        r.id != a.id && r.id != b.id && !(s.mergeFirst a b).any (fun x => x.id == r.id))) ∧
      t.flagMsgs = s.flagMsgs ++ (if fl = 0 then [] else (a.from_ ++ b.from_).map (fun f => (f.1, f.2.1, f.2.2, fl)))

/-- O43. What a router merges loses nothing (R170, R199, R265, R314, R315): an integer reduction leaves at its home what the
two would have left one after the other, a barrier addition too, and merge is commutative, bit for bit, whatever the words. -/
def Obligations.MergesLoseNothing : Prop :=
  (∀ op ∈ [AtomOp.add, .and, .or, .xor, .mins, .minu, .maxs, .maxu], ∀ (m v w : Word) (rm : Rm) (fz cn : Bool),
    atomNew op (atomNew op m.toNat v.toNat 0 rm fz cn false).bits w.toNat 0 rm fz cn false =
      atomNew op m.toNat (atomNew op v.toNat w.toNat 0 rm fz cn false).bits 0 rm fz cn false) ∧
  (∀ (m v w : Nat), bsigSum (bsigSum m v) w = bsigSum m (bsigSum v w)) ∧
  ∀ (a b : List Word), mergeWords a b = mergeWords b a

/-- O44. Events of memory (R88, R169, R181, R182, R185, R236, R300, R320). Write-back and eviction of a dirty line, with no
request on its way to a home, an evicted one a marked one where any is: its dirty bytes stand at their homes, no other home's
byte changes; without eviction the domain slot sees what it saw, and every byte of the line in L1 is clean. Flags reach their
lane, in its flag register or, while its warp is switched out, in its pending-flag word; the walk of a pending access ends;
sleeping lanes look again; a page is copied, and the ROTINV that waits for it looks again. -/
def Obligations.MemoryEvents : Prop :=
  (∀ (s : State) (k : Core), tget s.cores s.ev.core = some k → Memory.wf s.mem = true → s.noMig = true →
    let l := s.l1Of s.ev.core s.ev.slot
    s.reqs = [] → (s.ev.flag = true → ∀ m, tget k.soon s.ev.slot = some m → m = [] ∨ s.ev.addr / 128 * 128 ∈ m) →
    (∀ p ∈ l, tget l p.1 = some p.2) → (l.filter (fun p => p.1 / 128 * 128 == s.ev.addr / 128 * 128)) ≠ [] →
    ∃ t, exec .dirtyLineWriteback s = .next t ∧
      (∀ a, byteAt t.mem a = match tget l a with
        | some (b, true) => if a / 128 = s.ev.addr / 128 then b else byteAt s.mem a
        | _ => byteAt s.mem a) ∧
      (s.ev.flag = false → (∀ a, t.sees s.ev.core s.ev.slot a = s.sees s.ev.core s.ev.slot a) ∧
        ∀ a, a / 128 = s.ev.addr / 128 → ∀ b d, tget (t.l1Of s.ev.core s.ev.slot) a = some (b, d) → d = false) ∧
      (s.ev.flag = true → ∀ a, a / 128 = s.ev.addr / 128 → tget (t.l1Of s.ev.core s.ev.slot) a = none)) ∧
  ∀ (s : State),
    (∀ f, s.flagMsgs.find? (fun f => f.1 == s.ev.core && f.2.1 == s.ev.slot && f.2.2.1 == s.ev.lane) = some f →
      ∀ w th, s.warpAt? s.ev.core s.ev.slot = some w → tget w.threads s.ev.lane = some th →
      ∃ t y, exec .asyncFlagArrival s = .next t ∧ t.flagMsgs = s.flagMsgs.erase f ∧ t.mem = s.mem ∧
        t.thread? s.ev.core s.ev.slot s.ev.lane = some y ∧
        (if w.susp.isSome || w.slotsIn.any (s.core s.ev.core).frozen.contains then y = { th with pflags := th.pflags ||| f.2.2.2 }
          else y = { th with fpflags := th.fpflags ||| f.2.2.2.setWidth 32 })) ∧
    (∀ p w accs res ws, s.pend.find? (fun p => p.id == s.ev.id) = some p → p.kind = .access accs false res ws →
      s.warpAt? p.core p.slot = some w → exec .pageWalkComplete s = .next (s.walkDone p w accs res ws)) ∧
    (∀ w, s.warpAt? s.ev.core s.ev.slot = some w → ∃ t, exec .monitorTimeout s = .next t ∧ t.mem = s.mem ∧
      ∀ l th, tget w.threads l = some th → th.exited = false → ∃ y, t.thread? s.ev.core s.ev.slot l = some y ∧
        y = match th.wait with | .word .. | .line _ => { th with wait := .run } | _ => th) ∧
    (s.duals.any (fun d => d.page == s.ev.num) = true → exec .dualBackgroundCopy s = .next ({ s with
      duals := s.duals.map (fun (d : Dual) => if d.page = s.ev.num then { d with copied := true } else d) }.wake
        (fun x => x == Wait.pend)))

/-- O45. Loads from scratchpad (R59, R165, R167, R188): each live lane's bytes, and for LDS.peek the word's full/empty bit as
a second word, pend as its result under the window; helper lanes' destinations are 0; no word, bit or byte of memory changes. That the
result is the scratchpad's value when the load issues is the model's choice (log 7). -/
def Obligations.ScratchpadLoads : Prop :=
  ∀ (L : BitVec 4) (a d : Reg) (s : State) (w : Warp) (ref : Nat → SpRef), s.warp? = some w →
    (s.cur.order .relaxed).acquires = false → s.live ≠ [] →
    (∀ (z : Sz), let u : Use := Use.lds (.ofSize .vd d z) a
      let dest := (List.range (szRegs z)).map (s.reg .vd d + ·)
      s.canIssue u = true → s.spadHeld false false (szBytes z) (s.live.map (fun p => (p.1, p.2, ref p.1))) = [] →
      (∀ p ∈ s.live, s.spadRef w (p.2.nat (s.reg .va a)) (szBytes z) = .ok (ref p.1)) →
      ∃ t, exec (.lds L z a d) s = .next t ∧
        OnlyPending s t (s.pending none (.result .load
          (s.live.map (fun p => ⟨p.1, loadRegs (s.reg .vd d) (s.spRead (ref p.1) (szBytes z)), 0⟩)))) ∧
        LaneStep s t (fun _ th => u.ran s.cur (fun x => (if th.helper then x.setAll (dest.map (fun r => (r, 0))) else x).openWindow
          s.cur.last L.toNat false [s.nextId] dest) th)) ∧
    (let u : Use := Use.lds (.two .vd d) a
      let dest := [s.reg .vd d, s.reg .vd d + 1]
      s.canIssue u = true → s.spadHeld false false 4 (s.live.map (fun p => (p.1, p.2, ref p.1))) = [] →
      (∀ p ∈ s.live, s.spadRef w (p.2.nat (s.reg .va a)) 4 = .ok (ref p.1)) →
      ∃ t, exec (.ldsPeek L a d) s = .next t ∧
        OnlyPending s t (s.pending none (.result .load (s.live.map (fun p => ⟨p.1,
          loadRegs (s.reg .vd d) (s.spRead (ref p.1) 4) ++
            [(s.reg .vd d + 1, if s.isFull (ref p.1).block ((ref p.1).off / 4) then 1 else 0)], 0⟩)))) ∧
        LaneStep s t (fun _ th => u.ran s.cur (fun x => (if th.helper then x.setAll (dest.map (fun r => (r, 0))) else x).openWindow
          s.cur.last L.toNat false [s.nextId] dest) th))

/-- O46. STS (R166, R167, R188): in lane order each live lane's bytes come to stand in scratchpad; no full/empty bit, no byte of
memory and no register changes. -/
def Obligations.ScratchpadStores : Prop :=
  ∀ (L : BitVec 4) (z : Sz) (a d : Reg) (s : State) (w : Warp) (ref : Nat → SpRef), s.warp? = some w →
    let u : Use := Use.sts [.ofSize .vd d z] a
    s.canIssue u = true → (s.cur.order .relaxed).releases = false →
    s.spadHeld true false (szBytes z) (s.live.map (fun p => (p.1, p.2, ref p.1))) = [] →
    (∀ p ∈ s.live, s.spadRef w (p.2.nat (s.reg .va a)) (szBytes z) = .ok (ref p.1)) →
    ∃ t, exec (.sts L z a d) s = .next t ∧ t.pend = s.pend ∧ t.mem = s.mem ∧
      (∀ b x, (tget s.blocks b).isSome = true → t.padByte b x = s.live.foldl (fun f p => if (ref p.1).block = b then
        overlay f (ref p.1).off (p.2.storeData (s.reg .vd d) z) else f) (s.padByte b) x) ∧
      (∀ b i, t.isFull b i = s.isFull b i) ∧
      ∀ c n l, (t.thread? c n l).map Thread.regs = (s.thread? c n l).map Thread.regs

/-- O47. Full/empty words (R167, R188), for one live lane, with no access waiting and no gate call open in the block (log 71): STS.fill writes and marks full;
STS.empty marks empty and writes nothing; STS.sync on an empty word writes and marks full, and on a full one waits; LDS.sync
on a full word takes it, leaves it empty and pends with its value, and on an empty one waits. Only that word and its bit
change. -/
def Obligations.FullEmptyWords : Prop :=
  ∀ (L : BitVec 4) (a d : Reg) (s : State) (w : Warp) (l : Nat) (th : Thread) (r : SpRef),
    s.warp? = some w → s.live = [(l, th)] → s.noWaiters = true → s.cur.mod = none → s.cur.rep = none →
    s.actsOnL1 s.cur.core w.curSlot .block = false →
    s.laneHeld s.cur.core s.cur.slot l true true = false → s.spadRef w (th.nat (s.reg .va a)) 4 = .ok r →
    let word := bytesOf 4 (th.nat (s.reg .vd d))
    let same (t : State) : Prop := t.noPad.blocks = s.noPad.blocks ∧ t.mem = s.mem ∧
      (∀ k i, (k ≠ r.block ∨ i ≠ r.off / 4) → t.isFull k i = s.isFull k i)
    let wrote (t : State) : Prop := ∀ k x, t.padByte k x = if k = r.block then overlay (s.padByte k) r.off word x else s.padByte k x
    let kept (t : State) : Prop := ∀ k x, t.padByte k x = s.padByte k x
    (s.canIssue (Use.sts [.one .vd d] a) = true → ∃ t, exec (.stsFill L a d) s = .next t ∧ same t ∧ wrote t ∧
      t.isFull r.block (r.off / 4) = true ∧ t.pend = s.pend) ∧
    (s.canIssue (Use.sts [] a) = true → ∃ t, exec (.stsEmpty L a) s = .next t ∧ same t ∧ kept t ∧
      t.isFull r.block (r.off / 4) = false ∧ t.pend = s.pend) ∧
    (s.canIssue (Use.sts [.one .vd d] a) = true →
      (s.isFull r.block (r.off / 4) = false → ∃ t, exec (.stsSync L a d) s = .next t ∧ same t ∧ wrote t ∧
        t.isFull r.block (r.off / 4) = true ∧ t.pend = s.pend) ∧
      (s.isFull r.block (r.off / 4) = true → ∃ t n, exec (.stsSync L a d) s = .next t ∧ same t ∧ kept t ∧
        t.isFull r.block (r.off / 4) = true ∧
        t.pend = s.pend ++ [s.pending none (.stsSync [⟨l, r.block, r.off / 4, th.nat (s.reg .va a), th.get (s.reg .vd d)⟩] n)])) ∧
    (s.canIssue (Use.lds (.one .vd d) a) = true →
      (s.isFull r.block (r.off / 4) = true → ∃ t, exec (.ldsSync L a d) s = .next t ∧ same t ∧ kept t ∧
        t.isFull r.block (r.off / 4) = false ∧
        t.pend = s.pend ++ [s.pending none (.result .load [⟨l, [(s.reg .vd d, BitVec.ofNat 32 (wordOf (s.spRead r 4)))], 0⟩])]) ∧
      (s.isFull r.block (r.off / 4) = false → ∃ t n, exec (.ldsSync L a d) s = .next t ∧ same t ∧ kept t ∧
        t.isFull r.block (r.off / 4) = false ∧
        t.pend = s.pend ++ [s.pending none (.ldsSync [⟨l, r.block, r.off / 4, th.nat (s.reg .va a), 0⟩] (s.reg .vd d) (some .block) n)]))

/-- O48. ATOMS (R166, R198), relaxed: in lane order each lane's old value becomes its pending result and the new one stands in its
place; full/empty bits stay. -/
def Obligations.ScratchpadAtomics : Prop :=
  ∀ (L : BitVec 4) (sc : BitVec 2) (o : AtomOp) (a d : Reg) (s : State) (w : Warp) (l : Nat) (th : Thread) (r : SpRef),
    let u : Use := { opds := [.atom d o, .one .va a], rep := true, order := fun _ => true, scope := spadScope, rm := atomFp o }
    let old := s.spRead r o.size
    let v := s.reg .vd d
    let new := atomNew o (wordOf old) (th.atomV v o).toNat (th.atomV2 v o).toNat (fpEnv s.cur th).rm false (fpEnv s.cur th).cnan false
    s.canIssue u = true → s.warp? = some w → s.live = [(l, th)] → s.cur.mod = none →
    s.spadHeld true false o.size [(l, th, r)] = [] →
    s.spadRef w (th.nat (s.reg .va a)) o.size = .ok r →
    ∃ t, exec (.atoms L false sc o a d) s = .next t ∧ t.noPad.blocks = s.noPad.blocks ∧ t.mem = s.mem ∧
      t.pend = s.pend ++ [s.pending none (.result .atom [⟨l, loadRegs v (bytesOf o.size (wordOf old)), new.flags⟩])] ∧
      (∀ k x, (tget s.blocks k).isSome = true →
        t.padByte k x = if k = r.block then overlay (s.padByte k) r.off (bytesOf o.size new.bits) x else s.padByte k x) ∧
      ∀ k i, t.isFull k i = s.isFull k i

/-- O49. Tile-layout records and the elements they give (R174–R177, R189, R196). TLRW.rd gives the slot's eight words to the
live lanes and 0 to helper lanes; TLRW.wr writes the lowest live lane's eight words into the slot, where engine commands go on
reading the old ones, of the two that R177 allows the model's choice (log 53). LDX and STX where the record and every element pass: elements outside are the fill, or not stored;
elements in scratchpad are read or stored there; elements in memory are accessed like any other, in class 2. -/
def Obligations.RecordsAndElements : Prop :=
  (∀ (n : BitVec 7) (d : Reg) (s : State) (w : Warp), s.warp? = some w → s.slotCheck w n.toNat = none →
    let u : Use := { opds := [⟨.vd, d.toNat, 8, 8⟩] }
    s.canIssue u = true →
    (∃ t, exec (.tlrwRd n d) s = .next t ∧ OnlyLanes s t ∧ LaneStep s t (fun _ th => u.ran s.cur (fun x =>
      x.setGroup d.toNat (if th.helper then List.replicate 8 0 else s.recordOf w n.toNat)) th)) ∧
    (∀ l th rest b, s.live = (l, th) :: rest → tget s.blocks w.block = some b → (tget s.cores b.core).isSome = true →
      ∃ t, exec (.tlrwWr n d) s = .next t ∧ t.recordOf w n.toNat = th.group d.toNat 8 ∧
        (∀ m, b.recAt m ≠ b.recAt n.toNat → t.recordOf w m = s.recordOf w m) ∧ (∀ m, t.recordSeen w m = s.recordSeen w m) ∧
        t.mem = s.mem ∧ t.blocks = s.blocks ∧
        ∀ c k l, (t.thread? c k l).map Thread.regs = (s.thread? c k l).map Thread.regs)) ∧
  ∀ (h : Bool) (L n : BitVec 4) (a d : Reg) (s : State) (w : Warp),
    let u := elemUse n.toNat a d s
    let x := s.counted u
    let r := Record.ofWords (x.recordOf w n.toNat)
    let v := s.reg .vd d
    s.canIssue u = true → x.warp? = some w → x.recordCheck w n.toNat v = none →
    (∀ l, l = x.elems w false h n.toNat a d → elemFault l = none → x.heldLanes false false = [] → x.elemHeld r.esz l = [] →
      x.accessOk w (elemAccs l) = true → exec (.ldx h L n a d) s =
      .next ((x.accessFrom w (elemAccs l)).accessGo w
        { L := L, cls := some 2, res := .load, dest := v :: r.extra v, given := x.elemGiven r v l } (elemAccs l))) ∧
    (∀ l w', l = x.elems w true h n.toNat a d → elemFault l = none → x.heldLanes true false = [] → x.elemHeld r.esz l = [] →
      (x.elemStores w l).warp? = some w' →
      (x.elemStores w l).accessOk w' (elemAccs l) = true → exec (.stx h L n a d) s =
        .next (((x.elemStores w l).accessFrom w' (elemAccs l)).accessGo w'
          { L := L, cls := some 2, res := .load, dest := [], given := [] } (elemAccs l)))

/-- O50. PREF, the fences and WAITC (R131, R154, R173, R180, R190, R191, R195). PREF changes nothing that a load would take. A fence that
reaches past the block and waits for nothing leaves no dirty byte of its domain slot in L1 and no request of its core on its
way, where it releases, and no clean byte, where it acquires. WFENCE with no load outstanding acquires for the whole bundle where one
of its lanes has acquired, and changes nothing where none has. WAITC with a count low enough and no cause to report goes on. No register changes. -/
def Obligations.FencesAndCounts : Prop :=
  ∀ (s : State) (w : Warp), s.warp? = some w →
    let c := s.cur.core
    let regsKept (t : State) : Prop := ∀ k n l, (t.thread? k n l).map Thread.regs = (s.thread? k n l).map Thread.regs
    (∀ (k : Bool) (a : Reg), s.canIssue { opds := [.two .va a], rep := true } = true →
      ∃ t, exec (.pref k a) s = .next t ∧ (s.reqs = [] → regsKept t ∧ t.mem = s.mem ∧ ∀ q d x, t.loads1 q d x = s.loads1 q d x)) ∧
    (∀ (e : Bool) (k : FenceKind) (sc : Scope), s.canIssue (Use.flow []) = true → s.live ≠ [] →
      s.heldLanes (k != .acq || e) (k != .acq || e) = [] → (∀ p ∈ s.live, s.fenceWaits (k != .acq || e) sc p.1 = none) →
      ∃ t, exec (.fence e k sc) s = .next t ∧ regsKept t ∧
        ((k ≠ .acq ∨ e = true) → sc.wide = true → (∀ x b d, tget (t.l1Of c w.curSlot) x = some (b, d) → d = false) ∧
          ∀ r ∈ t.reqs, ∀ f ∈ r.from_, f.1 ≠ c) ∧
        ((k = .acq ∨ k = .full) → sc.wide = true → ∀ x b d, tget (t.l1Of c w.curSlot) x = some (b, d) → d = true)) ∧
    (s.canIssue { opds := [], rep := true } = true →
      s.pend.all (fun p => !(p.core == c && p.slot == s.cur.slot && s.loadOut s.cur.mask p)) = true →
      (s.active.all (fun p => !p.2.acq) = true → ∃ t, exec .wfence s = .next t ∧ OnlyLanes s t ∧
        LaneStep s t (fun _ th => ({ opds := [], rep := true } : Use).ran s.cur id th)) ∧
      (s.active.any (fun p => p.2.acq) = true → ∃ t, exec .wfence s = .next t ∧ t.mem = s.mem ∧
        LaneStep s t (fun _ th => ({ opds := [], rep := true } : Use).ran s.cur id th) ∧
        ∀ x b d, tget (t.l1Of c w.curSlot) x = some (b, d) → d = true)) ∧
    (∀ (cls : BitVec 3) (n : BitVec 6), s.canIssue (Use.flow []) = true → s.live ≠ [] →
      w.deferred.all (fun x => x.cls != cls.toNat) = true → w.cnt cls.toNat ≤ n.toNat →
      (cls ≠ 0 ∧ cls ≠ 4 → ∃ t, exec (.waitc cls n) s = .next t ∧ OnlyLanes s t ∧
        LaneStep s t (fun _ th => (Use.flow []).ran s.cur id th)) ∧
      (cls = 0 ∨ cls = 4 → ∃ t, exec (.waitc cls n) s = .next t ∧ regsKept t ∧ t.mem = s.mem ∧
        ∀ x b d, tget (t.l1Of c w.curSlot) x = some (b, d) → d = true))

/-- O51. Waits on a word (R55, R164, R169, R170, R192, R193): where every live lane's word can be read, a lane whose condition
holds goes on, the others wait for a write to their word; where some lanes' translations are not cached, those wait for their walks.
BRDC is a load of the counter, at the home where its scope reaches past the block. -/
def Obligations.WaitsOnWords : Prop :=
  ∀ (s : State) (w : Warp) (good : List (Nat × Thread × WaitRef)) (y z : State) (vals : List (Nat × Thread × WaitRef × Nat)),
    let use (l : List Opd) : Use := { opds := l, order := loadOrder, scope := anyScope, closes := true }
    let reads (u : Use) (ap : Bool) (size : Nat) (a : Reg) : Prop :=
      s.canIssue u = true ∧ (s.counted u).warp? = some w ∧
      (s.counted u).heldLanes false false = [] ∧
      (s.counted u).waitRefs w ap size a.toNat (s.counted u).live = (good.map (fun g => (g.1, g.2.1, .ok g.2.2)), y) ∧
      good.all (fun g => g.2.2 != .walk) = true ∧
      y.waitReads w ((s.cur.scope .package == .block) && !ap) size good = (z, vals)
    let walks (u : Use) (ap : Bool) (size : Nat) (a : Reg) : Prop :=
      s.canIssue u = true ∧ (s.counted u).warp? = some w ∧
      (s.counted u).heldLanes false false = [] ∧
      (s.counted u).waitRefs w ap size a.toNat (s.counted u).live = (good.map (fun g => (g.1, g.2.1, .ok g.2.2)), y) ∧
      good.any (fun g => g.2.2 == .walk) = true
    let walking (size : Nat) (a : Reg) : Out := .next (y.probeWalk size a.toNat (good.filter (fun g => g.2.2 == .walk)))
    (∀ (o : Bool) (k : WaitCond) (q : Bool) (a d : Reg),
      reads (use [.two .va a, if q then .two .vd d else .one .vd d]) true (if q then 8 else 4) a →
      exec (.waita o k q a d) s = .next (z.meetCondition w (z.cur.order (if o then .acquire else .relaxed))
        (fun t r => k.test r (if q then t.nat64 d.toNat else t.nat d.toNat)) vals).finish) ∧
    (∀ (b a : Reg), reads (use [.two .va a, .two .vb b]) false 8 a →
      exec (.bwait b a) s = .next (z.meetCondition w (z.cur.order .relaxed) (fun t r => decide (t.nat64 b.toNat ≤ r)) vals).finish) ∧
    (∀ (o : Bool) (k : WaitCond) (q : Bool) (a d : Reg),
      walks (use [.two .va a, if q then .two .vd d else .one .vd d]) true (if q then 8 else 4) a →
      exec (.waita o k q a d) s = walking (if q then 8 else 4) a) ∧
    (∀ (b a : Reg), walks (use [.two .va a, .two .vb b]) false 8 a → exec (.bwait b a) s = walking 8 a) ∧
    (∀ (a d : Reg), let u := use [.two .va a, .two .vd d]
      let x := s.counted u
      let sc := s.cur.scope .package
      let loads := x.lanesAt a.toNat 8 (s.cur.order .relaxed) sc d.toNat true (fun _ _ => .load (if sc.wide then .l2 else .plain))
      s.canIssue u = true → x.warp? = some w → x.accessOk w loads = true →
      exec (.brdc a d) s = .next ((x.accessFrom w loads).accessGo w
        { L := 0, cls := none, res := .load, dest := [d.toNat, d.toNat + 1] } loads))

/-- O52. Windows and stamped records (R329–R331, R347–R353): where every live lane's place passes, WSTR sends each lane's
bytes and counts in class 3, WGET and WCNT pend, WWAIT lets go on the lanes whose counter has reached their threshold modulo
2^48; TIMEI gives the two edges of one instant; COMMITW waits for the early edge to pass; STST gives each lane a stamp and
holds its record, LDAT waits for its tick. -/
def Obligations.WindowsAndStamps : Prop :=
  ∀ (s : State) (w : Warp) (y : State),
    let ready (u : Use) (wr : Bool) : Prop := s.canIssue u = true ∧ (s.counted u).warp? = some w ∧
      (s.counted u).heldLanes wr false = []
    let places (u : Use) (wr : Bool) (size : Nat) (a : Reg) (l : List (Nat × Thread × WinRef)) : Prop := ready u wr ∧
      (s.counted u).winRefs w wr size a.toNat (s.counted u).live = (l.map (fun g => (g.1, g.2.1, .ok g.2.2)), y)
    let records (u : Use) (wr : Bool) (a : Reg) (l : List (Nat × Thread × RecRef)) : Prop := ready u wr ∧
      (s.counted u).recRefs w wr a.toNat (s.counted u).live = (l.map (fun g => (g.1, g.2.1, .ok g.2.2)), y) ∧
      s.deckle.refuses = false
    (∀ (L : BitVec 4) (z : Sz) (a d : Reg) (l : List (Nat × Thread × WinRef)), l ≠ [] → y.mayCopy w = true → w.cnt 3 < 63 →
      (places { opds := [.ofSize .vd d z, .two .va a] } true (szBytes z) a l →
        exec (.wstr L z a d) s = .next (l.foldl (fun s x => (s.foldStore w.block (x.2.1.nat64 a.toNat) false
            (x.2.1.storeData d.toNat z)).winPkt w x.1 (x.2.1.nat64 a.toNat) x.2.2 (.write (x.2.1.storeData d.toNat z)) .adaptive none
            (some (3, y.nextId)))
          ((({ y with nextId := y.nextId + 1 } : State).countEngine 3 y.nextId).irrevocable w)).finish) ∧
      (places { opds := [.ofSize .vd d z, .two .va a] } false (szBytes z) a l →
        let dest := (List.range (szRegs z)).map (d.toNat + ·)
        exec (.wget L z a d) s = .next ((l.foldl (fun s x => s.winPkt w x.1 (x.2.1.nat64 a.toNat) x.2.2
            (.read (szBytes z) d.toNat false) .adaptive (some y.nextId) none) (y.begin_ L (some 3) dest (.wget []))).mapActive
          (fun _ t => if t.helper then t.setAll (dest.map (fun r => (r, 0))) else t)).finish)) ∧
    (∀ (L : BitVec 4) (c : Bool) (a d : Reg) (l : List (Nat × Thread × WinRef)), l ≠ [] →
      places { opds := [.two .vd d, .two .va a] } false 1 a l →
      exec (.wcnt L c a d) s = .next (((y.mapActive (fun _ t => if t.helper then t.setPair d.toNat 0 else t)).begin_ L none
        [d.toNat, d.toNat + 1] (.result .window (l.map (fun x => ⟨x.1, [(d.toNat, BitVec.ofNat 32 (y.counterOf w c x.2.2)),
          (d.toNat + 1, BitVec.ofNat 32 (y.counterOf w c x.2.2 / 2 ^ 32))], 0⟩)))).finish)) ∧
    (∀ (q c : Bool) (a d : Reg) (l : List (Nat × Thread × WinRef)), places { opds := [.two .vd d, .two .va a] } false 1 a l →
      let met (x : Nat × Thread × WinRef) : Bool := counterMet (y.counterOf w c x.2.2) (x.2.1.nat64 d.toNat)
      let done := (l.filter met).map (·.1)
      exec (.wwait q c a d) s = .next (((if q && !done.isEmpty then y.acquire y.cur.core w.curSlot .package else y).mapActive
        (fun n t => if ((l.filter (fun x => !met x)).map (·.1)).contains n then { y.cur.uncount n t with wait := .window }
          else if q && done.contains n then { t with acq := true } else t)).finish)) ∧
    (∀ (d : Reg), s.canIssue { opds := [.four .vd d] } = true → ∃ t, exec (.timei d) s = .next t ∧ OnlyLanes s t ∧
      LaneStep s t (fun _ th => ({ opds := [.four .vd d] } : Use).ran s.cur (fun x =>
        (x.setPair d.toNat (BitVec.ofNat 64 s.deckle.early)).setPair (d.toNat + 2)
          (BitVec.ofNat 64 (if s.deckle.fail then 2 ^ 64 - 1 else s.deckle.late))) th)) ∧
    (∀ (a : Reg), s.canIssue { opds := [.two .va a], closes := true } = true →
      ∃ t, exec (.commitw a) s = .next t ∧ OnlyLanes s t ∧
        LaneStep s t (fun _ th => ({ opds := [.two .va a], closes := true } : Use).ran s.cur (fun x =>
          if th.helper || decide (th.nat64 a.toNat < s.deckle.early) then x else { x with wait := .time }) th)) ∧
    (∀ (L : BitVec 4) (a d : Reg) (l : List (Nat × Thread × RecRef)), l ≠ [] → w.cnt 5 < 63 →
      records { opds := [.four .vd d, .two .va a] } true a l →
      exec (.stst L a d) s = .next (l.foldl (fun s x => s.takeStamp w y.nextId a.toNat d.toNat x)
        ((({ y with nextId := y.nextId + 1 } : State).countEngine 5 y.nextId).irrevocable w)).finish) ∧
    (∀ (L : BitVec 4) (a d : Reg) (l : List (Nat × Thread × RecRef)), l ≠ [] →
      records { opds := [⟨.vd, d.toNat, 8, 8⟩, .two .va a] } false a l → (∀ x ∈ l, x.2.1.nat64 d.toNat < 2 ^ 63) →
      let lanes : List LdatLane := l.map (fun x => ⟨x.1, x.2.1.nat64 d.toNat, x.2.1.nat64 a.toNat⟩)
      let dest := (List.range 8).map (d.toNat + ·)
      exec (.ldat L a d) s = .next ((((y.mapActive (fun _ t => if t.helper then t.setGroup d.toNat (List.replicate 8 0) else t)).queueSync
        L (lanes.map (·.lane)) dest (fun n => .ldat lanes d.toNat n)).mapActive (fun _ t =>
          if t.helper then t.openWindow y.cur.last L.toNat false [] dest else t)).finish))

/-- O53. The transformed mean (R86, R122, R264–R272): where the slot checks pass and no lane's argument is a fault, each active
lane's partial, or for TMEXIT its value, pends with its flags under the lane's window; a lane with an enabled flag is stopped.
TMLD with parameters that pass is accepted in class 7, for the lowest live lane. -/
def Obligations.TransformedMean : Prop :=
  ∀ (L : BitVec 4) (a d : Reg) (s : State) (w : Warp), s.warp? = some w →
    let v := s.reg .vd d
    let r := s.reg .va a
    let runs (i : Instr) (opds : List Opd) (check : Bool) (dst : List Nat)
        (f : Nat → Thread → Option (List Word × BitVec 5)) : Prop :=
      s.canIssue { opds := opds, rep := true } = true →
      (∀ p ∈ s.active, (check = true → s.tmCheck w p.2 = none) ∧ (f p.1 p.2).isSome = true) →
      ∃ t, exec i s = .next t ∧ OnlyPending s t (s.pending none (.result .tm (s.tmWrites dst f))) ∧
        LaneStep s t (fun l th => ({ opds := opds, rep := true } : Use).ran s.cur
          (Thread.tmStep s.cur L (s.tmOut f l) s.nextId dst th) th)
    runs (.tmclr L d) [.four .vd d] false (four v) (fun _ _ => some (Partial.empty.words, 0)) ∧
    runs (.tment L a d) [.four .vd d, .one .va a] true (four v)
      (fun _ t => (s.enter t (t.get r)).map (fun x => (x.1.words, x.2))) ∧
    runs (.tmacc L a d) [.four .vd d, .one .va a] true (four v)
      (fun _ t => (s.enter t (t.get r)).map (fun x => (mergeWords (t.group v 4) x.1.words, x.2))) ∧
    runs (.tmmrg L a d) [.four .vd d, .four .va a] false (four v)
      (fun _ t => some (mergeWords (t.group v 4) (t.group r 4), 0)) ∧
    runs (.tmredw L d) [.four .vd d] true (four v) (fun n _ => some ((s.tmTree v).getD n [], 0)) ∧
    runs (.tmexit L a d) [.one .vd d, .four .va a] true [v]
      (fun _ t => some ([BitVec.ofNat 32 (s.tmExit t (t.group r 4)).bits], (s.tmExit t (t.group r 4)).flags)) ∧
    (∀ (n : BitVec 3) (lane : Nat) (t : Thread) (rest : List (Nat × Thread)),
      let u : Use := { opds := [.four .vd d, .two .va a], rep := true }
      let x := s.counted u
      let ps := t.group v 4
      s.canIssue u = true → x.live = (lane, t) :: rest → bit (dpTm ((x.core s.cur.core).dp w.curSlot)) n.toNat = true →
      ps.all finite32 = true → fix32 (ps.getD 0 0) < fix32 (ps.getD 1 0) → fix32 (ps.getD 2 0) ≠ fix32 (ps.getD 3 0) →
      t.nat64 r % 64 = 0 → t.nat64 r < 2 ^ 56 → w.cnt 7 < 63 →
      exec (.tmld L n a d) s = .next ((({ x with
        nextId := x.nextId + 1
        loads := x.loads ++ [⟨x.nextId, s.cur.core, s.cur.slot, lane, t.pc, n.toNat, t.nat64 r, ps, false⟩] } : State).countEngine 7
          x.nextId).openWindow L [] []).finish)

/-- O54. Matrix commands (R200–R206, R213, R215–R217): MLDB and MLOOP whose checks pass enter the cluster's table with the lowest
live lane's block, in class 1; MZERO and MREL enter it for their tile, whose format MZERO takes away as it is accepted (log
62, DEDUCED); MRD's rows pend until they are final, MWM's watermark at once. -/
def Obligations.MatrixCommands : Prop :=
  ∀ (L : BitVec 4) (a d : Reg) (s : State) (w : Warp) (lane : Nat) (t : Thread) (rest : List (Nat × Thread)),
    (let u : Use := { opds := [.one .vd d, ⟨.va, a.toNat, 4, 2⟩] }
      ∀ x fw, x = s.counted u → s.canIssue u = true → x.warp? = some w → x.live = (lane, t) :: rest →
      voteFails (x.active.map (fun p => (p.1, p.2.get d.toNat))) = none → FmtWord.of (t.get d.toNat) = some fw →
      ∀ ws off n len, ws = t.group a.toNat 4 → off = (ws.getD 2 0).toNat → n = (ws.getD 3 0).toNat →
      len = 32 * ((n + 31) / 32) * elemBits fw.b / 8 → 0 < n → n ≤ 65536 → words2 ws 0 % 16 = 0 → off % 16 = 0 →
      off + len ≤ 131072 → x.myCluster.table.length < 32 → w.cnt 1 < 63 →
      x.myCluster.badRegion off len (fun y => match y with
        | some z => z != x.regionTag w && x.didResident (clusterOf s.cur.core) z.1
        | none => false) = none →
      exec (.mldb L a d) s = .next ((x.enterCmd w lane t.pc (some 1) (.mldb (t.get d.toNat) (words2 ws 0) off n)
        (fun k => k.claim off len (x.regionTag w))).endCmd L)) ∧
    (let u : Use := { opds := [.one .vd d, ⟨.va, a.toNat, 16, 8⟩] }
      ∀ x fw (s0 : BitVec 2), x = s.counted u → s.canIssue u = true → x.warp? = some w → x.live = (lane, t) :: rest →
      voteFails (x.active.map (fun p => (p.1, p.2.get d.toNat))) = none → FmtWord.of (t.get d.toNat) = some fw →
      ∀ b asc bsc, b = LoopBlock.of (t.group a.toNat 8) → asc = w.captureScales (a.toNat + 8) →
      bsc = w.captureScales (a.toNat + 12) → w.running.all (fun p => laneIn s.cur.mask p.1) = true → b.reserved = false →
      x.loopCheck w fw b asc bsc s0.toNat = none → w.visiting = false →
      x.myCluster.loopRegion fw b asc bsc s0.toNat (x.regionTag w) = none →
      (x.myCluster.holds w.block b.tile && (x.myCluster.tiles.getD b.tile Tile.free).fp64 == some (!fw.wide)) = false →
      x.myCluster.mayTake w.block b.tile = true → x.myCluster.table.length < 32 → w.cnt 1 < 63 →
      exec (.mloop L s0 a d) s = .next ((x.enterCmd w lane t.pc (some 1)
        (.mloop (t.get d.toNat) b.tile s0.toNat b.k b.aspad b.addr b.boff b.stride b.ainc b.binc asc bsc)
        (fun k => let k1 := k.reserve w.block b.tile
          { k1 with tiles := k1.tiles.modify b.tile (fun t => { t with fp64 := some fw.wide, mark := 0 }) })).endCmd L)) ∧
    (∀ (tile : BitVec 2) x, x = s.counted { opds := [.two .vd d, .one .va a] } → s.canIssue { opds := [.two .vd d, .one .va a] } = true →
      x.warp? = some w → x.live = (lane, t) :: rest → w.visiting = false → x.myCluster.holds w.block tile.toNat = true →
      ∀ wide, wide = ((x.myCluster.tiles.getD tile.toNat Tile.free).fp64 == some true) →
      (∀ p ∈ x.live, field (p.2.get a.toNat).toNat 31 7 = 0 ∧ (wide = false → bit (p.2.get a.toNat).toNat 6 = false)) →
      exec (.mrd L tile a d) s = .next (((x.mapActive (fun _ th => if th.helper then th.setPair d.toNat 0 else th)).begin_ L none
        [d.toNat, d.toNat + 1] (.mrd (clusterOf s.cur.core) tile.toNat wide (x.live.map (fun p => (p.1, p.2.get a.toNat)))
          d.toNat)).finish.settleTiles (clusterOf s.cur.core))) ∧
    (∀ (tile : BitVec 2), s.canIssue { opds := [.one .vd d] } = true → s.warp? = some w → s.live = (lane, t) :: rest →
      w.visiting = false → s.myCluster.holds w.block tile.toNat = true →
      ∃ y, exec (.mwm L tile d) s = .next y ∧ OnlyPending s y (s.pending none (.result .mrd (s.live.map (fun p =>
          ⟨p.1, [(d.toNat, BitVec.ofNat 32 (s.myCluster.tiles.getD tile.toNat Tile.free).mark)], 0⟩)))) ∧
        LaneStep s y (fun _ th => ({ opds := [.one .vd d] } : Use).ran s.cur (fun x =>
          (if th.helper then x.set d.toNat 0 else x).openWindow s.cur.last L.toNat false [s.nextId] [d.toNat]) th)) ∧
    (∀ (tile : BitVec 2) x, x = s.counted { opds := [] } → s.canIssue { opds := [] } = true → x.warp? = some w →
      x.live = (lane, t) :: rest → w.visiting = false → x.myCluster.table.length < 32 →
      (x.myCluster.mayTake w.block tile.toNat = true →
        exec (.mzero L tile) s = .next ((x.enterCmd w lane t.pc none (.mzero tile.toNat) (fun k =>
          let k1 := k.reserve w.block tile.toNat
          { k1 with tiles := k1.tiles.modify tile.toNat (fun y => { y with fp64 := none, mark := 0 }) })).endCmd L)) ∧
      (x.myCluster.holds w.block tile.toNat = true →
        exec (.mrel L tile) s = .next ((x.enterCmd w lane t.pc none (.mrel tile.toNat) (fun k => k)).endCmd L)))

/-- O55. Copy commands (R278, R317, R367–R370): one whose checks pass is queued with the lowest live lane's block, in its
class, and its instruction goes on; a push is preceded by a release at cluster scope. -/
def Obligations.CopyCommands : Prop :=
  ∀ (L : BitVec 4) (a d : Reg) (s : State) (w : Warp) (lane : Nat) (t : Thread) (rest : List (Nat × Thread)),
    (∀ u x b, u = ({ opds := [.one .vd d, ⟨.va, a.toNat, 8, 8⟩] } : Use) → x = s.counted u → b = a.toNat → s.canIssue u = true →
      x.warp? = some w → x.live = (lane, t) :: rest → w.cnt 0 < 63 →
      (t.nat (b + 5) = 0 → 0 < t.nat (b + 4) → x.mayCopy w = true → x.sideCheck w 1 (t.nat (b + 4)) (sideOf (t.nat64 b)) = none →
        x.sideCheck w 1 (t.nat (b + 4)) (sideOf (t.nat64 (b + 2))) = none → (doneOf (t.nat64 (b + 6))).bind (x.sideCheck w 4 4) = none →
        t.nat64 (b + 6) % 4 = 0 →
        exec (.cpy L a d) s = .next (x.acceptCopy w lane 0 (.cpy (sideOf (t.nat64 b)) (sideOf (t.nat64 (b + 2))) (t.nat (b + 4)))
          (t.get d.toNat) (doneOf (t.nat64 (b + 6))))) ∧
      (firstCheck (x.cpytChecks w t b) = none →
        exec (.cpytIn L a d) s = .next (x.acceptCopy w lane 0
          (.tileIn (t.nat64 b) (t.nat (b + 2)) (x.recordSeen w (field (t.nat (b + 3)) 3 0))) (t.get d.toNat)
            (doneOf (t.nat64 (b + 6)))) ∧
        exec (.cpytOut L a d) s = .next (x.acceptCopy w lane 0
          (.tileOut (t.nat64 b) (t.nat (b + 2)) (x.recordSeen w (field (t.nat (b + 3)) 3 0))) (t.get d.toNat)
            (doneOf (t.nat64 (b + 6)))))) ∧
    (∀ u x slot, u = ({ opds := [.one .vd d, .one .va a] } : Use) → x = s.counted u → s.canIssue u = true → x.warp? = some w →
      x.live = (lane, t) :: rest → w.cnt 4 < 63 → slot = t.nat a.toNat → slot < 16 → x.slotCheck w slot = none →
      x.recordBad w.block (Record.ofWords (x.recordSeen w slot)) = false → x.mayCopy w = true → x.heldLanes true true = [] →
      exec (.halo L a d) s = .next ((x.release s.cur.core w.curSlot .cluster).acceptCopy w lane 4
        (.halo (x.recordSeen w slot)) (t.get d.toNat) none))

/-- O56. Transfers through jump tables and gates (R139–R141, R249–R256). Where every active lane's table gives it a landing,
JTAB sends each lane there, and CALLT too with PC + 4 in vd. GCALL through a gate that passes keeps its caller in a frame and
enters the callee with its arguments alone; GRET gives the caller back what the frame holds. Where either changes the
domain slot, the dirty bytes of the slot that is left go to their homes and the clean ones of the other are dropped, the model's choice
(log 71); no other byte of memory changes. -/
def Obligations.TablesAndGates : Prop :=
  ∀ (s : State) (w : Warp),
    let still (x : State) : Prop :=
      x.pend.all (fun p => !(p.core == s.cur.core && p.slot == s.cur.slot && p.walking)) = true ∧
      w.engine.all (fun q => q.isEmpty) = true ∧ w.deferred = []
    let moved (u : State) (slot : Nat) : Prop :=
      (w.curSlot = slot ∨ (s.l1Of s.cur.core w.curSlot).all (fun q => !q.2.2) = true → u.mem = s.mem) ∧
      (w.curSlot ≠ slot → (∀ a b d, tget (u.l1Of s.cur.core w.curSlot) a = some (b, d) → d = false) ∧
        ∀ a b d, tget (u.l1Of s.cur.core slot) a = some (b, d) → d = true)
    (∀ (b a d : Reg) (y : State) (outs : List (Nat × TableOut)), (∀ o ∈ outs, ∃ n, o.2 = .go n) →
      let at_ (n : Nat) (t : Thread) : Word := match tget outs n with | some (.go x) => BitVec.ofNat 32 x | _ => t.pc
      (∀ x, x = s.counted (Use.flow [.two .va a, .one .vb b]) → s.canIssue (Use.flow [.two .va a, .one .vb b]) = true →
        x.warp? = some w → x.heldLanes false false = [] → x.tableLanes w a.toNat b.toNat x.active = (outs, y) →
        exec (.jtab b a) s = .next ((y.mapActive (fun _ t => t)).finishAt at_)) ∧
      (∀ x, x = s.counted (Use.flow [.one .vd d, .two .va a, .one .vb b]) →
        s.canIssue (Use.flow [.one .vd d, .two .va a, .one .vb b]) = true →
        x.warp? = some w → x.heldLanes false false = [] → x.tableLanes w a.toNat b.toNat x.active = (outs, y) →
        exec (.callt b a d) s = .next ((y.mapActive (fun _ t => t.set d.toNat (x.nextPc t))).finishAt at_))) ∧
    (∀ (n : BitVec 11) (g : Gate) (slot : Nat) (l : Nat) (t : Thread) (rest : List (Nat × Thread)) (e : Nat) (x y : State),
      x = s.counted (Use.flow []) → s.canIssue (Use.flow []) = true → x.warp? = some w → x.active = (l, t) :: rest →
      still x → (∃ ws, x.gateCheck w n.toNat = some (ws, g, slot)) →
      x.landingAt { w with curDid := g.did, code := g.code } g.entry g.label = (.go e, y) →
      ∃ u v, exec (.gcall n) s = .next u ∧ moved u slot ∧ u.warpAt? s.cur.core s.cur.slot = some v ∧
        v.curDid = g.did ∧ v.curSlot = slot ∧ v.code = g.code ∧ v.partn = 5 ∧ v.homeDid = w.homeDid ∧
        v.gates = ⟨s.nextPc t, w.code, w.curDid, w.curSlot, w.partn, w.running.map (fun p => (p.1, p.2.gateSave w.nbase))⟩ :: w.gates ∧
        (u.domain w.part w.curDid).mark = true ∧ (u.domain w.part g.did).mark = true ∧
        ∀ k th, laneIn s.cur.mask k = true → tget w.threads k = some th → ∃ z, tget v.threads k = some z ∧
          z.regs = (th.gateEnter g.argc w.nbase).regs ∧ (th.exited = false → th.wait = .run → z.pc = BitVec.ofNat 32 g.entry)) ∧
    (∀ (f : GateFrame) (rest : List GateFrame) (x : State), x = s.counted (Use.flow []) → s.canIssue (Use.flow []) = true →
      x.warp? = some w → still x → w.gates = f :: rest →
      x.laneMissing w = false →
      ∃ u v, exec .gret s = .next u ∧ moved u f.slot ∧ u.warpAt? s.cur.core s.cur.slot = some v ∧ v.gates = rest ∧
        v.curDid = f.did ∧ v.curSlot = f.slot ∧ v.code = f.code ∧ v.partn = f.partn ∧
        (u.domain w.part w.curDid).mark = true ∧ (u.domain w.part f.did).mark = true ∧
        ∀ k th, laneIn s.cur.mask k = true → tget w.threads k = some th → ∃ z, tget v.threads k = some z ∧
          z.regs = (th.gateLeave ((tget f.lanes k).getD [])).regs ∧ (th.exited = false → th.wait = .run → z.pc = f.pc))

/-- O57. SRD and SWR of every register, and the SYSOP group (R45, R62, R66, R67, R224, R303–R309, R386). SRD gives each lane the
register's value; SWR writes each lane's own register, the warp's tiles, or the core's register from the lowest live lane; a
value the chapter refuses is ILLEGAL. XLOCK takes the pair's set, XUNLK gives it back. TLBINV, ROTINV and ICINV act for each live
lane after a release at package scope; the types that a refused ROTINV leaves are log 64's. HALT stops its core unless its tick has
passed. CMPMAN gives the first field that differs. LNCH acts lane by lane, at supervisor level and with the partition's authority (log
28), and so does CHKP, on every partition's slots that hold the DID (log 25). -/
def Obligations.SystemInstructions : Prop :=
  ∀ (s : State) (w : Warp),
    (∀ (r : BitVec 11) (d : Reg) (lv : Level), regLevel r.toNat = some lv → (regWide r.toNat = true → d.toNat % 4 = 0) →
      (let u : Use := { opds := [regOpd r.toNat d], level := lv, closes := decide (0x00F < r.toNat) }
        ∀ x, x = s.counted u → s.canIssue u = true → x.warp? = some w → ∃ t, exec (.srd r d) s = .next t ∧ OnlyLanes s t ∧
          LaneStep s t (fun l th => u.ran s.cur (fun y =>
            if r.toNat < 0x080 then y.set d.toNat (x.userReg w l y r.toNat)
            else
              let v := x.coreReg s.cur.core false (x.launchSeed w) r.toNat
              if regWide r.toNat then y.setGroup d.toNat (words128 v) else y.set d.toNat (v.setWidth 32)) th)) ∧
      (regWritable r.toNat = true →
        let u : Use := { opds := [regOpd r.toNat d], level := lv, closes := true }
        ∀ x, x = s.counted u → s.canIssue u = true →
        (r.toNat < 0x080 → r.toNat ≠ 0x013 →
          (x.active.all (fun p => (p.2.writeReg r.toNat (p.2.get d.toNat)).isSome) = true → ∃ t, exec (.swr r d) s = .next t ∧
            OnlyLanes s t ∧ LaneStep s t (fun _ th => u.ran s.cur (fun y => (y.writeReg r.toNat (y.get d.toNat)).getD y) th)) ∧
          (∀ l, firstBad x.active (fun t => (t.writeReg r.toNat (t.get d.toNat)).isNone) = some l →
            exec (.swr r d) s = .next (x.faultAt .illegal l 0))) ∧
        (∀ l t rest, x.live = (l, t) :: rest → r.toNat = 0x013 → partnOk (t.get d.toNat) = true →
          exec (.swr r d) s = .next (x.modWarp (fun w => { w with partn := t.get d.toNat &&& 7 })).finish) ∧
        (∀ l t rest, x.live = (l, t) :: rest → 0x080 ≤ r.toNat →
          (∀ y, x.writeCoreReg s.cur.core false r.toNat (t.swrValue r.toNat d.toNat) = some y →
            exec (.swr r d) s = .next y.finish) ∧
          (x.writeCoreReg s.cur.core false r.toNat (t.swrValue r.toNat d.toNat) = none →
            exec (.swr r d) s = .next (x.faultAt .illegal l 0))))) ∧
    (∀ x, x = s.counted (Use.sysop []) → x.warp? = some w → s.canIssue (Use.sysop []) = true →
      (∀ set, tget (x.core s.cur.core).xsets (s.cur.slot / 2) = some set → w.curSlot = w.homeSlot →
        w.gates = [] → w.xown = false → siblingFirst (x.core s.cur.core) s.cur.slot s.cycle w.xreq = false →
        ∃ t v, exec .xlock s = .next t ∧ t.warpAt? s.cur.core s.cur.slot = some v ∧ v.xown = true ∧ v.xreq = none ∧ t.mem = s.mem ∧
          ∀ l th, tget w.threads l = some th → ∃ y, tget v.threads l = some y ∧
            y.regs = th.regs.take 96 ++ (tget set.lanes l).getD (List.replicate 32 0)) ∧
      (∀ set, tget (x.core s.cur.core).xsets (s.cur.slot / 2) = some set → w.xown = true → (w.threads.map (·.1)).Nodup →
        ∃ t v set', exec .xunlk s = .next t ∧ t.warpAt? s.cur.core s.cur.slot = some v ∧ v.xown = false ∧ t.mem = s.mem ∧
          tget (t.core s.cur.core).xsets (s.cur.slot / 2) = some set' ∧
          ∀ l th, tget w.threads l = some th → tget set'.lanes l = some (th.regs.drop 96))) ∧
    (∀ (b a : Reg) (lv : Level), let u : Use := { Use.sysop [.two .va a, .one .vb b] with level := lv }
      ∀ x y, x = s.counted u → x.warp? = some w → y = x.release s.cur.core w.curSlot .package → s.canIssue u = true →
      x.heldLanes true true = [] →
      (lv = .supervisor →
        let hit (e : TlbEntry) : Bool :=
          e.part == w.part && x.live.any (fun q => e.within (q.2.nat64 a.toNat / 65536) (q.2.nat b.toNat))
        (∀ e ∈ x.tlb, hit e = true → (∀ p ∈ x.pkts, ¬ (p.part = w.part ∧ p.va / 65536 = e.vpage)) ∧
          ∀ h ∈ x.holds, ¬ (h.part = w.part ∧ h.va / 65536 = e.vpage)) →
        ∃ t, exec (.tlbinv b a) s = .next t ∧ t.tlb = x.tlb.filter (fun e => !hit e) ∧
          (∀ e ∈ x.tlb, hit e = true → ∀ r ∈ t.reqs, r.addr / 65536 ≠ e.ppage) ∧
          ∀ c n l, (t.thread? c n l).map Thread.regs = (s.thread? c n l).map Thread.regs) ∧
      (lv = .hypervisor → x.live.all (fun p => decide (p.2.nat64 a.toNat < 2 ^ 44)) = true →
        ∀ pages, pages = (y.live.flatMap (fun q => y.rotinvPages (q.2.nat64 a.toNat / 65536) (q.2.nat b.toNat))).dedup →
        ((y.newStamped pages = [] ∨ y.stampedAfter pages ≤ 16384) → y.rotinvWait pages = none →
          exec (.rotinv b a) s = .next (pages.foldl State.rotinvPage y).finish) ∧
        (y.newStamped pages ≠ [] → 16384 < y.stampedAfter pages →
          exec (.rotinv b a) s = .next ((y.keepTypes (y.newStamped pages)).faultAt .illegal x.firstLane 0))) ∧
      (lv = .user → ∃ t, exec (.icinv b a) s = .next t ∧ t.mem = y.mem ∧
        ∀ k, (t.core k).icache = (y.core k).icache.filter (fun e => !(coreOfPart w.part ((tget y.parts w.part).getD Part.idle) k &&
          (tget y.parts w.part).isSome && y.live.any (fun q => q.2.nat b.toNat == 0 ||
            (decide (q.2.nat64 a.toNat / 128 ≤ e.1 / 128) &&
              decide (e.1 / 128 ≤ (q.2.nat64 a.toNat + q.2.nat b.toNat - 1) / 128))))))) ∧
    (∀ (a : Reg) (l : Nat) (t : Thread) (rest : List (Nat × Thread)) x,
      x = s.counted { Use.sysop [.two .va a] with level := .supervisor, control := true } →
      s.canIssue { Use.sysop [.two .va a] with level := .supervisor, control := true } = true → x.live = (l, t) :: rest →
      exec (.halt a) s = .next (if t.nat64 a.toNat ≠ 0 ∧ t.nat64 a.toNat ≤ s.deckle.early then x.finish
        else x.finish.modCore s.cur.core (fun k => { k with halted := some (t.nat64 a.toNat) }))) ∧
    (∀ (a d : Reg) (l : Nat) (t : Thread) (rest : List (Nat × Thread)) (ws : List Word) (x y : State),
      x = s.counted (Use.sysop [.one .vd d, .two .va a]) → s.canIssue (Use.sysop [.one .vd d, .two .va a]) = true →
      x.warp? = some w → x.live = (l, t) :: rest → t.nat64 a.toNat % 64 = 0 → x.heldLanes false false = [] →
      x.farUnits w (manifestUnits (t.nat64 a.toNat)) = .ok [] → x.readWords w [] [] 96 0 (t.nat64 a.toNat) = .ok (ws, y) →
      manifestOk (wordsBytes ws) = true → isControl s.cur.core = false →
      exec (.cmpman a d) s = .next (y.mapActive (fun _ t => t.set d.toNat (if t.helper then 0 else BitVec.ofNat 32
        (y.manifestDiff ((tget y.parts w.part).getD Part.idle) s.cur.core w.curSlot (y.launchSeed w) (wordsBytes ws))))).finish) ∧
    (∀ (a d : Reg) (good : List (Nat × Thread × Nat)) (x y : State),
      x = s.counted { Use.sysop [.one .vd d, .two .va a] with level := .supervisor, control := true, only := true } →
      s.canIssue { Use.sysop [.one .vd d, .two .va a] with level := .supervisor, control := true, only := true } = true →
      x.warp? = some w → x.heldLanes true true = [] → x.waitRefs w false 128 a.toNat x.live = (good.map (fun g => (g.1, g.2.1, .ok (.mem g.2.2))), y) →
      exec (.lnch a d) s = .next (good.foldl (fun s g => s.launchOne w d.toNat g.1 (g.2.1.nat64 a.toNat) g.2.2)
        (y.mapActive (fun _ t => if t.helper then t.set d.toNat 0 else t))).finish) ∧
    (∀ (a d : Reg) (l : Nat) (t : Thread) (x y : State), ∀ i ∈ [(Instr.chkpTake a d, 0),
        (.chkpPreempt a d, 1), (.chkpResume a d, 2)],
      x = s.counted { Use.sysop [.one .vd d, .one .va a] with level := .supervisor, control := true } →
      s.canIssue { Use.sysop [.one .vd d, .one .va a] with level := .supervisor, control := true } = true →
      x.warp? = some w → y = x.mapActive (fun _ t => if t.helper then t.set d.toNat 0 else t) → y.live = [(l, t)] →
      ∀ did, did = field (t.nat a.toNat) 15 0 →
      (∀ z v, y.chkpLane did i.2 = (z, v, []) →
        exec i.1 s = .next (z.modWarp (fun w => w.mapLanes (maskOf [l]) (fun _ t => t.set d.toNat (v.getD 1)))).finish) ∧
      (∀ z v p ps, y.chkpLane did i.2 = (z, v, p :: ps) →
        exec i.1 s = .next (((p :: ps).foldl (fun (z : State) p => z.modDomain p did (fun k => { k with
          askers := k.askers ++ [⟨s.cur.core, l, d.toNat, i.2, v⟩] })) z).modWarp (fun w =>
            w.mapLanes (maskOf [l]) (fun _ t => { t with wait := .domain }))).finish))

/-- O58. Engines, windows and the fabric (R201, R204, R212–R214, R218, R268, R279, R318, R329, R330, R337, R350–R354, R361,
R372–R374, R393). The arbiter grants passes and raises the watermark; a command that is complete leaves its table and its counter
falls; a fault stops its command and is posted. A copy engine moves units, each charged to its partition, is suspended or taken
over, and writes the completion word before the counter falls; how many units one event moves is the model's choice (log 22). Held
stores leave and land, window requests are applied and answered, answers go to the lanes that wait; the request of a sleeping
partition is kept at the hub (log 42). Packets of other packages are passed on. Ports go down and come up, with a notice. The flag
of FLIT_CRC_FAIL and that of PACKET_HOP, and how a lost or refused packet is answered, are the model's choices (log 31). -/
def Obligations.EngineAndFabricEvents : Prop :=
  ∀ (s x y : State) (e : EventData), e = s.ev →
    (∀ m w r, s.granted e.cluster = some m → s.warpAt? m.core m.slot = some w →
      (s.matPass e.cluster m w = (.ok x, r) → exec .matrixPass s = .next ((x.raiseMark e.cluster m.id e.num).settleTiles e.cluster)) ∧
      (∀ c va, s.matPass e.cluster m w = (.error (c, va), x) →
        exec .matrixFault s = .next (((x.modCmd e.cluster m.id (fun m => { m with stopped := true })).holdFault m.core m.slot
          (lateReport w c m.lane m.pc va m.id)).settleTiles e.cluster))) ∧
    (∀ k, s.granted e.cluster = none → tget s.clusters e.cluster = some k → k.table.any (fun m => m.id == e.id) = true →
      exec .matrixPass s = .next ((s.raiseMark e.cluster e.id e.num).settleTiles e.cluster)) ∧
    (∀ m, s.doneCmd e.cluster e.id true = some m → exec .mldbComplete s = .next (((s.modCluster e.cluster (fun k =>
      { k with table := k.table.filter (fun x => x.id != m.id) })).completeEngine m.core m.slot 1 m.id).settleTiles e.cluster)) ∧
    (∀ m, s.doneCmd e.cluster e.id false = some m →
      x = s.modCluster e.cluster (fun k =>
        let k1 := { k with table := k.table.filter (fun z => z.id != m.id) }
        match m.kind.tile with
        | some t => { k1 with tiles := k1.tiles.modify t (fun z => { z with mark := if k.later t m.id then z.mark else 64 }) }
        | none => k1) →
      exec .mloopComplete s = .next (((if m.flags = 0 then x else ((List.range 32).filter (laneIn m.lanes)).foldl
        (fun s n => s.giveFlags m.core m.slot n m.flags) x).completeEngine m.core m.slot 1 m.id).settleTiles e.cluster)) ∧
    (∀ l w, s.loads.find? (fun l => l.id == e.id) = some l → s.warpAt? l.core l.slot = some w →
      s.loads.find? (fun x => x.core == l.core && x.tslot == l.tslot) = some l → l.stopped = false →
      (∀ b slot, s.engineRead w false 2 l.addr 4096 = (.ok b, x) → (bytesWords b).all finite32 = true →
        slot = ⟨true, l.params.getD 0 0, l.params.getD 1 0, l.params.getD 2 0, l.params.getD 3 0, bytesWords b⟩ →
        exec .tmldApply s = .next ((({ x with loads := x.loads.filter (fun z => z.id != l.id) } : State).modCore l.core (fun k =>
          { k with tms := tput k.tms l.tslot slot })).completeEngine l.core l.slot 7 l.id)) ∧
      (∀ c va, s.engineRead w false 2 l.addr 4096 = (.error (c, va), x) → exec .tmldApply s = .next (({ x with
        loads := x.loads.map (fun z => if z.id = l.id then { z with stopped := true } else z) } : State).holdFault l.core l.slot
          (lateReport w c l.lane l.pc va l.id)))) ∧
    (∀ c, s.servedBy e.engine = some c → (s.copyUnits c.id e.clocks e.units = some x →
        exec .copyEngineStart s = .next x) ∧
      (s.putBack c e.units e.clocks = some x →
        (x.balance c.part ≤ 0 → exec .budgetSuspend s = .next x) ∧
        (∀ z, headCopy (s.waitingCopies e.part) = some z → (s.displaced z).map (·.id) = some c.id → 0 < s.balance z.part →
          exec .priorityTakeover s = .next (x.takeCopy e.engine z)))) ∧
    (∀ c, s.servedBy e.engine = none → headCopy (s.waitingCopies e.part) = some c → s.engineFor c.part e.engine = true →
      0 < s.balance c.part → exec .copyEngineStart s = .next (s.takeCopy e.engine c)) ∧
    (s.deckle.tick % 1000000 = 0 → s.deckle.tick ≠ s.refilled → exec .budgetRefill s = .next
      { s with parts := s.parts.map (fun p => (p.1, { p.2 with eot := p.2.eot.refill })), refilled := s.deckle.tick }) ∧
    (∀ c w n, s.copies.find? (fun c => c.id == e.id) = some c → s.warpAt? c.core c.slot = some w → c.engine = some n →
      (s.copyUnits c.id e.clocks (c.unitCount - c.units) = some x → x.copyDone c.id = true → x.doneFault c w = none →
        x.pushBlocked c = false → y = x.writeDone c w →
        exec .copyComplete s = .next (({ y with copies := y.copies.filter (fun z => z.id != c.id) } : State).completeEngine c.core
          c.slot c.cls c.id)) ∧
      (∀ z v f va m, s.copyUnits c.id e.clocks e.units = some x → x.copies.find? (fun c => c.id == e.id) = some z →
        x.warpAt? c.core c.slot = some v → z.engine = some m → z.units < z.unitCount →
        x.unitFault z v (x.bothWindows z v) z.units = some (f, va) →
        exec .enginePageFault s = .next ((x.modCopy z.id (fun c => { c with engine := none, stopped := true })).holdFault
          z.core z.slot (lateReport v f z.lane z.pc va z.id)))) ∧
    (∀ h, s.holds.find? (fun h => h.id == e.id && h.lane == e.lane && !h.left_) = some h → s.deckle.fail = false →
      h.stamp < s.deckle.early →
      x = { s with holds := s.holds.map (fun z => if z.id = h.id ∧ z.lane = h.lane then { z with left_ := true } else z) } →
      (h.remote = none → exec .ststHoldEnd s = .next (x.wakeWarp h.core h.slot (fun w => w == .time))) ∧
      (∀ w rpkg, h.remote = some (w, rpkg) → exec .ststHoldEnd s = .next ((x.sendPkt ⟨0, none, h.part, h.core, h.slot, h.lane, none,
        w, rpkg, h.addr, h.va, .stst h.stamp h.data, .time, s.pkg, s.keyOf h.part, s.nsOf h.part, false, false, false,
        some (5, h.id), none, false, false⟩).wakeWarp h.core h.slot (fun w => w == .time)))) ∧
    (∀ h, e.sender = s.pkg → s.holds.find? (fun h => h.stamp == e.num && h.left_ && h.remote.isNone) = some h →
      (s.landing s.pkg h.stamp s.deckle.late = none →
        exec .stampedArrival s = .next ((s.insertStamped h.addr h.stamp s.pkg h.data).endHold h none)) ∧
      (∀ c, s.landing s.pkg h.stamp s.deckle.late = some c → exec .stampedArrival s = .next (s.endHold h (some c)))) ∧
    (∀ p q, e.sender ≠ s.pkg → e.data.length = 16 → e.addr % 16 = 0 → s.keyHolder e.key = some (p, q) → q.sleep = 0 →
      s.winAdmits p q e.id2 e.sender e.flag e.addr (rotType (s.rotEntry e.addr) == 1) true false = true →
      s.landing e.sender e.num s.deckle.late = none →
      exec .stampedArrival s = .next ((s.insertStamped e.addr e.num e.sender e.data).replyTo e.sender [landCode none])) ∧
    (∀ p h t b, s.pktOut e.id = some p → p.kind = .stst t b →
      s.holds.find? (fun h => h.left_ && p.cnt == some (5, h.id) && h.lane == p.lane) = some h →
      exec .stampedStoreOutcome s = .next ((s.dropPkt p.id).endHold h (outcomeCause e.outcome))) ∧
    (∀ p lanes dst next z w, s.pend.find? (fun p => p.id == e.id) = some p → p.kind = .ldat lanes dst next →
      lanes.find? (fun x => x.lane == e.lane) = some z → s.warpAt? p.core p.slot = some w → s.deckle.refuses = false →
      z.tick + s.deckle.deltaRead < s.deckle.early →
      (∀ addr, s.recRef w false z.va = (.ok ⟨addr, none⟩, x) → exec .ldatServe s = .next
        ((x.commit p.core p.slot [⟨z.lane, ldatRegs dst (x.versionAt addr z.tick), 0⟩]).leaveQueue p z.lane)) ∧
      (∀ addr win rpkg, s.recRef w false z.va = (.ok ⟨addr, some (win, rpkg)⟩, x) → exec .ldatServe s = .next
        ((x.setPend p.id (.ldat (lanes.filter (fun y => y.lane != z.lane)) dst next)).sendPkt ⟨0, some p.id, w.part, p.core, p.slot,
          z.lane, none, win, rpkg, addr, z.va, .ldat z.tick dst, .time, s.pkg, s.keyOf w.part, s.nsOf w.part, false, false, false, none, none, false, false⟩)) ∧
      (∀ c, s.recRef w false z.va = (.error c, x) → exec .ldatServe s = .next (x.stopLdat p [z] c false))) ∧
    (∀ p q, e.op.fits = true → s.keyHolder e.key = some (p, q) → q.sleep = 0 →
      (s.winAdmits p q e.num e.sender e.flag e.addr (e.op.typeOk (rotType (s.rotEntry e.addr))) e.op.writes e.op.reads = true →
        exec .windowRequestArrival s = .next ((s.winApply p e.num e.addr e.op).1.replyTo e.sender (s.winApply p e.num e.addr e.op).2)) ∧
      (s.winAdmits p q e.num e.sender e.flag e.addr (e.op.typeOk (rotType (s.rotEntry e.addr))) e.op.writes e.op.reads = false →
        exec .windowRequestArrival s = .next (s.refuseTo e.sender))) ∧
    (∀ p q, e.op.fits = true → s.keyHolder e.key = some (p, q) → q.sleep ≠ 0 → exec .windowRequestArrival s = .next
      (({ s with asleep := s.asleep ++ [(p, Turn.event .windowRequestArrival e)] } : State).wakePart p)) ∧
    (e.op.fits = true → s.keyHolder e.key = none → exec .windowRequestArrival s = .next (s.keyMissed e.port e.sender)) ∧
    (∀ p data k n, s.pktOut e.id = some p → p.kind = .write data → p.cnt = some (k, n) → p.cmd = none →
      exec .windowAck s = .next ((((s.dropPkt p.id).winAdd p.part p.w false data.length).settleCount p.core p.slot k n).wakeFor p) ∧
      exec .windowRefusal s = .next ((((s.dropPkt p.id).deferWindow p n 3).settleCount p.core p.slot k n).wakeFor p)) ∧
    (∀ p size dst acq, s.pktOut e.id = some p → p.kind = .read size dst acq → p.cmd = none → e.data.length = size →
      exec .windowReadReturn s = .next ((((s.dropPkt p.id).answer p (loadRegs dst e.data) 0).acquireFor p acq).wakeFor p)) ∧
    (∀ p op v v2 rm cn dst acq, s.pktOut e.id = some p → p.kind = .atom op v v2 rm cn dst acq → e.data.length = op.size →
      exec .windowReadReturn s = .next ((((s.dropPkt p.id).answer p (loadRegs dst e.data) e.flags).acquireFor p acq).wakeFor p)) ∧
    (e.flag2 = false → e.named ≠ s.pkg →
      let l := s.fabric.openPorts e.flag e.named
      let hop (port : Option Nat) : Out := .next { s with nextId := s.nextId + 1, fabric := { s.fabric with
        hops := (match port with | some q => (e.named, q) :: s.fabric.hops | none => s.fabric.hops)
        transit := s.fabric.transit ++ [⟨s.nextId, e.named, e.sender, e.cls, e.flag, e.addr, port, false⟩] } }
      (l = [] → exec .packetHop s = .next (s.refuseTo e.sender)) ∧
      (e.cls ≠ .ordered → e.port ∈ l → exec .packetHop s = hop (some e.port)) ∧
      (e.cls = .ordered → l ≠ [] → exec .packetHop s =
        hop (if s.heldBehind e.named then none else s.fabric.orderedPort e.flag e.named e.addr))) ∧
    (e.flag2 = true → s.hopAcked e.id = some x → exec .packetHop s = .next x) ∧
    (e.port < 16 → s.fabric.ports.getLsbD e.port = true →
      (e.flag = false → exec .flitCrcFail s = .next { s with
        fabric := { s.fabric with retries := s.fabric.retries.set e.port 0 }
        element := { s.element with corrections := s.element.corrections + 1 } }) ∧
      (e.flag = true → s.fabric.retries.getD e.port 0 < 15 → exec .flitCrcFail s = .next { s with fabric := { s.fabric with
        retries := s.fabric.retries.set e.port (s.fabric.retries.getD e.port 0 + 1) } }) ∧
      (e.flag = true → 15 ≤ s.fabric.retries.getD e.port 0 → exec .flitCrcFail s = .next (s.portDown e.port e.named)) ∧
      exec .linkDown s = .next (s.portDown e.port e.named)) ∧
    (e.port < 16 → s.fabric.ports.getLsbD e.port = false → exec .portUp s = .next (({ s with fabric := { s.fabric with
      ports := s.fabric.ports ||| (1#16 <<< e.port) } } : State).logNotice 6 e.port s.pkg s.pkg)) ∧
    exec .linkFailureNotice s = .next (s.logNotice 1 (e.port % 16) e.sender e.named)

/-- O59. Events of traps, registers, domains and launches (R54, R55, R87, R143, R226, R227, R246, R257, R259, R276, R279,
R292–R298, R335, R380, R382, R400). Bundles at one place merge; lanes stopped for FPX, and reports held until a warp is still,
are delivered; a queue with room takes the records held. The four actions of TSTAT, the queue registers, DPART, PARTCFG, the
budgets and the time parameters take the values written, and a value refused changes nothing. Checkpoints fall due and are
saved, a domain leaves by rollback where it has no mark and is drained where it has one. Units are placed, warps and launches
end. (Model's choices: TSTAT actions 00 and 01 act on the lanes of the report, log 43; a regrouping ends the windows of FPX stops,
and held reports go in the order of log 46; what the end of a launch drops is log 33's.) -/
def Obligations.DomainAndRegisterEvents : Prop :=
  ∀ (s x : State) (e : EventData), e = s.ev →
    (∀ w, s.warpAt? e.core e.slot = some w →
      (w.collecting = false → exec .bundleRegroup s = .next (s.modWarpAt e.core e.slot Warp.regroup) ∧
        w.regroup = { w with bundles := mergeBundles w w.bundles }) ∧
      (w.collecting = true → exec .bundleRegroup s = .next (s.modWarpAt e.core e.slot Warp.regroup) ∧
        w.regroup = { w.collectFpx with bundles := mergeBundles w.collectFpx w.bundles }) ∧
      (w.collecting = true →
        exec .fpxWindowEnd s = .next ((s.modWarpAt e.core e.slot Warp.collectFpx).deliverPending e.core e.slot)) ∧
      (∀ r rest, w.susp = none → s.inFlight e.core e.slot = false → w.pendingTraps = r :: rest →
        ∀ i ∈ [(Instr.userTrapDelivery, false), (.faultRecordPost, true)], r.super = i.2 →
          exec i.1 s = .next ((s.modWarpAt e.core e.slot (fun w => { w with pendingTraps := rest })).deliver e.core e.slot r
            r.lanes)) ∧
      (∀ u, w.susp = some u →
        (u.report.op = none →
          exec .tstatResume s = .next (s.unsuspend e.core e.slot (fun w => ((w.mapLanes u.mask (fun _ t =>
            if t.exited then t else { t with pc := u.report.pc, wait := .run })).splitAll (s.cycle + 1)).release (s.cycle + 1))) ∧
          exec .tstatSkip s = .next (s.unsuspend e.core e.slot (fun z => ((z.mapLanes u.mask (fun _ t =>
            if t.exited then t else t.skip u.report.rem u.report.pc (s.skipPc e.core w u.report.pc))).splitAll (s.cycle + 1)).release
              (s.cycle + 1))) ∧
          ∀ c, Cause.ofCode e.num = some c → c.isSuper = false → c ≠ .compat →
            exec .tstatDeliver s = .next ((s.unsuspend e.core e.slot id).deliverLater e.core e.slot
              { u.report with cause := c, super := !w.gates.isEmpty, orig := 0, lanes := u.mask, posted := false })) ∧
        (∀ n, u.report.op = some n →
          exec .tstatResume s = .next ((s.unsuspend e.core e.slot id).replay n) ∧
          exec .tstatSkip s = .next ((s.unsuspend e.core e.slot id).giveUp e.core e.slot n u.report none)) ∧
        (∀ b, tget s.blocks w.block = some b →
          exec .tstatEndLaunch s = .next ((s.unsuspend e.core e.slot id).abortLaunch b.launch)))) ∧
    (∀ q, s.readyReport e.core e.slot = none → tget s.parts e.part = some q → q.heldRecs ≠ [] → s.queueValid e.part q = true →
      q.queueRoom = true → exec .faultRecordPost s = .next (s.postHeld e.part)) ∧
    (∀ q, tget s.parts e.part = some q → q.valid = true → s.partOf (576 + 2 * e.part) = some e.part →
      exec .fqheadWrite s = .next ((s.modPart e.part (fun q => { q with fqhead := e.word })).postAll e.part q.heldRecs.length) ∧
      exec .fqbaseWrite s = .next ((s.modPart e.part (fun q => if e.flag then { q with fqhi := e.word &&& 0xFFF }
        else { q with fqlo := e.word })).postAll e.part q.heldRecs.length) ∧
      exec .fqsizeWrite s = .next (let z := field e.word.toNat 4 0
        if z < 4 ∨ 16 < z then s
        else (s.modPart e.part (fun q => { q with fqsize := BitVec.ofNat 32 z })).postAll e.part q.heldRecs.length) ∧
      exec .migctlSwitch s = .next (s.modPart e.part (fun q =>
        q.writeMigctl (BitVec.ofNat 32 ((if q.migEn then 1 else 0) + 4 + 256 * q.migLog))))) ∧
    (∀ t, s.thread? e.core e.slot e.lane = some t →
      (t.exited = false → exec .meetvWrite s = .next (s.modWarpAt e.core e.slot (fun w => w.setMeetv e.lane e.word (s.cycle + 1)))) ∧
      (t.exited = false → e.num = 0x014 → exec .registerWrite s = .next (s.modWarpAt e.core e.slot (fun w =>
        w.setMeetv e.lane e.word (s.cycle + 1)))) ∧
      (e.num < 0x080 → e.num ≠ 0x042 → e.num ≠ 0x013 → e.num ≠ 0x014 →
        (∀ y, t.writeReg e.num e.word = some y → exec .registerWrite s = .next
          (s.modWarpAt e.core e.slot (fun w => { w with threads := tput w.threads e.lane y }))) ∧
        (t.writeReg e.num e.word = none → exec .registerWrite s = .next s))) ∧
    (∀ w, e.num = 0x013 → s.warpAt? e.core e.slot = some w → exec .registerWrite s = .next (if partnOk e.word then
      s.modWarpAt e.core e.slot (fun w => { w with partn := e.word &&& 7 }) else s)) ∧
    (∀ q, e.num = 0x042 → tget s.parts e.part = some q → exec .registerWrite s = .next (s.modPart e.part (fun q =>
      { q with lattol := e.word }))) ∧
    (0x080 ≤ e.num → exec .registerWrite s = .next ((s.writeCoreReg e.core false e.num e.value).getD s)) ∧
    (e.slot < 4 → isControl e.core = false → exec .dpartWrite s = .next ((s.writeDpart e.core e.slot e.value).getD s)) ∧
    exec .partcfgWrite s = .next ((s.writePartcfg e.word).getD s) ∧
    (e.num < 12 → exec .eothiWrite s = .next (s.putPart e.num (fun q => { q with eot := q.eot.setBudget e.word }))) ∧
    (∀ i ∈ [(Instr.epsmaxsetWrite, false), (.dlvbsetWrite, true)], exec i.1 s = .next ((s.announce i.2 e.word.toNat).getD s)) ∧
    ((s.domain e.part e.did).out = false → (s.domain e.part e.did).due = false → s.ckDue e.part e.did = true →
      exec .checkpointDue s = .next ((s.modDomain e.part e.did (fun d => { d with due := true, dueAt := s.deckle.early })).stopDomain
        e.part e.did)) ∧
    ((s.domain e.part e.did).due = true → s.quiet e.part e.did = true →
      exec .checkpointSave s = .next (s.takeCheckpoint e.part e.did)) ∧
    (s.mayLeave e.part e.did = true →
      ((s.domain e.part e.did).mark = false → s.gateOpen e.part e.did = false →
        exec .preemptRollback s = .next (s.rollback e.part e.did)) ∧
      (((s.domain e.part e.did).mark || s.gateOpen e.part e.did) = true →
        exec .preemptDrain s = .next (s.drainDomain e.part e.did))) ∧
    (∀ q, tget s.parts e.part = some q → q.valid = true → q.failed = false → q.maint = false → q.sleep = 0 →
      s.placeFirst [] (s.heads e.part) = some x → exec .dispatchPlace s = .next x) ∧
    (∀ w, s.warpAt? e.core e.slot = some w → isControl e.core = false → s.warpDone e.core e.slot w = true →
      x = (({ s with launches := tmod s.launches (match tget s.blocks w.block with | some b => b.launch | none => 0) (fun l =>
        { l with lastTick := max l.lastTick w.lastTick }) } : State).dropSet e.core e.slot).modCore e.core (fun k =>
          { k with warps := tdel k.warps e.slot }) →
      exec .warpEnd s = .next (if (x.core e.core).warps.any (fun y => y.2.block == w.block) then x else x.endBlock w.block)) ∧
    (∀ k l, tget s.launches e.launch = some k → x = s.settleCores k → tget x.launches e.launch = some l →
      l.total ≤ l.next → l.total ≤ l.ended →
      (l.phase = .running → exec .launchComplete s =
        .next (if l.det then x.compareDigest e.launch l else x.concludeLaunch e.launch l 0x03 true)) ∧
      (∀ u, l.phase = .serial u → exec .launchComplete s = .next (if l.digest = l.recorded
        then x.concludeLaunch e.launch l 0x04 true else x.concludeLaunch e.launch l 0x16 false))) ∧
    (∀ l u, tget s.launches e.launch = some l → l.phase = .serial u →
      (∀ q, tget s.parts l.part = some q → q.starts = true → l.ended = u * l.unit → u * l.unit < l.total → (s.settleCores l).placeUnit e.launch l l.unit (u * l.unit) = some x →
        exec .serialUnitStart s = .next { x with launches := tmod x.launches e.launch (fun y => { y with phase := .serial (u + 1) }) }) ∧
      (s.blocksOf e.launch ≠ [] → s.quietFor e.launch (s.stallLimit l.part) = true →
        x = ((s.endBlocks (s.blocksOf e.launch)).drain (fun r => (r.part == l.part && r.did == l.did) ||
          r.from_.any (fun f => (l.placed.map (·.2)).contains f.1))).settleCores l →
        exec .serialStall s = .next ((if ((tget x.launches e.launch).getD l).fixed then x
          else x.undoLaunch ((tget x.launches e.launch).getD l)).concludeLaunch e.launch l 0x17 false)))

/-- O60. Events of time and the platform (R275, R277, R330–R335, R342–R344, R360–R362, R388–R399). The deckle's beats, candidates,
changes and notices; what the host writes and reads in a mailbox and in the request page; the start of the hypervisor and of a
partition's image; each request of the management element that is served leaves its result in RES and state 2 with the low half of
SEQ in STAT, one with an unknown command state 3; sleep and waking, clocks, and the checks of the hardware. (Model's choices: the
start registers of an image, the event that makes and serves a request at once, BULK kept where it brings none, the flags that tell
whose access it is, and word 0 of NOTICES, log 27; what the servo of another origin states is not taken, log 40; fields 8 and 9 of
MANIFEST and QUOTE, log 48; which pages a mailbox has, log 72.) -/
def Obligations.TimeAndPlatformEvents : Prop :=
  ∀ (s : State) (e : EventData), e = s.ev →
    let asked (k : Nat) (x : State) : Prop := e.flag = false ∧ ((s.element.req = some k ∧ x = s) ∨ (s.element.req = none ∧ x = { s with
      element := { s.element with
        seq := e.word, arg := fit 240 e.data, bulk := if e.bulk.isEmpty then s.element.bulk else e.bulk
        req := some k, stat := (s.element.stat &&& 0xFFFF0000) ||| 1 } }))
    let ends (y : State) (code : Nat) (res : List Byte) : Host.Outcome State Fault Refusal := .next { y with
      element := { y.element with
        req := none, stat := BitVec.ofNat 32 (code + 65536 * (y.element.seq.toNat % 65536)), res := res } }
    let d := s.deckle
    (d.tick % 1024 = 0 → e.port < 16 → exec .timeBeatSend s = .next { s with fabric := { s.fabric with
      sentNotices := ⟨0, e.port, s.pkg, d.clock, d.unc⟩ :: s.fabric.sentNotices } }) ∧
    (∀ c x eps, e.port < 16 → eps = e.bound + Config.portAsymmetry e.port % 8 + 1 →
      c = ⟨1 + e.port, e.time + e.delay, eps, d.tick, e.sender⟩ → x = { d with heard := tput d.heard e.port d.tick } →
      ((e.flag || d.excluded.contains e.sender) = true → exec .timeBeatReceive s = .next { s with deckle := x }) ∧
      (∀ y, (e.flag || d.excluded.contains e.sender) = false →
        y = (if (d.ref && Config.sharesOrigin s.pkg) = true then x.accept c else x.lock c) →
        ((d.fail || meetsInterval (e.time + e.delay) eps d.clock d.eps) = true →
          exec .timeBeatReceive s = .next { s with deckle := y }) ∧
        ((d.fail || meetsInterval (e.time + e.delay) eps d.clock d.eps) = false →
          exec .timeBeatReceive s = .next (({ s with deckle := y } : State).sendNotice 2 0 e.sender)))) ∧
    (∀ c, d.ref = true → 1 ≤ e.bound → c = ⟨0, e.time, e.bound, d.tick, s.pkg⟩ →
      (e.bound ≤ d.epsMax → d.eps = 0xFFFFFFFF → exec .referenceLock s = .next
        (if Config.sharesOrigin s.pkg then { s with deckle := d.lock c } else s)) ∧
      (d.eps ≠ 0xFFFFFFFF ∨ d.epsMax < e.bound → exec .servoCandidate s = .next
        (if Config.sharesOrigin s.pkg then { s with deckle := d.accept c } else s))) ∧
    (d.fail = false → (e.flag || d.conflict) = true → exec .deckleFail s = .next ((s.setFail false).sendNotice 2 0 s.pkg)) ∧
    (65536 ≤ d.tick - (tget d.heard e.port).getD 0 → e.port < 16 →
      exec .neighbourSilence s = .next (s.sendNotice 2 0 e.named)) ∧
    (e.named = s.pkg →
      (e.sender ≠ s.pkg → exec .timeExclusionNotice s = .next ((s.logNotice 2 0 e.sender e.named).setFail true)) ∧
      (e.sender = s.pkg → exec .timeExclusionNotice s = .next (s.logNotice 2 0 e.sender e.named))) ∧
    (e.named ≠ s.pkg → exec .timeExclusionNotice s = .next (let x := s.logNotice 2 0 e.sender e.named
      { x with deckle := { x.deckle with
        excluded := if x.deckle.excluded.contains e.named then x.deckle.excluded else x.deckle.excluded ++ [e.named]
        candidates := x.deckle.candidates.filter (fun c => c.source == ownClock || c.sender != e.named) } })) ∧
    (d.fail = true → d.eps ≠ 0xFFFFFFFF → 1000000 ≤ d.good → e.flag = true → exec .rejoin s = .next
      (({ s with deckle := ({ d with fail := false, xcl := false, good := 0 } : Deckle).use d.tick } : State).sendNotice 3 0 s.pkg)) ∧
    (exec .rejoinNotice s = .next (let x := s.logNotice 3 0 e.sender e.sender
      { x with deckle := { x.deckle with excluded := x.deckle.excluded.erase e.sender } })) ∧
    (exec .paramNotice s = .next (let x := s.logNotice 4 0 e.sender 0
      { x with deckle := { x.deckle with changes := x.deckle.changes ++ [⟨e.flag, e.num, e.time, none⟩] } })) ∧
    (∀ c, d.changes.find? (fun c => c.deltas.isNone && decide (c.tick < d.early)) = some c →
      exec .paramSwitch s = .next { s with deckle := d.switch c }) ∧
    (s.refillDue = false → (∀ c ∈ d.changes, c.deltas.isSome = true ∨ d.early ≤ c.tick) → d.fail = true ∨ d.conflict = false →
      s.beforeTick = s) ∧
    (∀ x : State, x = { s.beforeTick with deckle := s.beforeTick.deckle.step } → exec .deckleTick s = .next
      ((if x.deckle.refuses then x.failLdats else x).endTimedHalts.wake (fun y => y == .time))) ∧
    (e.flag3 = true →
      (e.flag = false → exec .hostRead s = .next { s with hostReads := fit e.size (s.requestPage.drop e.addr) :: s.hostReads }) ∧
      (e.flag = true → exec .hostRead s = .next s.denyRequest) ∧
      (e.data ≠ [] → e.addr + e.data.length ≤ 65536 →
        exec .hostMailboxWrite s = .next (if e.flag then s.denyRequest else s.requestWrite) ∧
        (s.element.req.isSome = true → s.requestWrite.element.req = s.element.req ∧ s.requestWrite.element.stat = s.element.stat))) ∧
    (e.flag = true → s.denyRequest.element = { s.element with denied := e.part :: s.element.denied } ∧
      ∀ i ∈ [Instr.quote, .manifest, .rtread, .rtwrite, .rtflip, .fabstat, .notices, .maintopen, .maintclose],
        exec i s = .next s.denyRequest) ∧
    (e.flag2 = true → e.flag3 = false → exec .hostRead s = .next
      { s with hostReads := fit e.size ((s.configPage e.part).drop e.addr) :: s.hostReads }) ∧
    (s.sleeps e.part = false →
      (s.inMailbox e.part e.addr e.data.length = true → e.flag3 = false → exec .hostMailboxWrite s = .next
        ((s.homeWriteLong (e.data.length / 128 + 2) e.addr e.data).endHalts e.part)) ∧
      (s.inMailbox e.part e.addr e.size = true → e.flag2 = false → e.flag3 = false →
        exec .hostRead s = .next { s with hostReads := s.homeRead e.addr e.size :: s.hostReads })) ∧
    (s.sleeps e.part = true →
      (s.inMailbox e.part e.addr e.data.length = true → e.flag3 = false → exec .hostMailboxWrite s = .next (s.holdAtHub e.part .hostMailboxWrite)) ∧
      (s.inMailbox e.part e.addr e.size = true → e.flag2 = false → e.flag3 = false →
        exec .hostRead s = .next (s.holdAtHub e.part .hostRead))) ∧
    (s.element.boot = 0 → s.element.reports = [] → e.num < 8192 →
      (e.flag = true → e.flag2 = true → e.flag3 = true → ∃ t, exec .powerOnBoot s = .next t ∧ t.pkg = e.num ∧ t.secLo = e.id ∧
        t.secHi = e.id2 ∧ t.element.boot = 4 ∧ t.mem = s.mem ∧ ∀ c, isControl c = true → c < 600 →
          (t.core c).warps = [(0, imageWarp noPart .hypervisor ⟨e.addr, e.size⟩ e.word (s.cycle + 1) d.tick)]) ∧
      (e.flag = false → exec .powerOnBoot s = .next (s.reportFailure 1))) ∧
    (∀ q, tget s.parts e.part = some q → s.element.boot = 4 → q.valid = true → q.started = false → e.flag = true →
      ∃ t, exec .partitionImageStart s = .next t ∧ t.mem = s.mem ∧ (∃ p, tget t.parts e.part = some p ∧ p.started = true ∧
        p.image = e.data.take 64) ∧ ∀ c ∈ controlCores, controlIn e.part q c = true →
          (t.core c).warps = [(0, imageWarp e.part .supervisor ⟨e.addr, e.size⟩ e.word (s.cycle + 1) d.tick)]) ∧
    (∀ x p q, x.argPart = some (p, q) → (asked 0x02 x → exec .manifest s = ends x 2 (x.partManifest p q)) ∧
      ∀ b, b = x.partManifest p q ++ ((fit 240 x.element.arg).drop 16).take 32 ++ bytesOf 4 x.pkg ++ List.replicate 28 0 →
        asked 0x01 x → exec .quote s = ends x 2 (b ++ bytesOf 64 (Config.deviceSignature (sha512 b)).toNat)) ∧
    (∀ x b n k, x.routeArg = (b, n, k) → 0 < k → n + k ≤ 8192 →
      (k ≤ 960 → asked 0x10 x → exec .rtread s = ends x 2 (wordsBytes ((List.range k).map (fun i => x.fabric.entry b (n + i))))) ∧
      (b ≠ x.fabric.active → x.drained = true → asked 0x11 x → exec .rtwrite s = ends { x with
        fabric := x.fabric.write b n ((bytesWords (fit (4 * k) x.element.bulk)).take k) } 2 [])) ∧
    (∀ x y, asked 0x12 x →
      y = (({ x with fabric := { x.fabric with active := !x.fabric.active } } : State).sendNotice 7 0 x.pkg).sendAll →
      exec .rtflip s = ends y 2 (bytesOf 4 y.rtsel)) ∧
    (∀ x, asked 0x13 x → exec .fabstat s =
      ends (if bit (x.argWord 0) 0 then { x with fabric := { x.fabric with keymiss := List.replicate 16 0 } } else x) 2
        (bytesOf 4 x.rtsel ++ bytesOf 4 x.fabric.ports.toNat ++ x.fabric.keymiss.flatMap (bytesOf 4))) ∧
    (∀ x l, asked 0x20 x → l = (x.element.noticesFrom (x.argWord 0)).take 239 →
      exec .notices s = ends x 2 (bytesOf 4 x.element.nextNotice ++ bytesOf 4 l.length ++ l.flatMap Notice.bytes)) ∧
    (∀ x y l, asked 0x30 x → x.argWord 0 < 4096 → x.element.window = false → l = (List.range 12).filter (bit (x.argWord 0)) →
      (∀ p ∈ l, ∃ q, tget x.parts p = some q ∧ q.valid = true ∧ x.partIdle p q = true) →
      y = l.foldl (fun s p => s.modPart p (fun q => { q with maint := true })) x →
      exec .maintopen s = ends { y with element := { y.element with window := true } } 2 []) ∧
    (∀ x khz, asked 0x31 x → x.element.window = true → khz = x.element.arithKhz - 25000 * e.num → exec .maintclose s = ends { x with
        parts := x.parts.map (fun p => (p.1, { p.2 with maint := false }))
        element := { x.element with
          window := false, arithKhz := khz, arithMhz := min x.element.arithMhz (khz / 1000), slow := [] } } 2
        (bytesOf 4 khz ++ bytesOf 4 x.element.l2Khz)) ∧
    (∀ x, badRequest (s.element.req.getD e.num) = true → asked (s.element.req.getD e.num) x →
      exec .reqUnknownCommand s = ends x (3 + 256) x.element.res) ∧
    (∀ q, tget s.parts e.part = some q → q.valid = true →
      (q.sleep = 0 → s.partIdle e.part q = true → deepest q.lattol.toNat ≠ 0 → exec .partitionSleep s =
        .next (s.modPart e.part (fun y => { y with sleep := deepest q.lattol.toNat, waking := false }))) ∧
      (q.sleep ≠ 0 → exec .partitionWakeEvent s = .next (s.wakePart e.part)) ∧
      (∀ x : State, q.sleep ≠ 0 → q.waking = true →
        x = { s.modPart e.part (fun y => { y with sleep := 0, waking := false }) with asleep := s.asleep.filter (fun z => z.1 != e.part) } →
        exec .wakeComplete s = .next (((s.asleep.filter (fun z => z.1 == e.part)).map (·.2)).foldl State.serveHeld x)) ∧
      (e.flag = false → exec .patrolScrub s = .next (s.machineCheck e.part q)) ∧
      exec .machineCheck s = .next (s.machineCheck e.part q)) ∧
    (e.flag = true → exec .patrolScrub s = .next { s with element := { s.element with corrections := s.element.corrections + 1 } }) ∧
    (exec .powerGovernor s = .next { s with element := { s.element with
      arithMhz := if e.flag then max 425 (s.element.arithMhz - 25) else min (s.element.arithKhz / 1000) (s.element.arithMhz + 25) } }) ∧
    (exec .marginLow s = .next { s with element := { s.element with
      slow := if s.element.slow.contains e.num then s.element.slow else s.element.slow ++ [e.num] } })
end

