-- ==== Sys2Proof/Laws/Dispatch.lean ====
section
/-!
SUPPORT. The arms of exec, one equation each, so that no proof unfolds the dispatch.
-/

namespace Sys2Proof.Machine

@[simp] theorem exec_add (b : Reg) (a : Reg) (d : Reg) (s : State) : exec (.add b a d) s = execAdd b a d s := rfl
@[simp] theorem exec_sub (b : Reg) (a : Reg) (d : Reg) (s : State) : exec (.sub b a d) s = execSub b a d s := rfl
@[simp] theorem exec_mul (b : Reg) (a : Reg) (d : Reg) (s : State) : exec (.mul b a d) s = execMul b a d s := rfl
@[simp] theorem exec_mulhu (b : Reg) (a : Reg) (d : Reg) (s : State) : exec (.mulhu b a d) s = execMulhu b a d s := rfl
@[simp] theorem exec_mulhs (b : Reg) (a : Reg) (d : Reg) (s : State) : exec (.mulhs b a d) s = execMulhs b a d s := rfl
@[simp] theorem exec_mad (b : Reg) (a : Reg) (d : Reg) (s : State) : exec (.mad b a d) s = execMad b a d s := rfl
@[simp] theorem exec_and (b : Reg) (a : Reg) (d : Reg) (s : State) : exec (.and b a d) s = execAnd b a d s := rfl
@[simp] theorem exec_or (b : Reg) (a : Reg) (d : Reg) (s : State) : exec (.or b a d) s = execOr b a d s := rfl
@[simp] theorem exec_xor (b : Reg) (a : Reg) (d : Reg) (s : State) : exec (.xor b a d) s = execXor b a d s := rfl
@[simp] theorem exec_andn (b : Reg) (a : Reg) (d : Reg) (s : State) : exec (.andn b a d) s = execAndn b a d s := rfl
@[simp] theorem exec_shl (b : Reg) (a : Reg) (d : Reg) (s : State) : exec (.shl b a d) s = execShl b a d s := rfl
@[simp] theorem exec_shru (b : Reg) (a : Reg) (d : Reg) (s : State) : exec (.shru b a d) s = execShru b a d s := rfl
@[simp] theorem exec_shrs (b : Reg) (a : Reg) (d : Reg) (s : State) : exec (.shrs b a d) s = execShrs b a d s := rfl
@[simp] theorem exec_rotl (b : Reg) (a : Reg) (d : Reg) (s : State) : exec (.rotl b a d) s = execRotl b a d s := rfl
@[simp] theorem exec_addp (b : Reg) (a : Reg) (d : Reg) (s : State) : exec (.addp b a d) s = execAddp b a d s := rfl
@[simp] theorem exec_sel (b : Reg) (a : Reg) (d : Reg) (s : State) : exec (.sel b a d) s = execSel b a d s := rfl
@[simp] theorem exec_mins (b : Reg) (a : Reg) (d : Reg) (s : State) : exec (.mins b a d) s = execMins b a d s := rfl
@[simp] theorem exec_minu (b : Reg) (a : Reg) (d : Reg) (s : State) : exec (.minu b a d) s = execMinu b a d s := rfl
@[simp] theorem exec_maxs (b : Reg) (a : Reg) (d : Reg) (s : State) : exec (.maxs b a d) s = execMaxs b a d s := rfl
@[simp] theorem exec_maxu (b : Reg) (a : Reg) (d : Reg) (s : State) : exec (.maxu b a d) s = execMaxu b a d s := rfl
@[simp] theorem exec_clz (a : Reg) (d : Reg) (s : State) : exec (.clz a d) s = execClz a d s := rfl
@[simp] theorem exec_popc (a : Reg) (d : Reg) (s : State) : exec (.popc a d) s = execPopc a d s := rfl
@[simp] theorem exec_brev (a : Reg) (d : Reg) (s : State) : exec (.brev a d) s = execBrev a d s := rfl
@[simp] theorem exec_cmpeq (b : Reg) (a : Reg) (d : Reg) (s : State) : exec (.cmpeq b a d) s = execCmpeq b a d s := rfl
@[simp] theorem exec_cmpne (b : Reg) (a : Reg) (d : Reg) (s : State) : exec (.cmpne b a d) s = execCmpne b a d s := rfl
@[simp] theorem exec_cmplts (b : Reg) (a : Reg) (d : Reg) (s : State) : exec (.cmplts b a d) s = execCmplts b a d s := rfl
@[simp] theorem exec_cmpltu (b : Reg) (a : Reg) (d : Reg) (s : State) : exec (.cmpltu b a d) s = execCmpltu b a d s := rfl
@[simp] theorem exec_cmples (b : Reg) (a : Reg) (d : Reg) (s : State) : exec (.cmples b a d) s = execCmples b a d s := rfl
@[simp] theorem exec_cmpleu (b : Reg) (a : Reg) (d : Reg) (s : State) : exec (.cmpleu b a d) s = execCmpleu b a d s := rfl
@[simp] theorem exec_bfx (b : Reg) (a : Reg) (d : Reg) (s : State) : exec (.bfx b a d) s = execBfx b a d s := rfl
@[simp] theorem exec_bfi (b : Reg) (a : Reg) (d : Reg) (s : State) : exec (.bfi b a d) s = execBfi b a d s := rfl
@[simp] theorem exec_addi (im : BitVec 11) (a : Reg) (d : Reg) (s : State) : exec (.addi im a d) s = execAddi im a d s := rfl
@[simp] theorem exec_andi (im : BitVec 11) (a : Reg) (d : Reg) (s : State) : exec (.andi im a d) s = execAndi im a d s := rfl
@[simp] theorem exec_ori (im : BitVec 11) (a : Reg) (d : Reg) (s : State) : exec (.ori im a d) s = execOri im a d s := rfl
@[simp] theorem exec_xori (im : BitVec 11) (a : Reg) (d : Reg) (s : State) : exec (.xori im a d) s = execXori im a d s := rfl
@[simp] theorem exec_shli (c : BitVec 5) (a : Reg) (d : Reg) (s : State) : exec (.shli c a d) s = execShli c a d s := rfl
@[simp] theorem exec_shrui (c : BitVec 5) (a : Reg) (d : Reg) (s : State) : exec (.shrui c a d) s = execShrui c a d s := rfl
@[simp] theorem exec_shrsi (c : BitVec 5) (a : Reg) (d : Reg) (s : State) : exec (.shrsi c a d) s = execShrsi c a d s := rfl
@[simp] theorem exec_rotli (c : BitVec 5) (a : Reg) (d : Reg) (s : State) : exec (.rotli c a d) s = execRotli c a d s := rfl
@[simp] theorem exec_cmpeqi (im : BitVec 9) (a : Reg) (d : Reg) (s : State) : exec (.cmpeqi im a d) s = execCmpeqi im a d s := rfl
@[simp] theorem exec_cmpltsi (im : BitVec 9) (a : Reg) (d : Reg) (s : State) : exec (.cmpltsi im a d) s = execCmpltsi im a d s := rfl
@[simp] theorem exec_cmpltui (im : BitVec 9) (a : Reg) (d : Reg) (s : State) : exec (.cmpltui im a d) s = execCmpltui im a d s := rfl
@[simp] theorem exec_cmpnei (im : BitVec 9) (a : Reg) (d : Reg) (s : State) : exec (.cmpnei im a d) s = execCmpnei im a d s := rfl
@[simp] theorem exec_addpi (im : BitVec 11) (a : Reg) (d : Reg) (s : State) : exec (.addpi im a d) s = execAddpi im a d s := rfl
@[simp] theorem exec_lui (im : BitVec 18) (d : Reg) (s : State) : exec (.lui im d) s = execLui im d s := rfl
@[simp] theorem exec_auip (im : BitVec 18) (d : Reg) (s : State) : exec (.auip im d) s = execAuip im d s := rfl
@[simp] theorem exec_movri (a : Reg) (d : Reg) (s : State) : exec (.movri a d) s = execMovri a d s := rfl
@[simp] theorem exec_movro (a : Reg) (d : Reg) (s : State) : exec (.movro a d) s = execMovro a d s := rfl
@[simp] theorem exec_mov16 (sx : BitVec 5) (d : BitVec 5) (s : State) : exec (.mov16 sx d) s = execMov16 sx d s := rfl
@[simp] theorem exec_movi16 (im : BitVec 5) (d : BitVec 5) (s : State) : exec (.movi16 im d) s = execMovi16 im d s := rfl
@[simp] theorem exec_add16 (sx : BitVec 5) (d : BitVec 5) (s : State) : exec (.add16 sx d) s = execAdd16 sx d s := rfl
@[simp] theorem exec_addi16 (im : BitVec 5) (d : BitVec 5) (s : State) : exec (.addi16 im d) s = execAddi16 im d s := rfl
@[simp] theorem exec_sub16 (sx : BitVec 5) (d : BitVec 5) (s : State) : exec (.sub16 sx d) s = execSub16 sx d s := rfl
@[simp] theorem exec_subi16 (im : BitVec 5) (d : BitVec 5) (s : State) : exec (.subi16 im d) s = execSubi16 im d s := rfl
@[simp] theorem exec_mul16 (sx : BitVec 5) (d : BitVec 5) (s : State) : exec (.mul16 sx d) s = execMul16 sx d s := rfl
@[simp] theorem exec_muli16 (im : BitVec 5) (d : BitVec 5) (s : State) : exec (.muli16 im d) s = execMuli16 im d s := rfl
@[simp] theorem exec_and16 (sx : BitVec 5) (d : BitVec 5) (s : State) : exec (.and16 sx d) s = execAnd16 sx d s := rfl
@[simp] theorem exec_andi16 (im : BitVec 5) (d : BitVec 5) (s : State) : exec (.andi16 im d) s = execAndi16 im d s := rfl
@[simp] theorem exec_or16 (sx : BitVec 5) (d : BitVec 5) (s : State) : exec (.or16 sx d) s = execOr16 sx d s := rfl
@[simp] theorem exec_ori16 (im : BitVec 5) (d : BitVec 5) (s : State) : exec (.ori16 im d) s = execOri16 im d s := rfl
@[simp] theorem exec_xor16 (sx : BitVec 5) (d : BitVec 5) (s : State) : exec (.xor16 sx d) s = execXor16 sx d s := rfl
@[simp] theorem exec_xori16 (im : BitVec 5) (d : BitVec 5) (s : State) : exec (.xori16 im d) s = execXori16 im d s := rfl
@[simp] theorem exec_shl16 (sx : BitVec 5) (d : BitVec 5) (s : State) : exec (.shl16 sx d) s = execShl16 sx d s := rfl
@[simp] theorem exec_shli16 (c : BitVec 5) (d : BitVec 5) (s : State) : exec (.shli16 c d) s = execShli16 c d s := rfl
@[simp] theorem exec_shru16 (sx : BitVec 5) (d : BitVec 5) (s : State) : exec (.shru16 sx d) s = execShru16 sx d s := rfl
@[simp] theorem exec_shrui16 (c : BitVec 5) (d : BitVec 5) (s : State) : exec (.shrui16 c d) s = execShrui16 c d s := rfl
@[simp] theorem exec_shrs16 (sx : BitVec 5) (d : BitVec 5) (s : State) : exec (.shrs16 sx d) s = execShrs16 sx d s := rfl
@[simp] theorem exec_shrsi16 (c : BitVec 5) (d : BitVec 5) (s : State) : exec (.shrsi16 c d) s = execShrsi16 c d s := rfl
@[simp] theorem exec_mins16 (sx : BitVec 5) (d : BitVec 5) (s : State) : exec (.mins16 sx d) s = execMins16 sx d s := rfl
@[simp] theorem exec_minsi16 (im : BitVec 5) (d : BitVec 5) (s : State) : exec (.minsi16 im d) s = execMinsi16 im d s := rfl
@[simp] theorem exec_maxs16 (sx : BitVec 5) (d : BitVec 5) (s : State) : exec (.maxs16 sx d) s = execMaxs16 sx d s := rfl
@[simp] theorem exec_maxsi16 (im : BitVec 5) (d : BitVec 5) (s : State) : exec (.maxsi16 im d) s = execMaxsi16 im d s := rfl
@[simp] theorem exec_fadd16 (sx : BitVec 5) (d : BitVec 5) (s : State) : exec (.fadd16 sx d) s = execFadd16 sx d s := rfl
@[simp] theorem exec_fsub16 (sx : BitVec 5) (d : BitVec 5) (s : State) : exec (.fsub16 sx d) s = execFsub16 sx d s := rfl
@[simp] theorem exec_fmul16 (sx : BitVec 5) (d : BitVec 5) (s : State) : exec (.fmul16 sx d) s = execFmul16 sx d s := rfl
@[simp] theorem exec_fmax16 (sx : BitVec 5) (d : BitVec 5) (s : State) : exec (.fmax16 sx d) s = execFmax16 sx d s := rfl
@[simp] theorem exec_fadd (b : Reg) (a : Reg) (d : Reg) (s : State) : exec (.fadd b a d) s = execFadd b a d s := rfl
@[simp] theorem exec_fsub (b : Reg) (a : Reg) (d : Reg) (s : State) : exec (.fsub b a d) s = execFsub b a d s := rfl
@[simp] theorem exec_fmul (b : Reg) (a : Reg) (d : Reg) (s : State) : exec (.fmul b a d) s = execFmul b a d s := rfl
@[simp] theorem exec_ffma (b : Reg) (a : Reg) (d : Reg) (s : State) : exec (.ffma b a d) s = execFfma b a d s := rfl
@[simp] theorem exec_ffms (b : Reg) (a : Reg) (d : Reg) (s : State) : exec (.ffms b a d) s = execFfms b a d s := rfl
@[simp] theorem exec_fnfma (b : Reg) (a : Reg) (d : Reg) (s : State) : exec (.fnfma b a d) s = execFnfma b a d s := rfl
@[simp] theorem exec_fmin (b : Reg) (a : Reg) (d : Reg) (s : State) : exec (.fmin b a d) s = execFmin b a d s := rfl
@[simp] theorem exec_fmax (b : Reg) (a : Reg) (d : Reg) (s : State) : exec (.fmax b a d) s = execFmax b a d s := rfl
@[simp] theorem exec_frnd (a : Reg) (d : Reg) (s : State) : exec (.frnd a d) s = execFrnd a d s := rfl
@[simp] theorem exec_fcls (a : Reg) (d : Reg) (s : State) : exec (.fcls a d) s = execFcls a d s := rfl
@[simp] theorem exec_fscalebB0 (b : Reg) (a : Reg) (d : Reg) (s : State) : exec (.fscalebB0 b a d) s = execFscalebB0 b a d s := rfl
@[simp] theorem exec_fscalebB1 (b : Reg) (a : Reg) (d : Reg) (s : State) : exec (.fscalebB1 b a d) s = execFscalebB1 b a d s := rfl
@[simp] theorem exec_fscalebB2 (b : Reg) (a : Reg) (d : Reg) (s : State) : exec (.fscalebB2 b a d) s = execFscalebB2 b a d s := rfl
@[simp] theorem exec_fscalebB3 (b : Reg) (a : Reg) (d : Reg) (s : State) : exec (.fscalebB3 b a d) s = execFscalebB3 b a d s := rfl
@[simp] theorem exec_fabs (a : Reg) (d : Reg) (s : State) : exec (.fabs a d) s = execFabs a d s := rfl
@[simp] theorem exec_fneg (a : Reg) (d : Reg) (s : State) : exec (.fneg a d) s = execFneg a d s := rfl
@[simp] theorem exec_fcmp (cc : Cmp) (sig : Bool) (b : Reg) (a : Reg) (d : Reg) (s : State) : exec (.fcmp cc sig b a d) s = execFcmp cc sig b a d s := rfl
@[simp] theorem exec_dcmp (cc : Cmp) (sig : Bool) (b : Reg) (a : Reg) (d : Reg) (s : State) : exec (.dcmp cc sig b a d) s = execDcmp cc sig b a d s := rfl
@[simp] theorem exec_dadd (b : Reg) (a : Reg) (d : Reg) (s : State) : exec (.dadd b a d) s = execDadd b a d s := rfl
@[simp] theorem exec_dsub (b : Reg) (a : Reg) (d : Reg) (s : State) : exec (.dsub b a d) s = execDsub b a d s := rfl
@[simp] theorem exec_dmul (b : Reg) (a : Reg) (d : Reg) (s : State) : exec (.dmul b a d) s = execDmul b a d s := rfl
@[simp] theorem exec_dfma (b : Reg) (a : Reg) (d : Reg) (s : State) : exec (.dfma b a d) s = execDfma b a d s := rfl
@[simp] theorem exec_dmin (b : Reg) (a : Reg) (d : Reg) (s : State) : exec (.dmin b a d) s = execDmin b a d s := rfl
@[simp] theorem exec_dmax (b : Reg) (a : Reg) (d : Reg) (s : State) : exec (.dmax b a d) s = execDmax b a d s := rfl
@[simp] theorem exec_drnd (a : Reg) (d : Reg) (s : State) : exec (.drnd a d) s = execDrnd a d s := rfl
@[simp] theorem exec_dabs (a : Reg) (d : Reg) (s : State) : exec (.dabs a d) s = execDabs a d s := rfl
@[simp] theorem exec_dneg (a : Reg) (d : Reg) (s : State) : exec (.dneg a d) s = execDneg a d s := rfl
@[simp] theorem exec_hadd2 (b : Reg) (a : Reg) (d : Reg) (s : State) : exec (.hadd2 b a d) s = execHadd2 b a d s := rfl
@[simp] theorem exec_hsub2 (b : Reg) (a : Reg) (d : Reg) (s : State) : exec (.hsub2 b a d) s = execHsub2 b a d s := rfl
@[simp] theorem exec_hmul2 (b : Reg) (a : Reg) (d : Reg) (s : State) : exec (.hmul2 b a d) s = execHmul2 b a d s := rfl
@[simp] theorem exec_hfma2 (b : Reg) (a : Reg) (d : Reg) (s : State) : exec (.hfma2 b a d) s = execHfma2 b a d s := rfl
@[simp] theorem exec_hmin2 (b : Reg) (a : Reg) (d : Reg) (s : State) : exec (.hmin2 b a d) s = execHmin2 b a d s := rfl
@[simp] theorem exec_hmax2 (b : Reg) (a : Reg) (d : Reg) (s : State) : exec (.hmax2 b a d) s = execHmax2 b a d s := rfl
@[simp] theorem exec_badd2 (b : Reg) (a : Reg) (d : Reg) (s : State) : exec (.badd2 b a d) s = execBadd2 b a d s := rfl
@[simp] theorem exec_bsub2 (b : Reg) (a : Reg) (d : Reg) (s : State) : exec (.bsub2 b a d) s = execBsub2 b a d s := rfl
@[simp] theorem exec_bmul2 (b : Reg) (a : Reg) (d : Reg) (s : State) : exec (.bmul2 b a d) s = execBmul2 b a d s := rfl
@[simp] theorem exec_bfma2 (b : Reg) (a : Reg) (d : Reg) (s : State) : exec (.bfma2 b a d) s = execBfma2 b a d s := rfl
@[simp] theorem exec_bmin2 (b : Reg) (a : Reg) (d : Reg) (s : State) : exec (.bmin2 b a d) s = execBmin2 b a d s := rfl
@[simp] theorem exec_bmax2 (b : Reg) (a : Reg) (d : Reg) (s : State) : exec (.bmax2 b a d) s = execBmax2 b a d s := rfl
@[simp] theorem exec_cvt (t : Bool) (r : Rm) (c : NumFmt) (e : NumFmt) (a : Reg) (d : Reg) (s : State) : exec (.cvt t r c e a d) s = execCvt t r c e a d s := rfl
@[simp] theorem exec_dot8S8 (b : Reg) (a : Reg) (d : Reg) (s : State) : exec (.dot8S8 b a d) s = execDot8S8 b a d s := rfl
@[simp] theorem exec_dot8U8 (b : Reg) (a : Reg) (d : Reg) (s : State) : exec (.dot8U8 b a d) s = execDot8U8 b a d s := rfl
@[simp] theorem exec_dot8E4m3 (b : Reg) (a : Reg) (d : Reg) (s : State) : exec (.dot8E4m3 b a d) s = execDot8E4m3 b a d s := rfl
@[simp] theorem exec_dot8E5m2 (b : Reg) (a : Reg) (d : Reg) (s : State) : exec (.dot8E5m2 b a d) s = execDot8E5m2 b a d s := rfl
@[simp] theorem exec_dot4S4 (b : Reg) (a : Reg) (d : Reg) (s : State) : exec (.dot4S4 b a d) s = execDot4S4 b a d s := rfl
@[simp] theorem exec_dot4E2m1 (b : Reg) (a : Reg) (d : Reg) (s : State) : exec (.dot4E2m1 b a d) s = execDot4E2m1 b a d s := rfl
@[simp] theorem exec_frcp (L : BitVec 4) (a : Reg) (d : Reg) (s : State) : exec (.frcp L a d) s = execFrcp L a d s := rfl
@[simp] theorem exec_frsq (L : BitVec 4) (a : Reg) (d : Reg) (s : State) : exec (.frsq L a d) s = execFrsq L a d s := rfl
@[simp] theorem exec_fsqrt (L : BitVec 4) (a : Reg) (d : Reg) (s : State) : exec (.fsqrt L a d) s = execFsqrt L a d s := rfl
@[simp] theorem exec_fexp2 (L : BitVec 4) (a : Reg) (d : Reg) (s : State) : exec (.fexp2 L a d) s = execFexp2 L a d s := rfl
@[simp] theorem exec_flog2 (L : BitVec 4) (a : Reg) (d : Reg) (s : State) : exec (.flog2 L a d) s = execFlog2 L a d s := rfl
@[simp] theorem exec_fsin (L : BitVec 4) (a : Reg) (d : Reg) (s : State) : exec (.fsin L a d) s = execFsin L a d s := rfl
@[simp] theorem exec_fcos (L : BitVec 4) (a : Reg) (d : Reg) (s : State) : exec (.fcos L a d) s = execFcos L a d s := rfl
@[simp] theorem exec_ftanh (L : BitVec 4) (a : Reg) (d : Reg) (s : State) : exec (.ftanh L a d) s = execFtanh L a d s := rfl
@[simp] theorem exec_frcpCr (r : Rm) (L : BitVec 4) (a : Reg) (d : Reg) (s : State) : exec (.frcpCr r L a d) s = execFrcpCr r L a d s := rfl
@[simp] theorem exec_frsqCr (r : Rm) (L : BitVec 4) (a : Reg) (d : Reg) (s : State) : exec (.frsqCr r L a d) s = execFrsqCr r L a d s := rfl
@[simp] theorem exec_fsqrtCr (r : Rm) (L : BitVec 4) (a : Reg) (d : Reg) (s : State) : exec (.fsqrtCr r L a d) s = execFsqrtCr r L a d s := rfl
@[simp] theorem exec_drcp (r : Rm) (L : BitVec 4) (a : Reg) (d : Reg) (s : State) : exec (.drcp r L a d) s = execDrcp r L a d s := rfl
@[simp] theorem exec_drsq (r : Rm) (L : BitVec 4) (a : Reg) (d : Reg) (s : State) : exec (.drsq r L a d) s = execDrsq r L a d s := rfl
@[simp] theorem exec_dsqrt (r : Rm) (L : BitVec 4) (a : Reg) (d : Reg) (s : State) : exec (.dsqrt r L a d) s = execDsqrt r L a d s := rfl
@[simp] theorem exec_shfl (b : Reg) (a : Reg) (d : Reg) (s : State) : exec (.shfl b a d) s = execShfl b a d s := rfl
@[simp] theorem exec_shfllo (b : Reg) (a : Reg) (d : Reg) (s : State) : exec (.shfllo b a d) s = execShfllo b a d s := rfl
@[simp] theorem exec_shflhi (b : Reg) (a : Reg) (d : Reg) (s : State) : exec (.shflhi b a d) s = execShflhi b a d s := rfl
@[simp] theorem exec_shflx (b : Reg) (a : Reg) (d : Reg) (s : State) : exec (.shflx b a d) s = execShflx b a d s := rfl
@[simp] theorem exec_bcast (b : Reg) (a : Reg) (d : Reg) (s : State) : exec (.bcast b a d) s = execBcast b a d s := rfl
@[simp] theorem exec_voteAny (a : Reg) (d : Reg) (s : State) : exec (.voteAny a d) s = execVoteAny a d s := rfl
@[simp] theorem exec_voteAll (a : Reg) (d : Reg) (s : State) : exec (.voteAll a d) s = execVoteAll a d s := rfl
@[simp] theorem exec_voteBal (a : Reg) (d : Reg) (s : State) : exec (.voteBal a d) s = execVoteBal a d s := rfl
@[simp] theorem exec_matchB (a : Reg) (d : Reg) (s : State) : exec (.matchB a d) s = execMatchB a d s := rfl
@[simp] theorem exec_matchF (a : Reg) (d : Reg) (s : State) : exec (.matchF a d) s = execMatchF a d s := rfl
@[simp] theorem exec_redwAdd (a : Reg) (d : Reg) (s : State) : exec (.redwAdd a d) s = execRedwAdd a d s := rfl
@[simp] theorem exec_redwMin (a : Reg) (d : Reg) (s : State) : exec (.redwMin a d) s = execRedwMin a d s := rfl
@[simp] theorem exec_redwMax (a : Reg) (d : Reg) (s : State) : exec (.redwMax a d) s = execRedwMax a d s := rfl
@[simp] theorem exec_scanwAdd (a : Reg) (d : Reg) (s : State) : exec (.scanwAdd a d) s = execScanwAdd a d s := rfl
@[simp] theorem exec_tilep (sx : BitVec 7) (d : Reg) (s : State) : exec (.tilep sx d) s = execTilep sx d s := rfl
@[simp] theorem exec_qswpH (a : Reg) (d : Reg) (s : State) : exec (.qswpH a d) s = execQswpH a d s := rfl
@[simp] theorem exec_qswpV (a : Reg) (d : Reg) (s : State) : exec (.qswpV a d) s = execQswpV a d s := rfl
@[simp] theorem exec_qswpD (a : Reg) (d : Reg) (s : State) : exec (.qswpD a d) s = execQswpD a d s := rfl
@[simp] theorem exec_qbcast (n : BitVec 7) (a : Reg) (d : Reg) (s : State) : exec (.qbcast n a d) s = execQbcast n a d s := rfl
@[simp] theorem exec_qredAdd (a : Reg) (d : Reg) (s : State) : exec (.qredAdd a d) s = execQredAdd a d s := rfl
@[simp] theorem exec_qredMin (a : Reg) (d : Reg) (s : State) : exec (.qredMin a d) s = execQredMin a d s := rfl
@[simp] theorem exec_qredMax (a : Reg) (d : Reg) (s : State) : exec (.qredMax a d) s = execQredMax a d s := rfl
@[simp] theorem exec_fredwAdd (a : Reg) (d : Reg) (s : State) : exec (.fredwAdd a d) s = execFredwAdd a d s := rfl
@[simp] theorem exec_fredwMin (a : Reg) (d : Reg) (s : State) : exec (.fredwMin a d) s = execFredwMin a d s := rfl
@[simp] theorem exec_fredwMax (a : Reg) (d : Reg) (s : State) : exec (.fredwMax a d) s = execFredwMax a d s := rfl
@[simp] theorem exec_tmclr (L : BitVec 4) (d : Reg) (s : State) : exec (.tmclr L d) s = execTmclr L d s := rfl
@[simp] theorem exec_tment (L : BitVec 4) (a : Reg) (d : Reg) (s : State) : exec (.tment L a d) s = execTment L a d s := rfl
@[simp] theorem exec_tmacc (L : BitVec 4) (a : Reg) (d : Reg) (s : State) : exec (.tmacc L a d) s = execTmacc L a d s := rfl
@[simp] theorem exec_tmmrg (L : BitVec 4) (a : Reg) (d : Reg) (s : State) : exec (.tmmrg L a d) s = execTmmrg L a d s := rfl
@[simp] theorem exec_tmredw (L : BitVec 4) (d : Reg) (s : State) : exec (.tmredw L d) s = execTmredw L d s := rfl
@[simp] theorem exec_tmexit (L : BitVec 4) (a : Reg) (d : Reg) (s : State) : exec (.tmexit L a d) s = execTmexit L a d s := rfl
@[simp] theorem exec_tmld (L : BitVec 4) (sx : BitVec 3) (a : Reg) (d : Reg) (s : State) : exec (.tmld L sx a d) s = execTmld L sx a d s := rfl
@[simp] theorem exec_ld (o : Ord) (k : Hint) (L : BitVec 4) (z : Sz) (a : Reg) (d : Reg) (s : State) : exec (.ld o k L z a d) s = execLd o k L z a d s := rfl
@[simp] theorem exec_st (o : Ord) (k : Hint) (L : BitVec 4) (z : Sz) (a : Reg) (d : Reg) (s : State) : exec (.st o k L z a d) s = execSt o k L z a d s := rfl
@[simp] theorem exec_lds (L : BitVec 4) (z : Sz) (a : Reg) (d : Reg) (s : State) : exec (.lds L z a d) s = execLds L z a d s := rfl
@[simp] theorem exec_ldsSync (L : BitVec 4) (a : Reg) (d : Reg) (s : State) : exec (.ldsSync L a d) s = execLdsSync L a d s := rfl
@[simp] theorem exec_ldsPeek (L : BitVec 4) (a : Reg) (d : Reg) (s : State) : exec (.ldsPeek L a d) s = execLdsPeek L a d s := rfl
@[simp] theorem exec_sts (L : BitVec 4) (z : Sz) (a : Reg) (d : Reg) (s : State) : exec (.sts L z a d) s = execSts L z a d s := rfl
@[simp] theorem exec_stsSync (L : BitVec 4) (a : Reg) (d : Reg) (s : State) : exec (.stsSync L a d) s = execStsSync L a d s := rfl
@[simp] theorem exec_stsFill (L : BitVec 4) (a : Reg) (d : Reg) (s : State) : exec (.stsFill L a d) s = execStsFill L a d s := rfl
@[simp] theorem exec_stsEmpty (L : BitVec 4) (a : Reg) (s : State) : exec (.stsEmpty L a) s = execStsEmpty L a s := rfl
@[simp] theorem exec_ldx (h : Bool) (L : BitVec 4) (sx : BitVec 4) (a : Reg) (d : Reg) (s : State) : exec (.ldx h L sx a d) s = execLdx h L sx a d s := rfl
@[simp] theorem exec_stx (h : Bool) (L : BitVec 4) (sx : BitVec 4) (a : Reg) (d : Reg) (s : State) : exec (.stx h L sx a d) s = execStx h L sx a d s := rfl
@[simp] theorem exec_pref (k : Bool) (a : Reg) (s : State) : exec (.pref k a) s = execPref k a s := rfl
@[simp] theorem exec_fence (e : Bool) (k : FenceKind) (sx : Scope) (s : State) : exec (.fence e k sx) s = execFence e k sx s := rfl
@[simp] theorem exec_waita (o : Bool) (k : WaitCond) (z : Bool) (a : Reg) (d : Reg) (s : State) : exec (.waita o k z a d) s = execWaita o k z a d s := rfl
@[simp] theorem exec_bsig (b : Reg) (a : Reg) (s : State) : exec (.bsig b a) s = execBsig b a s := rfl
@[simp] theorem exec_bwait (b : Reg) (a : Reg) (s : State) : exec (.bwait b a) s = execBwait b a s := rfl
@[simp] theorem exec_brdc (a : Reg) (d : Reg) (s : State) : exec (.brdc a d) s = execBrdc a d s := rfl
@[simp] theorem exec_waitc (c : BitVec 3) (n : BitVec 6) (s : State) : exec (.waitc c n) s = execWaitc c n s := rfl
@[simp] theorem exec_atom (L : BitVec 4) (ar : Bool) (sc : BitVec 2) (o : AtomOp) (a : Reg) (d : Reg) (s : State) : exec (.atom L ar sc o a d) s = execAtom L ar sc o a d s := rfl
@[simp] theorem exec_red (L : BitVec 4) (sat : Bool) (cn : Bool) (fz : Bool) (o : AtomOp) (a : Reg) (d : Reg) (s : State) : exec (.red L sat cn fz o a d) s = execRed L sat cn fz o a d s := rfl
@[simp] theorem exec_redTm (L : BitVec 4) (a : Reg) (d : Reg) (s : State) : exec (.redTm L a d) s = execRedTm L a d s := rfl
@[simp] theorem exec_atoms (L : BitVec 4) (ar : Bool) (sc : BitVec 2) (o : AtomOp) (a : Reg) (d : Reg) (s : State) : exec (.atoms L ar sc o a d) s = execAtoms L ar sc o a d s := rfl
@[simp] theorem exec_bra (d : BitVec 21) (s : State) : exec (.bra d) s = execBra d s := rfl
@[simp] theorem exec_bz (d : BitVec 17) (p : Reg) (s : State) : exec (.bz d p) s = execBz d p s := rfl
@[simp] theorem exec_bnz (d : BitVec 17) (p : Reg) (s : State) : exec (.bnz d p) s = execBnz d p s := rfl
@[simp] theorem exec_call (im : BitVec 18) (d : Reg) (s : State) : exec (.call im d) s = execCall im d s := rfl
@[simp] theorem exec_ret (a : Reg) (s : State) : exec (.ret a) s = execRet a s := rfl
@[simp] theorem exec_jtab (b : Reg) (a : Reg) (s : State) : exec (.jtab b a) s = execJtab b a s := rfl
@[simp] theorem exec_callt (b : Reg) (a : Reg) (d : Reg) (s : State) : exec (.callt b a d) s = execCallt b a d s := rfl
@[simp] theorem exec_trap (a : Reg) (s : State) : exec (.trap a) s = execTrap a s := rfl
@[simp] theorem exec_lpad (l : BitVec 25) (s : State) : exec (.lpad l) s = execLpad l s := rfl
@[simp] theorem exec_meet (im : BitVec 18) (d : Reg) (s : State) : exec (.meet im d) s = execMeet im d s := rfl
@[simp] theorem exec_gcall (n : BitVec 11) (s : State) : exec (.gcall n) s = execGcall n s := rfl
@[simp] theorem exec_timei (d : Reg) (s : State) : exec (.timei d) s = execTimei d s := rfl
@[simp] theorem exec_commitw (a : Reg) (s : State) : exec (.commitw a) s = execCommitw a s := rfl
@[simp] theorem exec_stst (L : BitVec 4) (a : Reg) (d : Reg) (s : State) : exec (.stst L a d) s = execStst L a d s := rfl
@[simp] theorem exec_ldat (L : BitVec 4) (a : Reg) (d : Reg) (s : State) : exec (.ldat L a d) s = execLdat L a d s := rfl
@[simp] theorem exec_cpy (L : BitVec 4) (a : Reg) (d : Reg) (s : State) : exec (.cpy L a d) s = execCpy L a d s := rfl
@[simp] theorem exec_cpytIn (L : BitVec 4) (a : Reg) (d : Reg) (s : State) : exec (.cpytIn L a d) s = execCpytIn L a d s := rfl
@[simp] theorem exec_cpytOut (L : BitVec 4) (a : Reg) (d : Reg) (s : State) : exec (.cpytOut L a d) s = execCpytOut L a d s := rfl
@[simp] theorem exec_halo (L : BitVec 4) (a : Reg) (d : Reg) (s : State) : exec (.halo L a d) s = execHalo L a d s := rfl
@[simp] theorem exec_wstr (L : BitVec 4) (sx : Sz) (a : Reg) (d : Reg) (s : State) : exec (.wstr L sx a d) s = execWstr L sx a d s := rfl
@[simp] theorem exec_wget (L : BitVec 4) (sx : Sz) (a : Reg) (d : Reg) (s : State) : exec (.wget L sx a d) s = execWget L sx a d s := rfl
@[simp] theorem exec_wcnt (L : BitVec 4) (c : Bool) (a : Reg) (d : Reg) (s : State) : exec (.wcnt L c a d) s = execWcnt L c a d s := rfl
@[simp] theorem exec_wwait (q : Bool) (c : Bool) (a : Reg) (d : Reg) (s : State) : exec (.wwait q c a d) s = execWwait q c a d s := rfl
@[simp] theorem exec_mloop (L : BitVec 4) (sx : BitVec 2) (a : Reg) (d : Reg) (s : State) : exec (.mloop L sx a d) s = execMloop L sx a d s := rfl
@[simp] theorem exec_mldb (L : BitVec 4) (a : Reg) (d : Reg) (s : State) : exec (.mldb L a d) s = execMldb L a d s := rfl
@[simp] theorem exec_mrd (L : BitVec 4) (t : BitVec 2) (a : Reg) (d : Reg) (s : State) : exec (.mrd L t a d) s = execMrd L t a d s := rfl
@[simp] theorem exec_mwm (L : BitVec 4) (t : BitVec 2) (d : Reg) (s : State) : exec (.mwm L t d) s = execMwm L t d s := rfl
@[simp] theorem exec_mzero (L : BitVec 4) (t : BitVec 2) (s : State) : exec (.mzero L t) s = execMzero L t s := rfl
@[simp] theorem exec_mrel (L : BitVec 4) (t : BitVec 2) (s : State) : exec (.mrel L t) s = execMrel L t s := rfl
@[simp] theorem exec_rndm (b : Reg) (a : Reg) (d : Reg) (s : State) : exec (.rndm b a d) s = execRndm b a d s := rfl
@[simp] theorem exec_srd (r : BitVec 11) (d : Reg) (s : State) : exec (.srd r d) s = execSrd r d s := rfl
@[simp] theorem exec_swr (r : BitVec 11) (d : Reg) (s : State) : exec (.swr r d) s = execSwr r d s := rfl
@[simp] theorem exec_tlbinv (b : Reg) (a : Reg) (s : State) : exec (.tlbinv b a) s = execTlbinv b a s := rfl
@[simp] theorem exec_rotinv (b : Reg) (a : Reg) (s : State) : exec (.rotinv b a) s = execRotinv b a s := rfl
@[simp] theorem exec_cmpman (a : Reg) (d : Reg) (s : State) : exec (.cmpman a d) s = execCmpman a d s := rfl
@[simp] theorem exec_lnch (a : Reg) (d : Reg) (s : State) : exec (.lnch a d) s = execLnch a d s := rfl
@[simp] theorem exec_chkpTake (a : Reg) (d : Reg) (s : State) : exec (.chkpTake a d) s = execChkpTake a d s := rfl
@[simp] theorem exec_chkpPreempt (a : Reg) (d : Reg) (s : State) : exec (.chkpPreempt a d) s = execChkpPreempt a d s := rfl
@[simp] theorem exec_chkpResume (a : Reg) (d : Reg) (s : State) : exec (.chkpResume a d) s = execChkpResume a d s := rfl
@[simp] theorem exec_halt (a : Reg) (s : State) : exec (.halt a) s = execHalt a s := rfl
@[simp] theorem exec_icinv (b : Reg) (a : Reg) (s : State) : exec (.icinv b a) s = execIcinv b a s := rfl
@[simp] theorem exec_tlrwRd (n : BitVec 7) (d : Reg) (s : State) : exec (.tlrwRd n d) s = execTlrwRd n d s := rfl
@[simp] theorem exec_tlrwWr (n : BitVec 7) (d : Reg) (s : State) : exec (.tlrwWr n d) s = execTlrwWr n d s := rfl
@[simp] theorem exec_repPfx (sx : BitVec 2) (x : Bool) (y : Bool) (z : Bool) (c : BitVec 6) (s : State) : exec (.repPfx sx x y z c) s = execRepPfx sx x y z c s := rfl
@[simp] theorem exec_modPfx (f : Bool) (z : Bool) (u : Bool) (r : BitVec 2) (o : Bool) (p : BitVec 2) (q : Bool) (e : BitVec 3) (s : State) : exec (.modPfx f z u r o p q e) s = execModPfx f z u r o p q e s := rfl
@[simp] theorem exec_divs (b : Reg) (a : Reg) (d : Reg) (s : State) : exec (.divs b a d) s = execDivs b a d s := rfl
@[simp] theorem exec_divu (b : Reg) (a : Reg) (d : Reg) (s : State) : exec (.divu b a d) s = execDivu b a d s := rfl
@[simp] theorem exec_rems (b : Reg) (a : Reg) (d : Reg) (s : State) : exec (.rems b a d) s = execRems b a d s := rfl
@[simp] theorem exec_remu (b : Reg) (a : Reg) (d : Reg) (s : State) : exec (.remu b a d) s = execRemu b a d s := rfl
@[simp] theorem exec_byteperm (b : Reg) (a : Reg) (d : Reg) (s : State) : exec (.byteperm b a d) s = execByteperm b a d s := rfl
@[simp] theorem exec_ldc32 (L : BitVec 4) (a : Reg) (d : Reg) (s : State) : exec (.ldc32 L a d) s = execLdc32 L a d s := rfl
@[simp] theorem exec_sfuComplete (s : State) : exec .sfuComplete s = execSfuComplete s := rfl
@[simp] theorem exec_wfence (s : State) : exec .wfence s = execWfence s := rfl
@[simp] theorem exec_tmldApply (s : State) : exec .tmldApply s = execTmldApply s := rfl
@[simp] theorem exec_loadReturn (s : State) : exec .loadReturn s = execLoadReturn s := rfl
@[simp] theorem exec_monitorTimeout (s : State) : exec .monitorTimeout s = execMonitorTimeout s := rfl
@[simp] theorem exec_syncb (s : State) : exec .syncb s = execSyncb s := rfl
@[simp] theorem exec_atomReturn (s : State) : exec .atomReturn s = execAtomReturn s := rfl
@[simp] theorem exec_exit (s : State) : exec .exit s = execExit s := rfl
@[simp] theorem exec_yield (s : State) : exec .yield s = execYield s := rfl
@[simp] theorem exec_nop (s : State) : exec .nop s = execNop s := rfl
@[simp] theorem exec_brk (s : State) : exec .brk s = execBrk s := rfl
@[simp] theorem exec_gret (s : State) : exec .gret s = execGret s := rfl
@[simp] theorem exec_matrixPass (s : State) : exec .matrixPass s = execMatrixPass s := rfl
@[simp] theorem exec_mldbComplete (s : State) : exec .mldbComplete s = execMldbComplete s := rfl
@[simp] theorem exec_mloopComplete (s : State) : exec .mloopComplete s = execMloopComplete s := rfl
@[simp] theorem exec_matrixFault (s : State) : exec .matrixFault s = execMatrixFault s := rfl
@[simp] theorem exec_eret0 (s : State) : exec .eret0 s = execEret0 s := rfl
@[simp] theorem exec_eret1 (s : State) : exec .eret1 s = execEret1 s := rfl
@[simp] theorem exec_xlock (s : State) : exec .xlock s = execXlock s := rfl
@[simp] theorem exec_xunlk (s : State) : exec .xunlk s = execXunlk s := rfl
@[simp] theorem exec_tfence (s : State) : exec .tfence s = execTfence s := rfl
@[simp] theorem exec_barsync (s : State) : exec .barsync s = execBarsync s := rfl
@[simp] theorem exec_bundleRegroup (s : State) : exec .bundleRegroup s = execBundleRegroup s := rfl
@[simp] theorem exec_fpxWindowEnd (s : State) : exec .fpxWindowEnd s = execFpxWindowEnd s := rfl
@[simp] theorem exec_userTrapDelivery (s : State) : exec .userTrapDelivery s = execUserTrapDelivery s := rfl
@[simp] theorem exec_faultRecordPost (s : State) : exec .faultRecordPost s = execFaultRecordPost s := rfl
@[simp] theorem exec_pageWalkComplete (s : State) : exec .pageWalkComplete s = execPageWalkComplete s := rfl
@[simp] theorem exec_tstatResume (s : State) : exec .tstatResume s = execTstatResume s := rfl
@[simp] theorem exec_tstatSkip (s : State) : exec .tstatSkip s = execTstatSkip s := rfl
@[simp] theorem exec_tstatDeliver (s : State) : exec .tstatDeliver s = execTstatDeliver s := rfl
@[simp] theorem exec_tstatEndLaunch (s : State) : exec .tstatEndLaunch s = execTstatEndLaunch s := rfl
@[simp] theorem exec_fqheadWrite (s : State) : exec .fqheadWrite s = execFqheadWrite s := rfl
@[simp] theorem exec_fqsizeWrite (s : State) : exec .fqsizeWrite s = execFqsizeWrite s := rfl
@[simp] theorem exec_meetvWrite (s : State) : exec .meetvWrite s = execMeetvWrite s := rfl
@[simp] theorem exec_dpartWrite (s : State) : exec .dpartWrite s = execDpartWrite s := rfl
@[simp] theorem exec_partcfgWrite (s : State) : exec .partcfgWrite s = execPartcfgWrite s := rfl
@[simp] theorem exec_eothiWrite (s : State) : exec .eothiWrite s = execEothiWrite s := rfl
@[simp] theorem exec_epsmaxsetWrite (s : State) : exec .epsmaxsetWrite s = execEpsmaxsetWrite s := rfl
@[simp] theorem exec_dlvbsetWrite (s : State) : exec .dlvbsetWrite s = execDlvbsetWrite s := rfl
@[simp] theorem exec_migctlSwitch (s : State) : exec .migctlSwitch s = execMigctlSwitch s := rfl
@[simp] theorem exec_registerWrite (s : State) : exec .registerWrite s = execRegisterWrite s := rfl
@[simp] theorem exec_asyncFlagArrival (s : State) : exec .asyncFlagArrival s = execAsyncFlagArrival s := rfl
@[simp] theorem exec_dirtyLineWriteback (s : State) : exec .dirtyLineWriteback s = execDirtyLineWriteback s := rfl
@[simp] theorem exec_homeApply (s : State) : exec .homeApply s = execHomeApply s := rfl
@[simp] theorem exec_vatApply (s : State) : exec .vatApply s = execVatApply s := rfl
@[simp] theorem exec_routerMerge (s : State) : exec .routerMerge s = execRouterMerge s := rfl
@[simp] theorem exec_dualBackgroundCopy (s : State) : exec .dualBackgroundCopy s = execDualBackgroundCopy s := rfl
@[simp] theorem exec_dispatchPlace (s : State) : exec .dispatchPlace s = execDispatchPlace s := rfl
@[simp] theorem exec_warpEnd (s : State) : exec .warpEnd s = execWarpEnd s := rfl
@[simp] theorem exec_launchComplete (s : State) : exec .launchComplete s = execLaunchComplete s := rfl
@[simp] theorem exec_serialUnitStart (s : State) : exec .serialUnitStart s = execSerialUnitStart s := rfl
@[simp] theorem exec_serialStall (s : State) : exec .serialStall s = execSerialStall s := rfl
@[simp] theorem exec_checkpointDue (s : State) : exec .checkpointDue s = execCheckpointDue s := rfl
@[simp] theorem exec_checkpointSave (s : State) : exec .checkpointSave s = execCheckpointSave s := rfl
@[simp] theorem exec_preemptRollback (s : State) : exec .preemptRollback s = execPreemptRollback s := rfl
@[simp] theorem exec_preemptDrain (s : State) : exec .preemptDrain s = execPreemptDrain s := rfl
@[simp] theorem exec_copyEngineStart (s : State) : exec .copyEngineStart s = execCopyEngineStart s := rfl
@[simp] theorem exec_budgetSuspend (s : State) : exec .budgetSuspend s = execBudgetSuspend s := rfl
@[simp] theorem exec_priorityTakeover (s : State) : exec .priorityTakeover s = execPriorityTakeover s := rfl
@[simp] theorem exec_budgetRefill (s : State) : exec .budgetRefill s = execBudgetRefill s := rfl
@[simp] theorem exec_copyComplete (s : State) : exec .copyComplete s = execCopyComplete s := rfl
@[simp] theorem exec_enginePageFault (s : State) : exec .enginePageFault s = execEnginePageFault s := rfl
@[simp] theorem exec_timeBeatSend (s : State) : exec .timeBeatSend s = execTimeBeatSend s := rfl
@[simp] theorem exec_timeBeatReceive (s : State) : exec .timeBeatReceive s = execTimeBeatReceive s := rfl
@[simp] theorem exec_referenceLock (s : State) : exec .referenceLock s = execReferenceLock s := rfl
@[simp] theorem exec_deckleFail (s : State) : exec .deckleFail s = execDeckleFail s := rfl
@[simp] theorem exec_neighbourSilence (s : State) : exec .neighbourSilence s = execNeighbourSilence s := rfl
@[simp] theorem exec_timeExclusionNotice (s : State) : exec .timeExclusionNotice s = execTimeExclusionNotice s := rfl
@[simp] theorem exec_rejoin (s : State) : exec .rejoin s = execRejoin s := rfl
@[simp] theorem exec_rejoinNotice (s : State) : exec .rejoinNotice s = execRejoinNotice s := rfl
@[simp] theorem exec_paramNotice (s : State) : exec .paramNotice s = execParamNotice s := rfl
@[simp] theorem exec_paramSwitch (s : State) : exec .paramSwitch s = execParamSwitch s := rfl
@[simp] theorem exec_ststHoldEnd (s : State) : exec .ststHoldEnd s = execStstHoldEnd s := rfl
@[simp] theorem exec_stampedArrival (s : State) : exec .stampedArrival s = execStampedArrival s := rfl
@[simp] theorem exec_ldatServe (s : State) : exec .ldatServe s = execLdatServe s := rfl
@[simp] theorem exec_windowRequestArrival (s : State) : exec .windowRequestArrival s = execWindowRequestArrival s := rfl
@[simp] theorem exec_windowRefusal (s : State) : exec .windowRefusal s = execWindowRefusal s := rfl
@[simp] theorem exec_windowAck (s : State) : exec .windowAck s = execWindowAck s := rfl
@[simp] theorem exec_windowReadReturn (s : State) : exec .windowReadReturn s = execWindowReadReturn s := rfl
@[simp] theorem exec_flitCrcFail (s : State) : exec .flitCrcFail s = execFlitCrcFail s := rfl
@[simp] theorem exec_linkDown (s : State) : exec .linkDown s = execLinkDown s := rfl
@[simp] theorem exec_portUp (s : State) : exec .portUp s = execPortUp s := rfl
@[simp] theorem exec_linkFailureNotice (s : State) : exec .linkFailureNotice s = execLinkFailureNotice s := rfl
@[simp] theorem exec_hostMailboxWrite (s : State) : exec .hostMailboxWrite s = execHostMailboxWrite s := rfl
@[simp] theorem exec_hostRead (s : State) : exec .hostRead s = execHostRead s := rfl
@[simp] theorem exec_powerOnBoot (s : State) : exec .powerOnBoot s = execPowerOnBoot s := rfl
@[simp] theorem exec_partitionImageStart (s : State) : exec .partitionImageStart s = execPartitionImageStart s := rfl
@[simp] theorem exec_quote (s : State) : exec .quote s = execQuote s := rfl
@[simp] theorem exec_manifest (s : State) : exec .manifest s = execManifest s := rfl
@[simp] theorem exec_rtread (s : State) : exec .rtread s = execRtread s := rfl
@[simp] theorem exec_rtwrite (s : State) : exec .rtwrite s = execRtwrite s := rfl
@[simp] theorem exec_rtflip (s : State) : exec .rtflip s = execRtflip s := rfl
@[simp] theorem exec_fabstat (s : State) : exec .fabstat s = execFabstat s := rfl
@[simp] theorem exec_notices (s : State) : exec .notices s = execNotices s := rfl
@[simp] theorem exec_maintopen (s : State) : exec .maintopen s = execMaintopen s := rfl
@[simp] theorem exec_maintclose (s : State) : exec .maintclose s = execMaintclose s := rfl
@[simp] theorem exec_reqUnknownCommand (s : State) : exec .reqUnknownCommand s = execReqUnknownCommand s := rfl
@[simp] theorem exec_partitionSleep (s : State) : exec .partitionSleep s = execPartitionSleep s := rfl
@[simp] theorem exec_partitionWakeEvent (s : State) : exec .partitionWakeEvent s = execPartitionWakeEvent s := rfl
@[simp] theorem exec_wakeComplete (s : State) : exec .wakeComplete s = execWakeComplete s := rfl
@[simp] theorem exec_powerGovernor (s : State) : exec .powerGovernor s = execPowerGovernor s := rfl
@[simp] theorem exec_marginLow (s : State) : exec .marginLow s = execMarginLow s := rfl
@[simp] theorem exec_patrolScrub (s : State) : exec .patrolScrub s = execPatrolScrub s := rfl
@[simp] theorem exec_machineCheck (s : State) : exec .machineCheck s = execMachineCheck s := rfl
@[simp] theorem exec_illegalEncoding (s : State) : exec .illegalEncoding s = execIllegalEncoding s := rfl
@[simp] theorem exec_fetchPageFault (s : State) : exec .fetchPageFault s = execFetchPageFault s := rfl
@[simp] theorem exec_deckleTick (s : State) : exec .deckleTick s = execDeckleTick s := rfl
@[simp] theorem exec_servoCandidate (s : State) : exec .servoCandidate s = execServoCandidate s := rfl
@[simp] theorem exec_stampedStoreOutcome (s : State) : exec .stampedStoreOutcome s = execStampedStoreOutcome s := rfl
@[simp] theorem exec_tmResultWritten (s : State) : exec .tmResultWritten s = execTmResultWritten s := rfl
@[simp] theorem exec_fqbaseWrite (s : State) : exec .fqbaseWrite s = execFqbaseWrite s := rfl
@[simp] theorem exec_packetHop (s : State) : exec .packetHop s = execPacketHop s := rfl

end Sys2Proof.Machine
end

