-- ==== Sys2Proof/Laws/Tables.lean ====
section
/-!
SUPPORT. What the operations on sparse tables and on lists of cells do: an entry after a change, a byte after a write, and
the canonical form of memory.
-/

namespace Sys2Proof.Machine

variable {α β : Type}

/-- A table changed entry by entry, under the same keys. -/
theorem tget_map (t : Tbl α) (f : Nat → α → β) (n : Nat) :
    tget (t.map (fun p => (p.1, f p.1 p.2))) n = (tget t n).map (f n) := by
  induction t with
  | nil => rfl
  | cons p t ih =>
    obtain ⟨k, v⟩ := p
    by_cases h : k = n
    · subst h; simp [tget]
    · simpa [tget, h] using ih

/-- A table changed where a key passes a test. -/
theorem tget_map_if (t : Tbl α) (c : Nat → Bool) (f : Nat → α → α) (n : Nat) :
    tget (t.map (fun p => if c p.1 then (p.1, f p.1 p.2) else p)) n =
      (tget t n).map (fun x => if c n then f n x else x) := by
  rw [← tget_map t (fun k x => if c k then f k x else x) n]
  congr 1
  apply List.map_congr_left
  intro p _
  split <;> simp_all

/-- The entry of a key after one entry is changed. -/
theorem tget_tmod (t : Tbl α) (m n : Nat) (f : α → α) :
    tget (tmod t m f) n = if n = m then (tget t n).map f else tget t n := by
  have h := tget_map_if t (fun k => decide (k = m)) (fun _ => f) n
  simp only [decide_eq_true_eq] at h
  rw [tmod, h]
  by_cases hn : n = m <;> simp [hn]

/-- The entry of a key after one entry is set. -/
theorem tget_tput (t : Tbl α) (m n : Nat) (x : α) :
    tget (tput t m x) n = if n = m then some x else tget t n := by
  induction t with
  | nil => simp [tput, tget, eq_comm]
  | cons p t ih =>
    obtain ⟨k, v⟩ := p
    simp only [tput]
    split
    · by_cases hn : n = m
      · subst hn; simp [tget]
      · simp [tget, hn, Ne.symm hn]
    · split
      · rename_i h; subst h
        by_cases hn : n = k
        · subst hn; simp [tget]
        · simp [tget, hn, Ne.symm hn]
      · rename_i h1 h2
        by_cases hn : k = n
        · subst hn; simp [tget, h2]
        · simp only [tget, if_neg hn]; exact ih

/-- The entry of a key after an entry is removed. -/
theorem tget_tdel (t : Tbl α) (m n : Nat) : tget (tdel t m) n = if n = m then none else tget t n := by
  induction t with
  | nil => simp [tdel, tget]
  | cons p t ih =>
    obtain ⟨k, v⟩ := p
    rw [tdel] at ih ⊢
    by_cases hk : k = m
    · subst hk
      simp only [List.filter_cons, bne_self_eq_false, Bool.false_eq_true, if_false, ih]
      by_cases hn : n = k
      · simp [hn]
      · simp [tget, hn, Ne.symm hn]
    · have hb : (k != m) = true := by simpa using hk
      simp only [List.filter_cons, hb, if_true, tget]
      by_cases hn : k = n
      · subst hn; simp [hk]
      · simp [hn, ih]

/-- Changing an entry and then changing it again is one change. -/
theorem tmod_tmod (t : Tbl α) (n : Nat) (f g : α → α) : tmod (tmod t n f) n g = tmod t n (fun x => g (f x)) := by
  simp only [tmod, List.map_map]
  apply List.map_congr_left
  intro p _
  by_cases h : p.1 = n <;> simp [h]

theorem tmod_congr (t : Tbl α) (n : Nat) {f g : α → α} (h : ∀ x, f x = g x) : tmod t n f = tmod t n g := by
  have : f = g := funext h
  rw [this]

/-- A change that every entry survives unchanged is none. -/
theorem tmod_id (t : Tbl α) (n : Nat) : tmod t n (fun x => x) = t := by
  simp [tmod]

/-! Bytes. -/

/-- A byte below every listed address reads as zero. -/
theorem byteAt_of_wf_lt : ∀ (m : List Host.Cell) (a : Nat), Memory.wf m = true → (∀ p ∈ m.head?, a < p.1) → byteAt m a = 0
  | [], _, _, _ => rfl
  | [(k, v)], a, _, h => by
    have : a < k := h (k, v) rfl
    simp [byteAt, Nat.ne_of_gt this]
  | (k, v) :: (k', v') :: l, a, hw, h => by
    have hk : a < k := h (k, v) rfl
    simp only [Memory.wf, Bool.and_eq_true, decide_eq_true_eq] at hw
    have := byteAt_of_wf_lt ((k', v') :: l) a hw.2 (by simp; omega)
    simp only [byteAt] at this ⊢
    rw [if_neg (by omega)]
    exact this

theorem Memory.wf_cons {k : Nat} {v : Byte} {l : List Host.Cell} (hv : v ≠ 0) (hl : Memory.wf l = true)
    (h : ∀ p ∈ l.head?, k < p.1) : Memory.wf ((k, v) :: l) = true := by
  cases l with
  | nil => simpa [Memory.wf] using hv
  | cons p l =>
    have := h p rfl
    simp only [Memory.wf, hl, Bool.and_true, Bool.and_eq_true, decide_eq_true_eq, bne_iff_ne]
    exact ⟨this, hv⟩

theorem Memory.wf_tail {p : Host.Cell} {l : List Host.Cell} (h : Memory.wf (p :: l) = true) :
    Memory.wf l = true ∧ p.2 ≠ 0 ∧ ∀ q ∈ l.head?, p.1 < q.1 := by
  obtain ⟨k, v⟩ := p
  cases l with
  | nil => simpa [Memory.wf] using h
  | cons q l =>
    simp only [Memory.wf, Bool.and_eq_true, decide_eq_true_eq, bne_iff_ne] at h
    exact ⟨h.2, h.1.2, by simpa using h.1.1⟩

/-- The least address of memory after a write. -/
theorem setByte_head (m : List Host.Cell) (a : Nat) (b : Byte) (k : Nat) (hm : ∀ p ∈ m.head?, k < p.1) (ha : k < a)
    (hw : Memory.wf m = true) : ∀ p ∈ (setByte m a b).head?, k < p.1 := by
  cases m with
  | nil =>
    simp only [setByte]
    split <;> simp [ha]
  | cons q l =>
    obtain ⟨j, v⟩ := q
    have hj : k < j := hm (j, v) rfl
    have ht := Memory.wf_tail hw
    simp only [setByte]
    split
    · split <;> simp [ha, hj]
    · split
      · split
        · intro p hp
          have := ht.2.2 p hp
          simp only at this; omega
        · simp [ha]
      · simp [hj]

/-- Writing a byte keeps the canonical form. -/
theorem setByte_wf : ∀ (m : List Host.Cell) (a : Nat) (b : Byte), Memory.wf m = true → Memory.wf (setByte m a b) = true
  | [], a, b, _ => by
    simp only [setByte]
    split
    · rfl
    · simpa [Memory.wf]
  | (k, v) :: l, a, b, hw => by
    have ht := Memory.wf_tail hw
    simp only [setByte]
    split
    · split
      · exact hw
      · rename_i h1 h2
        exact Memory.wf_cons h2 hw (by simpa using h1)
    · split
      · rename_i h1 h2
        subst h2
        split
        · exact ht.1
        · rename_i h3
          exact Memory.wf_cons h3 ht.1 ht.2.2
      · rename_i h1 h2
        refine Memory.wf_cons ht.2.1 (setByte_wf l a b ht.1) ?_
        exact setByte_head l a b k ht.2.2 (by omega) ht.1

/-- Writing bytes keeps the canonical form. -/
theorem setBytes_wf (m : List Host.Cell) (a : Nat) (l : List Byte) (h : Memory.wf m = true) :
    Memory.wf (setBytes m a l) = true := by
  induction l generalizing m a with
  | nil => exact h
  | cons b l ih => exact ih _ _ (setByte_wf m a b h)

/-- A byte after one byte is written. -/
theorem byteAt_setByte : ∀ (m : List Host.Cell) (a : Nat) (b : Byte) (x : Nat), Memory.wf m = true →
    byteAt (setByte m a b) x = if x = a then b else byteAt m x
  | [], a, b, x, _ => by
    simp only [setByte]
    by_cases hb : b = 0
    · subst hb; simp [byteAt]
    · rw [if_neg hb]; simp [byteAt, eq_comm]
  | (k, v) :: l, a, b, x, hw => by
    have ht := Memory.wf_tail hw
    simp only [setByte]
    split
    · rename_i h1
      by_cases hb : b = 0
      · rw [if_pos hb]
        by_cases hx : x = a
        · rw [if_pos hx, hx, hb]
          exact byteAt_of_wf_lt _ _ hw (by simpa using h1)
        · rw [if_neg hx]
      · rw [if_neg hb]
        by_cases hx : x = a
        · simp [byteAt, hx]
        · rw [if_neg hx, byteAt, if_neg (Ne.symm hx)]
    · split
      · rename_i h1 h2
        subst h2
        by_cases hb : b = 0
        · rw [if_pos hb]
          by_cases hx : x = k
          · rw [if_pos hx, hx, hb]
            exact byteAt_of_wf_lt _ _ ht.1 ht.2.2
          · rw [if_neg hx, byteAt, if_neg (Ne.symm hx)]
        · rw [if_neg hb]
          by_cases hx : x = k
          · simp [byteAt, hx]
          · rw [if_neg hx, byteAt, if_neg (Ne.symm hx), byteAt, if_neg (Ne.symm hx)]
      · rename_i h1 h2
        by_cases hx : k = x
        · subst hx; simp [byteAt, h2]
        · rw [byteAt, if_neg hx, byteAt_setByte l a b x ht.1, byteAt, if_neg hx]

/-- A byte after consecutive bytes are written. -/
theorem byteAt_setBytes (m : List Host.Cell) (a : Nat) (l : List Byte) (x : Nat) (h : Memory.wf m = true) :
    byteAt (setBytes m a l) x = if a ≤ x ∧ x < a + l.length then l.getD (x - a) 0 else byteAt m x := by
  induction l generalizing m a with
  | nil => simp [setBytes]
  | cons b l ih =>
    rw [setBytes, ih _ _ (setByte_wf m a b h), byteAt_setByte m a b x h]
    by_cases h1 : x = a
    · subst h1
      simp
    · by_cases h2 : a + 1 ≤ x ∧ x < a + 1 + l.length
      · rw [if_pos h2, if_pos (by simp; omega)]
        obtain ⟨k, hk⟩ : ∃ k, x - a = k + 1 := ⟨x - a - 1, by omega⟩
        rw [hk, show x - (a + 1) = k by omega]
        simp
      · rw [if_neg h2, if_neg h1, if_neg (by simp; omega)]

end Sys2Proof.Machine
end

