-- ==== Sys2Proof/Laws/Lanes.lean ====
section
/-!
SUPPORT. The shared operations by which every instruction runs: the checks of `issue`, the lanes after `mapActive`, the end of
a unit, and what splitting and releasing bundles leaves alone.
-/

namespace Sys2Proof.Machine

/-! Lanes of a warp. -/

@[simp] theorem tget_mapLanes (w : Warp) (m : Mask) (f : Nat → Thread → Thread) (l : Nat) :
    tget (w.mapLanes m f).threads l = (tget w.threads l).map (fun t => if laneIn m l then f l t else t) :=
  tget_map_if w.threads (laneIn m) f l

/-- A warp but for its threads, bundles and last tick. -/
def Warp.blank (w : Warp) : Warp := { w with threads := [], bundles := [], lastTick := 0 }

@[simp] theorem blank_mapLanes (w : Warp) (m : Mask) (f : Nat → Thread → Thread) : (w.mapLanes m f).blank = w.blank := rfl

/-- Two warps that differ in MEETVs and bundles only. -/
def Warp.alike (v w : Warp) : Prop :=
  v.blank = w.blank ∧ ∀ l, (tget v.threads l).map Thread.noMeet = (tget w.threads l).map Thread.noMeet

theorem Warp.alike.refl (w : Warp) : w.alike w := ⟨rfl, fun _ => rfl⟩

theorem Warp.alike.trans {u v w : Warp} (h : u.alike v) (k : v.alike w) : u.alike w :=
  ⟨h.1.trans k.1, fun l => (h.2 l).trans (k.2 l)⟩

theorem releaseAt_alike (c : Nat) (w : Warp) (m : Word) : (w.releaseAt c m).alike w := by
  unfold Warp.releaseAt
  dsimp only
  split
  · refine ⟨rfl, fun l => ?_⟩
    dsimp only
    rw [tget_map w.threads (fun _ (t : Thread) => if !t.exited && t.meetv == m then { t with meetv := 0xFFFFFFFF } else t) l,
      Option.map_map]
    congr 1
    funext t
    simp only [Function.comp_apply]
    split <;> rfl
  · exact Warp.alike.refl w

theorem foldl_alike (c : Nat) (ms : List Word) (w : Warp) : (ms.foldl (Warp.releaseAt c) w).alike w := by
  induction ms generalizing w with
  | nil => exact Warp.alike.refl w
  | cons m ms ih => exact (ih _).trans (releaseAt_alike c w m)

/-- Splitting a bundle and releasing meeting groups changes MEETVs and bundles only (R53, R55). -/
theorem settle_alike (w : Warp) (m : Mask) (c : Nat) : (w.settle m c).alike w :=
  (foldl_alike c _ (w.split m c)).trans ⟨rfl, fun _ => rfl⟩

/-! One warp of the state. -/

theorem warpAt_modWarpAt (s : State) (c w c' w' : Nat) (f : Warp → Warp) :
    (s.modWarpAt c w f).warpAt? c' w' = if c' = c ∧ w' = w then (s.warpAt? c' w').map f else s.warpAt? c' w' := by
  simp only [State.warpAt?, State.modWarpAt, State.modCore, tget_tmod]
  by_cases hc : c' = c
  · subst hc
    simp only [if_true, true_and]
    cases tget s.cores c' with
    | none => by_cases hw : w' = w <;> simp [hw]
    | some k => simp [tget_tmod]
  · simp [hc]

theorem thread_modWarpAt (s : State) (c w l : Nat) (f : Warp → Warp) :
    (s.modWarpAt c w f).thread? c w l = (s.warpAt? c w).bind (fun x => tget (f x).threads l) := by
  simp [State.thread?, warpAt_modWarpAt, Option.bind_map]

/-- Changing the cores and then blanking. -/
theorem rest_modWarpAt (s : State) (c w : Nat) (f : Warp → Warp) (h : ∀ x, (f x).blank = x.blank) :
    (s.modWarpAt c w f).rest c w = s.rest c w := by
  simp only [State.rest, State.modWarpAt, State.modCore, tmod_tmod]
  congr 1
  apply tmod_congr
  intro k
  congr 1
  apply tmod_congr
  exact h

theorem rest_cur (s : State) (c w : Nat) (x : Cur) : { s with cur := x }.rest c w = s.rest c w := rfl

theorem rest_cycle (s : State) (c w n : Nat) : { s with cycle := n }.rest c w = s.rest c w := rfl

@[simp] theorem charge_cur (s : State) (n : Nat) : (s.charge n).cur = s.cur := rfl

/-- Charging an issue changes deficits and the warp's last tick only (R232). -/
theorem rest_charge (s : State) (n : Nat) : (s.charge n).rest s.cur.core s.cur.slot = s.rest s.cur.core s.cur.slot := by
  simp only [State.rest, State.charge, State.modCore, tmod_tmod]
  congr 1
  apply tmod_congr
  intro k
  unfold Core.charge
  split
  · simp only [tmod_tmod]
  · rfl

theorem warp_charge (s : State) (n : Nat) :
    (s.charge n).warpAt? s.cur.core s.cur.slot = s.warp?.map (fun w => { w with lastTick := s.deckle.tick }) := by
  simp only [State.warp?, State.warpAt?, State.charge, State.modCore, tget_tmod, if_true]
  cases tget s.cores s.cur.core with
  | none => rfl
  | some k =>
    simp only [Option.map_some, Option.bind_some]
    unfold Core.charge
    split
    · rename_i w hw
      simp only [tget_tmod, if_true]
    · rename_i hw
      rw [hw]; rfl

theorem thread_charge (s : State) (n l : Nat) :
    (s.charge n).thread? s.cur.core s.cur.slot l = s.thread? s.cur.core s.cur.slot l := by
  unfold State.thread?
  rw [warp_charge]
  show (s.warp?.map _).bind _ = s.warp?.bind _
  cases s.warp? <;> rfl

/-! The checks of an instruction. -/

theorem warp_counted (s : State) (u : Use) :
    (s.counted u).warp? = s.warp?.map (fun w => w.mapLanes s.cur.mask (fun _ t => u.count s.cur t)) := by
  show (s.modWarpAt s.cur.core s.cur.slot _).warpAt? s.cur.core s.cur.slot = _
  rw [warpAt_modWarpAt]; simp [State.warp?]

/-- When the checks of R44 pass and no lane waits, an instruction's effect is that of its body, on the state in which it has
counted in the windows. -/
theorem issue_runs (s : State) (u : Use) (body : State → Out) (h : s.canIssue u = true) :
    s.issue u body = body (s.counted u) := by
  unfold State.canIssue at h
  unfold State.issue
  cases hw : s.warp? with
  | none => simp [hw] at h
  | some w =>
    simp only [hw, Bool.and_eq_true] at h ⊢
    obtain ⟨⟨⟨⟨⟨⟨⟨⟨h1, h2⟩, h3⟩, h4⟩, h5⟩, h6⟩, h7⟩, h8⟩, h9⟩ := h
    have none_bad : ∀ p : Thread → Bool, s.active.all (fun x => !p x.2) = true → firstBad s.active p = none := by
      intro p hp
      simp only [firstBad, Option.map_eq_none_iff, List.find?_eq_none]
      intro x hx
      have := List.all_eq_true.mp hp x hx
      simpa using this
    have e1 : firstBad s.active (fun t => (s.knownRegs u t).any (fun n => !w.hasReg n)) = none := by
      apply none_bad
      rw [← h6]
      congr 1; funext p
      rw [List.not_any_eq_all_not]; simp
    have e2 : firstBad s.active (s.looksAhead u) = none := none_bad _ h7
    have e3 : s.active.filter (fun p => s.mustWait u s.cur p.2) = [] := by
      rw [List.filter_eq_nil_iff]
      intro x hx
      have := List.all_eq_true.mp h8 x hx
      simpa using this
    cases ha : s.active with
    | nil => simp [ha] at h1
    | cons p act =>
      obtain ⟨l0, t0⟩ := p
      simp only
      rw [← ha]
      cases hb : u.badPrefix s.cur with
      | some off => simp [hb] at h2
      | none =>
        have hl : (!levelOk w.level u.level || (u.only && w.level != u.level) || (u.control && !isControl s.cur.core)) = false := by
          simp only [Bool.or_eq_true, Bool.not_eq_true'] at h4 h5
          have a4 : (u.only && w.level != u.level) = false := by
            rcases h4 with h4 | h4
            · simp [h4]
            · have : w.level = u.level := by simpa using h4
              simp [this]
          have a5 : (u.control && !isControl s.cur.core) = false := by
            rcases h5 with h5 | h5 <;> simp [h5]
          simp [h3, a4, a5]
        have hc : ¬(u.counterFull w = true ∧ (!s.live.isEmpty) = true) := by
          simp only [Bool.or_eq_true, Bool.not_eq_true'] at h9
          rcases h9 with h9 | h9 <;> simp [h9]
        simp only [hl, e1, e2, e3, List.map_nil, List.isEmpty_nil, if_neg hc, Bool.not_true, Bool.false_eq_true,
          if_false]
        rfl

theorem warp_of_canIssue {s : State} {u : Use} (h : s.canIssue u = true) : ∃ w, s.warp? = some w := by
  unfold State.canIssue at h
  cases hw : s.warp? with
  | none => simp [hw] at h
  | some w => exact ⟨w, rfl⟩

/-! The active lanes. -/

/-- The active threads of the counted state. -/
theorem active_counted (s : State) (u : Use) :
    (s.counted u).active = s.active.map (fun p => (p.1, u.count s.cur p.2)) := by
  simp only [State.active, warp_counted]
  cases s.warp? with
  | none => rfl
  | some w =>
    show ((w.mapLanes s.cur.mask _).threads.filter _) = _
    simp only [Warp.mapLanes, Warp.lanes, List.filter_map]
    have : ((fun p : Nat × Thread => laneIn (s.counted u).cur.mask p.1) ∘ fun p =>
        if laneIn s.cur.mask p.1 then (p.1, u.count s.cur p.2) else p) = fun p => laneIn s.cur.mask p.1 := by
      funext p
      simp only [Function.comp_apply]
      split <;> rfl
    rw [this]
    apply List.map_congr_left
    intro p hp
    have := (List.mem_filter.mp hp).2
    simp [this]

theorem tget_before (w : Warp) (m : Mask) (l : Nat) :
    tget ((w.lanes m).map (fun p => (p.1, p.2.windows))) l =
      if laneIn m l then (tget w.threads l).map Thread.windows else none := by
  unfold Warp.lanes
  induction w.threads with
  | nil => simp [tget]
  | cons p t ih =>
    obtain ⟨k, v⟩ := p
    by_cases hk : laneIn m k
    · simp only [List.filter_cons, hk, if_true, List.map_cons, tget]
      by_cases h : k = l
      · subst h; simp [hk]
      · simp only [if_neg h]; exact ih
    · simp only [List.filter_cons, hk, tget]
      rw [show (if false = true then (k, v) :: List.filter (fun p => laneIn m p.1) t else List.filter (fun p => laneIn m p.1) t)
        = List.filter (fun p => laneIn m p.1) t from rfl, ih]
      by_cases h : k = l
      · subst h; simp [hk]
      · simp [h]

/-- In the counted state, a lane that takes back the instruction has the windows it had before (R33). -/
theorem uncount_counted (s : State) (u : Use) (w : Warp) (hw : s.warp? = some w) (l : Nat) (th t : Thread)
    (ht : tget w.threads l = some th) (hl : laneIn s.cur.mask l = true) :
    (s.counted u).cur.uncount l t = { t with windows := th.windows } := by
  have : tget (s.counted u).cur.before l = some th.windows := by
    show tget (s.active.map _) l = _
    simp only [State.active, hw]
    rw [tget_before, hl, ht]; rfl
  simp [Cur.uncount, this]

/-! Counting in windows changes windows only. -/

@[simp] theorem count_regs (u : Use) (c : Cur) (t : Thread) : (u.count c t).regs = t.regs := by
  unfold Use.count; split <;> [rfl; (split <;> rfl)]

@[simp] theorem count_pc (u : Use) (c : Cur) (t : Thread) : (u.count c t).pc = t.pc := by
  unfold Use.count; split <;> [rfl; (split <;> rfl)]

@[simp] theorem count_meetv (u : Use) (c : Cur) (t : Thread) : (u.count c t).meetv = t.meetv := by
  unfold Use.count; split <;> [rfl; (split <;> rfl)]

@[simp] theorem count_fpmode (u : Use) (c : Cur) (t : Thread) : (u.count c t).fpmode = t.fpmode := by
  unfold Use.count; split <;> [rfl; (split <;> rfl)]

@[simp] theorem count_helper (u : Use) (c : Cur) (t : Thread) : (u.count c t).helper = t.helper := by
  unfold Use.count; split <;> [rfl; (split <;> rfl)]

@[simp] theorem count_tmctl (u : Use) (c : Cur) (t : Thread) : (u.count c t).tmctl = t.tmctl := by
  unfold Use.count; split <;> [rfl; (split <;> rfl)]

@[simp] theorem count_tmshape (u : Use) (c : Cur) (t : Thread) : (u.count c t).tmshape = t.tmshape := by
  unfold Use.count; split <;> [rfl; (split <;> rfl)]

@[simp] theorem count_get (u : Use) (c : Cur) (t : Thread) (n : Nat) : (u.count c t).get n = t.get n := by simp [Thread.get]
@[simp] theorem count_nat (u : Use) (c : Cur) (t : Thread) (n : Nat) : (u.count c t).nat n = t.nat n := by simp [Thread.nat]
@[simp] theorem count_pair (u : Use) (c : Cur) (t : Thread) (n : Nat) : (u.count c t).pair n = t.pair n := by simp [Thread.pair]
@[simp] theorem count_nat64 (u : Use) (c : Cur) (t : Thread) (n : Nat) : (u.count c t).nat64 n = t.nat64 n := by simp [Thread.nat64]
@[simp] theorem count_enables (u : Use) (c : Cur) (t : Thread) : (u.count c t).enables = t.enables := by simp [Thread.enables]
@[simp] theorem count_group (u : Use) (c : Cur) (t : Thread) (n k : Nat) : (u.count c t).group n k = t.group n k := by
  simp [Thread.group]
@[simp] theorem count_fpEnv (u : Use) (c c' : Cur) (t : Thread) : fpEnv c' (u.count c t) = fpEnv c' t := by simp [fpEnv]

@[simp] theorem counted_reg (s : State) (u : Use) (f : Fld) (r : Reg) : (s.counted u).reg f r = s.reg f r := rfl
@[simp] theorem counted_ownPc (s : State) (u : Use) (t : Thread) : (s.counted u).ownPc t = s.ownPc t := rfl
@[simp] theorem counted_fpEnv (s : State) (u : Use) (t : Thread) : fpEnv (s.counted u).cur t = fpEnv s.cur t := rfl

theorem counted_values (s : State) (u : Use) (n : Nat) : (s.counted u).values n = s.values n := by
  simp [State.values, active_counted]

theorem counted_tileCode (s : State) (u : Use) : (s.counted u).tileCode = s.tileCode := by
  simp only [State.tileCode, warp_counted]
  cases s.warp? <;> rfl

/-! Changing the active lanes, and the end of a unit. -/

@[simp] theorem mapActive_cur (s : State) (f : Nat → Thread → Thread) : (s.mapActive f).cur = s.cur := rfl
@[simp] theorem counted_mask (s : State) (u : Use) : (s.counted u).cur.mask = s.cur.mask := rfl
@[simp] theorem counted_core (s : State) (u : Use) : (s.counted u).cur.core = s.cur.core := rfl
@[simp] theorem counted_slot (s : State) (u : Use) : (s.counted u).cur.slot = s.cur.slot := rfl

theorem warp_mapActive (s : State) (f : Nat → Thread → Thread) :
    (s.mapActive f).warp? = s.warp?.map (fun w => w.mapLanes s.cur.mask f) := by
  show (s.modWarpAt s.cur.core s.cur.slot _).warpAt? s.cur.core s.cur.slot = _
  rw [warpAt_modWarpAt]; simp [State.warp?]

theorem rest_mapActive (s : State) (f : Nat → Thread → Thread) :
    (s.mapActive f).rest s.cur.core s.cur.slot = s.rest s.cur.core s.cur.slot :=
  rest_modWarpAt _ _ _ _ (fun _ => rfl)

theorem rest_counted (s : State) (u : Use) :
    (s.counted u).rest s.cur.core s.cur.slot = s.rest s.cur.core s.cur.slot :=
  rest_mapActive s _

/-- The end of a unit changes nothing outside the issuing warp but the unit, the cycle and the deficits. -/
theorem rest_finishBy (s : State) (n : Nat) (f : Nat → Thread → Thread) :
    (s.finishBy n f).rest s.cur.core s.cur.slot = s.rest s.cur.core s.cur.slot := by
  have h := rest_modWarpAt (s.charge n) s.cur.core s.cur.slot (fun w =>
    (w.mapLanes s.cur.mask (fun l t =>
      if t.wait == .fpx then { s.cur.uncount l t with rem := s.cur.left t }
      else if t.stays then t else f l t)).settle s.cur.mask (s.cycle + 1)) (fun x => (settle_alike _ _ _).1)
  refine Eq.trans ?_ (h.trans (rest_charge s n))
  unfold State.finishBy State.modWarp
  dsimp only
  rw [charge_cur]
  rfl

/-- A lane at the end of a unit: one that stops for FPX takes back its counting and stands at its repeat (R33, R38, R86). -/
def Cur.ends (c : Cur) (f : Nat → Thread → Thread) (l : Nat) (t : Thread) : Thread :=
  if t.wait == .fpx then { c.uncount l t with rem := c.left t } else if t.stays then t else f l t

/-- The lanes after the end of a unit. -/
theorem thread_finishBy (s : State) (n : Nat) (f : Nat → Thread → Thread) (l : Nat) :
    ((s.finishBy n f).thread? s.cur.core s.cur.slot l).map Thread.noMeet =
      (s.thread? s.cur.core s.cur.slot l).map (fun t => Thread.noMeet
        (if laneIn s.cur.mask l then s.cur.ends f l t else t)) := by
  have e : (s.finishBy n f).thread? s.cur.core s.cur.slot l =
      ((s.charge n).modWarpAt s.cur.core s.cur.slot (fun w =>
        (w.mapLanes s.cur.mask (s.cur.ends f)).settle s.cur.mask (s.cycle + 1))).thread? s.cur.core s.cur.slot l := by
    unfold State.finishBy State.modWarp Cur.ends
    dsimp only
    rw [charge_cur]
    rfl
  rw [e, thread_modWarpAt, warp_charge, State.thread?]
  show _ = Option.map _ (s.warp?.bind _)
  cases hw : s.warp? with
  | none => rfl
  | some w =>
    simp only [Option.map_some, Option.bind_some]
    rw [(settle_alike _ _ _).2 l, tget_mapLanes, Option.map_map]
    rfl

theorem mem_of_rest {s t : State} {c w : Nat} (h : t.rest c w = s.rest c w) : t.mem = s.mem := by
  have := congrArg State.mem h
  exact this

theorem OnlyLanes.of_rest {s t : State} (h : t.rest s.cur.core s.cur.slot = s.rest s.cur.core s.cur.slot) : OnlyLanes s t :=
  ⟨h, fun a => by rw [mem_of_rest h]⟩

/-- AN INSTRUCTION THAT CHANGES ITS ACTIVE LANES AND ENDS: where its checks pass it completes, each active lane is as the
instruction makes it, and nothing else changes. -/
theorem lanes_run (s : State) (u : Use) (body : State → Out) (n : Nat) (g : Nat → Thread → Thread) (f : Nat → Thread → Thread)
    (h : s.canIssue u = true) (hb : body (s.counted u) = .next (((s.counted u).mapActive g).finishBy n f)) :
    ∃ t, s.issue u body = .next t ∧ OnlyLanes s t ∧
      LaneStep s t (fun l th =>
        let new := g l (u.count s.cur th)
        if new.wait == .fpx then { new with windows := th.windows, rem := s.cur.left new }
        else if new.stays then new else f l new) := by
  refine ⟨((s.counted u).mapActive g).finishBy n f, (issue_runs s u _ h).trans hb, OnlyLanes.of_rest ?_, fun l => ?_⟩
  · have := rest_finishBy ((s.counted u).mapActive g) n f
    simp only [mapActive_cur, counted_core, counted_slot] at this
    rw [this]
    have := rest_mapActive (s.counted u) g
    simp only [counted_core, counted_slot] at this
    rw [this]
    exact rest_counted s u
  · have := thread_finishBy ((s.counted u).mapActive g) n f l
    simp only [mapActive_cur, counted_core, counted_slot, counted_mask] at this
    rw [this]
    obtain ⟨w, hw⟩ := warp_of_canIssue h
    have hw' : s.warpAt? s.cur.core s.cur.slot = some w := hw
    have e : ((s.counted u).mapActive g).thread? s.cur.core s.cur.slot l =
        (tget w.threads l).map (fun t => if laneIn s.cur.mask l then g l (u.count s.cur t) else t) := by
      have h1 : ((s.counted u).mapActive g).warpAt? s.cur.core s.cur.slot =
          some ((w.mapLanes s.cur.mask (fun _ t => u.count s.cur t)).mapLanes s.cur.mask g) := by
        have := warp_mapActive (s.counted u) g
        rw [warp_counted, hw] at this
        exact this
      simp only [State.thread?, h1, Option.bind_some, tget_mapLanes, Option.map_map]
      congr 1
      funext t
      simp only [Function.comp_apply]
      split <;> rfl
    rw [e, Option.map_map]
    simp only [State.thread?, hw', Option.bind_some]
    cases ht : tget w.threads l with
    | none => rfl
    | some th =>
      simp only [Option.map_some, Function.comp_apply]
      congr 2
      by_cases hl : laneIn s.cur.mask l = true
      · simp only [hl, if_true]
        unfold Cur.ends
        rw [uncount_counted s u w hw l th _ ht hl]
        rfl
      · simp [hl]

/-- An instruction that goes on to the next one, of one issue cycle (R38, R55). -/
theorem finish_run (s : State) (u : Use) (body : State → Out) (g : Nat → Thread → Thread) (h : s.canIssue u = true)
    (hb : body (s.counted u) = .next ((s.counted u).mapActive g).finish) :
    ∃ t, s.issue u body = .next t ∧ OnlyLanes s t ∧ LaneStep s t (fun l th => u.ran s.cur (g l) th) :=
  lanes_run s u body 1 g (fun _ t => t.advance s.cur) h hb

/-- The same for an FPD instruction, of two issue cycles (R111). -/
theorem finish2_run (s : State) (u : Use) (body : State → Out) (g : Nat → Thread → Thread) (h : s.canIssue u = true)
    (hb : body (s.counted u) = .next ((s.counted u).mapActive g).finish2) :
    ∃ t, s.issue u body = .next t ∧ OnlyLanes s t ∧ LaneStep s t (fun l th => u.ran s.cur (g l) th) :=
  lanes_run s u body 2 g (fun _ t => t.advance s.cur) h hb

/-- A transformation of the lanes that changes none. -/
theorem mapActive_id (s : State) : s.mapActive (fun _ t => t) = s := by
  have h1 : ∀ (w : Warp) (m : Mask), w.mapLanes m (fun _ t => t) = w := by
    intro w m
    simp [Warp.mapLanes]
  simp only [State.mapActive, State.modWarp, State.modWarpAt, State.modCore, h1]
  simp only [tmod_id]

/-- A control transfer (R136). -/
theorem jump_run (s : State) (u : Use) (body : State → Out) (g : Nat → Thread → Thread) (target : Nat → Thread → Word)
    (h : s.canIssue u = true) (hb : body (s.counted u) = .next (((s.counted u).mapActive g).finishAt target)) :
    ∃ t, s.issue u body = .next t ∧ OnlyLanes s t ∧
      LaneStep s t (fun l th => u.jumped s.cur (g l) (target l (g l (u.count s.cur th))) th) :=
  lanes_run s u body 1 g (fun l t => { t with pc := target l t, rem := 0 }) h hb

end Sys2Proof.Machine
end

