-- ==== Sys2Proof/Laws/Shapes.lean ====
section
/-!
SUPPORT. One lemma for each shape of instruction that works on its active lanes only: where it can issue it completes, each
lane is as the shape says, and nothing else changes.
-/

namespace Sys2Proof.Machine

theorem alu3_run (b a d : Reg) (f : Word → Word → Word → Word) (s : State) (h : s.canIssue (Use.f3 b a d) = true) :
    ∃ t, alu3 b a d f s = .next t ∧ OnlyLanes s t ∧
      LaneStep s t (fun _ th => (Use.f3 b a d).ran s.cur (fun x =>
        x.set (s.reg .vd d) (f (th.get (s.reg .va a)) (th.get (s.reg .vb b)) (th.get (s.reg .vd d)))) th) := by
  have := finish_run s (Use.f3 b a d) (fun s => .next (s.mapActive (fun _ t =>
      t.set (s.reg .vd d) (f (t.get (s.reg .va a)) (t.get (s.reg .vb b)) (t.get (s.reg .vd d))))).finish)
    (fun _ t => t.set (s.reg .vd d) (f (t.get (s.reg .va a)) (t.get (s.reg .vb b)) (t.get (s.reg .vd d)))) h rfl
  simp only [Use.ran, count_get] at this ⊢
  exact this

theorem alu2_run (a d : Reg) (f : Word → Word → Word) (s : State) (h : s.canIssue (Use.f2 a d) = true) :
    ∃ t, alu2 a d f s = .next t ∧ OnlyLanes s t ∧
      LaneStep s t (fun _ th => (Use.f2 a d).ran s.cur (fun x =>
        x.set (s.reg .vd d) (f (th.get (s.reg .va a)) (th.get (s.reg .vd d)))) th) := by
  have := finish_run s (Use.f2 a d) (fun s => .next (s.mapActive (fun _ t =>
      t.set (s.reg .vd d) (f (t.get (s.reg .va a)) (t.get (s.reg .vd d))))).finish)
    (fun _ t => t.set (s.reg .vd d) (f (t.get (s.reg .va a)) (t.get (s.reg .vd d)))) h rfl
  simp only [Use.ran, count_get] at this ⊢
  exact this

theorem alu1_run (d : Reg) (f : Word → Word) (s : State) (h : s.canIssue { opds := [.one .vd d], rep := true } = true) :
    ∃ t, alu1 d f s = .next t ∧ OnlyLanes s t ∧
      LaneStep s t (fun _ th => ({ opds := [.one .vd d], rep := true } : Use).ran s.cur (fun x =>
        x.set (s.reg .vd d) (f (th.get (s.reg .vd d)))) th) := by
  have := finish_run s { opds := [.one .vd d], rep := true } (fun s => .next (s.mapActive (fun _ t =>
      t.set (s.reg .vd d) (f (t.get (s.reg .vd d))))).finish)
    (fun _ t => t.set (s.reg .vd d) (f (t.get (s.reg .vd d)))) h rfl
  simp only [Use.ran, count_get] at this ⊢
  exact this

theorem fp3_run (b a d : Reg) (f : FpEnv → Nat → Nat → Nat → FpOut) (s : State) (h : s.canIssue (Use.f3 b a d).fp = true) :
    ∃ t, fp3 b a d f s = .next t ∧ OnlyLanes s t ∧
      LaneStep s t (fun _ th => (Use.f3 b a d).fp.ran s.cur (fun x =>
        x.putFp32 (s.reg .vd d)
          (f (fpEnv s.cur th) (th.nat (s.reg .va a)) (th.nat (s.reg .vb b)) (th.nat (s.reg .vd d)))) th) := by
  have := finish_run s (Use.f3 b a d).fp (fun s => .next (s.mapActive (fun _ t =>
      t.putFp32 (s.reg .vd d)
        (f (fpEnv s.cur t) (t.nat (s.reg .va a)) (t.nat (s.reg .vb b)) (t.nat (s.reg .vd d))))).finish)
    (fun _ t => t.putFp32 (s.reg .vd d)
      (f (fpEnv s.cur t) (t.nat (s.reg .va a)) (t.nat (s.reg .vb b)) (t.nat (s.reg .vd d)))) h rfl
  simp only [Use.ran, count_nat, count_fpEnv] at this ⊢
  exact this

theorem fp2_run (a d : Reg) (f : FpEnv → Nat → FpOut) (s : State) (h : s.canIssue (Use.f2 a d).fp = true) :
    ∃ t, fp2 a d f s = .next t ∧ OnlyLanes s t ∧
      LaneStep s t (fun _ th => (Use.f2 a d).fp.ran s.cur (fun x =>
        x.putFp32 (s.reg .vd d) (f (fpEnv s.cur th) (th.nat (s.reg .va a)))) th) := by
  have := finish_run s (Use.f2 a d).fp (fun s => .next (s.mapActive (fun _ t =>
      t.putFp32 (s.reg .vd d) (f (fpEnv s.cur t) (t.nat (s.reg .va a))))).finish)
    (fun _ t => t.putFp32 (s.reg .vd d) (f (fpEnv s.cur t) (t.nat (s.reg .va a)))) h rfl
  simp only [Use.ran, count_nat, count_fpEnv] at this ⊢
  exact this

theorem fp16_run (x d : BitVec 5) (f : FpEnv → Nat → Nat → FpOut) (s : State)
    (h : s.canIssue (Use.f2 (low5 x) (low5 d)).fp = true) :
    ∃ t, fp16 x d f s = .next t ∧ OnlyLanes s t ∧
      LaneStep s t (fun _ th => (Use.f2 (low5 x) (low5 d)).fp.ran s.cur (fun y =>
        y.putFp32 (s.reg .vd (low5 d))
          (f (fpEnv s.cur th) (th.nat (s.reg .vd (low5 d))) (th.nat (s.reg .va (low5 x))))) th) := by
  have := finish_run s (Use.f2 (low5 x) (low5 d)).fp (fun s => .next (s.mapActive (fun _ t =>
      t.putFp32 (s.reg .vd (low5 d))
        (f (fpEnv s.cur t) (t.nat (s.reg .vd (low5 d))) (t.nat (s.reg .va (low5 x)))))).finish)
    (fun _ t => t.putFp32 (s.reg .vd (low5 d))
      (f (fpEnv s.cur t) (t.nat (s.reg .vd (low5 d))) (t.nat (s.reg .va (low5 x))))) h rfl
  simp only [Use.ran, count_nat, count_fpEnv] at this ⊢
  exact this

theorem fpd3_run (b a d : Reg) (f : FpEnv → Nat → Nat → Nat → FpOut) (s : State) (h : s.canIssue (Use.p3 b a d).fp = true) :
    ∃ t, fpd3 b a d f s = .next t ∧ OnlyLanes s t ∧
      LaneStep s t (fun _ th => (Use.p3 b a d).fp.ran s.cur (fun x =>
        x.putFp64 (s.reg .vd d)
          (f (fpEnv s.cur th) (th.nat64 (s.reg .va a)) (th.nat64 (s.reg .vb b)) (th.nat64 (s.reg .vd d)))) th) := by
  have := finish2_run s (Use.p3 b a d).fp (fun s => .next (s.mapActive (fun _ t =>
      t.putFp64 (s.reg .vd d)
        (f (fpEnv s.cur t) (t.nat64 (s.reg .va a)) (t.nat64 (s.reg .vb b)) (t.nat64 (s.reg .vd d))))).finish2)
    (fun _ t => t.putFp64 (s.reg .vd d)
      (f (fpEnv s.cur t) (t.nat64 (s.reg .va a)) (t.nat64 (s.reg .vb b)) (t.nat64 (s.reg .vd d)))) h rfl
  simp only [Use.ran, count_nat64, count_fpEnv] at this ⊢
  exact this

theorem fpd2_run (a d : Reg) (f : FpEnv → Nat → FpOut) (s : State) (h : s.canIssue (Use.p2 a d).fp = true) :
    ∃ t, fpd2 a d f s = .next t ∧ OnlyLanes s t ∧
      LaneStep s t (fun _ th => (Use.p2 a d).fp.ran s.cur (fun x =>
        x.putFp64 (s.reg .vd d) (f (fpEnv s.cur th) (th.nat64 (s.reg .va a)))) th) := by
  have := finish2_run s (Use.p2 a d).fp (fun s => .next (s.mapActive (fun _ t =>
      t.putFp64 (s.reg .vd d) (f (fpEnv s.cur t) (t.nat64 (s.reg .va a))))).finish2)
    (fun _ t => t.putFp64 (s.reg .vd d) (f (fpEnv s.cur t) (t.nat64 (s.reg .va a)))) h rfl
  simp only [Use.ran, count_nat64, count_fpEnv] at this ⊢
  exact this

theorem compat_run (b a d : Reg) (f : Word → Word → Word → Word) (s : State)
    (h : s.canIssue { opds := [.one .vd d, .one .va a, .one .vb b], closes := true } = true) :
    ∃ t, compat b a d f s = .next t ∧ OnlyLanes s t ∧
      LaneStep s t (fun _ th => ({ opds := [.one .vd d, .one .va a, .one .vb b], closes := true } : Use).ran s.cur (fun x =>
        x.set d.toNat (f (th.get a.toNat) (th.get b.toNat) (th.get d.toNat))) th) := by
  have := finish_run s { opds := [.one .vd d, .one .va a, .one .vb b], closes := true } (fun s => .next (s.mapActive (fun _ t =>
      t.set d.toNat (f (t.get a.toNat) (t.get b.toNat) (t.get d.toNat)))).finish)
    (fun _ t => t.set d.toNat (f (t.get a.toNat) (t.get b.toNat) (t.get d.toNat))) h rfl
  simp only [Use.ran, count_get] at this ⊢
  exact this

/-- Shuffles: `src` may look at the bundle's values and the lane's own registers, which counting does not change. -/
theorem shuffle_run (u : Use) (a d : Reg) (src : State → Nat → Thread → Int) (s : State) (h : s.canIssue u = true)
    (hs : ∀ l th, src (s.counted u) l (u.count s.cur th) = src s l th) :
    ∃ t, shuffle u a d src s = .next t ∧ OnlyLanes s t ∧
      LaneStep s t (fun l th => u.ran s.cur (fun x =>
        match (usable s.tileCode (s.values (s.reg .va a)) l).find? (fun p => (p.1 : Int) == src s l th) with
        | some p => x.set (s.reg .vd d) p.2
        | none => x) th) := by
  have := finish_run s u (fun s =>
      let vals := s.values (s.reg .va a)
      let code := s.tileCode
      .next (s.mapActive (fun l t =>
        match (usable code vals l).find? (fun p => (p.1 : Int) == src s l t) with
        | some p => t.set (s.reg .vd d) p.2
        | none => t)).finish)
    (fun l t =>
      match (usable (s.counted u).tileCode ((s.counted u).values (s.reg .va a)) l).find?
          (fun p => (p.1 : Int) == src (s.counted u) l t) with
      | some p => t.set (s.reg .vd d) p.2
      | none => t) h rfl
  simp only [Use.ran, counted_values, counted_tileCode, hs] at this ⊢
  exact this

theorem gather_run (a d : Reg) (near : Nat → Nat → Bool) (f : Nat → Word → List (Nat × Word) → Word) (s : State)
    (h : s.canIssue (Use.f2 a d) = true) :
    ∃ t, gather a d near f s = .next t ∧ OnlyLanes s t ∧
      LaneStep s t (fun l th => (Use.f2 a d).ran s.cur (fun x =>
        x.set (s.reg .vd d) (f l (th.get (s.reg .va a))
          ((usable s.tileCode (s.values (s.reg .va a)) l).filter (fun q => near q.1 l)))) th) := by
  have := finish_run s (Use.f2 a d) (fun s =>
      let vals := s.values (s.reg .va a)
      let code := s.tileCode
      .next (s.mapActive (fun l t =>
        t.set (s.reg .vd d) (f l (t.get (s.reg .va a)) ((usable code vals l).filter (fun p => near p.1 l))))).finish)
    (fun l t => t.set (s.reg .vd d) (f l (t.get (s.reg .va a))
      ((usable (s.counted (Use.f2 a d)).tileCode ((s.counted (Use.f2 a d)).values (s.reg .va a)) l).filter
        (fun p => near p.1 l)))) h rfl
  simp only [Use.ran, counted_values, counted_tileCode, count_get] at this ⊢
  exact this

end Sys2Proof.Machine
end

