-- ==== Sys2Proof/Laws/Pending.lean ====
section
/-!
SUPPORT. Instructions that enter a pending operation (R33), and changes of the issuing warp besides its lanes.
-/

namespace Sys2Proof.Machine

theorem OnlyLanes.noPend {s t : State} (h : OnlyLanes s t) (l : List Pending) (n : Nat) :
    OnlyLanes s.noPend (State.noPend { t with pend := l, nextId := n }) := by
  refine ⟨?_, h.2⟩
  have := congrArg State.noPend h.1
  exact this

/-- An instruction whose operation becomes pending in the lanes `g` makes (R33). -/
theorem pending_run (s : State) (u : Use) (body : State → Out) (g : Nat → Thread → Thread) (k : PendKind)
    (h : s.canIssue u = true)
    (hb : body (s.counted u) = .next (({ s.counted u with
      pend := (s.counted u).pend ++ [s.pending none k], nextId := (s.counted u).nextId + 1 } : State).mapActive g).finish) :
    ∃ t, s.issue u body = .next t ∧ OnlyPending s t (s.pending none k) ∧ LaneStep s t (fun l th => u.ran s.cur (g l) th) := by
  obtain ⟨t0, e, o, ls⟩ := finish_run s u (fun x => .next (x.mapActive g).finish) g h rfl
  have e0 := issue_runs s u (fun x => .next (x.mapActive g).finish) h
  rw [e] at e0
  injection e0 with e0
  subst e0
  refine ⟨_, (issue_runs s u body h).trans hb, ⟨rfl, rfl, ?_⟩, ls⟩
  exact o.noPend _ _

theorem firstPc_counted (s : State) (u : Use) (h : s.canIssue u = true) :
    (match (s.counted u).active with | (_, t) :: _ => t.pc | [] => 0) = s.firstPc := by
  obtain ⟨w, hw⟩ := warp_of_canIssue h
  rw [active_counted]
  unfold State.firstPc
  cases s.active <;> simp

/-- The special functions (R119–R122). -/
theorem sfu_run (s : State) (u : Use) (L : BitVec 4) (dst : State → List Nat) (f : State → Thread → FpOut)
    (put : State → Nat → List (Nat × Word)) (h : s.canIssue u = true) (hd : dst (s.counted u) = dst s)
    (hf : ∀ t, f (s.counted u) (u.count s.cur t) = f s t) (hp : put (s.counted u) = put s) :
    ∃ t, sfu u L dst f put s = .next t ∧ OnlyPending s t (s.pending none (.result .sfu (s.sfuWrites (f s) (put s)))) ∧
      LaneStep s t (fun _ th => u.ran s.cur (fun x => Thread.sfuStep s.cur L (f s) s.nextId (dst s) th x) th) := by
  have key := pending_run s u (fun s =>
    let (id, s1) := s.fresh
    let traps (t : Thread) : Bool := (f s t).flags &&& t.enables != 0
    let ws := (s.active.filter (fun p => !traps p.2)).map (fun p =>
      (⟨p.1, put s (f s p.2).bits, (f s p.2).flags⟩ : LaneWrite))
    let pc := match s.active with | (_, t) :: _ => t.pc | [] => 0
    let s2 := { s1 with pend := s1.pend ++ [(⟨id, s.cur.core, s.cur.slot, pc, none, .result .sfu ws⟩ : Pending)] }
    .next (s2.mapActive (fun _ t =>
      if traps t then t.stopFpx (f s t).flags
      else t.openWindow s.cur.last L.toNat (t.enables != 0) [id] (dst s))).finish)
    (fun _ t => if (f (s.counted u) t).flags &&& t.enables != 0 then t.stopFpx (f (s.counted u) t).flags
      else t.openWindow s.cur.last L.toNat (t.enables != 0) [s.nextId] (dst s))
    (.result .sfu (s.sfuWrites (f s) (put s))) h ?_
  · obtain ⟨t, e, o, l⟩ := key
    refine ⟨t, e, o, fun n => ?_⟩
    rw [l n]
    cases s.thread? s.cur.core s.cur.slot n with
    | none => rfl
    | some th =>
      simp only [Option.map_some, Use.ran, hf, count_enables, Thread.sfuStep]
  · have ew : (s.counted u).sfuWrites (f (s.counted u)) (put (s.counted u)) = s.sfuWrites (f s) (put s) := by
      unfold State.sfuWrites
      rw [active_counted, List.filter_map, List.map_map, hp]
      have : (fun p : Nat × Thread => !((f (s.counted u) p.2).flags &&& p.2.enables != 0)) ∘ (fun (p : Nat × Thread) => (p.1, u.count s.cur p.2))
          = fun (p : Nat × Thread) => !((f s p.2).flags &&& p.2.enables != 0) := by
        funext p
        simp only [Function.comp_apply, hf, count_enables]
      rw [this]
      congr 1
      funext p
      simp only [Function.comp_apply, hf]
    have epc := firstPc_counted s u h
    simp only [← ew, ← hd]
    unfold State.pending
    rw [← epc]
    rfl

end Sys2Proof.Machine
end

