-- ==== Sys2Proof/Laws/Release.lean ====
section
/-!
SUPPORT. What the end of a unit does to the issuing warp: MEETVs, the release of meeting groups (R53), and changes of the warp
besides its lanes.
-/

namespace Sys2Proof.Machine

/-! What releasing does to MEETV (R53). -/

/-- Every lane of v is a lane of w with MEETV as it was or all ones; the rest of it is the same. -/
def Warp.eased (v w : Warp) : Prop :=
  ∀ l, match tget w.threads l with
    | some t => ∃ y, tget v.threads l = some y ∧ y.noMeet = t.noMeet ∧ (y.meetv = 0xFFFFFFFF ∨ y.meetv = t.meetv)
    | none => tget v.threads l = none

theorem releaseAt_threads (c : Nat) (w : Warp) (m : Word) (l : Nat) :
    tget (w.releaseAt c m).threads l = tget w.threads l ∨
      ∃ t, tget w.threads l = some t ∧ tget (w.releaseAt c m).threads l = some { t with meetv := 0xFFFFFFFF } := by
  unfold Warp.releaseAt
  dsimp only
  split
  · dsimp only
    rw [tget_map w.threads (fun _ (t : Thread) => if !t.exited && t.meetv == m then { t with meetv := 0xFFFFFFFF } else t) l]
    cases tget w.threads l with
    | none => exact .inl rfl
    | some t =>
      simp only [Option.map_some]
      split
      · exact .inr ⟨t, rfl, rfl⟩
      · exact .inl rfl
  · exact .inl rfl

theorem releases_threads (c : Nat) (ms : List Word) (w : Warp) (l : Nat) :
    tget (ms.foldl (Warp.releaseAt c) w).threads l = tget w.threads l ∨
      ∃ t, tget w.threads l = some t ∧ tget (ms.foldl (Warp.releaseAt c) w).threads l = some { t with meetv := 0xFFFFFFFF } := by
  induction ms generalizing w with
  | nil => exact .inl rfl
  | cons m ms ih =>
    rw [List.foldl_cons]
    rcases ih (w.releaseAt c m) with h | ⟨t, h, k⟩ <;> rcases releaseAt_threads c w m l with h' | ⟨t', h', k'⟩
    · exact .inl (h.trans h')
    · exact .inr ⟨t', h', h.trans k'⟩
    · exact .inr ⟨t, h' ▸ h, k⟩
    · rw [k'] at h
      injection h with h
      subst h
      exact .inr ⟨t', h', k⟩

/-- After an instruction a lane's MEETV is as the instruction left it, or all ones (R53). -/
theorem settle_threads (w : Warp) (m : Mask) (c : Nat) (l : Nat) :
    tget (w.settle m c).threads l = tget w.threads l ∨
      ∃ t, tget w.threads l = some t ∧ tget (w.settle m c).threads l = some { t with meetv := 0xFFFFFFFF } :=
  releases_threads c _ (w.split m c) l

/-- A change of the issuing warp that leaves its threads, bundles and last tick alone. -/
theorem rest_modWarpAt_comm (s : State) (c w : Nat) (f : Warp → Warp) (h : ∀ x, (f x).blank = f x.blank) :
    (s.modWarpAt c w f).rest c w = (s.rest c w).modWarpAt c w f := by
  simp only [State.rest, State.modWarpAt, State.modCore, tmod_tmod]
  congr 1
  apply tmod_congr
  intro k
  congr 1
  apply tmod_congr
  exact h

/-- The issuing warp at the end of a unit. -/
theorem warp_finishBy (s : State) (n : Nat) (f : Nat → Thread → Thread) :
    (s.finishBy n f).warpAt? s.cur.core s.cur.slot = s.warp?.map (fun w =>
      (({ w with lastTick := s.deckle.tick } : Warp).mapLanes s.cur.mask (s.cur.ends f)).settle s.cur.mask (s.cycle + 1)) := by
  have e : (s.finishBy n f).warpAt? s.cur.core s.cur.slot =
      ((s.charge n).modWarpAt s.cur.core s.cur.slot (fun w =>
        (w.mapLanes s.cur.mask (s.cur.ends f)).settle s.cur.mask (s.cycle + 1))).warpAt? s.cur.core s.cur.slot := rfl
  rw [e, warpAt_modWarpAt, warp_charge]
  simp only [and_self, if_true, Option.map_map]
  rfl

/-- A change of the issuing warp that leaves its threads alone, before the end of a unit. -/
theorem thread_finishBy_modWarp (s : State) (n : Nat) (f : Nat → Thread → Thread) (g : Warp → Warp)
    (hg : ∀ w, (g w).threads = w.threads) (l : Nat) :
    (((s.modWarp g).finishBy n f).thread? s.cur.core s.cur.slot l).map Thread.noMeet =
      ((s.finishBy n f).thread? s.cur.core s.cur.slot l).map Thread.noMeet := by
  rw [thread_finishBy s n f l]
  have := thread_finishBy (s.modWarp g) n f l
  refine this.trans ?_
  have e : (s.modWarp g).thread? s.cur.core s.cur.slot l = s.thread? s.cur.core s.cur.slot l := by
    rw [State.modWarp, thread_modWarpAt]
    unfold State.thread?
    congr 1
    funext w
    rw [hg]
  exact congrArg _ e

/-- An instruction that changes its active lanes and something of its warp besides threads and bundles. -/
theorem warp_run (s : State) (u : Use) (body : State → Out) (g : Nat → Thread → Thread) (p : Warp → Warp)
    (h : s.canIssue u = true) (hb : body (s.counted u) = .next ((((s.counted u).mapActive g).modWarp p).finish))
    (ht : ∀ w, (p w).threads = w.threads) (hp : ∀ w, (p w).blank = p w.blank) :
    ∃ t, s.issue u body = .next t ∧ LaneStep s t (fun l th => u.ran s.cur (g l) th) ∧ OnlyLanes (s.modWarp p) t := by
  obtain ⟨t0, e, o, ls⟩ := finish_run s u (fun x => .next (x.mapActive g).finish) g h rfl
  have e0 := issue_runs s u (fun x => .next (x.mapActive g).finish) h
  rw [e] at e0
  injection e0 with e0
  refine ⟨_, (issue_runs s u body h).trans hb, fun l => ?_, OnlyLanes.of_rest ?_⟩
  · rw [← ls l, e0]
    exact thread_finishBy_modWarp ((s.counted u).mapActive g) 1 _ p ht l
  · have h1 := rest_finishBy (((s.counted u).mapActive g).modWarp p) 1 (fun _ t => t.advance s.cur)
    have h2 := rest_modWarpAt_comm ((s.counted u).mapActive g) s.cur.core s.cur.slot p hp
    have h3 := rest_mapActive (s.counted u) g
    have h4 := rest_counted s u
    have h5 := rest_modWarpAt_comm s s.cur.core s.cur.slot p hp
    refine Eq.trans h1 (h2.trans ?_)
    refine Eq.trans ?_ h5.symm
    congr 1
    exact h3.trans h4

/-! Meeting groups (R53). -/

theorem filter_map_same {α : Type} (l : List α) (f : α → α) (q : α → Bool)
    (h : ∀ p ∈ l, f p = p ∨ (q p = false ∧ q (f p) = false)) : (l.map f).filter q = l.filter q := by
  induction l with
  | nil => rfl
  | cons x l ih =>
    have ih := ih (fun p hp => h p (List.mem_cons_of_mem _ hp))
    rcases h x List.mem_cons_self with e | ⟨e1, e2⟩
    · rw [List.map_cons, e, List.filter_cons, List.filter_cons, ih]
    · rw [List.map_cons, List.filter_cons, List.filter_cons, ih, e1, e2]; rfl

theorem meeting_eq (w : Warp) (a : Word) : w.meeting a = w.threads.filter (fun p => !p.2.exited && p.2.meetv == a) := by
  unfold Warp.meeting Warp.running
  rw [List.filter_filter]
  congr 1
  funext p
  exact Bool.and_comm _ _

/-- Releasing one address leaves the group of another as it is. -/
theorem meeting_releaseAt (c : Nat) (w : Warp) (m a : Word) (ha : a ≠ 0xFFFFFFFF) (hm : m ≠ a) :
    (w.releaseAt c m).meeting a = w.meeting a := by
  rw [meeting_eq, meeting_eq]
  unfold Warp.releaseAt
  dsimp only
  split
  · apply filter_map_same
    intro p _
    by_cases hl : (!p.2.exited && p.2.meetv == m) = true
    · rw [if_pos hl]
      simp only [Bool.and_eq_true, beq_iff_eq] at hl
      refine .inr ⟨?_, ?_⟩
      · simp [hl.2, hm]
      · exact Bool.and_eq_false_iff.mpr (.inr (beq_eq_false_iff_ne.mpr (Ne.symm ha)))
    · rw [if_neg hl]
      exact .inl rfl
  · rfl

/-- After its own release an address has no group whose members are all parked. -/
theorem meeting_released (c : Nat) (w : Warp) (a : Word) (ha : a ≠ 0xFFFFFFFF) :
    (w.releaseAt c a).meeting a = [] ∨ ∃ p ∈ (w.releaseAt c a).meeting a, p.2.parked = false := by
  by_cases hr : (a != 0xFFFFFFFF && !(w.meeting a).isEmpty && (w.meeting a).all (fun p => p.2.parked)) = true
  · left
    rw [meeting_eq]
    unfold Warp.releaseAt
    dsimp only
    rw [if_pos hr, List.filter_eq_nil_iff]
    intro q hq
    obtain ⟨p, hp, rfl⟩ := List.mem_map.mp hq
    by_cases hl : (!p.2.exited && p.2.meetv == a) = true
    · rw [if_pos hl]
      simp only [Bool.and_eq_true, beq_iff_eq, not_and]
      exact fun _ => Ne.symm ha
    · rw [if_neg hl]
      exact hl
  · have e : w.releaseAt c a = w := by
      unfold Warp.releaseAt
      dsimp only
      rw [if_neg hr]
    rw [e]
    by_cases h0 : w.meeting a = []
    · exact .inl h0
    · right
      by_contra hn
      apply hr
      simp only [Bool.and_eq_true, bne_iff_ne, ne_eq, ha, not_false_eq_true, true_and, List.all_eq_true]
      refine ⟨by simpa using h0, fun p hp => ?_⟩
      by_contra hpk
      exact hn ⟨p, hp, by simpa using hpk⟩

theorem meeting_foldl (c : Nat) (ms : List Word) (w : Warp) (a : Word) (ha : a ≠ 0xFFFFFFFF)
    (hs : a ∈ ms ∨ w.meeting a = [] ∨ ∃ p ∈ w.meeting a, p.2.parked = false) :
    (ms.foldl (Warp.releaseAt c) w).meeting a = [] ∨ ∃ p ∈ (ms.foldl (Warp.releaseAt c) w).meeting a, p.2.parked = false := by
  induction ms generalizing w with
  | nil =>
    rcases hs with hs | hs
    · exact absurd hs List.not_mem_nil
    · exact hs
  | cons m ms ih =>
    rw [List.foldl_cons]
    apply ih
    by_cases hm : m = a
    · subst hm
      exact .inr (meeting_released c w m ha)
    · rcases hs with hs | hs
      · rcases List.mem_cons.mp hs with e | e
        · exact absurd e.symm hm
        · exact .inl e
      · rw [meeting_releaseAt c w m a ha hm]
        exact .inr hs

/-- When an instruction ends, no meeting group has all its members parked (R53). -/
theorem settle_meeting (w : Warp) (m : Mask) (c : Nat) (a : Word) (ha : a ≠ 0xFFFFFFFF) :
    (w.settle m c).meeting a = [] ∨ ∃ p ∈ (w.settle m c).meeting a, p.2.parked = false := by
  apply meeting_foldl c _ (w.split m c) a ha
  by_cases hmem : a ∈ (w.split m c).running.map (·.2.meetv)
  · exact .inl hmem
  · refine .inr (.inl ?_)
    unfold Warp.meeting
    rw [List.filter_eq_nil_iff]
    intro p hp hc
    exact hmem (List.mem_map.mpr ⟨p, hp, by simpa using hc⟩)

end Sys2Proof.Machine
end

