-- ==== Sys2Proof/Laws/Threads.lean ====
section
/-!
SUPPORT. What the shared operations keep of every thread of the machine, the completion of barriers (R194), and the marks of a
warp's domains (R256).
-/

namespace Sys2Proof.Machine

/-! What stays of every thread. -/

/-- Every thread of t is a thread of s, the same in a projection. -/
def KeepsThreads {α : Type} (f : Thread → α) (s t : State) : Prop :=
  ∀ c k l, (t.thread? c k l).map f = (s.thread? c k l).map f

theorem KeepsThreads.refl {α : Type} (f : Thread → α) (s : State) : KeepsThreads f s s := fun _ _ _ => rfl

theorem KeepsThreads.trans {α : Type} {f : Thread → α} {s t u : State} (h : KeepsThreads f s t) (k : KeepsThreads f t u) :
    KeepsThreads f s u := fun c w l => (k c w l).trans (h c w l)

theorem KeepsThreads.of_cores {α : Type} (f : Thread → α) {s t : State} (h : t.cores = s.cores) : KeepsThreads f s t := by
  intro c k l
  simp only [State.thread?, State.warpAt?, h]

theorem keeps_modWarpAt {α : Type} (f : Thread → α) (s : State) (c k : Nat) (g : Warp → Warp)
    (h : ∀ w l, (tget (g w).threads l).map f = (tget w.threads l).map f) : KeepsThreads f s (s.modWarpAt c k g) := by
  intro c' k' l
  simp only [State.thread?, warpAt_modWarpAt]
  split
  · cases s.warpAt? c' k' with
    | none => rfl
    | some w => simp only [Option.map_some, Option.bind_some]; exact h w l
  · rfl

theorem keeps_modCore {α : Type} (f : Thread → α) (s : State) (c : Nat) (g : Core → Core) (h : ∀ k, (g k).warps = k.warps) :
    KeepsThreads f s (s.modCore c g) := by
  intro c' k' l
  simp only [State.thread?, State.warpAt?, State.modCore, tget_tmod]
  split
  · cases tget s.cores c' with
    | none => rfl
    | some k => simp only [Option.map_some, Option.bind_some, h]
  · rfl

theorem keeps_foldl {α β : Type} (f : Thread → α) (g : State → β → State) (l : List β) (s : State)
    (h : ∀ s b, KeepsThreads f s (g s b)) : KeepsThreads f s (l.foldl g s) := by
  induction l generalizing s with
  | nil => exact KeepsThreads.refl f s
  | cons b l ih => exact (h s b).trans (ih _)

theorem keeps_mapLanes {α : Type} (f : Thread → α) (w : Warp) (m : Mask) (g : Nat → Thread → Thread) (h : ∀ l t, f (g l t) = f t) (l : Nat) :
    (tget (w.mapLanes m g).threads l).map f = (tget w.threads l).map f := by
  rw [tget_mapLanes, Option.map_map]
  congr 1
  funext t
  simp only [Function.comp_apply]
  split
  · exact h l t
  · rfl

theorem keeps_releases {α : Type} (f : Thread → α) (hm : ∀ t : Thread, f { t with meetv := 0xFFFFFFFF } = f t) (c : Nat) (ms : List Word)
    (w : Warp) (l : Nat) : (tget (ms.foldl (Warp.releaseAt c) w).threads l).map f = (tget w.threads l).map f := by
  rcases releases_threads c ms w l with e | ⟨t, e, e'⟩
  · rw [e]
  · rw [e, e', Option.map_some, Option.map_some, hm]

theorem keeps_settle {α : Type} (f : Thread → α) (hm : ∀ t : Thread, f { t with meetv := 0xFFFFFFFF } = f t) (w : Warp) (m : Mask) (c : Nat)
    (l : Nat) : (tget (w.settle m c).threads l).map f = (tget w.threads l).map f :=
  keeps_releases f hm c _ (w.split m c) l

theorem keeps_mapActive {α : Type} (f : Thread → α) (s : State) (g : Nat → Thread → Thread) (h : ∀ l t, f (g l t) = f t) :
    KeepsThreads f s (s.mapActive g) :=
  keeps_modWarpAt f s _ _ _ (fun w l => keeps_mapLanes f w _ g h l)

theorem keeps_charge {α : Type} (f : Thread → α) (s : State) (n : Nat) : KeepsThreads f s (s.charge n) := by
  intro c k l
  have e : (s.charge n).thread? c k l = s.thread? c k l := by
    simp only [State.thread?, State.warpAt?, State.charge, State.modCore, tget_tmod]
    split
    · cases tget s.cores c with
      | none => rfl
      | some x =>
        simp only [Option.map_some, Option.bind_some]
        unfold Core.charge
        split
        · simp only [tget_tmod]
          split
          · cases tget x.warps k <;> rfl
          · rfl
        · rfl
    · rfl
  rw [e]

/-- What the end of a unit does not touch in a thread. -/
theorem keeps_finishBy {α : Type} (f : Thread → α) (s : State) (n : Nat) (g : Nat → Thread → Thread)
    (hm : ∀ t : Thread, f { t with meetv := 0xFFFFFFFF } = f t)
    (hw : ∀ (t : Thread) (x : List Window) (r : Nat), f { t with windows := x, rem := r } = f t)
    (h : ∀ l t, t.stays = false → f (g l t) = f t) : KeepsThreads f s (s.finishBy n g) := by
  refine (keeps_charge f s n).trans ?_
  have h1 : KeepsThreads f (s.charge n) ((s.charge n).modWarpAt s.cur.core s.cur.slot (fun w =>
      (w.mapLanes s.cur.mask (s.cur.ends g)).settle s.cur.mask (s.cycle + 1))) := by
    refine keeps_modWarpAt f _ _ _ _ (fun w l => ?_)
    rw [keeps_settle f hm]
    apply keeps_mapLanes
    intro l t
    unfold Cur.ends
    split
    · unfold Cur.uncount
      split
      · exact hw t _ _
      · exact hw t t.windows _
    · by_cases ht : t.stays = true
      · rw [if_pos ht]
      · rw [if_neg ht]
        exact h l t (by simpa using ht)
  exact h1.trans (KeepsThreads.of_cores f rfl)

/-- Every thread of s has become one of t in a relation. -/
def RelThreads (R : Thread → Thread → Prop) (s t : State) : Prop :=
  ∀ c k l th, s.thread? c k l = some th → ∃ y, t.thread? c k l = some y ∧ R th y

theorem RelThreads.refl {R : Thread → Thread → Prop} (h : ∀ t, R t t) (s : State) : RelThreads R s s :=
  fun _ _ _ th e => ⟨th, e, h th⟩

theorem RelThreads.trans {R : Thread → Thread → Prop} (h : ∀ a b c, R a b → R b c → R a c) {s t u : State}
    (a : RelThreads R s t) (b : RelThreads R t u) : RelThreads R s u := by
  intro c k l th e
  obtain ⟨y, e1, r1⟩ := a c k l th e
  obtain ⟨z, e2, r2⟩ := b c k l y e1
  exact ⟨z, e2, h _ _ _ r1 r2⟩

theorem rel_modWarpAt {R : Thread → Thread → Prop} (hr : ∀ t, R t t) (s : State) (c k : Nat) (g : Warp → Warp)
    (h : ∀ w l th, tget w.threads l = some th → ∃ y, tget (g w).threads l = some y ∧ R th y) :
    RelThreads R s (s.modWarpAt c k g) := by
  intro c' k' l th e
  simp only [State.thread?, warpAt_modWarpAt] at e ⊢
  by_cases hc : c' = c ∧ k' = k
  · rw [if_pos hc]
    cases hw : s.warpAt? c' k' with
    | none => rw [hw] at e; simp at e
    | some w =>
      rw [hw] at e
      exact h w l th e
  · rw [if_neg hc]
    exact ⟨th, e, hr th⟩

theorem rel_foldl {R : Thread → Thread → Prop} (hr : ∀ t, R t t) (ht : ∀ a b c, R a b → R b c → R a c) {β : Type}
    (g : State → β → State) (l : List β) (s : State) (h : ∀ s b, RelThreads R s (g s b)) : RelThreads R s (l.foldl g s) := by
  induction l generalizing s with
  | nil => exact RelThreads.refl hr s
  | cons b l ih => exact (h s b).trans ht (ih _)

theorem field_foldl {α β : Type} (f : State → α) (g : State → β → State) (h : ∀ s b, f (g s b) = f s) (l : List β) (s : State) :
    f (l.foldl g s) = f s := by
  induction l generalizing s with
  | nil => rfl
  | cons b l ih => rw [List.foldl_cons, ih, h]

theorem RelThreads.of_keeps {R : Thread → Thread → Prop} (hr : ∀ t, R t t) {s t : State} (h : KeepsThreads id s t) : RelThreads R s t := by
  intro c k l th e
  have h1 := h c k l
  rw [Option.map_id, id, id, e] at h1
  exact ⟨th, h1, hr th⟩

/-! The L1 action of an acquire (R180). -/

theorem dropClean_field {α : Type} (f : State → α) (h : ∀ s c g, f (State.modCore s c g) = f s) (s : State) (c d : Nat) :
    f (s.dropClean c d) = f s := by
  unfold State.dropClean State.unmark State.setL1
  dsimp only
  split
  · rfl
  · split
    · rw [h, h]
    · rw [h]

theorem acquire_field {α : Type} (f : State → α) (h : ∀ s c g, f (State.modCore s c g) = f s) (s : State) (c d : Nat) (sc : Scope) :
    f (s.acquire c d sc) = f s := by
  unfold State.acquire
  split
  · exact field_foldl f _ (fun s e => dropClean_field f h s c e) _ _
  · rfl

@[simp] theorem acquire_mem (s : State) (c d : Nat) (sc : Scope) : (s.acquire c d sc).mem = s.mem :=
  acquire_field State.mem (fun _ _ _ => rfl) s c d sc
@[simp] theorem acquire_domains (s : State) (c d : Nat) (sc : Scope) : (s.acquire c d sc).domains = s.domains :=
  acquire_field State.domains (fun _ _ _ => rfl) s c d sc

theorem dropClean_threads {α : Type} (f : Thread → α) (s : State) (c d : Nat) : KeepsThreads f s (s.dropClean c d) := by
  unfold State.dropClean State.unmark State.setL1
  dsimp only
  split
  · exact KeepsThreads.refl f s
  · split
    · refine KeepsThreads.trans ?_ (keeps_modCore f _ c _ ?_)
      · exact keeps_modCore f s c _ (fun _ => rfl)
      · exact fun _ => rfl
    · exact keeps_modCore f s c _ (fun _ => rfl)

theorem acquire_threads {α : Type} (f : Thread → α) (s : State) (c d : Nat) (sc : Scope) : KeepsThreads f s (s.acquire c d sc) := by
  unfold State.acquire
  split
  · exact keeps_foldl f _ _ _ (fun s e => dropClean_threads f s c e)
  · exact KeepsThreads.refl f s

/-- How a barrier leaves a thread: as it was, or past the instruction it waited at (R194). -/
def Thread.freed (t y : Thread) : Prop :=
  y.regs = t.regs ∧ y.exited = t.exited ∧ y.syncs = t.syncs ∧
    ((y.wait = t.wait ∧ y.arrived = t.arrived ∧ y.pc = t.pc) ∨
      (t.wait = .barrier ∧ y.wait = .run ∧ y.arrived = false ∧ y.pc = t.pc + 4))

theorem Thread.freed.refl (t : Thread) : t.freed t := ⟨rfl, rfl, rfl, .inl ⟨rfl, rfl, rfl⟩⟩

theorem Thread.freed.trans (a b c : Thread) (h : a.freed b) (k : b.freed c) : a.freed c := by
  obtain ⟨h1, h2, h3, h4⟩ := h
  obtain ⟨k1, k2, k3, k4⟩ := k
  refine ⟨k1.trans h1, k2.trans h2, k3.trans h3, ?_⟩
  rcases h4 with ⟨x, y, z⟩ | ⟨x, y, z, w⟩ <;> rcases k4 with ⟨x', y', z'⟩ | ⟨x', y', z', w'⟩
  · exact .inl ⟨x'.trans x, y'.trans y, z'.trans z⟩
  · exact .inr ⟨x.symm.trans x', y', z', w'.trans (by rw [z])⟩
  · exact .inr ⟨x, x'.trans y, y'.trans z, z'.trans w⟩
  · rw [y] at x'; exact absurd x' (by decide)

/-- What the completion of barriers does: threads that waited in one go past it, and nothing else of any thread changes but
MEETV (R194). -/
theorem syncRelease_threads (s : State) (b : Nat) : RelThreads Thread.freed s (s.syncRelease b) := by
  unfold State.syncRelease
  cases tget s.blocks b with
  | none => exact RelThreads.refl Thread.freed.refl s
  | some k =>
    dsimp only
    refine RelThreads.trans Thread.freed.trans ?_ (RelThreads.of_keeps Thread.freed.refl (acquire_threads id _ k.core k.slot .block))
    apply rel_foldl Thread.freed.refl Thread.freed.trans
    intro s1 w
    apply rel_modWarpAt Thread.freed.refl
    intro x l th e
    split
    · exact ⟨th, e, Thread.freed.refl th⟩
    · have key : ∀ v : Warp, (∃ y, tget v.threads l = some y ∧ th.freed y) → ∃ y, tget (v.release (s1.cycle + 1)).threads l = some y ∧ th.freed y := by
        rintro v ⟨y, hy, hf⟩
        rcases releases_threads (s1.cycle + 1) (v.running.map (·.2.meetv)) v l with e' | ⟨t', e', e2⟩
        · exact ⟨y, e'.trans hy, hf⟩
        · rw [hy] at e'
          injection e' with e'
          subst e'
          exact ⟨_, e2, hf⟩
      apply key
      unfold Warp.splitAll
      dsimp only
      rw [tget_map x.threads (fun _ (t : Thread) => if (!t.exited && t.wait == .barrier && syncDone (s.blockThreads b) t.syncs && x.block == b)
        then { t with wait := .run, arrived := false, pc := t.pc + 4 } else t) l, e]
      refine ⟨_, rfl, ?_⟩
      dsimp only
      split
      · rename_i hh
        simp only [Bool.and_eq_true, beq_iff_eq] at hh
        exact ⟨rfl, rfl, rfl, .inr ⟨hh.1.1.2, rfl, rfl, rfl⟩⟩
      · exact Thread.freed.refl th

theorem syncRelease_field {α : Type} (f : State → α) (h : ∀ s c w g, f (State.modWarpAt s c w g) = f s)
    (hc : ∀ s c g, f (State.modCore s c g) = f s) (s : State) (b : Nat) : f (s.syncRelease b) = f s := by
  unfold State.syncRelease
  cases tget s.blocks b with
  | none => rfl
  | some k => exact (acquire_field f hc _ _ _ _).trans (field_foldl f _ (fun _ _ => h _ _ _ _) _ _)

@[simp] theorem syncRelease_mem (s : State) (b : Nat) : (s.syncRelease b).mem = s.mem := syncRelease_field State.mem (fun _ _ _ _ => rfl) (fun _ _ _ => rfl) s b
@[simp] theorem syncRelease_domains (s : State) (b : Nat) : (s.syncRelease b).domains = s.domains :=
  syncRelease_field State.domains (fun _ _ _ _ => rfl) (fun _ _ _ => rfl) s b

/-- A thread that a table does not list appears nowhere after such a change. -/
theorem KeepsThreads.of_rel {α : Type} (f : Thread → α) {R : Thread → Thread → Prop} (h : ∀ a b, R a b → f b = f a) {s t : State}
    (a : RelThreads R s t) (n : ∀ c k l, s.thread? c k l = none → t.thread? c k l = none) : KeepsThreads f s t := by
  intro c k l
  cases e : s.thread? c k l with
  | none => rw [n c k l e]
  | some th =>
    obtain ⟨y, e1, r⟩ := a c k l th e
    rw [e1, Option.map_some, Option.map_some, h _ _ r]

theorem tget_none_keys {α : Type} (t u : Tbl α) (h : t.map (·.1) = u.map (·.1)) (n : Nat) : tget t n = none → tget u n = none := by
  induction t generalizing u with
  | nil => cases u with
    | nil => exact fun _ => rfl
    | cons _ _ => simp at h
  | cons p t ih =>
    obtain ⟨k, v⟩ := p
    cases u with
    | nil => simp at h
    | cons q u =>
      obtain ⟨k', v'⟩ := q
      simp only [List.map_cons, List.cons.injEq] at h
      obtain ⟨rfl, h⟩ := h
      simp only [tget]
      split
      · simp
      · exact ih u h

theorem keys_releaseAt (c : Nat) (w : Warp) (m : Word) : (w.releaseAt c m).threads.map (·.1) = w.threads.map (·.1) := by
  unfold Warp.releaseAt
  dsimp only
  split
  · simp only [List.map_map]; rfl
  · rfl

theorem keys_releases (c : Nat) (ms : List Word) (w : Warp) : (ms.foldl (Warp.releaseAt c) w).threads.map (·.1) = w.threads.map (·.1) := by
  induction ms generalizing w with
  | nil => rfl
  | cons m ms ih => rw [List.foldl_cons, ih, keys_releaseAt]

theorem syncRelease_regs (s : State) (b : Nat) : KeepsThreads Thread.regs s (s.syncRelease b) := by
  unfold State.syncRelease
  cases tget s.blocks b with
  | none => exact KeepsThreads.refl _ s
  | some k =>
    dsimp only
    refine KeepsThreads.trans ?_ (acquire_threads Thread.regs _ k.core k.slot .block)
    apply keeps_foldl
    intro s1 w
    apply keeps_modWarpAt
    intro x l
    split
    · rfl
    · unfold Warp.release
      rw [keeps_releases Thread.regs (fun _ => rfl)]
      unfold Warp.splitAll
      dsimp only
      rw [tget_map x.threads (fun _ (t : Thread) => if (!t.exited && t.wait == .barrier && syncDone (s.blockThreads b) t.syncs && x.block == b)
        then { t with wait := .run, arrived := false, pc := t.pc + 4 } else t) l, Option.map_map]
      congr 1
      funext t
      simp only [Function.comp_apply]
      split <;> rfl

theorem keeps_counted {α : Type} (f : Thread → α) (hf : ∀ (u : Use) (c : Cur) (t : Thread), f (u.count c t) = f t) (s : State) (u : Use) :
    KeepsThreads f s (s.counted u) :=
  (keeps_mapActive f s (fun _ t => u.count s.cur t) (fun _ t => hf u s.cur t)).trans (KeepsThreads.of_cores f rfl)

theorem thread_lanes (s : State) (u : Use) (g : Nat → Thread → Thread) (l : Nat) (th : Thread)
    (e : s.thread? s.cur.core s.cur.slot l = some th) (hl : laneIn s.cur.mask l = true) :
    ((s.counted u).mapActive g).thread? s.cur.core s.cur.slot l = some (g l (u.count s.cur th)) := by
  have h1 : (s.counted u).thread? s.cur.core s.cur.slot l = some (u.count s.cur th) := by
    show ((s.modWarpAt s.cur.core s.cur.slot _).thread? s.cur.core s.cur.slot l) = _
    rw [thread_modWarpAt]
    unfold State.thread? at e
    cases hw : s.warpAt? s.cur.core s.cur.slot with
    | none => rw [hw] at e; simp at e
    | some w =>
      rw [hw] at e
      simp only [Option.bind_some] at e ⊢
      rw [tget_mapLanes, e]
      simp [hl]
  show ((s.counted u).modWarpAt s.cur.core s.cur.slot _).thread? s.cur.core s.cur.slot l = _
  rw [thread_modWarpAt]
  unfold State.thread? at h1
  cases hw : (s.counted u).warpAt? s.cur.core s.cur.slot with
  | none => rw [hw] at h1; simp at h1
  | some w =>
    rw [hw] at h1
    simp only [Option.bind_some] at h1 ⊢
    rw [tget_mapLanes, h1]
    simp [hl]

@[simp] theorem markWarp_cores (s : State) (w : Warp) : (s.markWarp w).cores = s.cores := rfl
@[simp] theorem markWarp_mem (s : State) (w : Warp) : (s.markWarp w).mem = s.mem := rfl
@[simp] theorem finishBy_mem (s : State) (n : Nat) (f : Nat → Thread → Thread) : (s.finishBy n f).mem = s.mem := rfl
@[simp] theorem finish_mem (s : State) : s.finish.mem = s.mem := rfl

theorem domain_markDomain (s : State) (p d p' d' : Nat) :
    ((s.markDomain p d).domain p' d').mark = (((s.domain p' d').mark) || decide (domKey p' d' = domKey p d)) := by
  unfold State.markDomain State.modDomain State.domain
  rw [tget_tput]
  by_cases h : domKey p' d' = domKey p d
  · simp [h]
  · simp [h]

theorem markWarp_marks (s : State) (w : Warp) :
    ((s.markWarp w).domain w.part w.homeDid).mark = true ∧ ((s.markWarp w).domain w.part w.curDid).mark = true := by
  unfold State.markWarp
  rw [domain_markDomain, domain_markDomain, domain_markDomain]
  simp

end Sys2Proof.Machine
end

