-- ==== Sys2Proof/Laws/Homes.lean ====
section
/-!
SUPPORT. Writes at the homes: the bytes they set, and what they leave of cores, warps and threads (R255, R312, R400).
-/

namespace Sys2Proof.Machine

/-! Writes at the homes (R255, R312, R400). -/

theorem setBytes_append (m : List Host.Cell) (a : Nat) (l k : List Byte) :
    setBytes m a (l ++ k) = setBytes (setBytes m a l) (a + l.length) k := by
  induction l generalizing m a with
  | nil => rfl
  | cons b l ih =>
    show setBytes (setByte m a b) (a + 1) (l ++ k) = _
    rw [ih]
    simp only [setBytes, List.length_cons]
    congr 1
    omega

theorem bytesAt_setBytes (m : List Host.Cell) (a : Nat) (l : List Byte) (h : Memory.wf m = true) :
    bytesAt (setBytes m a l) a l.length = l := by
  apply List.ext_getElem
  · simp [bytesAt]
  · intro i h1 h2
    simp only [bytesAt, List.getElem_map, List.getElem_range]
    rw [byteAt_setBytes m a l _ h, if_pos ⟨by omega, by omega⟩]
    simp [List.getD_eq_getElem?_getD, h2]

@[simp] theorem feltLog_mem (s : State) (l : Nat) : (s.feltLog l).mem = s.mem := by
  unfold State.feltLog; dsimp only; split <;> rfl
@[simp] theorem feltLog_parts (s : State) (l : Nat) : (s.feltLog l).parts = s.parts := by
  unfold State.feltLog; dsimp only; split <;> rfl
@[simp] theorem feltLog_cores (s : State) (l : Nat) : (s.feltLog l).cores = s.cores := by
  unfold State.feltLog; dsimp only; split <;> rfl

/-- No partition logs its writes (R400). -/
def NoMig (s : State) : Prop := s.parts.all (fun x => !x.2.migEn) = true

theorem mem_of_tget {α : Type} (t : Tbl α) (n : Nat) (x : α) (h : tget t n = some x) : (n, x) ∈ t := by
  induction t with
  | nil => simp [tget] at h
  | cons p t ih =>
    obtain ⟨k, v⟩ := p
    simp only [tget] at h
    split at h
    · rename_i e
      injection h with h
      subst e h
      exact List.mem_cons_self
    · exact List.mem_cons_of_mem _ (ih h)

theorem migRecord_none (s : State) (pa : Nat) (h : NoMig s) : s.migRecord pa = s := by
  unfold State.migRecord
  dsimp only
  split
  · rename_i q hq
    have := List.all_eq_true.mp h _ (mem_of_tget _ _ _ hq)
    rw [if_pos]
    exact this
  · rfl

theorem homeWrite_mem (s : State) (pa : Nat) (b : List Byte) (h : NoMig s) : (s.homeWrite pa b).mem = setBytes s.mem pa b := by
  unfold State.homeWrite
  dsimp only
  rw [migRecord_none _ _ (by unfold NoMig; rw [feltLog_parts]; exact h)]
  show setBytes (s.feltLog _).mem pa b = _
  rw [feltLog_mem]

theorem migRecord_parts_keys (s : State) (pa : Nat) (b : List Byte) (h : NoMig s) : (s.homeWrite pa b).parts = s.parts := by
  unfold State.homeWrite
  dsimp only
  rw [migRecord_none _ _ (by unfold NoMig; rw [feltLog_parts]; exact h)]
  show (s.feltLog _).parts = _
  rw [feltLog_parts]

theorem homeWriteLong_parts (s : State) (k pa : Nat) (b : List Byte) (h : NoMig s) : (s.homeWriteLong k pa b).parts = s.parts := by
  induction k generalizing s pa b with
  | zero => rfl
  | succ k ih =>
    unfold State.homeWriteLong
    split
    · rfl
    · dsimp only
      rw [ih, migRecord_parts_keys _ _ _ h]
      unfold NoMig; rw [migRecord_parts_keys _ _ _ h]; exact h

/-- A write over several lines sets its bytes, with lines enough. -/
theorem homeWriteLong_mem (s : State) (k pa : Nat) (b : List Byte) (h : NoMig s) (hk : b.length + pa % 128 ≤ 128 * k) :
    (s.homeWriteLong k pa b).mem = setBytes s.mem pa b := by
  induction k generalizing s pa b with
  | zero =>
    have : b = [] := List.eq_nil_of_length_eq_zero (by omega)
    subst this; rfl
  | succ k ih =>
    unfold State.homeWriteLong
    split
    · rename_i e
      have : b = [] := by simpa using e
      subst this; rfl
    · dsimp only
      by_cases hb : b.length ≤ 128 - pa % 128
      · have hd : b.drop (128 - pa % 128) = [] := List.drop_eq_nil_of_le hb
        have ht : b.take (128 - pa % 128) = b := List.take_of_length_le hb
        rw [hd, ht]
        cases k with
        | zero => exact homeWrite_mem s pa b h
        | succ k =>
          unfold State.homeWriteLong
          simp only [List.isEmpty_nil, if_true]
          exact homeWrite_mem s pa b h
      · rw [ih, homeWrite_mem _ _ _ h]
        · have ht : (b.take (128 - pa % 128)).length = 128 - pa % 128 := by
            rw [List.length_take]; omega
          conv_rhs => rw [← List.take_append_drop (128 - pa % 128) b, setBytes_append, ht]
        · unfold NoMig; rw [migRecord_parts_keys _ _ _ h]; exact h
        · rw [List.length_drop]
          have : (pa + (128 - pa % 128)) % 128 = 0 := by omega
          omega

/-- Waking changes no more of a thread than its wait. -/
theorem keeps_wake {α : Type} (f : Thread → α) (h : ∀ t : Thread, f { t with wait := .run } = f t) (w : Warp) (p : Wait → Bool) (c l : Nat) :
    (tget (w.wake p c).threads l).map f = (tget w.threads l).map f := by
  unfold Warp.wake
  dsimp only
  split
  · rfl
  · dsimp only
    have e : (List.map (fun x => if (!x.2.exited && p x.2.wait) = true then (x.1, ({ x.2 with wait := Wait.run } : Thread)) else x) w.threads) =
      (w.threads.map (fun x => (x.1, if (!x.2.exited && p x.2.wait) = true then { x.2 with wait := .run } else x.2))) := by
      apply List.map_congr_left
      intro x _
      split <;> rfl
    rw [e, tget_map w.threads (fun _ (t : Thread) => if (!t.exited && p t.wait) = true then { t with wait := .run } else t), Option.map_map]
    congr 1
    funext t
    simp only [Function.comp_apply]
    split
    · exact h t
    · rfl

/-- What waking does to a core. -/
def Core.woken (k : Core) (p : Wait → Bool) (c : Nat) : Core := { k with warps := k.warps.map (fun w => (w.1, w.2.wake p c)) }

theorem tget_wake (s : State) (p : Wait → Bool) (c : Nat) : tget (s.wake p).cores c = (tget s.cores c).map (fun k => k.woken p (s.cycle + 1)) :=
  tget_map s.cores (fun _ (k : Core) => k.woken p (s.cycle + 1)) c

/-- The warps of the state after waking. -/
theorem warpAt_wake (s : State) (p : Wait → Bool) (c w : Nat) :
    (s.wake p).warpAt? c w = (s.warpAt? c w).map (fun x => x.wake p (s.cycle + 1)) := by
  simp only [State.warpAt?, tget_wake]
  cases tget s.cores c with
  | none => rfl
  | some k =>
    simp only [Option.map_some, Option.bind_some]
    exact tget_map k.warps (fun _ (x : Warp) => x.wake p (s.cycle + 1)) w

theorem keeps_wakeAll {α : Type} (f : Thread → α) (h : ∀ t : Thread, f { t with wait := .run } = f t) (s : State) (p : Wait → Bool) :
    KeepsThreads f s (s.wake p) := by
  intro c w l
  simp only [State.thread?, warpAt_wake]
  cases s.warpAt? c w with
  | none => rfl
  | some x => exact keeps_wake f h x p _ l

/-- A warp of t is the warp of s in what waking leaves alone. -/
def KeepsWarps {α : Type} (f : Warp → α) (s t : State) : Prop := ∀ c w, (t.warpAt? c w).map f = (s.warpAt? c w).map f

theorem KeepsWarps.trans {α : Type} {f : Warp → α} {s t u : State} (h : KeepsWarps f s t) (k : KeepsWarps f t u) : KeepsWarps f s u :=
  fun c w => (k c w).trans (h c w)

theorem KeepsWarps.of_cores {α : Type} (f : Warp → α) {s t : State} (h : t.cores = s.cores) : KeepsWarps f s t := by
  intro c w; simp only [State.warpAt?, h]

/-- A core of t is the core of s in some part of it. -/
def KeepsCores {α : Type} (f : Core → α) (s t : State) : Prop := ∀ c, (tget t.cores c).map f = (tget s.cores c).map f

theorem KeepsCores.trans {α : Type} {f : Core → α} {s t u : State} (h : KeepsCores f s t) (k : KeepsCores f t u) : KeepsCores f s u :=
  fun c => (k c).trans (h c)

theorem KeepsCores.of_cores {α : Type} (f : Core → α) {s t : State} (h : t.cores = s.cores) : KeepsCores f s t := by
  intro c; rw [h]

theorem wake_cores {α : Type} (f : Core → α) (h : ∀ (k : Core) (w : Tbl Warp), f { k with warps := w } = f k) (s : State) (p : Wait → Bool) :
    KeepsCores f s (s.wake p) := by
  intro c
  rw [tget_wake, Option.map_map]
  congr 1
  funext k
  exact h k _

theorem modCore_cores_keep {α : Type} (f : Core → α) (s : State) (c : Nat) (g : Core → Core) (h : ∀ k, f (g k) = f k) :
    KeepsCores f s (s.modCore c g) := by
  intro c'
  simp only [State.modCore, tget_tmod]
  split
  · cases tget s.cores c' with
    | none => rfl
    | some k => simp only [Option.map_some, h]
  · rfl

theorem wake_cores_eq (s t : State) (p : Wait → Bool) (h : t.cores = s.cores) (k : t.cycle = s.cycle) :
    (t.wake p).cores = (s.wake p).cores := by
  unfold State.wake
  dsimp only
  rw [h, k]

theorem migRecord_cores (s : State) (pa : Nat) : (s.migRecord pa).cores = s.cores := by
  unfold State.migRecord
  dsimp only
  split
  · split
    · rfl
    · split
      · split <;> rfl
      · rfl
  · rfl

theorem migRecord_cycle (s : State) (pa : Nat) : (s.migRecord pa).cycle = s.cycle := by
  unfold State.migRecord
  dsimp only
  split
  · split
    · rfl
    · split
      · split <;> rfl
      · rfl
  · rfl

theorem feltLog_cycle (s : State) (l : Nat) : (s.feltLog l).cycle = s.cycle := by
  unfold State.feltLog; dsimp only; split <;> rfl

theorem homeWrite_cores (s : State) (pa : Nat) (b : List Byte) :
    ∃ p, (s.homeWrite pa b).cores = (s.wake p).cores :=
  ⟨_, wake_cores_eq s { (s.feltLog (pa / 128 * 128)).migRecord pa with
      mem := setBytes ((s.feltLog (pa / 128 * 128)).migRecord pa).mem pa b } _
    ((migRecord_cores _ _).trans (feltLog_cores _ _)) ((migRecord_cycle _ _).trans (feltLog_cycle _ _))⟩

theorem keeps_homeWriteLong {α : Type} (f : Thread → α) (h : ∀ t : Thread, f { t with wait := .run } = f t) (s : State) (k pa : Nat) (b : List Byte) :
    KeepsThreads f s (s.homeWriteLong k pa b) := by
  induction k generalizing s pa b with
  | zero => exact KeepsThreads.refl f s
  | succ k ih =>
    unfold State.homeWriteLong
    split
    · exact KeepsThreads.refl f s
    · dsimp only
      refine KeepsThreads.trans ?_ (ih _ _ _)
      obtain ⟨p, hp⟩ := homeWrite_cores s pa (b.take (128 - pa % 128))
      exact (keeps_wakeAll f h s p).trans (KeepsThreads.of_cores f hp)

theorem keepsCores_homeWriteLong {α : Type} (f : Core → α) (h : ∀ (k : Core) (w : Tbl Warp), f { k with warps := w } = f k)
    (s : State) (k pa : Nat) (b : List Byte) : KeepsCores f s (s.homeWriteLong k pa b) := by
  induction k generalizing s pa b with
  | zero => exact fun _ => rfl
  | succ k ih =>
    unfold State.homeWriteLong
    split
    · exact fun _ => rfl
    · dsimp only
      refine KeepsCores.trans ?_ (ih _ _ _)
      obtain ⟨p, hp⟩ := homeWrite_cores s pa (b.take (128 - pa % 128))
      exact (wake_cores f h s p).trans (KeepsCores.of_cores f hp)

theorem wake_field {α : Type} (f : Warp → α) (h : ∀ (w : Warp) (t : Tbl Thread) (b : List Bundle), f { w with threads := t, bundles := b } = f w)
    (w : Warp) (p : Wait → Bool) (c : Nat) : f (w.wake p c) = f w := by
  unfold Warp.wake
  dsimp only
  split
  · rfl
  · exact h w _ _

theorem keepsWarps_homeWriteLong {α : Type} (f : Warp → α) (h : ∀ (w : Warp) (t : Tbl Thread) (b : List Bundle), f { w with threads := t, bundles := b } = f w)
    (s : State) (k pa : Nat) (b : List Byte) : KeepsWarps f s (s.homeWriteLong k pa b) := by
  induction k generalizing s pa b with
  | zero => exact fun _ _ => rfl
  | succ k ih =>
    unfold State.homeWriteLong
    split
    · exact fun _ _ => rfl
    · dsimp only
      refine KeepsWarps.trans ?_ (ih _ _ _)
      obtain ⟨p, hp⟩ := homeWrite_cores s pa (b.take (128 - pa % 128))
      refine KeepsWarps.trans ?_ (KeepsWarps.of_cores f hp)
      intro c w
      rw [warpAt_wake, Option.map_map]
      congr 1
      funext x
      exact wake_field f h x p _

end Sys2Proof.Machine
end

