-- ==== Sys2Proof/Laws/Access.lean ====
section
/-!
SUPPORT. Accesses to memory: when an instruction's accesses are accepted, what a load through L1 takes and leaves (R181), and how
states that differ in L1 alone go on alike.
-/

namespace Sys2Proof.Machine

/-! L1. -/

theorem noL1_setL1 (s : State) (c d : Nat) (t : Tbl (Byte × Bool)) : (s.setL1 c d t).noL1 = s.noL1 := by
  unfold State.setL1 State.modCore State.noL1 tmod
  simp only [List.map_map]
  congr 1
  apply List.map_congr_left
  intro p _
  simp only [Function.comp_apply]
  split <;> rfl

theorem tget_of_warp {s : State} {c n : Nat} {w : Warp} (h : s.warpAt? c n = some w) : ∃ k, tget s.cores c = some k := by
  unfold State.warpAt? at h
  cases e : tget s.cores c with
  | none => rw [e] at h; simp at h
  | some k => exact ⟨k, rfl⟩

theorem l1Of_setL1 (s : State) (c d : Nat) (t : Tbl (Byte × Bool)) (k : Core) (h : tget s.cores c = some k) (c' d' : Nat) :
    (s.setL1 c d t).l1Of c' d' = if c' = c ∧ d' = d then t else s.l1Of c' d' := by
  unfold State.l1Of State.core State.setL1 State.modCore
  simp only [tget_tmod]
  by_cases e : c' = c
  · subst e
    simp only [if_true, h, Option.map_some, Option.getD_some, tget_tput]
    by_cases f : d' = d
    · simp [f]
    · simp [f]
  · simp [e]

@[simp] theorem setL1_mem (s : State) (c d : Nat) (t : Tbl (Byte × Bool)) : (s.setL1 c d t).mem = s.mem := rfl

theorem noL1_sees_mem {s t : State} (h : t.noL1 = s.noL1) : t.mem = s.mem := by
  have := congrArg State.mem h
  exact this
theorem noL1_reqs {s t : State} (h : t.noL1 = s.noL1) : t.reqs = s.reqs := by
  have := congrArg State.reqs h
  exact this
theorem noL1_nextId {s t : State} (h : t.noL1 = s.noL1) : t.nextId = s.nextId := by
  have := congrArg State.nextId h
  exact this
theorem noL1_pkts {s t : State} (h : t.noL1 = s.noL1) : t.pkts = s.pkts := by
  have := congrArg State.pkts h
  exact this

theorem noL1_xlate {s t : State} (h : t.noL1 = s.noL1) (x : XReq) (va : Nat) : t.xlate x va = s.xlate x va := by
  have : ∀ u : State, u.xlate x va = u.noL1.xlate x va := fun _ => rfl
  rw [this t, this s, h]

theorem noL1_tget {s t : State} (h : t.noL1 = s.noL1) (c : Nat) (k : Core) (e : tget s.cores c = some k) :
    ∃ k', tget t.cores c = some k' := by
  have e1 := congrArg (fun u : State => tget u.cores c) h
  unfold State.noL1 at e1
  simp only [tget_map (f := fun _ k => Core.noL1 k), e] at e1
  cases f : tget t.cores c with
  | none => rw [f] at e1; simp at e1
  | some k' => exact ⟨k', rfl⟩

/-- Changing a core in its L1 and its marks alone. -/
theorem noL1_modCore_same (s : State) (c : Nat) (f : Core → Core) (h : ∀ k, (f k).noL1 = k.noL1) : (s.modCore c f).noL1 = s.noL1 := by
  unfold State.modCore State.noL1 tmod
  simp only [List.map_map]
  congr 1
  apply List.map_congr_left
  intro p _
  simp only [Function.comp_apply]
  split
  · rw [h]
  · rfl

theorem drainOwn_nil (s : State) (c line : Nat) (h : s.reqs = []) : s.drainOwn c line = s := by
  unfold State.drainOwn State.drain
  rw [h]; rfl

theorem tget_fill (m : List Host.Cell) (line : Nat) (l : List Nat) (hl : ∀ i ∈ l, i < 128) (t : Tbl (Byte × Bool)) (x : Nat) :
    tget (l.foldl (fun t i => tput t (line + i) ((bytesAt m line 128).getD i 0, false)) t) x =
      if ∃ i ∈ l, line + i = x then some (byteAt m x, false) else tget t x := by
  induction l generalizing t with
  | nil => simp
  | cons i l ih =>
    rw [List.foldl_cons, ih (fun j hj => hl j (List.mem_cons_of_mem _ hj))]
    have hi := hl i List.mem_cons_self
    have e : (bytesAt m line 128).getD i 0 = byteAt m (line + i) := by
      unfold bytesAt
      simp [List.getD, hi]
    by_cases c : ∃ j ∈ l, line + j = x
    · obtain ⟨j, hj, e⟩ := c
      rw [if_pos ⟨j, hj, e⟩, if_pos ⟨j, List.mem_cons_of_mem _ hj, e⟩]
    · rw [if_neg c, tget_tput]
      by_cases f : x = line + i
      · subst f
        rw [if_pos rfl, if_pos ⟨i, List.mem_cons_self, rfl⟩, e]
      · rw [if_neg f, if_neg]
        rintro ⟨j, hj, ej⟩
        rcases List.mem_cons.1 hj with rfl | hj
        · exact f ej.symm
        · exact c ⟨j, hj, ej⟩

theorem wholeLine_iff (s : State) (c d a : Nat) :
    s.wholeLine c d a = true ↔ ∀ i < 128, ∃ b, tget (s.l1Of c d) (a / 128 * 128 + i) = some b := by
  unfold State.wholeLine
  rw [List.all_eq_true]
  simp only [List.mem_range, Option.isSome_iff_exists]

theorem loads1_of {s t : State} {c d a : Nat} (h : ∀ i < 128, tget (t.l1Of c d) (a / 128 * 128 + i) = tget (s.l1Of c d) (a / 128 * 128 + i))
    (m : byteAt t.mem a = byteAt s.mem a) : t.loads1 c d a = s.loads1 c d a := by
  have w : t.wholeLine c d a = s.wholeLine c d a := by
    unfold State.wholeLine
    rw [Bool.eq_iff_iff, List.all_eq_true, List.all_eq_true]
    constructor <;> intro g i hi <;> have := h i (List.mem_range.1 hi) <;> have := g i hi <;> simp_all
  have e : tget (t.l1Of c d) a = tget (s.l1Of c d) a := by
    have := h (a % 128) (Nat.mod_lt _ (by decide))
    rwa [Nat.div_add_mod'] at this
  unfold State.loads1
  rw [e, w, m]

theorem loads1_whole {s : State} {c d a : Nat} (h : s.wholeLine c d a = true) : s.loads1 c d a = s.sees c d a := by
  obtain ⟨b, e⟩ := (wholeLine_iff s c d a).1 h (a % 128) (Nat.mod_lt _ (by decide))
  rw [Nat.div_add_mod'] at e
  unfold State.loads1 State.sees
  rw [e]
  simp [h]

/-- What a fill leaves, from what it leaves in the line and outside it. -/
theorem filled_spec {s u : State} {c d line : Nat} (hm : u.mem = s.mem) (hn : u.noL1 = s.noL1)
    (held : ∀ i < 128, ∃ f, tget (u.l1Of c d) (line + i) = some (s.loads1 c d (line + i), f))
    (out : ∀ c' d' x, ¬ (c' = c ∧ d' = d ∧ x / 128 * 128 = line) → tget (u.l1Of c' d') x = tget (s.l1Of c' d') x) :
    u.noL1 = s.noL1 ∧ (∀ c' d' x, u.loads1 c' d' x = s.loads1 c' d' x) ∧
      (∀ c' d' x, u.sees c' d' x = if c' = c ∧ d' = d ∧ x / 128 * 128 = line then s.loads1 c' d' x else s.sees c' d' x) ∧
      ∀ i < 128, ∃ f, tget (u.l1Of c d) (line + i) = some (s.loads1 c d (line + i), f) := by
  have at' : ∀ x, x / 128 * 128 = line → u.sees c d x = s.loads1 c d x := by
    intro x g
    obtain ⟨f, e⟩ := held (x % 128) (Nat.mod_lt _ (by decide))
    have ex : line + x % 128 = x := by omega
    rw [ex] at e
    unfold State.sees
    rw [e]
  refine ⟨hn, ?_, ?_, held⟩
  · intro c' d' x
    by_cases g : c' = c ∧ d' = d ∧ x / 128 * 128 = line
    · obtain ⟨rfl, rfl, g⟩ := g
      have hw : u.wholeLine c' d' x = true :=
        (wholeLine_iff _ _ _ _).2 (fun i hi => by rw [g]; obtain ⟨f, e⟩ := held i hi; exact ⟨_, e⟩)
      rw [loads1_whole hw, at' x g]
    · refine loads1_of (fun i hi => out _ _ _ ?_) (by rw [hm])
      rintro ⟨rfl, rfl, e⟩
      exact g ⟨rfl, rfl, by omega⟩
  · intro c' d' x
    split
    · rename_i g
      obtain ⟨rfl, rfl, g⟩ := g
      exact at' x g
    · rename_i g
      unfold State.sees
      rw [out _ _ _ g, hm]

/-- The line stands in L1 after a fill: its dirty bytes as they were, and the others as the home has them where one was missing
(R149, R181). What a load takes is the same before and after; nothing else changes. -/
theorem l1Fill_spec (s : State) (c d line : Nat) (k : Core) (h : tget s.cores c = some k) (hr : s.reqs = []) (ha : line % 128 = 0) :
    (s.l1Fill c d line).noL1 = s.noL1 ∧ (∀ c' d' x, (s.l1Fill c d line).loads1 c' d' x = s.loads1 c' d' x) ∧
      (∀ c' d' x, (s.l1Fill c d line).sees c' d' x =
        if c' = c ∧ d' = d ∧ x / 128 * 128 = line then s.loads1 c' d' x else s.sees c' d' x) ∧
      ∀ i < 128, ∃ f, tget ((s.l1Fill c d line).l1Of c d) (line + i) = some (s.loads1 c d (line + i), f) := by
  have hx : ∀ i < 128, (line + i) / 128 * 128 = line := by intro i hi; omega
  unfold State.l1Fill
  rw [drainOwn_nil s c line hr]
  simp only
  by_cases m : (List.range 128).all (fun i => (tget (s.l1Of c d) (line + i)).isSome) = true
  · rw [if_pos m]
    have hw : ∀ x, x / 128 * 128 = line → s.wholeLine c d x = true := by
      intro x e; unfold State.wholeLine; rw [e]; exact m
    refine ⟨rfl, fun _ _ _ => rfl, ?_, ?_⟩
    · intro c' d' x
      split
      · rename_i g
        obtain ⟨rfl, rfl, g⟩ := g
        exact (loads1_whole (hw x g)).symm
      · rfl
    · intro i hi
      have w := hw (line + i) (hx i hi)
      rw [loads1_whole w]
      obtain ⟨b, e⟩ := (wholeLine_iff _ _ _ _).1 w i hi
      rw [hx i hi] at e
      exact ⟨b.2, by unfold State.sees; rw [e]⟩
  · rw [if_neg m]
    have hl : ∀ i ∈ List.filter (fun i => match tget (s.l1Of c d) (line + i) with | some (_, dirty) => !dirty | none => true)
        (List.range 128), i < 128 := fun i hi => List.mem_range.1 (List.mem_filter.1 hi).1
    have nw : ∀ x, x / 128 * 128 = line → s.wholeLine c d x = false := by
      intro x e; unfold State.wholeLine; rw [e]; exact Bool.eq_false_iff.2 m
    have held : ∀ i < 128, ∃ f, tget ((s.setL1 c d ((List.filter (fun i => match tget (s.l1Of c d) (line + i) with
        | some (_, dirty) => !dirty | none => true) (List.range 128)).foldl
          (fun t i => tput t (line + i) ((s.homeRead line 128).getD i 0, false)) (s.l1Of c d))).l1Of c d) (line + i) =
        some (s.loads1 c d (line + i), f) := by
      intro i hi
      rw [l1Of_setL1 _ _ _ _ k h, if_pos ⟨rfl, rfl⟩]
      unfold State.homeRead
      rw [tget_fill _ _ _ hl]
      have w := nw (line + i) (hx i hi)
      unfold State.loads1
      rw [w]
      by_cases g : ∃ j ∈ List.filter (fun i => match tget (s.l1Of c d) (line + i) with | some (_, dirty) => !dirty | none => true)
          (List.range 128), line + j = line + i
      · rw [if_pos g]
        obtain ⟨j, hj, e⟩ := g
        have := (List.mem_filter.1 hj).2
        rw [e] at this
        refine ⟨false, ?_⟩
        cases q : tget (s.l1Of c d) (line + i) with
        | none => rfl
        | some b => rw [q] at this; simp at this; simp [this]
      · rw [if_neg g]
        cases e : tget (s.l1Of c d) (line + i) with
        | none => exact absurd ⟨i, List.mem_filter.2 ⟨List.mem_range.2 hi, by rw [e]⟩, rfl⟩ g
        | some b =>
          cases f : b.2 with
          | false => exact absurd ⟨i, List.mem_filter.2 ⟨List.mem_range.2 hi, by rw [e]; simp [f]⟩, rfl⟩ g
          | true => exact ⟨true, by simp [f, Prod.ext_iff]⟩
    have out : ∀ c' d' x, ¬ (c' = c ∧ d' = d ∧ x / 128 * 128 = line) → tget ((s.setL1 c d ((List.filter (fun i => match tget (s.l1Of c d) (line + i) with
        | some (_, dirty) => !dirty | none => true) (List.range 128)).foldl
          (fun t i => tput t (line + i) ((s.homeRead line 128).getD i 0, false)) (s.l1Of c d))).l1Of c' d') x = tget (s.l1Of c' d') x := by
      intro c' d' x g
      rw [l1Of_setL1 _ _ _ _ k h]
      split
      · rename_i e
        obtain ⟨rfl, rfl⟩ := e
        unfold State.homeRead
        rw [tget_fill _ _ _ hl, if_neg]
        rintro ⟨i, hi, rfl⟩
        exact g ⟨rfl, rfl, hx i (hl i hi)⟩
      · rfl
    exact filled_spec rfl (noL1_setL1 _ _ _ _) held out

/-- A load through L1 takes what loads take, and its line comes to stand there. -/
theorem l1Read_spec (s : State) (c d pa n : Nat) (k : Core) (h : tget s.cores c = some k) (hr : s.reqs = []) (hn : pa % 128 + n ≤ 128) :
    (s.l1Read c d pa n).1.noL1 = s.noL1 ∧ (∀ c' d' x, (s.l1Read c d pa n).1.loads1 c' d' x = s.loads1 c' d' x) ∧
      (∀ c' d' x, (s.l1Read c d pa n).1.sees c' d' x =
        if c' = c ∧ d' = d ∧ pa / 128 = x / 128 then s.loads1 c' d' x else s.sees c' d' x) ∧
      (s.l1Read c d pa n).2 = (List.range n).map (fun i => s.loads1 c d (pa + i)) := by
  obtain ⟨h1, h2, h4, h3⟩ := l1Fill_spec s c d (pa / 128 * 128) k h hr (by omega)
  unfold State.l1Read
  refine ⟨h1, h2, ?_, ?_⟩
  · intro c' d' x
    rw [h4]
    have : x / 128 * 128 = pa / 128 * 128 ↔ pa / 128 = x / 128 := by omega
    simp only [this]
  · simp only
    apply List.map_congr_left
    intro i hi
    have hi' := List.mem_range.1 hi
    obtain ⟨f, e⟩ := h3 (pa % 128 + i) (by omega)
    have : pa / 128 * 128 + (pa % 128 + i) = pa + i := by omega
    rw [this] at e
    rw [e]

theorem xlate_offset {s : State} {x : XReq} {va pa rot : Nat} (h : s.xlate x va = .good pa rot) : pa % 65536 = va % 65536 := by
  unfold State.xlate State.useEntry at h
  cases e : s.tlbFind x.part va with
  | none => rw [e] at h; simp at h
  | some q =>
    rw [e] at h
    simp only at h
    split at h
    · simp at h
    · split at h
      · simp at h
      · split at h
        · simp at h
        · injection h with h1 h2
          rw [← h1]; omega

theorem inLine {pa va n : Nat} (h : pa % 65536 = va % 65536) (hn : n ∣ 128) (hv : va % n = 0) : pa % 128 + n ≤ 128 := by
  have h1 : pa % 128 = va % 128 := by omega
  obtain ⟨k, e⟩ := hn
  have h2 : va % 128 % n = 0 := by
    rw [Nat.mod_mod_of_dvd _ ⟨k, e⟩]; exact hv
  obtain ⟨j, ej⟩ := Nat.dvd_of_mod_eq_zero h2
  have h3 : va % 128 < 128 := Nat.mod_lt _ (by decide)
  rw [h1, ej]
  rw [ej] at h3
  have hjk : j < k := by
    by_contra hc
    have : k ≤ j := Nat.le_of_not_lt hc
    have := Nat.mul_le_mul_left n this
    omega
  have := Nat.mul_le_mul_left n (Nat.succ_le_of_lt hjk)
  rw [Nat.mul_succ] at this
  omega

theorem szBytes_dvd (z : Sz) : szBytes z ∣ 128 := by cases z <;> decide
theorem atomSize_dvd (o : AtomOp) : o.size ∣ 128 := by cases o <;> decide

theorem l1Of_keep {s t : State} (h : KeepsCores Core.l1 s t) (c d : Nat) : t.l1Of c d = s.l1Of c d := by
  unfold State.l1Of State.core
  have := h c
  cases e1 : tget t.cores c with
  | none =>
    cases e2 : tget s.cores c with
    | none => rfl
    | some k => rw [e1, e2] at this; simp at this
  | some k =>
    cases e2 : tget s.cores c with
    | none => rw [e1, e2] at this; simp at this
    | some k' => rw [e1, e2] at this; simp only [Option.map_some, Option.some.injEq] at this; simp only [Option.getD_some, this]

theorem sees_of {s t : State} (h : KeepsCores Core.l1 s t) (m : t.mem = s.mem) (c d x : Nat) : t.sees c d x = s.sees c d x := by
  unfold State.sees
  rw [l1Of_keep h, m]

theorem loads1_keep {s t : State} (h : KeepsCores Core.l1 s t) (m : t.mem = s.mem) (c d x : Nat) : t.loads1 c d x = s.loads1 c d x :=
  loads1_of (fun _ _ => by rw [l1Of_keep h]) (by rw [m])

/-- A mark in L1 changes nothing but itself (R181). -/
theorem markSoon_noL1 (s : State) (c d line : Nat) (h : Hint) : (s.markSoon c d line h).noL1 = s.noL1 := by
  unfold State.markSoon
  split
  · apply noL1_modCore_same
    intro k
    dsimp only
    split <;> rfl
  · rfl

theorem markSoon_keep (s : State) (c d line : Nat) (h : Hint) : KeepsCores Core.l1 s (s.markSoon c d line h) := by
  unfold State.markSoon
  split
  · refine modCore_cores_keep Core.l1 s c _ (fun k => ?_)
    dsimp only
    split <;> rfl
  · exact fun _ => rfl

theorem markSoon_mem (s : State) (c d line : Nat) (h : Hint) : (s.markSoon c d line h).mem = s.mem := by
  unfold State.markSoon; split <;> rfl

theorem markSoon_sees (s : State) (c d line : Nat) (h : Hint) (c' d' x : Nat) :
    (s.markSoon c d line h).sees c' d' x = s.sees c' d' x := sees_of (markSoon_keep s c d line h) (markSoon_mem s c d line h) c' d' x

theorem markSoon_loads1 (s : State) (c d line : Nat) (h : Hint) (c' d' x : Nat) :
    (s.markSoon c d line h).loads1 c' d' x = s.loads1 c' d' x := loads1_keep (markSoon_keep s c d line h) (markSoon_mem s c d line h) c' d' x

theorem performAll_loads (c slot : Nat) (w : Warp) (opid : Nat) (h : Hint) (hh : h ≠ .l2) (pa rot : Acc → Nat) :
    ∀ (accs : List Acc) (s : State) (k : Core), tget s.cores c = some k → s.reqs = [] →
    (∀ a ∈ accs, a.kind = .load h ∧ a.ord = .relaxed ∧ s.xlate (a.request w) a.va = .good (pa a) (rot a) ∧
      regPage (pa a) = none ∧ rotType (rot a) = 0 ∧ pa a % 128 + a.size ≤ 128) →
    (s.performAll c slot w opid accs).1.noL1 = s.noL1 ∧
    (∀ c' d' x, (s.performAll c slot w opid accs).1.loads1 c' d' x = s.loads1 c' d' x) ∧
    (∀ c' d' x, (s.performAll c slot w opid accs).1.sees c' d' x =
      if c' = c ∧ d' = w.curSlot ∧ accs.any (fun a => pa a / 128 == x / 128) = true then s.loads1 c' d' x else s.sees c' d' x) ∧
    (s.performAll c slot w opid accs).2 = accs.map (fun a =>
      ⟨a.lane, loadRegs a.dst ((List.range a.size).map (fun i => s.loads1 c w.curSlot (pa a + i))), 0⟩) := by
  intro accs
  induction accs with
  | nil => intro s k _ _ _; exact ⟨rfl, fun _ _ _ => rfl, fun _ _ _ => by simp [State.performAll], rfl⟩
  | cons a l ih =>
    intro s k hk hr H
    obtain ⟨e1, e2, e3, e4, e5, e6⟩ := H a List.mem_cons_self
    obtain ⟨r1, r2, r4, r3⟩ := l1Read_spec s c w.curSlot (pa a) a.size k hk hr e6
    have ah : a.atHome = false := by
      unfold Acc.atHome; rw [e1, e2]; cases h <;> first | rfl | exact absurd rfl hh
    have hp : s.perform c slot w opid a (pa a) (rot a) =
        ((s.l1Read c w.curSlot (pa a) a.size).1.markSoon c w.curSlot (pa a / 128 * 128) h,
          some ⟨a.lane, loadRegs a.dst (s.l1Read c w.curSlot (pa a) a.size).2, 0⟩) := by
      unfold State.perform
      rw [e4]
      simp only [e5, e1, ah]
      simp
    unfold State.performAll
    rw [e3]
    simp only [hp]
    have r1' := (markSoon_noL1 (s.l1Read c w.curSlot (pa a) a.size).1 c w.curSlot (pa a / 128 * 128) h).trans r1
    have r2' := fun c' d' x =>
      (markSoon_loads1 (s.l1Read c w.curSlot (pa a) a.size).1 c w.curSlot (pa a / 128 * 128) h c' d' x).trans (r2 c' d' x)
    have r4' := fun c' d' x =>
      (markSoon_sees (s.l1Read c w.curSlot (pa a) a.size).1 c w.curSlot (pa a / 128 * 128) h c' d' x).trans (r4 c' d' x)
    obtain ⟨k', hk'⟩ := noL1_tget r1' c k hk
    obtain ⟨i1, i2, i4, i3⟩ := ih _ k' hk' ((noL1_reqs r1').trans hr) (by
      intro b hb
      obtain ⟨f1, f2, f3, f4⟩ := H b (List.mem_cons_of_mem _ hb)
      exact ⟨f1, f2, by rw [noL1_xlate r1']; exact f3, f4⟩)
    refine ⟨i1.trans r1', fun c' d' x => (i2 c' d' x).trans (r2' c' d' x), ?_, ?_⟩
    · intro c' d' x
      rw [i4, r2', r4', List.any_cons]
      by_cases q1 : c' = c ∧ d' = w.curSlot
      · obtain ⟨rfl, rfl⟩ := q1
        by_cases q2 : pa a / 128 = x / 128 <;> by_cases q3 : l.any (fun a => pa a / 128 == x / 128) = true <;> simp [q2, q3]
      · have n1 : ∀ p : Prop, ¬ (c' = c ∧ d' = w.curSlot ∧ p) := fun p g => q1 ⟨g.1, g.2.1⟩
        rw [if_neg (n1 _), if_neg (n1 _), if_neg (n1 _)]
    · rw [i3, List.map_cons, r3]
      congr 1
      apply List.map_congr_left
      intro b _
      simp only [r2']

/-! Blanking L1 passes through what follows. -/

theorem noL1_modWarpAt (s : State) (c w : Nat) (f : Warp → Warp) : (s.modWarpAt c w f).noL1 = s.noL1.modWarpAt c w f := by
  unfold State.modWarpAt State.modCore State.noL1 tmod
  simp only [List.map_map]
  congr 1
  apply List.map_congr_left
  intro p _
  simp only [Function.comp_apply]
  split <;> rfl

theorem noL1_modCore (s : State) (c : Nat) (f : Core → Core) (h : ∀ k, (f k).noL1 = f k.noL1) :
    (s.modCore c f).noL1 = s.noL1.modCore c f := by
  unfold State.modCore State.noL1 tmod
  simp only [List.map_map]
  congr 1
  apply List.map_congr_left
  intro p _
  simp only [Function.comp_apply]
  split
  · simp only [h]
  · rfl

theorem noL1_warpAt (s : State) (c n : Nat) : s.noL1.warpAt? c n = s.warpAt? c n := by
  unfold State.warpAt? State.noL1
  simp only [tget_map (f := fun _ k => Core.noL1 k)]
  cases tget s.cores c <;> rfl

theorem noL1_mapActive (s : State) (f : Nat → Thread → Thread) : (s.mapActive f).noL1 = s.noL1.mapActive f :=
  noL1_modWarpAt _ _ _ _

theorem noL1_charge (s : State) (n : Nat) : (s.charge n).noL1 = s.noL1.charge n := by
  unfold State.charge
  refine noL1_modCore s s.cur.core (fun k => k.charge s.cur.slot n s.deckle.tick (s.cycle + 1)) (fun k => ?_)
  unfold Core.charge Core.noL1
  dsimp only
  split <;> rfl

theorem noL1_finish (s : State) : s.finish.noL1 = s.noL1.finish := by
  have h := noL1_modWarpAt (s.charge 1) s.cur.core s.cur.slot (fun w =>
    (w.mapLanes s.cur.mask (s.cur.ends (fun _ t => t.advance s.cur))).settle s.cur.mask (s.cycle + 1))
  rw [noL1_charge] at h
  exact congrArg (fun u : State => ({ u with cur := s.cur.clear, cycle := s.cycle + 1 } : State)) h

/-- States that differ in L1 only end an accepted load in states that differ in L1 only. -/
theorem noL1_end {s t : State} (h : t.noL1 = s.noL1) (p : List Pending) (f : Nat → Thread → Thread) :
    (({ t with pend := p } : State).mapActive f).finish.noL1 = (({ s with pend := p } : State).mapActive f).finish.noL1 := by
  have g : ∀ u : State, ((({ u with pend := p } : State).mapActive f).finish).noL1 =
      (({ u.noL1 with pend := p } : State).mapActive f).finish := by
    intro u
    rw [noL1_finish, noL1_mapActive]; rfl
  rw [g, g, h]
theorem firstFault_spec (l : List (Cause × Nat × Nat)) (x : Cause × Nat × Nat) (h : firstFault l = some x) :
    x ∈ l ∧ ∀ y ∈ l, memRank x.1 ≤ memRank y.1 := by
  induction l generalizing x with
  | nil => simp [firstFault] at h
  | cons a l ih =>
    unfold firstFault at h
    cases e : firstFault l with
    | none =>
      rw [e] at h
      simp only [Option.some.injEq] at h
      subst h
      have : l = [] := by
        cases l with
        | nil => rfl
        | cons b l =>
          unfold firstFault at e
          split at e <;> (try split at e) <;> simp at e
      subst this
      simp
    | some y =>
      rw [e] at h
      simp only at h
      obtain ⟨hy, hm⟩ := ih y e
      by_cases c : memRank y.1 < memRank a.1
      · rw [if_pos c] at h
        simp only [Option.some.injEq] at h
        subst h
        refine ⟨List.mem_cons_of_mem _ hy, ?_⟩
        intro z hz
        rcases List.mem_cons.1 hz with rfl | hz
        · omega
        · exact hm z hz
      · rw [if_neg c] at h
        simp only [Option.some.injEq] at h
        subst h
        refine ⟨List.mem_cons_self, ?_⟩
        intro z hz
        rcases List.mem_cons.1 hz with rfl | hz
        · exact Nat.le_refl _
        · have := hm z hz; omega

theorem accessBad_from (x : State) (w : Warp) (accs : List Acc) (y : Cause × Nat × Nat) (h : y ∈ x.accessBad w accs) :
    ∃ a ∈ accs, a.lane = y.2.1 ∧ a.va = y.2.2 := by
  unfold State.accessBad at h
  rw [List.mem_filterMap] at h
  obtain ⟨a, ha, e⟩ := h
  refine ⟨a, ha, ?_⟩
  split at e
  · simp only [Option.some.injEq] at e; subst e; exact ⟨rfl, rfl⟩
  · split at e
    · split at e
      · simp only [Option.some.injEq] at e; subst e; exact ⟨rfl, rfl⟩
      · simp at e
    · simp at e
  · simp at e

theorem accessFrom_cur (x : State) (w : Warp) (accs : List Acc) : (x.accessFrom w accs).cur = x.cur := by
  unfold State.accessFrom State.walkAll
  split
  · apply field_foldl State.cur
    intro s b; unfold State.xlateWalk; split; rfl; split <;> rfl
  · rfl

theorem access_go (x : State) (m : MemUse) (accs : List Acc) (w : Warp) (h : x.warp? = some w) (k : x.accessOk w accs = true) :
    x.access m accs = .next ((x.accessFrom w accs).accessGo w m accs) := by
  unfold State.access
  rw [h]
  simp only
  unfold State.accessOk at k
  unfold State.accessFrom at *
  simp only [Bool.and_eq_true] at k
  obtain ⟨⟨⟨k1, k4⟩, k2⟩, k3⟩ := k
  have c1 : (if isControl x.cur.core = true then x.walkAll w (List.filter (fun a => a.va % a.size == 0 && decide (a.va < 2 ^ 56)) accs) else x).cur = x.cur := by
    split
    · apply field_foldl State.cur
      intro s b; unfold State.xlateWalk; split; rfl; split <;> rfl
    · rfl
  rw [k1, k4]
  rw [List.isEmpty_iff] at k2 k3
  rw [k2]
  simp only [firstFault]
  rw [k3]
  simp


theorem mapActive_comp (s : State) (f g : Nat → Thread → Thread) :
    (s.mapActive f).mapActive g = s.mapActive (fun l t => g l (f l t)) := by
  unfold State.mapActive State.modWarp State.modWarpAt State.modCore
  simp only [tmod_tmod]
  congr 1
  apply tmod_congr
  intro k
  congr 1
  apply tmod_congr
  intro w
  unfold Warp.mapLanes
  simp only [List.map_map]
  congr 1
  apply List.map_congr_left
  intro p _
  simp only [Function.comp_apply]
  by_cases h : laneIn s.cur.mask p.1 = true
  · simp [h]
  · simp [h]

theorem active_mapActive (s : State) (f : Nat → Thread → Thread) :
    (s.mapActive f).active = s.active.map (fun p => (p.1, f p.1 p.2)) := by
  unfold State.active
  rw [warp_mapActive]
  cases s.warp? with
  | none => rfl
  | some w =>
    simp only [Option.map_some]
    show Warp.lanes (w.mapLanes s.cur.mask f) s.cur.mask = _
    unfold Warp.lanes Warp.mapLanes
    induction w.threads with
    | nil => rfl
    | cons p l ih =>
      simp only [List.map_cons, List.filter_cons]
      by_cases h : laneIn s.cur.mask p.1 = true
      · simp only [h, if_true, List.map_cons]
        exact congrArg _ ih
      · rw [if_neg h, if_neg h, if_neg h]
        exact ih

theorem noL1_active {s t : State} (h : t.noL1 = s.noL1) : t.active = s.active := by
  have g : ∀ u : State, u.noL1.active = u.active := by
    intro u
    unfold State.active
    have hw : u.noL1.warp? = u.warp? := noL1_warpAt u _ _
    rw [hw]; rfl
  rw [← g t, ← g s, h]

/-- An accepted instruction whose accesses all have their translations, with no order and no engine count. -/
theorem accessGo_plain (x : State) (w : Warp) (m : MemUse) (accs : List Acc) (hc : m.cls = none) (hg : m.given = [])
    (hm : ∀ a ∈ accs, x.meets x.cur.core w a = .ok) (ho : ∀ a ∈ accs, a.ord = .relaxed) (hl : x.live.isEmpty = false) :
    x.accessGo w m accs =
      (let z := (({ x with nextId := x.nextId + 1 } : State).foldAll w accs).mapActive (fun n t =>
        if t.helper then t.setAll (m.dest.map (fun r => (r, 0))) else t.noteAcq accs n)
      let y := z.performAll x.cur.core x.cur.slot w x.nextId accs
      y.1.accepted m x.nextId y.2 (y.1.pkts.any (fun p => p.op == some x.nextId)) []) := by
  have h2 : accs.any (fun a => x.meets x.cur.core w a == .miss) = false := by
    rw [List.any_eq_false]; intro a ha; rw [hm a ha]; decide
  have h3 : relScope accs = none := by
    unfold relScope
    rw [List.find?_eq_none.2]; rfl
    intro a ha; rw [ho a ha]; decide
  have h4 : acqScope accs = none := by
    unfold acqScope
    rw [List.find?_eq_none.2]; rfl
    intro a ha; rw [ho a ha]; decide
  unfold State.accessGo State.fresh
  simp only [hl, hg, hc, h2, State.before, State.after, h3, h4, Bool.false_eq_true, if_false, List.nil_append]

theorem foldAll_loads (x : State) (w : Warp) (h : Hint) (accs : List Acc) (hk : ∀ a ∈ accs, a.kind = .load h) : x.foldAll w accs = x := by
  unfold State.foldAll
  induction accs with
  | nil => rfl
  | cons a l ih =>
    rw [List.foldl_cons]
    rw [hk a List.mem_cons_self]
    exact ih (fun b hb => hk b (List.mem_cons_of_mem _ hb))

theorem plainAt_spec {s : State} {w : Warp} {rd wr : Bool} {n va pa : Nat} (h : s.plainAt w rd wr n va = some pa) :
    va % n = 0 ∧ va < 2 ^ 56 ∧ ∃ rot, s.xlate (w.request rd wr false) va = .good pa rot ∧ regPage pa = none ∧ rotType rot = 0 ∧
      rotSh rot = false ∧ rotMb rot = false ∧ s.lineRefuses (w.request rd wr false) pa = false := by
  unfold State.plainAt at h
  by_cases c : (va % n != 0 || decide (2 ^ 56 ≤ va)) = true
  · rw [if_pos c] at h; simp at h
  · rw [if_neg c] at h
    simp only [Bool.or_eq_true, bne_iff_ne, decide_eq_true_eq, not_or, not_not, Nat.not_le] at c
    refine ⟨c.1, c.2, ?_⟩
    cases e : s.xlate (w.request rd wr false) va with
    | miss => rw [e] at h; simp at h
    | bad x => rw [e] at h; simp at h
    | good p r =>
      rw [e] at h
      simp only at h
      split at h
      · rename_i k
        simp only [Option.some.injEq] at h
        subst h
        simp only [Bool.and_eq_true, Option.isNone_iff_eq_none, beq_iff_eq, Bool.not_eq_true'] at k
        exact ⟨r, rfl, k.1.1.1.1, k.1.1.1.2, k.1.1.2, k.1.2, k.2⟩
      · simp at h

theorem meets_plain {s : State} {w : Warp} {a : Acc} {pa : Nat} (c : Nat)
    (h : s.plainAt w a.kind.reads a.kind.writes a.size a.va = some pa) : s.meets c w a = .ok := by
  obtain ⟨h1, h2, rot, h3, h4, h5, _, _, h6⟩ := plainAt_spec h
  have hq : a.request w = w.request a.kind.reads a.kind.writes false := rfl
  unfold State.meets
  rw [h1, if_neg (by decide), if_neg (by omega), hq, h3]
  simp only
  unfold State.pageCheck typeRefuses
  rw [hq, h6]
  simp [h4, h5]

theorem live_counted (s : State) (u : Use) : (s.counted u).live = s.live.map (fun p => (p.1, u.count s.cur p.2)) := by
  unfold State.live
  rw [active_counted, List.filter_map]
  congr 1
  apply List.filter_congr
  intro p _
  simp

/-- A warp with no stamped store and no LDAT under way has no lane that waits for the deckle (R150). -/
theorem stampHeld_none {x : State} (h : x.noStamps = true) (w : Warp) (a : Acc) : x.stampHeld w a = false := by
  unfold State.noStamps at h
  simp only [Bool.and_eq_true, List.all_eq_true] at h
  unfold State.stampHeld
  simp only [Bool.or_eq_false_iff, List.any_eq_false]
  refine ⟨fun g hg => ?_, fun p hp => ?_⟩
  · have := h.1 g hg
    simp only [Bool.not_eq_true', Bool.and_eq_false_iff] at this
    rcases this with e | e <;> simp [e]
  · have := h.2 p hp
    rw [Bool.or_eq_true] at this
    rcases this with e | e
    · rw [Bool.not_eq_true'] at e; simp only [e, Bool.false_and]; decide
    · cases k : p.kind <;> rw [k] at e <;> simp_all

theorem accessLate_none {x : State} (h : x.noStamps = true) (w : Warp) (accs : List Acc) : x.accessLate w accs = [] := by
  unfold State.accessLate
  rw [List.map_eq_nil_iff, List.filter_eq_nil_iff]
  intro a _
  rw [stampHeld_none h]; decide

theorem ok_of_plain (x : State) (w : Warp) (accs : List Acc) (hc : isControl x.cur.core = false)
    (hp : x.accessHeld accs = []) (hs : x.noStamps = true) (ho : ∀ a ∈ accs, a.ord = .relaxed)
    (hm : ∀ a ∈ accs, x.meets x.cur.core w a = .ok) : x.accessFrom w accs = x ∧ x.accessOk w accs = true := by
  have e : x.accessFrom w accs = x := by unfold State.accessFrom; rw [hc]; rfl
  refine ⟨e, ?_⟩
  unfold State.accessOk
  rw [e]
  simp only [hp, accessLate_none hs, List.isEmpty_nil, Bool.true_and, Bool.and_eq_true, List.isEmpty_iff]
  refine ⟨?_, ?_⟩
  · unfold State.accessBad
    rw [List.filterMap_eq_nil_iff]
    intro a ha
    rw [hm a ha]
  · unfold State.accessBusy
    rw [List.map_eq_nil_iff, List.filter_eq_nil_iff]
    intro a ha
    unfold State.releaseWaits
    rw [ho a ha]
    simp [Order.releases]

theorem keepsL1_modWarpAt (s : State) (c w : Nat) (f : Warp → Warp) : KeepsCores Core.l1 s (s.modWarpAt c w f) :=
  modCore_cores_keep Core.l1 s c _ (fun _ => rfl)

theorem keepsL1_finish (s : State) : KeepsCores Core.l1 s s.finish := by
  have h1 : KeepsCores Core.l1 s (s.charge 1) := modCore_cores_keep Core.l1 s _ _ (fun k => by
    unfold Core.charge
    split <;> rfl)
  exact fun c => (h1.trans (keepsL1_modWarpAt (s.charge 1) s.cur.core s.cur.slot (fun w =>
    (w.mapLanes s.cur.mask (s.cur.ends (fun _ t => t.advance s.cur))).settle s.cur.mask (s.cycle + 1)))) c

theorem keepsL1_mapActive (s : State) (f : Nat → Thread → Thread) : KeepsCores Core.l1 s (s.mapActive f) := keepsL1_modWarpAt _ _ _ _

theorem sees_counted (s : State) (u : Use) (c d x : Nat) : (s.counted u).sees c d x = s.sees c d x :=
  sees_of (keepsL1_mapActive s _) rfl c d x

theorem loads1_counted (s : State) (u : Use) (c d x : Nat) : (s.counted u).loads1 c d x = s.loads1 c d x :=
  loads1_keep (keepsL1_mapActive s _) rfl c d x

theorem noL1_thread (s : State) (c n l : Nat) : s.noL1.thread? c n l = s.thread? c n l := by
  unfold State.thread?
  rw [noL1_warpAt]

theorem LaneStep.noL1 {s t t' : State} {f : Nat → Thread → Thread} (h : t'.noL1 = t.noL1) (k : LaneStep s t f) : LaneStep s t' f := by
  intro l
  rw [← noL1_thread t', h, noL1_thread]
  exact k l

theorem noL1_rest (s : State) (c n : Nat) : (s.noL1).rest c n = (s.rest c n).noL1 := by
  unfold State.rest State.noL1 tmod
  simp only [List.map_map]
  congr 1
  apply List.map_congr_left
  intro p _
  simp only [Function.comp_apply]
  by_cases h : p.1 = c
  · simp only [h, if_true]
    congr 2
  · simp only [h, if_false]

theorem OnlyPending.noL1 {s t : State} {p : Pending} (k : OnlyPending s t p) : OnlyPending s.noL1 t.noL1 p := by
  refine ⟨k.1, k.2.1, ?_, k.2.2.2⟩
  have := congrArg State.noL1 k.2.2.1
  rw [← noL1_rest, ← noL1_rest] at this
  exact this

theorem mapActive_setPend (s : State) (g : Nat → Thread → Thread) (p : List Pending) :
    ({ s.mapActive g with pend := p } : State) = ({ s with pend := p } : State).mapActive g := rfl

/-- The end of an accepted load, seen through its blanking of L1. -/
theorem load_end (x y : State) (g1 g2 : Nat → Thread → Thread) (n : Nat) (p : List Pending)
    (h : y.noL1 = (({ x with nextId := n } : State).mapActive g1).noL1) :
    (({ y with pend := p } : State).mapActive g2).finish.noL1 =
      (({ x with pend := p, nextId := n } : State).mapActive (fun l t => g2 l (g1 l t))).finish.noL1 := by
  rw [noL1_end h, mapActive_setPend, mapActive_comp]

end Sys2Proof.Machine
end

