-- ==== Sys2Proof/Laws/Memory.lean ====
section
/-!
SUPPORT. Every operation that writes memory keeps its canonical form.
-/

namespace Sys2Proof.Machine

theorem reset_wf : Memory.wf State.reset.mem = true := rfl

theorem migRecord_wf (s : State) (pa : Nat) (h : Memory.wf s.mem = true) : Memory.wf (s.migRecord pa).mem = true := by
  unfold State.migRecord
  dsimp only
  split
  · split
    · exact h
    · split
      · split
        · exact h
        · exact setBytes_wf _ _ _ h
      · exact setByte_wf _ _ _ h
  · exact h

theorem homeWrite_wf (s : State) (pa : Nat) (b : List Byte) (h : Memory.wf s.mem = true) :
    Memory.wf (s.homeWrite pa b).mem = true :=
  setBytes_wf _ _ _ (migRecord_wf _ _ (by rw [feltLog_mem]; exact h))

theorem homeWriteLong_wf (s : State) (k pa : Nat) (b : List Byte) (h : Memory.wf s.mem = true) :
    Memory.wf (s.homeWriteLong k pa b).mem = true := by
  induction k generalizing s pa b with
  | zero => exact h
  | succ k ih =>
    unfold State.homeWriteLong
    split
    · exact h
    · exact ih _ _ _ (homeWrite_wf _ _ _ h)

/-- What is written over a list of things keeps the form where each writing does. -/
theorem foldl_wf {α : Type} (f : State → α → State)
    (hf : ∀ (s : State) (x : α), Memory.wf s.mem = true → Memory.wf (f s x).mem = true) :
    ∀ (l : List α) (s : State), Memory.wf s.mem = true → Memory.wf (l.foldl f s).mem = true
  | [], _, h => h
  | x :: l, s, h => foldl_wf f hf l (f s x) (hf s x h)

theorem withCode_wf (s : State) (b : List Byte) (h : Memory.wf s.mem = true) : Memory.wf (s.withCode b).mem = true :=
  setBytes_wf _ _ _ h

end Sys2Proof.Machine
end

