-- ==== Sys2Proof/Laws/State.lean ====
section
/-!
SUPPORT. The fields of the state after each of its updates, one lemma per field and update.
-/

namespace Sys2Proof.Machine

/-! putCore. -/

@[simp] theorem putCore_cur (s : State) (c : Nat) (f : Core → Core) : (s.putCore c f).cur = s.cur := rfl
@[simp] theorem putCore_ev (s : State) (c : Nat) (f : Core → Core) : (s.putCore c f).ev = s.ev := rfl
@[simp] theorem putCore_turns (s : State) (c : Nat) (f : Core → Core) : (s.putCore c f).turns = s.turns := rfl
@[simp] theorem putCore_cores (s : State) (c : Nat) (f : Core → Core) : (s.putCore c f).cores = tput s.cores c (f (s.core c)) := rfl
@[simp] theorem putCore_clusters (s : State) (c : Nat) (f : Core → Core) : (s.putCore c f).clusters = s.clusters := rfl
@[simp] theorem putCore_parts (s : State) (c : Nat) (f : Core → Core) : (s.putCore c f).parts = s.parts := rfl
@[simp] theorem putCore_blocks (s : State) (c : Nat) (f : Core → Core) : (s.putCore c f).blocks = s.blocks := rfl
@[simp] theorem putCore_launches (s : State) (c : Nat) (f : Core → Core) : (s.putCore c f).launches = s.launches := rfl
@[simp] theorem putCore_domains (s : State) (c : Nat) (f : Core → Core) : (s.putCore c f).domains = s.domains := rfl
@[simp] theorem putCore_mem (s : State) (c : Nat) (f : Core → Core) : (s.putCore c f).mem = s.mem := rfl
@[simp] theorem putCore_stamped (s : State) (c : Nat) (f : Core → Core) : (s.putCore c f).stamped = s.stamped := rfl
@[simp] theorem putCore_tlb (s : State) (c : Nat) (f : Core → Core) : (s.putCore c f).tlb = s.tlb := rfl
@[simp] theorem putCore_rots (s : State) (c : Nat) (f : Core → Core) : (s.putCore c f).rots = s.rots := rfl
@[simp] theorem putCore_kept (s : State) (c : Nat) (f : Core → Core) : (s.putCore c f).kept = s.kept := rfl
@[simp] theorem putCore_rotlo (s : State) (c : Nat) (f : Core → Core) : (s.putCore c f).rotlo = s.rotlo := rfl
@[simp] theorem putCore_rothi (s : State) (c : Nat) (f : Core → Core) : (s.putCore c f).rothi = s.rothi := rfl
@[simp] theorem putCore_eotidx (s : State) (c : Nat) (f : Core → Core) : (s.putCore c f).eotidx = s.eotidx := rfl
@[simp] theorem putCore_duals (s : State) (c : Nat) (f : Core → Core) : (s.putCore c f).duals = s.duals := rfl
@[simp] theorem putCore_pend (s : State) (c : Nat) (f : Core → Core) : (s.putCore c f).pend = s.pend := rfl
@[simp] theorem putCore_reqs (s : State) (c : Nat) (f : Core → Core) : (s.putCore c f).reqs = s.reqs := rfl
@[simp] theorem putCore_pkts (s : State) (c : Nat) (f : Core → Core) : (s.putCore c f).pkts = s.pkts := rfl
@[simp] theorem putCore_holds (s : State) (c : Nat) (f : Core → Core) : (s.putCore c f).holds = s.holds := rfl
@[simp] theorem putCore_copies (s : State) (c : Nat) (f : Core → Core) : (s.putCore c f).copies = s.copies := rfl
@[simp] theorem putCore_loads (s : State) (c : Nat) (f : Core → Core) : (s.putCore c f).loads = s.loads := rfl
@[simp] theorem putCore_flagMsgs (s : State) (c : Nat) (f : Core → Core) : (s.putCore c f).flagMsgs = s.flagMsgs := rfl
@[simp] theorem putCore_pkg (s : State) (c : Nat) (f : Core → Core) : (s.putCore c f).pkg = s.pkg := rfl
@[simp] theorem putCore_secLo (s : State) (c : Nat) (f : Core → Core) : (s.putCore c f).secLo = s.secLo := rfl
@[simp] theorem putCore_secHi (s : State) (c : Nat) (f : Core → Core) : (s.putCore c f).secHi = s.secHi := rfl
@[simp] theorem putCore_deckle (s : State) (c : Nat) (f : Core → Core) : (s.putCore c f).deckle = s.deckle := rfl
@[simp] theorem putCore_fabric (s : State) (c : Nat) (f : Core → Core) : (s.putCore c f).fabric = s.fabric := rfl
@[simp] theorem putCore_element (s : State) (c : Nat) (f : Core → Core) : (s.putCore c f).element = s.element := rfl
@[simp] theorem putCore_hostReads (s : State) (c : Nat) (f : Core → Core) : (s.putCore c f).hostReads = s.hostReads := rfl
@[simp] theorem putCore_asleep (s : State) (c : Nat) (f : Core → Core) : (s.putCore c f).asleep = s.asleep := rfl
@[simp] theorem putCore_refilled (s : State) (c : Nat) (f : Core → Core) : (s.putCore c f).refilled = s.refilled := rfl
@[simp] theorem putCore_nextId (s : State) (c : Nat) (f : Core → Core) : (s.putCore c f).nextId = s.nextId := rfl
@[simp] theorem putCore_freeCtr (s : State) (c : Nat) (f : Core → Core) : (s.putCore c f).freeCtr = s.freeCtr := rfl
@[simp] theorem putCore_cycle (s : State) (c : Nat) (f : Core → Core) : (s.putCore c f).cycle = s.cycle := rfl

/-! modCore. -/

@[simp] theorem modCore_cur (s : State) (c : Nat) (f : Core → Core) : (s.modCore c f).cur = s.cur := rfl
@[simp] theorem modCore_ev (s : State) (c : Nat) (f : Core → Core) : (s.modCore c f).ev = s.ev := rfl
@[simp] theorem modCore_turns (s : State) (c : Nat) (f : Core → Core) : (s.modCore c f).turns = s.turns := rfl
@[simp] theorem modCore_cores (s : State) (c : Nat) (f : Core → Core) : (s.modCore c f).cores = tmod s.cores c f := rfl
@[simp] theorem modCore_clusters (s : State) (c : Nat) (f : Core → Core) : (s.modCore c f).clusters = s.clusters := rfl
@[simp] theorem modCore_parts (s : State) (c : Nat) (f : Core → Core) : (s.modCore c f).parts = s.parts := rfl
@[simp] theorem modCore_blocks (s : State) (c : Nat) (f : Core → Core) : (s.modCore c f).blocks = s.blocks := rfl
@[simp] theorem modCore_launches (s : State) (c : Nat) (f : Core → Core) : (s.modCore c f).launches = s.launches := rfl
@[simp] theorem modCore_domains (s : State) (c : Nat) (f : Core → Core) : (s.modCore c f).domains = s.domains := rfl
@[simp] theorem modCore_mem (s : State) (c : Nat) (f : Core → Core) : (s.modCore c f).mem = s.mem := rfl
@[simp] theorem modCore_stamped (s : State) (c : Nat) (f : Core → Core) : (s.modCore c f).stamped = s.stamped := rfl
@[simp] theorem modCore_tlb (s : State) (c : Nat) (f : Core → Core) : (s.modCore c f).tlb = s.tlb := rfl
@[simp] theorem modCore_rots (s : State) (c : Nat) (f : Core → Core) : (s.modCore c f).rots = s.rots := rfl
@[simp] theorem modCore_kept (s : State) (c : Nat) (f : Core → Core) : (s.modCore c f).kept = s.kept := rfl
@[simp] theorem modCore_rotlo (s : State) (c : Nat) (f : Core → Core) : (s.modCore c f).rotlo = s.rotlo := rfl
@[simp] theorem modCore_rothi (s : State) (c : Nat) (f : Core → Core) : (s.modCore c f).rothi = s.rothi := rfl
@[simp] theorem modCore_eotidx (s : State) (c : Nat) (f : Core → Core) : (s.modCore c f).eotidx = s.eotidx := rfl
@[simp] theorem modCore_duals (s : State) (c : Nat) (f : Core → Core) : (s.modCore c f).duals = s.duals := rfl
@[simp] theorem modCore_pend (s : State) (c : Nat) (f : Core → Core) : (s.modCore c f).pend = s.pend := rfl
@[simp] theorem modCore_reqs (s : State) (c : Nat) (f : Core → Core) : (s.modCore c f).reqs = s.reqs := rfl
@[simp] theorem modCore_pkts (s : State) (c : Nat) (f : Core → Core) : (s.modCore c f).pkts = s.pkts := rfl
@[simp] theorem modCore_holds (s : State) (c : Nat) (f : Core → Core) : (s.modCore c f).holds = s.holds := rfl
@[simp] theorem modCore_copies (s : State) (c : Nat) (f : Core → Core) : (s.modCore c f).copies = s.copies := rfl
@[simp] theorem modCore_loads (s : State) (c : Nat) (f : Core → Core) : (s.modCore c f).loads = s.loads := rfl
@[simp] theorem modCore_flagMsgs (s : State) (c : Nat) (f : Core → Core) : (s.modCore c f).flagMsgs = s.flagMsgs := rfl
@[simp] theorem modCore_pkg (s : State) (c : Nat) (f : Core → Core) : (s.modCore c f).pkg = s.pkg := rfl
@[simp] theorem modCore_secLo (s : State) (c : Nat) (f : Core → Core) : (s.modCore c f).secLo = s.secLo := rfl
@[simp] theorem modCore_secHi (s : State) (c : Nat) (f : Core → Core) : (s.modCore c f).secHi = s.secHi := rfl
@[simp] theorem modCore_deckle (s : State) (c : Nat) (f : Core → Core) : (s.modCore c f).deckle = s.deckle := rfl
@[simp] theorem modCore_fabric (s : State) (c : Nat) (f : Core → Core) : (s.modCore c f).fabric = s.fabric := rfl
@[simp] theorem modCore_element (s : State) (c : Nat) (f : Core → Core) : (s.modCore c f).element = s.element := rfl
@[simp] theorem modCore_hostReads (s : State) (c : Nat) (f : Core → Core) : (s.modCore c f).hostReads = s.hostReads := rfl
@[simp] theorem modCore_asleep (s : State) (c : Nat) (f : Core → Core) : (s.modCore c f).asleep = s.asleep := rfl
@[simp] theorem modCore_refilled (s : State) (c : Nat) (f : Core → Core) : (s.modCore c f).refilled = s.refilled := rfl
@[simp] theorem modCore_nextId (s : State) (c : Nat) (f : Core → Core) : (s.modCore c f).nextId = s.nextId := rfl
@[simp] theorem modCore_freeCtr (s : State) (c : Nat) (f : Core → Core) : (s.modCore c f).freeCtr = s.freeCtr := rfl
@[simp] theorem modCore_cycle (s : State) (c : Nat) (f : Core → Core) : (s.modCore c f).cycle = s.cycle := rfl

/-! modWarpAt. -/

@[simp] theorem modWarpAt_cur (s : State) (c w : Nat) (f : Warp → Warp) : (s.modWarpAt c w f).cur = s.cur := rfl
@[simp] theorem modWarpAt_ev (s : State) (c w : Nat) (f : Warp → Warp) : (s.modWarpAt c w f).ev = s.ev := rfl
@[simp] theorem modWarpAt_turns (s : State) (c w : Nat) (f : Warp → Warp) : (s.modWarpAt c w f).turns = s.turns := rfl
@[simp] theorem modWarpAt_clusters (s : State) (c w : Nat) (f : Warp → Warp) : (s.modWarpAt c w f).clusters = s.clusters := rfl
@[simp] theorem modWarpAt_parts (s : State) (c w : Nat) (f : Warp → Warp) : (s.modWarpAt c w f).parts = s.parts := rfl
@[simp] theorem modWarpAt_blocks (s : State) (c w : Nat) (f : Warp → Warp) : (s.modWarpAt c w f).blocks = s.blocks := rfl
@[simp] theorem modWarpAt_launches (s : State) (c w : Nat) (f : Warp → Warp) : (s.modWarpAt c w f).launches = s.launches := rfl
@[simp] theorem modWarpAt_domains (s : State) (c w : Nat) (f : Warp → Warp) : (s.modWarpAt c w f).domains = s.domains := rfl
@[simp] theorem modWarpAt_mem (s : State) (c w : Nat) (f : Warp → Warp) : (s.modWarpAt c w f).mem = s.mem := rfl
@[simp] theorem modWarpAt_stamped (s : State) (c w : Nat) (f : Warp → Warp) : (s.modWarpAt c w f).stamped = s.stamped := rfl
@[simp] theorem modWarpAt_tlb (s : State) (c w : Nat) (f : Warp → Warp) : (s.modWarpAt c w f).tlb = s.tlb := rfl
@[simp] theorem modWarpAt_rots (s : State) (c w : Nat) (f : Warp → Warp) : (s.modWarpAt c w f).rots = s.rots := rfl
@[simp] theorem modWarpAt_kept (s : State) (c w : Nat) (f : Warp → Warp) : (s.modWarpAt c w f).kept = s.kept := rfl
@[simp] theorem modWarpAt_rotlo (s : State) (c w : Nat) (f : Warp → Warp) : (s.modWarpAt c w f).rotlo = s.rotlo := rfl
@[simp] theorem modWarpAt_rothi (s : State) (c w : Nat) (f : Warp → Warp) : (s.modWarpAt c w f).rothi = s.rothi := rfl
@[simp] theorem modWarpAt_eotidx (s : State) (c w : Nat) (f : Warp → Warp) : (s.modWarpAt c w f).eotidx = s.eotidx := rfl
@[simp] theorem modWarpAt_duals (s : State) (c w : Nat) (f : Warp → Warp) : (s.modWarpAt c w f).duals = s.duals := rfl
@[simp] theorem modWarpAt_pend (s : State) (c w : Nat) (f : Warp → Warp) : (s.modWarpAt c w f).pend = s.pend := rfl
@[simp] theorem modWarpAt_reqs (s : State) (c w : Nat) (f : Warp → Warp) : (s.modWarpAt c w f).reqs = s.reqs := rfl
@[simp] theorem modWarpAt_pkts (s : State) (c w : Nat) (f : Warp → Warp) : (s.modWarpAt c w f).pkts = s.pkts := rfl
@[simp] theorem modWarpAt_holds (s : State) (c w : Nat) (f : Warp → Warp) : (s.modWarpAt c w f).holds = s.holds := rfl
@[simp] theorem modWarpAt_copies (s : State) (c w : Nat) (f : Warp → Warp) : (s.modWarpAt c w f).copies = s.copies := rfl
@[simp] theorem modWarpAt_loads (s : State) (c w : Nat) (f : Warp → Warp) : (s.modWarpAt c w f).loads = s.loads := rfl
@[simp] theorem modWarpAt_flagMsgs (s : State) (c w : Nat) (f : Warp → Warp) : (s.modWarpAt c w f).flagMsgs = s.flagMsgs := rfl
@[simp] theorem modWarpAt_pkg (s : State) (c w : Nat) (f : Warp → Warp) : (s.modWarpAt c w f).pkg = s.pkg := rfl
@[simp] theorem modWarpAt_secLo (s : State) (c w : Nat) (f : Warp → Warp) : (s.modWarpAt c w f).secLo = s.secLo := rfl
@[simp] theorem modWarpAt_secHi (s : State) (c w : Nat) (f : Warp → Warp) : (s.modWarpAt c w f).secHi = s.secHi := rfl
@[simp] theorem modWarpAt_deckle (s : State) (c w : Nat) (f : Warp → Warp) : (s.modWarpAt c w f).deckle = s.deckle := rfl
@[simp] theorem modWarpAt_fabric (s : State) (c w : Nat) (f : Warp → Warp) : (s.modWarpAt c w f).fabric = s.fabric := rfl
@[simp] theorem modWarpAt_element (s : State) (c w : Nat) (f : Warp → Warp) : (s.modWarpAt c w f).element = s.element := rfl
@[simp] theorem modWarpAt_hostReads (s : State) (c w : Nat) (f : Warp → Warp) : (s.modWarpAt c w f).hostReads = s.hostReads := rfl
@[simp] theorem modWarpAt_asleep (s : State) (c w : Nat) (f : Warp → Warp) : (s.modWarpAt c w f).asleep = s.asleep := rfl
@[simp] theorem modWarpAt_refilled (s : State) (c w : Nat) (f : Warp → Warp) : (s.modWarpAt c w f).refilled = s.refilled := rfl
@[simp] theorem modWarpAt_nextId (s : State) (c w : Nat) (f : Warp → Warp) : (s.modWarpAt c w f).nextId = s.nextId := rfl
@[simp] theorem modWarpAt_freeCtr (s : State) (c w : Nat) (f : Warp → Warp) : (s.modWarpAt c w f).freeCtr = s.freeCtr := rfl
@[simp] theorem modWarpAt_cycle (s : State) (c w : Nat) (f : Warp → Warp) : (s.modWarpAt c w f).cycle = s.cycle := rfl

/-! modWarp. -/

@[simp] theorem modWarp_cur (s : State) (f : Warp → Warp) : (s.modWarp f).cur = s.cur := rfl
@[simp] theorem modWarp_ev (s : State) (f : Warp → Warp) : (s.modWarp f).ev = s.ev := rfl
@[simp] theorem modWarp_turns (s : State) (f : Warp → Warp) : (s.modWarp f).turns = s.turns := rfl
@[simp] theorem modWarp_clusters (s : State) (f : Warp → Warp) : (s.modWarp f).clusters = s.clusters := rfl
@[simp] theorem modWarp_parts (s : State) (f : Warp → Warp) : (s.modWarp f).parts = s.parts := rfl
@[simp] theorem modWarp_blocks (s : State) (f : Warp → Warp) : (s.modWarp f).blocks = s.blocks := rfl
@[simp] theorem modWarp_launches (s : State) (f : Warp → Warp) : (s.modWarp f).launches = s.launches := rfl
@[simp] theorem modWarp_domains (s : State) (f : Warp → Warp) : (s.modWarp f).domains = s.domains := rfl
@[simp] theorem modWarp_mem (s : State) (f : Warp → Warp) : (s.modWarp f).mem = s.mem := rfl
@[simp] theorem modWarp_stamped (s : State) (f : Warp → Warp) : (s.modWarp f).stamped = s.stamped := rfl
@[simp] theorem modWarp_tlb (s : State) (f : Warp → Warp) : (s.modWarp f).tlb = s.tlb := rfl
@[simp] theorem modWarp_rots (s : State) (f : Warp → Warp) : (s.modWarp f).rots = s.rots := rfl
@[simp] theorem modWarp_kept (s : State) (f : Warp → Warp) : (s.modWarp f).kept = s.kept := rfl
@[simp] theorem modWarp_rotlo (s : State) (f : Warp → Warp) : (s.modWarp f).rotlo = s.rotlo := rfl
@[simp] theorem modWarp_rothi (s : State) (f : Warp → Warp) : (s.modWarp f).rothi = s.rothi := rfl
@[simp] theorem modWarp_eotidx (s : State) (f : Warp → Warp) : (s.modWarp f).eotidx = s.eotidx := rfl
@[simp] theorem modWarp_duals (s : State) (f : Warp → Warp) : (s.modWarp f).duals = s.duals := rfl
@[simp] theorem modWarp_pend (s : State) (f : Warp → Warp) : (s.modWarp f).pend = s.pend := rfl
@[simp] theorem modWarp_reqs (s : State) (f : Warp → Warp) : (s.modWarp f).reqs = s.reqs := rfl
@[simp] theorem modWarp_pkts (s : State) (f : Warp → Warp) : (s.modWarp f).pkts = s.pkts := rfl
@[simp] theorem modWarp_holds (s : State) (f : Warp → Warp) : (s.modWarp f).holds = s.holds := rfl
@[simp] theorem modWarp_copies (s : State) (f : Warp → Warp) : (s.modWarp f).copies = s.copies := rfl
@[simp] theorem modWarp_loads (s : State) (f : Warp → Warp) : (s.modWarp f).loads = s.loads := rfl
@[simp] theorem modWarp_flagMsgs (s : State) (f : Warp → Warp) : (s.modWarp f).flagMsgs = s.flagMsgs := rfl
@[simp] theorem modWarp_pkg (s : State) (f : Warp → Warp) : (s.modWarp f).pkg = s.pkg := rfl
@[simp] theorem modWarp_secLo (s : State) (f : Warp → Warp) : (s.modWarp f).secLo = s.secLo := rfl
@[simp] theorem modWarp_secHi (s : State) (f : Warp → Warp) : (s.modWarp f).secHi = s.secHi := rfl
@[simp] theorem modWarp_deckle (s : State) (f : Warp → Warp) : (s.modWarp f).deckle = s.deckle := rfl
@[simp] theorem modWarp_fabric (s : State) (f : Warp → Warp) : (s.modWarp f).fabric = s.fabric := rfl
@[simp] theorem modWarp_element (s : State) (f : Warp → Warp) : (s.modWarp f).element = s.element := rfl
@[simp] theorem modWarp_hostReads (s : State) (f : Warp → Warp) : (s.modWarp f).hostReads = s.hostReads := rfl
@[simp] theorem modWarp_asleep (s : State) (f : Warp → Warp) : (s.modWarp f).asleep = s.asleep := rfl
@[simp] theorem modWarp_refilled (s : State) (f : Warp → Warp) : (s.modWarp f).refilled = s.refilled := rfl
@[simp] theorem modWarp_nextId (s : State) (f : Warp → Warp) : (s.modWarp f).nextId = s.nextId := rfl
@[simp] theorem modWarp_freeCtr (s : State) (f : Warp → Warp) : (s.modWarp f).freeCtr = s.freeCtr := rfl
@[simp] theorem modWarp_cycle (s : State) (f : Warp → Warp) : (s.modWarp f).cycle = s.cycle := rfl

/-! mapActive. -/

@[simp] theorem mapActive_ev (s : State) (f : Nat → Thread → Thread) : (s.mapActive f).ev = s.ev := rfl
@[simp] theorem mapActive_turns (s : State) (f : Nat → Thread → Thread) : (s.mapActive f).turns = s.turns := rfl
@[simp] theorem mapActive_clusters (s : State) (f : Nat → Thread → Thread) : (s.mapActive f).clusters = s.clusters := rfl
@[simp] theorem mapActive_parts (s : State) (f : Nat → Thread → Thread) : (s.mapActive f).parts = s.parts := rfl
@[simp] theorem mapActive_blocks (s : State) (f : Nat → Thread → Thread) : (s.mapActive f).blocks = s.blocks := rfl
@[simp] theorem mapActive_launches (s : State) (f : Nat → Thread → Thread) : (s.mapActive f).launches = s.launches := rfl
@[simp] theorem mapActive_domains (s : State) (f : Nat → Thread → Thread) : (s.mapActive f).domains = s.domains := rfl
@[simp] theorem mapActive_mem (s : State) (f : Nat → Thread → Thread) : (s.mapActive f).mem = s.mem := rfl
@[simp] theorem mapActive_stamped (s : State) (f : Nat → Thread → Thread) : (s.mapActive f).stamped = s.stamped := rfl
@[simp] theorem mapActive_tlb (s : State) (f : Nat → Thread → Thread) : (s.mapActive f).tlb = s.tlb := rfl
@[simp] theorem mapActive_rots (s : State) (f : Nat → Thread → Thread) : (s.mapActive f).rots = s.rots := rfl
@[simp] theorem mapActive_kept (s : State) (f : Nat → Thread → Thread) : (s.mapActive f).kept = s.kept := rfl
@[simp] theorem mapActive_rotlo (s : State) (f : Nat → Thread → Thread) : (s.mapActive f).rotlo = s.rotlo := rfl
@[simp] theorem mapActive_rothi (s : State) (f : Nat → Thread → Thread) : (s.mapActive f).rothi = s.rothi := rfl
@[simp] theorem mapActive_eotidx (s : State) (f : Nat → Thread → Thread) : (s.mapActive f).eotidx = s.eotidx := rfl
@[simp] theorem mapActive_duals (s : State) (f : Nat → Thread → Thread) : (s.mapActive f).duals = s.duals := rfl
@[simp] theorem mapActive_pend (s : State) (f : Nat → Thread → Thread) : (s.mapActive f).pend = s.pend := rfl
@[simp] theorem mapActive_reqs (s : State) (f : Nat → Thread → Thread) : (s.mapActive f).reqs = s.reqs := rfl
@[simp] theorem mapActive_pkts (s : State) (f : Nat → Thread → Thread) : (s.mapActive f).pkts = s.pkts := rfl
@[simp] theorem mapActive_holds (s : State) (f : Nat → Thread → Thread) : (s.mapActive f).holds = s.holds := rfl
@[simp] theorem mapActive_copies (s : State) (f : Nat → Thread → Thread) : (s.mapActive f).copies = s.copies := rfl
@[simp] theorem mapActive_loads (s : State) (f : Nat → Thread → Thread) : (s.mapActive f).loads = s.loads := rfl
@[simp] theorem mapActive_flagMsgs (s : State) (f : Nat → Thread → Thread) : (s.mapActive f).flagMsgs = s.flagMsgs := rfl
@[simp] theorem mapActive_pkg (s : State) (f : Nat → Thread → Thread) : (s.mapActive f).pkg = s.pkg := rfl
@[simp] theorem mapActive_secLo (s : State) (f : Nat → Thread → Thread) : (s.mapActive f).secLo = s.secLo := rfl
@[simp] theorem mapActive_secHi (s : State) (f : Nat → Thread → Thread) : (s.mapActive f).secHi = s.secHi := rfl
@[simp] theorem mapActive_deckle (s : State) (f : Nat → Thread → Thread) : (s.mapActive f).deckle = s.deckle := rfl
@[simp] theorem mapActive_fabric (s : State) (f : Nat → Thread → Thread) : (s.mapActive f).fabric = s.fabric := rfl
@[simp] theorem mapActive_element (s : State) (f : Nat → Thread → Thread) : (s.mapActive f).element = s.element := rfl
@[simp] theorem mapActive_hostReads (s : State) (f : Nat → Thread → Thread) : (s.mapActive f).hostReads = s.hostReads := rfl
@[simp] theorem mapActive_asleep (s : State) (f : Nat → Thread → Thread) : (s.mapActive f).asleep = s.asleep := rfl
@[simp] theorem mapActive_refilled (s : State) (f : Nat → Thread → Thread) : (s.mapActive f).refilled = s.refilled := rfl
@[simp] theorem mapActive_nextId (s : State) (f : Nat → Thread → Thread) : (s.mapActive f).nextId = s.nextId := rfl
@[simp] theorem mapActive_freeCtr (s : State) (f : Nat → Thread → Thread) : (s.mapActive f).freeCtr = s.freeCtr := rfl
@[simp] theorem mapActive_cycle (s : State) (f : Nat → Thread → Thread) : (s.mapActive f).cycle = s.cycle := rfl

/-! modPart. -/

@[simp] theorem modPart_cur (s : State) (p : Nat) (f : Part → Part) : (s.modPart p f).cur = s.cur := rfl
@[simp] theorem modPart_ev (s : State) (p : Nat) (f : Part → Part) : (s.modPart p f).ev = s.ev := rfl
@[simp] theorem modPart_turns (s : State) (p : Nat) (f : Part → Part) : (s.modPart p f).turns = s.turns := rfl
@[simp] theorem modPart_cores (s : State) (p : Nat) (f : Part → Part) : (s.modPart p f).cores = s.cores := rfl
@[simp] theorem modPart_clusters (s : State) (p : Nat) (f : Part → Part) : (s.modPart p f).clusters = s.clusters := rfl
@[simp] theorem modPart_parts (s : State) (p : Nat) (f : Part → Part) : (s.modPart p f).parts = tmod s.parts p f := rfl
@[simp] theorem modPart_blocks (s : State) (p : Nat) (f : Part → Part) : (s.modPart p f).blocks = s.blocks := rfl
@[simp] theorem modPart_launches (s : State) (p : Nat) (f : Part → Part) : (s.modPart p f).launches = s.launches := rfl
@[simp] theorem modPart_domains (s : State) (p : Nat) (f : Part → Part) : (s.modPart p f).domains = s.domains := rfl
@[simp] theorem modPart_mem (s : State) (p : Nat) (f : Part → Part) : (s.modPart p f).mem = s.mem := rfl
@[simp] theorem modPart_stamped (s : State) (p : Nat) (f : Part → Part) : (s.modPart p f).stamped = s.stamped := rfl
@[simp] theorem modPart_tlb (s : State) (p : Nat) (f : Part → Part) : (s.modPart p f).tlb = s.tlb := rfl
@[simp] theorem modPart_rots (s : State) (p : Nat) (f : Part → Part) : (s.modPart p f).rots = s.rots := rfl
@[simp] theorem modPart_kept (s : State) (p : Nat) (f : Part → Part) : (s.modPart p f).kept = s.kept := rfl
@[simp] theorem modPart_rotlo (s : State) (p : Nat) (f : Part → Part) : (s.modPart p f).rotlo = s.rotlo := rfl
@[simp] theorem modPart_rothi (s : State) (p : Nat) (f : Part → Part) : (s.modPart p f).rothi = s.rothi := rfl
@[simp] theorem modPart_eotidx (s : State) (p : Nat) (f : Part → Part) : (s.modPart p f).eotidx = s.eotidx := rfl
@[simp] theorem modPart_duals (s : State) (p : Nat) (f : Part → Part) : (s.modPart p f).duals = s.duals := rfl
@[simp] theorem modPart_pend (s : State) (p : Nat) (f : Part → Part) : (s.modPart p f).pend = s.pend := rfl
@[simp] theorem modPart_reqs (s : State) (p : Nat) (f : Part → Part) : (s.modPart p f).reqs = s.reqs := rfl
@[simp] theorem modPart_pkts (s : State) (p : Nat) (f : Part → Part) : (s.modPart p f).pkts = s.pkts := rfl
@[simp] theorem modPart_holds (s : State) (p : Nat) (f : Part → Part) : (s.modPart p f).holds = s.holds := rfl
@[simp] theorem modPart_copies (s : State) (p : Nat) (f : Part → Part) : (s.modPart p f).copies = s.copies := rfl
@[simp] theorem modPart_loads (s : State) (p : Nat) (f : Part → Part) : (s.modPart p f).loads = s.loads := rfl
@[simp] theorem modPart_flagMsgs (s : State) (p : Nat) (f : Part → Part) : (s.modPart p f).flagMsgs = s.flagMsgs := rfl
@[simp] theorem modPart_pkg (s : State) (p : Nat) (f : Part → Part) : (s.modPart p f).pkg = s.pkg := rfl
@[simp] theorem modPart_secLo (s : State) (p : Nat) (f : Part → Part) : (s.modPart p f).secLo = s.secLo := rfl
@[simp] theorem modPart_secHi (s : State) (p : Nat) (f : Part → Part) : (s.modPart p f).secHi = s.secHi := rfl
@[simp] theorem modPart_deckle (s : State) (p : Nat) (f : Part → Part) : (s.modPart p f).deckle = s.deckle := rfl
@[simp] theorem modPart_fabric (s : State) (p : Nat) (f : Part → Part) : (s.modPart p f).fabric = s.fabric := rfl
@[simp] theorem modPart_element (s : State) (p : Nat) (f : Part → Part) : (s.modPart p f).element = s.element := rfl
@[simp] theorem modPart_hostReads (s : State) (p : Nat) (f : Part → Part) : (s.modPart p f).hostReads = s.hostReads := rfl
@[simp] theorem modPart_asleep (s : State) (p : Nat) (f : Part → Part) : (s.modPart p f).asleep = s.asleep := rfl
@[simp] theorem modPart_refilled (s : State) (p : Nat) (f : Part → Part) : (s.modPart p f).refilled = s.refilled := rfl
@[simp] theorem modPart_nextId (s : State) (p : Nat) (f : Part → Part) : (s.modPart p f).nextId = s.nextId := rfl
@[simp] theorem modPart_freeCtr (s : State) (p : Nat) (f : Part → Part) : (s.modPart p f).freeCtr = s.freeCtr := rfl
@[simp] theorem modPart_cycle (s : State) (p : Nat) (f : Part → Part) : (s.modPart p f).cycle = s.cycle := rfl

/-! modBlock. -/

@[simp] theorem modBlock_cur (s : State) (b : Nat) (f : Block → Block) : (s.modBlock b f).cur = s.cur := rfl
@[simp] theorem modBlock_ev (s : State) (b : Nat) (f : Block → Block) : (s.modBlock b f).ev = s.ev := rfl
@[simp] theorem modBlock_turns (s : State) (b : Nat) (f : Block → Block) : (s.modBlock b f).turns = s.turns := rfl
@[simp] theorem modBlock_cores (s : State) (b : Nat) (f : Block → Block) : (s.modBlock b f).cores = s.cores := rfl
@[simp] theorem modBlock_clusters (s : State) (b : Nat) (f : Block → Block) : (s.modBlock b f).clusters = s.clusters := rfl
@[simp] theorem modBlock_parts (s : State) (b : Nat) (f : Block → Block) : (s.modBlock b f).parts = s.parts := rfl
@[simp] theorem modBlock_blocks (s : State) (b : Nat) (f : Block → Block) : (s.modBlock b f).blocks = tmod s.blocks b f := rfl
@[simp] theorem modBlock_launches (s : State) (b : Nat) (f : Block → Block) : (s.modBlock b f).launches = s.launches := rfl
@[simp] theorem modBlock_domains (s : State) (b : Nat) (f : Block → Block) : (s.modBlock b f).domains = s.domains := rfl
@[simp] theorem modBlock_mem (s : State) (b : Nat) (f : Block → Block) : (s.modBlock b f).mem = s.mem := rfl
@[simp] theorem modBlock_stamped (s : State) (b : Nat) (f : Block → Block) : (s.modBlock b f).stamped = s.stamped := rfl
@[simp] theorem modBlock_tlb (s : State) (b : Nat) (f : Block → Block) : (s.modBlock b f).tlb = s.tlb := rfl
@[simp] theorem modBlock_rots (s : State) (b : Nat) (f : Block → Block) : (s.modBlock b f).rots = s.rots := rfl
@[simp] theorem modBlock_kept (s : State) (b : Nat) (f : Block → Block) : (s.modBlock b f).kept = s.kept := rfl
@[simp] theorem modBlock_rotlo (s : State) (b : Nat) (f : Block → Block) : (s.modBlock b f).rotlo = s.rotlo := rfl
@[simp] theorem modBlock_rothi (s : State) (b : Nat) (f : Block → Block) : (s.modBlock b f).rothi = s.rothi := rfl
@[simp] theorem modBlock_eotidx (s : State) (b : Nat) (f : Block → Block) : (s.modBlock b f).eotidx = s.eotidx := rfl
@[simp] theorem modBlock_duals (s : State) (b : Nat) (f : Block → Block) : (s.modBlock b f).duals = s.duals := rfl
@[simp] theorem modBlock_pend (s : State) (b : Nat) (f : Block → Block) : (s.modBlock b f).pend = s.pend := rfl
@[simp] theorem modBlock_reqs (s : State) (b : Nat) (f : Block → Block) : (s.modBlock b f).reqs = s.reqs := rfl
@[simp] theorem modBlock_pkts (s : State) (b : Nat) (f : Block → Block) : (s.modBlock b f).pkts = s.pkts := rfl
@[simp] theorem modBlock_holds (s : State) (b : Nat) (f : Block → Block) : (s.modBlock b f).holds = s.holds := rfl
@[simp] theorem modBlock_copies (s : State) (b : Nat) (f : Block → Block) : (s.modBlock b f).copies = s.copies := rfl
@[simp] theorem modBlock_loads (s : State) (b : Nat) (f : Block → Block) : (s.modBlock b f).loads = s.loads := rfl
@[simp] theorem modBlock_flagMsgs (s : State) (b : Nat) (f : Block → Block) : (s.modBlock b f).flagMsgs = s.flagMsgs := rfl
@[simp] theorem modBlock_pkg (s : State) (b : Nat) (f : Block → Block) : (s.modBlock b f).pkg = s.pkg := rfl
@[simp] theorem modBlock_secLo (s : State) (b : Nat) (f : Block → Block) : (s.modBlock b f).secLo = s.secLo := rfl
@[simp] theorem modBlock_secHi (s : State) (b : Nat) (f : Block → Block) : (s.modBlock b f).secHi = s.secHi := rfl
@[simp] theorem modBlock_deckle (s : State) (b : Nat) (f : Block → Block) : (s.modBlock b f).deckle = s.deckle := rfl
@[simp] theorem modBlock_fabric (s : State) (b : Nat) (f : Block → Block) : (s.modBlock b f).fabric = s.fabric := rfl
@[simp] theorem modBlock_element (s : State) (b : Nat) (f : Block → Block) : (s.modBlock b f).element = s.element := rfl
@[simp] theorem modBlock_hostReads (s : State) (b : Nat) (f : Block → Block) : (s.modBlock b f).hostReads = s.hostReads := rfl
@[simp] theorem modBlock_asleep (s : State) (b : Nat) (f : Block → Block) : (s.modBlock b f).asleep = s.asleep := rfl
@[simp] theorem modBlock_refilled (s : State) (b : Nat) (f : Block → Block) : (s.modBlock b f).refilled = s.refilled := rfl
@[simp] theorem modBlock_nextId (s : State) (b : Nat) (f : Block → Block) : (s.modBlock b f).nextId = s.nextId := rfl
@[simp] theorem modBlock_freeCtr (s : State) (b : Nat) (f : Block → Block) : (s.modBlock b f).freeCtr = s.freeCtr := rfl
@[simp] theorem modBlock_cycle (s : State) (b : Nat) (f : Block → Block) : (s.modBlock b f).cycle = s.cycle := rfl

/-! modCluster. -/

@[simp] theorem modCluster_cur (s : State) (c : Nat) (f : Cluster → Cluster) : (s.modCluster c f).cur = s.cur := rfl
@[simp] theorem modCluster_ev (s : State) (c : Nat) (f : Cluster → Cluster) : (s.modCluster c f).ev = s.ev := rfl
@[simp] theorem modCluster_turns (s : State) (c : Nat) (f : Cluster → Cluster) : (s.modCluster c f).turns = s.turns := rfl
@[simp] theorem modCluster_cores (s : State) (c : Nat) (f : Cluster → Cluster) : (s.modCluster c f).cores = s.cores := rfl
@[simp] theorem modCluster_parts (s : State) (c : Nat) (f : Cluster → Cluster) : (s.modCluster c f).parts = s.parts := rfl
@[simp] theorem modCluster_blocks (s : State) (c : Nat) (f : Cluster → Cluster) : (s.modCluster c f).blocks = s.blocks := rfl
@[simp] theorem modCluster_launches (s : State) (c : Nat) (f : Cluster → Cluster) : (s.modCluster c f).launches = s.launches := rfl
@[simp] theorem modCluster_domains (s : State) (c : Nat) (f : Cluster → Cluster) : (s.modCluster c f).domains = s.domains := rfl
@[simp] theorem modCluster_mem (s : State) (c : Nat) (f : Cluster → Cluster) : (s.modCluster c f).mem = s.mem := rfl
@[simp] theorem modCluster_stamped (s : State) (c : Nat) (f : Cluster → Cluster) : (s.modCluster c f).stamped = s.stamped := rfl
@[simp] theorem modCluster_tlb (s : State) (c : Nat) (f : Cluster → Cluster) : (s.modCluster c f).tlb = s.tlb := rfl
@[simp] theorem modCluster_rots (s : State) (c : Nat) (f : Cluster → Cluster) : (s.modCluster c f).rots = s.rots := rfl
@[simp] theorem modCluster_kept (s : State) (c : Nat) (f : Cluster → Cluster) : (s.modCluster c f).kept = s.kept := rfl
@[simp] theorem modCluster_rotlo (s : State) (c : Nat) (f : Cluster → Cluster) : (s.modCluster c f).rotlo = s.rotlo := rfl
@[simp] theorem modCluster_rothi (s : State) (c : Nat) (f : Cluster → Cluster) : (s.modCluster c f).rothi = s.rothi := rfl
@[simp] theorem modCluster_eotidx (s : State) (c : Nat) (f : Cluster → Cluster) : (s.modCluster c f).eotidx = s.eotidx := rfl
@[simp] theorem modCluster_duals (s : State) (c : Nat) (f : Cluster → Cluster) : (s.modCluster c f).duals = s.duals := rfl
@[simp] theorem modCluster_pend (s : State) (c : Nat) (f : Cluster → Cluster) : (s.modCluster c f).pend = s.pend := rfl
@[simp] theorem modCluster_reqs (s : State) (c : Nat) (f : Cluster → Cluster) : (s.modCluster c f).reqs = s.reqs := rfl
@[simp] theorem modCluster_pkts (s : State) (c : Nat) (f : Cluster → Cluster) : (s.modCluster c f).pkts = s.pkts := rfl
@[simp] theorem modCluster_holds (s : State) (c : Nat) (f : Cluster → Cluster) : (s.modCluster c f).holds = s.holds := rfl
@[simp] theorem modCluster_copies (s : State) (c : Nat) (f : Cluster → Cluster) : (s.modCluster c f).copies = s.copies := rfl
@[simp] theorem modCluster_loads (s : State) (c : Nat) (f : Cluster → Cluster) : (s.modCluster c f).loads = s.loads := rfl
@[simp] theorem modCluster_flagMsgs (s : State) (c : Nat) (f : Cluster → Cluster) : (s.modCluster c f).flagMsgs = s.flagMsgs := rfl
@[simp] theorem modCluster_pkg (s : State) (c : Nat) (f : Cluster → Cluster) : (s.modCluster c f).pkg = s.pkg := rfl
@[simp] theorem modCluster_secLo (s : State) (c : Nat) (f : Cluster → Cluster) : (s.modCluster c f).secLo = s.secLo := rfl
@[simp] theorem modCluster_secHi (s : State) (c : Nat) (f : Cluster → Cluster) : (s.modCluster c f).secHi = s.secHi := rfl
@[simp] theorem modCluster_deckle (s : State) (c : Nat) (f : Cluster → Cluster) : (s.modCluster c f).deckle = s.deckle := rfl
@[simp] theorem modCluster_fabric (s : State) (c : Nat) (f : Cluster → Cluster) : (s.modCluster c f).fabric = s.fabric := rfl
@[simp] theorem modCluster_element (s : State) (c : Nat) (f : Cluster → Cluster) : (s.modCluster c f).element = s.element := rfl
@[simp] theorem modCluster_hostReads (s : State) (c : Nat) (f : Cluster → Cluster) : (s.modCluster c f).hostReads = s.hostReads := rfl
@[simp] theorem modCluster_asleep (s : State) (c : Nat) (f : Cluster → Cluster) : (s.modCluster c f).asleep = s.asleep := rfl
@[simp] theorem modCluster_refilled (s : State) (c : Nat) (f : Cluster → Cluster) : (s.modCluster c f).refilled = s.refilled := rfl
@[simp] theorem modCluster_nextId (s : State) (c : Nat) (f : Cluster → Cluster) : (s.modCluster c f).nextId = s.nextId := rfl
@[simp] theorem modCluster_freeCtr (s : State) (c : Nat) (f : Cluster → Cluster) : (s.modCluster c f).freeCtr = s.freeCtr := rfl
@[simp] theorem modCluster_cycle (s : State) (c : Nat) (f : Cluster → Cluster) : (s.modCluster c f).cycle = s.cycle := rfl

/-! modDomain. -/

@[simp] theorem modDomain_cur (s : State) (p d : Nat) (f : Domain → Domain) : (s.modDomain p d f).cur = s.cur := rfl
@[simp] theorem modDomain_ev (s : State) (p d : Nat) (f : Domain → Domain) : (s.modDomain p d f).ev = s.ev := rfl
@[simp] theorem modDomain_turns (s : State) (p d : Nat) (f : Domain → Domain) : (s.modDomain p d f).turns = s.turns := rfl
@[simp] theorem modDomain_cores (s : State) (p d : Nat) (f : Domain → Domain) : (s.modDomain p d f).cores = s.cores := rfl
@[simp] theorem modDomain_clusters (s : State) (p d : Nat) (f : Domain → Domain) : (s.modDomain p d f).clusters = s.clusters := rfl
@[simp] theorem modDomain_parts (s : State) (p d : Nat) (f : Domain → Domain) : (s.modDomain p d f).parts = s.parts := rfl
@[simp] theorem modDomain_blocks (s : State) (p d : Nat) (f : Domain → Domain) : (s.modDomain p d f).blocks = s.blocks := rfl
@[simp] theorem modDomain_launches (s : State) (p d : Nat) (f : Domain → Domain) : (s.modDomain p d f).launches = s.launches := rfl
@[simp] theorem modDomain_mem (s : State) (p d : Nat) (f : Domain → Domain) : (s.modDomain p d f).mem = s.mem := rfl
@[simp] theorem modDomain_stamped (s : State) (p d : Nat) (f : Domain → Domain) : (s.modDomain p d f).stamped = s.stamped := rfl
@[simp] theorem modDomain_tlb (s : State) (p d : Nat) (f : Domain → Domain) : (s.modDomain p d f).tlb = s.tlb := rfl
@[simp] theorem modDomain_rots (s : State) (p d : Nat) (f : Domain → Domain) : (s.modDomain p d f).rots = s.rots := rfl
@[simp] theorem modDomain_kept (s : State) (p d : Nat) (f : Domain → Domain) : (s.modDomain p d f).kept = s.kept := rfl
@[simp] theorem modDomain_rotlo (s : State) (p d : Nat) (f : Domain → Domain) : (s.modDomain p d f).rotlo = s.rotlo := rfl
@[simp] theorem modDomain_rothi (s : State) (p d : Nat) (f : Domain → Domain) : (s.modDomain p d f).rothi = s.rothi := rfl
@[simp] theorem modDomain_eotidx (s : State) (p d : Nat) (f : Domain → Domain) : (s.modDomain p d f).eotidx = s.eotidx := rfl
@[simp] theorem modDomain_duals (s : State) (p d : Nat) (f : Domain → Domain) : (s.modDomain p d f).duals = s.duals := rfl
@[simp] theorem modDomain_pend (s : State) (p d : Nat) (f : Domain → Domain) : (s.modDomain p d f).pend = s.pend := rfl
@[simp] theorem modDomain_reqs (s : State) (p d : Nat) (f : Domain → Domain) : (s.modDomain p d f).reqs = s.reqs := rfl
@[simp] theorem modDomain_pkts (s : State) (p d : Nat) (f : Domain → Domain) : (s.modDomain p d f).pkts = s.pkts := rfl
@[simp] theorem modDomain_holds (s : State) (p d : Nat) (f : Domain → Domain) : (s.modDomain p d f).holds = s.holds := rfl
@[simp] theorem modDomain_copies (s : State) (p d : Nat) (f : Domain → Domain) : (s.modDomain p d f).copies = s.copies := rfl
@[simp] theorem modDomain_loads (s : State) (p d : Nat) (f : Domain → Domain) : (s.modDomain p d f).loads = s.loads := rfl
@[simp] theorem modDomain_flagMsgs (s : State) (p d : Nat) (f : Domain → Domain) : (s.modDomain p d f).flagMsgs = s.flagMsgs := rfl
@[simp] theorem modDomain_pkg (s : State) (p d : Nat) (f : Domain → Domain) : (s.modDomain p d f).pkg = s.pkg := rfl
@[simp] theorem modDomain_secLo (s : State) (p d : Nat) (f : Domain → Domain) : (s.modDomain p d f).secLo = s.secLo := rfl
@[simp] theorem modDomain_secHi (s : State) (p d : Nat) (f : Domain → Domain) : (s.modDomain p d f).secHi = s.secHi := rfl
@[simp] theorem modDomain_deckle (s : State) (p d : Nat) (f : Domain → Domain) : (s.modDomain p d f).deckle = s.deckle := rfl
@[simp] theorem modDomain_fabric (s : State) (p d : Nat) (f : Domain → Domain) : (s.modDomain p d f).fabric = s.fabric := rfl
@[simp] theorem modDomain_element (s : State) (p d : Nat) (f : Domain → Domain) : (s.modDomain p d f).element = s.element := rfl
@[simp] theorem modDomain_hostReads (s : State) (p d : Nat) (f : Domain → Domain) : (s.modDomain p d f).hostReads = s.hostReads := rfl
@[simp] theorem modDomain_asleep (s : State) (p d : Nat) (f : Domain → Domain) : (s.modDomain p d f).asleep = s.asleep := rfl
@[simp] theorem modDomain_refilled (s : State) (p d : Nat) (f : Domain → Domain) : (s.modDomain p d f).refilled = s.refilled := rfl
@[simp] theorem modDomain_nextId (s : State) (p d : Nat) (f : Domain → Domain) : (s.modDomain p d f).nextId = s.nextId := rfl
@[simp] theorem modDomain_freeCtr (s : State) (p d : Nat) (f : Domain → Domain) : (s.modDomain p d f).freeCtr = s.freeCtr := rfl
@[simp] theorem modDomain_cycle (s : State) (p d : Nat) (f : Domain → Domain) : (s.modDomain p d f).cycle = s.cycle := rfl

/-! wake. -/

@[simp] theorem wake_cur (s : State) (p : Wait → Bool) : (s.wake p).cur = s.cur := rfl
@[simp] theorem wake_ev (s : State) (p : Wait → Bool) : (s.wake p).ev = s.ev := rfl
@[simp] theorem wake_turns (s : State) (p : Wait → Bool) : (s.wake p).turns = s.turns := rfl
@[simp] theorem wake_clusters (s : State) (p : Wait → Bool) : (s.wake p).clusters = s.clusters := rfl
@[simp] theorem wake_parts (s : State) (p : Wait → Bool) : (s.wake p).parts = s.parts := rfl
@[simp] theorem wake_blocks (s : State) (p : Wait → Bool) : (s.wake p).blocks = s.blocks := rfl
@[simp] theorem wake_launches (s : State) (p : Wait → Bool) : (s.wake p).launches = s.launches := rfl
@[simp] theorem wake_domains (s : State) (p : Wait → Bool) : (s.wake p).domains = s.domains := rfl
@[simp] theorem wake_mem (s : State) (p : Wait → Bool) : (s.wake p).mem = s.mem := rfl
@[simp] theorem wake_stamped (s : State) (p : Wait → Bool) : (s.wake p).stamped = s.stamped := rfl
@[simp] theorem wake_tlb (s : State) (p : Wait → Bool) : (s.wake p).tlb = s.tlb := rfl
@[simp] theorem wake_rots (s : State) (p : Wait → Bool) : (s.wake p).rots = s.rots := rfl
@[simp] theorem wake_kept (s : State) (p : Wait → Bool) : (s.wake p).kept = s.kept := rfl
@[simp] theorem wake_rotlo (s : State) (p : Wait → Bool) : (s.wake p).rotlo = s.rotlo := rfl
@[simp] theorem wake_rothi (s : State) (p : Wait → Bool) : (s.wake p).rothi = s.rothi := rfl
@[simp] theorem wake_eotidx (s : State) (p : Wait → Bool) : (s.wake p).eotidx = s.eotidx := rfl
@[simp] theorem wake_duals (s : State) (p : Wait → Bool) : (s.wake p).duals = s.duals := rfl
@[simp] theorem wake_pend (s : State) (p : Wait → Bool) : (s.wake p).pend = s.pend := rfl
@[simp] theorem wake_reqs (s : State) (p : Wait → Bool) : (s.wake p).reqs = s.reqs := rfl
@[simp] theorem wake_pkts (s : State) (p : Wait → Bool) : (s.wake p).pkts = s.pkts := rfl
@[simp] theorem wake_holds (s : State) (p : Wait → Bool) : (s.wake p).holds = s.holds := rfl
@[simp] theorem wake_copies (s : State) (p : Wait → Bool) : (s.wake p).copies = s.copies := rfl
@[simp] theorem wake_loads (s : State) (p : Wait → Bool) : (s.wake p).loads = s.loads := rfl
@[simp] theorem wake_flagMsgs (s : State) (p : Wait → Bool) : (s.wake p).flagMsgs = s.flagMsgs := rfl
@[simp] theorem wake_pkg (s : State) (p : Wait → Bool) : (s.wake p).pkg = s.pkg := rfl
@[simp] theorem wake_secLo (s : State) (p : Wait → Bool) : (s.wake p).secLo = s.secLo := rfl
@[simp] theorem wake_secHi (s : State) (p : Wait → Bool) : (s.wake p).secHi = s.secHi := rfl
@[simp] theorem wake_deckle (s : State) (p : Wait → Bool) : (s.wake p).deckle = s.deckle := rfl
@[simp] theorem wake_fabric (s : State) (p : Wait → Bool) : (s.wake p).fabric = s.fabric := rfl
@[simp] theorem wake_element (s : State) (p : Wait → Bool) : (s.wake p).element = s.element := rfl
@[simp] theorem wake_hostReads (s : State) (p : Wait → Bool) : (s.wake p).hostReads = s.hostReads := rfl
@[simp] theorem wake_asleep (s : State) (p : Wait → Bool) : (s.wake p).asleep = s.asleep := rfl
@[simp] theorem wake_refilled (s : State) (p : Wait → Bool) : (s.wake p).refilled = s.refilled := rfl
@[simp] theorem wake_nextId (s : State) (p : Wait → Bool) : (s.wake p).nextId = s.nextId := rfl
@[simp] theorem wake_freeCtr (s : State) (p : Wait → Bool) : (s.wake p).freeCtr = s.freeCtr := rfl
@[simp] theorem wake_cycle (s : State) (p : Wait → Bool) : (s.wake p).cycle = s.cycle := rfl

/-! charge. -/

@[simp] theorem charge_ev (s : State) (n : Nat) : (s.charge n).ev = s.ev := rfl
@[simp] theorem charge_turns (s : State) (n : Nat) : (s.charge n).turns = s.turns := rfl
@[simp] theorem charge_clusters (s : State) (n : Nat) : (s.charge n).clusters = s.clusters := rfl
@[simp] theorem charge_parts (s : State) (n : Nat) : (s.charge n).parts = s.parts := rfl
@[simp] theorem charge_blocks (s : State) (n : Nat) : (s.charge n).blocks = s.blocks := rfl
@[simp] theorem charge_launches (s : State) (n : Nat) : (s.charge n).launches = s.launches := rfl
@[simp] theorem charge_domains (s : State) (n : Nat) : (s.charge n).domains = s.domains := rfl
@[simp] theorem charge_mem (s : State) (n : Nat) : (s.charge n).mem = s.mem := rfl
@[simp] theorem charge_stamped (s : State) (n : Nat) : (s.charge n).stamped = s.stamped := rfl
@[simp] theorem charge_tlb (s : State) (n : Nat) : (s.charge n).tlb = s.tlb := rfl
@[simp] theorem charge_rots (s : State) (n : Nat) : (s.charge n).rots = s.rots := rfl
@[simp] theorem charge_kept (s : State) (n : Nat) : (s.charge n).kept = s.kept := rfl
@[simp] theorem charge_rotlo (s : State) (n : Nat) : (s.charge n).rotlo = s.rotlo := rfl
@[simp] theorem charge_rothi (s : State) (n : Nat) : (s.charge n).rothi = s.rothi := rfl
@[simp] theorem charge_eotidx (s : State) (n : Nat) : (s.charge n).eotidx = s.eotidx := rfl
@[simp] theorem charge_duals (s : State) (n : Nat) : (s.charge n).duals = s.duals := rfl
@[simp] theorem charge_pend (s : State) (n : Nat) : (s.charge n).pend = s.pend := rfl
@[simp] theorem charge_reqs (s : State) (n : Nat) : (s.charge n).reqs = s.reqs := rfl
@[simp] theorem charge_pkts (s : State) (n : Nat) : (s.charge n).pkts = s.pkts := rfl
@[simp] theorem charge_holds (s : State) (n : Nat) : (s.charge n).holds = s.holds := rfl
@[simp] theorem charge_copies (s : State) (n : Nat) : (s.charge n).copies = s.copies := rfl
@[simp] theorem charge_loads (s : State) (n : Nat) : (s.charge n).loads = s.loads := rfl
@[simp] theorem charge_flagMsgs (s : State) (n : Nat) : (s.charge n).flagMsgs = s.flagMsgs := rfl
@[simp] theorem charge_pkg (s : State) (n : Nat) : (s.charge n).pkg = s.pkg := rfl
@[simp] theorem charge_secLo (s : State) (n : Nat) : (s.charge n).secLo = s.secLo := rfl
@[simp] theorem charge_secHi (s : State) (n : Nat) : (s.charge n).secHi = s.secHi := rfl
@[simp] theorem charge_deckle (s : State) (n : Nat) : (s.charge n).deckle = s.deckle := rfl
@[simp] theorem charge_fabric (s : State) (n : Nat) : (s.charge n).fabric = s.fabric := rfl
@[simp] theorem charge_element (s : State) (n : Nat) : (s.charge n).element = s.element := rfl
@[simp] theorem charge_hostReads (s : State) (n : Nat) : (s.charge n).hostReads = s.hostReads := rfl
@[simp] theorem charge_asleep (s : State) (n : Nat) : (s.charge n).asleep = s.asleep := rfl
@[simp] theorem charge_refilled (s : State) (n : Nat) : (s.charge n).refilled = s.refilled := rfl
@[simp] theorem charge_nextId (s : State) (n : Nat) : (s.charge n).nextId = s.nextId := rfl
@[simp] theorem charge_freeCtr (s : State) (n : Nat) : (s.charge n).freeCtr = s.freeCtr := rfl
@[simp] theorem charge_cycle (s : State) (n : Nat) : (s.charge n).cycle = s.cycle := rfl

/-! wakeWarp. -/

@[simp] theorem wakeWarp_cur (s : State) (c w : Nat) (p : Wait → Bool) : (s.wakeWarp c w p).cur = s.cur := rfl
@[simp] theorem wakeWarp_ev (s : State) (c w : Nat) (p : Wait → Bool) : (s.wakeWarp c w p).ev = s.ev := rfl
@[simp] theorem wakeWarp_turns (s : State) (c w : Nat) (p : Wait → Bool) : (s.wakeWarp c w p).turns = s.turns := rfl
@[simp] theorem wakeWarp_clusters (s : State) (c w : Nat) (p : Wait → Bool) : (s.wakeWarp c w p).clusters = s.clusters := rfl
@[simp] theorem wakeWarp_parts (s : State) (c w : Nat) (p : Wait → Bool) : (s.wakeWarp c w p).parts = s.parts := rfl
@[simp] theorem wakeWarp_blocks (s : State) (c w : Nat) (p : Wait → Bool) : (s.wakeWarp c w p).blocks = s.blocks := rfl
@[simp] theorem wakeWarp_launches (s : State) (c w : Nat) (p : Wait → Bool) : (s.wakeWarp c w p).launches = s.launches := rfl
@[simp] theorem wakeWarp_domains (s : State) (c w : Nat) (p : Wait → Bool) : (s.wakeWarp c w p).domains = s.domains := rfl
@[simp] theorem wakeWarp_mem (s : State) (c w : Nat) (p : Wait → Bool) : (s.wakeWarp c w p).mem = s.mem := rfl
@[simp] theorem wakeWarp_stamped (s : State) (c w : Nat) (p : Wait → Bool) : (s.wakeWarp c w p).stamped = s.stamped := rfl
@[simp] theorem wakeWarp_tlb (s : State) (c w : Nat) (p : Wait → Bool) : (s.wakeWarp c w p).tlb = s.tlb := rfl
@[simp] theorem wakeWarp_rots (s : State) (c w : Nat) (p : Wait → Bool) : (s.wakeWarp c w p).rots = s.rots := rfl
@[simp] theorem wakeWarp_kept (s : State) (c w : Nat) (p : Wait → Bool) : (s.wakeWarp c w p).kept = s.kept := rfl
@[simp] theorem wakeWarp_rotlo (s : State) (c w : Nat) (p : Wait → Bool) : (s.wakeWarp c w p).rotlo = s.rotlo := rfl
@[simp] theorem wakeWarp_rothi (s : State) (c w : Nat) (p : Wait → Bool) : (s.wakeWarp c w p).rothi = s.rothi := rfl
@[simp] theorem wakeWarp_eotidx (s : State) (c w : Nat) (p : Wait → Bool) : (s.wakeWarp c w p).eotidx = s.eotidx := rfl
@[simp] theorem wakeWarp_duals (s : State) (c w : Nat) (p : Wait → Bool) : (s.wakeWarp c w p).duals = s.duals := rfl
@[simp] theorem wakeWarp_pend (s : State) (c w : Nat) (p : Wait → Bool) : (s.wakeWarp c w p).pend = s.pend := rfl
@[simp] theorem wakeWarp_reqs (s : State) (c w : Nat) (p : Wait → Bool) : (s.wakeWarp c w p).reqs = s.reqs := rfl
@[simp] theorem wakeWarp_pkts (s : State) (c w : Nat) (p : Wait → Bool) : (s.wakeWarp c w p).pkts = s.pkts := rfl
@[simp] theorem wakeWarp_holds (s : State) (c w : Nat) (p : Wait → Bool) : (s.wakeWarp c w p).holds = s.holds := rfl
@[simp] theorem wakeWarp_copies (s : State) (c w : Nat) (p : Wait → Bool) : (s.wakeWarp c w p).copies = s.copies := rfl
@[simp] theorem wakeWarp_loads (s : State) (c w : Nat) (p : Wait → Bool) : (s.wakeWarp c w p).loads = s.loads := rfl
@[simp] theorem wakeWarp_flagMsgs (s : State) (c w : Nat) (p : Wait → Bool) : (s.wakeWarp c w p).flagMsgs = s.flagMsgs := rfl
@[simp] theorem wakeWarp_pkg (s : State) (c w : Nat) (p : Wait → Bool) : (s.wakeWarp c w p).pkg = s.pkg := rfl
@[simp] theorem wakeWarp_secLo (s : State) (c w : Nat) (p : Wait → Bool) : (s.wakeWarp c w p).secLo = s.secLo := rfl
@[simp] theorem wakeWarp_secHi (s : State) (c w : Nat) (p : Wait → Bool) : (s.wakeWarp c w p).secHi = s.secHi := rfl
@[simp] theorem wakeWarp_deckle (s : State) (c w : Nat) (p : Wait → Bool) : (s.wakeWarp c w p).deckle = s.deckle := rfl
@[simp] theorem wakeWarp_fabric (s : State) (c w : Nat) (p : Wait → Bool) : (s.wakeWarp c w p).fabric = s.fabric := rfl
@[simp] theorem wakeWarp_element (s : State) (c w : Nat) (p : Wait → Bool) : (s.wakeWarp c w p).element = s.element := rfl
@[simp] theorem wakeWarp_hostReads (s : State) (c w : Nat) (p : Wait → Bool) : (s.wakeWarp c w p).hostReads = s.hostReads := rfl
@[simp] theorem wakeWarp_asleep (s : State) (c w : Nat) (p : Wait → Bool) : (s.wakeWarp c w p).asleep = s.asleep := rfl
@[simp] theorem wakeWarp_refilled (s : State) (c w : Nat) (p : Wait → Bool) : (s.wakeWarp c w p).refilled = s.refilled := rfl
@[simp] theorem wakeWarp_nextId (s : State) (c w : Nat) (p : Wait → Bool) : (s.wakeWarp c w p).nextId = s.nextId := rfl
@[simp] theorem wakeWarp_freeCtr (s : State) (c w : Nat) (p : Wait → Bool) : (s.wakeWarp c w p).freeCtr = s.freeCtr := rfl
@[simp] theorem wakeWarp_cycle (s : State) (c w : Nat) (p : Wait → Bool) : (s.wakeWarp c w p).cycle = s.cycle := rfl

/-! wakeLine. -/

@[simp] theorem wakeLine_cur (s : State) (a : Nat) : (s.wakeLine a).cur = s.cur := rfl
@[simp] theorem wakeLine_ev (s : State) (a : Nat) : (s.wakeLine a).ev = s.ev := rfl
@[simp] theorem wakeLine_turns (s : State) (a : Nat) : (s.wakeLine a).turns = s.turns := rfl
@[simp] theorem wakeLine_clusters (s : State) (a : Nat) : (s.wakeLine a).clusters = s.clusters := rfl
@[simp] theorem wakeLine_parts (s : State) (a : Nat) : (s.wakeLine a).parts = s.parts := rfl
@[simp] theorem wakeLine_blocks (s : State) (a : Nat) : (s.wakeLine a).blocks = s.blocks := rfl
@[simp] theorem wakeLine_launches (s : State) (a : Nat) : (s.wakeLine a).launches = s.launches := rfl
@[simp] theorem wakeLine_domains (s : State) (a : Nat) : (s.wakeLine a).domains = s.domains := rfl
@[simp] theorem wakeLine_mem (s : State) (a : Nat) : (s.wakeLine a).mem = s.mem := rfl
@[simp] theorem wakeLine_stamped (s : State) (a : Nat) : (s.wakeLine a).stamped = s.stamped := rfl
@[simp] theorem wakeLine_tlb (s : State) (a : Nat) : (s.wakeLine a).tlb = s.tlb := rfl
@[simp] theorem wakeLine_rots (s : State) (a : Nat) : (s.wakeLine a).rots = s.rots := rfl
@[simp] theorem wakeLine_kept (s : State) (a : Nat) : (s.wakeLine a).kept = s.kept := rfl
@[simp] theorem wakeLine_rotlo (s : State) (a : Nat) : (s.wakeLine a).rotlo = s.rotlo := rfl
@[simp] theorem wakeLine_rothi (s : State) (a : Nat) : (s.wakeLine a).rothi = s.rothi := rfl
@[simp] theorem wakeLine_eotidx (s : State) (a : Nat) : (s.wakeLine a).eotidx = s.eotidx := rfl
@[simp] theorem wakeLine_duals (s : State) (a : Nat) : (s.wakeLine a).duals = s.duals := rfl
@[simp] theorem wakeLine_pend (s : State) (a : Nat) : (s.wakeLine a).pend = s.pend := rfl
@[simp] theorem wakeLine_reqs (s : State) (a : Nat) : (s.wakeLine a).reqs = s.reqs := rfl
@[simp] theorem wakeLine_pkts (s : State) (a : Nat) : (s.wakeLine a).pkts = s.pkts := rfl
@[simp] theorem wakeLine_holds (s : State) (a : Nat) : (s.wakeLine a).holds = s.holds := rfl
@[simp] theorem wakeLine_copies (s : State) (a : Nat) : (s.wakeLine a).copies = s.copies := rfl
@[simp] theorem wakeLine_loads (s : State) (a : Nat) : (s.wakeLine a).loads = s.loads := rfl
@[simp] theorem wakeLine_flagMsgs (s : State) (a : Nat) : (s.wakeLine a).flagMsgs = s.flagMsgs := rfl
@[simp] theorem wakeLine_pkg (s : State) (a : Nat) : (s.wakeLine a).pkg = s.pkg := rfl
@[simp] theorem wakeLine_secLo (s : State) (a : Nat) : (s.wakeLine a).secLo = s.secLo := rfl
@[simp] theorem wakeLine_secHi (s : State) (a : Nat) : (s.wakeLine a).secHi = s.secHi := rfl
@[simp] theorem wakeLine_deckle (s : State) (a : Nat) : (s.wakeLine a).deckle = s.deckle := rfl
@[simp] theorem wakeLine_fabric (s : State) (a : Nat) : (s.wakeLine a).fabric = s.fabric := rfl
@[simp] theorem wakeLine_element (s : State) (a : Nat) : (s.wakeLine a).element = s.element := rfl
@[simp] theorem wakeLine_hostReads (s : State) (a : Nat) : (s.wakeLine a).hostReads = s.hostReads := rfl
@[simp] theorem wakeLine_asleep (s : State) (a : Nat) : (s.wakeLine a).asleep = s.asleep := rfl
@[simp] theorem wakeLine_refilled (s : State) (a : Nat) : (s.wakeLine a).refilled = s.refilled := rfl
@[simp] theorem wakeLine_nextId (s : State) (a : Nat) : (s.wakeLine a).nextId = s.nextId := rfl
@[simp] theorem wakeLine_freeCtr (s : State) (a : Nat) : (s.wakeLine a).freeCtr = s.freeCtr := rfl
@[simp] theorem wakeLine_cycle (s : State) (a : Nat) : (s.wakeLine a).cycle = s.cycle := rfl

/-! Thread.set. -/

@[simp] theorem thread_set_helper (t : Thread) (n : Nat) (v : Word) : (t.set n v).helper = t.helper := rfl
@[simp] theorem thread_set_exited (t : Thread) (n : Nat) (v : Word) : (t.set n v).exited = t.exited := rfl
@[simp] theorem thread_set_pc (t : Thread) (n : Nat) (v : Word) : (t.set n v).pc = t.pc := rfl
@[simp] theorem thread_set_meetv (t : Thread) (n : Nat) (v : Word) : (t.set n v).meetv = t.meetv := rfl
@[simp] theorem thread_set_rem (t : Thread) (n : Nat) (v : Word) : (t.set n v).rem = t.rem := rfl
@[simp] theorem thread_set_regs (t : Thread) (n : Nat) (v : Word) : (t.set n v).regs = t.regs.set n v := rfl
@[simp] theorem thread_set_fpmode (t : Thread) (n : Nat) (v : Word) : (t.set n v).fpmode = t.fpmode := rfl
@[simp] theorem thread_set_fpflags (t : Thread) (n : Nat) (v : Word) : (t.set n v).fpflags = t.fpflags := rfl
@[simp] theorem thread_set_excmask (t : Thread) (n : Nat) (v : Word) : (t.set n v).excmask = t.excmask := rfl
@[simp] theorem thread_set_tmctl (t : Thread) (n : Nat) (v : Word) : (t.set n v).tmctl = t.tmctl := rfl
@[simp] theorem thread_set_tmshape (t : Thread) (n : Nat) (v : Word) : (t.set n v).tmshape = t.tmshape := rfl
@[simp] theorem thread_set_lstamp (t : Thread) (n : Nat) (v : Word) : (t.set n v).lstamp = t.lstamp := rfl
@[simp] theorem thread_set_acq (t : Thread) (n : Nat) (v : Word) : (t.set n v).acq = t.acq := rfl
@[simp] theorem thread_set_windows (t : Thread) (n : Nat) (v : Word) : (t.set n v).windows = t.windows := rfl
@[simp] theorem thread_set_repIds (t : Thread) (n : Nat) (v : Word) : (t.set n v).repIds = t.repIds := rfl
@[simp] theorem thread_set_repDests (t : Thread) (n : Nat) (v : Word) : (t.set n v).repDests = t.repDests := rfl
@[simp] theorem thread_set_wait (t : Thread) (n : Nat) (v : Word) : (t.set n v).wait = t.wait := rfl
@[simp] theorem thread_set_syncs (t : Thread) (n : Nat) (v : Word) : (t.set n v).syncs = t.syncs := rfl
@[simp] theorem thread_set_arrived (t : Thread) (n : Nat) (v : Word) : (t.set n v).arrived = t.arrived := rfl
@[simp] theorem thread_set_pflags (t : Thread) (n : Nat) (v : Word) : (t.set n v).pflags = t.pflags := rfl

/-! Thread.setPair. -/

@[simp] theorem thread_setPair_helper (t : Thread) (n : Nat) (v : DWord) : (t.setPair n v).helper = t.helper := rfl
@[simp] theorem thread_setPair_exited (t : Thread) (n : Nat) (v : DWord) : (t.setPair n v).exited = t.exited := rfl
@[simp] theorem thread_setPair_pc (t : Thread) (n : Nat) (v : DWord) : (t.setPair n v).pc = t.pc := rfl
@[simp] theorem thread_setPair_meetv (t : Thread) (n : Nat) (v : DWord) : (t.setPair n v).meetv = t.meetv := rfl
@[simp] theorem thread_setPair_rem (t : Thread) (n : Nat) (v : DWord) : (t.setPair n v).rem = t.rem := rfl
@[simp] theorem thread_setPair_regs (t : Thread) (n : Nat) (v : DWord) : (t.setPair n v).regs = (t.regs.set n (lo32 v)).set (n + 1) (hi32 v) := rfl
@[simp] theorem thread_setPair_fpmode (t : Thread) (n : Nat) (v : DWord) : (t.setPair n v).fpmode = t.fpmode := rfl
@[simp] theorem thread_setPair_fpflags (t : Thread) (n : Nat) (v : DWord) : (t.setPair n v).fpflags = t.fpflags := rfl
@[simp] theorem thread_setPair_excmask (t : Thread) (n : Nat) (v : DWord) : (t.setPair n v).excmask = t.excmask := rfl
@[simp] theorem thread_setPair_tmctl (t : Thread) (n : Nat) (v : DWord) : (t.setPair n v).tmctl = t.tmctl := rfl
@[simp] theorem thread_setPair_tmshape (t : Thread) (n : Nat) (v : DWord) : (t.setPair n v).tmshape = t.tmshape := rfl
@[simp] theorem thread_setPair_lstamp (t : Thread) (n : Nat) (v : DWord) : (t.setPair n v).lstamp = t.lstamp := rfl
@[simp] theorem thread_setPair_acq (t : Thread) (n : Nat) (v : DWord) : (t.setPair n v).acq = t.acq := rfl
@[simp] theorem thread_setPair_windows (t : Thread) (n : Nat) (v : DWord) : (t.setPair n v).windows = t.windows := rfl
@[simp] theorem thread_setPair_repIds (t : Thread) (n : Nat) (v : DWord) : (t.setPair n v).repIds = t.repIds := rfl
@[simp] theorem thread_setPair_repDests (t : Thread) (n : Nat) (v : DWord) : (t.setPair n v).repDests = t.repDests := rfl
@[simp] theorem thread_setPair_wait (t : Thread) (n : Nat) (v : DWord) : (t.setPair n v).wait = t.wait := rfl
@[simp] theorem thread_setPair_syncs (t : Thread) (n : Nat) (v : DWord) : (t.setPair n v).syncs = t.syncs := rfl
@[simp] theorem thread_setPair_arrived (t : Thread) (n : Nat) (v : DWord) : (t.setPair n v).arrived = t.arrived := rfl
@[simp] theorem thread_setPair_pflags (t : Thread) (n : Nat) (v : DWord) : (t.setPair n v).pflags = t.pflags := rfl

/-! Thread.raise. -/

@[simp] theorem thread_raise_helper (t : Thread) (f : BitVec 5) : (t.raise f).helper = t.helper := rfl
@[simp] theorem thread_raise_exited (t : Thread) (f : BitVec 5) : (t.raise f).exited = t.exited := rfl
@[simp] theorem thread_raise_pc (t : Thread) (f : BitVec 5) : (t.raise f).pc = t.pc := rfl
@[simp] theorem thread_raise_meetv (t : Thread) (f : BitVec 5) : (t.raise f).meetv = t.meetv := rfl
@[simp] theorem thread_raise_rem (t : Thread) (f : BitVec 5) : (t.raise f).rem = t.rem := rfl
@[simp] theorem thread_raise_regs (t : Thread) (f : BitVec 5) : (t.raise f).regs = t.regs := rfl
@[simp] theorem thread_raise_fpmode (t : Thread) (f : BitVec 5) : (t.raise f).fpmode = t.fpmode := rfl
@[simp] theorem thread_raise_fpflags (t : Thread) (f : BitVec 5) : (t.raise f).fpflags = t.fpflags ||| f.setWidth 32 := rfl
@[simp] theorem thread_raise_excmask (t : Thread) (f : BitVec 5) : (t.raise f).excmask = t.excmask := rfl
@[simp] theorem thread_raise_tmctl (t : Thread) (f : BitVec 5) : (t.raise f).tmctl = t.tmctl := rfl
@[simp] theorem thread_raise_tmshape (t : Thread) (f : BitVec 5) : (t.raise f).tmshape = t.tmshape := rfl
@[simp] theorem thread_raise_lstamp (t : Thread) (f : BitVec 5) : (t.raise f).lstamp = t.lstamp := rfl
@[simp] theorem thread_raise_acq (t : Thread) (f : BitVec 5) : (t.raise f).acq = t.acq := rfl
@[simp] theorem thread_raise_windows (t : Thread) (f : BitVec 5) : (t.raise f).windows = t.windows := rfl
@[simp] theorem thread_raise_repIds (t : Thread) (f : BitVec 5) : (t.raise f).repIds = t.repIds := rfl
@[simp] theorem thread_raise_repDests (t : Thread) (f : BitVec 5) : (t.raise f).repDests = t.repDests := rfl
@[simp] theorem thread_raise_wait (t : Thread) (f : BitVec 5) : (t.raise f).wait = t.wait := rfl
@[simp] theorem thread_raise_syncs (t : Thread) (f : BitVec 5) : (t.raise f).syncs = t.syncs := rfl
@[simp] theorem thread_raise_arrived (t : Thread) (f : BitVec 5) : (t.raise f).arrived = t.arrived := rfl
@[simp] theorem thread_raise_pflags (t : Thread) (f : BitVec 5) : (t.raise f).pflags = t.pflags := rfl

/-! Thread.stopFpx. -/

@[simp] theorem thread_stopFpx_helper (t : Thread) (f : BitVec 5) : (t.stopFpx f).helper = t.helper := rfl
@[simp] theorem thread_stopFpx_exited (t : Thread) (f : BitVec 5) : (t.stopFpx f).exited = t.exited := rfl
@[simp] theorem thread_stopFpx_pc (t : Thread) (f : BitVec 5) : (t.stopFpx f).pc = t.pc := rfl
@[simp] theorem thread_stopFpx_meetv (t : Thread) (f : BitVec 5) : (t.stopFpx f).meetv = t.meetv := rfl
@[simp] theorem thread_stopFpx_rem (t : Thread) (f : BitVec 5) : (t.stopFpx f).rem = t.rem := rfl
@[simp] theorem thread_stopFpx_regs (t : Thread) (f : BitVec 5) : (t.stopFpx f).regs = t.regs := rfl
@[simp] theorem thread_stopFpx_fpmode (t : Thread) (f : BitVec 5) : (t.stopFpx f).fpmode = t.fpmode := rfl
@[simp] theorem thread_stopFpx_fpflags (t : Thread) (f : BitVec 5) : (t.stopFpx f).fpflags = t.fpflags ||| f.setWidth 32 := rfl
@[simp] theorem thread_stopFpx_excmask (t : Thread) (f : BitVec 5) : (t.stopFpx f).excmask = t.excmask ||| (f &&& t.enables).setWidth 32 := rfl
@[simp] theorem thread_stopFpx_tmctl (t : Thread) (f : BitVec 5) : (t.stopFpx f).tmctl = t.tmctl := rfl
@[simp] theorem thread_stopFpx_tmshape (t : Thread) (f : BitVec 5) : (t.stopFpx f).tmshape = t.tmshape := rfl
@[simp] theorem thread_stopFpx_lstamp (t : Thread) (f : BitVec 5) : (t.stopFpx f).lstamp = t.lstamp := rfl
@[simp] theorem thread_stopFpx_acq (t : Thread) (f : BitVec 5) : (t.stopFpx f).acq = t.acq := rfl
@[simp] theorem thread_stopFpx_windows (t : Thread) (f : BitVec 5) : (t.stopFpx f).windows = t.windows := rfl
@[simp] theorem thread_stopFpx_repIds (t : Thread) (f : BitVec 5) : (t.stopFpx f).repIds = t.repIds := rfl
@[simp] theorem thread_stopFpx_repDests (t : Thread) (f : BitVec 5) : (t.stopFpx f).repDests = t.repDests := rfl
@[simp] theorem thread_stopFpx_wait (t : Thread) (f : BitVec 5) : (t.stopFpx f).wait = .fpx := rfl
@[simp] theorem thread_stopFpx_syncs (t : Thread) (f : BitVec 5) : (t.stopFpx f).syncs = t.syncs := rfl
@[simp] theorem thread_stopFpx_arrived (t : Thread) (f : BitVec 5) : (t.stopFpx f).arrived = t.arrived := rfl
@[simp] theorem thread_stopFpx_pflags (t : Thread) (f : BitVec 5) : (t.stopFpx f).pflags = t.pflags := rfl

/-! Thread.noMeet. -/

@[simp] theorem thread_noMeet_helper (t : Thread) : (t.noMeet).helper = t.helper := rfl
@[simp] theorem thread_noMeet_exited (t : Thread) : (t.noMeet).exited = t.exited := rfl
@[simp] theorem thread_noMeet_pc (t : Thread) : (t.noMeet).pc = t.pc := rfl
@[simp] theorem thread_noMeet_meetv (t : Thread) : (t.noMeet).meetv = 0 := rfl
@[simp] theorem thread_noMeet_rem (t : Thread) : (t.noMeet).rem = t.rem := rfl
@[simp] theorem thread_noMeet_regs (t : Thread) : (t.noMeet).regs = t.regs := rfl
@[simp] theorem thread_noMeet_fpmode (t : Thread) : (t.noMeet).fpmode = t.fpmode := rfl
@[simp] theorem thread_noMeet_fpflags (t : Thread) : (t.noMeet).fpflags = t.fpflags := rfl
@[simp] theorem thread_noMeet_excmask (t : Thread) : (t.noMeet).excmask = t.excmask := rfl
@[simp] theorem thread_noMeet_tmctl (t : Thread) : (t.noMeet).tmctl = t.tmctl := rfl
@[simp] theorem thread_noMeet_tmshape (t : Thread) : (t.noMeet).tmshape = t.tmshape := rfl
@[simp] theorem thread_noMeet_lstamp (t : Thread) : (t.noMeet).lstamp = t.lstamp := rfl
@[simp] theorem thread_noMeet_acq (t : Thread) : (t.noMeet).acq = t.acq := rfl
@[simp] theorem thread_noMeet_windows (t : Thread) : (t.noMeet).windows = t.windows := rfl
@[simp] theorem thread_noMeet_repIds (t : Thread) : (t.noMeet).repIds = t.repIds := rfl
@[simp] theorem thread_noMeet_repDests (t : Thread) : (t.noMeet).repDests = t.repDests := rfl
@[simp] theorem thread_noMeet_wait (t : Thread) : (t.noMeet).wait = t.wait := rfl
@[simp] theorem thread_noMeet_syncs (t : Thread) : (t.noMeet).syncs = t.syncs := rfl
@[simp] theorem thread_noMeet_arrived (t : Thread) : (t.noMeet).arrived = t.arrived := rfl
@[simp] theorem thread_noMeet_pflags (t : Thread) : (t.noMeet).pflags = t.pflags := rfl

end Sys2Proof.Machine
end

