-- ==== Sys2Proof/Laws/Traps.lean ====
section
/-!
SUPPORT. Taking a trap (R290–R299): the state it is delivered in, and the lanes of a warp it enters.
-/

namespace Sys2Proof.Machine

theorem tget_filter {α : Type} (t : Tbl α) (p : Nat × α → Bool) (l : Nat) (x : α) (h : tget t l = some x) (hp : p (l, x) = true) :
    tget (t.filter p) l = some x := by
  induction t with
  | nil => simp [tget] at h
  | cons q t ih =>
    obtain ⟨k, v⟩ := q
    simp only [tget] at h
    by_cases hk : k = l
    · rw [if_pos hk] at h
      injection h with h
      subst h hk
      rw [List.filter_cons, if_pos hp]
      simp [tget]
    · rw [if_neg hk] at h
      rw [List.filter_cons]
      split
      · simp only [tget]; rw [if_neg hk]; exact ih h
      · exact ih h

theorem tget_map_snd {α β : Type} (t : Tbl α) (f : α → β) (l : Nat) : tget (t.map (fun p => (p.1, f p.2))) l = (tget t l).map f :=
  tget_map t (fun _ => f) l

/-- A woken lane is as it was, but runs. -/
theorem wake_thread (w : Warp) (p : Wait → Bool) (c l : Nat) (t : Thread) (h : tget w.threads l = some t) :
    tget (w.wake p c).threads l = some t ∨ tget (w.wake p c).threads l = some { t with wait := .run } := by
  unfold Warp.wake
  dsimp only
  split
  · exact .inl h
  · dsimp only
    have := tget_map w.threads (fun _ (t : Thread) => if (!t.exited && p t.wait) = true then { t with wait := .run } else t) l
    rw [h] at this
    have e : (List.map (fun x => if (!x.2.exited && p x.2.wait) = true then (x.1, ({ x.2 with wait := Wait.run } : Thread)) else x) w.threads) =
      (w.threads.map (fun x => (x.1, if (!x.2.exited && p x.2.wait) = true then { x.2 with wait := .run } else x.2))) := by
      apply List.map_congr_left
      intro x _
      split <;> rfl
    rw [e, this]
    simp only [Option.map_some]
    split
    · exact .inr rfl
    · exact .inl rfl

theorem wake_running (w : Warp) (p : Wait → Bool) (c : Nat) : (w.wake p c).running.map (·.1) = w.running.map (·.1) := by
  unfold Warp.wake
  dsimp only
  split
  · rfl
  · simp only [Warp.running]
    rw [List.filter_map, List.map_map]
    have : (fun x : Nat × Thread => x.1) ∘ (fun x : Nat × Thread => if (!x.2.exited && p x.2.wait) = true then (x.1, ({ x.2 with wait := Wait.run } : Thread)) else x) = (·.1) := by
      funext x; simp only [Function.comp_apply]; split <;> rfl
    rw [this]
    congr 2
    funext x
    simp only [Function.comp_apply]; split <;> rfl

theorem inFlight_congr {s t : State} (h : s.pend = t.pend) (k : s.pkts = t.pkts) (c w : Nat) : s.inFlight c w = t.inFlight c w := by
  unfold State.inFlight; rw [h, k]

theorem uncount_keep (c : Cur) (l : Nat) (t : Thread) : (c.uncount l t).pc = t.pc ∧ (c.uncount l t).meetv = t.meetv ∧
    (c.uncount l t).rem = t.rem ∧ (c.uncount l t).regs = t.regs ∧ (c.uncount l t).exited = t.exited := by
  unfold Cur.uncount; split <;> exact ⟨rfl, rfl, rfl, rfl, rfl⟩

/-- The state in which a trap outside a repeated unit is delivered: the bundle's unit has taken its cycle and ended without
effect. -/
def leftState (s : State) : State :=
  { (s.charge 1).modWarp (fun w => w.mapLanes s.cur.mask (fun l t => s.cur.uncount l t)) with
    cur := s.cur.clear, cycle := s.cycle + 1 }

/-- A report of a warp that collects no FPX stops and has nothing in flight is delivered at once (R290, R291). -/
theorem report_deliver {s : State} {c slot : Nat} {w : Warp} {mask : Mask} (r : Report) (hw : s.warpAt? c slot = some w)
    (hc : w.collecting = false) (hf : s.inFlight c slot = false) : s.report c slot mask r = s.deliver c slot r mask := by
  unfold State.report
  simp only [hw, hc, hf, Bool.false_eq_true, if_false]

/-- A fault outside a repeated unit, with nothing in flight and no window of FPX stops open, is delivered at once (R87, R290). -/
theorem fault_deliver (s : State) (w : Warp) (cause : Cause) (lane : Nat) (lo hi : Word) (q : Thread)
    (hw : s.warp? = some w) (hr : s.cur.rep = none) (hq : tget w.threads lane = some q) (hc : w.collecting = false)
    (hf : s.inFlight s.cur.core s.cur.slot = false) :
    s.fault cause lane lo hi =
      (leftState s).deliver s.cur.core s.cur.slot (mkReport w cause lane q.pc lo hi) s.cur.mask := by
  unfold State.fault
  rw [hw]
  dsimp only
  rw [hq]
  dsimp only
  unfold State.takeTrap
  dsimp only
  rw [hr]
  simp only [Option.isSome_none, if_false, Bool.false_eq_true]
  have h1 : (leftState s).warpAt? s.cur.core s.cur.slot = some (({ w with lastTick := s.deckle.tick } : Warp).mapLanes s.cur.mask
      (fun l t => s.cur.uncount l t)) := by
    show ((s.charge 1).modWarpAt s.cur.core s.cur.slot _).warpAt? s.cur.core s.cur.slot = _
    rw [warpAt_modWarpAt, warp_charge, hw]
    simp
  have h2 : (leftState s).inFlight s.cur.core s.cur.slot = false := hf
  have h3 : (({ w with lastTick := s.deckle.tick } : Warp).mapLanes s.cur.mask (fun l t => s.cur.uncount l t)).collecting = w.collecting := by
    unfold Warp.collecting Warp.running Warp.mapLanes
    dsimp only
    rw [List.filter_map, List.any_map]
    rw [List.any_filter, List.any_filter]
    congr 1
    funext x
    have u := uncount_keep s.cur x.1 x.2
    have v : (s.cur.uncount x.1 x.2).wait = x.2.wait := by unfold Cur.uncount; split <;> rfl
    simp only [Function.comp_apply]
    split <;> simp [u, v]
  exact report_deliver _ h1 (h3.trans hc) h2

theorem warpAt_left (s : State) (w : Warp) (hw : s.warp? = some w) :
    (leftState s).warpAt? s.cur.core s.cur.slot =
      some (({ w with lastTick := s.deckle.tick } : Warp).mapLanes s.cur.mask
        (fun l t => s.cur.uncount l t)) := by
  show ((s.charge 1).modWarpAt s.cur.core s.cur.slot _).warpAt? s.cur.core s.cur.slot = _
  rw [warpAt_modWarpAt, warp_charge, hw]
  simp

/-- Stopping the accesses of a warp that wait on conditions wakes its lanes, and keeps those accesses (R407). -/
theorem warpAt_parkSyncs (s : State) (c k : Nat) (w : Warp) (hw : s.warpAt? c k = some w) :
    ∃ r, (s.parkSyncs c k).warpAt? c k = some (({ w with retry := r, gcall := none } : Warp).wake (fun x => x == .sync) (s.cycle + 1)) := by
  unfold State.parkSyncs State.wakeWarp
  dsimp only
  rw [warpAt_modWarpAt, if_pos ⟨rfl, rfl⟩, warpAt_modWarpAt, if_pos ⟨rfl, rfl⟩]
  have e : ∀ p : List Pending, ({ s with pend := p } : State).warpAt? c k = some w := fun _ => hw
  rw [e]
  simp only [Option.map_some, Option.some.injEq]
  exact ⟨_, rfl⟩

end Sys2Proof.Machine
end

