-- ==== Sys2Proof/Laws/Reports.lean ====
section
/-!
SUPPORT. What counting leaves of the lanes, and what posting a record, suspending a warp and delivering a report do.
-/

namespace Sys2Proof.Machine

theorem tree_counted (s : State) (u : Use) (op : FpEnv → Nat → Nat → FpOut) (n : Nat) :
    (s.counted u).treeOf op n = s.treeOf op n := by
  have e : tileEnv (s.counted u) = tileEnv s := by
    funext l
    unfold tileEnv
    rw [active_counted, counted_tileCode, List.find?_map]
    simp only [Function.comp_def]
    cases List.find? (fun p => sameTile s.tileCode p.1 l) s.active with
    | none => rfl
    | some p => exact count_fpEnv u s.cur _ p.2
  unfold State.treeOf
  rw [e, counted_tileCode, active_counted, List.map_map]
  simp only [Function.comp_def, count_nat]

theorem firstBad_counted (s : State) (u : Use) (p : Thread → Bool) (hp : ∀ t, p (u.count s.cur t) = p t) :
    firstBad (s.counted u).active p = firstBad s.active p := by
  unfold firstBad
  rw [active_counted, List.find?_map]
  simp only [Function.comp_def, hp, Option.map_map]

theorem nop_run (s : State) (u : Use) (h : s.canIssue u = true) :
    ∃ t, s.issue u (fun s => .next s.finish) = .next t ∧ OnlyLanes s t ∧ LaneStep s t (fun _ th => u.ran s.cur id th) :=
  finish_run s u _ (fun _ t => t) h (by rw [mapActive_id])

theorem after_meetv (c : Cur) (old x : Thread) (m : Word) :
    Thread.after c old { x with meetv := m } = { Thread.after c old x with meetv := m } := by
  have hl : c.left { x with meetv := m } = c.left x := by
    unfold Cur.left
    cases c.rep <;> rfl
  unfold Thread.after
  by_cases h1 : (x.wait == .fpx) = true
  · rw [if_pos (show (({ x with meetv := m } : Thread).wait == .fpx) = true from h1), if_pos h1, hl]
  · rw [if_neg (show ¬ (({ x with meetv := m } : Thread).wait == .fpx) = true from h1), if_neg h1]
    by_cases h2 : x.stays = true
    · rw [if_pos (show ({ x with meetv := m } : Thread).stays = true from h2), if_pos h2]
    · rw [if_neg (show ¬ ({ x with meetv := m } : Thread).stays = true from h2), if_neg h2]
      unfold Thread.advance
      cases c.rep with
      | none => rfl
      | some r => dsimp only; split <;> rfl

theorem adv_meetv (c : Cur) (x : Thread) : (x.advance c).meetv = x.meetv := by
  unfold Thread.advance
  cases c.rep with
  | none => rfl
  | some r => dsimp only; split <;> rfl

theorem unc_meetv (c : Cur) (l : Nat) (x : Thread) : (c.uncount l x).meetv = x.meetv := by
  unfold Cur.uncount; split <;> rfl

theorem advance_regs (c : Cur) (t : Thread) : (t.advance c).regs = t.regs := by
  unfold Thread.advance
  cases c.rep with
  | none => rfl
  | some r => dsimp only; split <;> rfl

theorem keeps_left {α : Type} (f : Thread → α) (hw : ∀ (t : Thread) (x : List Window), f { t with windows := x } = f t) (s : State) :
    KeepsThreads f s (leftState s) := by
  refine (keeps_charge f s 1).trans ?_
  have h := keeps_modWarpAt f (s.charge 1) s.cur.core s.cur.slot
    (fun w => w.mapLanes s.cur.mask (fun l t => s.cur.uncount l t)) (fun w l => by
      apply keeps_mapLanes
      intro l t
      unfold Cur.uncount; split
      · exact hw _ _
      · rfl)
  exact h.trans (KeepsThreads.of_cores f rfl)

/-- What stopping the waiting accesses of a warp does to it, with whatever it keeps of them (R407). -/
def Warp.park (keep : List Pending) (c : Nat) (w : Warp) : Warp :=
  ({ w with retry := w.retry ++ keep, gcall := none } : Warp).wake (fun x => x == .sync) c

theorem parkSyncs_eq (s : State) (c w : Nat) : ∃ p keep, s.parkSyncs c w =
    ({ s with pend := p } : State).modWarpAt c w (Warp.park keep (s.cycle + 1)) := by
  refine ⟨s.pend.filter (fun p => !(p.core == c && p.slot == w && s.waitsOn p)),
    s.pend.filter (fun p => p.core == c && p.slot == w && s.waitsOn p && p.kind.next.isNone), ?_⟩
  unfold State.parkSyncs State.wakeWarp Warp.park State.modWarpAt State.modCore
  simp only [tmod_tmod]

theorem keeps_parkSyncs {α : Type} (f : Thread → α) (h : ∀ t : Thread, f { t with wait := .run } = f t) (s : State) (c k : Nat) :
    KeepsThreads f s (s.parkSyncs c k) := by
  obtain ⟨p, keep, e⟩ := parkSyncs_eq s c k
  rw [e]
  refine KeepsThreads.trans (KeepsThreads.of_cores f rfl) (keeps_modWarpAt f ({ s with pend := p } : State) c k _ (fun w l => ?_))
  unfold Warp.park
  rw [keeps_wake f h]

theorem parkSyncs_cores {α : Type} (f : Core → α) (h : ∀ (k : Core) (w : Tbl Warp), f { k with warps := w } = f k) (s : State) (c w : Nat) :
    KeepsCores f s (s.parkSyncs c w) := by
  obtain ⟨p, keep, e⟩ := parkSyncs_eq s c w
  rw [e]
  exact modCore_cores_keep f ({ s with pend := p } : State) c (fun k => { k with warps := tmod k.warps w (Warp.park keep (s.cycle + 1)) }) (fun k => h k _)

/-! What a release keeps of every thread (R180, R324). -/

theorem homeWrite_threads {α : Type} (f : Thread → α) (h : ∀ t : Thread, f { t with wait := .run } = f t) (s : State) (pa : Nat) (b : List Byte) :
    KeepsThreads f s (s.homeWrite pa b) := by
  obtain ⟨p, hp⟩ := homeWrite_cores s pa b
  exact (keeps_wakeAll f h s p).trans (KeepsThreads.of_cores f hp)

theorem settleCount_threads {α : Type} (f : Thread → α) (h : ∀ t : Thread, f { t with wait := .run } = f t) (s : State) (c slot cls id : Nat) :
    KeepsThreads f s (s.settleCount c slot cls id) := by
  unfold State.settleCount State.completeEngine State.wakeWarp
  split
  · exact KeepsThreads.refl f s
  · exact (keeps_modWarpAt f s c slot (fun w => { w with engine := w.engine.modify cls (fun l =>
        retireEngine (l.map (fun p => if p.1 = id then (p.1, true) else p))) }) (fun _ _ => rfl)).trans
      (keeps_modWarpAt f _ c slot _ (fun w l => keeps_wake f h w _ _ l))

theorem applyReq_threads {α : Type} (f : Thread → α) (h : ∀ t : Thread, f { t with wait := .run } = f t) (s : State) (r : Req) :
    KeepsThreads f s (s.applyReq r) := by
  unfold State.applyReq
  dsimp only
  refine KeepsThreads.trans ?_ (keeps_foldl f _ _ _ (fun s k => settleCount_threads f h s _ _ _ _))
  have e : KeepsThreads f s ({ s with reqs := s.reqs.filter (fun x => x.id != r.id) } : State) := KeepsThreads.of_cores f rfl
  cases r.kind with
  | write data => exact e.trans (homeWrite_threads f h _ _ _)
  | red op v rm fz cn sat =>
    dsimp only
    split
    · exact e.trans (homeWrite_threads f h _ _ _)
    · exact (e.trans (homeWrite_threads f h _ _ _)).trans (KeepsThreads.of_cores f rfl)
  | redTm ws => exact e.trans (homeWrite_threads f h _ _ _)
  | bsig v => exact e.trans (homeWrite_threads f h _ _ _)

theorem drain_threads {α : Type} (f : Thread → α) (h : ∀ t : Thread, f { t with wait := .run } = f t) (s : State) (p : Req → Bool) :
    KeepsThreads f s (s.drain p) :=
  keeps_foldl f _ _ _ (fun s r => applyReq_threads f h s r)

theorem writeDirty_threads {α : Type} (f : Thread → α) (h : ∀ t : Thread, f { t with wait := .run } = f t) (c : Nat) :
    ∀ (t : Tbl (Byte × Bool)) (s : State), KeepsThreads f s (s.writeDirty c t) := by
  intro t
  induction t with
  | nil => exact fun s => KeepsThreads.refl f s
  | cons x l ih =>
    intro s
    obtain ⟨a, b, d⟩ := x
    cases d with
    | true => exact ((drain_threads f h s _).trans (homeWrite_threads f h _ _ _)).trans (ih _)
    | false => exact ih s

/-- A release changes no more of a thread than its wait. -/
theorem release_threads {α : Type} (f : Thread → α) (h : ∀ t : Thread, f { t with wait := .run } = f t) (s : State) (c d : Nat) (sc : Scope) :
    KeepsThreads f s (s.release c d sc) := by
  unfold State.release
  split
  · refine (drain_threads f h s (fun r => r.ofCore c)).trans ?_
    unfold State.writeBack
    refine keeps_foldl f _ _ _ (fun s e => ?_)
    dsimp only
    split
    · exact KeepsThreads.refl f _
    · exact (writeDirty_threads f h c _ _).trans (keeps_modCore f _ c _ (fun _ => rfl))
  · exact KeepsThreads.refl f s

theorem endHalts_cores {α : Type} (f : Core → α) (h : ∀ k : Core, f { k with halted := none } = f k) (s : State) (p : Nat) :
    KeepsCores f s (s.endHalts p) := by
  unfold State.endHalts
  cases tget s.parts p with
  | none => exact fun _ => rfl
  | some q =>
    intro c
    have e := tget_map_if s.cores (controlIn p q) (fun _ (x : Core) => x.resumeHalt) c
    refine (congrArg (Option.map f) e).trans ?_
    rw [Option.map_map]
    congr 1
    funext k
    simp only [Function.comp_apply]
    split
    · exact h k
    · rfl

theorem endHalts_threads {α : Type} (f : Thread → α) (s : State) (p : Nat) : KeepsThreads f s (s.endHalts p) := by
  intro c k l
  have h := endHalts_cores Core.warps (fun _ => rfl) s p c
  simp only [State.thread?, State.warpAt?]
  cases h1 : tget (s.endHalts p).cores c <;> cases h2 : tget s.cores c <;> rw [h1, h2] at h <;> simp at h ⊢
  rw [h]

theorem endHalts_warps {α : Type} (f : Warp → α) (s : State) (p : Nat) : KeepsWarps f s (s.endHalts p) := by
  intro c k
  have h := endHalts_cores Core.warps (fun _ => rfl) s p c
  simp only [State.warpAt?]
  cases h1 : tget (s.endHalts p).cores c <;> cases h2 : tget s.cores c <;> rw [h1, h2] at h <;> simp at h ⊢
  rw [h]

@[simp] theorem endHalts_mem (s : State) (p : Nat) : (s.endHalts p).mem = s.mem := by
  unfold State.endHalts; split <;> rfl

@[simp] theorem endHalts_parts (s : State) (p : Nat) : (s.endHalts p).parts = s.parts := by
  unfold State.endHalts; split <;> rfl

/-- What the writing of a record, the core's trap registers and the warp's mark leave, over the state in which its bytes stand. -/
theorem posted_state (x : State) (p c slot : Nat) (f : Part → Part) (g : Warp → Warp) (h : Core → Core) (hw : ∀ k, (h k).warps = k.warps)
    (hh : ∀ k : Core, (h { k with halted := none }).trap = (h k).trap) :
    let t := (((x.modPart p f).endHalts p).modCore c h).modWarpAt c slot g
    t.mem = x.mem ∧ tget t.parts p = (tget x.parts p).map f ∧
      (∀ k, tget x.cores c = some k → ∃ k2, tget t.cores c = some k2 ∧ k2.trap = (h k).trap) ∧
      t.warpAt? c slot = (x.warpAt? c slot).map g ∧
      ∀ (α : Type) (π : Thread → α), (∀ w, (g w).threads = w.threads) → KeepsThreads π x t := by
  intro t
  refine ⟨?_, ?_, fun k hk => ?_, ?_, fun α π hg => ?_⟩
  · exact endHalts_mem (x.modPart p f) p
  · have := endHalts_parts (x.modPart p f) p
    show tget (((x.modPart p f).endHalts p).parts) p = _
    rw [this, modPart_parts, tget_tmod, if_pos rfl]
  · have h1 := endHalts_cores (fun k => (h k).trap) hh (x.modPart p f) p c
    rw [modPart_cores, hk] at h1
    have h2 : tget t.cores c = (tget ((x.modPart p f).endHalts p).cores c).map (fun k => { h k with warps := tmod (h k).warps slot g }) := by
      show tget (State.modWarpAt _ c slot g).cores c = _
      unfold State.modWarpAt
      rw [modCore_cores, tget_tmod, if_pos rfl, modCore_cores, tget_tmod, if_pos rfl, Option.map_map]; rfl
    cases h3 : tget ((x.modPart p f).endHalts p).cores c with
    | none => rw [h3] at h1; simp at h1
    | some k2 =>
      rw [h3] at h1 h2
      exact ⟨_, h2, Option.some.inj h1⟩
  · have h1 := endHalts_warps id (x.modPart p f) p c slot
    have h2 : ((((x.modPart p f).endHalts p).modCore c h)).warpAt? c slot = ((x.modPart p f).endHalts p).warpAt? c slot := by
      unfold State.warpAt?
      rw [modCore_cores, tget_tmod, if_pos rfl]
      cases tget ((x.modPart p f).endHalts p).cores c with
      | none => rfl
      | some k => simp only [Option.map_some, Option.bind_some, hw]
    have h3 : (x.modPart p f).warpAt? c slot = x.warpAt? c slot := by unfold State.warpAt?; rw [modPart_cores]
    show (State.modWarpAt _ c slot g).warpAt? c slot = _
    rw [warpAt_modWarpAt, if_pos ⟨rfl, rfl⟩, h2]
    have h4 : ((x.modPart p f).endHalts p).warpAt? c slot = (x.modPart p f).warpAt? c slot := by simpa using h1
    rw [h4, h3]
  · refine KeepsThreads.trans ?_ (keeps_modWarpAt π _ c slot _ (fun w l => by rw [hg]))
    refine KeepsThreads.trans ?_ (keeps_modCore π _ c _ hw)
    refine KeepsThreads.trans ?_ (endHalts_threads π _ _)
    exact KeepsThreads.of_cores π (modPart_cores _ _ _)

theorem putRecord_threads {α : Type} (f : Thread → α) (h : ∀ t : Thread, f { t with wait := .run } = f t) (s : State) (p : Nat) (q : Part)
    (ws : List Word) : KeepsThreads f s (s.putRecord p q ws) := by
  unfold State.putRecord
  refine KeepsThreads.trans ?_ (endHalts_threads f _ _)
  exact (keeps_homeWriteLong f h _ _ _ _).trans (KeepsThreads.of_cores f (modPart_cores _ _ _))

theorem postOrHold_threads {α : Type} (f : Thread → α) (h : ∀ t : Thread, f { t with wait := .run } = f t) (s : State) (p : Nat) (r : HeldRec) :
    KeepsThreads f s (s.postOrHold p r) := by
  unfold State.postOrHold
  split
  · split
    · cases r with
      | words ws => exact putRecord_threads f h _ _ _ _
      | warp c slot d waits level r ws =>
        unfold State.postNow
        dsimp only
        have h1 := (release_threads f h s c d .package).trans (putRecord_threads f h _ p ‹_› ws)
        have h2 := h1.trans (keeps_modCore f _ c (fun k => { k with trap := trapRegs k.trap r level false }) (fun _ => rfl))
        split
        · exact h2.trans (keeps_modWarpAt f _ _ _ _ (fun _ _ => rfl))
        · exact h2
    · exact KeepsThreads.of_cores f rfl
  · exact KeepsThreads.refl f s

theorem postRecord_threads {α : Type} (f : Thread → α) (h : ∀ t : Thread, f { t with wait := .run } = f t) (s : State) (c w : Nat) :
    KeepsThreads f s (s.postRecord c w) := by
  unfold State.postRecord
  split
  · split
    · split
      · exact KeepsThreads.refl f s
      · exact postOrHold_threads f h _ _ _
    · exact KeepsThreads.refl f s
  · exact KeepsThreads.refl f s

/-- A record is posted where its core has nothing to perform before it (R296). -/
theorem postRecord_posts (s : State) (c slot : Nat) (w : Warp) (u : Susp) (q : Part) (k : Core) (hw : s.warpAt? c slot = some w) (hu : w.susp = some u)
    (hp : u.posted = false) (hq : tget s.parts w.part = some q) (hv : s.queueValid w.part q = true) (hr : q.queueRoom = true)
    (hk : tget s.cores c = some k) (hm : NoMig s) (hwf : Memory.wf s.mem = true) (hrel : s.release c w.curSlot .package = s) :
    let t := s.postRecord c slot
    let place := q.fqhi.toNat * 2 ^ 32 + q.fqlo.toNat + 32 * (q.fqtail.toNat % 2 ^ q.fqsize.toNat)
    bytesAt t.mem place 32 = wordsBytes (recordWords u.report w c slot u.did q.fqtail) ∧
      (∃ q', tget t.parts w.part = some q' ∧ q'.fqtail = q.fqtail + 1) ∧
      (t.core c).trap = trapRegs k.trap u.report w.level.code false ∧
      ∃ v, t.warpAt? c slot = some v ∧ v.susp = some { u with posted := true } := by
  intro t place
  have hlen : (wordsBytes (recordWords u.report w c slot u.did q.fqtail)).length = 32 := by
    simp [wordsBytes, recordWords, bytesOf, leBytes]
  have et : t = ((((s.homeWriteLong 2 place (wordsBytes (recordWords u.report w c slot u.did q.fqtail))).modPart w.part (fun q => { q with
          fqtail := q.fqtail + 1 })).endHalts w.part).modCore c
              (fun k => { k with trap := trapRegs k.trap u.report w.level.code false })).modWarpAt c slot
            (fun w => { w with susp := w.susp.map (fun u => { u with posted := true }) }) := by
    show s.postRecord c slot = _
    unfold State.postRecord
    rw [hw]
    dsimp only
    rw [hu, hq]
    dsimp only
    rw [if_neg (by simp [hp])]
    unfold State.postOrHold
    rw [hq]
    dsimp only
    rw [if_pos (by simp [hv, hr])]
    unfold State.postNow recordOf
    dsimp only
    rw [hrel, if_pos rfl]
    rfl
  rw [et]
  clear et t
  obtain ⟨x, hx⟩ : ∃ x, x = s.homeWriteLong 2 place (wordsBytes (recordWords u.report w c slot u.did q.fqtail)) := ⟨_, rfl⟩
  have hmem : x.mem = setBytes s.mem place (wordsBytes (recordWords u.report w c slot u.did q.fqtail)) := by
    rw [hx]; exact homeWriteLong_mem s 2 place _ hm (by rw [hlen]; omega)
  have hparts : x.parts = s.parts := by rw [hx]; exact homeWriteLong_parts _ _ _ _ hm
  have hcore : ∃ k1, tget x.cores c = some k1 ∧ k1.trap = k.trap := by
    have h2 := keepsCores_homeWriteLong Core.trap (fun _ _ => rfl) s 2 place (wordsBytes (recordWords u.report w c slot u.did q.fqtail)) c
    rw [hk, ← hx] at h2
    cases h3 : tget x.cores c with
    | none => rw [h3] at h2; simp at h2
    | some k1 => rw [h3] at h2; exact ⟨k1, rfl, Option.some.inj h2⟩
  have hwarp : ∃ w1, x.warpAt? c slot = some w1 ∧ w1.susp = some u := by
    have h2 := keepsWarps_homeWriteLong Warp.susp (fun _ _ _ => rfl) s 2 place (wordsBytes (recordWords u.report w c slot u.did q.fqtail)) c slot
    rw [hw, ← hx] at h2
    cases h3 : x.warpAt? c slot with
    | none => rw [h3] at h2; simp at h2
    | some w1 => rw [h3] at h2; exact ⟨w1, rfl, (Option.some.inj h2).trans hu⟩
  rw [← hx]
  obtain ⟨a1, a2, a3, a4, -⟩ := posted_state x w.part c slot (fun q => { q with fqtail := q.fqtail + 1 })
            (fun w => { w with susp := w.susp.map (fun u => { u with posted := true }) })
              (fun k => { k with trap := trapRegs k.trap u.report w.level.code false }) (fun _ => rfl) (fun _ => rfl)
  refine ⟨?_, ?_, ?_, ?_⟩
  · rw [a1, hmem]
    have := bytesAt_setBytes s.mem place (wordsBytes (recordWords u.report w c slot u.did q.fqtail)) hwf
    rwa [hlen] at this
  · rw [a2, hparts, hq]
    exact ⟨_, rfl, rfl⟩
  · obtain ⟨k1, e1, e2⟩ := hcore
    obtain ⟨k2, e3, e4⟩ := a3 k1 e1
    unfold State.core
    rw [e3]
    show k2.trap = _
    rw [e4, ← e2]
  · obtain ⟨w1, e1, e2⟩ := hwarp
    rw [a4, e1]
    exact ⟨_, rfl, by show Option.map _ w1.susp = _; rw [e2]; rfl⟩

theorem modWarpAt_cores_keep {α : Type} (f : Core → α) (h : ∀ (k : Core) (w : Tbl Warp), f { k with warps := w } = f k) (s : State) (c w : Nat)
    (g : Warp → Warp) : KeepsCores f s (s.modWarpAt c w g) :=
  modCore_cores_keep f s c _ (fun k => h k _)

theorem left_cores {α : Type} (f : Core → α) (h : ∀ (k : Core) (w : Tbl Warp) (d : List Int) (l : List Nat),
    f { k with warps := w, deficit := d, lastIssue := l } = f k) (s : State) :
    KeepsCores f s (leftState s) := by
  have h1 : KeepsCores f s (s.charge 1) := modCore_cores_keep f s _ _ (fun k => by
    unfold Core.charge
    split
    · exact h k _ _ _
    · rfl)
  exact fun c => (h1.trans (modWarpAt_cores_keep f (fun k w => h k w k.deficit k.lastIssue) (s.charge 1) s.cur.core s.cur.slot
    (fun w => w.mapLanes s.cur.mask (fun l t => s.cur.uncount l t)))) c

theorem queueValid_congr (s t : State) (p : Nat) (q : Part) (h1 : t.rots = s.rots) (h2 : t.mem = s.mem) (h3 : t.rothi = s.rothi)
    (h4 : t.rotlo = s.rotlo) (h5 : t.secLo = s.secLo) (h6 : t.secHi = s.secHi) (h7 : t.kept = s.kept) (h8 : t.parts = s.parts) :
    t.queueValid p q = s.queueValid p q := by
  unfold State.queueValid State.keepsIn State.reaches State.owns State.secure State.rotEntry State.rotTable State.rotBase
  rw [h1, h2, h3, h4, h5, h6, h7, h8]

/-- The suspension of a warp after a fault of the issuing bundle leaves memory, partitions, translation and every thread's
registers as they were (R296, R407). -/
theorem suspend_state (s : State) (w : Warp) (r : Report) (hw : s.warp? = some w) (k : Core) (hk : tget s.cores s.cur.core = some k) :
    let d := ((leftState s).parkSyncs s.cur.core s.cur.slot).modWarpAt s.cur.core s.cur.slot
      (fun w => { w with susp := some ⟨r, s.cur.mask, false, w.curDid⟩ })
    d.mem = s.mem ∧ d.parts = s.parts ∧ d.rots = s.rots ∧ d.rothi = s.rothi ∧ d.rotlo = s.rotlo ∧ d.secLo = s.secLo ∧ d.secHi = s.secHi ∧
      d.kept = s.kept ∧ d.reqs = s.reqs ∧
      (∀ (α : Type) (π : Thread → α), (∀ t : Thread, π { t with wait := .run } = π t) → (∀ (t : Thread) (x : List Window), π { t with windows := x } = π t) →
        KeepsThreads π s d) ∧
      (∃ k', tget d.cores s.cur.core = some k' ∧ k'.trap = k.trap) ∧
      ∃ v, d.warpAt? s.cur.core s.cur.slot = some v ∧ v.susp = some ⟨r, s.cur.mask, false, w.curDid⟩ ∧ v.part = w.part ∧ v.homeDid = w.homeDid ∧ v.level = w.level := by
  intro d
  refine ⟨rfl, rfl, rfl, rfl, rfl, rfl, rfl, rfl, rfl, fun α π h1 h2 => ?_, ?_, ?_⟩
  · refine KeepsThreads.trans (keeps_left π h2 s) ?_
    refine KeepsThreads.trans (keeps_parkSyncs π h1 _ s.cur.core s.cur.slot) ?_
    exact keeps_modWarpAt π _ _ _ _ (fun _ _ => rfl)
  · have h := KeepsCores.trans (left_cores Core.trap (fun _ _ _ _ => rfl) s) (KeepsCores.trans
      (parkSyncs_cores Core.trap (fun _ _ => rfl) (leftState s) s.cur.core s.cur.slot)
      (modWarpAt_cores_keep Core.trap (fun _ _ => rfl) _ s.cur.core s.cur.slot (fun w => { w with susp := some ⟨r, s.cur.mask, false, w.curDid⟩ }))) s.cur.core
    rw [hk] at h
    cases h3 : tget d.cores s.cur.core with
    | none => rw [show tget _ _ = none from h3] at h; simp at h
    | some k1 => rw [show tget _ _ = some k1 from h3] at h; exact ⟨k1, rfl, Option.some.inj h⟩
  · have hl := warpAt_left s w hw
    obtain ⟨re, hd⟩ := warpAt_parkSyncs (leftState s) _ _ _ hl
    have h1 : d.warpAt? s.cur.core s.cur.slot = _ := warpAt_modWarpAt _ _ _ _ _ _
    rw [if_pos ⟨rfl, rfl⟩, hd, Option.map_some] at h1
    have hf : ∀ {β : Type} (f : Warp → β), (∀ (w : Warp) (t : Tbl Thread) (b : List Bundle) (n : Nat) (p : List Pending) (g : Option (List Word)),
        f { w with threads := t, bundles := b, lastTick := n, retry := p, gcall := g } = f w) →
      f (({ ({ w with lastTick := s.deckle.tick } : Warp).mapLanes s.cur.mask
          (fun l t => s.cur.uncount l t) with retry := re, gcall := none } : Warp).wake (fun x => x == Wait.sync)
            ((leftState s).cycle + 1)) = f w := by
      intro β f h
      rw [wake_field f (fun v t b => h v t b v.lastTick v.retry v.gcall)]
      exact h w _ w.bundles _ _ _
    refine ⟨_, h1, ?_, ?_, ?_, ?_⟩
    · show some (⟨r, s.cur.mask, false, _⟩ : Susp) = _
      rw [hf Warp.curDid (fun _ _ _ _ _ _ => rfl)]
    · exact hf Warp.part (fun _ _ _ _ _ _ => rfl)
    · exact hf Warp.homeDid (fun _ _ _ _ _ _ => rfl)
    · exact hf Warp.level (fun _ _ _ _ _ _ => rfl)

theorem firstLane_counted (s : State) (u : Use) : (s.counted u).firstLane = s.firstLane := by
  unfold State.firstLane
  rw [active_counted]
  cases s.active <;> rfl

theorem illegalWord_counted (s : State) (u : Use) (h : s.canIssue u = true) :
    (s.counted u).illegalWord = .next ((s.counted u).faultAt .illegal s.firstLane 0) := by
  have hne : s.active ≠ [] := by
    unfold State.canIssue at h
    cases hw : s.warp? with
    | none => rw [hw] at h; simp at h
    | some w =>
      rw [hw] at h
      simp only [Bool.and_eq_true] at h
      intro he
      rw [he] at h
      simp at h
  unfold State.illegalWord
  rw [active_counted]
  unfold State.firstLane
  cases ha : s.active with
  | nil => exact absurd ha hne
  | cons p l => rfl

theorem deliverPending_none (s : State) (c k : Nat) (w : Warp) (h : s.warpAt? c k = some w) (hp : w.pendingTraps = []) :
    s.deliverPending c k = s := by
  unfold State.deliverPending
  rw [h]
  dsimp only
  rw [hp]

theorem splits_threads (l : List Bundle) (w : Warp) (c : Nat) :
    (l.foldl (fun w b => w.split b.mask c) w).threads = w.threads ∧ (l.foldl (fun w b => w.split b.mask c) w).pendingTraps = w.pendingTraps ∧
      (l.foldl (fun w b => w.split b.mask c) w).handler = w.handler ∧ (l.foldl (fun w b => w.split b.mask c) w).partn = w.partn := by
  induction l generalizing w with
  | nil => exact ⟨rfl, rfl, rfl, rfl⟩
  | cons b l ih => exact ih (w.split b.mask c)

theorem releases_blank (c : Nat) (ms : List Word) (w : Warp) : (ms.foldl (Warp.releaseAt c) w).blank = w.blank := (foldl_alike c ms w).1

end Sys2Proof.Machine
end

