-- ==== Sys2Proof/Laws/Waits.lean ====
section
/-!
SUPPORT. The waits on words, the accesses of windows and of stamped records, where every live lane passes.
-/

namespace Sys2Proof.Machine

theorem fm_none {α β : Type} (g : List (Nat × Thread × α)) (F : Nat × Thread × Except Cause α → Option β)
    (h : ∀ x ∈ g, F (x.1, x.2.1, .ok x.2.2) = none) : (g.map (fun x => (x.1, x.2.1, (Except.ok x.2.2 : Except Cause α)))).filterMap F = [] := by
  rw [List.filterMap_eq_nil_iff]
  intro x hx
  obtain ⟨y, hy, e⟩ := List.mem_map.1 hx
  rw [← e]; exact h y hy

theorem fm_some {α : Type} (g : List (Nat × Thread × α)) (F : Nat × Thread × Except Cause α → Option (Nat × Thread × α))
    (h : ∀ x ∈ g, F (x.1, x.2.1, .ok x.2.2) = some x) : (g.map (fun x => (x.1, x.2.1, (Except.ok x.2.2 : Except Cause α)))).filterMap F = g := by
  induction g with
  | nil => rfl
  | cons a l ih =>
    rw [List.map_cons, List.filterMap_cons, h a List.mem_cons_self]
    simp only
    rw [ih (fun x hx => h x (List.mem_cons_of_mem _ hx))]

theorem waitIssue_go (opds : List Opd) (ap : Bool) (size : Nat) (a : Reg) (body) (s : State) (w : Warp) (good) (y z : State) (vals)
    (h : s.canIssue { opds := opds, order := loadOrder, scope := anyScope, closes := true } = true)
    (hw : (s.counted { opds := opds, order := loadOrder, scope := anyScope, closes := true }).warp? = some w)
    (hp : (s.counted { opds := opds, order := loadOrder, scope := anyScope, closes := true }).heldLanes false false = [])
    (hr : (s.counted { opds := opds, order := loadOrder, scope := anyScope, closes := true }).waitRefs w ap size a.toNat
      (s.counted { opds := opds, order := loadOrder, scope := anyScope, closes := true }).live = (good.map (fun g => (g.1, g.2.1, .ok g.2.2)), y))
    (hg : good.all (fun g => g.2.2 != .walk) = true)
    (hv : y.waitReads w ((s.cur.scope .package == .block) && !ap) size good = (z, vals)) :
    waitIssue opds ap size a body s = .next (body z w vals).finish := by
  unfold waitIssue
  rw [issue_runs _ _ _ h, hw]
  simp only
  rw [hp]
  simp only [List.isEmpty_nil, Bool.not_true, Bool.false_eq_true, if_false]
  rw [hr]
  simp only
  rw [fm_none good, fm_some good]
  rotate_left
  · intro x _; rfl
  · intro x _; rfl
  simp only [firstFault]
  have e5 : ((s.counted { opds := opds, order := loadOrder, scope := anyScope, closes := true }).cur.scope .package == .block && !ap) = (s.cur.scope .package == .block && !ap) := rfl
  have e6 : good.filter (fun x => x.2.2 == .walk) = [] := by
    rw [List.filter_eq_nil_iff]
    intro x hx
    have := List.all_eq_true.1 hg x hx
    simpa using this
  rw [e5, hv, e6]
  rfl

/-- Where a lane has no translation of its word, the walks of those lanes begin and they wait (R185). -/
theorem waitIssue_walks (opds : List Opd) (ap : Bool) (size : Nat) (a : Reg) (body) (s : State) (w : Warp) (good : List (Nat × Thread × WaitRef)) (y : State)
    (h : s.canIssue { opds := opds, order := loadOrder, scope := anyScope, closes := true } = true)
    (hw : (s.counted { opds := opds, order := loadOrder, scope := anyScope, closes := true }).warp? = some w)
    (hp : (s.counted { opds := opds, order := loadOrder, scope := anyScope, closes := true }).heldLanes false false = [])
    (hr : (s.counted { opds := opds, order := loadOrder, scope := anyScope, closes := true }).waitRefs w ap size a.toNat
      (s.counted { opds := opds, order := loadOrder, scope := anyScope, closes := true }).live = (good.map (fun g => (g.1, g.2.1, .ok g.2.2)), y))
    (hg : good.any (fun g => g.2.2 == .walk) = true) :
    waitIssue opds ap size a body s = .next (y.probeWalk size a.toNat (good.filter (fun g => g.2.2 == .walk))) := by
  unfold waitIssue
  rw [issue_runs _ _ _ h, hw]
  simp only
  rw [hp]
  simp only [List.isEmpty_nil, Bool.not_true, Bool.false_eq_true, if_false]
  rw [hr]
  simp only
  rw [fm_none good, fm_some good]
  rotate_left
  · intro x _; rfl
  · intro x _; rfl
  simp only [firstFault]
  have e6 : (good.filter (fun x => x.2.2 == .walk)).isEmpty = false := by
    rw [List.any_eq_true] at hg
    obtain ⟨x, hx, e⟩ := hg
    rw [List.isEmpty_eq_false_iff_exists_mem]
    exact ⟨x, List.mem_filter.2 ⟨hx, e⟩⟩
  rw [e6]
  rfl

theorem winIssue_go (u : Use) (wr : Bool) (size : Nat) (a : Reg) (body) (s : State) (w : Warp) (good) (y : State)
    (h : s.canIssue u = true) (hw : (s.counted u).warp? = some w)
    (hp : (s.counted u).heldLanes wr false = [])
    (hr : (s.counted u).winRefs w wr size a.toNat (s.counted u).live = (good.map (fun g => (g.1, g.2.1, .ok g.2.2)), y)) :
    winIssue u wr size a body s = body y w good := by
  unfold winIssue
  rw [issue_runs _ _ _ h, hw]
  simp only
  rw [hp]
  simp only [List.isEmpty_nil, Bool.not_true, Bool.false_eq_true, if_false]
  rw [hr]
  simp only
  rw [fm_none good, fm_some good]
  rotate_left
  · intro x _; rfl
  · intro x _; rfl
  simp only [firstFault]

theorem stampIssue_go (opds : List Opd) (wr : Bool) (a : Reg) (early : Thread → Bool) (body) (s : State) (w : Warp) (good) (y : State)
    (h : s.canIssue { opds := opds } = true) (hw : (s.counted { opds := opds }).warp? = some w)
    (hp : (s.counted { opds := opds }).heldLanes wr false = [])
    (hr : (s.counted { opds := opds }).recRefs w wr a.toNat (s.counted { opds := opds }).live = (good.map (fun g => (g.1, g.2.1, .ok g.2.2)), y))
    (hd : s.deckle.refuses = false) (he : ∀ x ∈ good, early x.2.1 = false) :
    stampIssue opds wr a early body s = body y w good := by
  unfold stampIssue
  rw [issue_runs _ _ _ h, hw]
  simp only
  rw [hp]
  simp only [List.isEmpty_nil, Bool.not_true, Bool.false_eq_true, if_false]
  rw [hr]
  simp only
  rw [fm_none good, fm_none good, fm_some good]
  rotate_left
  · intro x _; rfl
  · intro x hx
    have h1 : (s.counted { opds := opds }).deckle.refuses = false := hd
    simp only [h1, he x hx]
    rfl
  · intro x _; rfl
  simp only [List.append_nil, firstFault]

end Sys2Proof.Machine
end

