-- ==== Sys2Proof/Tests/Slice0.lean ====
section
/-!
SUPPORT. Tests: ill-formed terms that are refused, words of every instruction, one step of some instructions with results
worked out from the spec, and states that meet the hypotheses of the statements.
-/

namespace Sys2Proof.Tests

open Sys2Proof Sys2Proof.Machine

/-! Ill-formed terms, one for each check of WellFormed. -/

theorem test_refused_pairs : ∀ i ∈ ([.addp 1 3 4, .addp 1 4 3, .addpi 1 3 4, .addpi 1 4 3, .dcmp .eq false 1 2 3,
      .dcmp .eq false 2 1 3, .dadd 1 2 4, .dsub 2 1 4, .dmul 2 4 1, .dfma 1 2 4, .dmin 2 1 4, .dmax 2 4 1, .drnd 1 2,
      .dabs 2 1, .dneg 1 2, .drcp .rne 0 1 2, .drsq .rne 0 2 1, .dsqrt .rne 0 1 2] : List Instr), i.wf = false := by decide

theorem test_refused_conversions : ∀ i ∈ ([.cvt false .rne .f32 .f32 2 2, .cvt false .ru .s32 .u32 2 2,
      .cvt false .rne .f64 .f32 1 2, .cvt false .rne .f32 .f64 2 1] : List Instr), i.wf = false := by decide

theorem test_refused_tiles : ∀ i ∈ ([.tilep 0 1, .tilep 6 1, .qbcast 4 1 1, .tmclr 0 2, .tmredw 0 2, .tment 0 1 2, .tmacc 0 1 2,
      .tmmrg 0 2 4, .tmmrg 0 4 2, .tmexit 0 2 1, .tmld 0 0 1 4, .tmld 0 0 2 2] : List Instr), i.wf = false := by decide

theorem test_refused_accesses : ∀ i ∈ ([.ld .rel .plain 0 .b32 2 1, .ld .rlx .plain 0 .b32 1 1, .ld .rlx .plain 0 .b64 2 1,
      .ld .rlx .plain 0 .b128 2 126, .st .acq .plain 0 .b32 2 1, .st .rlx .plain 0 .b32 1 1, .st .rlx .plain 0 .b64 2 1,
      .lds 0 .b64 1 1, .sts 0 .b128 1 3, .ldsPeek 0 1 1, .pref true 1, .waita false .ne false 1 1, .waita false .ne true 2 1,
      .bsig 1 2, .bsig 2 1, .bwait 1 2, .brdc 1 2, .brdc 2 1, .ldat 0 2 4, .ldat 0 1 8, .stst 0 1 4, .stst 0 2 2] : List Instr),
    i.wf = false := by decide

theorem test_refused_atomics : ∀ i ∈ ([.atom 0 false 0 .add 1 1, .atom 0 false 0 .cas 2 1, .red 0 false true false .add 2 1,
      .red 0 true false false .fmin 2 1, .red 0 true false false .xor 2 1, .red 0 false false false .cas 2 2,
      .red 0 false false false .add 1 1, .red 0 false false false .dadd 2 1, .redTm 0 1 4, .redTm 0 2 2, .atoms 0 false 2 .add 1 1,
      .atoms 0 false 0 .cas 1 1] : List Instr), i.wf = false := by decide

theorem test_refused_others : ∀ i ∈ ([.jtab 1 1, .callt 1 1 1, .timei 2, .commitw 1, .cpy 0 4 1, .cpytIn 0 4 1, .cpytOut 0 4 1,
      .wstr 0 .b32 1 1, .wstr 0 .b64 2 1, .wget 0 .b128 2 2, .wcnt 0 false 1 2, .wwait false false 2 1, .mloop 0 0 4 1,
      .mloop 0 0 120 1, .mldb 0 1 1, .mldb 0 126 1, .mrd 0 0 1 1, .rndm 1 2 4, .rndm 2 1 4, .rndm 2 4 1, .tlbinv 1 1, .rotinv 1 1,
      .icinv 1 1, .cmpman 1 1, .lnch 1 1, .halt 1, .tlrwRd 16 8, .tlrwWr 1 4] : List Instr), i.wf = false := by decide

theorem test_refused_prefixes : ∀ i ∈ ([.modPfx false false false 0 false 0 false 0, .modPfx false true true 0 false 0 false 0,
      .modPfx true false false 1 false 0 false 0, .modPfx true false false 0 false 1 false 0, .modPfx true false false 0 false 0 false 1,
      .modPfx false false false 0 false 0 true 5] : List Instr), i.wf = false := by decide

/-! A word of every instruction. -/


/-- Words of the family, written from the tables of the encoding (R22, R23). -/
theorem test_words_short : ∀ p ∈ ([(0x9A40, .mov16 19 9), (0xAA42, .movi16 21 9),
      (0x9A44, .add16 19 9), (0xAA46, .addi16 21 9),
      (0x9A48, .sub16 19 9), (0xAA4A, .subi16 21 9),
      (0x9A4C, .mul16 19 9), (0xAA4E, .muli16 21 9),
      (0x9A50, .and16 19 9), (0xAA52, .andi16 21 9),
      (0x9A54, .or16 19 9), (0xAA56, .ori16 21 9),
      (0x9A58, .xor16 19 9), (0xAA5A, .xori16 21 9),
      (0x9A5C, .shl16 19 9)] : List (Nat × Instr)),
    decodeTableWord 16 p.1 = some p.2 := by decide

/-- Words of the family, written from the tables of the encoding (R22, R23). -/
theorem test_words_short_rest : ∀ p ∈ ([(0x2A5E, .shli16 5 9), (0x9A60, .shru16 19 9),
      (0x2A62, .shrui16 5 9), (0x9A64, .shrs16 19 9),
      (0x2A66, .shrsi16 5 9), (0x9A68, .mins16 19 9),
      (0xAA6A, .minsi16 21 9), (0x9A6C, .maxs16 19 9),
      (0xAA6E, .maxsi16 21 9), (0x9A70, .fadd16 19 9),
      (0x9A74, .fsub16 19 9), (0x9A78, .fmul16 19 9),
      (0x9A7C, .fmax16 19 9)] : List (Nat × Instr)),
    decodeTableWord 16 p.1 = some p.2 := by decide

/-- Words written from the tables of the encoding (R26–R32). -/
theorem test_words_00 : ∀ p ∈ ([(0x03040401, .add 24 16 8), (0x13040401, .sub 24 16 8),
      (0x23040401, .mul 24 16 8), (0x33040401, .mulhu 24 16 8),
      (0x43040401, .mulhs 24 16 8), (0x53040401, .mad 24 16 8),
      (0x63040401, .and 24 16 8), (0x73040401, .or 24 16 8),
      (0x83040401, .xor 24 16 8), (0x93040401, .andn 24 16 8),
      (0xA3040401, .shl 24 16 8), (0xB3040401, .shru 24 16 8),
      (0xC3040401, .shrs 24 16 8), (0xD3040401, .rotl 24 16 8),
      (0xE3040401, .addp 24 16 8), (0xF3040401, .sel 24 16 8)] : List (Nat × Instr)),
    decodeTableWord 32 p.1 = some p.2 := by decide

/-- Words written from the tables of the encoding (R26–R32). -/
theorem test_words_01 : ∀ p ∈ ([(0x03040403, .mins 24 16 8), (0x13040403, .minu 24 16 8),
      (0x23040403, .maxs 24 16 8), (0x33040403, .maxu 24 16 8),
      (0x40040403, .clz 16 8), (0x50040403, .popc 16 8),
      (0x60040403, .brev 16 8), (0x73040403, .cmpeq 24 16 8),
      (0x83040403, .cmpne 24 16 8), (0x93040403, .cmplts 24 16 8),
      (0xA3040403, .cmpltu 24 16 8), (0xB3040403, .cmples 24 16 8),
      (0xC3040403, .cmpleu 24 16 8), (0xD3040403, .bfx 24 16 8),
      (0xE3040403, .bfi 24 16 8), (0xF3040403, .byteperm 24 16 8)] : List (Nat × Instr)),
    decodeTableWord 32 p.1 = some p.2 := by decide

/-- Words written from the tables of the encoding (R26–R32). -/
theorem test_words_02_to_07 : ∀ p ∈ ([(0x81240405, .addi 1033 16 8), (0x81240407, .andi 1033 16 8),
      (0x81240409, .ori 1033 16 8), (0x8124040B, .xori 1033 16 8),
      (0x00A4040D, .shli 5 16 8), (0x04A4040D, .shrui 5 16 8),
      (0x08A4040D, .shrsi 5 16 8), (0x0CA4040D, .rotli 5 16 8),
      (0x2124040F, .cmpeqi 265 16 8), (0x6124040F, .cmpltsi 265 16 8),
      (0xA124040F, .cmpltui 265 16 8), (0xE124040F, .cmpnei 265 16 8)] : List (Nat × Instr)),
    decodeTableWord 32 p.1 = some p.2 := by decide

/-- Words written from the tables of the encoding (R26–R32). -/
theorem test_words_08_to_10 : ∀ p ∈ ([(0x81240411, .addpi 1033 16 8), (0x80024413, .lui 131081 8),
      (0x80024415, .auip 131081 8), (0x00040417, .movri 16 8),
      (0x00240417, .movro 16 8), (0x03040419, .divs 24 16 8),
      (0x13040419, .divu 24 16 8), (0x23040419, .rems 24 16 8),
      (0x33040419, .remu 24 16 8), (0x03040421, .fadd 24 16 8),
      (0x13040421, .fsub 24 16 8), (0x23040421, .fmul 24 16 8),
      (0x33040421, .ffma 24 16 8), (0x43040421, .ffms 24 16 8),
      (0x53040421, .fnfma 24 16 8), (0x63040421, .fmin 24 16 8),
      (0x73040421, .fmax 24 16 8), (0x80040421, .frnd 16 8),
      (0x90040421, .fcls 16 8), (0xA3040421, .fscalebB0 24 16 8),
      (0xB3040421, .fscalebB1 24 16 8), (0xC3040421, .fscalebB2 24 16 8),
      (0xD3040421, .fscalebB3 24 16 8), (0xE0040421, .fabs 16 8),
      (0xF0040421, .fneg 16 8)] : List (Nat × Instr)),
    decodeTableWord 32 p.1 = some p.2 := by decide

/-- Words written from the tables of the encoding (R26–R32). -/
theorem test_words_11_to_14 : ∀ p ∈ ([(0xB3040423, .fcmp .le true 24 16 8), (0x03040425, .dadd 24 16 8),
      (0x13040425, .dsub 24 16 8), (0x23040425, .dmul 24 16 8),
      (0x33040425, .dfma 24 16 8), (0x43040425, .dmin 24 16 8),
      (0x53040425, .dmax 24 16 8), (0x60040425, .drnd 16 8),
      (0x70040425, .dabs 16 8), (0x80040425, .dneg 16 8),
      (0xB3040427, .dcmp .le true 24 16 8), (0x03040429, .hadd2 24 16 8),
      (0x13040429, .hsub2 24 16 8), (0x23040429, .hmul2 24 16 8),
      (0x33040429, .hfma2 24 16 8), (0x43040429, .hmin2 24 16 8),
      (0x53040429, .hmax2 24 16 8), (0x83040429, .badd2 24 16 8),
      (0x93040429, .bsub2 24 16 8), (0xA3040429, .bmul2 24 16 8),
      (0xB3040429, .bfma2 24 16 8), (0xC3040429, .bmin2 24 16 8),
      (0xD3040429, .bmax2 24 16 8)] : List (Nat × Instr)),
    decodeTableWord 32 p.1 = some p.2 := by decide

/-- Words written from the tables of the encoding (R26–R32). -/
theorem test_words_15_to_17 : ∀ p ∈ ([(0xA2E4042B, .cvt true .rz .f32 .s32 16 8), (0x0304042D, .dot8S8 24 16 8),
      (0x1304042D, .dot8U8 24 16 8), (0x2304042D, .dot8E4m3 24 16 8),
      (0x3304042D, .dot8E5m2 24 16 8), (0x4304042D, .dot4S4 24 16 8),
      (0x5304042D, .dot4E2m1 24 16 8), (0x0304042F, .frcp 3 16 8),
      (0x0324042F, .frsq 3 16 8), (0x0344042F, .fsqrt 3 16 8),
      (0x0364042F, .fexp2 3 16 8), (0x0384042F, .flog2 3 16 8),
      (0x03A4042F, .fsin 3 16 8), (0x03C4042F, .fcos 3 16 8),
      (0x03E4042F, .ftanh 3 16 8), (0x6304042F, .frcpCr .ru 3 16 8),
      (0x6324042F, .frsqCr .ru 3 16 8), (0x6344042F, .fsqrtCr .ru 3 16 8),
      (0xA304042F, .drcp .ru 3 16 8), (0xA324042F, .drsq .ru 3 16 8),
      (0xA344042F, .dsqrt .ru 3 16 8)] : List (Nat × Instr)),
    decodeTableWord 32 p.1 = some p.2 := by decide

/-- Words written from the tables of the encoding (R26–R32). -/
theorem test_words_18 : ∀ p ∈ ([(0x03040431, .shfl 24 16 8), (0x13040431, .shfllo 24 16 8),
      (0x23040431, .shflhi 24 16 8), (0x33040431, .shflx 24 16 8),
      (0x43040431, .bcast 24 16 8), (0x50040431, .voteAny 16 8),
      (0x60040431, .voteAll 16 8), (0x70040431, .voteBal 16 8),
      (0x80040431, .matchB 16 8), (0x90040431, .matchF 16 8),
      (0xA0040431, .redwAdd 16 8), (0xB0040431, .redwMin 16 8),
      (0xC0040431, .redwMax 16 8), (0xD0040431, .scanwAdd 16 8),
      (0xE0600431, .tilep 3 8), (0xF0000031, .wfence)] : List (Nat × Instr)),
    decodeTableWord 32 p.1 = some p.2 := by decide

/-- Words written from the tables of the encoding (R26–R32). -/
theorem test_words_19_to_1a : ∀ p ∈ ([(0x00040433, .qswpH 16 8), (0x10040433, .qswpV 16 8),
      (0x20040433, .qswpD 16 8), (0x30440433, .qbcast 2 16 8),
      (0x40040433, .qredAdd 16 8), (0x50040433, .qredMin 16 8),
      (0x60040433, .qredMax 16 8), (0x70040433, .fredwAdd 16 8),
      (0x80040433, .fredwMin 16 8), (0x90040433, .fredwMax 16 8),
      (0x30000435, .tmclr 3 8), (0x30240435, .tment 3 16 8),
      (0x30440435, .tmacc 3 16 8), (0x30640435, .tmmrg 3 16 8),
      (0x30800435, .tmredw 3 8), (0x30A40435, .tmexit 3 16 8),
      (0x36C40435, .tmld 3 3 16 8)] : List (Nat × Instr)),
    decodeTableWord 32 p.1 = some p.2 := by decide

/-- Words written from the tables of the encoding (R26–R32). -/
theorem test_words_1b_to_21 : ∀ p ∈ ([(0x03440437, .ldc32 3 16 8), (0x23640439, .ld .rlx .l2 3 .b64 16 8),
      (0x2364043B, .st .rlx .l2 3 .b64 16 8), (0x0364043D, .lds 3 .b64 16 8),
      (0x1344043D, .ldsSync 3 16 8), (0x2344043D, .ldsPeek 3 16 8),
      (0x0364043F, .sts 3 .b64 16 8), (0x1344043F, .stsSync 3 16 8),
      (0x2344043F, .stsFill 3 16 8), (0x3344003F, .stsEmpty 3 16),
      (0x26640441, .ldx true 3 3 16 8), (0x26640443, .stx true 3 3 16 8)] : List (Nat × Instr)),
    decodeTableWord 32 p.1 = some p.2 := by decide

/-- Words written from the tables of the encoding (R26–R32). -/
theorem test_words_22_to_2a : ∀ p ∈ ([(0x10040045, .pref true 16), (0x06600047, .fence true .rel .pod),
      (0x60640449, .waita true .ge true 16 8), (0x0304004B, .bsig 24 16),
      (0x1304004B, .bwait 24 16), (0x2004044B, .brdc 16 8),
      (0x3000004B, .syncb), (0x18A0004D, .waitc 3 5),
      (0x3C640451, .atom 3 true 2 .xor 16 8), (0x3B640453, .red 3 true false true .fadd 16 8),
      (0x31E40453, .redTm 3 16 8), (0x3A640455, .atoms 3 true 1 .xor 16 8)] : List (Nat × Instr)),
    decodeTableWord 32 p.1 = some p.2 := by decide

/-- Words written from the tables of the encoding (R26–R32). -/
theorem test_words_2c_to_2f : ∀ p ∈ ([(0x00004059, .bra 8), (0x0004045B, .bz 8 8),
      (0x0004445B, .bnz 8 8), (0x8002445D, .call 131081 8),
      (0x0004005F, .ret 16), (0x1304005F, .jtab 24 16),
      (0x2304045F, .callt 24 16 8), (0x7004005F, .trap 16),
      (0x3000005F, .exit), (0x4000005F, .yield),
      (0x5000005F, .nop), (0x6000005F, .brk),
      (0x8000005F, .gret), (0xF000005F, .barsync)] : List (Nat × Instr)),
    decodeTableWord 32 p.1 = some p.2 := by decide

/-- Words written from the tables of the encoding (R26–R32). -/
theorem test_words_30_to_36 : ∀ p ∈ ([(0x000002E1, .lpad 5), (0x80024463, .meet 131081 8),
      (0x00A00065, .gcall 5), (0x00000467, .timei 8),
      (0x10040067, .commitw 16), (0x03840469, .stst 3 16 8),
      (0x0384046B, .ldat 3 16 8), (0x3004046D, .cpy 3 16 8),
      (0x3024046D, .cpytIn 3 16 8), (0x3224046D, .cpytOut 3 16 8),
      (0x3044046D, .halo 3 16 8), (0x3664046D, .wstr 3 .b64 16 8),
      (0x3684046D, .wget 3 .b64 16 8), (0x32A4046D, .wcnt 3 true 16 8),
      (0x06C4046D, .wwait true true 16 8), (0x34E4046D, .mloop 3 2 16 8),
      (0x3104046D, .mldb 3 16 8), (0x3524046D, .mrd 3 2 16 8),
      (0x3540046D, .mwm 3 2 8), (0x3560006D, .mzero 3 2),
      (0x3580006D, .mrel 3 2)] : List (Nat × Instr)),
    decodeTableWord 32 p.1 = some p.2 := by decide

/-- Words written from the tables of the encoding (R26–R32). -/
theorem test_words_37_to_3a : ∀ p ∈ ([(0x0304046F, .rndm 24 16 8), (0x00A00471, .srd 5 8),
      (0x00A00473, .swr 5 8), (0x33040075, .tlbinv 24 16),
      (0x43040075, .rotinv 24 16), (0x50040475, .cmpman 16 8),
      (0x60040475, .lnch 16 8), (0x70040475, .chkpTake 16 8),
      (0x70240475, .chkpPreempt 16 8), (0x70440475, .chkpResume 16 8),
      (0x80040075, .halt 16), (0xA3040075, .icinv 24 16),
      (0x00000075, .eret0), (0x00200075, .eret1),
      (0x10000075, .xlock), (0x20000075, .xunlk),
      (0x90000075, .tfence)] : List (Nat × Instr)),
    decodeTableWord 32 p.1 = some p.2 := by decide

/-- Words written from the tables of the encoding (R26–R32). -/
theorem test_words_3b_to_3d : ∀ p ∈ ([(0x01600477, .tlrwRd 11 8), (0x11600477, .tlrwWr 11 8),
      (0x0002E2F9, .repPfx 2 true true true 5), (0x0007BCFB, .modPfx true true true 2 true 3 true 1)] : List (Nat × Instr)),
    decodeTableWord 32 p.1 = some p.2 := by decide


/-! Small states: core 0 runs one warp, whose bundle is issuing. -/

/-- A lane with some registers set. -/
def lane (regs : List (Nat × Word)) : Thread := regs.foldl (fun t p => t.set p.1 p.2) probeThread

/-- A block of one KiB of scratchpad and four record slots on core 0. -/
def block : Block := ⟨0, 0, 0, 0, 0, 0, 1, 0, 0, [0], 1024, [], [], [0, 1, 2, 3], 0, 0, 0, 0, false⟩

/-- The bundle of lanes 0 to 2 of a warp, lane 2 a helper. -/
def three : State :=
  { State.reset.withCode [] with
    turns := []
    cur := ⟨0, 0, 7, 0, none, none, 4, 0, []⟩
    blocks := [(0, block)]
    cores := [(0, { Core.idle with
      warps := [(0, { probeWarp with
        threads := [(0, lane [(1, 5), (2, 0xFFFFFFFF), (8, 0x3F800000)]), (1, lane [(1, 7)]), (2, { lane [] with helper := true })]
        bundles := [⟨7, 0, 0⟩] })] })] }

/-- The same with lane 0 alone. -/
def one : State :=
  { three with
    cur := ⟨0, 0, 1, 0, none, none, 4, 0, []⟩
    cores := [(0, { Core.idle with warps := [(0, { probeWarp with threads := [(0, lane [(1, 5), (2, 0xFFFFFFFF)])] })] })] }

/-- The warp of `three`. -/
def theWarp (s : State) : Warp := (s.warpAt? 0 0).getD probeWarp

theorem witness_arithmetic : three.canIssue (Use.f3 1 2 3) = true ∧ three.canIssue (Use.f2 1 2) = true ∧
    three.canIssue (Use.p2 2 4) = true ∧ three.canIssue (Use.p3 2 4 6).fp = true ∧
    three.canIssue (Use.flow []) = true ∧ three.canIssue (Use.sysop []) = true ∧
    three.canIssue { opds := [.four .vd 4] } = true := by decide

/-! States that meet the hypotheses of the statements (the numbers are those of OBLIGATIONS.json). -/

/-- A machine goes on. -/
def goes : Out → Bool
  | .next _ => true
  | _ => false

/-- Event data with an operation's number. -/
def ev0 : EventData := { EventData.none with sender := 1, named := 2 }

/-- O1: a turn that grants core 0 a bundle, whose word decodes; the second word of a unit; an event laid down. -/
theorem witness_step : ∃ (x s y : State) (w : Warp) (l : Nat) (t : Thread) (rest : List (Nat × Thread)) (b r : List Byte) (i : Instr)
    (ts : List Turn), x.cur.off = 0 ∧ x.turns = .issue 0 0 :: ts ∧ ({ x with turns := ts } : State).grant 0 0 = some s ∧
    s.warp? = some w ∧ s.active = (l, t) :: rest ∧ s.fetchWord s.cur.core w (t.pc.toNat + s.cur.off) = .ok (b, y) ∧
    decode b = .ok (i, r) :=
  ⟨State.reset.withFetchWord 32 0x5000005F, _, _, _, _, _, _, _, _, _, _, rfl, rfl, rfl, rfl, rfl, rfl, rfl⟩

theorem witness_step_mid : ∃ (s y : State) (w : Warp) (l : Nat) (t : Thread) (rest : List (Nat × Thread)) (b r : List Byte) (i : Instr),
    s.cur.off = 4 ∧ s.warp? = some w ∧ s.active = (l, t) :: rest ∧
    s.fetchWord s.cur.core w (t.pc.toNat + s.cur.off) = .ok (b, y) ∧ decode b = .ok (i, r) :=
  ⟨{ one with cur := ⟨0, 0, 1, 4, none, some ⟨none, some .rz, none, none⟩, 0, 0, []⟩ }, _, _, _, _, _, _, _, _,
    rfl, rfl, rfl, rfl, rfl⟩

theorem witness_step_event : let s : State := { State.reset with turns := [.event .deckleTick .none] }
    s.cur.off = 0 ∧ s.turns = .event .deckleTick .none :: [] ∧ Instr.deckleTick.isEvent = true := by decide

/-- O3 and O6. -/
theorem witness_round_trip : (Instr.addp 1 2 126).isEvent = false ∧ (Instr.addp 1 2 126).wf = true := by decide

theorem witness_canonical : Memory.wf State.reset.mem = true ∧ goes (step State.reset) = true := by decide

/-- O7 to O20: every form of use that the arithmetic families have, with the highest base register. -/
theorem witness_uses : ∀ u ∈ ([Use.f3 95 94 93, Use.f2 95 0, Use.p2 94 92, Use.p3 94 92 90, (Use.f3 1 2 3).fp, (Use.f2 1 2).fp,
      (Use.p3 2 4 6).fp, (Use.p2 2 4).fp, Use.f2 (low5 31) (low5 0), (Use.f2 (low5 31) (low5 0)).fp,
      { opds := [.one .vd 95], rep := true }, { opds := [.one .vd (low5 31)], rep := true },
      { opds := [.two .vd 2, .two .va 4, .one .vb 6], rep := true }, { Use.f2 1 2 with more := fun t => [t.nat (three.reg .va 1)], srcs := [.one .va 1] },
      { Use.f2 1 3 with more := fun t => [t.nat (three.reg .vd 3)], srcs := [.one .vd 3] },
      { opds := [.one .vd 1, .two .va 2, .two .vb 4], rep := true },
      { opds := [cvtOpd .vd .f64 2, cvtOpd .va .s32 1], rep := true, rm := true, ftz := true },
      { opds := [.one .vd 3, .one .va 2, .one .vb 1], closes := true }, { opds := [.two .vd 2, .two .va 4, .two .vb 6] },
      { opds := [] }, { opds := [.one .vd 1] }, Use.flow [.one .vd 1], Use.flow [.one .va 4], Use.flow [],
      { opds := [.four .vd 4] }, { opds := [.two .va 4], closes := true }] : List Use), three.canIssue u = true := by decide

/-- O18: a warp for TILEP; O21: a bundle whose addresses are even, and one where lane 0's is odd. -/
theorem witness_warp : three.warp? = some (theWarp three) := rfl

theorem witness_returns : three.active.all (fun p => (p.2.nat 4) % 2 == 0) = true ∧
    firstBad three.active (fun t => t.nat 1 % 2 == 1) = some 0 := by decide

/-- O19: a prefix before RNDM. -/
theorem witness_prefixed : ∃ (w : Warp) (l : Nat) (t : Thread) (rest : List (Nat × Thread)),
    let s : State := { one with cur := { one.cur with off := 4, mod := some ⟨some true, none, none, none⟩ } }
    s.warp? = some w ∧ s.active = (l, t) :: rest ∧ ∃ m, s.cur.mod = some m ∧ m ≠ ⟨none, none, none, none⟩ :=
  ⟨_, _, _, _, rfl, rfl, _, rfl, by decide⟩

/-- O22 and O24 ask for no more than a warp and a bundle. O23: a lane that meets its own address, and releases its group. -/
theorem witness_meet : three.canIssue (Use.flow [.one .vd 3]) = true ∧ (theWarp three).threads ≠ [] ∧ (0 : Word) ≠ 0xFFFFFFFF ∧
    (let x := one.mapActive (fun _ t => { t with pc := 8, meetv := 8 });
      ((theWarp x).meeting 8).all (fun p => p.2.parked) = true ∧ (theWarp x).meeting 8 ≠ []) := by decide

/-- O26: a bundle with an earlier access of lane 1 still in its walk, and one without. -/
theorem witness_barriers : (three.counted (Use.flow [])).heldLanes true true = [] ∧
    three.actsOnL1 three.cur.core (theWarp three).curSlot .block = false ∧
    (let acc : Acc := ⟨1, 7, 4, .load .plain, .relaxed, .package, 8, false⟩;
      let s : State := { three with pend := [⟨0, 0, 0, 0, none, .access [acc] false .load []⟩] };
      s.canIssue (Use.flow []) = true ∧ (s.counted (Use.flow [])).heldLanes true true = [1]) := by decide

/-- A warp inside a gate call. -/
def visitor : State := one.modWarp (fun w => { w with gates := [⟨8, ⟨0, 64⟩, 0, 0, 5, []⟩] })

/-- O25 and O26. -/
theorem witness_exit : three.canIssue (Use.flow []) = true ∧ (theWarp three).gates = [] ∧
    visitor.canIssue (Use.flow []) = true ∧ (theWarp visitor).gates ≠ [] := by decide

/-- O27 and O28: a first lane; each state of the unit. -/
theorem witness_first_lane : ∃ (l : Nat) (t : Thread) (rest : List (Nat × Thread)), three.active = (l, t) :: rest := ⟨_, _, _, rfl⟩

theorem witness_units : three.cur.mod = none ∧ three.cur.rep = none ∧
    ({ three with cur := { three.cur with off := 4, rep := some ⟨1, false, false, true, 0, 2⟩ } } : State).cur.rep ≠ none ∧
    ({ three with cur := { three.cur with off := 4, mod := some ⟨some true, none, none, none⟩ } } : State).cur.mod ≠ none := by decide

/-- O29: each check, with those before it passed: a prefix, the level, a control core, a register at the boundary of the base
count, and a destination of an open window. -/
theorem witness_decode_checks :
    (Use.flow []).badPrefix { three.cur with rep := some ⟨1, false, false, true, 0, 2⟩ } = some 0 ∧
    (Use.flow []).badPrefix three.cur = none ∧ (theWarp three).level.code < Level.supervisor.code ∧ isControl three.cur.core = false ∧
    firstBad three.active (fun x => (three.knownRegs (Use.f2 1 96) x).any (fun r => !(theWarp three).hasReg r)) = some 0 ∧
    firstBad three.active (fun x => (three.knownRegs (Use.f2 1 95) x).any (fun r => !(theWarp three).hasReg r)) = none := by decide

theorem witness_lookahead : let s := one.mapActive (fun _ t => { t with windows := [⟨[0], [3], 2, false⟩] })
    firstBad s.active (fun x => (s.knownRegs (Use.f2 1 3) x).any (fun r => !(theWarp s).hasReg r)) = none ∧
    firstBad s.active (s.looksAhead (Use.f2 1 3)) = some 0 := by decide

/-- A warp whose launch has a trap handler. -/
def handled : State := one.modWarp (fun w => { w with trapVec := some 64 })

/-- O30. -/
theorem witness_user_trap : ∃ (w : Warp) (q : Thread), handled.warp? = some w ∧ isControl handled.cur.core = false ∧ w.gates = [] ∧
    w.handler = none ∧ w.trapVec = some 64 ∧ Cause.brk.isSuper = false ∧ handled.cur.rep = none ∧ w.collecting = false ∧
    handled.inFlight handled.cur.core handled.cur.slot = false ∧ tget w.threads 0 = some q := ⟨_, _, rfl, rfl, rfl, rfl, rfl, rfl, rfl, by decide, rfl, rfl⟩

/-- A partition whose fault queue of 16 records lies in page 0. -/
def queued (tail : Word) : State := one.modPart 0 (fun p => { p with fqlo := 0x400, fqsize := 4, fqtail := tail })

/-- O31: a queue with room for one more record, and a full one. -/
theorem witness_supervisor_trap : ∃ (w : Warp) (p : Part) (q : Thread), (queued 15).warp? = some w ∧
    tget (queued 15).parts w.part = some p ∧ isControl (queued 15).cur.core = false ∧ Cause.page.isSuper = true ∧
    (queued 15).cur.rep = none ∧ w.collecting = false ∧ (queued 15).inFlight 0 0 = false ∧ tget w.threads 0 = some q ∧ Memory.wf (queued 15).mem = true ∧
    (queued 15).queueValid w.part p = true ∧ p.queueRoom = true ∧ (queued 15).parts.all (fun x => !x.2.migEn) = true :=
  ⟨_, _, _, rfl, rfl, rfl, rfl, rfl, by decide, rfl, rfl, rfl, by decide, by decide, rfl⟩

theorem witness_full_queue : ∃ (w : Warp) (p : Part), (queued 16).warp? = some w ∧ tget (queued 16).parts w.part = some p ∧
    ((queued 16).queueValid w.part p && p.queueRoom) = false := ⟨_, _, rfl, rfl, by decide⟩

/-- A control core in a thread of its own, with a handler at 128; N as given. -/
def control (n : Bool) (vec : Word) : State :=
  { one with
    cur := ⟨576, 0, 1, 0, none, none, 4, 0, []⟩
    cores := [(576, { Core.idle with
      warps := [(0, { probeWarp with level := .supervisor })]
      trap := ⟨0, 32, 0, 0, 0, if n then 0x500 else 0, vec⟩ })] }

/-- O32: a first trap, one within a trap, and one without a handler. -/
theorem witness_control_trap : ∃ (w : Warp) (k : Core) (q : Thread), (control false 128).warp? = some w ∧
    isControl (control false 128).cur.core = true ∧ (control false 128).cur.slot = 0 ∧
    tget (control false 128).cores 576 = some k ∧ (control false 128).cur.rep = none ∧ w.collecting = false ∧
    (control false 128).inFlight 576 0 = false ∧ tget w.threads 0 = some q ∧
    bit k.trap.tframe.toNat 10 = false ∧ k.trap.tvec ≠ 0xFFFFFFFF :=
  ⟨_, _, _, rfl, rfl, rfl, rfl, rfl, by decide, by decide, rfl, by decide, by decide⟩

theorem witness_second_trap : (∃ k, tget (control true 128).cores 576 = some k ∧ bit k.trap.tframe.toNat 10 = true) ∧
    ∃ k, tget (control false 0xFFFFFFFF).cores 576 = some k ∧ k.trap.tvec = 0xFFFFFFFF :=
  ⟨⟨_, rfl, by decide⟩, ⟨_, rfl, rfl⟩⟩

/-- A warp in its handler. -/
def trapped : State := one.modWarp (fun w => { w with
  handler := some ⟨[(0, ⟨16, 0xFFFFFFFF, 0, false, List.replicate 8 3, [], [], []⟩)], 5, mkReport w .brk 0 16 0 0, 16, [], []⟩ })

/-- O33: with a frame, and without one. -/
theorem witness_user_return : ∃ (w : Warp) (f : TrapFrame) (x : SavedLane) (t : Thread), trapped.canIssue (Use.sysop []) = true ∧
    trapped.warp? = some w ∧ isControl trapped.cur.core = false ∧ w.handler = some f ∧ f.pending = [] ∧ f.retry = [] ∧
    tget w.threads 0 = some t ∧ t.exited = false ∧ tget f.lanes 0 = some x := ⟨_, _, _, _, by decide, rfl, rfl, rfl, rfl, rfl, rfl, rfl, rfl⟩

theorem witness_no_frame : one.canIssue (Use.sysop []) = true ∧ (theWarp one).handler = none := by decide

/-- O34: N set, and clear. -/
theorem witness_control_return : ∃ (w : Warp) (k k' : Core), (control true 128).canIssue (Use.sysop []) = true ∧
    (control true 128).warp? = some w ∧ isControl (control true 128).cur.core = true ∧
    tget (control true 128).cores 576 = some k ∧ bit k.trap.tframe.toNat 10 = true ∧
    w.handler = none ∧ w.pendingTraps = [] ∧ w.retry = [] ∧
    (control false 128).canIssue (Use.sysop []) = true ∧
    tget (control false 128).cores 576 = some k' ∧ bit k'.trap.tframe.toNat 10 = false :=
  ⟨_, _, _, by decide, rfl, rfl, rfl, by decide, rfl, rfl, rfl, by decide, rfl, by decide⟩

/-- The uses of the memory instructions, as O35, O37, O38 and O39 name them. -/
def uLd (z : Sz) : Use := { opds := [.ofSize .vd 8 z, .two .va 4], rep := true, order := loadOrder, scope := anyScope }
def uSt (z : Sz) : Use := { opds := [.ofSize .vd 8 z, .two .va 4], rep := true, order := storeOrder, scope := anyScope }
def uBsig : Use := { opds := [.two .va 4, .two .vb 6], order := storeOrder, scope := anyScope, closes := true }
def uAtom (o : AtomOp) : Use := { opds := [.atom 8 o, .two .va 4], rep := true, order := fun _ => true, scope := anyScope, rm := atomFp o }
def uRed (o : AtomOp) : Use :=
  { opds := [.atom 8 o, .two .va 4], rep := true, order := storeOrder, scope := anyScope, rm := atomFp o, ftz := atomFp o, cls := some 6 }
def uRedTm : Use := { opds := [.four .vd 8, .two .va 4], rep := true, order := storeOrder, scope := anyScope, cls := some 6 }
def uLdc : Use := { opds := [.one .vd 8, .one .va 4], closes := true }

/-- The accesses of the live lanes of `three` under a use, at lane addresses of zero. -/
def at0 (u : Use) (n : Nat) (k : AccKind) : Bool :=
  let x := three.counted u
  three.canIssue u && (match x.warp? with
    | some w => x.accessOk w (x.lanesAt 4 n .relaxed .package 0 false (fun _ _ => k))
    | none => false)

/-- O35: each form passes its checks on the bytes at the bottom of the address space. -/
theorem witness_memory : at0 (uLd .b128) 16 (.load .plain) = true ∧ at0 (uSt .b8) 1 (.store [1] .plain) = true ∧
    at0 uBsig 8 (.bsig 1) = true ∧ at0 (uAtom .cas) 4 (.atom .cas 1 2 .rne false) = true ∧
    at0 (uRed .dadd) 8 (.red .dadd 1 .rne false false false) = true ∧ at0 uRedTm 16 (.redTm [0, 0, 0, 0]) = true ∧
    at0 uLdc 4 (.load .plain) = true := by decide

/-- O36: a misaligned address in lane 1, and none in lane 0. -/
theorem witness_misaligned : ∃ w, three.warp? = some w ∧
    (let accs : List Acc := [⟨0, 4, 4, .load .plain, .relaxed, .package, 8, false⟩, ⟨1, 7, 4, .load .plain, .relaxed, .package, 8, false⟩];
      (three.accessFrom w accs).accessHeld accs = [] ∧ (three.accessFrom w accs).accessLate w accs = [] ∧
        firstFault ((three.accessFrom w accs).accessBad w accs) = some (.align, 1, 7)) := ⟨_, rfl, by decide⟩

/-- O37 and O38. -/
theorem witness_plain_access : ∃ w, three.warp? = some w ∧ three.canIssue (uLd .b64) = true ∧ three.canIssue (uSt .b64) = true ∧
    isControl three.cur.core = false ∧ three.cur.mod = none ∧ three.live ≠ [] ∧ three.reqs = [] ∧ three.noStamps = true ∧
    (∀ b ∈ [true, false], ∀ p ∈ three.live, three.laneHeld three.cur.core three.cur.slot p.1 b false = false) ∧ three.pkts.all (fun p => p.op != some three.nextId) = true ∧
    (∀ p ∈ three.live, three.plainAt w true false 8 (p.2.nat64 4) = some 0) ∧
    ∀ p ∈ three.live, three.plainAt w false true 8 (p.2.nat64 4) = some 0 := ⟨_, rfl, by decide⟩

/-- O39. -/
theorem witness_atomic : ∃ (w : Warp) (th : Thread), one.canIssue (uAtom .add) = true ∧ one.warp? = some w ∧
    isControl one.cur.core = false ∧ one.cur.mod = none ∧ (2 : BitVec 2) ≠ 0 ∧ one.live = [(0, th)] ∧ one.reqs = [] ∧ one.noStamps = true ∧
    one.laneHeld one.cur.core one.cur.slot 0 true false = false ∧ one.pkts.all (fun p => p.op != some one.nextId) = true ∧
    Memory.wf one.mem = true ∧ one.noMig = true ∧ one.plainAt w true true 4 (th.nat64 4) = some 0 ∧
    ∀ x ∈ one.l1Of one.cur.core w.curSlot, x.1 / 128 ≠ 0 / 128 :=
  ⟨_, _, by decide, rfl, rfl, rfl, by decide, rfl, rfl, by decide, by decide, by decide, by decide, by decide, by decide, by decide⟩

/-- O40: a result of each kind that its event writes. -/
theorem witness_results : ∀ e ∈ ([(Instr.loadReturn, .load), (.loadReturn, .mrd), (.atomReturn, .atom), (.sfuComplete, .sfu),
    (.tmResultWritten, .tm)] : List (Instr × ResKind)),
    let p : Pending := ⟨0, 0, 0, 0, none, .result e.2 [⟨0, [(3, 9)], 1⟩]⟩
    let s : State := { three with pend := [p] }
    s.pend.find? (fun q => q.id == s.ev.id) = some p ∧ (three.thread? 0 0 0).isSome = true := by decide

/-- A request on its way, at an address. -/
def req (id : Nat) (n : Nat) (k : ReqKind) : Req := ⟨id, 0, 0, false, 16, n, k, false, .package, [(0, 0, 0)], []⟩

/-- O41: a request of each kind. -/
theorem witness_requests : ∀ r ∈ [req 0 4 (.write [1, 2, 3, 4]), req 0 4 (.red .add 1 .rne false false false), req 0 16 (.redTm [0, 0, 0, 0]),
      req 0 8 (.bsig 1)],
    let s : State := { three with reqs := [r] }
    s.reqs.find? (fun x => x.id == s.ev.id) = some r ∧ s.mayApply r = true ∧ Memory.wf s.mem = true ∧ s.noMig = true := by decide

/-- O42: two integer reductions of one word. -/
theorem witness_merge : let a := req 0 4 (.red .add 1 .rne false false false)
    let b := req 1 4 (.red .add 2 .rne false false false)
    let s : State := { three with reqs := [a, b], ev := { EventData.none with id2 := 1 } }
    s.reqs.find? (fun r => r.id == s.ev.id) = some a ∧ s.reqs.find? (fun r => r.id == s.ev.id2) = some b ∧
      a.mayMerge b = true ∧ s.mayMeet a b = true ∧ mergeKinds a.kind b.kind = some (.red .add 3 .rne false false false, 0) := by decide

/-- O43 asks for nothing. O44: a dirty byte, kept or evicted; a flag on its way to a running and to a suspended warp; a pending
access; a sleeping lane; a page of two homes. -/
def dirty (evict : Bool) : State :=
  { three with
    ev := { EventData.none with flag := evict }
    cores := three.cores.map (fun (k : Nat × Core) => (k.1, { k.2 with l1 := [(0, [(5, (7, true)), (200, (1, true))])] })) }

theorem witness_dirty_line : ∀ e ∈ [true, false], (tget (dirty e).cores 0).isSome = true ∧ Memory.wf (dirty e).mem = true ∧
    (dirty e).noMig = true ∧ (∀ p ∈ (dirty e).l1Of 0 0, tget ((dirty e).l1Of 0 0) p.1 = some p.2) ∧
    (((dirty e).l1Of 0 0).filter (fun p => p.1 / 128 * 128 == (dirty e).ev.addr / 128 * 128)) ≠ [] ∧ (dirty e).ev.flag = e ∧ (dirty e).reqs = [] ∧
    tget ((dirty e).core 0).soon (dirty e).ev.slot = none := by decide

theorem witness_memory_events :
    (let s : State := { three with flagMsgs := [(0, 0, 1, 4)], ev := { EventData.none with lane := 1 } };
      s.flagMsgs.find? (fun f => f.1 == s.ev.core && f.2.1 == s.ev.slot && f.2.2.1 == s.ev.lane) = some (0, 0, 1, 4) ∧
        (tget (theWarp s).threads 1).isSome = true) ∧
    (let p : Pending := ⟨0, 0, 0, 0, none, .access [] false .load []⟩;
      let s : State := { three with pend := [p] };
      s.pend.find? (fun p => p.id == s.ev.id) = some p ∧ (s.warpAt? p.core p.slot).isSome = true) ∧
    (let s : State := { three with duals := [⟨0, 1, 2, false⟩] };
      s.duals.any (fun d => d.page == s.ev.num) = true) := by decide

/-! Scratchpad, waits, windows and stamps (O45 to O53). -/

/-- A tile-layout record: element size 4, 4 rows of 4, in scratchpad at 0 or in memory at 0. -/
def record (pad : Bool) : List Word := [0, if pad then 0x80000000 else 0, 0x00040004, 16, 0x80000002, 7, 0, 0]

/-- A machine with a partition that may copy and send through window 0, whose page 1 is a window and page 2 is stamped; record
slot 0 in scratchpad and slot 1 in memory; lanes with addresses of the three pages in v4, v6 and v10. -/
def rig : State :=
  { three with
    parts := [(0, { Part.idle with
      valid := true, size := 1, pkey := 1, wtlo := 0x1000, wtsize := 4
      eot := ⟨true, true, 3, 1000, 1300⟩ })]
    mem := [(0x1006, 1), (0x1007, 0x80)]
    tlb := [⟨0, 0, 0, false, true, true, true, 16⟩, ⟨0, 1, 1, false, true, true, true, 16⟩, ⟨0, 2, 2, false, true, true, true, 16⟩]
    rots := [(0, 0x000008180000000F), (1, 0x00000A180000000F), (2, 0x000009180000000F)]
    deckle := { Deckle.powerOn with fail := false, tick := 5000, early := 5000, late := 5010, eps := 5 }
    cores := three.cores.map (fun (k : Nat × Core) => (k.1, { k.2 with
      recs := [(0, record true), (1, record false)]
      warps := k.2.warps.map (fun (w : Nat × Warp) => (w.1, { w.2 with
        threads := w.2.threads.map (fun (t : Nat × Thread) => (t.1, (t.2.set 6 0x10000).set 10 0x20000)) })) })) }

/-- The same with lane 0 alone. -/
def rig1 : State :=
  { (rig.modWarp (fun w => { w with threads := w.threads.take 1 })) with
    cur := ⟨0, 0, 1, 0, none, none, 4, 0, []⟩ }

/-- The last word of a block of 1 KiB is in place, the word after it is not. -/
theorem witness_last_word : rig.spadRef (theWarp rig) 1020 4 = .ok ⟨0, 1020⟩ ∧ rig.spadRef (theWarp rig) 1024 4 = .error .page ∧
    rig.spadRef (theWarp rig) 1022 4 = .error .align := ⟨rfl, rfl, rfl⟩

/-- O45 and O46. -/
theorem witness_scratchpad : (rig.cur.order .relaxed).acquires = false ∧
    rig.live ≠ [] ∧ rig.canIssue (Use.lds (.ofSize .vd 8 .b128) 4) = true ∧ rig.canIssue (Use.lds (.two .vd 8) 4) = true ∧
    rig.canIssue (Use.sts [.ofSize .vd 8 .b8] 4) = true ∧ (rig.cur.order .relaxed).releases = false ∧
    (∀ b ∈ [true, false], rig.spadHeld b false 16 (rig.live.map (fun p => (p.1, p.2, ⟨0, 0⟩))) = []) := by decide

theorem witness_scratchpad_words : (∀ p ∈ rig.live, rig.spadRef (theWarp rig) (p.2.nat (rig.reg .va 4)) 16 = .ok ⟨0, 0⟩) ∧
    ∀ p ∈ rig.live, rig.spadRef (theWarp rig) (p.2.nat (rig.reg .va 4)) 1 = .ok ⟨0, 0⟩ := by
  refine ⟨?_, ?_⟩ <;> exact List.forall_mem_cons.2 ⟨rfl, List.forall_mem_cons.2 ⟨rfl, fun _ h => absurd h (List.not_mem_nil)⟩⟩

/-- O47: the word empty and full. -/
def filled : State := { rig1 with blocks := [(0, { block with full := [0] })] }

theorem witness_full_empty : (∃ (w : Warp) (th : Thread), rig1.warp? = some w ∧ rig1.live = [(0, th)] ∧ filled.warp? = some w ∧
    filled.live = [(0, th)] ∧ rig1.spadRef w (th.nat (rig1.reg .va 4)) 4 = .ok ⟨0, 0⟩ ∧
    filled.spadRef w (th.nat (filled.reg .va 4)) 4 = .ok ⟨0, 0⟩) := ⟨_, _, rfl, rfl, rfl, rfl, rfl, rfl⟩

theorem witness_full_empty_checks : ∀ s ∈ [rig1, filled], s.noWaiters = true ∧ s.actsOnL1 s.cur.core (theWarp s).curSlot .block = false ∧ s.cur.mod = none ∧ s.cur.rep = none ∧
    s.laneHeld s.cur.core s.cur.slot 0 true true = false ∧ s.canIssue (Use.sts [.one .vd 1] 4) = true ∧ s.canIssue (Use.sts [] 4) = true ∧
    s.canIssue (Use.lds (.one .vd 1) 4) = true := by decide

theorem witness_full_empty_bits : rig1.isFull 0 (0 / 4) = false ∧ filled.isFull 0 (0 / 4) = true := by decide

/-- O48: operations of one and of two registers. -/
theorem witness_spad_atomics : ∀ o ∈ [AtomOp.add, .cas, .dadd], rig1.canIssue
    { opds := [.atom 8 o, .one .va 4], rep := true, order := fun _ => true, scope := spadScope, rm := atomFp o } = true ∧
    rig1.cur.mod = none ∧ rig1.spadHeld true false o.size [(0, probeThread, ⟨0, 0⟩)] = [] := by decide

/-- O49: the last record slot of the block, and the slot after it; an element of each kind of record. -/
theorem witness_records : rig.slotCheck (theWarp rig) 3 = none ∧ rig.slotCheck (theWarp rig) 4 = some .regrange ∧
    rig.canIssue { opds := [⟨.vd, 8, 8, 8⟩] } = true ∧ tget rig.blocks (theWarp rig).block = some block ∧
    (tget rig.cores block.core).isSome = true ∧ rig.live ≠ [] := by decide

theorem witness_elements : ∀ n ∈ [0, 1], let u := elemUse n 4 8 rig
    let x := rig.counted u
    rig.canIssue u = true ∧ x.recordCheck (theWarp x) n (rig.reg .vd 8) = none ∧
      elemFault (x.elems (theWarp x) false true n 4 8) = none ∧ elemFault (x.elems (theWarp x) true false n 4 8) = none ∧
      x.heldLanes false false = [] ∧ x.heldLanes true false = [] ∧
      (∀ st ∈ [false, true], x.elemHeld (Record.ofWords (x.recordOf (theWarp x) n)).esz (x.elems (theWarp x) st (!st) n 4 8) = []) ∧
      x.accessOk (theWarp x) (elemAccs (x.elems (theWarp x) false true n 4 8)) = true ∧
      (x.elemStores (theWarp x) (x.elems (theWarp x) true false n 4 8)).accessOk (theWarp x)
        (elemAccs (x.elems (theWarp x) true false n 4 8)) = true := by decide

/-- O50: the fences wait for nothing; a warp whose lane has acquired; a counter at its bound. -/
theorem witness_fences : rig.canIssue { opds := [.two .va 4], rep := true } = true ∧ rig.reqs = [] ∧
    rig.canIssue (Use.flow []) = true ∧ rig.live ≠ [] ∧ (∀ b ∈ [true, false], rig.heldLanes b b = []) ∧
    (∀ k ∈ [true, false], ∀ sc ∈ [Scope.block, .cluster, .package, .system, .time], ∀ p ∈ rig.live,
      rig.fenceWaits k sc p.1 = none) ∧
    rig.pend.all (fun p => !(p.core == 0 && p.slot == rig.cur.slot && rig.loadOut rig.cur.mask p)) = true ∧
    rig.active.all (fun p => !p.2.acq) = true ∧
    (rig.mapActive (fun _ t => { t with acq := true })).active.any (fun p => p.2.acq) = true := by decide

theorem witness_counts : let w := { theWarp rig with engine := [[], [], [(1, false)], [], [], [], [], []] }
    w.deferred.all (fun x => x.cls != 2) = true ∧ w.cnt 2 ≤ 1 ∧ ¬ w.cnt 2 ≤ 0 ∧ w.cnt 0 ≤ 0 ∧ w.cnt 4 ≤ 0 := by decide

/-- O51: a word of memory and one of scratchpad. -/
def useWait : Use := { opds := [.two .va 4, .two .vd 8], order := loadOrder, scope := anyScope, closes := true }

theorem witness_waits : ∃ (w : Warp) (good : List (Nat × Thread × WaitRef)) (y z : State) (vals : List (Nat × Thread × WaitRef × Nat)),
    rig.warp? = some w ∧ rig.canIssue useWait = true ∧ (rig.counted useWait).warp? = some w ∧
      (rig.counted useWait).heldLanes false false = [] ∧
      (rig.counted useWait).waitRefs w true 8 4 (rig.counted useWait).live = (good.map (fun g => (g.1, g.2.1, .ok g.2.2)), y) ∧
      good.all (fun g => g.2.2 != .walk) = true ∧ y.waitReads w ((rig.cur.scope .package == .block) && !true) 8 good = (z, vals) :=
  ⟨_, [(0, _, .mem 0), (1, _, .mem 0)], _, _, _, rfl, by decide, rfl, by decide, rfl, rfl, rfl⟩

/-- The same where no translation is cached, and BRDC's loads. -/
theorem witness_walking_waits : let x := ({ rig with tlb := [] } : State)
    x.canIssue useWait = true ∧ (x.counted useWait).heldLanes false false = [] ∧
      ((x.counted useWait).waitRefs (theWarp x) true 8 4 (x.counted useWait).live).1.map (fun g => (g.1, g.2.2)) =
        [(0, .ok .walk), (1, .ok .walk)] := by decide

theorem witness_counter_read : ∀ sc ∈ [Scope.block, .package], let x := rig.counted useWait
    x.accessOk (theWarp x) (x.lanesAt 4 8 (rig.cur.order .relaxed) sc 8 true (fun _ _ => .load (if sc.wide then .l2 else .plain))) = true := by
  decide

/-- Lanes with the scratchpad aperture in v4. -/
def padRig : State := rig.mapActive (fun _ t => t.setPair 4 (BitVec.ofNat 64 (spadHigh * 2 ^ 32 + 1016)))

theorem witness_pad_waits : ∃ (w : Warp) (good : List (Nat × Thread × WaitRef)) (y z : State) (vals : List (Nat × Thread × WaitRef × Nat)),
    padRig.warp? = some w ∧ padRig.canIssue useWait = true ∧
      (padRig.counted useWait).waitRefs w true 8 4 (padRig.counted useWait).live = (good.map (fun g => (g.1, g.2.1, .ok g.2.2)), y) ∧
      y.waitReads w false 8 good = (z, vals) :=
  ⟨_, [(0, _, .pad ⟨0, 1016⟩), (1, _, .pad ⟨0, 1016⟩)], _, _, _, rfl, by decide, rfl, rfl⟩

/-- O52: each lane's place in the window, and each lane's record. -/
theorem witness_windows : ∀ u ∈ [({ opds := [.ofSize .vd 8 .b64, .two .va 6] } : Use), { opds := [.two .vd 8, .two .va 6] }],
    ∃ (w : Warp) (l : List (Nat × Thread × WinRef)) (y : State), rig.canIssue u = true ∧ (rig.counted u).warp? = some w ∧
      (∀ b ∈ [true, false], (rig.counted u).heldLanes b false = []) ∧
      (rig.counted u).winRefs w true 8 6 (rig.counted u).live = (l.map (fun g => (g.1, g.2.1, .ok g.2.2)), y) ∧
      (rig.counted u).winRefs w false 1 6 (rig.counted u).live = (l.map (fun g => (g.1, g.2.1, .ok g.2.2)), y) ∧
      l ≠ [] ∧ y.mayCopy w = true ∧ w.cnt 3 < 63 := by
  refine List.forall_mem_cons.2 ⟨?_, List.forall_mem_cons.2 ⟨?_, fun _ h => absurd h (List.not_mem_nil)⟩⟩ <;>
    exact ⟨_, [(0, _, ⟨0, 1, 0⟩), (1, _, ⟨0, 1, 0⟩)], _, by decide, rfl, by decide, rfl, rfl, by decide, by decide, by decide⟩

theorem witness_stamps : ∀ u ∈ [({ opds := [.four .vd 12, .two .va 10] } : Use), { opds := [⟨.vd, 16, 8, 8⟩, .two .va 10] }],
    ∃ (w : Warp) (l : List (Nat × Thread × RecRef)) (y : State), rig.canIssue u = true ∧ (rig.counted u).warp? = some w ∧
      (∀ b ∈ [true, false], (rig.counted u).heldLanes b false = []) ∧
      (rig.counted u).recRefs w true 10 (rig.counted u).live = (l.map (fun g => (g.1, g.2.1, .ok g.2.2)), y) ∧
      (rig.counted u).recRefs w false 10 (rig.counted u).live = (l.map (fun g => (g.1, g.2.1, .ok g.2.2)), y) ∧
      rig.deckle.refuses = false ∧ l ≠ [] ∧ w.cnt 5 < 63 ∧ ∀ x ∈ l, x.2.1.nat64 16 < 2 ^ 63 := by
  refine List.forall_mem_cons.2 ⟨?_, List.forall_mem_cons.2 ⟨?_, fun _ h => absurd h (List.not_mem_nil)⟩⟩ <;>
    exact ⟨_, [(0, _, ⟨131072, none⟩), (1, _, ⟨131072, none⟩)], _, by decide, rfl, by decide, rfl, rfl, by decide, by decide,
      by decide, by decide⟩

theorem witness_time : rig.canIssue { opds := [.four .vd 12] } = true ∧ rig.canIssue { opds := [.two .va 10], closes := true } = true ∧
    rig.canIssue { opds := [.two .vd 8, .two .va 6] } = true := by decide

/-- A table of the transformed mean: every word 1.0, over [0, 1] both ways. -/
def table : TmSlot := ⟨true, 0, 0x3F800000, 0, 0x3F800000, List.replicate 1024 0x3F800000⟩

/-- The rig with the table in slot 7, the last. -/
def tmRig : State :=
  { rig with
    cores := rig.cores.map (fun (k : Nat × Core) => (k.1, { k.2 with tms := [(7, table)] })) }

/-- O53: the built-in functions and a table; TMLD's parameters. -/
theorem witness_mean : let s := tmRig.mapActive (fun _ t => { t with tmctl := 0 })
    s.canIssue { opds := [.four .vd 12, .one .va 8], rep := true } = true ∧
    s.canIssue { opds := [.four .vd 12, .four .va 16], rep := true } = true ∧ s.canIssue { opds := [.four .vd 12], rep := true } = true ∧
    s.canIssue { opds := [.one .vd 12, .four .va 16], rep := true } = true ∧
    (∀ p ∈ s.active, s.tmCheck (theWarp s) p.2 = none ∧ (s.enter p.2 (p.2.get 8)).isSome = true) := by decide

theorem witness_table : let t := { lane [(8, 0x3F000000)] with tmctl := 0x0F }
    t.tmTable = true ∧ t.tmSlot = 7 ∧ tmRig.tmCheck (theWarp tmRig) t = none ∧ (tmRig.enter t (t.get 8)).isSome = true := by decide

theorem witness_table_load : ∃ (lane : Nat) (t : Thread) (rest : List (Nat × Thread)) (x : State),
    let u : Use := { opds := [.four .vd 12, .two .va 6], rep := true }
    let s := tmRig.mapActive (fun _ t => t.setGroup 12 [0, 0x3F800000, 0, 0xBF800000])
    let ps := t.group 12 4
    s.canIssue u = true ∧ x = s.counted u ∧ x.live = (lane, t) :: rest ∧ bit (dpTm ((x.core s.cur.core).dp 0)) 7 = true ∧
      ps.all finite32 = true ∧ fix32 (ps.getD 0 0) < fix32 (ps.getD 1 0) ∧ fix32 (ps.getD 2 0) ≠ fix32 (ps.getD 3 0) ∧
      t.nat64 6 % 64 = 0 ∧ t.nat64 6 < 2 ^ 56 ∧ (theWarp s).cnt 7 < 63 :=
  ⟨_, _, _, _, by decide, rfl, rfl, by decide, by decide, by decide, by decide, by decide, by decide⟩

/-! Matrix and copy commands, tables, gates and the system instructions (O54 to O57). -/

/-- The rig with an FP32 format word in v8, the block of a load in v12 (32 elements at 0) and the block of a loop in v16
(one step, tile 0, all at 0); a claimed region, and tile 0 held by the block. -/
def matRig : State :=
  { (rig.mapActive (fun _ t => ((t.set 8 0x111).setGroup 12 [0, 0, 0, 32]).setGroup 16 [0, 0, 0, 0, 0, 0, 32, 0])) with
    clusters := [(0, { Cluster.idle.claim 0 4096 (0, true) with
      tiles := [⟨some 0, some false, 5, []⟩, Tile.free, Tile.free, Tile.free] })] }

theorem witness_mould_load : ∃ (w : Warp) (lane : Nat) (t : Thread) (rest : List (Nat × Thread)) (x : State) (fw : FmtWord),
    let u : Use := { opds := [.one .vd 8, ⟨.va, 12, 4, 2⟩] }
    let ws := t.group 12 4
    let off := (ws.getD 2 0).toNat
    let n := (ws.getD 3 0).toNat
    let len := 32 * ((n + 31) / 32) * elemBits fw.b / 8
    matRig.canIssue u = true ∧ x = matRig.counted u ∧ x.warp? = some w ∧ x.live = (lane, t) :: rest ∧
      FmtWord.of (t.get 8) = some fw ∧ voteFails (x.active.map (fun p => (p.1, p.2.get 8))) = none ∧ 0 < n ∧ n ≤ 65536 ∧
      words2 ws 0 % 16 = 0 ∧ off % 16 = 0 ∧ off + len ≤ 131072 ∧ x.myCluster.table.length < 32 ∧ w.cnt 1 < 63 ∧
      x.myCluster.badRegion off len (fun y => match y with
        | some z => z != x.regionTag w && x.didResident (clusterOf matRig.cur.core) z.1
        | none => false) = none :=
  ⟨_, _, _, _, _, _, by decide, rfl, rfl, rfl, rfl, by decide, by decide, by decide, by decide, by decide, by decide, by decide,
    by decide, by decide⟩

theorem witness_mould_edge : 131056 + 16 ≤ 131072 ∧ ¬ 131056 + 32 ≤ 131072 ∧ FmtWord.of 0x112 = none := by decide

theorem witness_loop : ∃ (w : Warp) (lane : Nat) (t : Thread) (rest : List (Nat × Thread)) (x : State) (fw : FmtWord),
    let u : Use := { opds := [.one .vd 8, ⟨.va, 16, 16, 8⟩] }
    let b := LoopBlock.of (t.group 16 8)
    let asc := w.captureScales 24
    let bsc := w.captureScales 28
    matRig.canIssue u = true ∧ x = matRig.counted u ∧ x.warp? = some w ∧ x.live = (lane, t) :: rest ∧
      FmtWord.of (t.get 8) = some fw ∧ voteFails (x.active.map (fun p => (p.1, p.2.get 8))) = none ∧
      w.running.all (fun p => laneIn matRig.cur.mask p.1) = true ∧ b.reserved = false ∧ x.loopCheck w fw b asc bsc 0 = none ∧
      x.loopCheck w fw b asc bsc 7 = none ∧ w.visiting = false ∧ x.myCluster.loopRegion fw b asc bsc 0 (x.regionTag w) = none ∧
      (x.myCluster.holds w.block b.tile && (x.myCluster.tiles.getD b.tile Tile.free).fp64 == some (!fw.wide)) = false ∧
      x.myCluster.mayTake w.block b.tile = true ∧ x.myCluster.table.length < 32 ∧ w.cnt 1 < 63 :=
  ⟨_, _, _, _, _, _, by decide, rfl, rfl, rfl, rfl, by decide, by decide, by decide, by decide, by decide, by decide, by decide,
    by decide, by decide, by decide, by decide⟩

theorem witness_tiles : ∃ (w : Warp) (lane : Nat) (t : Thread) (rest : List (Nat × Thread)), let s := matRig.mapActive (fun _ t => t.set 8 63)
    s.canIssue { opds := [.two .vd 12, .one .va 8] } = true ∧ s.canIssue { opds := [.one .vd 8] } = true ∧
      s.canIssue { opds := [] } = true ∧ (s.counted { opds := [.two .vd 12, .one .va 8] }).warp? = some w ∧
      (s.counted { opds := [.two .vd 12, .one .va 8] }).live = (lane, t) :: rest ∧ w.visiting = false ∧
      s.myCluster.holds w.block 0 = true ∧ s.myCluster.mayTake w.block 0 = true ∧ s.myCluster.mayTake w.block 3 = true ∧
      ((s.myCluster.tiles.getD 0 Tile.free).fp64 == some true) = false ∧
      ∀ p ∈ s.live, field (p.2.get 8).toNat 31 7 = 0 ∧ bit (p.2.get 8).toNat 6 = false :=
  ⟨_, _, _, _, by decide, by decide, by decide, rfl, rfl, by decide, by decide, by decide, by decide, by decide, by decide⟩

/-- O55: a copy from scratchpad to memory with a completion word; a record transfer; a push. -/
theorem witness_copies : ∃ (w : Warp) (lane : Nat) (t : Thread) (rest : List (Nat × Thread)) (x : State),
    let u : Use := { opds := [.one .vd 12, ⟨.va, 16, 8, 8⟩] }
    let s := rig.mapActive (fun _ t => t.setGroup 16 [0, BitVec.ofNat 32 spadHigh, 0, 0, 64, 0, 256, 0])
    s.canIssue u = true ∧ x = s.counted u ∧ x.warp? = some w ∧ x.live = (lane, t) :: rest ∧ w.cnt 0 < 63 ∧ t.nat 21 = 0 ∧
      0 < t.nat 20 ∧ x.mayCopy w = true ∧ x.sideCheck w 1 (t.nat 20) (sideOf (t.nat64 16)) = none ∧
      x.sideCheck w 1 (t.nat 20) (sideOf (t.nat64 18)) = none ∧ (doneOf (t.nat64 22)).bind (x.sideCheck w 4 4) = none ∧ t.nat64 22 % 4 = 0 :=
  ⟨_, _, _, _, _, by decide, rfl, rfl, rfl, by decide, by decide, by decide, by decide, by decide, by decide, by decide, by decide⟩

theorem witness_record_copies : let s := rig.mapActive (fun _ t => t.setGroup 16 [0, 0, 16, 1, 0, 0, 0, 0])
    (∀ p ∈ s.live, firstCheck (s.cpytChecks (theWarp s) p.2 16) = none) ∧
    s.canIssue { opds := [.one .vd 12, .one .va 4] } = true ∧ (theWarp s).cnt 4 < 63 ∧ s.slotCheck (theWarp s) 0 = none ∧
    s.recordBad (theWarp s).block (Record.ofWords (s.recordSeen (theWarp s) 0)) = false ∧
    (s.counted { opds := [.one .vd 12, .one .va 4] }).heldLanes true true = [] ∧ s.mayCopy (theWarp s) = true := by decide

/-- O56: a jump table of one entry at 0x100 that leads to a landing pad of label 5 at 0x40, and gate 3 at 0x2060, which leads
there too, in a table of four at 0x2000. -/
def gateRig : State :=
  { rig with
    mem := setBytes (setBytes (setBytes [] 0x40 (leBytes 4 0x2E1)) 0x100 (wordsBytes [1, 5, 0x40])) 0x2060
      (wordsBytes [0x40, 0x86000005, 0, 4096, 0, 0, 0, 0])
    cores := rig.cores.map (fun (k : Nat × Core) => (k.1, { k.2 with
      dpart := [0xC000000000002003ff0050000000ffff#128, 0, 0, 0]
      warps := k.2.warps.map (fun (w : Nat × Warp) => (w.1, { w.2 with
        threads := w.2.threads.map (fun (t : Nat × Thread) => (t.1, t.2.setPair 4 0x100)) })) })) }

theorem witness_jump_table : ∃ (w : Warp) (x : State),
    gateRig.canIssue (Use.flow [.two .va 4, .one .vb 20]) = true ∧ gateRig.canIssue (Use.flow [.one .vd 8, .two .va 4, .one .vb 20]) = true ∧
      x = gateRig.counted (Use.flow [.two .va 4, .one .vb 20]) ∧ x.warp? = some w ∧ x.heldLanes false false = [] ∧
      (x.tableLanes w 4 20 x.active).1 = [(0, .go 64), (1, .go 64), (2, .go 64)] :=
  ⟨_, _, by decide, by decide, rfl, rfl, by decide, by decide +kernel⟩

/-- Gate 3 of the rig. -/
def gate3 : Gate := ⟨0x40, true, 3, 5, 0, ⟨0, 4096⟩, false⟩

theorem witness_gate : (∃ (l : Nat) (t : Thread) (rest : List (Nat × Thread)), gateRig.active = (l, t) :: rest) ∧
    gateRig.canIssue (Use.flow []) = true ∧ (gateRig.counted (Use.flow [])).pend = [] ∧ (theWarp gateRig).engine.all (fun q => q.isEmpty) = true ∧
    (theWarp gateRig).deferred = [] := ⟨⟨_, _, _, rfl⟩, by decide⟩

theorem witness_gate_check : (gateRig.counted (Use.flow [])).gateCheck (theWarp gateRig) 3 =
      some ([0x40, 0x86000005, 0, 4096, 0, 0, 0, 0], gate3, 0) ∧
    (gateRig.counted (Use.flow [])).gateCheck (theWarp gateRig) 4 = none := by decide

theorem witness_gate_entry : ((gateRig.counted (Use.flow [])).landingAt
    { theWarp gateRig with curDid := gate3.did, code := gate3.code } gate3.entry gate3.label).1 = .go 64 := by decide

theorem witness_gate_return : let s := rig.modWarp (fun w => { w with gates := [⟨8, ⟨0, 64⟩, 0, 0, 5, [(0, [3, 4])]⟩] })
    s.canIssue (Use.flow []) = true ∧ (s.counted (Use.flow [])).pend = [] ∧ (theWarp s).engine.all (fun q => q.isEmpty) = true ∧ (theWarp s).deferred = [] ∧
      (theWarp s).gates = ⟨8, ⟨0, 64⟩, 0, 0, 5, [(0, [3, 4])]⟩ :: [] ∧ s.laneMissing (theWarp s) = false := by decide

/-- A caller in another domain slot, with no dirty byte in the slot that is left. -/
theorem witness_other_slot : let f : GateFrame := ⟨8, ⟨0, 64⟩, 0, 1, 5, [(0, [3, 4])]⟩
    (theWarp rig).curSlot ≠ f.slot ∧ rig.laneMissing (theWarp rig) = false ∧
      ((rig.l1Of rig.cur.core (theWarp rig).curSlot).all (fun q => !q.2.2) = true) := by decide

/-- The rig at a level, on core 0. -/
def atLevel (l : Level) (f : Thread → Thread) : State :=
  (rig.modWarp (fun w => { w with level := l })).mapActive (fun _ t => f t)

/-- Control core 576 of the partition, at a level, with lanes 0 and 1 and a helper. -/
def onControl (l : Level) (f : Thread → Thread) : State :=
  { atLevel l f with
    cur := ⟨576, 0, 7, 0, none, none, 4, 0, []⟩
    cores := (atLevel l f).cores.map (fun (k : Nat × Core) => (576, k.2)) ++ [] }

/-- O57: registers at the ends of the groups, read at each level; the register groups that SWR names. -/
theorem witness_reads : ∀ x ∈ [(0x000, Level.user), (0x042, .user), (0x080, .supervisor), (0x103, .supervisor), (0x408, .supervisor),
      (0x213, .hypervisor)],
    regLevel x.1 = some x.2 ∧ ((atLevel x.2 id).canIssue
      { opds := [regOpd x.1 8], level := x.2, closes := decide (0x00F < x.1) }) = true := by decide

theorem witness_writes : (∀ n ∈ [0x010, 0x016, 0x013, 0x086, 0x100, 0x212], regWritable n = true) ∧
    (let s := atLevel .user (fun t => t.set 8 0x42800000);
      s.canIssue { opds := [regOpd 0x016 8], level := .user, closes := true } = true ∧
        s.active.all (fun p => (p.2.writeReg 0x016 (p.2.get 8)).isSome) = true) ∧
    (let s := atLevel .user (fun t => t.set 8 0x42800001);
      firstBad s.active (fun t => (t.writeReg 0x016 (t.get 8)).isNone) = some 0) ∧
    partnOk 5 = true ∧ partnOk 6 = false := by decide

theorem witness_core_writes : (∃ y, (onControl .supervisor id).writeCoreReg 576 false 0x086 0xFFFFFFFF = some y) ∧
    (onControl .supervisor id).writeCoreReg 576 false 0x086 5 = none ∧
    (∃ lane t rest, (onControl .supervisor id).live = (lane, t) :: rest) := ⟨⟨_, rfl⟩, rfl, ⟨_, _, _, rfl⟩⟩

/-- A pair with an extended set, which the warp holds or does not. -/
def pairRig (own : Bool) : State :=
  { rig with
    cores := rig.cores.map (fun (k : Nat × Core) => (k.1, { k.2 with
      xsets := [(0, ⟨[(0, List.replicate 32 9)]⟩)]
      warps := k.2.warps.map (fun (w : Nat × Warp) => (w.1, { w.2 with xown := own })) })) }

theorem witness_pair : (∀ o ∈ [true, false], (pairRig o).canIssue (Use.sysop []) = true ∧
      (tget ((pairRig o).core 0).xsets 0).isSome = true ∧ (theWarp (pairRig o)).xown = o) ∧
    (theWarp (pairRig false)).curSlot = (theWarp (pairRig false)).homeSlot ∧ (theWarp (pairRig false)).gates = [] ∧
    siblingFirst ((pairRig false).core 0) 0 (pairRig false).cycle none = false ∧
    ((theWarp (pairRig true)).threads.map (·.1)).Nodup := by decide

theorem witness_invalidations : ∀ l ∈ [Level.user, .supervisor, .hypervisor], let s := atLevel l id
    let u : Use := { Use.sysop [.two .va 4, .one .vb 20] with level := l }
    s.canIssue u = true ∧ (s.counted u).heldLanes true true = [] ∧ s.pkts = [] ∧ s.holds = [] ∧
      s.live.all (fun p => decide (p.2.nat64 4 < 2 ^ 44)) = true ∧
      ((s.counted u).release s.cur.core (theWarp s).curSlot .package).rotinvWait [0, 1] = none ∧
      ((s.counted u).release s.cur.core (theWarp s).curSlot .package).newStamped [0, 1] = [] := by decide

/-- O57: a hypervisor that would stamp page 5, beside n pages stamped already. -/
def stampRig (n : Nat) : State :=
  { atLevel .hypervisor (fun t => (t.setPair 4 0x50000).set 20 1) with
    kept := (List.range n).map (fun i => (i + 16, 1))
    mem := [(45, 1)] }

def useRotinv : Use := { Use.sysop [.two .va 4, .one .vb 20] with level := .hypervisor }

/-- Its state after the release, and the pages it covers. -/
def stampRel (n : Nat) : State := ((stampRig n).counted useRotinv).release 0 0 .package
def stampPages (n : Nat) : List Nat :=
  ((stampRel n).live.flatMap (fun q => (stampRel n).rotinvPages (q.2.nat64 4 / 65536) (q.2.nat 20))).dedup

theorem witness_stamps_checked : (stampRig 16384).canIssue useRotinv = true ∧
    ((stampRig 16384).counted useRotinv).heldLanes true true = [] ∧
    ((stampRig 16384).counted useRotinv).live.all (fun p => decide (p.2.nat64 4 < 2 ^ 44)) = true ∧
    (stampRel 16384).live.map (fun q => (q.2.nat64 4 / 65536, q.2.nat 20)) = [(5, 1), (5, 1)] ∧
    rotType ((stampRel 16384).rotTable 5) = 1 ∧
    (stampRel 16384).rotPages (fun r => rotType r == 1 || rotDual r == 1) = [5] := by decide +kernel

theorem witness_stamps_kept (n : Nat) : (stampRel n).kept = (List.range n).map (fun i => (i + 16, 1)) := by
  unfold stampRel State.release
  rw [if_pos (show State.actsOnL1 _ 0 0 .package = true from rfl),
    show ((stampRig n).counted useRotinv).tied 0 0 = [0] from rfl, List.foldl_cons, List.foldl_nil]
  unfold State.writeBack
  rw [if_pos (by rfl)]
  rfl

theorem witness_stamps_exceed (n : Nat) (hl : (stampRel n).live.map (fun q => (q.2.nat64 4 / 65536, q.2.nat 20)) = [(5, 1), (5, 1)])
    (ht : rotType ((stampRel n).rotTable 5) = 1)
    (hp : (stampRel n).rotPages (fun r => rotType r == 1 || rotDual r == 1) = [5]) :
    (stampRel n).newStamped (stampPages n) ≠ [] ∧ n < (stampRel n).stampedAfter (stampPages n) := by
  have hk := witness_stamps_kept n
  have h5 : ∀ x ∈ stampPages n, x = 5 := by
    intro x hx
    obtain ⟨q, hq, hx⟩ := List.mem_flatMap.1 (List.mem_dedup.1 hx)
    have hq' : (q.2.nat64 4 / 65536, q.2.nat 20) = (5, 1) := by
      have := List.mem_map_of_mem (f := fun q : Nat × Thread => (q.2.nat64 4 / 65536, q.2.nat 20)) hq
      rw [hl] at this; simpa using this
    simp only [Prod.mk.injEq] at hq'
    unfold State.rotinvPages at hx
    rw [hq'.1, hq'.2, if_neg (by decide)] at hx
    have := (List.mem_filter.1 hx).2
    simp at this; omega
  have hmem : 5 ∈ stampPages n := by
    refine List.mem_dedup.2 (List.mem_flatMap.2 ?_)
    cases hv : (stampRel n).live with
    | nil => rw [hv] at hl; cases hl
    | cons q rest =>
      rw [hv] at hl
      simp only [List.map_cons, List.cons.injEq, Prod.mk.injEq] at hl
      refine ⟨q, List.mem_cons_self, ?_⟩
      unfold State.rotinvPages
      rw [hl.1.1, hl.1.2, if_neg (by decide)]
      refine List.mem_filter.2 ⟨List.mem_dedup.2 (List.mem_append_right _ ?_), by decide⟩
      rw [hp]; exact List.mem_cons_self
  have hnew : 5 ∈ (stampRel n).newStamped (stampPages n) := by
    unfold State.newStamped
    refine List.mem_filter.2 ⟨hmem, ?_⟩
    have hg : tget (stampRel n).kept 5 = none := by
      rw [hk]
      cases h : tget ((List.range n).map (fun i => (i + 16, 1))) 5 with
      | none => rfl
      | some v =>
        obtain ⟨i, -, hi⟩ := List.mem_map.1 (mem_of_tget _ _ _ h)
        simp at hi
    rw [ht, hg]; rfl
  refine ⟨List.ne_nil_of_mem hnew, ?_⟩
  unfold State.stampedAfter
  have h1 : (stampRel n).kept.filter (fun (k : Nat × Nat) => k.2 == 1 && (!(stampPages n).contains k.1 ||
      rotType ((stampRel n).rotTable k.1) == 1)) = (stampRel n).kept := by
    rw [List.filter_eq_self, hk]
    intro a ha
    obtain ⟨i, -, rfl⟩ := List.mem_map.1 ha
    have : (stampPages n).contains (i + 16) = false := by
      rw [← Bool.not_eq_true, List.contains_iff_mem]
      intro h; have := h5 _ h; omega
    simp only [this, Bool.not_false, Bool.true_or, Bool.and_true, beq_self_eq_true]
  rw [h1, hk, List.length_map, List.length_range]
  have := List.length_pos_of_mem hnew
  omega

/-- ROTINV is refused with 16,384 pages stamped already. -/
theorem witness_stamps_refused : (stampRel 16384).newStamped (stampPages 16384) ≠ [] ∧
    16384 < (stampRel 16384).stampedAfter (stampPages 16384) :=
  witness_stamps_exceed 16384 witness_stamps_checked.2.2.2.1 witness_stamps_checked.2.2.2.2.1 witness_stamps_checked.2.2.2.2.2


theorem witness_control_core : (onControl .supervisor id).canIssue
      { Use.sysop [.two .va 4] with level := .supervisor, control := true } = true ∧
    (onControl .supervisor id).canIssue
      { Use.sysop [.one .vd 12, .two .va 4] with level := .supervisor, control := true, only := true } = true ∧
    (onControl .supervisor id).canIssue
      { Use.sysop [.one .vd 12, .one .va 4] with level := .supervisor, control := true } = true := by decide

theorem witness_launch_records : ∃ (w : Warp) (good : List (Nat × Thread × Nat)) (y : State),
    (onControl .supervisor id).warp? = some w ∧ (onControl .supervisor id).heldLanes true true = [] ∧
      (onControl .supervisor id).waitRefs w false 128 4 (onControl .supervisor id).live =
      (good.map (fun g => (g.1, g.2.1, .ok (.mem g.2.2))), y) := ⟨_, [(0, _, 0), (1, _, 0)], _, rfl, by decide, rfl⟩

/-- A manifest that selects nothing, in the stamped page. -/
def manifestRig : State := { rig1.mapActive (fun _ t => t.setPair 4 0x200C0) with mem := [(0x200C0, 1)] }

theorem witness_manifest : manifestRig.canIssue (Use.sysop [.one .vd 12, .two .va 4]) = true ∧
    (manifestRig.counted (Use.sysop [.one .vd 12, .two .va 4])).heldLanes false false = [] ∧ isControl manifestRig.cur.core = false ∧
    manifestRig.farUnits (theWarp manifestRig) (manifestUnits 0x200C0) = .ok [] ∧
    (match manifestRig.readWords (theWarp manifestRig) [] [] 96 0 0x200C0 with
      | .ok (ws, _) => manifestOk (wordsBytes ws)
      | .error _ => false) = true ∧ (0x200C0 : Nat) % 64 = 0 := by decide +kernel

/-- One lane of a control core, for CHKP; its helper lane comes beside it. -/
theorem witness_checkpoint_lane : ∃ (l : Nat) (t : Thread),
    let s : State := { onControl .supervisor id with cur := ⟨576, 0, 5, 0, none, none, 4, 0, []⟩ }
    let u : Use := { Use.sysop [.one .vd 12, .one .va 4] with level := .supervisor, control := true }
    s.canIssue u = true ∧ ((s.counted u).mapActive (fun _ t => if t.helper then t.set 12 0 else t)).live = [(l, t)] :=
  ⟨_, _, by decide, rfl⟩

/-- CHKP of a quiet domain, of a running one, and of one that no core holds. -/
theorem witness_checkpoints : (rig.chkpLane 0 0).2 = (some 0, []) ∧ (rig.chkpLane 7 0).2 = (none, []) ∧
    (({ rig with pend := [⟨0, 0, 0, 0, none, .wget []⟩] } : State).chkpLane 0 0).2 = (none, [0]) := by decide +kernel

/-! Events (O58 to O60): the data that the event names, and what stands there. -/

/-- A matrix command at the head of cluster 0's table, with the passes done. -/
def matCmd (id : Nat) (kind : MatKind) (done : Nat) : MatCmd := ⟨id, 0, 0, 0, 3, 8, 0, 0, 0, 0, kind, done, 0, false⟩

def withCmd (m : MatCmd) (e : EventData) : State :=
  { rig with
    ev := e
    clusters := [(0, { Cluster.idle.claim 0 4096 (0, true) with
      tiles := [⟨some 0, some false, 5, []⟩, Tile.free, Tile.free, Tile.free], table := [m] })] }

/-- A mould load of one element per column from the page at 0, or from addresses that nothing translates. -/
def mldb (addr : Nat) : MatKind := .mldb 0x111 addr 0 1

theorem witness_pass : (withCmd (matCmd 4 (mldb 0) 0) .none).granted 0 = some (matCmd 4 (mldb 0) 0) ∧
    (match (withCmd (matCmd 4 (mldb 0) 0) .none).matPass 0 (matCmd 4 (mldb 0) 0) (theWarp rig) with
      | (.ok _, _) => true | _ => false) = true ∧
    (withCmd (matCmd 4 (mldb (2 ^ 40)) 0) .none).granted 0 = some (matCmd 4 (mldb (2 ^ 40)) 0) ∧
    (match (withCmd (matCmd 4 (mldb (2 ^ 40)) 0) .none).matPass 0 (matCmd 4 (mldb (2 ^ 40)) 0) (theWarp rig) with
      | (.error _, _) => true | _ => false) = true := by decide

theorem witness_commands_done : let load := withCmd (matCmd 4 (mldb 0) (mldb 0).passes) { EventData.none with id := 4 }
    let k : MatKind := .mloop 0x111 0 0 32 false 0 0 0 0 0 [] []
    let loop := withCmd (matCmd 4 k k.passes) { EventData.none with id := 4 }
    load.doneCmd 0 4 true = some (matCmd 4 (mldb 0) (mldb 0).passes) ∧ loop.doneCmd 0 4 false = some (matCmd 4 k k.passes) ∧
      load.granted 0 = none ∧ ((tget load.clusters 0).getD Cluster.idle).table.any (fun m => m.id == load.ev.id) = true := by decide

/-- A table load from a page at an address. -/
def tableLoad (addr : Nat) : TmLoad := ⟨4, 0, 0, 0, 8, 7, addr, [0, 0x3F800000, 0, 0x3F800000], false⟩

theorem witness_loads : ∀ a ∈ [0, 2 ^ 40], let s : State := { rig with loads := [tableLoad a], ev := { EventData.none with id := 4 } }
    s.loads.find? (fun l => l.id == s.ev.id) = some (tableLoad a) ∧ (s.warpAt? 0 0).isSome = true ∧
      s.loads.find? (fun x => x.core == 0 && x.tslot == 7) = some (tableLoad a) ∧ (tableLoad a).stopped = false := by decide

theorem witness_table_refused : ∃ x, rig.engineRead (theWarp rig) false 2 (2 ^ 40) 4096 = (.error (.page, 2 ^ 40), x) := ⟨_, rfl⟩

theorem witness_table_read : ∃ b x, rig.engineRead (theWarp rig) false 2 0 4096 = (.ok b, x) ∧ (bytesWords b).all finite32 = true :=
  ⟨_, _, rfl, by decide +kernel⟩

/-- A copy of two units within page 0. -/
def copy (engine : Option Nat) (units : Nat) (prio id : Nat) : CopyCmd :=
  ⟨id, 0, 0, 0, 0, 8, 0, 0, prio, .cpy (.mem 0) (.mem 8192) 8192, 5, some (.mem 0x8000), engine, units, [], false⟩

/-- A machine with copies and a balance, at an event of engine 1 by some units. -/
def copyRig (l : List CopyCmd) (balance : Int) (units : Nat) : State :=
  { rig with
    copies := l
    ev := { EventData.none with id := 4, engine := 1, units := units, clocks := 40 }
    parts := rig.parts.map (fun (p : Nat × Part) => (p.1, { p.2 with eot := ⟨true, true, 2, 1000, balance⟩ })) }

theorem witness_engines : (copyRig [copy none 0 0 4] 1 0).servedBy 1 = none ∧
    headCopy ((copyRig [copy none 0 0 4] 1 0).waitingCopies 0) = some (copy none 0 0 4) ∧
    (copyRig [copy none 0 0 4] 1 0).engineFor 0 1 = true ∧ 0 < (copyRig [copy none 0 0 4] 1 0).balance 0 ∧
    (copyRig [copy (some 1) 0 0 4] 1 0).servedBy 1 = some (copy (some 1) 0 0 4) ∧
    ((copyRig [copy (some 1) 0 0 4] 1 1).copyUnits 4 40 1).isSome = true ∧
    (((copyRig [copy (some 1) 0 0 4] 8 1).putBack (copy (some 1) 0 0 4) 1 40).map (·.balance 0)) = some (-32) ∧
    ((copyRig [copy (some 1) 0 0 4, copy none 0 3 5] 41 0).putBack (copy (some 1) 0 0 4) 0 40).isSome = true ∧
    headCopy ((copyRig [copy (some 1) 0 0 4, copy none 0 3 5] 41 0).waitingCopies 0) = some (copy none 0 3 5) ∧
    ((copyRig [copy (some 1) 0 0 4, copy none 0 3 5] 41 0).displaced (copy none 0 3 5)).map (·.id) = some 4 ∧
    0 < (copyRig [copy (some 1) 0 0 4, copy none 0 3 5] 41 0).balance 0 := by decide +kernel

theorem witness_refill : let s : State := { rig with deckle := { rig.deckle with tick := 1000000 } }
    s.deckle.tick % 1000000 = 0 ∧ s.deckle.tick ≠ s.refilled := by decide

/-- A copy whose units are done, and one whose next unit nothing translates. -/
def badCopy : CopyCmd := { copy (some 1) 0 0 4 with kind := .cpy (.mem (2 ^ 40)) (.mem 8192) 8192 }

theorem witness_copy_end : let s := copyRig [copy (some 1) 2 0 4] 1 0
    s.copies.find? (fun c => c.id == s.ev.id) = some (copy (some 1) 2 0 4) ∧ (copy (some 1) 2 0 4).unitCount = 2 ∧
      s.copyDone 4 = true ∧ s.doneFault (copy (some 1) 2 0 4) (theWarp s) = none ∧ s.pushBlocked (copy (some 1) 2 0 4) = false := by
  decide

theorem witness_copy_fault : let s := copyRig [badCopy] 1 0
    badCopy.units < badCopy.unitCount ∧
      s.unitFault badCopy (theWarp s) (s.bothWindows badCopy (theWarp s)) badCopy.units = some (.page, 2 ^ 40) := by decide

/-- A stamped store on hold, here or bound for package 1. -/
def hold (remote : Option (Nat × Nat)) (out : Bool) : Hold := ⟨4, 0, 0, 0, 0, 0x20000, 0x20000, remote, List.replicate 16 7, 5000, out⟩

/-- The rig at event data, its early edge past 5000. -/
def at_ (e : EventData) : State := { rig with ev := e, deckle := { rig.deckle with early := 5001, late := 5011 } }

theorem witness_holds : ∀ r ∈ [none, some (0, 1)], let s : State := { at_ { EventData.none with id := 4 } with holds := [hold r false] }
    s.holds.find? (fun h => h.id == s.ev.id && h.lane == s.ev.lane && !h.left_) = some (hold r false) ∧ s.deckle.fail = false ∧
      (hold r false).stamp < s.deckle.early ∧ ¬ (hold r false).stamp < rig.deckle.early := by decide

/-- The stamped store arrives here, in time and too late. -/
theorem witness_arrivals : ∀ f ∈ [false, true], let s : State := { at_ { EventData.none with num := 5000 } with
        holds := [hold none true], deckle := { (at_ .none).deckle with fail := f } }
    s.ev.sender = s.pkg ∧ s.holds.find? (fun h => h.stamp == s.ev.num && h.left_ && h.remote.isNone) = some (hold none true) ∧
      (s.landing s.pkg 5000 s.deckle.late).isSome = f := by decide

/-- One from package 1, through window 0, for the record at 0x20000. -/
theorem witness_remote_arrival : ∃ q, let s := at_ { EventData.none with
        sender := 1, num := 5000, data := List.replicate 16 7, addr := 0x20000, key := 1 }
    s.ev.sender ≠ s.pkg ∧ s.ev.data.length = 16 ∧ s.ev.addr % 16 = 0 ∧ s.keyHolder s.ev.key = some (0, q) ∧ q.sleep = 0 ∧
      s.winAdmits 0 q s.ev.id2 s.ev.sender s.ev.flag s.ev.addr (rotType (s.rotEntry s.ev.addr) == 1) true false = true ∧
      s.landing s.ev.sender s.ev.num s.deckle.late = none := ⟨_, by decide, by decide, by decide, rfl, rfl, by decide, by decide⟩

/-- A packet out through window 0. -/
def pkt (k : PktKind) : Pkt := ⟨9, some 4, 0, 0, 0, 0, none, 0, 1, 0, 0x10000, k, .adaptive, 0, 1, false, false, true, false, some (3, 4), none, false, false⟩

def withPkt (k : PktKind) (e : EventData) : State := { at_ { e with id := 9 } with pkts := [pkt k] }

theorem witness_packets : ∀ x ∈ [(PktKind.write [1, 2, 3, 4], 4), (.read 4 8 false, 4), (.atom .add 1 0 .rne false 8 true, 4)],
    let s := withPkt x.1 { EventData.none with data := List.replicate x.2 0 }
    s.pktOut s.ev.id = some (pkt x.1) ∧ s.ev.data.length = x.2 ∧ AtomOp.add.size = 4 := by decide

theorem witness_packet_forms : (pkt (.write [1])).cmd = none ∧ (pkt (.write [1])).cnt = some (3, 4) ∧ (pkt (.read 4 8 true)).cmd = none := by
  decide

theorem witness_outcome : let p := { pkt (.stst 5000 (List.replicate 16 7)) with cnt := some (5, 4) }
    let s : State := { at_ { EventData.none with id := 9 } with pkts := [p], holds := [hold (some (0, 1)) true] }
    s.pktOut s.ev.id = some p ∧
      s.holds.find? (fun h => h.left_ && p.cnt == some (5, h.id) && h.lane == p.lane) = some (hold (some (0, 1)) true) := by decide

theorem witness_stamped_read : ∀ va ∈ [0x20000, 0x10000, 2 ^ 40], let z : LdatLane := ⟨0, 0, va⟩
    let p : Pending := ⟨4, 0, 0, 8, none, .ldat [z] 16 none⟩
    let s : State := { at_ { EventData.none with id := 4 } with pend := [p] }
    s.pend.find? (fun p => p.id == s.ev.id) = some p ∧ [z].find? (fun x => x.lane == s.ev.lane) = some z ∧
      (s.warpAt? 0 0).isSome = true ∧ s.deckle.refuses = false ∧ z.tick + s.deckle.deltaRead < s.deckle.early := by decide

theorem witness_stamped_places : (rig.recRef (theWarp rig) false 0x20000).1 = .ok ⟨0x20000, none⟩ ∧
    (rig.recRef (theWarp rig) false 0x10000).1 = .ok ⟨0, some (0, 1)⟩ ∧ (rig.recRef (theWarp rig) false (2 ^ 40)).1 = .error .page := by
  decide

/-- Requests of package 1 and, refused, of package 2; for a partition that sleeps; with a key nobody holds. -/
theorem witness_requests_in : ∃ q, ∀ n ∈ [1, 2], let s := at_ { EventData.none with sender := n, key := 1, op := .write [1] }
    s.ev.op.fits = true ∧ s.keyHolder s.ev.key = some (0, q) ∧ q.sleep = 0 ∧
      s.winAdmits 0 q s.ev.num s.ev.sender s.ev.flag s.ev.addr (s.ev.op.typeOk (rotType (s.rotEntry s.ev.addr))) s.ev.op.writes
        s.ev.op.reads = (n == 1) := ⟨(tget rig.parts 0).getD Part.idle, by decide⟩

theorem witness_requests_held : (∃ q, ({ at_ { EventData.none with key := 1 } with
      parts := rig.parts.map (fun (p : Nat × Part) => (p.1, { p.2 with sleep := 3 })) } : State).keyHolder 1 = some (0, q) ∧ q.sleep ≠ 0) ∧
    (at_ .none).keyHolder 2 = none := ⟨⟨_, rfl, by decide⟩, rfl⟩

/-- Ports: a route through port 15, and none; a retry that fails for the 16th time; a port down. -/
theorem witness_ports : let s : State := { at_ { EventData.none with named := 5, port := 15, flag := true } with
        fabric := { rig.fabric with bank1 := [(5, 0x8000)], ports := 0x8001, retries := List.replicate 16 15 } }
    s.ev.named ≠ s.pkg ∧ s.ev.port ∈ s.fabric.openPorts true s.ev.named ∧ s.fabric.openPorts true 6 = [] ∧ s.ev.cls ≠ .ordered ∧
      s.ev.flag2 = false ∧ s.ev.port < 16 ∧ s.fabric.ports.getLsbD 15 = true ∧ 15 ≤ s.fabric.retries.getD 15 0 ∧
      s.fabric.retries.getD 0 0 = 15 ∧ rig.fabric.retries.getD 15 0 < 15 ∧ s.fabric.ports.getLsbD 1 = false := by decide

/-- A packet of class ORDERED for package 5, none before it and one that a link failure sent another way before it; packet 9 of this
package, and one passed on, whose next hop acknowledges them. -/
def hopRig (again : Bool) (id : Nat) : State :=
  { at_ { EventData.none with named := 5, cls := .ordered, id := id } with
    pkts := [pkt (.write [1])]
    fabric := { rig.fabric with bank0 := [(5, 0x8001)], ports := 0x8001, transit := [⟨7, 5, 1, .ordered, false, 0, some 0, again⟩] } }

theorem witness_ordered_hops : ∀ a ∈ [false, true], (hopRig a 9).ev.named ≠ (hopRig a 9).pkg ∧ (hopRig a 9).ev.cls = .ordered ∧
    (hopRig a 9).fabric.openPorts false 5 ≠ [] ∧ (hopRig a 9).heldBehind 5 = a ∧
    ∀ id ∈ [9, 7], ((hopRig a id).hopAcked id).isSome = true := by decide

/-- A warp with a lane stopped for FPX, and with a report of each class held until it is still. -/
def report (c : Cause) (op : Option Nat) : Report := { mkReport (theWarp rig) c 0 8 0 0 with super := c.isSuper, op := op }

theorem witness_stopped : (rig.warpAt? rig.ev.core rig.ev.slot).isSome = true ∧
    (theWarp (rig.mapActive (fun _ t => { t with wait := .fpx }))).collecting = true ∧ (theWarp rig).collecting = false ∧
    (∀ c ∈ [Cause.brk, .page], let w := { theWarp rig with pendingTraps := [report c none] }
      w.susp = none ∧ rig.inFlight 0 0 = false ∧ w.pendingTraps = report c none :: [] ∧ (report c none).super = (c == .page)) := by decide

/-- A suspended warp, of an instruction that faulted or of an operation that did; the code of TSTAT's third action. -/
def suspended (op : Option Nat) : State := rig.modWarp (fun w => { w with susp := some ⟨report .page op, 3, true, 0⟩ })

theorem witness_suspended : (theWarp (suspended none)).susp = some ⟨report .page none, 3, true, 0⟩ ∧
    (report .page none).op = none ∧ (report .page (some 4)).op = some 4 ∧ tget (suspended none).blocks (theWarp rig).block = some block ∧
    Cause.ofCode 0x0C = some .brk ∧ Cause.brk.isSuper = false ∧ Cause.brk ≠ .compat := by decide

theorem witness_held_record : ∃ q, let s : State := { rig with
        parts := rig.parts.map (fun (p : Nat × Part) => (p.1, { p.2 with
          fqlo := 0x400, fqsize := 4, fqtail := 15, heldRecs := [.words (List.replicate 7 3)] })) }
    s.readyReport 0 0 = none ∧ tget s.parts 0 = some q ∧ q.heldRecs ≠ [] ∧ s.queueValid 0 q = true ∧ q.queueRoom = true ∧
      q.valid = true ∧ s.partOf 576 = some 0 := ⟨_, rfl, rfl, by decide, by decide, by decide, rfl, rfl⟩

/-- Registers: one lane's, at the edges of the user group; a core's; a warp slot's DPART. -/
theorem witness_register_writes : (∃ t, rig.thread? rig.ev.core rig.ev.slot rig.ev.lane = some t ∧ t.exited = false ∧
      (∃ y, t.writeReg 0x010 5 = some y)) ∧ 0x010 < 0x080 ∧ 0x010 ≠ 0x042 ∧ 0x080 ≤ 0x080 ∧ isControl 0 = false :=
  ⟨⟨_, rfl, rfl, _, rfl⟩, by decide⟩

theorem witness_warp_registers : (rig.warpAt? rig.ev.core rig.ev.slot).isSome = true ∧ (tget rig.parts rig.ev.part).isSome = true ∧
    partnOk 5 = true ∧ partnOk 6 = false := by decide

/-- A domain whose checkpoint falls due; one that is due and quiet; one that leaves, with and without the mark. -/
def domainRig (d : Domain) : State := { rig with
  domains := [(0, d)], deckle := { rig.deckle with early := 65536 }, cores := [(0, { (rig.core 0) with ckUse := [65536, 65536, 65536, 65536] })] }

theorem witness_domains : (domainRig Domain.idle).ckDue 0 0 = true ∧
    ((domainRig { Domain.idle with due := true }).domain 0 0).due = true ∧ (domainRig { Domain.idle with due := true }).quiet 0 0 = true ∧
    (∀ m ∈ [false, true], let s := domainRig { Domain.idle with leaving := true, mark := m, dueAt := 65536 }
      s.mayLeave 0 0 = true ∧ (s.domain 0 0).mark = m ∧ s.gateOpen 0 0 = false) := by decide +kernel

/-- A launch of one block of one warp, in a phase. -/
def launch (ph : LaunchPhase) (next ended : Nat) : Launch :=
  ⟨0, 0, [0, 0, 4096, 0, 0x00100401, 1, 1, 1, 0x108, 0, 0, 0xFFFFFFFF] ++ List.replicate 20 0, 1, 576, 1, ph, next, ended,
    [(0, 0)], 0, 0, [], false, 0⟩

def withLaunch (l : Launch) : State := { rig with launches := [(0, l)], deckle := { rig.deckle with tick := 2 ^ 21 } }

theorem witness_launch_ends : (launch .running 1 1).total = 1 ∧
    (∃ l, tget ((withLaunch (launch .running 1 1)).settleCores (launch .running 1 1)).launches 0 = some l ∧ l.total ≤ l.next ∧
      l.total ≤ l.ended) ∧
    (∃ l, tget ((withLaunch (launch (.serial 1) 1 1)).settleCores (launch (.serial 1) 1 1)).launches 0 = some l ∧ l.total ≤ l.next ∧
      l.total ≤ l.ended ∧ l.phase = .serial 1) :=
  ⟨by decide, ⟨_, rfl, by decide, by decide⟩, ⟨_, rfl, by decide, by decide, by decide⟩⟩

theorem witness_stall : let s := withLaunch (launch (.serial 1) 1 0)
    s.blocksOf 0 ≠ [] ∧ s.quietFor 0 (s.stallLimit 0) = true := by decide

theorem witness_warp_end : let w := { theWarp rig with threads := (theWarp rig).threads.map (fun (p : Nat × Thread) => (p.1, { p.2 with exited := true })) }
    rig.warpDone 0 0 w = true ∧ isControl rig.ev.core = false := by decide

/-- The dispatcher has a queued launch that fits; a serial unit can start where a block of its launch ran. -/
theorem witness_place : let s : State := { withLaunch { launch .queued 0 0 with placed := [] } with blocks := [] }
    (s.placeFirst [] (s.heads 0)).isSome = true ∧ (match tget s.parts 0 with
      | some q => q.valid && !q.failed && !q.maint && q.sleep == 0 && q.starts
      | none => false) = true := by decide +kernel

theorem witness_serial_unit : let l := launch (.serial 0) 0 0
    let s : State := { withLaunch l with blocks := [], cores := [] }
    l.ended = 0 * l.unit ∧ 0 * l.unit < l.total ∧ ((s.settleCores l).placeUnit 0 l l.unit (0 * l.unit)).isSome = true := by
  decide +kernel

/-- O60: the deckle of a package that has locked, and of one that has failed or not locked yet. -/
def locked : Deckle := { rig.deckle with ref := true }

/-- A notice that names this package, from another and from itself, and one that names another. -/
theorem witness_exclusions : (rig.pkg = 0 ∧ ({ EventData.none with sender := 1 } : EventData).named = rig.pkg) ∧
    EventData.none.named = rig.pkg ∧ EventData.none.sender = rig.pkg ∧ ({ EventData.none with named := 2 } : EventData).named ≠ rig.pkg := by
  decide

theorem witness_beats : ({ locked with tick := 2048 } : Deckle).tick % 1024 = 0 ∧ (15 : Nat) < 16 ∧
    (∀ x ∈ [0, 7], ([7] : List Nat).contains x = (x == 7)) ∧ Deckle.powerOn.fail = true ∧
    meetsInterval 5000 5 5010 5 = true ∧ meetsInterval 5000 5 5011 5 = false := by decide

theorem witness_deckle : locked.ref = true ∧ Deckle.powerOn.eps = 0xFFFFFFFF ∧ 1 ≤ 32 ∧ 32 ≤ Deckle.powerOn.epsMax ∧ Deckle.powerOn.epsMax < 33 ∧
    locked.eps ≠ 0xFFFFFFFF ∧ locked.fail = false ∧
    ({ locked with candidates := [⟨0, 5000, 1, 5000, 0⟩, ⟨1, 6000, 1, 5000, 1⟩] } : Deckle).conflict = true ∧
    65536 ≤ ({ locked with tick := 65536 } : Deckle).tick - 0 ∧
    (let d : Deckle := { locked with fail := true, good := 1000000 };
      d.fail = true ∧ d.eps ≠ 0xFFFFFFFF ∧ 1000000 ≤ d.good) ∧
    (let d : Deckle := { locked with changes := [⟨true, 2000, 4999, none⟩] };
      d.changes.find? (fun c => c.deltas.isNone && decide (c.tick < d.early)) = some ⟨true, 2000, 4999, none⟩) := by decide

/-- A beat that agrees with the clock, or not, whatever the asymmetry of the port. -/
theorem witness_beat_times : ∀ eps, eps = 5 + Config.portAsymmetry 15 % 8 + 1 → meetsInterval 5000 eps 5010 5 = true ∧
    meetsInterval 5000 eps 6000 5 = false := by
  intro eps h
  simp only [meetsInterval, Bool.and_eq_true, Bool.and_eq_false_iff, decide_eq_true_eq, decide_eq_false_iff_not]
  omega

/-- A mailbox page, the page table's page 0. -/
def mailbox : State :=
  { rig with
    rots := [(0, 0x000008980000000F)]
    mem := [(0, 0x0F), (4, 0x98), (5, 0x08)] ++ rig.mem
    ev := { EventData.none with addr := 0xFFFC, size := 4, data := [1, 2, 3, 4] } }

theorem witness_mailbox : mailbox.sleeps 0 = false ∧ mailbox.inMailbox 0 0xFFFC 4 = true ∧ mailbox.inMailbox 0 0xFFFC 5 = false := by decide

/-- The same while the partition sleeps. -/
theorem witness_sleeping_mailbox : let s : State := { mailbox with parts := mailbox.parts.map (fun (p : Nat × Part) => (p.1, { p.2 with sleep := 3 })) }
    s.sleeps 0 = true ∧ s.inMailbox 0 0xFFFC 4 = true := by decide

theorem witness_boot : 8191 < 8192 ∧ (∃ p q, State.reset.element.boot = 0 ∧ State.reset.element.reports = [] ∧
    tget ({ rig with element := { rig.element with boot := 4 } } : State).parts 0 = some q ∧ q.valid = true ∧ q.started = false ∧
    rig.argPart = some (0, p)) := ⟨by decide, _, _, rfl, rfl, rfl, rfl, rfl, rfl⟩

/-- Routing requests at the ends of a bank. -/
def asking (data : List Byte) : State := { rig with element := { rig.element with arg := data } }

theorem witness_routes : (asking (wordsBytes [8191, 1])).routeArg = (false, 8191, 1) ∧
    (asking (wordsBytes [0x2000, 8192])).routeArg = (true, 0, 8192) ∧ rig.fabric.active = false ∧ rig.drained = true := by decide

/-- The request page: no request in service, and one; a write of REQ by the physical function, and one that is turned away. -/
theorem witness_request_page : rig.element.req = none ∧ rig.ev.flag = false ∧
    (asking []).element.req = none ∧ ({ rig.element with req := some 0x10 } : Element).req = some 0x10 ∧
    (let s : State := { rig with ev := { EventData.none with flag3 := true, data := [0x10, 0, 0, 0] } };
      s.ev.flag3 = true ∧ s.ev.data ≠ [] ∧ s.ev.addr + s.ev.data.length ≤ 65536 ∧ s.requestWrite.element.req = some 0x10) ∧
    (let s : State := { rig with ev := { EventData.none with flag3 := true, flag := true, data := [0x10, 0, 0, 0] } };
      s.ev.flag = true ∧ s.denyRequest.element.denied = [0]) := by decide

/-- A partition with nothing in it, asleep or awake. -/
def still (n : Nat) (w : Bool) : State :=
  { rig with
    blocks := []
    parts := rig.parts.map (fun (p : Nat × Part) => (p.1, { p.2 with lattol := 2, sleep := n, waking := w })) }

theorem witness_maintenance : (∃ q, tget (still 0 false).parts 0 = some q ∧ q.valid = true ∧ (still 0 false).partIdle 0 q = true ∧
      q.sleep = 0 ∧ deepest q.lattol.toNat = 1) ∧
    (∀ p ∈ (List.range 12).filter (bit 1), p = 0) ∧ rig.element.window = false ∧
    badRequest 0x03 = true ∧ badRequest 0x31 = false := ⟨⟨_, rfl, rfl, by decide, rfl, by decide⟩, by decide⟩

theorem witness_sleeping : ∃ q, tget (still 3 true).parts 0 = some q ∧ q.valid = true ∧ q.sleep ≠ 0 ∧ q.waking = true :=
  ⟨_, rfl, rfl, by decide, rfl⟩

/-! One step of some instructions; the results are those of the spec's examples, or worked out by hand from its rules. -/

/-- Eight lanes in tiles of eight, lane 6 outside the bundle; each lane's registers as given. -/
def eight (f : Nat → List (Nat × Word)) : State :=
  { three with
    cur := ⟨0, 0, 0xBF, 0, none, none, 4, 0, []⟩
    cores := [(0, { Core.idle with
      warps := [(0, { probeWarp with
        threads := (List.range 8).map (fun n => (n, lane (f n))), partn := 3, bundles := [⟨0xBF, 0, 0⟩, ⟨0x40, 0, 0⟩] })] })] }

/-- Register r of the lanes after a step. -/
def after (o : Out) (r : Nat) : List Word :=
  match o with
  | .next t => (theWarp t).threads.map (fun p => p.2.get r)
  | _ => []

/-- R96: 5 + 0xFFFF_FFFF wraps to 4, and 7 + 0 is 7. -/
theorem test_add_wraps : after (exec (.add 2 1 3) three) 3 = [4, 7, 0] := by decide

/-- R96: a shift count counts modulo 32, here 31; 5 shifted left by 31 leaves its low bit. -/
theorem test_shl_count : after (exec (.shl 2 1 3) three) 3 = [0x80000000, 7, 0] := by decide

/-- R99: an 11-bit immediate of all ones is −1. -/
theorem test_addi_minus_one : after (exec (.addi 0x7FF 1 3) three) 3 = [4, 6, 0xFFFFFFFF] := by decide

/-- R98: the example of BFX and BFI. -/
theorem test_bit_fields : after (exec (.bfx 6 5 4) (eight (fun _ => [(5, 0xDEADBEEF), (6, 0x988)]))) 4 =
      [0xFFFFFDBE, 0xFFFFFDBE, 0xFFFFFDBE, 0xFFFFFDBE, 0xFFFFFDBE, 0xFFFFFDBE, 0, 0xFFFFFDBE] ∧
    after (exec (.bfi 6 5 4) (eight (fun _ => [(5, 0xDEADBEEF), (6, 0x188)]))) 4 =
      [0x000EEF00, 0x000EEF00, 0x000EEF00, 0x000EEF00, 0x000EEF00, 0x000EEF00, 0, 0x000EEF00] := by decide

/-- R90: the worked example of DOT8.e4m3. -/
theorem test_dot8 : after (exec (.dot8E4m3 6 5 4) { one with
    cores := [(0, { Core.idle with
      warps := [(0, { probeWarp with threads := [(0, lane [(4, 0x4B800000), (5, 0x38383838), (6, 0x00383838)])] })] })] }) 4 =
    [0x4B800002] := by decide

/-- R126: the worked example of SHFLHI. -/
theorem test_shuffle : after (exec (.shflhi 6 5 4) (eight (fun n => [(4, 0xFFFFFFFF), (5, BitVec.ofNat 32 (100 + n)), (6, 1)]))) 4 =
    [101, 102, 103, 104, 105, 0xFFFFFFFF, 0xFFFFFFFF, 0xFFFFFFFF] := by decide

/-- R127 and R129: the ballot and the scan in the same bundle. -/
theorem test_vote_and_scan : after (exec (.voteBal 3 9) (eight (fun n => [(3, BitVec.ofNat 32 (n % 2))]))) 9 =
      [0xAA, 0xAA, 0xAA, 0xAA, 0xAA, 0xAA, 0, 0xAA] ∧
    after (exec (.scanwAdd 3 9) (eight (fun _ => [(3, 1)]))) 9 = [1, 2, 3, 4, 5, 6, 0, 7] := by decide

/-- R122: FRCP of +0 with TDZ set stops its lane, with DZ among its flags and in EXCMASK; v4 stays. -/
theorem test_trapped_reciprocal : (match exec (.frcp 3 5 4) (one.mapActive (fun _ t => { t.set 4 77 with fpmode := 0x20 })) with
    | .next t => (theWarp t).threads.map (fun p => (p.2.get 4, p.2.fpflags, p.2.excmask, p.2.wait))
    | _ => []) = [(77, 2, 2, Wait.fpx)] := by decide

/-- R122: without it the result, +∞, is on its way. -/
theorem test_reciprocal : (match exec (.frcp 3 5 4) one with
    | .next t => t.pend.map (·.kind)
    | _ => []) = [.result .sfu [⟨0, [(4, 0x7F800000)], 2⟩]] := by decide

/-- R166: two lanes store to one word of scratchpad, and the higher lane's value stays. -/
theorem test_store_order : (match exec (.sts 0 .b32 4 1) three with
    | .next t => (List.range 5).map (t.padByte 0)
    | _ => []) = [7, 0, 0, 0, 0] := by decide

/-- R145, R294: BRK enters the handler, and the reported lane goes on there. -/
theorem test_break : (match exec .brk handled with
    | .next t => (theWarp t).threads.map (fun p => p.2.pc)
    | _ => []) = [64] := by decide

/-- R33: a load's value reaches its register. -/
theorem test_load_return : (match exec .loadReturn { three with pend := [⟨0, 0, 0, 0, none, .result .load [⟨1, [(3, 9)], 0⟩]⟩] } with
    | .next t => (theWarp t).threads.map (fun p => p.2.get 3)
    | _ => []) = [0, 9, 0] := by decide

/-- R149, R323: L1 holds half of a double word, clean and out of date; a load of the whole takes both halves from its home. -/
theorem test_whole_line : (match exec (.ld .rlx .plain 0 .b64 4 8) { one.mapActive (fun _ t => t.set 4 16) with
      mem := (List.range 8).map (fun i => (16 + i, 9))
      cores := (one.mapActive (fun _ t => t.set 4 16)).cores.map (fun (k : Nat × Core) => (k.1, { k.2 with
        l1 := [(0, (List.range 4).map (fun i => (16 + i, (7, false))))] })) } with
    | .next t => t.pend.map (·.kind)
    | _ => []) = [.result .load [⟨0, [(8, 0x09090909), (9, 0x09090909)], 0⟩]] := by decide +kernel

/-- R342: a notice of another package that names this one sets FAIL; its own does not. -/
theorem test_own_notice : [1, 0].map (fun n => match exec .timeExclusionNotice { rig with ev := { EventData.none with sender := n } } with
    | .next t => t.deckle.fail
    | _ => false) = [true, false] := by decide +kernel

/-- R143: EXIT ends every lane of the bundle. -/
theorem test_exit_marks : (match exec .exit three with
    | .next t => (theWarp t).threads.map (fun p => p.2.exited)
    | _ => []) = [true, true, true] := by decide

/-- R247: a line of page 0, whose entry in the table names DID 0, then 1, while the ROT result in use names DID 0. -/
theorem test_l2_line : one.xlate ⟨0, .user, 0, true, false, false, false⟩ 16 = .good 16 0x000008180000000F ∧
    one.lineRefuses ⟨0, .user, 0, true, false, false, false⟩ 16 = false ∧
    ({ one with mem := [(5, 0x10)] } : State).lineRefuses ⟨0, .user, 0, true, false, false, false⟩ 16 = true := by decide

/-- R20: a branch past 32 bits does not come back to the start of the segment. -/
theorem test_branch_past_end : branchTarget one { probeThread with pc := 0xFFFFFFF0 } 16 = pastEnd ∧
    branchTarget one { probeThread with pc := 0xFFFFFFF0 } 4 = 0xFFFFFFF8 := by decide

/-- R359, R361: a packet for which no port is open is lost as it leaves. -/
theorem test_lost_packet : (sendReady State.reset.fabric [] [{ pkt (.write [1]) with sent := false }]).map (fun p => (p.sent, p.lost)) =
    [(true, true)] := by decide

theorem witness_quiet_tick : rig.refillDue = false ∧ rig.deckle.changes = [] ∧ rig.deckle.conflict = false := by decide

end Sys2Proof.Tests
end

section
/-!
PROOFS. The instructions that change no state but close the windows (R24, R46, R141, R144, R177, R197): each is the end of an
instruction that does nothing, `finish`, and TFENCE and YIELD then change one thing that no lane sees.
-/

namespace Sys2Proof.Machine

/-! The end of an instruction that does nothing. -/

/-- Where an instruction may issue, ending it changes the lanes of the bundle only: each has counted in its windows and goes on. -/
theorem finish_counted (s : State) (u : Use) (h : s.canIssue u = true) :
    OnlyLanes s (s.counted u).finish ∧ LaneStep s (s.counted u).finish (fun _ th => u.ran s.cur id th) := by
  obtain ⟨t, ht, hl, hs⟩ := nop_run s u h
  rw [issue_runs s u _ h] at ht
  injection ht with ht
  rw [ht]
  exact ⟨hl, hs⟩

/-! The canonical 16-bit NOP. -/

/-- A register set to the value it holds is unchanged. -/
@[simp] theorem thread_set_get_same (t : Thread) (n : Nat) : t.set n (t.get n) = t := by
  have hr : t.regs.set n (t.regs.getD n 0) = t.regs := by
    by_cases hn : n < t.regs.length
    · simp [hn]
    · exact List.set_eq_of_length_le (Nat.le_of_not_lt hn)
  simp only [Thread.set, Thread.get, hr]

/-- Without a REP a field names its own register (R38). -/
theorem reg_of_rep_none {s : State} (h : s.cur.rep = none) (f : Fld) (r : Reg) : s.reg f r = r.toNat := by
  simp [State.reg, Cur.shift, h]

/-- The halfword 0, MOV v0, v0, copies v0; where no REP steps it, that changes no register (R24). -/
theorem mov16_zero_run (s : State) (h : s.canIssue (Use.f2 0 0) = true) :
    ∃ t, exec (.mov16 0 0) s = .next t ∧ OnlyLanes s t ∧
      LaneStep s t (fun _ th => (Use.f2 0 0).ran s.cur (fun x => x.set (s.reg .vd 0) (th.get (s.reg .va 0))) th) ∧
      (s.cur.rep = none → LaneStep s t (fun _ th => (Use.f2 0 0).ran s.cur id th)) := by
  obtain ⟨t, ht, hl, hs⟩ := alu2_run 0 0 (fun x _ => x) s h
  refine ⟨t, ht, hl, hs, fun hrep => ?_⟩
  have same : ∀ th, (Use.f2 0 0).ran s.cur (fun x => x.set (s.reg .vd 0) (th.get (s.reg .va 0))) th =
      (Use.f2 0 0).ran s.cur id th := by
    intro th
    have hget : th.get (s.reg .va 0) = ((Use.f2 0 0).count s.cur th).get (s.reg .vd 0) := by
      rw [count_get, reg_of_rep_none hrep, reg_of_rep_none hrep]
    simp only [Use.ran, hget, thread_set_get_same, id]
  simpa only [same] using hs

/-! TFENCE. -/

/-- A core's record cache is no bookkeeping of issue, so that the fence of a warp's records commutes with leaving that out. -/
theorem rest_modCore_fenceRecs (s : State) (c w slot : Nat) :
    (s.modCore c (fun k => k.fenceRecs slot)).rest c w = (s.rest c w).modCore c (fun k => k.fenceRecs slot) := by
  simp only [State.rest, State.modCore, tmod_tmod]
  rfl

/-- The fence of a warp's records changes no thread. -/
theorem thread_modCore_fenceRecs (s : State) (c slot c' w l : Nat) :
    (s.modCore c (fun k => k.fenceRecs slot)).thread? c' w l = s.thread? c' w l := by
  have hwarp : (s.modCore c (fun k => k.fenceRecs slot)).warpAt? c' w = s.warpAt? c' w := by
    simp only [State.warpAt?, State.modCore, tget_tmod]
    split
    · exact Option.bind_map
    · rfl
  simp only [State.thread?, hwarp]

/-- TFENCE is the end of an instruction that does nothing, after which engine commands see the warp's records (R177, R197). -/
theorem exec_tfence_counted (s : State) (h : s.canIssue (Use.flow []) = true) :
    exec .tfence s = .next ((s.counted (Use.flow [])).finish.modCore s.cur.core (fun k => k.fenceRecs s.cur.slot)) :=
  (exec_tfence s).trans (issue_runs s (Use.flow []) _ h)

/-- TFENCE changes which records engine commands see, and nothing else outside the lanes of its bundle. -/
theorem tfence_run (s : State) (h : s.canIssue (Use.flow []) = true) :
    ∃ t, exec .tfence s = .next t ∧ OnlyLanes (s.modCore s.cur.core (fun k => k.fenceRecs s.cur.slot)) t ∧
      LaneStep s t (fun _ th => (Use.flow []).ran s.cur id th) := by
  obtain ⟨⟨hrest, -⟩, hs⟩ := finish_counted s (Use.flow []) h
  refine ⟨_, exec_tfence_counted s h, OnlyLanes.of_rest ?_, fun l => ?_⟩
  · simp only [modCore_cur, rest_modCore_fenceRecs, hrest]
  · rw [thread_modCore_fenceRecs]
    exact hs l

/-! YIELD. -/

/-- The bundles of a warp that share a lane with a mask are passed over up to a cycle (R144). -/
def Warp.passOver (w : Warp) (m : Mask) (c : Nat) : Warp :=
  { w with bundles := w.bundles.map (fun b => if b.mask &&& m == 0 then b else { b with yield := c }) }

@[simp] theorem blank_passOver (w : Warp) (m : Mask) (c : Nat) : (w.passOver m c).blank = w.blank := rfl

/-- The cycle up to which each of those bundles is passed over. -/
theorem yield_of_mem_passOver {w : Warp} {m : Mask} {c : Nat} {b : Bundle} (hb : b ∈ (w.passOver m c).bundles)
    (hm : b.mask &&& m ≠ 0) : b.yield = c := by
  obtain ⟨b₀, -, rfl⟩ := List.mem_map.mp hb
  by_cases h0 : (b₀.mask &&& m == 0) = true
  · rw [if_pos h0] at hm
    exact absurd (eq_of_beq h0) hm
  · rw [if_neg h0]

/-- YIELD is the end of an instruction that does nothing, after which its lanes' bundles are passed over: for 16 cycles from the
next one (R144). -/
theorem exec_yield_counted (s : State) (h : s.canIssue (Use.flow []) = true) :
    exec .yield s = .next ((s.counted (Use.flow [])).finish.modWarpAt s.cur.core s.cur.slot
      (fun w => w.passOver s.cur.mask (s.cycle + 17))) :=
  (exec_yield s).trans (issue_runs s (Use.flow []) _ h)

/-- YIELD changes the lanes of its bundle and how long their bundles are passed over. -/
theorem yield_run (s : State) (h : s.canIssue (Use.flow []) = true) :
    ∃ t, exec .yield s = .next t ∧ OnlyLanes s t ∧ LaneStep s t (fun _ th => (Use.flow []).ran s.cur id th) ∧
      ∀ w, t.warpAt? s.cur.core s.cur.slot = some w → ∀ b ∈ w.bundles, b.mask &&& s.cur.mask ≠ 0 → b.yield = s.cycle + 17 := by
  obtain ⟨⟨hrest, -⟩, hs⟩ := finish_counted s (Use.flow []) h
  refine ⟨_, exec_yield_counted s h, OnlyLanes.of_rest ?_, fun l => ?_, fun w hw b hb hm => ?_⟩
  · rw [rest_modWarpAt _ _ _ _ (fun w => blank_passOver w _ _), hrest]
  · rw [thread_modWarpAt]
    exact hs l
  · rw [warpAt_modWarpAt, if_pos ⟨rfl, rfl⟩, Option.map_eq_some_iff] at hw
    obtain ⟨w₀, -, rfl⟩ := hw
    exact yield_of_mem_passOver hb hm

/-- Settles O22: NOP and LPAD are the bare end of an instruction; MOV v0, v0 sets v0 to itself; TFENCE and YIELD change a record
cache and the bundles after that end. -/
theorem noOperations : Obligations.NoOperations := by
  refine ⟨⟨by decide, mov16_zero_run⟩, by decide, fun s h x i hi => ?_, tfence_run, yield_run⟩
  rcases List.mem_pair.mp hi with rfl | rfl <;> exact nop_run s (Use.flow []) h

end Sys2Proof.Machine
end

section
/-!
PROOFS. Integer instructions of one source register (R97, R99–R102): each is the shape `alu2` whose result does not look at the
old vd, LUI is the shape `alu1` whose result is its immediate's word, and a 32-bit word decodes from the four bytes it is laid in.
-/

/-! Words and their bytes. -/

namespace Sys2Proof

/-- The number that n little-endian bytes of w make. -/
theorem leNat_leBytes (n w : Nat) : leNat (leBytes n w) = w % 256 ^ n := by
  induction n generalizing w with
  | zero => simp [leNat, leBytes, Nat.mod_one]
  | succ n ih =>
    simp only [leBytes, leNat, ih, BitVec.toNat_ofNat]
    rw [Nat.pow_succ' (m := 256)]
    exact Nat.mod_mul.symm

/-- A 32-bit word whose bit 0 is set decodes from its four bytes, whatever follows them (R10, R19). -/
theorem decode_leBytes_of_odd {w : Nat} (rest : List Byte) (hlt : w < 2 ^ 32) (hodd : w % 2 = 1) :
    decode (leBytes 4 w ++ rest) = (decodeWord w).map fun i => (i, rest) := by
  have hlow : (BitVec.ofNat 8 w).toNat % 2 ≠ 0 := by
    rw [BitVec.toNat_ofNat]
    omega
  have hword : leNat (leBytes 4 w) = w := (leNat_leBytes 4 w).trans (Nat.mod_eq_of_lt hlt)
  simp only [leBytes] at hword
  simp only [leBytes, List.cons_append, List.nil_append, decode, if_neg hlow, hword]

/-- A row of 32 bits with bit 0 set holds the instruction its word decodes to. -/
theorem decodeTableWord_of_odd {w : Nat} {i : Instr} (hlt : w < 2 ^ 32) (hodd : w % 2 = 1) (hi : decodeWord w = .ok i) :
    decodeTableWord 32 w = some i := by
  have hdec := decode_leBytes_of_odd [] hlt hodd
  rw [List.append_nil, hi] at hdec
  rw [decodeTableWord, Nat.mod_eq_of_lt hlt, hdec]
  rfl

/-- The checks of the operands pass for a well-formed instruction, so that its word decodes to it (R28, R43). -/
theorem decodeWord_encodeWord {i : Instr} (hraw : Laws.RoundTrip.Statement i) (hev : i.isEvent = false) (hwf : i.wf = true) :
    decodeWord (encodeWord i) = .ok i := by
  rw [decodeWord, hraw hev hwf]
  exact if_pos hwf

/-- The word of LUI as R102 lays it out. -/
theorem decodeTableWord_lui (i : BitVec 18) (d : Reg) :
    decodeTableWord 32 (i.toNat * 2 ^ 14 + d.toNat * 2 ^ 7 + 0x13) = some (.lui i d) := by
  have hi := i.isLt
  have hd := d.isLt
  have hword : i.toNat * 2 ^ 14 + d.toNat * 2 ^ 7 + 0x13 = encodeWord (.lui i d) := by
    show _ = 0x13 + i.toNat * 16384 + d.toNat * 128
    omega
  refine decodeTableWord_of_odd (by omega) (by omega) ?_
  rw [hword]
  exact decodeWord_encodeWord (Laws.RoundTrip.lui i d) rfl rfl

end Sys2Proof

namespace Sys2Proof.Machine

/-! LUI. -/

/-- The immediate of LUI shifted into place is imm × 2^14. -/
theorem setWidth_shiftLeft_eq_ofNat_mul (i : BitVec 18) :
    i.setWidth 32 <<< 14 = BitVec.ofNat 32 (i.toNat * 2 ^ 14) := by
  have hi := i.isLt
  apply BitVec.eq_of_toNat_eq
  rw [BitVec.toNat_shiftLeft, BitVec.toNat_setWidth, BitVec.toNat_ofNat, Nat.shiftLeft_eq,
    Nat.mod_eq_of_lt (show i.toNat < 2 ^ 32 by omega)]

/-- A multiple of 2^n has its low n bits 0. -/
theorem extractLsb'_ofNat_mul_two_pow (w n k : Nat) (hn : n ≤ w) :
    (BitVec.ofNat w (k * 2 ^ n)).extractLsb' 0 n = 0 := by
  apply BitVec.eq_of_toNat_eq
  have hdvd : 2 ^ n ∣ 2 ^ w := Nat.pow_dvd_pow 2 hn
  rw [BitVec.extractLsb'_toNat, BitVec.toNat_ofNat, Nat.shiftRight_zero, Nat.mod_mod_of_dvd _ hdvd, Nat.mul_mod_left]
  rfl

/-- LUI sets vd to imm × 2^14, whatever vd held (R102). -/
theorem lui_run (i : BitVec 18) (d : Reg) (s : State) (h : s.canIssue { opds := [.one .vd d], rep := true } = true) :
    ∃ t, exec (.lui i d) s = .next t ∧ OnlyLanes s t ∧
      LaneStep s t (fun _ th => ({ opds := [.one .vd d], rep := true } : Use).ran s.cur (fun x =>
        x.set (s.reg .vd d) (BitVec.ofNat 32 (i.toNat * 2 ^ 14))) th) := by
  rw [exec_lui, execLui, setWidth_shiftLeft_eq_ofNat_mul]
  exact alu1_run d (fun _ => BitVec.ofNat 32 (i.toNat * 2 ^ 14)) s h

/-! Instructions of one source register. -/

/-- Every instruction of the table takes its result from va alone: the shape `alu2`, with the old vd left aside. -/
theorem exec_wordOps2 {i11 : BitVec 11} {i9 : BitVec 9} {c : BitVec 5} {p : (Reg → Reg → Instr) × (Word → Word)}
    (hp : p ∈ wordOps2 i11 i9 c) (a d : Reg) (s : State) : exec (p.1 a d) s = alu2 a d (fun x _ => p.2 x) s := by
  simp only [wordOps2, List.mem_cons, List.not_mem_nil, or_false] at hp
  obtain rfl | rfl | rfl | rfl | rfl | rfl | rfl | rfl | rfl | rfl | rfl | rfl | rfl | rfl | rfl := hp
  · exact exec_clz a d s
  · exact exec_popc a d s
  · exact exec_brev a d s
  · exact exec_addi i11 a d s
  · exact exec_andi i11 a d s
  · exact exec_ori i11 a d s
  · exact exec_xori i11 a d s
  · exact exec_cmpeqi i9 a d s
  · exact exec_cmpltsi i9 a d s
  · exact exec_cmpltui i9 a d s
  · exact exec_cmpnei i9 a d s
  · exact exec_shli c a d s
  · exact exec_shrui c a d s
  · exact exec_shrsi c a d s
  · exact exec_rotli c a d s

/-- Settles O8: a row of the table runs as `alu2`, and LUI as `alu1`, whose word decodes and whose result is a multiple of
2^14. -/
theorem oneSourceArithmetic : Obligations.OneSourceArithmetic := by
  refine ⟨fun i11 i9 c p hp a d s h => ?_, fun i d =>
    ⟨decodeTableWord_lui i d, extractLsb'_ofNat_mul_two_pow 32 14 i.toNat (by omega), lui_run i d⟩⟩
  rw [exec_wordOps2 hp]
  exact alu2_run a d (fun x _ => p.2 x) s h

end Sys2Proof.Machine
end

section
/-!
PROOFS. RNDM (R384): the rule's steps on 64-bit words are the mixer of the model's numbers, each of them can be undone for a
fixed key, neither REP nor MOD suits the instruction, and its word is the one word of major 0x37 that names an instruction.
-/

/-! The mixer on 64-bit words. -/

namespace Sys2Proof.Machine

/-- A word combined with itself shifted right, the step x XOR (x >> n) of the rule (R384). -/
def xorShift {w : Nat} (n : Nat) (x : BitVec w) : BitVec w := x ^^^ (x >>> n)

/-- The same step on numbers. -/
def natXorShift (n x : Nat) : Nat := x ^^^ x / 2 ^ n

/-- The steps of R384 on the counter and the key. -/
def mixer (c k : BitVec 64) : BitVec 64 :=
  xorShift 29 (xorShift 31 ((c ^^^ k) * 0xB5AD4ECEDA1CE2A9) * 0x8E4C3A9D1F2B6C75) + k

theorem toNat_xorShift {w : Nat} (n : Nat) (x : BitVec w) : (xorShift n x).toNat = natXorShift n x.toNat := by
  rw [xorShift, BitVec.toNat_xor, BitVec.toNat_ushiftRight, Nat.shiftRight_eq_div_pow, natXorShift]

/-- The model's mixer, by its two steps. -/
theorem rndm_eq (c k : Nat) : rndm c k =
    (natXorShift 29 (natXorShift 31 ((c ^^^ k) * 0xB5AD4ECEDA1CE2A9 % 2 ^ 64) * 0x8E4C3A9D1F2B6C75 % 2 ^ 64) + k % 2 ^ 64) %
      2 ^ 64 := rfl

/-- The model's mixer of two numbers below 2^64 is the rule's mixer of their words. -/
theorem rndm_toNat (c k : BitVec 64) : rndm c.toNat k.toNat = (mixer c k).toNat := by
  rw [rndm_eq, Nat.mod_eq_of_lt k.isLt, mixer, BitVec.toNat_add, toNat_xorShift, BitVec.toNat_mul, toNat_xorShift,
    BitVec.toNat_mul, BitVec.toNat_xor]
  rfl

/-! Each step can be undone. -/

/-- A word that equals itself shifted right is 0, because the shift of any other is a smaller number. -/
theorem eq_zero_of_eq_ushiftRight {w n : Nat} (hn : 0 < n) {z : BitVec w} (h : z = z >>> n) : z = 0#w := by
  have hdiv : z.toNat = z.toNat / 2 ^ n := by
    rw [← Nat.shiftRight_eq_div_pow, ← BitVec.toNat_ushiftRight, ← h]
  apply BitVec.eq_of_toNat_eq
  rw [BitVec.toNat_ofNat, Nat.zero_mod]
  by_contra hz
  exact absurd hdiv (Nat.div_lt_self (Nat.pos_of_ne_zero hz) (Nat.one_lt_two_pow hn.ne')).ne'

theorem xorShift_xor {w : Nat} (n : Nat) (x y : BitVec w) : xorShift n (x ^^^ y) = xorShift n x ^^^ xorShift n y := by
  simp only [xorShift, BitVec.ushiftRight_xor_distrib]
  ac_rfl

/-- Two words with one image differ by a word whose image is 0, which is 0 alone. -/
theorem xorShift_injective {w n : Nat} (hn : 0 < n) : Function.Injective (xorShift n : BitVec w → BitVec w) := by
  intro x y h
  have himage : xorShift n (x ^^^ y) = 0#w := by rw [xorShift_xor, h, BitVec.xor_self]
  have hzero : x ^^^ y = 0#w := eq_zero_of_eq_ushiftRight hn (BitVec.xor_eq_zero_iff.mp himage)
  exact BitVec.xor_eq_zero_iff.mp hzero

theorem xorShift_bijective {w n : Nat} (hn : 0 < n) : Function.Bijective (xorShift n : BitVec w → BitVec w) :=
  Finite.injective_iff_bijective.mp (xorShift_injective hn)

/-- An odd number has an inverse modulo 2^w. -/
theorem isUnit_of_odd_toNat {w : Nat} {m : BitVec w} (h : Odd m.toNat) : IsUnit m := by
  have hw : w ≠ 0 := by
    rintro rfl
    rw [BitVec.of_length_zero (x := m)] at h
    exact absurd h (by decide)
  obtain ⟨x, -, hx⟩ := Nat.exists_mul_mod_eq_one_of_coprime (h.coprime_two_right.pow_right w) (Nat.one_lt_two_pow hw)
  refine IsUnit.of_mul_eq_one (BitVec.ofNat w x) (BitVec.eq_of_toNat_eq ?_)
  rw [BitVec.toNat_mul, BitVec.toNat_ofNat, Nat.mul_mod_mod, hx]
  exact (Nat.mod_eq_of_lt (Nat.one_lt_two_pow hw)).symm

/-- For a fixed key the mixer is a bijection of the counter: both multipliers are odd, and a word combined with its own shift
can be told from the result (R384). -/
theorem mixer_bijective (k : BitVec 64) : Function.Bijective (fun c => mixer c k) := by
  have hkey : Function.Bijective (fun c : BitVec 64 => c ^^^ k) :=
    Function.Involutive.bijective fun c => by rw [BitVec.xor_assoc, BitVec.xor_self, BitVec.xor_zero]
  have hmul (m : BitVec 64) (hm : Odd m.toNat) : Function.Bijective (fun x : BitVec 64 => x * m) :=
    Finite.injective_iff_bijective.mp (isUnit_of_odd_toNat hm).mul_left_injective
  exact (AddGroup.addRight_bijective k).comp <| (xorShift_bijective (by decide)).comp <| (hmul _ (by decide)).comp <|
    (xorShift_bijective (by decide)).comp <| (hmul _ (by decide)).comp hkey

/-! What RNDM does, and its refusal of REP and MOD. -/

/-- The operands of RNDM: three even pairs, and nothing that REP or MOD may change (R28, R384). -/
def useRndm (b a d : Reg) : Use := { opds := [.two .vd d, .two .va a, .two .vb b] }

/-- What RNDM does where its checks pass: the pair vd becomes the mixed counter and key in every lane (R384). -/
def rndmBody (b a d : Reg) (s : State) : Out :=
  .next (s.mapActive (fun _ t => t.setPair d.toNat (mixer (t.pair a.toNat) (t.pair b.toNat)))).finish

theorem exec_rndm_eq_issue (b a d : Reg) (s : State) : exec (.rndm b a d) s = s.issue (useRndm b a d) (rndmBody b a d) := by
  rw [exec_rndm, execRndm]
  simp only [Thread.nat64, rndm_toNat, BitVec.ofNat_toNat, BitVec.setWidth_eq]
  rfl

/-- RNDM sets the pair vd to the mixed counter and key, whatever lanes it runs in (R384). -/
theorem rndm_run (b a d : Reg) (s : State) (h : s.canIssue (useRndm b a d) = true) :
    ∃ t, exec (.rndm b a d) s = .next t ∧ OnlyLanes s t ∧
      LaneStep s t (fun _ th => (useRndm b a d).ran s.cur (fun x =>
        x.setPair d.toNat (mixer (th.pair a.toNat) (th.pair b.toNat))) th) := by
  have hrun := finish_run s (useRndm b a d) (rndmBody b a d)
    (fun _ t => t.setPair d.toNat (mixer (t.pair a.toNat) (t.pair b.toNat))) h rfl
  simp only [Use.ran, count_pair] at hrun ⊢
  rw [exec_rndm_eq_issue]
  exact hrun

/-- Where a REP or MOD does not suit an instruction, that word of the unit is ILLEGAL, before any other check (R36). -/
theorem issue_badPrefix {s : State} {u : Use} {w : Warp} {l off : Nat} {t : Thread} {rest : List (Nat × Thread)}
    (body : State → Out) (hw : s.warp? = some w) (ha : s.active = (l, t) :: rest) (hp : u.badPrefix s.cur = some off) :
    s.issue u body = .next (s.faultAt .illegal l off) := by
  simp only [State.issue, hw, ha, hp]

/-- RNDM takes no field of MOD, so that only a MOD without one suits it (R40, R384). -/
theorem modOk_useRndm {b a d : Reg} {m : ModCtx} : (useRndm b a d).modOk m = true ↔ m = ⟨none, none, none, none⟩ := by
  obtain ⟨ftz, rm, order, scope⟩ := m
  cases order with
  | some o => simp [Use.modOk, useRndm]
  | none =>
    cases scope with
    | some o => simp [Use.modOk, useRndm]
    | none => simp [Use.modOk, useRndm, and_comm]

/-- A REP, or a MOD with any field, before RNDM offends at the unit's first word (R36, R37, R40, R384). -/
theorem badPrefix_useRndm {b a d : Reg} {c : Cur}
    (h : c.rep ≠ none ∨ ∃ m, c.mod = some m ∧ m ≠ ⟨none, none, none, none⟩) : (useRndm b a d).badPrefix c = some 0 := by
  cases hr : c.rep with
  | some r => cases hm : c.mod <;> simp [Use.badPrefix, hr, hm, useRndm]
  | none =>
    obtain h | ⟨m, hm, hne⟩ := h
    · exact absurd hr h
    · have hbad : (useRndm b a d).modOk m = false := Bool.eq_false_iff.mpr (mt modOk_useRndm.mp hne)
      simp [Use.badPrefix, hr, hm, hbad]

theorem rndm_illegal_of_rep_or_mod (b a d : Reg) (s : State) (w : Warp) (l : Nat) (t : Thread) (rest : List (Nat × Thread))
    (hw : s.warp? = some w) (ha : s.active = (l, t) :: rest)
    (h : s.cur.rep ≠ none ∨ ∃ m, s.cur.mod = some m ∧ m ≠ ⟨none, none, none, none⟩) :
    exec (.rndm b a d) s = .next (s.faultAt .illegal l 0) :=
  (exec_rndm_eq_issue b a d s).trans <| issue_badPrefix _ hw ha (badPrefix_useRndm h)

end Sys2Proof.Machine

/-! Words of major 0x37. -/

namespace Sys2Proof

/-- A word of 32 bits with bit 0 set holds what it decodes to, and nothing where it is ILLEGAL. -/
theorem decodeTableWord_eq_toOption {w : Nat} (hlt : w < 2 ^ 32) (hodd : w % 2 = 1) :
    decodeTableWord 32 w = (decodeWord w).toOption := by
  have hdec := decode_leBytes_of_odd [] hlt hodd
  rw [List.append_nil] at hdec
  rw [decodeTableWord, Nat.mod_eq_of_lt hlt, hdec]
  cases decodeWord w <;> rfl

/-- An instruction whose operands pass their checks is what its word decodes to (R28, R43). -/
theorem toOption_decodeWord (w : Nat) : (decodeWord w).toOption = (decodeRaw w).filter Instr.wf := by
  unfold decodeWord
  cases decodeRaw w with
  | none => rfl
  | some i => cases hi : i.wf <;> simp [hi, Except.toOption, Option.filter]

/-- Major 0x37 names RNDM at fn 0 and nothing at fn 1–15, before the pairs are checked (R384). -/
theorem decodeRaw_major37 (b a d : Reg) (f : BitVec 4) :
    decodeRaw (f.toNat * 2 ^ 28 + b.toNat * 2 ^ 21 + a.toNat * 2 ^ 14 + d.toNat * 2 ^ 7 + 0x6F) =
      if f = 0 then some (.rndm b a d) else none := by
  have hf := f.isLt
  have hb := b.isLt
  have ha := a.isLt
  have hd := d.isLt
  have hzero : f.toNat = 0 ↔ f = 0 := BitVec.toNat_eq_nat.trans (by simp)
  generalize hw : f.toNat * 2 ^ 28 + b.toNat * 2 ^ 21 + a.toNat * 2 ^ 14 + d.toNat * 2 ^ 7 + 0x6F = w
  have hodd : ¬ w % 2 = 0 := by omega
  have hmajor : field w 6 1 = 55 := by unfold field; omega
  have hfn : field w 31 28 = f.toNat := by unfold field; omega
  have hvb : field w 27 21 = b.toNat := by unfold field; omega
  have hva : field w 20 14 = a.toNat := by unfold field; omega
  have hvd : field w 13 7 = d.toNat := by unfold field; omega
  rw [decodeRaw, if_neg hodd, decode32]
  simp only [hmajor, decodeMajor37, hfn, hvb, hva, hvd, BitVec.ofNat_toNat, BitVec.setWidth_eq]
  split
  · next h0 => rw [if_pos (hzero.mp h0)]
  · next hne => rw [if_neg fun h => hne (hzero.mpr h)]

theorem decodeTableWord_major37 (b a d : Reg) (f : BitVec 4) :
    decodeTableWord 32 (f.toNat * 2 ^ 28 + b.toNat * 2 ^ 21 + a.toNat * 2 ^ 14 + d.toNat * 2 ^ 7 + 0x6F) =
      if f = 0 ∧ b.toNat % 2 = 0 ∧ a.toNat % 2 = 0 ∧ d.toNat % 2 = 0 then some (.rndm b a d) else none := by
  have hf := f.isLt
  have hb := b.isLt
  have ha := a.isLt
  have hd := d.isLt
  rw [decodeTableWord_eq_toOption (by omega) (by omega), toOption_decodeWord, decodeRaw_major37]
  by_cases h : f = 0
  · have hwf : (Instr.rndm b a d).wf = true ↔ b.toNat % 2 = 0 ∧ a.toNat % 2 = 0 ∧ d.toNat % 2 = 0 := by
      simp [Instr.wf, evenReg, and_assoc]
    simp [h, Option.filter, hwf]
  · simp only [h, if_false, false_and]
    rfl

end Sys2Proof

namespace Sys2Proof.Machine

/-- Settles O19: the mixer of the rule is that of the model, its steps are undone one by one, neither REP nor MOD
passes the checks of RNDM, and its major names nothing else. -/
theorem randomNumbers : Obligations.RandomNumbers :=
  ⟨rndm_run, rndm_illegal_of_rep_or_mod, mixer_bijective, by decide, decodeTableWord_major37⟩

end Sys2Proof.Machine
end

section
/-!
PROOFS. Decoding undoes encoding (R19, R22, R26–R32): the statement of every constructor gives it for a word, and how a word is
laid in halfwords gives it for the bytes.
-/

namespace Sys2Proof.Laws.RoundTrip

/-- The word of every instruction decodes to it: the law of its constructor. -/
theorem all : ∀ i : Instr, Statement i
  | .add b a d => add b a d
  | .sub b a d => sub b a d
  | .mul b a d => mul b a d
  | .mulhu b a d => mulhu b a d
  | .mulhs b a d => mulhs b a d
  | .mad b a d => mad b a d
  | .and b a d => and b a d
  | .or b a d => or b a d
  | .xor b a d => xor b a d
  | .andn b a d => andn b a d
  | .shl b a d => shl b a d
  | .shru b a d => shru b a d
  | .shrs b a d => shrs b a d
  | .rotl b a d => rotl b a d
  | .addp b a d => addp b a d
  | .sel b a d => sel b a d
  | .mins b a d => mins b a d
  | .minu b a d => minu b a d
  | .maxs b a d => maxs b a d
  | .maxu b a d => maxu b a d
  | .clz a d => clz a d
  | .popc a d => popc a d
  | .brev a d => brev a d
  | .cmpeq b a d => cmpeq b a d
  | .cmpne b a d => cmpne b a d
  | .cmplts b a d => cmplts b a d
  | .cmpltu b a d => cmpltu b a d
  | .cmples b a d => cmples b a d
  | .cmpleu b a d => cmpleu b a d
  | .bfx b a d => bfx b a d
  | .bfi b a d => bfi b a d
  | .addi i a d => addi i a d
  | .andi i a d => andi i a d
  | .ori i a d => ori i a d
  | .xori i a d => xori i a d
  | .shli c a d => shli c a d
  | .shrui c a d => shrui c a d
  | .shrsi c a d => shrsi c a d
  | .rotli c a d => rotli c a d
  | .cmpeqi i a d => cmpeqi i a d
  | .cmpltsi i a d => cmpltsi i a d
  | .cmpltui i a d => cmpltui i a d
  | .cmpnei i a d => cmpnei i a d
  | .addpi i a d => addpi i a d
  | .lui i d => lui i d
  | .auip i d => auip i d
  | .movri a d => movri a d
  | .movro a d => movro a d
  | .mov16 s d => mov16 s d
  | .movi16 i d => movi16 i d
  | .add16 s d => add16 s d
  | .addi16 i d => addi16 i d
  | .sub16 s d => sub16 s d
  | .subi16 i d => subi16 i d
  | .mul16 s d => mul16 s d
  | .muli16 i d => muli16 i d
  | .and16 s d => and16 s d
  | .andi16 i d => andi16 i d
  | .or16 s d => or16 s d
  | .ori16 i d => ori16 i d
  | .xor16 s d => xor16 s d
  | .xori16 i d => xori16 i d
  | .shl16 s d => shl16 s d
  | .shli16 c d => shli16 c d
  | .shru16 s d => shru16 s d
  | .shrui16 c d => shrui16 c d
  | .shrs16 s d => shrs16 s d
  | .shrsi16 c d => shrsi16 c d
  | .mins16 s d => mins16 s d
  | .minsi16 i d => minsi16 i d
  | .maxs16 s d => maxs16 s d
  | .maxsi16 i d => maxsi16 i d
  | .fadd16 s d => fadd16 s d
  | .fsub16 s d => fsub16 s d
  | .fmul16 s d => fmul16 s d
  | .fmax16 s d => fmax16 s d
  | .fadd b a d => fadd b a d
  | .fsub b a d => fsub b a d
  | .fmul b a d => fmul b a d
  | .ffma b a d => ffma b a d
  | .ffms b a d => ffms b a d
  | .fnfma b a d => fnfma b a d
  | .fmin b a d => fmin b a d
  | .fmax b a d => fmax b a d
  | .frnd a d => frnd a d
  | .fcls a d => fcls a d
  | .fscalebB0 b a d => fscalebB0 b a d
  | .fscalebB1 b a d => fscalebB1 b a d
  | .fscalebB2 b a d => fscalebB2 b a d
  | .fscalebB3 b a d => fscalebB3 b a d
  | .fabs a d => fabs a d
  | .fneg a d => fneg a d
  | .fcmp cc sig b a d => fcmp cc sig b a d
  | .dcmp cc sig b a d => dcmp cc sig b a d
  | .dadd b a d => dadd b a d
  | .dsub b a d => dsub b a d
  | .dmul b a d => dmul b a d
  | .dfma b a d => dfma b a d
  | .dmin b a d => dmin b a d
  | .dmax b a d => dmax b a d
  | .drnd a d => drnd a d
  | .dabs a d => dabs a d
  | .dneg a d => dneg a d
  | .hadd2 b a d => hadd2 b a d
  | .hsub2 b a d => hsub2 b a d
  | .hmul2 b a d => hmul2 b a d
  | .hfma2 b a d => hfma2 b a d
  | .hmin2 b a d => hmin2 b a d
  | .hmax2 b a d => hmax2 b a d
  | .badd2 b a d => badd2 b a d
  | .bsub2 b a d => bsub2 b a d
  | .bmul2 b a d => bmul2 b a d
  | .bfma2 b a d => bfma2 b a d
  | .bmin2 b a d => bmin2 b a d
  | .bmax2 b a d => bmax2 b a d
  | .cvt t r c e a d => cvt t r c e a d
  | .dot8S8 b a d => dot8S8 b a d
  | .dot8U8 b a d => dot8U8 b a d
  | .dot8E4m3 b a d => dot8E4m3 b a d
  | .dot8E5m2 b a d => dot8E5m2 b a d
  | .dot4S4 b a d => dot4S4 b a d
  | .dot4E2m1 b a d => dot4E2m1 b a d
  | .frcp L a d => frcp L a d
  | .frsq L a d => frsq L a d
  | .fsqrt L a d => fsqrt L a d
  | .fexp2 L a d => fexp2 L a d
  | .flog2 L a d => flog2 L a d
  | .fsin L a d => fsin L a d
  | .fcos L a d => fcos L a d
  | .ftanh L a d => ftanh L a d
  | .frcpCr r L a d => frcpCr r L a d
  | .frsqCr r L a d => frsqCr r L a d
  | .fsqrtCr r L a d => fsqrtCr r L a d
  | .drcp r L a d => drcp r L a d
  | .drsq r L a d => drsq r L a d
  | .dsqrt r L a d => dsqrt r L a d
  | .shfl b a d => shfl b a d
  | .shfllo b a d => shfllo b a d
  | .shflhi b a d => shflhi b a d
  | .shflx b a d => shflx b a d
  | .bcast b a d => bcast b a d
  | .voteAny a d => voteAny a d
  | .voteAll a d => voteAll a d
  | .voteBal a d => voteBal a d
  | .matchB a d => matchB a d
  | .matchF a d => matchF a d
  | .redwAdd a d => redwAdd a d
  | .redwMin a d => redwMin a d
  | .redwMax a d => redwMax a d
  | .scanwAdd a d => scanwAdd a d
  | .tilep s d => tilep s d
  | .qswpH a d => qswpH a d
  | .qswpV a d => qswpV a d
  | .qswpD a d => qswpD a d
  | .qbcast n a d => qbcast n a d
  | .qredAdd a d => qredAdd a d
  | .qredMin a d => qredMin a d
  | .qredMax a d => qredMax a d
  | .fredwAdd a d => fredwAdd a d
  | .fredwMin a d => fredwMin a d
  | .fredwMax a d => fredwMax a d
  | .tmclr L d => tmclr L d
  | .tment L a d => tment L a d
  | .tmacc L a d => tmacc L a d
  | .tmmrg L a d => tmmrg L a d
  | .tmredw L d => tmredw L d
  | .tmexit L a d => tmexit L a d
  | .tmld L s a d => tmld L s a d
  | .ld o k L z a d => ld o k L z a d
  | .st o k L z a d => st o k L z a d
  | .lds L z a d => lds L z a d
  | .ldsSync L a d => ldsSync L a d
  | .ldsPeek L a d => ldsPeek L a d
  | .sts L z a d => sts L z a d
  | .stsSync L a d => stsSync L a d
  | .stsFill L a d => stsFill L a d
  | .stsEmpty L a => stsEmpty L a
  | .ldx h L s a d => ldx h L s a d
  | .stx h L s a d => stx h L s a d
  | .pref k a => pref k a
  | .fence e k s => fence e k s
  | .waita o k z a d => waita o k z a d
  | .bsig b a => bsig b a
  | .bwait b a => bwait b a
  | .brdc a d => brdc a d
  | .waitc c n => waitc c n
  | .atom L ar sc o a d => atom L ar sc o a d
  | .red L sat cn fz o a d => red L sat cn fz o a d
  | .redTm L a d => redTm L a d
  | .atoms L ar sc o a d => atoms L ar sc o a d
  | .bra d => bra d
  | .bz d p => bz d p
  | .bnz d p => bnz d p
  | .call i d => call i d
  | .ret a => ret a
  | .jtab b a => jtab b a
  | .callt b a d => callt b a d
  | .trap a => trap a
  | .lpad l => lpad l
  | .meet i d => meet i d
  | .gcall n => gcall n
  | .timei d => timei d
  | .commitw a => commitw a
  | .stst L a d => stst L a d
  | .ldat L a d => ldat L a d
  | .cpy L a d => cpy L a d
  | .cpytIn L a d => cpytIn L a d
  | .cpytOut L a d => cpytOut L a d
  | .halo L a d => halo L a d
  | .wstr L s a d => wstr L s a d
  | .wget L s a d => wget L s a d
  | .wcnt L c a d => wcnt L c a d
  | .wwait q c a d => wwait q c a d
  | .mloop L s a d => mloop L s a d
  | .mldb L a d => mldb L a d
  | .mrd L t a d => mrd L t a d
  | .mwm L t d => mwm L t d
  | .mzero L t => mzero L t
  | .mrel L t => mrel L t
  | .rndm b a d => rndm b a d
  | .srd r d => srd r d
  | .swr r d => swr r d
  | .tlbinv b a => tlbinv b a
  | .rotinv b a => rotinv b a
  | .cmpman a d => cmpman a d
  | .lnch a d => lnch a d
  | .chkpTake a d => chkpTake a d
  | .chkpPreempt a d => chkpPreempt a d
  | .chkpResume a d => chkpResume a d
  | .halt a => halt a
  | .icinv b a => icinv b a
  | .tlrwRd n d => tlrwRd n d
  | .tlrwWr n d => tlrwWr n d
  | .repPfx s x y z c => repPfx s x y z c
  | .modPfx f z u r o p q e => modPfx f z u r o p q e
  | .divs b a d => divs b a d
  | .divu b a d => divu b a d
  | .rems b a d => rems b a d
  | .remu b a d => remu b a d
  | .byteperm b a d => byteperm b a d
  | .ldc32 L a d => ldc32 L a d
  | .sfuComplete => sfuComplete
  | .wfence => wfence
  | .tmldApply => tmldApply
  | .loadReturn => loadReturn
  | .monitorTimeout => monitorTimeout
  | .syncb => syncb
  | .atomReturn => atomReturn
  | .exit => exit
  | .yield => yield
  | .nop => nop
  | .brk => brk
  | .gret => gret
  | .matrixPass => matrixPass
  | .mldbComplete => mldbComplete
  | .mloopComplete => mloopComplete
  | .matrixFault => matrixFault
  | .eret0 => eret0
  | .eret1 => eret1
  | .xlock => xlock
  | .xunlk => xunlk
  | .tfence => tfence
  | .barsync => barsync
  | .bundleRegroup => bundleRegroup
  | .fpxWindowEnd => fpxWindowEnd
  | .userTrapDelivery => userTrapDelivery
  | .faultRecordPost => faultRecordPost
  | .pageWalkComplete => pageWalkComplete
  | .tstatResume => tstatResume
  | .tstatSkip => tstatSkip
  | .tstatDeliver => tstatDeliver
  | .tstatEndLaunch => tstatEndLaunch
  | .fqheadWrite => fqheadWrite
  | .fqsizeWrite => fqsizeWrite
  | .meetvWrite => meetvWrite
  | .dpartWrite => dpartWrite
  | .partcfgWrite => partcfgWrite
  | .eothiWrite => eothiWrite
  | .epsmaxsetWrite => epsmaxsetWrite
  | .dlvbsetWrite => dlvbsetWrite
  | .migctlSwitch => migctlSwitch
  | .registerWrite => registerWrite
  | .asyncFlagArrival => asyncFlagArrival
  | .dirtyLineWriteback => dirtyLineWriteback
  | .homeApply => homeApply
  | .vatApply => vatApply
  | .routerMerge => routerMerge
  | .dualBackgroundCopy => dualBackgroundCopy
  | .dispatchPlace => dispatchPlace
  | .warpEnd => warpEnd
  | .launchComplete => launchComplete
  | .serialUnitStart => serialUnitStart
  | .serialStall => serialStall
  | .checkpointDue => checkpointDue
  | .checkpointSave => checkpointSave
  | .preemptRollback => preemptRollback
  | .preemptDrain => preemptDrain
  | .copyEngineStart => copyEngineStart
  | .budgetSuspend => budgetSuspend
  | .priorityTakeover => priorityTakeover
  | .budgetRefill => budgetRefill
  | .copyComplete => copyComplete
  | .enginePageFault => enginePageFault
  | .timeBeatSend => timeBeatSend
  | .timeBeatReceive => timeBeatReceive
  | .referenceLock => referenceLock
  | .deckleFail => deckleFail
  | .neighbourSilence => neighbourSilence
  | .timeExclusionNotice => timeExclusionNotice
  | .rejoin => rejoin
  | .rejoinNotice => rejoinNotice
  | .paramNotice => paramNotice
  | .paramSwitch => paramSwitch
  | .ststHoldEnd => ststHoldEnd
  | .stampedArrival => stampedArrival
  | .ldatServe => ldatServe
  | .windowRequestArrival => windowRequestArrival
  | .windowRefusal => windowRefusal
  | .windowAck => windowAck
  | .windowReadReturn => windowReadReturn
  | .flitCrcFail => flitCrcFail
  | .linkDown => linkDown
  | .portUp => portUp
  | .linkFailureNotice => linkFailureNotice
  | .hostMailboxWrite => hostMailboxWrite
  | .hostRead => hostRead
  | .powerOnBoot => powerOnBoot
  | .partitionImageStart => partitionImageStart
  | .quote => quote
  | .manifest => manifest
  | .rtread => rtread
  | .rtwrite => rtwrite
  | .rtflip => rtflip
  | .fabstat => fabstat
  | .notices => notices
  | .maintopen => maintopen
  | .maintclose => maintclose
  | .reqUnknownCommand => reqUnknownCommand
  | .partitionSleep => partitionSleep
  | .partitionWakeEvent => partitionWakeEvent
  | .wakeComplete => wakeComplete
  | .powerGovernor => powerGovernor
  | .marginLow => marginLow
  | .patrolScrub => patrolScrub
  | .machineCheck => machineCheck
  | .illegalEncoding => illegalEncoding
  | .fetchPageFault => fetchPageFault
  | .deckleTick => deckleTick
  | .servoCandidate => servoCandidate
  | .stampedStoreOutcome => stampedStoreOutcome
  | .tmResultWritten => tmResultWritten
  | .fqbaseWrite => fqbaseWrite
  | .packetHop => packetHop

end Sys2Proof.Laws.RoundTrip

namespace Sys2Proof

/-! Words and their halfwords. -/

/-- The word of an instruction of one halfword is even (R19, R22). -/
theorem encodeWord_even {i : Instr} (h : i.halves = 1) : encodeWord i % 2 = 0 := by
  cases i <;> dsimp only [Instr.halves, encodeWord] at h ⊢ <;> omega

/-- The word of an instruction of two halfwords is odd (R19, R26). -/
theorem encodeWord_odd {i : Instr} (h : i.halves = 2) : encodeWord i % 2 = 1 := by
  cases i <;> dsimp only [Instr.halves, encodeWord] at h ⊢ <;> omega

/-- The events are the rows without a word (R19). -/
theorem isEvent_eq (i : Instr) : i.isEvent = (i.halves == 0) := by
  cases i <;> rfl

theorem halves_le_two (i : Instr) : i.halves ≤ 2 := by
  cases i <;> exact Nat.le_of_ble_eq_true rfl

/-- The bits of a word above bit 31 are in none of its fields. -/
theorem field_mod (w : Nat) {hi : Nat} (lo : Nat) (h : hi < 32) : field (w % 2 ^ 32) hi lo = field w hi lo := by
  by_cases hl : lo ≤ hi
  · have hpow : 2 ^ 32 = 2 ^ lo * 2 ^ (32 - lo) := by
      rw [← Nat.pow_add]
      congr 1
      omega
    have hdvd : 2 ^ (hi + 1 - lo) ∣ 2 ^ (32 - lo) := Nat.pow_dvd_pow 2 (by omega)
    show w % 2 ^ 32 / 2 ^ lo % 2 ^ (hi + 1 - lo) = w / 2 ^ lo % 2 ^ (hi + 1 - lo)
    rw [hpow, Nat.mod_mul_right_div_self, Nat.mod_mod_of_dvd _ hdvd]
  · have hnone : hi + 1 - lo = 0 := by omega
    simp only [field, hnone, Nat.pow_zero, Nat.mod_one]

/-- A 32-bit word is decoded through its fields alone: words with the same fields decode alike (R30). -/
theorem decode32_congr {v w : Nat} (h : ∀ hi lo, hi < 32 → field v hi lo = field w hi lo) : decode32 v = decode32 w := by
  simp only [decode32, decodeMajor00, decodeMajor01, decodeMajor02, decodeMajor03, decodeMajor04, decodeMajor05,
    decodeMajor06, decodeMajor07, decodeMajor08, decodeMajor09, decodeMajor0A, decodeMajor0B, decodeMajor0C,
    decodeMajor10, decodeMajor11, decodeMajor12, decodeMajor13, decodeMajor14, decodeMajor15, decodeMajor16,
    decodeMajor17, decodeMajor18, decodeMajor19, decodeMajor1A, decodeMajor1B, decodeMajor1C, decodeMajor1D,
    decodeMajor1E, decodeMajor1F, decodeMajor20, decodeMajor21, decodeMajor22, decodeMajor23, decodeMajor24,
    decodeMajor25, decodeMajor26, decodeMajor28, decodeMajor29, decodeMajor2A, decodeMajor2C, decodeMajor2D,
    decodeMajor2E, decodeMajor2F, decodeMajor30, decodeMajor31, decodeMajor32, decodeMajor33, decodeMajor34,
    decodeMajor35, decodeMajor36, decodeMajor37, decodeMajor38, decodeMajor39, decodeMajor3A, decodeMajor3B,
    decodeMajor3C, decodeMajor3D, h, Nat.reduceLT]

theorem decodeWord_mod_of_even {w : Nat} (h : w % 2 = 0) : decodeWord (w % 2 ^ 16) = decodeWord w := by
  have heven : w % 2 ^ 16 % 2 = 0 := by omega
  have hraw : decodeRaw (w % 2 ^ 16) = decodeRaw w := by
    rw [decodeRaw, decodeRaw, if_pos heven, if_pos h]
    exact congrArg decode16 (Nat.mod_mod w 65536)
  rw [decodeWord, decodeWord, hraw]

theorem decodeWord_mod_of_odd {w : Nat} (h : w % 2 = 1) : decodeWord (w % 2 ^ 32) = decodeWord w := by
  have hodd : ¬ w % 2 ^ 32 % 2 = 0 := by omega
  have hraw : decodeRaw (w % 2 ^ 32) = decodeRaw w := by
    rw [decodeRaw, decodeRaw, if_neg hodd, if_neg (by omega), decode32_congr (fun _ lo hlt => field_mod w lo hlt)]
  rw [decodeWord, decodeWord, hraw]

/-! Words and their bytes. -/

/-- An even word is laid in two bytes, and decodes from them whatever follows (R10, R19). -/
theorem decode_leBytes_two {w : Nat} (rest : List Byte) (h : w % 2 = 0) :
    decode (leBytes 2 w ++ rest) = (decodeWord w).map fun i => (i, rest) := by
  have hlow : (BitVec.ofNat 8 w).toNat % 2 = 0 := by
    rw [BitVec.toNat_ofNat]
    omega
  have hword : leNat (leBytes 2 w) = w % 2 ^ 16 := leNat_leBytes 2 w
  simp only [leBytes] at hword
  simp only [leBytes, List.cons_append, List.nil_append, decode, if_pos hlow, hword, decodeWord_mod_of_even h]

/-- An odd word is laid in four bytes, and decodes from them whatever follows (R10, R19). -/
theorem decode_leBytes_four {w : Nat} (rest : List Byte) (h : w % 2 = 1) :
    decode (leBytes 4 w ++ rest) = (decodeWord w).map fun i => (i, rest) := by
  have hlow : ¬ (BitVec.ofNat 8 w).toNat % 2 = 0 := by
    rw [BitVec.toNat_ofNat]
    omega
  have hword : leNat (leBytes 4 w) = w % 2 ^ 32 := leNat_leBytes 4 w
  simp only [leBytes] at hword
  simp only [leBytes, List.cons_append, List.nil_append, decode, if_neg hlow, hword, decodeWord_mod_of_odd h]

/-- The bytes of an instruction decode as its word does. -/
theorem decode_encode_append {i : Instr} (rest : List Byte) (hev : i.isEvent = false) :
    decode (encode i ++ rest) = (decodeWord (encodeWord i)).map fun j => (j, rest) := by
  have hpos : i.halves ≠ 0 := by
    rw [isEvent_eq] at hev
    exact of_decide_eq_false hev
  have hcases : i.halves = 1 ∨ i.halves = 2 := by
    have hle := halves_le_two i
    omega
  rcases hcases with hone | htwo
  · rw [encode, hone]
    exact decode_leBytes_two rest (encodeWord_even hone)
  · rw [encode, htwo]
    exact decode_leBytes_four rest (encodeWord_odd htwo)

/-- Settles O3: the constructors' laws for the words, and how a word is laid in halfwords for the bytes. -/
theorem roundTrip : Obligations.RoundTrip := by
  refine ⟨Laws.RoundTrip.all, fun i rest hev hwf => ?_⟩
  rw [decode_encode_append rest hev, decodeWord_encodeWord (Laws.RoundTrip.all i) hev hwf]
  rfl

end Sys2Proof
end

section
/-!
PROOFS. Families of instructions of one shape (R23, R90, R96–R98, R106–R112, R119–R129, R132, R133, R387): each row of a table runs as
its shape, whose law gives the lanes and the frame.
-/

namespace Sys2Proof.Machine

/-- Two lane numbers are equal as integers where they are as natural numbers. -/
theorem int_beq_natCast (m n : Nat) : ((m : Int) == (n : Int)) = (m == n) := by
  rw [Bool.eq_iff_iff, beq_iff_eq, beq_iff_eq, Int.natCast_inj]

@[simp] theorem count_fpEnvRm (u : Use) (c c' : Cur) (rm : Rm) (t : Thread) :
    fpEnvRm c' rm (u.count c t) = fpEnvRm c' rm t := by
  simp only [fpEnvRm, count_fpEnv]

@[simp] theorem counted_fpEnvRm (s : State) (u : Use) (rm : Rm) (t : Thread) :
    fpEnvRm (s.counted u).cur rm t = fpEnvRm s.cur rm t := rfl

/-- Every instruction of the table is the shape `alu3`. -/
theorem exec_wordOps3 {p : (Reg → Reg → Reg → Instr) × (Word → Word → Word → Word)} (hp : p ∈ wordOps3) (b a d : Reg) (s : State) :
    exec (p.1 b a d) s = alu3 b a d p.2 s := by
  simp only [wordOps3, List.mem_cons, List.not_mem_nil, or_false] at hp
  obtain rfl | rfl | rfl | rfl | rfl | rfl | rfl | rfl | rfl | rfl | rfl | rfl | rfl | rfl | rfl | rfl | rfl | rfl | rfl | rfl | rfl | rfl | rfl | rfl | rfl | rfl | rfl | rfl | rfl | rfl := hp
  · exact exec_add b a d s
  · exact exec_sub b a d s
  · exact exec_mul b a d s
  · exact exec_mulhu b a d s
  · exact exec_mulhs b a d s
  · exact exec_mad b a d s
  · exact exec_and b a d s
  · exact exec_or b a d s
  · exact exec_xor b a d s
  · exact exec_andn b a d s
  · exact exec_shl b a d s
  · exact exec_shru b a d s
  · exact exec_shrs b a d s
  · exact exec_rotl b a d s
  · exact exec_sel b a d s
  · exact exec_mins b a d s
  · exact exec_minu b a d s
  · exact exec_maxs b a d s
  · exact exec_maxu b a d s
  · exact exec_cmpeq b a d s
  · exact exec_cmpne b a d s
  · exact exec_cmplts b a d s
  · exact exec_cmpltu b a d s
  · exact exec_cmples b a d s
  · exact exec_cmpleu b a d s
  · exact exec_bfx b a d s
  · exact exec_bfi b a d s
  · exact exec_dot8S8 b a d s
  · exact exec_dot8U8 b a d s
  · exact exec_dot4S4 b a d s

/-- Every instruction of the table is the shape `alu2` on registers v0 to v31. -/
theorem exec_wordOps16 {p : (BitVec 5 → BitVec 5 → Instr) × (Word → Word → Word)} (hp : p ∈ wordOps16) (x d : BitVec 5)
    (s : State) :
    exec (p.1 x d) s = alu2 (low5 x) (low5 d) p.2 s := by
  simp only [wordOps16, List.mem_cons, List.not_mem_nil, or_false] at hp
  obtain rfl | rfl | rfl | rfl | rfl | rfl | rfl | rfl | rfl | rfl | rfl | rfl := hp
  · exact exec_mov16 x d s
  · exact exec_add16 x d s
  · exact exec_sub16 x d s
  · exact exec_mul16 x d s
  · exact exec_and16 x d s
  · exact exec_or16 x d s
  · exact exec_xor16 x d s
  · exact exec_shl16 x d s
  · exact exec_shru16 x d s
  · exact exec_shrs16 x d s
  · exact exec_mins16 x d s
  · exact exec_maxs16 x d s

/-- Every instruction of the table is the shape `alu1`. -/
theorem exec_wordOpsImm16 {i : BitVec 5} {p : (BitVec 5 → Instr) × (Word → Word)} (hp : p ∈ wordOpsImm16 i) (d : BitVec 5)
    (s : State) :
    exec (p.1 d) s = alu1 (low5 d) p.2 s := by
  simp only [wordOpsImm16, List.mem_cons, List.not_mem_nil, or_false] at hp
  obtain rfl | rfl | rfl | rfl | rfl | rfl | rfl | rfl | rfl | rfl | rfl | rfl := hp
  · exact exec_movi16 i d s
  · exact exec_addi16 i d s
  · exact exec_subi16 i d s
  · exact exec_muli16 i d s
  · exact exec_andi16 i d s
  · exact exec_ori16 i d s
  · exact exec_xori16 i d s
  · exact exec_shli16 i d s
  · exact exec_shrui16 i d s
  · exact exec_shrsi16 i d s
  · exact exec_minsi16 i d s
  · exact exec_maxsi16 i d s

/-- Every instruction of the table is the shape `fp3`. -/
theorem exec_floatOps3 {p : (Reg → Reg → Reg → Instr) × (FpEnv → Nat → Nat → Nat → FpOut)} (hp : p ∈ floatOps3) (b a d : Reg)
    (s : State) :
    exec (p.1 b a d) s = fp3 b a d p.2 s := by
  simp only [floatOps3, List.mem_cons, List.not_mem_nil, or_false] at hp
  obtain rfl | rfl | rfl | rfl | rfl | rfl | rfl | rfl | rfl | rfl | rfl | rfl | rfl | rfl | rfl | rfl | rfl | rfl | rfl | rfl | rfl | rfl | rfl | rfl | rfl | rfl | rfl := hp
  · exact exec_fadd b a d s
  · exact exec_fsub b a d s
  · exact exec_fmul b a d s
  · exact exec_ffma b a d s
  · exact exec_ffms b a d s
  · exact exec_fnfma b a d s
  · exact exec_fmin b a d s
  · exact exec_fmax b a d s
  · exact exec_fscalebB0 b a d s
  · exact exec_fscalebB1 b a d s
  · exact exec_fscalebB2 b a d s
  · exact exec_fscalebB3 b a d s
  · exact exec_hadd2 b a d s
  · exact exec_hsub2 b a d s
  · exact exec_hmul2 b a d s
  · exact exec_hfma2 b a d s
  · exact exec_hmin2 b a d s
  · exact exec_hmax2 b a d s
  · exact exec_badd2 b a d s
  · exact exec_bsub2 b a d s
  · exact exec_bmul2 b a d s
  · exact exec_bfma2 b a d s
  · exact exec_bmin2 b a d s
  · exact exec_bmax2 b a d s
  · exact exec_dot8E4m3 b a d s
  · exact exec_dot8E5m2 b a d s
  · exact exec_dot4E2m1 b a d s

/-- Every instruction of the table is the shape `fp2`. -/
theorem exec_floatOps2 {p : (Reg → Reg → Instr) × (FpEnv → Nat → FpOut)} (hp : p ∈ floatOps2) (a d : Reg) (s : State) :
    exec (p.1 a d) s = fp2 a d p.2 s := by
  simp only [floatOps2, List.mem_cons, List.not_mem_nil, or_false] at hp
  obtain rfl | rfl | rfl | rfl := hp
  · exact exec_frnd a d s
  · exact exec_fcls a d s
  · exact exec_fabs a d s
  · exact exec_fneg a d s

/-- Every instruction of the table is the shape `fp16`. -/
theorem exec_floatOps16 {p : (BitVec 5 → BitVec 5 → Instr) × (FpEnv → Nat → Nat → FpOut)} (hp : p ∈ floatOps16) (x d : BitVec 5)
    (s : State) :
    exec (p.1 x d) s = fp16 x d p.2 s := by
  simp only [floatOps16, List.mem_cons, List.not_mem_nil, or_false] at hp
  obtain rfl | rfl | rfl | rfl := hp
  · exact exec_fadd16 x d s
  · exact exec_fsub16 x d s
  · exact exec_fmul16 x d s
  · exact exec_fmax16 x d s

/-- Every instruction of the table is the shape `fpd3`. -/
theorem exec_doubleOps3 {p : (Reg → Reg → Reg → Instr) × (FpEnv → Nat → Nat → Nat → FpOut)} (hp : p ∈ doubleOps3) (b a d : Reg)
    (s : State) :
    exec (p.1 b a d) s = fpd3 b a d p.2 s := by
  simp only [doubleOps3, List.mem_cons, List.not_mem_nil, or_false] at hp
  obtain rfl | rfl | rfl | rfl | rfl | rfl := hp
  · exact exec_dadd b a d s
  · exact exec_dsub b a d s
  · exact exec_dmul b a d s
  · exact exec_dfma b a d s
  · exact exec_dmin b a d s
  · exact exec_dmax b a d s

/-- Every instruction of the table is the shape `fpd2`. -/
theorem exec_doubleOps2 {p : (Reg → Reg → Instr) × (FpEnv → Nat → FpOut)} (hp : p ∈ doubleOps2) (a d : Reg) (s : State) :
    exec (p.1 a d) s = fpd2 a d p.2 s := by
  simp only [doubleOps2, List.mem_cons, List.not_mem_nil, or_false] at hp
  obtain rfl | rfl | rfl := hp
  · exact exec_drnd a d s
  · exact exec_dabs a d s
  · exact exec_dneg a d s

/-- Every instruction of the table is the shape `compat`. -/
theorem exec_compatOps {p : (Reg → Reg → Reg → Instr) × (Word → Word → Word → Word)} (hp : p ∈ compatOps) (b a d : Reg)
    (s : State) :
    exec (p.1 b a d) s = compat b a d p.2 s := by
  simp only [compatOps, List.mem_cons, List.not_mem_nil, or_false] at hp
  obtain rfl | rfl | rfl | rfl | rfl := hp
  · exact exec_divs b a d s
  · exact exec_divu b a d s
  · exact exec_rems b a d s
  · exact exec_remu b a d s
  · exact exec_byteperm b a d s

/-- Every instruction of the table is the shape `gather`. -/
theorem exec_gatherOps {p : (Reg → Reg → Instr) × (Nat → Nat → Bool) × (Nat → Word → List (Nat × Word) → Word)} (hp : p ∈ gatherOps)
    (a d : Reg) (s : State) :
    exec (p.1 a d) s = gather a d p.2.1 p.2.2 s := by
  simp only [gatherOps, List.mem_cons, List.not_mem_nil, or_false] at hp
  obtain rfl | rfl | rfl | rfl | rfl | rfl | rfl | rfl | rfl | rfl | rfl | rfl := hp
  · exact exec_voteAny a d s
  · exact exec_voteAll a d s
  · exact exec_voteBal a d s
  · exact exec_matchB a d s
  · exact exec_matchF a d s
  · exact exec_redwAdd a d s
  · exact exec_redwMin a d s
  · exact exec_redwMax a d s
  · exact exec_scanwAdd a d s
  · exact exec_qredAdd a d s
  · exact exec_qredMin a d s
  · exact exec_qredMax a d s

/-- Every instruction of the table is a shuffle whose source lane is the table's. -/
theorem exec_shuffleOps3 {p : (Reg → Reg → Reg → Instr) × (Nat → Nat → Nat → List (Nat × Word) → Int)} (hp : p ∈ shuffleOps3)
    (b a d : Reg) (s : State) :
    exec (p.1 b a d) s = shuffle (Use.f3 b a d) a d (fun s l t => p.2 s.tileCode l (t.nat (s.reg .vb b)) (s.values (s.reg .vb b))) s := by
  simp only [shuffleOps3, List.mem_cons, List.not_mem_nil, or_false] at hp
  obtain rfl | rfl | rfl | rfl | rfl := hp
  · exact exec_shfl b a d s
  · exact exec_shfllo b a d s
  · exact exec_shflhi b a d s
  · exact exec_shflx b a d s
  · exact exec_bcast b a d s

/-- Every instruction of the table is a shuffle whose source lane is the table's. -/
theorem exec_shuffleOps2 {n : BitVec 7} {p : (Reg → Reg → Instr) × (Nat → Nat)} (hp : p ∈ shuffleOps2 n) (a d : Reg) (s : State) :
    exec (p.1 a d) s = shuffle (Use.f2 a d) a d (fun _ l _ => (p.2 l : Nat)) s := by
  simp only [shuffleOps2, List.mem_cons, List.not_mem_nil, or_false] at hp
  obtain rfl | rfl | rfl | rfl := hp
  · exact exec_qswpH a d s
  · exact exec_qswpV a d s
  · exact exec_qswpD a d s
  · exact exec_qbcast n a d s

/-- Every instruction of the table is the shape `sfu00`. -/
theorem exec_sfuOps00 {p : (BitVec 4 → Reg → Reg → Instr) × SfuOp} (hp : p ∈ sfuOps00) (L : BitVec 4) (a d : Reg) (s : State) :
    exec (p.1 L a d) s = sfu00 p.2 L a d s := by
  simp only [sfuOps00, List.mem_cons, List.not_mem_nil, or_false] at hp
  obtain rfl | rfl | rfl | rfl | rfl | rfl | rfl | rfl := hp
  · exact exec_frcp L a d s
  · exact exec_frsq L a d s
  · exact exec_fsqrt L a d s
  · exact exec_fexp2 L a d s
  · exact exec_flog2 L a d s
  · exact exec_fsin L a d s
  · exact exec_fcos L a d s
  · exact exec_ftanh L a d s

/-- Every instruction of the table is the shape `sfu01`. -/
theorem exec_sfuOps01 {p : (Rm → BitVec 4 → Reg → Reg → Instr) × SfuOp} (hp : p ∈ sfuOps01) (rm : Rm) (L : BitVec 4) (a d : Reg) (s : State) :
    exec (p.1 rm L a d) s = sfu01 p.2 L rm a d s := by
  simp only [sfuOps01, List.mem_cons, List.not_mem_nil, or_false] at hp
  obtain rfl | rfl | rfl := hp
  · exact exec_frcpCr rm L a d s
  · exact exec_frsqCr rm L a d s
  · exact exec_fsqrtCr rm L a d s

/-- Every instruction of the table is the shape `sfu10`. -/
theorem exec_sfuOps10 {p : (Rm → BitVec 4 → Reg → Reg → Instr) × SfuOp} (hp : p ∈ sfuOps10) (rm : Rm) (L : BitVec 4) (a d : Reg) (s : State) :
    exec (p.1 rm L a d) s = sfu10 p.2 L rm a d s := by
  simp only [sfuOps10, List.mem_cons, List.not_mem_nil, or_false] at hp
  obtain rfl | rfl | rfl := hp
  · exact exec_drcp rm L a d s
  · exact exec_drsq rm L a d s
  · exact exec_dsqrt rm L a d s

/-- Every instruction of the table is the shape `fredw`. -/
theorem exec_fredwOps {p : (Reg → Reg → Instr) × (FpEnv → Nat → Nat → FpOut)} (hp : p ∈ fredwOps) (a d : Reg) (s : State) :
    exec (p.1 a d) s = fredw a d p.2 s := by
  simp only [fredwOps, List.mem_cons, List.not_mem_nil, or_false] at hp
  obtain rfl | rfl | rfl := hp
  · exact exec_fredwAdd a d s
  · exact exec_fredwMin a d s
  · exact exec_fredwMax a d s

/-- Settles O7: a row of the table runs as `alu3`. -/
theorem threeRegisterArithmetic : Obligations.ThreeRegisterArithmetic := by
  intro p hp b a d s h
  rw [exec_wordOps3 hp]
  exact alu3_run b a d p.2 s h

/-- Settles O9: a row of the first table runs as `alu2` and one of the second as `alu1`. -/
theorem shortArithmetic : Obligations.ShortArithmetic := by
  refine ⟨fun p hp x d s h => ?_, fun i p hp d s h => ?_⟩
  · rw [exec_wordOps16 hp]
    exact alu2_run (low5 x) (low5 d) p.2 s h
  · rw [exec_wordOpsImm16 hp]
    exact alu1_run (low5 d) p.2 s h

/-- Settles O11: the rows of the three tables run as `fp3`, `fp2` and `fp16`. -/
theorem fp32Arithmetic : Obligations.Fp32Arithmetic := by
  refine ⟨fun p hp b a d s h => ?_, fun p hp a d s h => ?_, fun p hp x d s h => ?_⟩
  · rw [exec_floatOps3 hp]
    exact fp3_run b a d p.2 s h
  · rw [exec_floatOps2 hp]
    exact fp2_run a d p.2 s h
  · rw [exec_floatOps16 hp]
    exact fp16_run x d p.2 s h

/-- Settles O12: the rows of the two tables run as `fpd3` and `fpd2`. -/
theorem fp64Arithmetic : Obligations.Fp64Arithmetic := by
  refine ⟨fun p hp b a d s h => ?_, fun p hp a d s h => ?_⟩
  · rw [exec_doubleOps3 hp]
    exact fpd3_run b a d p.2 s h
  · rw [exec_doubleOps2 hp]
    exact fpd2_run a d p.2 s h

/-- Settles O14: a row of either table runs as a shuffle whose source lane the bundle's values and the lane's vb give, which
counting in the windows does not change. -/
theorem shuffles : Obligations.Shuffles := by
  refine ⟨fun p hp b a d s h => ?_, fun n p hp a d s h => ?_⟩
  · rw [exec_shuffleOps3 hp]
    refine shuffle_run (Use.f3 b a d) a d
      (fun s l t => p.2 s.tileCode l (t.nat (s.reg .vb b)) (s.values (s.reg .vb b))) s h (fun l th => ?_)
    simp only [counted_tileCode, counted_values, counted_reg, count_nat]
  · rw [exec_shuffleOps2 hp]
    obtain ⟨t, hexec, honly, hlanes⟩ :=
      shuffle_run (Use.f2 a d) a d (fun _ l _ => ((p.2 l : Nat) : Int)) s h (fun _ _ => rfl)
    refine ⟨t, hexec, honly, ?_⟩
    simp only [int_beq_natCast] at hlanes
    exact hlanes

/-- Settles O15: a row of the table runs as `gather`. -/
theorem votesAndReductions : Obligations.VotesAndReductions := by
  intro p hp a d s h
  rw [exec_gatherOps hp]
  exact gather_run a d p.2.1 p.2.2 s h

/-- Settles O16: a row of the table runs as `compat`. -/
theorem routineArithmetic : Obligations.RoutineArithmetic := by
  intro p hp b a d s u h
  rw [exec_compatOps hp]
  exact compat_run b a d p.2 s h

/-- Settles O17: the rows of the three tables are special functions whose results the lane's registers and environment give,
which counting in the windows does not change. -/
theorem specialFunctions : Obligations.SpecialFunctions := by
  refine ⟨fun p hp L a d s h => ?_, fun p hp rm L a d s h => ?_, fun p hp rm L a d s h => ?_⟩
  · rw [exec_sfuOps00 hp]
    refine sfu_run s _ L _ (fun s t => sfuApprox p.2 (fpEnv s.cur t) (t.nat (s.reg .va a))) _ h rfl (fun t => ?_) rfl
    simp only [count_fpEnv, counted_fpEnv, count_nat, counted_reg]
  · rw [exec_sfuOps01 hp]
    refine sfu_run s _ L _ (fun s t => sfuRounded p.2 .f32 (fpEnvRm s.cur rm t) (t.nat (s.reg .va a))) _ h rfl
      (fun t => ?_) rfl
    simp only [count_fpEnvRm, counted_fpEnvRm, count_nat, counted_reg]
  · rw [exec_sfuOps10 hp]
    refine sfu_run s _ L _ (fun s t => sfuRounded p.2 .f64 (fpEnvRm s.cur rm t) (t.nat64 (s.reg .va a))) _ h rfl
      (fun t => ?_) rfl
    simp only [count_fpEnvRm, counted_fpEnvRm, count_nat64, counted_reg]

end Sys2Proof.Machine
end

section
/-!
PROOFS. Instructions that change their active lanes by registers and an environment (R42, R96, R103, R104, R110, R113–R117): counting in
the windows changes neither.
-/

namespace Sys2Proof.Machine

/-- Adding an integer that a word holds is adding the word sign-extended. -/
theorem addPair_toInt {n : Nat} (a : DWord) (x : BitVec n) : addPair a x.toInt = a + x.signExtend 64 := rfl

@[simp] theorem count_ownPc (s : State) (u : Use) (c : Cur) (t : Thread) : s.ownPc (u.count c t) = s.ownPc t := by
  simp only [State.ownPc, count_pc]

/-- An instruction whose whole effect is a change of its active lanes, which it makes from the lane and the rest of the machine
as they were before it counted in the windows. -/
theorem issue_mapActive (s : State) (u : Use) (g : State → Nat → Thread → Thread) (g' : Nat → Thread → Thread → Thread)
    (h : s.canIssue u = true) (hg : ∀ l th, g (s.counted u) l (u.count s.cur th) = g' l th (u.count s.cur th)) :
    ∃ t, s.issue u (fun x => .next (x.mapActive (g x)).finish) = .next t ∧ OnlyLanes s t ∧
      LaneStep s t (fun l th => u.ran s.cur (g' l th) th) := by
  have hrun := finish_run s u (fun x => .next (x.mapActive (g x)).finish) (g (s.counted u)) h rfl
  simpa only [Use.ran, hg] using hrun

/-- Settles O10: each is a change of its active lanes by registers that counting in the windows does not change. -/
theorem pairsAndIndexedMoves : Obligations.PairsAndIndexedMoves := by
  refine ⟨fun b a d s h => ?_, fun i a d s h => ?_, fun i d s h => ?_, fun a d s h => ?_, fun a d s h => ?_⟩
  · rw [exec_addp, execAddp]
    refine issue_mapActive s _ _ _ h (fun l th => ?_)
    simp only [counted_reg, count_pair, count_get, addPair_toInt]
  · rw [exec_addpi, execAddpi]
    refine issue_mapActive s _ _ _ h (fun l th => ?_)
    simp only [counted_reg, count_pair, addPair_toInt]
  · rw [exec_auip, execAuip]
    refine issue_mapActive s _ _ _ h (fun l th => ?_)
    simp only [counted_reg, counted_ownPc, count_ownPc]
  · refine issue_mapActive s _ (fun x _ t => t.set (x.reg .vd d) (t.get (t.nat (s.reg .va a))))
      (fun _ th x => x.set (s.reg .vd d) (th.get (th.nat (s.reg .va a)))) h (fun l th => ?_)
    simp only [counted_reg, count_get, count_nat]
  · refine issue_mapActive s _ (fun x _ t => t.set (t.nat (s.reg .vd d)) (t.get (x.reg .va a)))
      (fun _ th x => x.set (th.nat (s.reg .vd d)) (th.get (s.reg .va a))) h (fun l th => ?_)
    simp only [counted_reg, count_get, count_nat]

/-- Settles O13: each is a change of its active lanes by registers and an environment that counting in the windows does not
change. -/
theorem comparesAndConversions : Obligations.ComparesAndConversions := by
  refine ⟨fun cc sig b a d s h => ?_, fun cc sig b a d s h => ?_, ?_⟩
  · rw [exec_fcmp, execFcmp]
    refine issue_mapActive s _ _ _ h (fun l th => ?_)
    simp only [counted_reg, counted_fpEnv, count_fpEnv, count_nat]
  · rw [exec_dcmp, execDcmp]
    refine issue_mapActive s _ _ _ h (fun l th => ?_)
    simp only [counted_reg, counted_fpEnv, count_fpEnv, count_nat64]
  · intro sat rm src dst a d s u h
    rw [exec_cvt, execCvt]
    refine issue_mapActive s u _ _ h (fun l th => ?_)
    simp only [counted_reg, counted_fpEnvRm, count_fpEnvRm, count_nat, count_nat64]

end Sys2Proof.Machine
end

section
/-!
PROOFS. Tiles (R91, R130, R134) and control transfers (R136, R137): the reduction tree, the targets and the tests of a lane are the same
after counting in the windows.
-/

namespace Sys2Proof.Machine

/-! Tiles. -/

/-- A change of the issuing warp that changes nothing. -/
theorem modWarp_id (s : State) : s.modWarp (fun w => w) = s := by
  simp only [State.modWarp, State.modWarpAt, State.modCore, tmod_id]

/-- Settles O18: the reduction tree of a bundle is the same after counting in the windows, and TILEP changes the warp's tiles
besides its lanes. -/
theorem tileReductions : Obligations.TileReductions := by
  refine ⟨fun p hp a d s h => ?_, fun n d s w h hw => ?_⟩
  · rw [exec_fredwOps hp]
    refine finish_run s _ _ (fun l x => match (s.treeOf p.2 (s.reg .va a)).find? (fun q => q.1 == l) with
      | some q => x.putFp32 (s.reg .vd d) ⟨q.2.1, q.2.2⟩
      | none => x) h ?_
    rw [← tree_counted s (Use.f2 a d).fp p.2 (s.reg .va a)]
    rfl
  · rw [exec_tilep, execTilep]
    refine warp_run s _ _ (fun _ x => x.set (s.reg .vd d) w.partn)
      (fun x => { x with partn := if s.live.isEmpty then x.partn else n.setWidth 32 }) h ?_ (fun _ => rfl) (fun _ => rfl)
    have hlive : (s.counted { opds := [.one .vd d], rep := true }).live.isEmpty = s.live.isEmpty := by
      rw [live_counted, List.isEmpty_map]
    rw [warp_counted, hw]
    cases he : s.live.isEmpty with
    | false => simp only [hlive, he]; rfl
    | true =>
      have hid := modWarp_id ((s.counted { opds := [.one .vd d], rep := true }).mapActive fun _ x => x.set (s.reg .vd d) w.partn)
      simp only [hlive, he, if_true, hid]
      rfl

/-! Branches. -/

theorem branchTarget_count (s : State) (u v : Use) (c : Cur) (t : Thread) (x : Int) :
    branchTarget (s.counted u) (v.count c t) x = branchTarget s t x := by
  simp only [branchTarget, counted_ownPc, count_ownPc]

theorem branchTarget_set (s : State) (t : Thread) (n : Nat) (v : Word) (x : Int) :
    branchTarget s (t.set n v) x = branchTarget s t x := rfl

theorem nextPc_count (s : State) (u v : Use) (c : Cur) (t : Thread) : (s.counted u).nextPc (v.count c t) = s.nextPc t := by
  simp only [State.nextPc, counted_ownPc, count_ownPc]
  rfl

/-- A control transfer that changes no lane but its PC, to a target it takes from the lane and the machine as they were before
the lane counted in the windows. -/
theorem issue_finishAt (s : State) (u : Use) (target : State → Nat → Thread → Word) (target' : Nat → Thread → Word)
    (h : s.canIssue u = true) (ht : ∀ l th, target (s.counted u) l (u.count s.cur th) = target' l th) :
    ∃ t, s.issue u (fun x => .next (x.finishAt (target x))) = .next t ∧ OnlyLanes s t ∧
      LaneStep s t (fun l th => u.jumped s.cur id (target' l th) th) := by
  have hrun := jump_run s u (fun x => .next (x.finishAt (target x))) (fun _ t => t) (target (s.counted u)) h
    (by rw [mapActive_id])
  simpa only [Use.jumped, id_eq, ht] using hrun

/-- Settles O20: each is a control transfer whose target the lane's own PC and register give. -/
theorem branches : Obligations.Branches := by
  refine ⟨fun i s h => ?_, fun i p s h => ⟨?_, ?_⟩⟩
  · rw [exec_bra, execBra]
    refine issue_finishAt s _ _ _ h (fun l th => ?_)
    rw [branchTarget_count]
  · rw [exec_bz, execBz]
    refine issue_finishAt s _ _ _ h (fun l th => ?_)
    rw [branchTarget_count, nextPc_count, count_get]
  · rw [exec_bnz, execBnz]
    refine issue_finishAt s _ _ _ h (fun l th => ?_)
    rw [branchTarget_count, nextPc_count, count_get, ite_not]

/-- The address a lane returns to is odd, as RET tests it. -/
theorem bit_zero_nat (a : Nat) : (fun t : Thread => bit (t.nat a) 0) = fun t => t.nat a % 2 == 1 := by
  funext t
  exact Nat.testBit_zero _

/-- RET with an odd return address, after the checks of R44. -/
theorem ret_odd (a : Reg) (s : State) (h : s.canIssue (Use.flow [.one .va a]) = true) {l : Nat}
    (hbad : firstBad s.active (fun t => t.nat a.toNat % 2 == 1) = some l) :
    exec (.ret a) s = .next ((s.counted (Use.flow [.one .va a])).fault .align l 0 0) := by
  rw [exec_ret, execRet, issue_runs s _ _ h, bit_zero_nat, firstBad_counted _ _ _ (fun t => by rw [count_nat]), hbad]

/-- RET with no odd return address, after the checks of R44. -/
theorem ret_even (a : Reg) (s : State) (h : s.canIssue (Use.flow [.one .va a]) = true)
    (hgood : firstBad s.active (fun t => t.nat a.toNat % 2 == 1) = none) :
    exec (.ret a) s = s.issue (Use.flow [.one .va a]) (fun x => .next (x.finishAt (fun _ t => t.get a.toNat))) := by
  rw [exec_ret, execRet, issue_runs s _ _ h, issue_runs s _ _ h, bit_zero_nat,
    firstBad_counted _ _ _ (fun t => by rw [count_nat]), hgood]

/-- Settles O21: the return address of CALL is the PC past it; an odd one stops RET before any lane changes. -/
theorem callsAndReturns : Obligations.CallsAndReturns := by
  refine ⟨fun i d s h => ?_, fun a s h => ⟨fun hall => ?_, fun l hbad => ?_⟩⟩
  · have hrun := jump_run s (Use.flow [.one .vd d])
      (fun x => .next ((x.mapActive (fun _ t => t.set d.toNat (x.nextPc t))).finishAt (fun _ t => branchTarget x t i.toInt)))
      _ _ h rfl
    simp only [Use.jumped, branchTarget_set, branchTarget_count, nextPc_count] at hrun ⊢
    exact hrun
  · have hnone : firstBad s.active (fun t => t.nat a.toNat % 2 == 1) = none := by
      rw [firstBad, Option.map_eq_none_iff, List.find?_eq_none]
      intro p hp hodd
      have heven := List.all_eq_true.mp hall p hp
      rw [beq_iff_eq] at heven hodd
      omega
    rw [ret_even a s h hnone]
    exact issue_finishAt s _ (fun _ _ t => t.get a.toNat) (fun _ th => th.get a.toNat) h (fun _ th => count_get _ _ th _)
  · exact ret_odd a s h hbad

end Sys2Proof.Machine
end

section
/-!
PROOFS. Meeting groups (R52, R53, R142): the end of a unit clears the MEETV of a thread exactly where every member of its group is
parked.
-/

namespace Sys2Proof.Machine

/-! MEETVs after the end of a unit (R53). -/

/-- A thread whose meeting group is released: it has not exited, and every member of its group is parked. -/
def Warp.meets (w : Warp) (th : Thread) : Bool := !th.exited && (w.meeting th.meetv).all (fun p => p.2.parked)

/-- All of a meeting group is parked, lane by lane of the warp. -/
theorem meeting_all (w : Warp) (a : Word) : (w.meeting a).all (fun p => p.2.parked) =
    w.threads.all (fun p => !(!p.2.exited && p.2.meetv == a) || p.2.parked) := by
  rw [meeting_eq, List.all_filter]

/-- A thread without a meeting address is not parked. -/
theorem parked_of_no_meetv {th : Thread} (h : th.meetv = 0xFFFFFFFF) : th.parked = false := by
  simp [Thread.parked, h]

/-- A thread of the warp is a member of its own meeting group. -/
theorem meets_parked {w : Warp} {l : Nat} {th : Thread} (h : tget w.threads l = some th) (hm : w.meets th = true) :
    th.parked = true := by
  simp only [Warp.meets, Bool.and_eq_true] at hm
  obtain ⟨hex, hall⟩ := hm
  have hmem : (l, th) ∈ w.meeting th.meetv := by
    rw [meeting_eq]
    exact List.mem_filter.mpr ⟨mem_of_tget _ _ _ h, by simp [hex]⟩
  exact List.all_eq_true.mp hall (l, th) hmem

theorem meets_of_no_meetv {w : Warp} {l : Nat} {th : Thread} (h : tget w.threads l = some th)
    (hnone : th.meetv = 0xFFFFFFFF) : w.meets th = false := by
  cases hm : w.meets th with
  | false => rfl
  | true =>
    have hp := meets_parked h hm
    rw [parked_of_no_meetv hnone] at hp
    exact hp.symm

/-- Releasing the address of a group that may be released clears the MEETV of each of its threads, and of no other. -/
theorem tget_releaseAt (c : Nat) (w : Warp) (a : Word) (l : Nat) (th : Thread) (h : tget w.threads l = some th) :
    tget (w.releaseAt c a).threads l =
      some (if w.meets th && th.meetv == a then { th with meetv := 0xFFFFFFFF } else th) := by
  cases hm : w.meets th && th.meetv == a with
  | true =>
    simp only [Bool.and_eq_true, beq_iff_eq] at hm
    obtain ⟨hmeets, rfl⟩ := hm
    have hne : th.meetv ≠ 0xFFFFFFFF := fun hnone => by simp [meets_of_no_meetv h hnone] at hmeets
    simp only [Warp.meets, Bool.and_eq_true, Bool.not_eq_true'] at hmeets
    obtain ⟨hex, hall⟩ := hmeets
    have hmem : (l, th) ∈ w.meeting th.meetv := by
      rw [meeting_eq]
      exact List.mem_filter.mpr ⟨mem_of_tget _ _ _ h, by simp [hex]⟩
    have hcond : (th.meetv != 0xFFFFFFFF && !(w.meeting th.meetv).isEmpty &&
        (w.meeting th.meetv).all (fun p => p.2.parked)) = true := by
      rw [Bool.and_eq_true, Bool.and_eq_true]
      exact ⟨⟨bne_iff_ne.mpr hne, by simp [List.ne_nil_of_mem hmem]⟩, hall⟩
    simp only [Warp.releaseAt, hcond, if_true]
    rw [tget_map w.threads (fun _ (t : Thread) => if !t.exited && t.meetv == th.meetv then { t with meetv := 0xFFFFFFFF } else t) l, h]
    simp [hex]
  | false =>
    unfold Warp.releaseAt
    dsimp only
    split
    · rename_i hcond
      have hall := (Bool.and_eq_true _ _ ▸ hcond : _ ∧ _).2
      have hstays : (!th.exited && th.meetv == a) = false := by
        by_contra hmem
        rw [Bool.not_eq_false, Bool.and_eq_true, beq_iff_eq] at hmem
        obtain ⟨hex, rfl⟩ := hmem
        simp [Warp.meets, hex, hall] at hm
      rw [tget_map w.threads (fun _ (t : Thread) => if !t.exited && t.meetv == a then { t with meetv := 0xFFFFFFFF } else t) l, h]
      simp only [Option.map_some, hstays, Bool.false_eq_true, if_false]
    · exact h

theorem releaseAt_of_not_parked (c : Nat) (w : Warp) (a : Word) (h : (w.meeting a).all (fun p => p.2.parked) = false) :
    w.releaseAt c a = w := by
  simp [Warp.releaseAt, h]

/-- Releasing one address leaves what the group of another thread is as it was. -/
theorem meets_releaseAt (c : Nat) (w : Warp) (a : Word) {l : Nat} {th : Thread} (h : tget w.threads l = some th)
    (hn : (w.meets th && th.meetv == a) = false) : (w.releaseAt c a).meets th = w.meets th := by
  by_cases ha : th.meetv = a
  · subst ha
    have hm : w.meets th = false := by simpa using hn
    cases hex : th.exited with
    | true => simp [Warp.meets, hex]
    | false =>
      have hall : (w.meeting th.meetv).all (fun p => p.2.parked) = false := by simpa [Warp.meets, hex] using hm
      rw [releaseAt_of_not_parked c w _ hall]
  · by_cases hnone : th.meetv = 0xFFFFFFFF
    · have h' := tget_releaseAt c w a l th h
      rw [hn, if_neg Bool.false_ne_true] at h'
      rw [meets_of_no_meetv h hnone, meets_of_no_meetv h' hnone]
    · rw [Warp.meets, Warp.meets, meeting_releaseAt c w a _ hnone (Ne.symm ha)]

theorem releases_meetv (c : Nat) (ms : List Word) (w : Warp) (l : Nat) (th : Thread) (h : tget w.threads l = some th) :
    ∃ y, tget (ms.foldl (Warp.releaseAt c) w).threads l = some y ∧
      y.meetv = if w.meets th && decide (th.meetv ∈ ms) then 0xFFFFFFFF else th.meetv := by
  induction ms generalizing w th with
  | nil => exact ⟨th, h, by simp⟩
  | cons a ms ih =>
    rw [List.foldl_cons]
    have h' := tget_releaseAt c w a l th h
    cases hr : w.meets th && th.meetv == a with
    | true =>
      rw [hr] at h'
      obtain ⟨y, hy, hmeet⟩ := ih _ _ h'
      refine ⟨y, hy, hmeet.trans ?_⟩
      simp only [Bool.and_eq_true, beq_iff_eq] at hr
      simp [hr.1, hr.2]
    | false =>
      rw [hr] at h'
      obtain ⟨y, hy, hmeet⟩ := ih _ _ h'
      refine ⟨y, hy, hmeet.trans ?_⟩
      rw [if_neg Bool.false_ne_true, meets_releaseAt c w a h hr]
      cases hm : w.meets th with
      | false => simp
      | true =>
        have hne : th.meetv ≠ a := by simpa [hm] using hr
        simp [hne]

/-- After the end of a unit a thread's MEETV is cleared where every member of its meeting group is parked (R53). -/
theorem settle_meetv (w : Warp) (m : Mask) (c l : Nat) (th : Thread) (h : tget w.threads l = some th) :
    ∃ y, tget (w.settle m c).threads l = some y ∧ y.meetv = if w.meets th then 0xFFFFFFFF else th.meetv := by
  obtain ⟨y, hy, hmeet⟩ := releases_meetv c ((w.split m c).running.map (·.2.meetv)) (w.split m c) l th h
  refine ⟨y, hy, hmeet.trans ?_⟩
  have hsame : (w.split m c).meets th = w.meets th := rfl
  rw [hsame]
  cases hm : w.meets th with
  | false => rfl
  | true =>
    have hex : th.exited = false := by
      simp only [Warp.meets, Bool.and_eq_true, Bool.not_eq_true'] at hm
      exact hm.1
    have hmem : th.meetv ∈ (w.split m c).running.map (·.2.meetv) :=
      List.mem_map.mpr ⟨(l, th), List.mem_filter.mpr ⟨mem_of_tget _ _ _ h, by simp [hex]⟩, rfl⟩
    simp [hmem]

/-! MEET. -/

/-- What of a thread decides when its meeting group is released. -/
def Thread.meetKey (t : Thread) : Word × Word × Bool := (t.pc, t.meetv, t.exited)

theorem meeting_all_congr {v w : Warp} (h : v.threads.map (fun p => p.2.meetKey) = w.threads.map (fun p => p.2.meetKey))
    (a : Word) : (v.meeting a).all (fun p => p.2.parked) = (w.meeting a).all (fun p => p.2.parked) := by
  have hkey : ∀ x : Warp, (x.meeting a).all (fun p => p.2.parked) = (x.threads.map (fun p => p.2.meetKey)).all
      (fun k => !(!k.2.2 && k.2.1 == a) || (!k.2.2 && k.2.1 != 0xFFFFFFFF && k.1 == k.2.1)) := fun x => by
    rw [meeting_all, List.all_map]
    rfl
  rw [hkey, hkey, h]

theorem uncount_meetKey (c : Cur) (l : Nat) (t : Thread) : (c.uncount l t).meetKey = t.meetKey := by
  obtain ⟨hpc, hmeetv, _, _, hex⟩ := uncount_keep c l t
  simp only [Thread.meetKey, hpc, hmeetv, hex]

/-- The warp of the issuing bundle before its unit's end is settled, where the unit has changed its lanes by `g`. -/
def State.warpRan (s : State) (w : Warp) (u : Use) (g : Thread → Thread) : Warp :=
  (({ (w.mapLanes s.cur.mask (fun _ th => u.count s.cur th)).mapLanes s.cur.mask (fun _ th => g th) with
      lastTick := s.deckle.tick } : Warp)).mapLanes s.cur.mask ((s.counted u).cur.ends (fun _ t => t.advance s.cur))

/-- Its threads are those that `ran` makes, but for how the counting of a lane stopped for FPX is kept. -/
theorem warpRan_meetKey (s : State) (w : Warp) (u : Use) (g : Thread → Thread) :
    (s.warpRan w u g).threads.map (fun p => p.2.meetKey) =
      (w.mapLanes s.cur.mask (fun _ th => u.ran s.cur g th)).threads.map (fun p => p.2.meetKey) := by
  simp only [State.warpRan, Warp.mapLanes, List.map_map]
  refine List.map_congr_left fun p _ => ?_
  simp only [Function.comp_apply]
  by_cases hl : laneIn s.cur.mask p.1 = true
  · simp only [hl, if_true, Use.ran, Thread.after, Cur.ends]
    split
    · have hkeep := uncount_meetKey (s.counted u).cur p.1 (g (u.count s.cur p.2))
      exact hkeep
    · rfl
  · simp only [hl, Bool.false_eq_true, if_false]

theorem tget_warpRan (s : State) (w : Warp) (u : Use) (g : Thread → Thread) (hw : s.warp? = some w) (l : Nat) :
    tget (s.warpRan w u g).threads l = tget (w.mapLanes s.cur.mask (fun _ th => u.ran s.cur g th)).threads l := by
  simp only [State.warpRan, tget_mapLanes, Option.map_map]
  cases ht : tget w.threads l with
  | none => rfl
  | some th =>
    by_cases hl : laneIn s.cur.mask l = true
    · simp only [Option.map_some, Function.comp_apply, hl, if_true, Use.ran, Thread.after, Cur.ends,
        uncount_counted s u w hw l th _ ht hl]
      rfl
    · simp only [Option.map_some, Function.comp_apply, hl, Bool.false_eq_true, if_false]

/-- The MEETV of each thread of the issuing warp after a unit that has changed its lanes by `g` (R53). -/
theorem finish_meetv (s : State) (u : Use) (w : Warp) (g : Thread → Thread) (hw : s.warp? = some w) (l : Nat) (th : Thread)
    (ht : tget (w.mapLanes s.cur.mask (fun _ th => u.ran s.cur g th)).threads l = some th) :
    ∃ y, (((s.counted u).mapActive (fun _ th => g th)).finish).thread? s.cur.core s.cur.slot l = some y ∧
      y.meetv = if (w.mapLanes s.cur.mask (fun _ th => u.ran s.cur g th)).meets th then 0xFFFFFFFF else th.meetv := by
  have hwarp := warp_finishBy ((s.counted u).mapActive (fun _ th => g th)) 1 (fun _ t => t.advance (s.counted u).cur)
  rw [warp_mapActive, warp_counted, hw] at hwarp
  have hv := tget_warpRan s w u g hw l
  rw [ht] at hv
  obtain ⟨y, hy, hmeet⟩ := settle_meetv (s.warpRan w u g) s.cur.mask (s.cycle + 1) l th hv
  refine ⟨y, ?_, hmeet.trans ?_⟩
  · rw [State.thread?]
    exact (congrArg (fun o => o.bind fun x => tget x.threads l) hwarp).trans hy
  · rw [Warp.meets, Warp.meets, meeting_all_congr (warpRan_meetKey s w u g)]

/-- Settles O23: MEET changes its lanes alone, and `finish` settles the warp's meeting groups. -/
theorem meet : Obligations.Meet := by
  intro i d s w u take x h hw
  have hexec : exec (.meet i d) s = .next ((s.counted u).mapActive (fun _ th => take th)).finish := by
    rw [exec_meet, execMeet, issue_runs s _ _ h]
    rfl
  obtain ⟨t, ht, honly, hlanes⟩ := finish_run s u (fun _ => .next ((s.counted u).mapActive (fun _ th => take th)).finish)
    (fun _ th => take th) h rfl
  have htext : exec (.meet i d) s = .next t := by
    rw [hexec, ← ht, issue_runs s _ _ h]
  refine ⟨hexec, t, htext, honly, hlanes, fun l th hth => ?_⟩
  rw [hexec] at htext
  injection htext with htext
  rw [← htext]
  exact finish_meetv s u w take hw l th hth

/-- Settles O24: `settle` releases every group whose members are all parked. -/
theorem meetingGroupsAreReleased : Obligations.MeetingGroupsAreReleased :=
  fun w m c a ha => settle_meeting w m c a ha

end Sys2Proof.Machine
end

section
/-!
PROOFS. EXIT (R143, R254, R256): what the end of a unit, the marks of a domain and the completion of barriers leave of a lane.
-/

namespace Sys2Proof.Machine

/-! EXIT. -/

@[simp] theorem count_exited (u : Use) (c : Cur) (t : Thread) : (u.count c t).exited = t.exited := by
  unfold Use.count; split <;> [rfl; (split <;> rfl)]

@[simp] theorem count_syncs (u : Use) (c : Cur) (t : Thread) : (u.count c t).syncs = t.syncs := by
  unfold Use.count; split <;> [rfl; (split <;> rfl)]

@[simp] theorem count_arrived (u : Use) (c : Cur) (t : Thread) : (u.count c t).arrived = t.arrived := by
  unfold Use.count; split <;> [rfl; (split <;> rfl)]

/-- The marks of a domain after the completion of barriers are those before it. -/
theorem domain_syncRelease (s : State) (b p d : Nat) : (s.syncRelease b).domain p d = s.domain p d := by
  rw [State.domain, State.domain, syncRelease_domains]

/-- A lane that stays where it is at the end of its unit is as the instruction left it, MEETV aside. -/
theorem thread_finish_of_stays (s : State) (l : Nat) (t : Thread) (h : s.thread? s.cur.core s.cur.slot l = some t)
    (hl : laneIn s.cur.mask l = true) (hfpx : t.wait ≠ .fpx) (hs : t.stays = true) :
    ∃ y, s.finish.thread? s.cur.core s.cur.slot l = some y ∧ y.noMeet = t.noMeet := by
  have hend := thread_finishBy s 1 (fun _ t => t.advance s.cur) l
  rw [h] at hend
  simp only [Option.map_some, hl, if_true, Cur.ends, hs, beq_eq_false_iff_ne.mpr hfpx, Bool.false_eq_true, if_false] at hend
  exact Option.map_eq_some_iff.mp hend

/-- A lane that has exited has exited at the end of its unit. -/
theorem exited_finish (s : State) (l : Nat) (t : Thread) (h : s.thread? s.cur.core s.cur.slot l = some t)
    (hl : laneIn s.cur.mask l = true) (hx : t.exited = true) :
    ∃ y, s.finish.thread? s.cur.core s.cur.slot l = some y ∧ y.exited = true := by
  have hend := thread_finishBy s 1 (fun _ t => t.advance s.cur) l
  rw [h] at hend
  obtain ⟨y, hy, hsame⟩ := Option.map_eq_some_iff.mp hend
  refine ⟨y, hy, ?_⟩
  have hends : y.exited = (s.cur.ends (fun _ t => t.advance s.cur) l t).exited := by
    simp only [hl, if_true] at hsame
    have hex := congrArg Thread.exited hsame
    exact hex
  rw [hends, Cur.ends]
  split
  · exact (uncount_keep s.cur l t).2.2.2.2.trans hx
  · rw [if_pos (by simp [Thread.stays, hx])]
    exact hx

/-- The state in which the active lanes have exited and their unit has not ended. -/
def State.lanesExited (s : State) : State :=
  (s.counted (Use.flow [])).mapActive (fun _ t => { t with exited := true })

theorem lanesExited_regs (s : State) : KeepsThreads Thread.regs s s.lanesExited :=
  (keeps_counted Thread.regs count_regs s _).trans (keeps_mapActive Thread.regs _ _ (fun _ _ => rfl))

theorem lanesExited_exited (s : State) (l : Nat) (th : Thread) (h : s.thread? s.cur.core s.cur.slot l = some th)
    (hl : laneIn s.cur.mask l = true) :
    ∃ y, s.lanesExited.finish.thread? s.cur.core s.cur.slot l = some y ∧ y.exited = true := by
  have hlane : s.lanesExited.thread? s.lanesExited.cur.core s.lanesExited.cur.slot l = some _ :=
    thread_lanes s (Use.flow []) (fun _ t => { t with exited := true }) l th h hl
  exact exited_finish s.lanesExited l _ hlane hl rfl

theorem lanesExited_finish_regs (s : State) : KeepsThreads Thread.regs s s.lanesExited.finish :=
  (lanesExited_regs s).trans (keeps_finishBy Thread.regs s.lanesExited 1 (fun _ t => t.advance s.lanesExited.cur)
    (fun _ => rfl) (fun _ _ _ => rfl) (fun _ t _ => advance_regs _ t))

/-- EXIT after the checks of R44. -/
theorem exit_counted (s : State) (w : Warp) (h : s.canIssue (Use.flow []) = true) (hw : s.warp? = some w) :
    exec .exit s = .next (if w.gates = [] then (s.lanesExited.finish.markWarp w).syncRelease w.block
      else (s.counted (Use.flow [])).fault .gate s.firstLane 0 0) := by
  have hwarp := warp_counted s (Use.flow [])
  rw [hw, Option.map_some] at hwarp
  rw [exec_exit, execExit, issue_runs s _ _ h, hwarp, firstLane_counted]
  cases hg : w.gates with
  | nil =>
    have hnone : (w.mapLanes s.cur.mask (fun _ t => (Use.flow []).count s.cur t)).gates = [] := hg
    simp only [hnone, List.isEmpty_nil, Bool.not_true, Bool.false_eq_true, if_false, if_true]
    rfl
  | cons g gs =>
    have hsome : (w.mapLanes s.cur.mask (fun _ t => (Use.flow []).count s.cur t)).gates = g :: gs := hg
    simp only [hsome, List.isEmpty_cons, Bool.not_false, if_true, reduceCtorEq, if_false]

/-- Settles O25: outside a gate call the lanes end, then the warp's domains are marked and barriers completed, neither of which
takes a thread back or writes a register. -/
theorem exit : Obligations.Exit := by
  intro s w h hw
  rw [exit_counted s w h hw]
  refine ⟨fun hgates => by rw [if_neg hgates], fun hgates => ⟨_, by rw [if_pos hgates], fun l th hl hth => ?_, ?_, ?_, ?_, ?_⟩⟩
  · obtain ⟨y, hy, hex⟩ := lanesExited_exited s l th hth hl
    have hmark : (s.lanesExited.finish.markWarp w).thread? s.cur.core s.cur.slot l = some y := by
      simpa only [State.thread?, State.warpAt?, markWarp_cores] using hy
    obtain ⟨z, hz, _, hsame, _⟩ := syncRelease_threads _ w.block s.cur.core s.cur.slot l y hmark
    exact ⟨z, hz, hsame.trans hex⟩
  · exact ((lanesExited_finish_regs s).trans (KeepsThreads.of_cores _ (markWarp_cores _ w))).trans (syncRelease_regs _ w.block)
  · rw [domain_syncRelease]
    exact (markWarp_marks _ w).1
  · rw [domain_syncRelease]
    exact (markWarp_marks _ w).2
  · rw [syncRelease_mem]
    exact fun _ => rfl

end Sys2Proof.Machine
end

section
/-!
PROOFS. SYNCB and BARSYNC (R185, R194): a release leaves the unit in progress and what a barrier looks at.
-/

namespace Sys2Proof.Machine

/-! What a release leaves of the unit in progress (R180). -/

@[simp] theorem feltLog_cur (s : State) (line : Nat) : (s.feltLog line).cur = s.cur := by
  unfold State.feltLog
  dsimp only
  split <;> rfl

@[simp] theorem migRecord_cur (s : State) (pa : Nat) : (s.migRecord pa).cur = s.cur := by
  unfold State.migRecord
  dsimp only
  repeat' split
  all_goals rfl

@[simp] theorem homeWrite_cur (s : State) (pa : Nat) (data : List Byte) : (s.homeWrite pa data).cur = s.cur :=
  (migRecord_cur _ pa).trans (feltLog_cur s _)

@[simp] theorem settleCount_cur (s : State) (c slot cls id : Nat) : (s.settleCount c slot cls id).cur = s.cur := by
  unfold State.settleCount
  split <;> rfl

@[simp] theorem applyReq_cur (s : State) (r : Req) : (s.applyReq r).cur = s.cur := by
  unfold State.applyReq
  dsimp only
  refine (field_foldl State.cur _ (fun s k => settleCount_cur s _ _ _ _) _ _).trans ?_
  cases r.kind with
  | write data => exact homeWrite_cur _ _ _
  | red op v rm fz cn sat =>
    dsimp only
    split
    · exact homeWrite_cur _ _ _
    · simp only [homeWrite_cur]
  | redTm ws => exact homeWrite_cur _ _ _
  | bsig v => exact homeWrite_cur _ _ _

@[simp] theorem drain_cur (s : State) (p : Req → Bool) : (s.drain p).cur = s.cur :=
  field_foldl State.cur _ applyReq_cur _ s

@[simp] theorem writeDirty_cur (c : Nat) (t : Tbl (Byte × Bool)) (s : State) : (s.writeDirty c t).cur = s.cur := by
  induction t generalizing s with
  | nil => rfl
  | cons x l ih =>
    obtain ⟨a, b, d⟩ := x
    cases d with
    | true => exact (ih _).trans ((homeWrite_cur _ _ _).trans (drain_cur s _))
    | false => exact ih s

@[simp] theorem writeBack_cur (s : State) (c d : Nat) : (s.writeBack c d).cur = s.cur := by
  unfold State.writeBack
  dsimp only
  split
  · rfl
  · exact writeDirty_cur c _ s

@[simp] theorem release_cur (s : State) (c d : Nat) (sc : Scope) : (s.release c d sc).cur = s.cur := by
  unfold State.release
  split
  · exact (field_foldl State.cur _ (fun s e => writeBack_cur s c e) _ _).trans (drain_cur s _)
  · rfl

/-! SYNCB and BARSYNC. -/

theorem thread_mapActive (s : State) (g : Nat → Thread → Thread) (l : Nat) (t : Thread)
    (h : s.thread? s.cur.core s.cur.slot l = some t) (hl : laneIn s.cur.mask l = true) :
    (s.mapActive g).thread? s.cur.core s.cur.slot l = some (g l t) := by
  rw [State.thread?] at h
  obtain ⟨w, hw, ht⟩ := Option.bind_eq_some_iff.mp h
  rw [State.mapActive, State.modWarp, thread_modWarpAt, hw, Option.bind_some, tget_mapLanes, ht, Option.map_some, if_pos hl]

/-- A thread as it arrives at a barrier. -/
def Thread.arrive (th : Thread) : Thread :=
  { th with syncs := if th.arrived then th.syncs else th.syncs + 1, arrived := true, wait := .barrier }

/-- The state in which the active lanes have arrived and their unit has not ended. -/
def State.lanesArrived (s : State) (w : Warp) : State :=
  ((s.counted (Use.flow [])).release s.cur.core w.curSlot .block).mapActive (fun _ th => th.arrive)

theorem lanesArrived_regs (s : State) (w : Warp) : KeepsThreads Thread.regs s (s.lanesArrived w) :=
  ((keeps_counted Thread.regs count_regs s _).trans (release_threads Thread.regs (fun _ => rfl) _ _ _ _)).trans
    (keeps_mapActive Thread.regs _ _ (fun _ _ => rfl))

theorem lanesArrived_cur (s : State) (w : Warp) : (s.lanesArrived w).cur = (s.counted (Use.flow [])).cur :=
  release_cur (s.counted (Use.flow [])) _ _ _

/-- What of a thread a barrier looks at. -/
def Thread.syncKey (t : Thread) : Nat × Bool × Word := (t.syncs, t.arrived, t.pc)

/-- Each active lane has arrived once, at its own PC (R194). -/
theorem lanesArrived_finish (s : State) (w : Warp) (l : Nat) (th : Thread) (hl : laneIn s.cur.mask l = true)
    (h : s.thread? s.cur.core s.cur.slot l = some th) :
    ∃ y, (s.lanesArrived w).finish.thread? s.cur.core s.cur.slot l = some y ∧
      y.syncs = (if th.arrived then th.syncs else th.syncs + 1) ∧ y.arrived = true ∧ y.wait = .barrier ∧ y.pc = th.pc := by
  have hkeep : KeepsThreads Thread.syncKey s ((s.counted (Use.flow [])).release s.cur.core w.curSlot .block) :=
    (keeps_counted Thread.syncKey (fun _ _ _ => by simp only [Thread.syncKey, count_syncs, count_arrived, count_pc]) s _).trans
      (release_threads Thread.syncKey (fun _ => rfl) _ _ _ _)
  have hlane := hkeep s.cur.core s.cur.slot l
  rw [h] at hlane
  obtain ⟨t, ht, hkey⟩ := Option.map_eq_some_iff.mp hlane
  have hcur := release_cur (s.counted (Use.flow [])) s.cur.core w.curSlot .block
  have harr := thread_mapActive ((s.counted (Use.flow [])).release s.cur.core w.curSlot .block) (fun _ th => th.arrive) l t
    (by rw [hcur]; exact ht) (by rw [hcur]; exact hl)
  rw [hcur] at harr
  obtain ⟨y, hy, hsame⟩ := thread_finish_of_stays (s.lanesArrived w) l t.arrive (by rw [lanesArrived_cur]; exact harr)
    (by rw [lanesArrived_cur]; exact hl) (by simp [Thread.arrive]) (by simp [Thread.stays, Thread.arrive])
  rw [lanesArrived_cur] at hy
  simp only [Thread.syncKey, Prod.mk.injEq] at hkey
  obtain ⟨hsyncs, harrived, hpc⟩ := hkey
  have key : ∀ {α : Type} (f : Thread → α), (∀ t, f t.noMeet = f t) → f y = f t.arrive := fun f hf => by
    rw [← hf y, hsame, hf]
  refine ⟨y, hy, ?_, key Thread.arrived fun _ => rfl, key Thread.wait fun _ => rfl, (key Thread.pc fun _ => rfl).trans hpc⟩
  rw [key Thread.syncs fun _ => rfl, ← hsyncs, ← harrived]
  rfl

/-- SYNCB and BARSYNC after the checks of R44. -/
theorem barrier_counted (s : State) (w : Warp) (h : s.canIssue (Use.flow []) = true) (hw : s.warp? = some w)
    {i : Instr} (hi : i ∈ [Instr.syncb, .barsync]) :
    exec i s = .next (if (s.counted (Use.flow [])).heldLanes true true = [] then (s.lanesArrived w).finish.syncRelease w.block
      else (s.counted (Use.flow [])).stall ((s.counted (Use.flow [])).heldLanes true true) .pend) := by
  have hwarp := warp_counted s (Use.flow [])
  rw [hw, Option.map_some] at hwarp
  have hissue : exec i s = s.issue (Use.flow []) State.arriveBarrier := by
    rcases List.mem_pair.mp hi with rfl | rfl <;> rfl
  rw [hissue, issue_runs s _ _ h, State.arriveBarrier, hwarp]
  cases hheld : (s.counted (Use.flow [])).heldLanes true true with
  | nil =>
    simp only [List.isEmpty_nil, if_true]
    rfl
  | cons l ls => simp only [List.isEmpty_cons, Bool.false_eq_true, if_false, reduceCtorEq]

/-- What of a warp decides the slots an order acts on. -/
def Warp.tieKey (w : Warp) : List Nat × Nat := (w.slotsIn, w.block)

theorem tied_congr {s t : State} {c : Nat}
    (h : (t.core c).warps.map (fun p => p.2.tieKey) = (s.core c).warps.map (fun p => p.2.tieKey)) (d : Nat) :
    t.tied c d = s.tied c d := by
  have hkey : ∀ x : State, x.tied c d =
      let ks := (x.core c).warps.map (fun p => p.2.tieKey)
      let bs := (ks.filter (fun k => k.1.contains d)).map (·.2)
      (d :: (ks.filter (fun k => bs.contains k.2)).flatMap (·.1)).dedup := fun x => by
    simp only [State.tied, List.filter_map, List.map_map, List.flatMap_map]
    rfl
  rw [hkey, hkey, h]

theorem tieKeys_modWarpAt (s : State) (c k : Nat) (f : Warp → Warp) (hf : ∀ w, (f w).tieKey = w.tieKey) (c' : Nat) :
    ((s.modWarpAt c k f).core c').warps.map (fun p => p.2.tieKey) = (s.core c').warps.map (fun p => p.2.tieKey) := by
  simp only [State.core, State.modWarpAt, State.modCore, tget_tmod]
  split
  · cases tget s.cores c' with
    | none => rfl
    | some x =>
      simp only [Option.map_some, Option.getD_some, tmod, List.map_map]
      refine List.map_congr_left fun p _ => ?_
      simp only [Function.comp_apply]
      split
      · exact hf p.2
      · rfl
  · rfl

theorem actsOnL1_counted (s : State) (u : Use) (c d : Nat) (sc : Scope) :
    (s.counted u).actsOnL1 c d sc = s.actsOnL1 c d sc := by
  have htied : (s.counted u).tied c d = s.tied c d :=
    tied_congr (tieKeys_modWarpAt s s.cur.core s.cur.slot (fun w => w.mapLanes s.cur.mask fun _ t => u.count s.cur t)
      (fun _ => rfl) c) d
  rw [State.actsOnL1, State.actsOnL1, htied]

/-- Settles O26: the release and the end of the unit leave what a barrier looks at, and completing barriers only lets threads
go on. -/
theorem barriers : Obligations.Barriers := by
  intro s w h hw i hi x
  rw [barrier_counted s w h hw hi]
  refine ⟨fun hheld => by rw [if_neg hheld], fun hheld => ?_, fun hheld => ⟨_, by rw [if_pos hheld], fun l th hl hth => ?_, ?_, ?_⟩⟩
  · rw [if_pos hheld]
    rfl
  · obtain ⟨y, hy, hsyncs, harr, hwait, hpc⟩ := lanesArrived_finish s w l th hl hth
    obtain ⟨z, hz, _, _, hsame, hgo⟩ := syncRelease_threads (s.lanesArrived w).finish w.block s.cur.core s.cur.slot l y hy
    refine ⟨z, hz, hsame.trans hsyncs, ?_⟩
    rcases hgo with ⟨hw', ha', hp'⟩ | ⟨_, hw', ha', hp'⟩
    · exact .inl ⟨hw'.trans hwait, ha'.trans harr, hp'.trans hpc⟩
    · exact .inr ⟨hw', ha', hp'.trans (by rw [hpc])⟩
  · have hfin := keeps_finishBy Thread.regs (s.lanesArrived w) 1 (fun _ t => t.advance (s.lanesArrived w).cur) (fun _ => rfl)
      (fun _ _ _ => rfl) (fun _ t _ => advance_regs _ t)
    exact ((lanesArrived_regs s w).trans hfin).trans (syncRelease_regs _ w.block)
  · intro hno a
    have hrel : (s.counted (Use.flow [])).release s.cur.core w.curSlot .block = s.counted (Use.flow []) := by
      rw [State.release, actsOnL1_counted, hno]
      rfl
    rw [syncRelease_mem, finish_mem, State.lanesArrived, hrel]
    rfl

end Sys2Proof.Machine
end

section
/-!
PROOFS. The step and what it runs (R19–R21, R57), the prefixes (R36–R40), the checks of an instruction before its effect (R44), the
instructions and words whose effect is a trap (R20, R145), words worked out in the spec, and the machine at power-on.
-/

namespace Sys2Proof

/-- What a word decodes to is well formed (R28, R43). -/
theorem wf_of_decodeWord {w : Nat} {i : Instr} (h : decodeWord w = .ok i) : i.wf = true := by
  rw [decodeWord] at h
  split at h
  · cases h
  · split at h
    · next hwf =>
      cases h
      exact hwf
    · cases h

/-- What bytes decode to is well formed (R28, R43). -/
theorem wf_of_decode {b r : List Byte} {i : Instr} (h : decode b = .ok (i, r)) : i.wf = true := by
  have hmap : ∀ {w : Nat} {rest : List Byte}, (decodeWord w).map (fun j => (j, rest)) = .ok (i, r) → i.wf = true := by
    intro w rest hw
    cases hd : decodeWord w with
    | error e =>
      rw [hd] at hw
      cases hw
    | ok j =>
      rw [hd] at hw
      cases hw
      exact wf_of_decodeWord hd
  unfold decode at h
  split at h
  · split at h
    · exact hmap h
    · split at h
      · exact hmap h
      · cases h
  · cases h

end Sys2Proof

namespace Sys2Proof.Machine

/-! The step. -/

/-- A unit whose next word can be fetched and decodes runs that instruction. -/
theorem runUnit_of_decode {s y : State} {w : Warp} {l : Nat} {t : Thread} {rest : List (Nat × Thread)} {b r : List Byte}
    {i : Instr} (hw : s.warp? = some w) (ha : s.active = (l, t) :: rest)
    (hf : s.fetchWord s.cur.core w (t.pc.toNat + s.cur.off) = .ok (b, y)) (hd : decode b = .ok (i, r)) :
    s.runUnit = exec i { y with cur := { y.cur with len := b.length } } := by
  simp only [State.runUnit, State.fetchNext, hw, ha, hf, hd]

theorem step_of_unit {s : State} (h : s.cur.off ≠ 0) : step s = s.runUnit := if_pos h

theorem step_of_turn {s : State} {t : Turn} {ts : List Turn} (h : s.cur.off = 0) (ht : s.turns = t :: ts) :
    step s = ({ s with turns := ts } : State).takeTurn t := by
  unfold step
  rw [if_neg (not_not_intro h), ht]

theorem takeTurn_of_grant {s y : State} {c p : Nat} (h : s.grant c p = some y) : s.takeTurn (.issue c p) = y.runUnit := by
  unfold State.takeTurn
  dsimp only
  rw [h]

/-- Settles O1: a step goes on with the unit in progress, else takes the next turn, and each of the two runs the word fetched. -/
theorem stepRunsDecoded : Obligations.StepRunsDecoded := by
  refine ⟨fun s y w l t rest b r i hw ha hf hd => ⟨wf_of_decode hd, fun hoff => ?_, fun x c p ts hoff hts hg => ?_⟩,
    fun s i e ts hoff hts hev => ?_⟩
  · exact (step_of_unit hoff).trans (runUnit_of_decode hw ha hf hd)
  · rw [step_of_turn hoff hts, takeTurn_of_grant hg]
    exact runUnit_of_decode hw ha hf hd
  · rw [step_of_turn hoff hts]
    exact if_pos hev

/-! Words and the machine at power-on. -/

/-- A 32-bit word that is the word of a well-formed instruction decodes to it. -/
theorem decodeTableWord_of_encodeWord {w : Nat} {i : Instr} (hw : encodeWord i = w) (hh : i.halves = 2) (hwf : i.wf = true)
    (hlt : w < 2 ^ 32) : decodeTableWord 32 w = some i := by
  subst hw
  refine decodeTableWord_of_odd hlt (encodeWord_odd hh) (decodeWord_encodeWord (Laws.RoundTrip.all i) ?_ hwf)
  rw [isEvent_eq, hh]
  rfl

/-- Settles O2: each word is the word of its instruction, which is well formed. -/
theorem workedWords : Obligations.WorkedWords := by
  unfold Obligations.WorkedWords
  constructor
  · decide
  · intro p hp
    have hword : encodeWord p.2 = p.1 ∧ p.2.halves = 2 ∧ p.2.wf = true ∧ p.1 < 2 ^ 32 := by
      revert p
      decide
    obtain ⟨hw, hh, hwf, hlt⟩ := hword
    exact decodeTableWord_of_encodeWord hw hh hwf hlt

/-- Settles O4: the values of `State.reset`. -/
theorem resetState : Obligations.ResetState :=
  ⟨rfl, rfl, rfl, rfl, rfl, rfl, rfl, rfl, rfl, rfl, rfl, rfl, rfl, rfl, rfl, fun _ => rfl, fun _ => rfl⟩

/-- Settles O5: memory lists nothing at power-on. -/
theorem canonicalMemoryAtReset : Obligations.CanonicalMemoryAtReset := ⟨rfl, rfl⟩

/-! Traps. -/

/-- Settles O27: BRK and TRAP after the checks of R44, and the two effects of a word that cannot run. -/
theorem raisedTraps : Obligations.RaisedTraps := by
  refine ⟨fun s h => ?_, fun a s w l t rest h hw ha => ?_, fun s l t rest ha => ⟨?_, ?_⟩⟩
  · rw [exec_brk, execBrk, issue_runs s _ _ h, firstLane_counted]
  · rw [exec_trap, execTrap, issue_runs s _ _ h, warp_counted, active_counted, hw, ha]
    simp only [Option.map_some, List.map_cons, count_pc, count_get]
    rfl
  · rw [exec_illegalEncoding, execIllegalEncoding, ha]
  · rw [exec_fetchPageFault, execFetchPageFault, ha]
    have hlo : lo32 (BitVec.ofNat 64 s.cur.faultAddr) = BitVec.ofNat 32 s.cur.faultAddr :=
      BitVec.setWidth_ofNat_of_le (by decide) _
    have hhi : hi32 (BitVec.ofNat 64 s.cur.faultAddr) = BitVec.ofNat 32 (s.cur.faultAddr / 2 ^ 32) := by
      apply BitVec.eq_of_toNat_eq
      simp only [hi32, BitVec.toNat_setWidth, BitVec.toNat_ushiftRight, BitVec.toNat_ofNat, Nat.shiftRight_eq_div_pow]
      omega
    simp only [hlo, hhi]

/-! Prefixes. -/

theorem rm_of_field (r : BitVec 2) : (match r.toNat with | 0 => Rm.rne | 1 => Rm.rz | 2 => Rm.ru | _ => Rm.rd) =
    [Rm.rne, .rz, .ru, .rd].getD r.toNat .rne := by
  revert r
  decide

theorem order_of_field (p : BitVec 2) :
    (match p.toNat with | 0 => Order.relaxed | 1 => Order.acquire | 2 => Order.release | _ => Order.acqRel) =
      [Order.relaxed, .acquire, .release, .acqRel].getD p.toNat .relaxed := by
  revert p
  decide

theorem scope_of_field (e : BitVec 3) :
    (match e.toNat with | 0 => Scope.block | 1 => Scope.cluster | 2 => Scope.package | 3 => Scope.pod | _ => Scope.system) =
      [Scope.block, .cluster, .package, .pod].getD e.toNat .system := by
  revert e
  decide

/-- Settles O28: REP and MOD look at the words before them in the unit and latch their fields. -/
theorem prefixes : Obligations.Prefixes := by
  refine fun s l t rest ha => ⟨fun st x y z c => ⟨fun hm hr => ?_, fun hm hr => ?_, fun hm => ?_⟩,
    fun f z u r o p q e => ⟨fun hm => ?_, fun hm => ?_⟩⟩
  · simp only [exec_repPfx, execRepPfx, ha, hm, hr, Option.isSome_none, Bool.false_eq_true, if_false]
  · simp only [exec_repPfx, execRepPfx, ha, hm, Option.isSome_none, Bool.false_eq_true, if_false, Option.isSome_iff_ne_none.mpr hr,
      if_true]
  · simp only [exec_repPfx, execRepPfx, ha, Option.isSome_iff_ne_none.mpr hm, if_true]
  · simp only [exec_modPfx, execModPfx, ha, Option.isSome_iff_ne_none.mpr hm, if_true]
  · rw [exec_modPfx, execModPfx, ha]
    simp only [hm, Option.isSome_none, Bool.false_eq_true, if_false]
    exact ⟨_, rfl, rfl, congrArg (fun x => if u = true then some x else none) (rm_of_field r),
      congrArg (fun x => if o = true then some x else none) (order_of_field p),
      congrArg (fun x => if q = true then some x else none) (scope_of_field e)⟩

/-! The checks of R44. -/

/-- Settles O29: `issue` makes the checks one after the other. -/
theorem decodeTimeChecks : Obligations.DecodeTimeChecks := by
  intro s u body w l t rest hw ha
  refine ⟨fun off hbad => ?_, fun hgood => ⟨fun hlt => ?_, fun hc hk => ?_, fun hle honly hctl => ⟨fun n hreg => ?_, fun hreg n hlook => ?_⟩⟩⟩
  · simp only [State.issue, hw, ha, hbad]
  · have hlevel : levelOk w.level u.level = false := decide_eq_false (by omega)
    simp only [State.issue, hw, ha, hgood, hlevel, Bool.not_false, Bool.true_or, if_true]
  · simp only [State.issue, hw, ha, hgood, hc, hk, Bool.not_false, Bool.and_true, Bool.or_true, if_true]
  · have hlevel : levelOk w.level u.level = true := decide_eq_true hle
    rw [ha] at hreg
    simp only [State.issue, hw, ha, hgood, hlevel, honly, hctl, hreg, Bool.not_true, Bool.false_and, Bool.or_self,
      Bool.false_eq_true, if_false]
  · have hlevel : levelOk w.level u.level = true := decide_eq_true hle
    rw [ha] at hreg hlook
    simp only [State.issue, hw, ha, hgood, hlevel, honly, hctl, hreg, hlook, Bool.not_true, Bool.false_and, Bool.or_self,
      Bool.false_eq_true, if_false]

end Sys2Proof.Machine
end

section
/-!
PROOFS. Taking and leaving a trap (R289–R299, R305): the warp a report is delivered to is the one that faulted, stopped; a handler's
entry and return are changes of that warp's lanes.
-/

namespace Sys2Proof.Machine

/-! The warp that a report is delivered to. -/

/-- What of a thread a trap frame saves (R294). -/
def Thread.frameKey (t : Thread) : Word × Word × Nat × List Word × Bool := (t.pc, t.meetv, t.rem, t.regs, t.exited)

/-- A warp but for its threads, bundles, last tick and waiting accesses. -/
def Warp.bare (w : Warp) : Warp := { w.blank with retry := [], gcall := none, xreq := none }

/-- The state in which a report outside a repeated unit finds its warp: the unit has ended without effect, and the accesses that
wait on conditions are stopped (R296, R407). -/
def State.stopped (s : State) : State :=
  ((leftState s).parkSyncs s.cur.core s.cur.slot).unask s.cur.core s.cur.slot

theorem xor_one_ne (k : Nat) : k ^^^ 1 ≠ k := by
  intro h
  have hzero : k ^^^ (k ^^^ 1) = k ^^^ k := congrArg (k ^^^ ·) h
  rw [← Nat.xor_assoc, Nat.xor_self, Nat.zero_xor] at hzero
  exact absurd hzero (by decide)

/-- Asking for the extended set no longer leaves the warp as it is otherwise, and wakes lanes of the other warp of its pair. -/
theorem warpAt_unask (s : State) (c k : Nat) : (s.unask c k).warpAt? c k = (s.warpAt? c k).map (fun w => { w with xreq := none }) := by
  unfold State.unask State.wakeWarp
  rw [warpAt_modWarpAt, if_neg (fun h => xor_one_ne k h.2.symm), warpAt_modWarpAt, if_pos ⟨rfl, rfl⟩]

theorem keeps_unask {α : Type} (f : Thread → α) (h : ∀ t : Thread, f { t with wait := .run } = f t) (s : State) (c k : Nat) :
    KeepsThreads f s (s.unask c k) := by
  unfold State.unask State.wakeWarp
  exact (keeps_modWarpAt f s c k (fun w => { w with xreq := none }) (fun _ _ => rfl)).trans
    (keeps_modWarpAt f _ c (k ^^^ 1) _ (fun w l => keeps_wake f h w _ _ l))

theorem unask_cores {α : Type} (f : Core → α) (h : ∀ (k : Core) (w : Tbl Warp), f { k with warps := w } = f k) (s : State) (c k : Nat) :
    KeepsCores f s (s.unask c k) := by
  unfold State.unask State.wakeWarp
  exact (modWarpAt_cores_keep f h s c k _).trans (modWarpAt_cores_keep f h _ c _ _)

theorem keeps_stopped {α : Type} (f : Thread → α) (h : ∀ t : Thread, f { t with wait := .run } = f t)
    (hw : ∀ (t : Thread) (x : List Window), f { t with windows := x } = f t) (s : State) : KeepsThreads f s s.stopped :=
  ((keeps_left f hw s).trans (keeps_parkSyncs f h _ _ _)).trans (keeps_unask f h _ _ _)

/-- The lanes of a warp that run keep their numbers while what they run changes. -/
theorem running_mapLanes (w : Warp) (m : Mask) (f : Nat → Thread → Thread) (h : ∀ l t, (f l t).exited = t.exited) :
    (w.mapLanes m f).running.map (·.1) = w.running.map (·.1) := by
  unfold Warp.mapLanes Warp.running
  dsimp only
  rw [List.filter_map, List.map_map]
  have hfst : ((fun x : Nat × Thread => x.1) ∘ fun p => if laneIn m p.1 = true then (p.1, f p.1 p.2) else p) = (·.1) := by
    funext p
    simp only [Function.comp_apply]
    split <;> rfl
  have hexit : ((fun p : Nat × Thread => !p.2.exited) ∘ fun p => if laneIn m p.1 = true then (p.1, f p.1 p.2) else p) =
      fun p => !p.2.exited := by
    funext p
    simp only [Function.comp_apply]
    split
    · rw [h]
    · rfl
  rw [hfst, hexit]

/-- The warp that faulted, stopped: its running lanes, its own fields and what a frame saves of its lanes are as they were. -/
theorem warpAt_stopped (s : State) (w : Warp) (hw : s.warp? = some w) :
    ∃ v, s.stopped.warpAt? s.cur.core s.cur.slot = some v ∧ v.running.map (·.1) = w.running.map (·.1) ∧ v.bare = w.bare ∧
      ∀ l th, tget w.threads l = some th → ∃ t, tget v.threads l = some t ∧ t.frameKey = th.frameKey := by
  obtain ⟨re, hpark⟩ := warpAt_parkSyncs (leftState s) _ _ _ (warpAt_left s w hw)
  have hwarp := warpAt_unask ((leftState s).parkSyncs s.cur.core s.cur.slot) s.cur.core s.cur.slot
  rw [hpark, Option.map_some] at hwarp
  refine ⟨_, hwarp, ?_, ?_, fun l th hth => ?_⟩
  · exact (wake_running _ _ _).trans (running_mapLanes _ _ _ (fun l t => (uncount_keep s.cur l t).2.2.2.2))
  · exact wake_field Warp.bare (fun _ _ _ => rfl) _ _ _
  · have hkeep := keeps_stopped Thread.frameKey (fun _ => rfl) (fun _ _ => rfl) s s.cur.core s.cur.slot l
    have hw' : s.warpAt? s.cur.core s.cur.slot = some w := hw
    simp only [State.thread?] at hkeep
    rw [show s.stopped.warpAt? s.cur.core s.cur.slot = _ from hwarp, hw', Option.bind_some, Option.bind_some, hth] at hkeep
    exact Option.map_eq_some_iff.mp hkeep

/-! Entry into a launch's handler (R294). -/

theorem running_collectFpx (w : Warp) : w.collectFpx.running.map (·.1) = w.running.map (·.1) := by
  unfold Warp.collectFpx Warp.running
  dsimp only
  rw [List.filter_map, List.map_map]
  have hfst : ((fun x : Nat × Thread => x.1) ∘ fun p => if (p.2.wait == .fpx || p.2.wait == .trap) = true then
      (p.1, ({ p.2 with wait := .run } : Thread)) else p) = (·.1) := by
    funext p
    simp only [Function.comp_apply]
    split <;> rfl
  have hexit : ((fun p : Nat × Thread => !p.2.exited) ∘ fun p => if (p.2.wait == .fpx || p.2.wait == .trap) = true then
      (p.1, ({ p.2 with wait := .run } : Thread)) else p) = fun p => !p.2.exited := by
    funext p
    simp only [Function.comp_apply]
    split <;> rfl
  rw [hfst, hexit]

/-- A lane that stops for a trap is as it was, but runs. -/
theorem collectFpx_lane (w : Warp) (l : Nat) (t : Thread) (h : tget w.threads l = some t) :
    ∃ y, tget w.collectFpx.threads l = some y ∧ y.frameKey = t.frameKey := by
  have hmap : w.collectFpx.threads = w.threads.map (fun p => (p.1,
      if (p.2.wait == .fpx || p.2.wait == .trap) = true then ({ p.2 with wait := .run } : Thread) else p.2)) := by
    unfold Warp.collectFpx
    refine List.map_congr_left fun p _ => ?_
    split <;> rfl
  rw [hmap, tget_map_snd w.threads (fun t => if (t.wait == .fpx || t.wait == .trap) = true then
    ({ t with wait := .run } : Thread) else t), h]
  refine ⟨_, rfl, ?_⟩
  dsimp only
  split <;> rfl

/-- The handler's entry: one bundle of the running lanes, each of them at the handler, and a frame of what they held. -/
theorem enterHandler_spec (w : Warp) (h : Word) (r : Report) (ret : Word) (c : Nat) :
    let v := w.enterHandler h r ret c
    v.bundles = [⟨maskOf (w.running.map (·.1)), c, 0⟩] ∧ v.partn = 5 ∧
      ∃ f, v.handler = some f ∧ f.partn = w.partn ∧ f.retPc = ret ∧
        ∀ l t, tget w.threads l = some t → t.exited = false →
          tget v.threads l = some (t.enter h r (w.retry.map (·.id)) l) ∧ tget f.lanes l = some (t.save (w.retry.map (·.id))) := by
  have hmap : (w.enterHandler h r ret c).threads = w.threads.map (fun p => (p.1,
      if p.2.exited then p.2 else p.2.enter h r (w.retry.map (·.id)) p.1)) := by
    unfold Warp.enterHandler Warp.oneBundle
    refine List.map_congr_left fun p _ => ?_
    split <;> rfl
  have hkeys : (w.enterHandler h r ret c).running.map (·.1) = w.running.map (·.1) := by
    rw [Warp.running, hmap, List.filter_map, List.map_map]
    have hexit : ((fun p : Nat × Thread => !p.2.exited) ∘ fun p : Nat × Thread => (p.1,
        if p.2.exited then p.2 else p.2.enter h r (w.retry.map (·.id)) p.1)) = fun p => !p.2.exited := by
      funext p
      simp only [Function.comp_apply]
      split <;> rfl
    rw [hexit]
    rfl
  refine ⟨?_, rfl, _, rfl, rfl, rfl, fun l t ht hex => ⟨?_, ?_⟩⟩
  · rw [← hkeys]
    rfl
  · rw [hmap, tget_map w.threads (fun n t => if t.exited then t else t.enter h r (w.retry.map (·.id)) n), ht]
    simp only [Option.map_some, hex, Bool.false_eq_true, if_false]
  · rw [tget_map_snd]
    have hrun := tget_filter w.threads (fun p => !p.2.exited) l t ht (by simp [hex])
    rw [Warp.running, hrun]
    rfl

/-- A user-class report of a warp with a handler and no frame enters the handler (R294). -/
theorem deliver_handler {s : State} {c k : Nat} {w : Warp} {h : Word} (r : Report) (m : Mask) (hctl : isControl c = false)
    (hw : s.warpAt? c k = some w) (hsuper : r.super = false) (hhandler : w.handler = none) (hvec : w.trapVec = some h) :
    s.deliver c k r m = ((s.parkSyncs c k).unask c k).modWarpAt c k (fun w =>
      w.collectFpx.enterHandler h r r.retPc (s.cycle + 1)) := by
  unfold State.deliver
  simp only [hctl, hw, hsuper, hhandler, hvec, Bool.false_eq_true, if_false]

/-- Settles O30: the warp that the report finds is the one that faulted, and it enters the handler. -/
theorem userTrapEntry : Obligations.UserTrapEntry := by
  intro s w h cause lane lo hi q hw hctl hgates hhandler hvec hsuper htrap hfpx hrep hcoll hfly hq
  obtain ⟨v, hv, hrun, hbare, hlanes⟩ := warpAt_stopped s w hw
  let r := mkReport w cause lane q.pc lo hi
  have hnotSuper : r.super = false := by
    show (cause.isSuper || !w.gates.isEmpty) = false
    rw [hsuper, hgates]
    rfl
  have hret : r.retPc = q.pc := if_neg htrap
  have hcode : r.tcause = BitVec.ofNat 32 cause.code := by
    have hgate : r.gate = false := by
      show (!w.gates.isEmpty) = false
      rw [hgates]
      rfl
    rw [Report.tcause, hnotSuper, hgate]
    rfl
  have hfault : s.fault cause lane lo hi = s.stopped.modWarpAt s.cur.core s.cur.slot (fun w =>
      w.collectFpx.enterHandler h r r.retPc (s.cycle + 1 + 1)) := by
    rw [fault_deliver s w cause lane lo hi q hw hrep hq hcoll hfly]
    exact deliver_handler r s.cur.mask hctl (warpAt_left s w hw) hnotSuper hhandler hvec
  obtain ⟨hbundles, hpartn, f, hf, hfpartn, hfret, hframe⟩ := enterHandler_spec v.collectFpx h r r.retPc (s.cycle + 1 + 1)
  refine ⟨v.collectFpx.enterHandler h r r.retPc (s.cycle + 1 + 1), f, s.cycle + 1 + 1, ?_, hf, hpartn, ?_, ?_, hfret.trans hret,
    fun l th hth hex => ?_, fun a => ?_⟩
  · rw [hfault, warpAt_modWarpAt, if_pos ⟨rfl, rfl⟩, hv]
    rfl
  · rw [hbundles, running_collectFpx, hrun]
  · have hsame := congrArg Warp.partn hbare
    exact hfpartn.trans hsame
  · obtain ⟨t, ht, hkey⟩ := hlanes l th hth
    obtain ⟨y, hy, hykey⟩ := collectFpx_lane v l t ht
    have hsame := hykey.trans hkey
    simp only [Thread.frameKey, Prod.mk.injEq] at hsame
    obtain ⟨hpc, hmeetv, hrem, hregs, hexit⟩ := hsame
    obtain ⟨hin, hsaved⟩ := hframe l y hy (hexit.trans hex)
    refine ⟨_, _, hin, hsaved, rfl, rfl, rfl, rfl, ?_, hpc, hmeetv, hrem, congrArg (List.take 8) hregs⟩
    show [r.tcause, q.pc, BitVec.ofNat 32 lane, lo, hi, 0, 0, 0] ++ y.regs.drop 8 = _
    rw [hcode, hregs]
  · rw [hfault]
    rfl

/-! Control cores (R292, R293, R299). -/

/-- A lane that enters a control core's handler is at TVEC with no repeat, running, with its registers as they were. -/
theorem enterControl_lane (w : Warp) (h : Word) (r : Report) (c l : Nat) (t : Thread) (ht : tget w.threads l = some t) :
    ∃ y, tget (w.enterControl h r c).threads l = some y ∧ y.pc = h ∧ y.rem = 0 ∧ y.wait = .run ∧ y.regs = t.regs := by
  have hclear : ∃ x, tget (w.clearExc r).threads l = some x ∧ x.regs = t.regs := by
    unfold Warp.clearExc
    split
    · dsimp only
      rw [tget_tmod, ht]
      split <;> exact ⟨_, rfl, rfl⟩
    · exact ⟨t, ht, rfl⟩
  obtain ⟨x, hx, hregs⟩ := hclear
  unfold Warp.enterControl
  dsimp only
  generalize hv : (Warp.splitAll _ c) = v
  have hgo : ∃ z, tget v.threads l = some z ∧ z.pc = h ∧ z.rem = 0 ∧ z.wait = .run ∧ z.regs = t.regs := by
    subst hv
    unfold Warp.splitAll Warp.oneBundle
    dsimp only
    rw [tget_map_snd (w.clearExc r).threads (fun (t : Thread) => ({ t with
      pc := h, rem := 0, wait := .run
      windows := t.windows.filter (fun x => !x.ids.any (w.retry.map (·.id)).contains), repIds := [], repDests := [] } : Thread)), hx]
    exact ⟨_, rfl, rfl, rfl, rfl, hregs⟩
  obtain ⟨z, hz, hpc, hrem, hwait, hzregs⟩ := hgo
  unfold Warp.release
  rcases releases_threads c (v.running.map (·.2.meetv)) v l with hsame | ⟨t', ht', hnew⟩
  · exact ⟨z, hsame.trans hz, hpc, hrem, hwait, hzregs⟩
  · rw [hz] at ht'
    cases ht'
    exact ⟨_, hnew, hpc, hrem, hwait, hzregs⟩

theorem enterControl_regs (w : Warp) (h : Word) (r : Report) (c l : Nat) :
    (tget (w.enterControl h r c).threads l).map Thread.regs = (tget w.threads l).map Thread.regs := by
  cases ht : tget w.threads l with
  | some t =>
    obtain ⟨y, hy, _, _, _, hregs⟩ := enterControl_lane w h r c l t ht
    rw [hy, Option.map_some, Option.map_some, hregs]
  | none =>
    have hclear : tget (w.clearExc r).threads l = none := by
      unfold Warp.clearExc
      split
      · dsimp only
        rw [tget_tmod, ht]
        split <;> rfl
      · exact ht
    unfold Warp.enterControl Warp.release
    rw [keeps_releases Thread.regs (fun _ => rfl)]
    unfold Warp.splitAll Warp.oneBundle
    dsimp only
    rw [tget_map_snd (w.clearExc r).threads (fun (t : Thread) => ({ t with
      pc := h, rem := 0, wait := .run
      windows := t.windows.filter (fun x => !x.ids.any (w.retry.map (·.id)).contains), repIds := [], repDests := [] } : Thread)), hclear]
    rfl

theorem collectFpx_regs (w : Warp) (l : Nat) :
    (tget w.collectFpx.threads l).map Thread.regs = (tget w.threads l).map Thread.regs := by
  unfold Warp.collectFpx
  dsimp only
  rw [show (w.threads.map fun p => if (p.2.wait == .fpx || p.2.wait == .trap) = true then
      (p.1, ({ p.2 with wait := .run } : Thread)) else p) = w.threads.map (fun p => (p.1,
        if (p.2.wait == .fpx || p.2.wait == .trap) = true then ({ p.2 with wait := .run } : Thread) else p.2)) from
    List.map_congr_left fun p _ => by split <;> rfl]
  rw [tget_map_snd w.threads (fun t => if (t.wait == .fpx || t.wait == .trap) = true then
    ({ t with wait := .run } : Thread) else t), Option.map_map]
  congr 1
  funext t
  simp only [Function.comp_apply]
  split <;> rfl

/-- A control core whose handler is taken, or that has none, stops, and its partition fails (R293, R299). -/
theorem controlTrap_stops {s : State} {c : Nat} {k : Core} {w : Warp} (r : Report) (hk : tget s.cores c = some k)
    (hw : s.warpAt? c 0 = some w) (hno : bit k.trap.tframe.toNat 10 = true ∨ k.trap.tvec = 0xFFFFFFFF) :
    s.controlTrap c r =
      { (s.modCore c (fun k => { k with stopped := true })).modPart w.part (fun q => { q with failed := true }) with
        element := { s.element with reports := w.part :: s.element.reports } } := by
  have hcond : (bit k.trap.tframe.toNat 10 || k.trap.tvec == 0xFFFFFFFF) = true := by
    rw [Bool.or_eq_true, beq_iff_eq]
    exact hno
  simp only [State.controlTrap, hk, hw, hcond, if_true]

/-- A control core with a handler keeps the report in its trap registers, and its threads enter the handler (R292, R299). -/
theorem controlTrap_enters {s : State} {c : Nat} {k : Core} {w : Warp} (r : Report) (hk : tget s.cores c = some k)
    (hw : s.warpAt? c 0 = some w) (hn : bit k.trap.tframe.toNat 10 = false) (hv : k.trap.tvec ≠ 0xFFFFFFFF) :
    s.controlTrap c r = ((s.parkSyncs c 0).modCore c (fun k => { k with
      trap := trapRegs k.trap { r with pc := r.retPc } w.level.code true })).modWarpAt c 0 (fun w =>
        w.collectFpx.enterControl k.trap.tvec { r with pc := r.retPc } (s.cycle + 1)) := by
  have hcond : (bit k.trap.tframe.toNat 10 || k.trap.tvec == 0xFFFFFFFF) = false := by
    rw [hn, Bool.false_or, beq_eq_false_iff_ne]
    exact hv
  simp only [State.controlTrap, hk, hw, hcond, Bool.false_eq_true, if_false]

/-- Settles O32: a control core's trap registers take the report and its threads go to TVEC, or the core stops. -/
theorem controlTrap : Obligations.ControlTrap := by
  intro s w k cause lane lo hi q hw hctl hslot hk hrep hcoll hfly hq t
  let r := mkReport w cause lane q.pc lo hi
  have hfault : t = (leftState s).controlTrap s.cur.core r := by
    show s.fault cause lane lo hi = _
    rw [fault_deliver s w cause lane lo hi q hw hrep hq hcoll (by rw [hslot]; exact hfly), State.deliver, if_pos hctl]
  obtain ⟨k1, hk1, htrap⟩ := Option.map_eq_some_iff.mp
    ((left_cores Core.trap (fun _ _ _ _ => rfl) s s.cur.core).trans (congrArg (Option.map Core.trap) hk))
  have hwarp := warpAt_left s w hw
  rw [hslot] at hwarp
  have hleft := keeps_left Thread.regs (fun _ _ => rfl) s
  by_cases hno : bit k1.trap.tframe.toNat 10 = true ∨ k1.trap.tvec = 0xFFFFFFFF
  · have ht := hfault.trans (controlTrap_stops r hk1 hwarp hno)
    rw [ht]
    refine ⟨?_, fun _ => rfl, fun hn hv => ?_, fun _ => ⟨⟨{ k1 with stopped := true }, ?_, rfl, htrap⟩, fun p hp => ?_⟩⟩
    · exact (hleft.trans (keeps_modCore Thread.regs _ s.cur.core (fun k => { k with stopped := true }) (fun _ => rfl))).trans
        (KeepsThreads.of_cores _ rfl)
    · rw [htrap, hn] at hno
      exact absurd (hno.resolve_left Bool.false_ne_true) hv
    · simp only [modPart_cores, modCore_cores, tget_tmod, if_true, hk1, Option.map_some]
    · refine ⟨{ p with failed := true }, ?_, rfl⟩
      have hparts : (leftState s).parts = s.parts := rfl
      simp only [modPart_parts, modCore_parts, Warp.mapLanes, tget_tmod, if_true, hparts, hp, Option.map_some]
  · obtain ⟨hn, hv⟩ := not_or.mp hno
    have ht := hfault.trans (controlTrap_enters r hk1 hwarp (by simpa using hn) hv)
    have hpark := keeps_parkSyncs Thread.regs (fun _ => rfl) (leftState s) s.cur.core 0
    have hcore := keeps_modCore Thread.regs ((leftState s).parkSyncs s.cur.core 0) s.cur.core (fun k => { k with
      trap := trapRegs k.trap { r with pc := r.retPc } w.level.code true }) (fun _ => rfl)
    have hbefore := (hleft.trans hpark).trans hcore
    rw [ht]
    refine ⟨?_, fun _ => rfl, fun _ _ => ⟨?_, fun l th hth => ?_⟩, fun hstop => ?_⟩
    · exact hbefore.trans (keeps_modWarpAt Thread.regs _ _ _ _ (fun x l =>
        (enterControl_regs x.collectFpx _ _ _ l).trans (collectFpx_regs x l)))
    · obtain ⟨k2, hk2, htrap2⟩ := Option.map_eq_some_iff.mp
        ((parkSyncs_cores Core.trap (fun _ _ => rfl) (leftState s) s.cur.core 0 s.cur.core).trans (congrArg (Option.map Core.trap) hk1))
      have hrem : r.rem = q.rem := by
        show (match tget w.threads lane with | some t => t.rem | none => 0) = q.rem
        rw [hq]
      simp only [State.modWarpAt, modCore_cores, tget_tmod, if_true, hk2, Option.map_some, Option.some.injEq, exists_eq_left']
      show trapRegs k2.trap { r with pc := r.retPc } w.level.code true = _
      rw [htrap2, htrap, trapRegs]
      simp only [hrem, if_true]
      rfl
    · have hlane := hbefore s.cur.core 0 l
      have hw' : s.warpAt? s.cur.core 0 = some w := by
        rw [← hslot]
        exact hw
      rw [State.thread?, State.thread?, hw', Option.bind_some, hth] at hlane
      obtain ⟨x, hx, _⟩ := Option.map_eq_some_iff.mp hlane
      obtain ⟨v, hv', hvx⟩ := Option.bind_eq_some_iff.mp hx
      obtain ⟨y, hy, _⟩ := collectFpx_lane v l x hvx
      obtain ⟨z, hz, hpc, hrem, hwait, _⟩ := enterControl_lane v.collectFpx k1.trap.tvec { r with pc := r.retPc }
        ((leftState s).cycle + 1) l y hy
      refine ⟨z, ?_, by rw [hpc, htrap], hrem, hwait⟩
      rw [thread_modWarpAt]
      exact Option.bind_eq_some_iff.mpr ⟨v, hv', hz⟩
    · rw [htrap] at hno
      exact absurd hstop hno

end Sys2Proof.Machine
end

section
/-!
PROOFS. ERET (R294, R305): with nothing left to deliver or to issue again, the return is a change of the warp's lanes by its frame.
-/

namespace Sys2Proof.Machine

/-! The warp whose handler returns. -/

/-- A warp that goes on in one bundle, split where its lanes differ and released where they meet (R53, R55). -/
def Warp.regather (w : Warp) (c : Nat) : Warp := ((w.oneBundle c).splitAll c).release c

theorem regather_blank (w : Warp) (c : Nat) : (w.regather c).blank = w.blank := by
  unfold Warp.regather Warp.release
  rw [releases_blank]
  rfl

theorem regather_lane (w : Warp) (c l : Nat) (t : Thread) (h : tget w.threads l = some t) :
    ∃ y, tget (w.regather c).threads l = some y ∧ y.noMeet = t.noMeet ∧ (y.meetv = t.meetv ∨ y.meetv = 0xFFFFFFFF) := by
  have hsplit : tget ((w.oneBundle c).splitAll c).threads l = some t := h
  unfold Warp.regather Warp.release
  rcases releases_threads c (((w.oneBundle c).splitAll c).running.map (·.2.meetv)) ((w.oneBundle c).splitAll c) l with
    hsame | ⟨t', ht', hnew⟩
  · exact ⟨t, hsame.trans hsplit, rfl, .inl rfl⟩
  · rw [hsplit] at ht'
    cases ht'
    exact ⟨_, hnew, rfl, .inr rfl⟩

/-- A warp with no access to issue again goes on as it is. -/
theorem retryWarp_none (s : State) (c k : Nat) (w : Warp) (h : s.warpAt? c k = some w) (hr : w.retry = []) : s.retryWarp c k = s := by
  unfold State.retryWarp
  rw [h]
  simp [hr]

/-- What ends ERET: reports that are left are delivered, and without a new frame stopped accesses are issued again (R291, R407). -/
def State.eretEnd (s : State) (c k : Nat) : State :=
  match (s.deliverPending c k).warpAt? c k with
  | some w => if w.handler.isNone then (s.deliverPending c k).retryWarp c k else s.deliverPending c k
  | none => s.deliverPending c k

theorem eretEnd_none (s : State) (c k : Nat) (v : Warp) (h : s.warpAt? c k = some v) (hp : v.pendingTraps = []) (hr : v.retry = []) :
    s.eretEnd c k = s := by
  unfold State.eretEnd
  rw [deliverPending_none s c k v h hp, h]
  dsimp only
  rw [retryWarp_none s c k v h hr]
  split <;> rfl

/-! ERET on a compute core. -/

/-- The warp that its frame gives back (R294, R305). -/
def TrapFrame.back (f : TrapFrame) (past : Word) (c : Nat) (w : Warp) : Warp :=
  ({ w with
      threads := w.threads.map (fun (p : Nat × Thread) => (p.1, if p.2.exited then p.2 else f.restore false past p.1 p.2))
      handler := none
      partn := f.partn
      pendingTraps := f.pending
      retry := f.retry } : Warp).regather c

theorem back_fields (f : TrapFrame) (past : Word) (c : Nat) (w : Warp) :
    (f.back past c w).handler = none ∧ (f.back past c w).partn = f.partn ∧ (f.back past c w).pendingTraps = f.pending ∧
      (f.back past c w).retry = f.retry := by
  have hblank := regather_blank ({ w with
      threads := w.threads.map (fun (p : Nat × Thread) => (p.1, if p.2.exited then p.2 else f.restore false past p.1 p.2))
      handler := none, partn := f.partn, pendingTraps := f.pending, retry := f.retry } : Warp) c
  have hhandler := congrArg Warp.handler hblank
  have hpartn := congrArg Warp.partn hblank
  have hpend := congrArg Warp.pendingTraps hblank
  have hretry := congrArg Warp.retry hblank
  exact ⟨hhandler, hpartn, hpend, hretry⟩

/-- The machine after ERET 0 of the issuing warp, with a frame that leaves nothing to do. -/
def State.returned (s : State) (f : TrapFrame) (past : Word) : State :=
  { (s.charge 1).modWarp (f.back past (s.cycle + 1)) with cur := s.cur.clear, cycle := s.cycle + 1 }

theorem warpAt_returned (s : State) (w : Warp) (f : TrapFrame) (past : Word) (hw : s.warp? = some w) :
    (s.returned f past).warpAt? s.cur.core s.cur.slot = some (f.back past (s.cycle + 1) { w with lastTick := s.deckle.tick }) := by
  show ((s.charge 1).modWarpAt s.cur.core s.cur.slot _).warpAt? s.cur.core s.cur.slot = _
  rw [warpAt_modWarpAt, if_pos ⟨rfl, rfl⟩, warp_charge, hw]
  rfl

/-- ERET with no report to deliver and no access to issue again ends where the frame gives the warp back. -/
theorem eretUser_returned (s : State) (w : Warp) (f : TrapFrame) (hw : s.warp? = some w) (hp : f.pending = []) (hr : f.retry = []) :
    s.eretUser false f = s.returned f (s.skipPc s.cur.core w f.report.pc) := by
  have hback := warpAt_returned s w f (s.skipPc s.cur.core w f.report.pc) hw
  obtain ⟨_, _, hpend, hretry⟩ := back_fields f (s.skipPc s.cur.core w f.report.pc) (s.cycle + 1) { w with lastTick := s.deckle.tick }
  have hend := eretEnd_none _ _ _ _ hback (hpend.trans hp) (hretry.trans hr)
  refine Eq.trans ?_ hend
  unfold State.eretUser
  rw [hw]
  rfl

/-- A lane that its frame gives back (R294, R305). -/
theorem back_lane (f : TrapFrame) (past : Word) (c : Nat) (w : Warp) (l : Nat) (t : Thread) (x : SavedLane)
    (ht : tget w.threads l = some t) (hex : t.exited = false) (hx : tget f.lanes l = some x) :
    ∃ y, tget (f.back past c w).threads l = some y ∧ y.regs = x.regs ++ t.regs.drop 8 ∧ y.rem = x.rem ∧ y.wait = .run ∧
      y.pc = (if l = f.report.lane then f.retPc else x.pc) ∧ (y.meetv = x.meetv ∨ y.meetv = 0xFFFFFFFF) := by
  have hmap := tget_map w.threads (fun n t => if t.exited then t else f.restore false past n t) l
  rw [ht, Option.map_some, hex, if_neg Bool.false_ne_true] at hmap
  obtain ⟨y, hy, hsame, hmeet⟩ := regather_lane ({ w with
      threads := w.threads.map (fun (p : Nat × Thread) => (p.1, if p.2.exited then p.2 else f.restore false past p.1 p.2))
      handler := none, partn := f.partn, pendingTraps := f.pending, retry := f.retry } : Warp) c l _ hmap
  have key : ∀ {α : Type} (g : Thread → α), (∀ t, g t.noMeet = g t) → g y = g (f.restore false past l t) := fun g hg => by
    rw [← hg y, hsame, hg]
  have hrestore : (f.restore false past l t).regs = x.regs ++ t.regs.drop 8 ∧ (f.restore false past l t).rem = x.rem ∧
      (f.restore false past l t).wait = .run ∧ (f.restore false past l t).pc = (if l = f.report.lane then f.retPc else x.pc) ∧
      (f.restore false past l t).meetv = x.meetv := by
    unfold TrapFrame.restore
    rw [hx]
    dsimp only
    by_cases hl : l = f.report.lane
    · rw [if_pos hl, if_neg Bool.false_ne_true, if_pos hl]
      exact ⟨rfl, rfl, rfl, rfl, rfl⟩
    · rw [if_neg hl, if_neg hl]
      exact ⟨rfl, rfl, rfl, rfl, rfl⟩
  obtain ⟨hregs, hrem, hwait, hpc, hmeetv⟩ := hrestore
  exact ⟨y, hy, (key Thread.regs fun _ => rfl).trans hregs, (key Thread.rem fun _ => rfl).trans hrem,
    (key Thread.wait fun _ => rfl).trans hwait, (key Thread.pc fun _ => rfl).trans hpc, hmeetv ▸ hmeet⟩

theorem eret_frame {s : State} {w : Warp} {f : TrapFrame} {skip : Bool} (hw : s.warp? = some w) (hctl : isControl s.cur.core = false)
    (hf : w.handler = some f) : s.eret skip = .next (s.eretUser skip f) := by
  simp only [State.eret, hw, hctl, hf, Bool.false_eq_true, if_false]

theorem eret_no_frame {s : State} {w : Warp} {skip : Bool} (hw : s.warp? = some w) (hctl : isControl s.cur.core = false)
    (hf : w.handler = none) : s.eret skip = s.illegalWord := by
  simp only [State.eret, hw, hctl, hf, Bool.false_eq_true, if_false]

/-- Settles O33: the frame of the warp that returns is that of the warp before it has counted, whose lanes it gives back. -/
theorem returnFromUserTrap : Obligations.ReturnFromUserTrap := by
  intro s w h hw hctl
  have hwarp := warp_counted s (Use.sysop [])
  rw [hw, Option.map_some] at hwarp
  have hissue : ∀ skip, s.issue (Use.sysop []) (fun s => s.eret skip) = (s.counted (Use.sysop [])).eret skip :=
    fun skip => issue_runs s _ _ h
  refine ⟨fun f hf hp hr => ⟨?_, ?_⟩, fun hnone i hi => ?_⟩
  · have hexec : exec .eret0 s = .next ((s.counted (Use.sysop [])).returned f ((s.counted (Use.sysop [])).skipPc s.cur.core
        (w.mapLanes s.cur.mask fun _ t => (Use.sysop []).count s.cur t) f.report.pc)) := by
      rw [exec_eret0, execEret0, hissue, eret_frame hwarp hctl hf, eretUser_returned _ _ f hwarp hp hr]
      rfl
    have hback := warpAt_returned (s.counted (Use.sysop [])) _ f
      ((s.counted (Use.sysop [])).skipPc s.cur.core (w.mapLanes s.cur.mask fun _ t => (Use.sysop []).count s.cur t) f.report.pc) hwarp
    refine ⟨_, _, hexec, hback, ?_, ?_, rfl, rfl, fun l th x hth hex hx => ?_⟩
    · exact (back_fields _ _ _ _).1
    · exact (back_fields _ _ _ _).2.1
    · have hlane := tget_mapLanes w s.cur.mask (fun _ t => (Use.sysop []).count s.cur t) l
      rw [hth, Option.map_some] at hlane
      obtain ⟨y, hy, hregs, hrest⟩ := back_lane f ((s.counted (Use.sysop [])).skipPc s.cur.core
        (w.mapLanes s.cur.mask fun _ t => (Use.sysop []).count s.cur t) f.report.pc) (s.cycle + 1)
        { w.mapLanes s.cur.mask fun _ t => (Use.sysop []).count s.cur t with lastTick := s.deckle.tick } l _ x hlane
        (by split <;> simp only [count_exited, hex]) hx
      refine ⟨y, hy, hregs.trans ?_, hrest⟩
      split <;> simp only [count_regs]
  · rw [exec_eret1, execEret1, hissue, eret_frame hwarp hctl hf]
  · rw [← illegalWord_counted s (Use.sysop []) h]
    rcases List.mem_pair.mp hi with rfl | rfl
    · rw [exec_eret0, execEret0, hissue, eret_no_frame hwarp hctl hnone]
    · rw [exec_eret1, execEret1, hissue, eret_no_frame hwarp hctl hnone]

/-! ERET on a control core. -/

/-- A lane of a control core that goes on at TPC, with what its frame has kept (R305). -/
def TrapRegs.resume (t : TrapRegs) (f : Option TrapFrame) (n : Nat) (th : Thread) : Thread :=
  { TrapFrame.rejoin f n th with pc := t.tpc, rem := field t.tframe.toNat 6 0, wait := .run }

/-- The warp of a control core that goes on at TPC (R292, R305). -/
def TrapRegs.back (t : TrapRegs) (c : Nat) (w : Warp) : Warp :=
  ({ w with
      level := Level.ofCode (field t.tframe.toNat 9 8)
      threads := w.threads.map (fun (p : Nat × Thread) => (p.1, t.resume w.handler p.1 p.2))
      handler := none
      pendingTraps := match w.handler with | some f => f.pending | none => w.pendingTraps
      retry := match w.handler with | some f => f.retry | none => w.retry } : Warp).regather c

theorem controlBack_fields (t : TrapRegs) (c : Nat) (w : Warp) :
    (t.back c w).level = Level.ofCode (field t.tframe.toNat 9 8) ∧
      (t.back c w).pendingTraps = ((w.handler.map (·.pending)).getD w.pendingTraps) ∧
      (t.back c w).retry = ((w.handler.map (·.retry)).getD w.retry) := by
  have hblank := regather_blank ({ w with
      level := Level.ofCode (field t.tframe.toNat 9 8)
      threads := w.threads.map (fun (p : Nat × Thread) => (p.1, t.resume w.handler p.1 p.2))
      handler := none
      pendingTraps := match w.handler with | some f => f.pending | none => w.pendingTraps
      retry := match w.handler with | some f => f.retry | none => w.retry } : Warp) c
  have hlevel := congrArg Warp.level hblank
  have hpend := congrArg Warp.pendingTraps hblank
  have hretry := congrArg Warp.retry hblank
  refine ⟨hlevel, hpend.trans ?_, hretry.trans ?_⟩ <;> cases w.handler <;> rfl

theorem controlBack_lane (t : TrapRegs) (c : Nat) (w : Warp) (l : Nat) (th : Thread) (h : tget w.threads l = some th) :
    ∃ y, tget (t.back c w).threads l = some y ∧ y.regs = th.regs ∧ y.pc = t.tpc ∧ y.rem = field t.tframe.toNat 6 0 ∧
      y.wait = .run := by
  have hmap := tget_map w.threads (fun n th => t.resume w.handler n th) l
  rw [h, Option.map_some] at hmap
  obtain ⟨y, hy, hsame, _⟩ := regather_lane ({ w with
      level := Level.ofCode (field t.tframe.toNat 9 8)
      threads := w.threads.map (fun (p : Nat × Thread) => (p.1, t.resume w.handler p.1 p.2))
      handler := none
      pendingTraps := match w.handler with | some f => f.pending | none => w.pendingTraps
      retry := match w.handler with | some f => f.retry | none => w.retry } : Warp) c l _ hmap
  have key : ∀ {α : Type} (g : Thread → α), (∀ t, g t.noMeet = g t) → g y = g (t.resume w.handler l th) := fun g hg => by
    rw [← hg y, hsame, hg]
  have hregs : (t.resume w.handler l th).regs = th.regs := by
    unfold TrapRegs.resume TrapFrame.rejoin
    split <;> rfl
  exact ⟨y, hy, (key Thread.regs fun _ => rfl).trans hregs, key Thread.pc fun _ => rfl, key Thread.rem fun _ => rfl,
    key Thread.wait fun _ => rfl⟩

/-- The machine after ERET 0 of a control core's thread, with nothing left to do. -/
def State.resumed (s : State) (t : TrapRegs) : State :=
  { ((s.charge 1).modCore s.cur.core (fun k => { k with
        trap := { t with tframe := BitVec.ofNat 32 (t.tframe.toNat % 1024) } })).modWarp (t.back (s.cycle + 1)) with
    cur := s.cur.clear, cycle := s.cycle + 1 }

/-- A change of a core beside its warps leaves every warp as it is. -/
theorem warpAt_modCore (s : State) (c : Nat) (g : Core → Core) (h : ∀ k, (g k).warps = k.warps) (c' k' : Nat) :
    (s.modCore c g).warpAt? c' k' = s.warpAt? c' k' := by
  simp only [State.warpAt?, modCore_cores, tget_tmod]
  split
  · cases tget s.cores c' with
    | none => rfl
    | some k => simp only [Option.map_some, Option.bind_some, h]
  · rfl

theorem warpAt_resumed (s : State) (w : Warp) (t : TrapRegs) (hw : s.warp? = some w) :
    (s.resumed t).warpAt? s.cur.core s.cur.slot = some (t.back (s.cycle + 1) { w with lastTick := s.deckle.tick }) := by
  have hcore := warpAt_modCore (s.charge 1) s.cur.core (fun k => { k with
    trap := { t with tframe := BitVec.ofNat 32 (t.tframe.toNat % 1024) } }) (fun _ => rfl) s.cur.core s.cur.slot
  show (((s.charge 1).modCore s.cur.core _).modWarpAt s.cur.core s.cur.slot _).warpAt? s.cur.core s.cur.slot = _
  rw [warpAt_modWarpAt, if_pos ⟨rfl, rfl⟩, hcore, warp_charge, hw]
  rfl

theorem resumed_core (s : State) (k : Core) (t : TrapRegs) (hk : tget s.cores s.cur.core = some k) :
    ∃ k', tget (s.resumed t).cores s.cur.core = some k' ∧
      k'.trap = { t with tframe := BitVec.ofNat 32 (t.tframe.toNat % 1024) } := by
  simp only [State.resumed, State.modWarp, State.modWarpAt, State.charge, modCore_cores, modCore_cur, tget_tmod, if_true, hk,
    Option.map_some, Option.some.injEq, exists_eq_left']

theorem eretControl_resumed (s : State) (w : Warp) (t : TrapRegs) (hw : s.warp? = some w)
    (hp : (w.handler.map (·.pending)).getD w.pendingTraps = []) (hr : (w.handler.map (·.retry)).getD w.retry = []) :
    s.eretControl false w t = s.resumed t := by
  have hback := warpAt_resumed s w t hw
  obtain ⟨_, hpend, hretry⟩ := controlBack_fields t (s.cycle + 1) { w with lastTick := s.deckle.tick }
  have hend := eretEnd_none _ _ _ _ hback (hpend.trans hp) (hretry.trans hr)
  refine Eq.trans ?_ hend
  unfold State.eretControl
  rfl

theorem eret_control {s : State} {w : Warp} {k : Core} {skip : Bool} (hw : s.warp? = some w) (hctl : isControl s.cur.core = true)
    (hk : tget s.cores s.cur.core = some k) (hn : bit k.trap.tframe.toNat 10 = true) :
    s.eret skip = .next (s.eretControl skip w k.trap) := by
  have hcore : s.core s.cur.core = k := by rw [State.core, hk, Option.getD_some]
  simp only [State.eret, hw, hctl, hcore, hn, if_true]

theorem eret_control_illegal {s : State} {w : Warp} {k : Core} {skip : Bool} (hw : s.warp? = some w)
    (hctl : isControl s.cur.core = true) (hk : tget s.cores s.cur.core = some k) (hn : bit k.trap.tframe.toNat 10 = false) :
    s.eret skip = s.illegalWord := by
  have hcore : s.core s.cur.core = k := by rw [State.core, hk, Option.getD_some]
  simp only [State.eret, hw, hctl, hcore, hn, if_true, Bool.false_eq_true, if_false]

/-- Settles O34: the trap registers of the core and the warp's frame give its threads back. -/
theorem returnFromControlTrap : Obligations.ReturnFromControlTrap := by
  intro s w k h hw hctl hk
  have hwarp := warp_counted s (Use.sysop [])
  rw [hw, Option.map_some] at hwarp
  have hissue : ∀ skip, s.issue (Use.sysop []) (fun s => s.eret skip) = (s.counted (Use.sysop [])).eret skip :=
    fun skip => issue_runs s _ _ h
  obtain ⟨k1, hk1, htrap⟩ := Option.map_eq_some_iff.mp
    ((modWarpAt_cores_keep Core.trap (fun _ _ => rfl) s s.cur.core s.cur.slot
      (fun w => w.mapLanes s.cur.mask fun _ t => (Use.sysop []).count s.cur t) s.cur.core).trans (congrArg (Option.map Core.trap) hk))
  have hk2 : tget (s.counted (Use.sysop [])).cores (s.counted (Use.sysop [])).cur.core = some k1 := hk1
  refine ⟨fun hn hrest => ?_, fun hn i hi => ?_⟩
  · have hpr : (w.handler.map (·.pending)).getD w.pendingTraps = [] ∧ (w.handler.map (·.retry)).getD w.retry = [] := by
      cases hh : w.handler <;> rw [hh] at hrest <;> exact hrest
    have hn1 : bit k1.trap.tframe.toNat 10 = true := by rw [htrap]; exact hn
    have hexec : exec .eret0 s = .next ((s.counted (Use.sysop [])).resumed k1.trap) := by
      rw [exec_eret0, execEret0, hissue, eret_control hwarp hctl hk2 hn1, eretControl_resumed _ _ _ hwarp hpr.1 hpr.2]
    have hback := warpAt_resumed (s.counted (Use.sysop [])) _ k1.trap hwarp
    obtain ⟨k3, hk3, htrap3⟩ := resumed_core (s.counted (Use.sysop [])) k1 k.trap hk2
    rw [htrap] at hexec hback
    refine ⟨_, _, _, hexec, rfl, hback, (controlBack_fields _ _ _).1, hk3, htrap3, fun l th hth => ?_, ?_⟩
    · have hlane := tget_mapLanes w s.cur.mask (fun _ t => (Use.sysop []).count s.cur t) l
      rw [hth, Option.map_some] at hlane
      obtain ⟨y, hy, hregs, hpc⟩ := controlBack_lane k.trap (s.cycle + 1)
        { w.mapLanes s.cur.mask fun _ t => (Use.sysop []).count s.cur t with lastTick := s.deckle.tick } l _ hlane
      refine ⟨y, hy, hregs.trans ?_, hpc⟩
      split <;> simp only [count_regs]
    · rw [exec_eret1, execEret1, hissue, eret_control hwarp hctl hk2 hn1, htrap]
  · have hn1 : bit k1.trap.tframe.toNat 10 = false := by rw [htrap]; exact hn
    rw [← illegalWord_counted s (Use.sysop []) h]
    rcases List.mem_pair.mp hi with rfl | rfl
    · rw [exec_eret0, execEret0, hissue, eret_control_illegal hwarp hctl hk2 hn1]
    · rw [exec_eret1, execEret1, hissue, eret_control_illegal hwarp hctl hk2 hn1]

end Sys2Proof.Machine
end

section
/-!
PROOFS. Memory instructions: their accesses (O35) and their faults (O36).
-/
namespace Sys2Proof.Machine

/-- An instruction whose body is an access that passes is accepted with it. -/
theorem issue_access (s : State) (u : Use) (w : Warp) (m : MemUse) (accs : List Acc) (body : State → Out)
    (h : s.canIssue u = true) (hw : (s.counted u).warp? = some w) (ok : (s.counted u).accessOk w accs = true)
    (hb : body (s.counted u) = (s.counted u).access m accs) :
    s.issue u body = .next (((s.counted u).accessFrom w accs).accessGo w m accs) := by
  rw [issue_runs s u body h, hb, access_go _ m _ w hw ok]

/-- Settles O35: each instruction issues, and its body is one access of the live lanes' places. -/
theorem memoryInstructions : Obligations.MemoryInstructions := by
  refine ⟨?_, ?_, ?_, ?_, ?_, ?_⟩
  · intro o k L z a d s w uL uS xL xS ord loads stores
    refine ⟨fun h hw ok => ?_, fun h hw ok => ?_⟩
    · rw [exec_ld]
      exact issue_access s uL w _ loads _ h hw ok rfl
    · rw [exec_st]
      exact issue_access s uS w _ stores _ h hw ok rfl
  · intro b a s w u x adds h hw ok
    rw [exec_bsig]
    exact issue_access s u w _ adds _ h hw ok rfl
  · intro L ar sc o a d s w u x ops h hw ok
    rw [exec_atom]
    exact issue_access s u w _ ops _ h hw ok rfl
  · intro L sat cn fz o a d s w u x ops h hw ok
    rw [exec_red]
    exact issue_access s u w _ ops _ h hw ok rfl
  · intro L a d s w u x ops h hw ok
    rw [exec_redTm]
    exact issue_access s u w _ ops _ h hw ok rfl
  · intro L a d s w u x ops h hw ok
    rw [exec_ldc32]
    refine issue_access s u w _ ops _ h hw ok ?_
    rw [show (s.counted u).warp? = some w from hw]

/-- Settles O36: with nothing held back and nothing late, the first fault is what the access comes to. -/
theorem memoryFaults : Obligations.MemoryFaults := by
  intro s m accs w c lane va hw x hh hl hf
  obtain ⟨hmem, hmin⟩ := firstFault_spec _ _ hf
  refine ⟨?_, accessBad_from x w accs _ hmem, hmin⟩
  have hx : (if isControl s.cur.core = true then
      s.walkAll w (accs.filter (fun a => a.va % a.size == 0 && decide (a.va < 2 ^ 56))) else s) = x := rfl
  unfold State.access
  rw [hw]
  simp only [hx, hh, hl, hf, List.isEmpty_nil, Bool.not_true, Bool.false_eq_true, if_false]

end Sys2Proof.Machine
end

section
/-!
PROOFS. Results that arrive (O40), a router's merge (O42), and what merging keeps (O43).
-/
namespace Sys2Proof.Machine

/-! A result that arrives (R33, R84). -/

/-- The part of a thread that a result writes: its registers and its flags. -/
def Thread.written (t : Thread) : List Word × Word := (t.regs, t.fpflags)

theorem setAll_fpflags (t : Thread) (l : List (Nat × Word)) : (t.setAll l).fpflags = t.fpflags := by
  induction l generalizing t with
  | nil => rfl
  | cons x l ih => exact (ih (t.set x.1 x.2)).trans rfl

theorem wakeWarp_threads {α : Type} (f : Thread → α) (h : ∀ t : Thread, f { t with wait := .run } = f t) (s : State) (c slot : Nat)
    (p : Wait → Bool) : KeepsThreads f s (s.wakeWarp c slot p) :=
  keeps_modWarpAt f s c slot _ (fun w l => keeps_wake f h w _ _ l)

theorem completeEngine_threads {α : Type} (f : Thread → α) (h : ∀ t : Thread, f { t with wait := .run } = f t) (s : State)
    (c slot cls id : Nat) : KeepsThreads f s (s.completeEngine c slot cls id) := by
  unfold State.completeEngine
  refine KeepsThreads.trans ?_ (wakeWarp_threads f h _ _ _ _)
  exact keeps_modWarpAt f s c slot _ (fun _ _ => rfl)

theorem endPending_threads {α : Type} (f : Thread → α) (h : ∀ t : Thread, f { t with wait := .run } = f t) (s : State) (p : Pending) :
    KeepsThreads f s (s.endPending p) := by
  have e : KeepsThreads f s ({ s with pend := s.pend.filter (fun x => x.id != p.id) } : State) := KeepsThreads.of_cores f rfl
  unfold State.endPending
  dsimp only
  cases p.cls with
  | none => exact e.trans (wakeWarp_threads f h _ _ _ _)
  | some k => exact (e.trans (completeEngine_threads f h _ _ _ _ _)).trans (wakeWarp_threads f h _ _ _ _)

theorem endPending_pend (s : State) (p : Pending) : (s.endPending p).pend = s.pend.filter (fun x => x.id != p.id) := by
  unfold State.endPending
  cases p.cls <;> rfl

theorem endPending_mem (s : State) (p : Pending) : (s.endPending p).mem = s.mem := by
  unfold State.endPending
  cases p.cls <;> rfl

/-- What a result makes of a lane. -/
def Thread.given (ws : List LaneWrite) (l : Nat) (t : Thread) : Thread :=
  ((ws.find? (fun x => x.lane == l)).map (fun x => (t.setAll x.regs).raise x.flags)).getD t

theorem tget_commit (s : State) (c slot : Nat) (ws : List LaneWrite) (c' n l : Nat) :
    (s.commit c slot ws).thread? c' n l =
      (s.thread? c' n l).map (fun t => if c' = c ∧ n = slot then Thread.given ws l t else t) := by
  unfold State.commit State.thread?
  rw [warpAt_modWarpAt]
  by_cases hc : c' = c ∧ n = slot
  · rw [if_pos hc]
    cases s.warpAt? c' n with
    | none => rfl
    | some w =>
      simp only [Option.map_some, Option.bind_some, if_pos hc]
      rw [← tget_map w.threads (fun k t => Thread.given ws k t) l]
      congr 1
      apply List.map_congr_left
      intro x _
      unfold Thread.given
      cases ws.find? (fun y => y.lane == x.1) <;> rfl
  · simp only [if_neg hc, Option.map_id']

theorem given_written (ws : List LaneWrite) (l : Nat) (t : Thread) :
    (Thread.given ws l t).written = ((ws.find? (fun x => x.lane == l)).map (fun x =>
      ((t.setAll x.regs).regs, t.fpflags ||| x.flags.setWidth 32))).getD t.written := by
  unfold Thread.given
  cases ws.find? (fun x => x.lane == l) with
  | none => rfl
  | some x => exact Prod.ext rfl (congrArg (· ||| _) (setAll_fpflags t x.regs))

/-- A result of a kind that the event brings is written, and is pending no more. -/
theorem arrive_result (s : State) (id : Nat) (ok : ResKind → Bool) (p : Pending) (k : ResKind) (ws : List LaneWrite)
    (hp : s.pend.find? (fun q => q.id == id) = some p) (hk : p.kind = .result k ws) (h : ok k = true) :
    s.arrive id ok = .next ((s.commit p.core p.slot ws).endPending p) := by
  unfold State.arrive
  rw [hp]
  dsimp only
  rw [hk]
  dsimp only
  rw [if_pos h]

/-- Settles O40: the result is written to its lanes, and what ends it wakes lanes alone. -/
theorem resultsArrive : Obligations.ResultsArrive := by
  intro s p k ws hp hk e he hke
  have hid : p.id = s.ev.id := by simpa using List.find?_some hp
  refine ⟨(s.commit p.core p.slot ws).endPending p, ?_, ?_, endPending_mem _ p, ?_⟩
  · simp only [List.mem_cons, List.not_mem_nil, or_false] at he
    rcases he with rfl | rfl | rfl | rfl
    · rw [exec_loadReturn]
      exact arrive_result s _ _ p k ws hp hk (by simpa using hke)
    · rw [exec_atomReturn]
      exact arrive_result s _ _ p k ws hp hk (by simpa using hke)
    · have hs : k = .sfu := by simpa using hke
      subst hs
      rw [exec_sfuComplete]
      unfold execSfuComplete
      rw [hp]
      dsimp only
      rw [hk]
    · rw [exec_tmResultWritten]
      exact arrive_result s _ _ p k ws hp hk (by simpa using hke)
  · rw [endPending_pend, ← hid]
    rfl
  · intro c n l th hth
    have key := endPending_threads Thread.written (fun _ => rfl) (s.commit p.core p.slot ws) p c n l
    rw [tget_commit, hth] at key
    obtain ⟨y, hy, e⟩ := Option.map_eq_some_iff.mp key
    refine ⟨y, hy, ?_⟩
    by_cases hc : c = p.core ∧ n = p.slot
    · simp only [if_pos hc] at e ⊢
      rw [given_written] at e
      cases hf : ws.find? (fun x => x.lane == l) with
      | none =>
        rw [hf] at e
        exact ⟨congrArg Prod.fst e, congrArg Prod.snd e⟩
      | some x =>
        rw [hf] at e
        exact ⟨congrArg Prod.fst e, congrArg Prod.snd e⟩
    · simp only [if_neg hc] at e ⊢
      exact ⟨congrArg Prod.fst e, congrArg Prod.snd e⟩

/-! A router's merge (R314, R315). -/

/-- Settles O42: the request that carries both stands where the model puts it, and the flags of the merge step go to both. -/
theorem routerMerges : Obligations.RouterMerges := by
  intro s a b k fl ha hb hm hmeet hk m
  rw [exec_routerMerge]
  unfold execRouterMerge
  rw [ha, hb]
  dsimp only
  rw [hm, hmeet, hk]
  by_cases hf : fl = 0
  · refine ⟨_, congrArg Host.Outcome.next (if_pos hf), rfl, rfl, ?_⟩
    rw [if_pos hf, List.append_nil]
  · refine ⟨_, congrArg Host.Outcome.next (if_neg hf), rfl, rfl, ?_⟩
    rw [if_neg hf]

/-! What merging keeps (R199, R265). -/

theorem signedMin_assoc (a b c : Word) : signedMin (signedMin a b) c = signedMin a (signedMin b c) := by
  unfold signedMin; grind
theorem signedMax_assoc (a b c : Word) : signedMax (signedMax a b) c = signedMax a (signedMax b c) := by
  unfold signedMax; grind
theorem unsignedMin_assoc (a b c : Word) : unsignedMin (unsignedMin a b) c = unsignedMin a (unsignedMin b c) := by
  unfold unsignedMin; grind
theorem unsignedMax_assoc (a b c : Word) : unsignedMax (unsignedMax a b) c = unsignedMax a (unsignedMax b c) := by
  unfold unsignedMax; grind

/-- The integer operation that an atomic of three operands applies, of those that routers merge. -/
def atomWord : AtomOp → Word → Word → Word
  | .and => (· &&& ·) | .or => (· ||| ·) | .xor => (· ^^^ ·)
  | .mins => signedMin | .minu => unsignedMin | .maxs => signedMax | .maxu => unsignedMax
  | _ => (· + ·)

/-- The merging integer reductions. -/
def mergedInts : List AtomOp := [.add, .and, .or, .xor, .mins, .minu, .maxs, .maxu]

theorem atomWord_assoc (op : AtomOp) (a b c : Word) : atomWord op (atomWord op a b) c = atomWord op a (atomWord op b c) := by
  cases op with
  | and => exact BitVec.and_assoc a b c
  | or => exact BitVec.or_assoc a b c
  | xor => exact BitVec.xor_assoc a b c
  | mins => exact signedMin_assoc a b c
  | minu => exact unsignedMin_assoc a b c
  | maxs => exact signedMax_assoc a b c
  | maxu => exact unsignedMax_assoc a b c
  | _ => exact BitVec.add_assoc a b c

/-- Without saturation such a reduction is its operation on words, and raises nothing. -/
theorem atomNew_atomWord (op : AtomOp) (h : op ∈ mergedInts) (m v : Word) (rm : Rm) (fz cn : Bool) :
    atomNew op m.toNat v.toNat 0 rm fz cn false = ⟨(atomWord op m v).toNat, 0⟩ := by
  unfold mergedInts at h
  simp only [List.mem_cons, List.not_mem_nil, or_false] at h
  rcases h with rfl | rfl | rfl | rfl | rfl | rfl | rfl | rfl <;>
    simp only [atomNew, atomWord, BitVec.ofNat_toNat, BitVec.setWidth_eq, Bool.false_eq_true, if_false]

theorem bsigSum_assoc (m v w : Nat) : bsigSum (bsigSum m v) w = bsigSum m (bsigSum v w) := by
  unfold bsigSum; omega

theorem bitLen_pos {m : Nat} (h : m ≠ 0) : 1 ≤ bitLen m := by
  unfold bitLen
  rw [if_neg h]
  exact Nat.le_add_left 1 _

/-- Halving a number of 63 bits or more does not lose it. -/
theorem rneShift_ne_zero (x : Int) (h : 2 ^ 62 ≤ x.natAbs) : rneShift x 1 ≠ 0 := by
  have hb := bitLen_pos (m := x.natAbs) (by omega)
  unfold rneShift
  rw [if_neg (by decide), if_neg (by omega)]
  dsimp only
  split <;> omega

theorem shrink_ne_zero (f : Nat) (s k : Int) (h : s ≠ 0) : (shrink f s k).1 ≠ 0 := by
  induction f generalizing s k with
  | zero => exact h
  | succ f ih =>
    unfold shrink
    split
    · exact ih _ _ (rneShift_ne_zero s ‹_›)
    · exact h

/-- Only zero has the normal form of zero. -/
theorem normalise_zero (s k : Int) (h : (normalise s k).1 = 0) : (normalise s k).2 = 0 := by
  unfold normalise at h ⊢
  by_cases hs : s = 0
  · rw [if_pos hs]
  · rw [if_neg hs] at h
    dsimp only at h
    split at h
    · exact absurd h (mul_ne_zero hs (pow_ne_zero _ (by decide)))
    · exact absurd h (shrink_ne_zero _ _ _ hs)

theorem fit_zero (p : Partial) (h : p.S = 0 → p.k = 0) : p.fit.S = 0 → p.fit.k = 0 := by
  unfold Partial.fit
  split
  · exact fun _ => rfl
  · exact h

theorem norm_zero (p : Partial) : p.norm.S = 0 → p.norm.k = 0 :=
  fit_zero _ (normalise_zero p.S p.k)

/-- The order of values as a proposition: by sign, and within a sign by exponent and mantissa. -/
theorem less_iff (a b : Partial) : a.less b = true ↔
    (a.S < 0 ∧ 0 ≤ b.S) ∨ (a.S = 0 ∧ 0 < b.S) ∨ (a.S < 0 ∧ b.S < 0 ∧ (b.k < a.k ∨ a.k = b.k ∧ a.S < b.S)) ∨
      (0 < a.S ∧ 0 < b.S ∧ (a.k < b.k ∨ a.k = b.k ∧ a.S < b.S)) := by
  unfold Partial.less
  split_ifs <;> simp_all <;> omega

/-- Values compare one way only. -/
theorem less_asymm (a b : Partial) (h : a.less b = true) : b.less a = false := by
  rw [Bool.eq_false_iff, ne_eq, less_iff]
  rw [less_iff] at h
  omega

/-- Values in normal form of which neither is the less are one. -/
theorem eq_of_not_less (a b : Partial) (ha : a.S = 0 → a.k = 0) (hb : b.S = 0 → b.k = 0) (h1 : a.less b = false)
    (h2 : b.less a = false) : a.S = b.S ∧ a.k = b.k := by
  rw [Bool.eq_false_iff, ne_eq, less_iff] at h1 h2
  omega

/-- The larger of two values in normal form, whichever comes first. -/
theorem largest_comm (x y : Partial) (hx : x.S = 0 → x.k = 0) (hy : y.S = 0 → y.k = 0) (r : Partial) :
    (if x.less y = true then { r with S := y.S, k := y.k } else { r with S := x.S, k := x.k }) =
      if y.less x = true then { r with S := x.S, k := x.k } else { r with S := y.S, k := y.k } := by
  by_cases h1 : x.less y = true
  · rw [if_pos h1, less_asymm x y h1]; rfl
  · by_cases h2 : y.less x = true
    · rw [if_neg h1, if_pos h2]
    · obtain ⟨es, ek⟩ := eq_of_not_less x y hx hy (by simpa using h1) (by simpa using h2)
      rw [if_neg h1, if_neg h2, es, ek]

/-- The sum of two values at the exponent of the first (R265). -/
def alignedSum (p : Partial × Partial) : Int × Int := normalise (p.1.S + rneShift p.2.S (p.1.k - p.2.k).toNat) p.1.k

/-- The value of higher exponent comes first, and of equal ones either. -/
theorem alignedSum_comm (x y : Partial) :
    alignedSum (if x.k < y.k then (y, x) else (x, y)) = alignedSum (if y.k < x.k then (x, y) else (y, x)) := by
  rcases lt_trichotomy x.k y.k with h | h | h
  · rw [if_pos h, if_neg (by omega)]
  · rw [if_neg (by omega), if_neg (by omega)]
    unfold alignedSum rneShift
    simp only [h, sub_self, Int.toNat_zero, if_true, Int.add_comm]
  · rw [if_neg (by omega), if_pos h]

/-- merge is commutative: its counts and flags are, the larger value is one of the two, and the sum aligns the lower exponent with
the higher whichever comes first. -/
theorem merge_comm (a b : Partial) : merge a b = merge b a := by
  unfold merge
  by_cases ea : a.isEmpty = true
  · by_cases eb : b.isEmpty = true
    · rw [if_pos ea, if_pos eb, if_pos eb, if_pos ea]
    · rw [if_pos ea, if_neg eb, if_neg eb, if_pos ea]
  · by_cases eb : b.isEmpty = true
    · rw [if_neg ea, if_pos eb, if_pos eb, if_neg ea]
    · rw [if_neg ea, if_neg eb, if_neg eb, if_neg ea]
      have za := norm_zero a
      have zb := norm_zero b
      generalize a.norm = x at za ⊢
      generalize b.norm = y at zb ⊢
      dsimp only
      by_cases hd : (x.maxm != y.maxm || x.slot != y.slot) = true
      · have hd' : (y.maxm != x.maxm || y.slot != x.slot) = true := by rw [bne_comm, bne_comm (a := y.slot)]; exact hd
        rw [if_pos hd, if_pos hd', Nat.add_comm, Bool.or_comm x.nan, Bool.or_comm x.sat]
      · have hd' : ¬ (y.maxm != x.maxm || y.slot != x.slot) = true := by rw [bne_comm, bne_comm (a := y.slot)]; exact hd
        have ⟨hm, hs⟩ : x.maxm = y.maxm ∧ x.slot = y.slot := by simpa using hd
        rw [if_neg hd, if_neg hd', hm, hs, Nat.add_comm, Bool.or_comm x.nan, Bool.or_comm x.sat, Bool.or_comm x.arg]
        by_cases hx : y.maxm = true
        · rw [if_pos hx, if_pos hx]
          exact largest_comm x y za zb ⟨0, 0, _, _, _, _, _, _⟩
        · rw [if_neg hx, if_neg hx]
          exact congrArg (fun n : Int × Int => Partial.fit ⟨n.1, n.2, _, _, _, _, _, _⟩) (alignedSum_comm x y)

/-- Settles O43: the integer reductions are associative operations on words, barrier additions too, and merge is commutative. -/
theorem mergesLoseNothing : Obligations.MergesLoseNothing := by
  refine ⟨fun op hop m v w rm fz cn => ?_, bsigSum_assoc, fun a b => ?_⟩
  · rw [atomNew_atomWord op hop, atomNew_atomWord op hop, atomNew_atomWord op hop, atomNew_atomWord op hop, atomWord_assoc]
  · exact congrArg Partial.words (merge_comm (Partial.ofWords a) (Partial.ofWords b))

/-! A request that is applied at its home (R312, R313). -/

theorem feltLog_reqs (s : State) (l : Nat) : (s.feltLog l).reqs = s.reqs := by
  unfold State.feltLog; dsimp only; split <;> rfl

theorem migRecord_reqs (s : State) (pa : Nat) : (s.migRecord pa).reqs = s.reqs := by
  unfold State.migRecord
  dsimp only
  split
  · split
    · rfl
    · split
      · split <;> rfl
      · rfl
  · rfl

theorem homeWrite_reqs (s : State) (pa : Nat) (b : List Byte) : (s.homeWrite pa b).reqs = s.reqs :=
  (migRecord_reqs _ _).trans (feltLog_reqs _ _)

/-- The counting of completed operations changes warps alone. -/
theorem settleCount_field {α : Type} (f : State → α) (h : ∀ s c w g, f (State.modWarpAt s c w g) = f s) (s : State)
    (c slot cls id : Nat) : f (s.settleCount c slot cls id) = f s := by
  unfold State.settleCount
  split
  · rfl
  · exact (h _ _ _ _).trans (h _ _ _ _)

theorem settleCounts_field {α : Type} (f : State → α) (h : ∀ s c w g, f (State.modWarpAt s c w g) = f s) (s : State)
    (l : List (Nat × Nat × Nat)) : f (l.foldl (fun s k => s.settleCount k.1 k.2.1 6 k.2.2) s) = f s :=
  field_foldl f _ (fun s k => settleCount_field f h s k.1 k.2.1 6 k.2.2) l s

/-- What a request leaves at its home. -/
def State.leaves (s : State) (r : Req) : List Byte :=
  match r.kind with
  | .write data => data
  | .red op v rm fz cn sat => bytesOf r.size (atomNew op (wordOf (bytesAt s.mem r.addr r.size)) v.toNat 0 rm fz cn sat).bits
  | .redTm ws => wordsBytes (mergeWords (bytesWords (bytesAt s.mem r.addr 16)) ws)
  | .bsig v => bytesOf 8 (bsigSum (wordOf (bytesAt s.mem r.addr 8)) v.toNat)

/-- A request is one write at its home, and then what it counts as done. -/
theorem applyReq_field {α : Type} (f : State → α) (h : ∀ s c w g, f (State.modWarpAt s c w g) = f s)
    (hf : ∀ (s : State) l, f { s with flagMsgs := l } = f s) (s : State) (r : Req) :
    f (s.applyReq r) = f (({ s with reqs := s.reqs.filter (fun x => x.id != r.id) } : State).homeWrite r.addr (s.leaves r)) := by
  unfold State.applyReq State.leaves
  rw [settleCounts_field f h]
  cases r.kind with
  | red op v rm fz cn sat =>
    dsimp only
    split
    · rfl
    · exact hf _ _
  | _ => rfl

theorem applyReq_reqs (s : State) (r : Req) : (s.applyReq r).reqs = s.reqs.filter (fun x => x.id != r.id) := by
  rw [applyReq_field State.reqs (fun _ _ _ _ => rfl) (fun _ _ => rfl), homeWrite_reqs]

theorem byteAt_homeWrite (s : State) (pa : Nat) (b : List Byte) (hwf : Memory.wf s.mem = true) (hm : NoMig s) (a : Nat) :
    byteAt (s.homeWrite pa b).mem a = overlay (byteAt s.mem) pa b a := by
  rw [homeWrite_mem s pa b hm, byteAt_setBytes _ _ _ _ hwf]
  rfl

theorem byteAt_applyReq (s : State) (r : Req) (hwf : Memory.wf s.mem = true) (hm : s.noMig = true) (a : Nat) :
    byteAt (s.applyReq r).mem a = overlay (byteAt s.mem) r.addr (s.leaves r) a := by
  rw [applyReq_field State.mem (fun _ _ _ _ => rfl) (fun _ _ => rfl)]
  exact byteAt_homeWrite ({ s with reqs := s.reqs.filter (fun x => x.id != r.id) } : State) r.addr (s.leaves r) hwf hm a

/-- Settles O41: what is applied is one write, of the bytes that the request leaves. -/
theorem requestsAtHomes : Obligations.RequestsAtHomes := by
  intro s r hr ha hwf hm was
  have hid : r.id = s.ev.id := by simpa using List.find?_some hr
  have end_ : ∀ new, s.leaves r = new → (s.applyReq r).reqs = s.reqs.filter (fun x => x.id != s.ev.id) ∧
      ∀ a, byteAt (s.applyReq r).mem a = overlay (byteAt s.mem) r.addr new a := by
    intro new hn
    refine ⟨by rw [applyReq_reqs, hid], fun a => ?_⟩
    rw [byteAt_applyReq s r hwf hm, hn]
  refine ⟨fun data hk => ⟨s.applyReq r, ?_, end_ data ?_⟩, fun new hk => ⟨s.applyReq r, ?_, end_ new ?_⟩⟩
  · rw [exec_homeApply]
    unfold execHomeApply
    rw [hr]
    dsimp only
    rw [hk, ha]
    rfl
  · unfold State.leaves; rw [hk]
  · rw [exec_vatApply]
    unfold execVatApply
    rw [hr]
    dsimp only
    rw [ha]
    rcases hk with ⟨op, v, rm, fz, cn, sat, hk, -⟩ | ⟨ws, hk, -⟩ | ⟨v, hk, -⟩ <;> (rw [hk]; rfl)
  · unfold State.leaves
    rcases hk with ⟨op, v, rm, fz, cn, sat, hk, rfl⟩ | ⟨ws, hk, rfl⟩ | ⟨v, hk, rfl⟩
    · rw [hk]
    · rw [hk]
    · rw [hk]; rfl

end Sys2Proof.Machine
end

section
/-!
PROOFS. A relaxed load from normal pages (O37).
-/
namespace Sys2Proof.Machine

/-! The lanes' accesses. -/

theorem setAll_pc (t : Thread) (l : List (Nat × Word)) : (t.setAll l).pc = t.pc := by
  induction l generalizing t with
  | nil => rfl
  | cons x l ih => exact (ih (t.set x.1 x.2)).trans rfl

theorem firstPc_mapActive (s : State) (f : Nat → Thread → Thread) (h : ∀ l t, (f l t).pc = t.pc) :
    (s.mapActive f).firstPc = s.firstPc := by
  unfold State.firstPc
  rw [active_mapActive]
  cases s.active with
  | nil => rfl
  | cons p l => exact h p.1 p.2

/-- The end of an accepted instruction with a destination whose answer waits for nothing (R33). -/
theorem accepted_result (s : State) (m : MemUse) (id : Nat) (writes : List LaneWrite) (h : m.dest ≠ []) :
    s.accepted m id writes false [] =
      (({ s with pend := s.pend ++ [⟨id, s.cur.core, s.cur.slot, s.firstPc, m.cls, .result m.res writes⟩] } : State).openWindow
        m.L [id] m.dest).finish := by
  have hd : m.dest.isEmpty = false := by simpa using h
  unfold State.accepted
  simp only [List.isEmpty_nil, if_true, Bool.false_eq_true, if_false, hd]
  rfl

/-- What is read where a lane reads is the lane's own, counted or not. -/
theorem lanesAt_counted (s : State) (u : Use) (r size : Nat) (ord : Order) (sc : Scope) (dst : Nat) (only : Bool)
    (kind : Nat → Thread → AccKind) (hk : ∀ l t, kind l (u.count s.cur t) = kind l t) :
    (s.counted u).lanesAt r size ord sc dst only kind = s.lanesAt r size ord sc dst only kind := by
  unfold State.lanesAt
  rw [live_counted, List.map_map]
  apply List.map_congr_left
  intro p _
  simp only [Function.comp_apply, count_nat64, hk]

theorem live_mapActive_counted_isEmpty (s : State) (u : Use) : (s.counted u).live.isEmpty = s.live.isEmpty := by
  rw [live_counted, List.isEmpty_map]

/-- No lane is held back after counting where none was. -/
theorem accessHeld_lanesAt (s : State) (u : Use) (r size : Nat) (ord : Order) (sc : Scope) (dst : Nat) (only : Bool)
    (kind : Nat → Thread → AccKind) (wr rel : Bool) (hw : ∀ l t, (kind l t).writes = wr) (hr : ord.releases = rel)
    (h : ∀ p ∈ s.live, s.laneHeld s.cur.core s.cur.slot p.1 wr rel = false) :
    (s.counted u).accessHeld (s.lanesAt r size ord sc dst only kind) = [] := by
  unfold State.accessHeld
  rw [List.map_eq_nil_iff, List.filter_eq_nil_iff]
  intro a ha
  obtain ⟨p, hp, rfl⟩ := List.mem_map.mp ha
  have e : (s.counted u).laneHeld s.cur.core s.cur.slot p.1 wr rel = false := h p hp
  dsimp only
  rw [hw, hr]
  exact Bool.eq_false_iff.mp e

/-- Where a lane's place is plain its access passes. -/
theorem meets_lanesAt (s : State) (u : Use) (w v : Warp) (hv : ∀ a b c, v.request a b c = w.request a b c) (r size : Nat) (ord : Order) (sc : Scope)
    (dst : Nat) (only : Bool) (kind : Nat → Thread → AccKind) (rd wr : Bool) (hk : ∀ l t, (kind l t).reads = rd ∧ (kind l t).writes = wr)
    (pa : Nat → Nat) (h : ∀ p ∈ s.live, s.plainAt w rd wr size (p.2.nat64 r) = some (pa p.1)) :
    ∀ a ∈ s.lanesAt r size ord sc dst only kind, (s.counted u).meets (s.counted u).cur.core v a = .ok := by
  intro a ha
  obtain ⟨p, hp, rfl⟩ := List.mem_map.mp ha
  apply meets_plain (pa := pa p.1)
  dsimp only
  rw [(hk _ _).1, (hk _ _).2, ← h p hp]
  unfold State.plainAt
  rw [hv]
  rfl

/-- A place of a lane in a normal page, as its access is checked. -/
def State.plainPlace (s : State) (v : Warp) (b : Acc) (pa rot : Nat) : Prop :=
  s.xlate (b.request v) b.va = .good pa rot ∧ regPage pa = none ∧ rotType rot = 0 ∧ rotSh rot = false ∧ rotMb rot = false ∧
    pa % 128 + b.size ≤ 128

/-- A relaxed instruction whose live lanes' places are plain: it is accepted at once, and its accesses go where the places are. -/
theorem issue_plain (s : State) (u : Use) (w : Warp) (m : MemUse) (body : State → Out) (r size : Nat) (sc : Scope) (dst : Nat)
    (kind : Nat → Thread → AccKind) (rd wr : Bool) (pa : Nat → Nat) (hci : s.canIssue u = true) (hw : s.warp? = some w)
    (hctl : isControl s.cur.core = false) (hst : s.noStamps = true) (hd : size ∣ 128)
    (hk : ∀ l t, (kind l t).reads = rd ∧ (kind l t).writes = wr) (hc : ∀ l t, kind l (u.count s.cur t) = kind l t)
    (hheld : ∀ p ∈ s.live, s.laneHeld s.cur.core s.cur.slot p.1 wr false = false)
    (hpa : ∀ p ∈ s.live, s.plainAt w rd wr size (p.2.nat64 r) = some (pa p.1))
    (hb : body (s.counted u) = (s.counted u).access m ((s.counted u).lanesAt r size .relaxed sc dst false kind)) :
    ∃ v, (s.counted u).warp? = some v ∧ v.curSlot = w.curSlot ∧ v.block = w.block ∧
      s.issue u body = .next ((s.counted u).accessGo v m (s.lanesAt r size .relaxed sc dst false kind)) ∧
      (∀ b ∈ s.lanesAt r size .relaxed sc dst false kind, (s.counted u).meets (s.counted u).cur.core v b = .ok) ∧
      ∀ b ∈ s.lanesAt r size .relaxed sc dst false kind, ∃ rot, (s.counted u).plainPlace v b (pa b.lane) rot := by
  have hwx : (s.counted u).warp? = some (w.mapLanes s.cur.mask (fun _ t => u.count s.cur t)) := by rw [warp_counted, hw]; rfl
  have hmeet := meets_lanesAt s u w (w.mapLanes s.cur.mask (fun _ t => u.count s.cur t)) (fun _ _ _ => rfl) r size .relaxed sc dst
    false kind rd wr hk pa hpa
  have hrlx : ∀ b ∈ s.lanesAt r size .relaxed sc dst false kind, b.ord = .relaxed := by
    intro b hb
    obtain ⟨p, -, rfl⟩ := List.mem_map.mp hb
    rfl
  obtain ⟨hfrom, hok⟩ := ok_of_plain (s.counted u) _ _ hctl
    (accessHeld_lanesAt s u r size .relaxed sc dst false kind wr false (fun l t => (hk l t).2) rfl hheld) hst hrlx hmeet
  refine ⟨_, hwx, rfl, rfl, ?_, hmeet, fun b hb => ?_⟩
  · rw [lanesAt_counted s u _ _ _ _ _ _ _ hc] at hb
    refine (issue_access s u _ m _ body hci hwx hok hb).trans ?_
    rw [hfrom]
  · obtain ⟨p, hp, rfl⟩ := List.mem_map.mp hb
    obtain ⟨hal, -, rot, hx, h1, h2, h3, h4, -⟩ := plainAt_spec (hpa p hp)
    refine ⟨rot, ?_, h1, h2, h3, h4, inLine (xlate_offset hx) hd hal⟩
    rw [← hx]
    unfold Acc.request
    dsimp only
    rw [(hk _ _).1, (hk _ _).2]
    rfl

/-! An accepted load. -/

/-- A helper lane's destinations are 0 (R59). -/
def zeroHelper (dest : List Nat) (_ : Nat) (t : Thread) : Thread := if t.helper then t.setAll (dest.map (fun r => (r, 0))) else t

theorem zeroHelper_pc (dest : List Nat) (l : Nat) (t : Thread) : (zeroHelper dest l t).pc = t.pc := by
  unfold zeroHelper
  split
  · exact setAll_pc t _
  · rfl

theorem noteAcq_relaxed (accs : List Acc) (h : ∀ a ∈ accs, a.ord = .relaxed) (n : Nat) (t : Thread) : t.noteAcq accs n = t := by
  unfold Thread.noteAcq
  rw [if_neg]
  rw [Bool.not_eq_true, List.any_eq_false]
  intro a ha
  rw [h a ha]
  simp [Order.acquires]

/-- Relaxed loads from normal pages that are accepted: the state after they have been performed differs from the one that only
zeroes helper lanes' destinations in L1 alone. -/
theorem accessGo_loads (x : State) (w : Warp) (m : MemUse) (accs : List Acc) (h : Hint) (hh : h ≠ .l2) (pa rot : Acc → Nat) (k : Core)
    (hk : tget x.cores x.cur.core = some k) (hd : m.dest ≠ []) (hc : m.cls = none) (hg : m.given = []) (hr : x.reqs = [])
    (hl : x.live.isEmpty = false) (hp : x.pkts.all (fun p => p.op != some x.nextId) = true)
    (hm : ∀ a ∈ accs, x.meets x.cur.core w a = .ok)
    (ha : ∀ a ∈ accs, a.kind = .load h ∧ a.ord = .relaxed ∧ x.xlate (a.request w) a.va = .good (pa a) (rot a) ∧
      regPage (pa a) = none ∧ rotType (rot a) = 0 ∧ pa a % 128 + a.size ≤ 128) :
    ∃ y : State, y.noL1 = (({ x with nextId := x.nextId + 1 } : State).mapActive (zeroHelper m.dest)).noL1 ∧
      (∀ c d a, y.sees c d a =
        if c = x.cur.core ∧ d = w.curSlot ∧ accs.any (fun b => pa b / 128 == a / 128) = true then x.loads1 c d a else x.sees c d a) ∧
      x.accessGo w m accs = (({ y with pend := x.pend ++ [⟨x.nextId, x.cur.core, x.cur.slot, x.firstPc, none, .result m.res
          (accs.map (fun a => ⟨a.lane, loadRegs a.dst ((List.range a.size).map (fun i => x.loads1 x.cur.core w.curSlot (pa a + i))), 0⟩))⟩] }
        : State).mapActive (fun _ t => t.openWindow x.cur.last m.L.toNat false [x.nextId] m.dest)).finish := by
  have ho : ∀ a ∈ accs, a.ord = .relaxed := fun a h => (ha a h).2.1
  have hz : (fun n (t : Thread) => if t.helper then t.setAll (m.dest.map (fun r => (r, 0))) else t.noteAcq accs n) =
      zeroHelper m.dest := by
    funext n t
    rw [noteAcq_relaxed accs ho n t]
    rfl
  have keep : KeepsCores Core.l1 x (({ x with nextId := x.nextId + 1 } : State).mapActive (zeroHelper m.dest)) :=
    keepsL1_mapActive ({ x with nextId := x.nextId + 1 } : State) _
  obtain ⟨k', hk'⟩ : ∃ k', tget (({ x with nextId := x.nextId + 1 } : State).mapActive (zeroHelper m.dest)).cores x.cur.core = some k' := by
    have := keep x.cur.core
    rw [hk] at this
    obtain ⟨k', e, -⟩ := Option.map_eq_some_iff.mp this
    exact ⟨k', e⟩
  obtain ⟨y1, -, y3, y4⟩ := performAll_loads x.cur.core x.cur.slot w x.nextId h hh pa rot accs
    (({ x with nextId := x.nextId + 1 } : State).mapActive (zeroHelper m.dest)) k' hk' hr ha
  refine ⟨((({ x with nextId := x.nextId + 1 } : State).mapActive (zeroHelper m.dest)).performAll x.cur.core x.cur.slot w x.nextId
    accs).1, y1, ?_, ?_⟩
  · intro c d a
    rw [y3, loads1_keep keep rfl, sees_of keep rfl]
  · rw [accessGo_plain x w m accs hc hg hm ho hl]
    dsimp only
    rw [foldAll_loads _ w h accs (fun a h => (ha a h).1), hz]
    generalize ((({ x with nextId := x.nextId + 1 } : State).mapActive (zeroHelper m.dest)).performAll x.cur.core x.cur.slot w
      x.nextId accs) = y at y1 y4
    have hpk : y.1.pkts.any (fun p => p.op == some x.nextId) = false := by
      rw [noL1_pkts y1, List.any_eq_false]
      intro p hp'
      simpa using List.all_eq_true.mp hp p hp'
    have hcur : y.1.cur = x.cur := (congrArg State.cur y1 :)
    have hpend : y.1.pend = x.pend := (congrArg State.pend y1 :)
    have hpc : y.1.firstPc = x.firstPc := by
      have e : y.1.firstPc = (({ x with nextId := x.nextId + 1 } : State).mapActive (zeroHelper m.dest)).firstPc := by
        unfold State.firstPc
        rw [noL1_active y1]
      exact e.trans (firstPc_mapActive ({ x with nextId := x.nextId + 1 } : State) _ (zeroHelper_pc m.dest))
    rw [hpk, accepted_result y.1 m x.nextId y.2 hd, hcur, hpend, hpc, hc, y4]
    simp only [loads1_keep keep rfl]
    unfold State.openWindow
    dsimp only

theorem szRegs_range_ne_nil (z : Sz) (r : Nat) : (List.range (szRegs z)).map (r + ·) ≠ [] := by
  cases z <;> simp [szRegs]

/-- Settles O37: the accesses of the live lanes pass, and the load's state is, but for L1, the one in which the result pends. -/
theorem plainLoad : Obligations.PlainLoad := by
  intro k L z a d s w pa u dest hci hw hctl hmod hk hlive hreqs hst hheld hpk hpa out
  have hord : s.cur.order (ordOf .rlx) = .relaxed := by unfold Cur.order; rw [hmod]; rfl
  have hsc : s.cur.scope .package = .package := by unfold Cur.scope; rw [hmod]; rfl
  have hhint : s.cur.hint k .relaxed = k := by unfold Cur.hint; rw [hmod]; rfl
  let accs := s.lanesAt (s.reg .va a) (szBytes z) .relaxed .package (s.reg .vd d) false (fun _ _ => .load k)
  let m : MemUse := { L := L, cls := none, res := .load, dest := dest }
  obtain ⟨v, hwx, hslot, -, hrun, hmeet, hplace⟩ := issue_plain s u w m
    (fun x => x.access m (x.lanesAt (s.reg .va a) (szBytes z) .relaxed .package (s.reg .vd d) false (fun _ _ => .load k))) (s.reg .va a) (szBytes z) .package (s.reg .vd d)
    (fun _ _ => .load k) true false pa hci hw hctl hst (szBytes_dvd z) (fun _ _ => ⟨rfl, rfl⟩) (fun _ _ => rfl) hheld hpa rfl
  have hex : exec (.ld .rlx k L z a d) s = s.issue u (fun x => x.access m (x.lanesAt (s.reg .va a) (szBytes z) .relaxed .package
      (s.reg .vd d) false (fun _ _ => .load k))) := by
    rw [exec_ld]
    refine (issue_runs s u _ hci).trans (Eq.trans ?_ (issue_runs s u _ hci).symm)
    dsimp only
    rw [show (s.counted u).cur.order (ordOf .rlx) = .relaxed from hord, show (s.counted u).cur.scope .package = .package from hsc,
      show (s.counted u).cur.hint k .relaxed = k from hhint]
    rfl
  have hacc : ∀ b ∈ accs, ∃ rot, b.kind = .load k ∧ b.ord = .relaxed ∧
      (s.counted u).xlate (b.request v) b.va = .good (pa b.lane) rot ∧
      regPage (pa b.lane) = none ∧ rotType rot = 0 ∧ pa b.lane % 128 + b.size ≤ 128 := by
    intro b hb
    obtain ⟨rot, hx, h1, h2, -, -, h3⟩ := hplace b hb
    obtain ⟨p, -, rfl⟩ := List.mem_map.mp hb
    exact ⟨rot, rfl, rfl, hx, h1, h2, h3⟩
  choose! rot hrot using hacc
  obtain ⟨q, hq⟩ := tget_of_warp hwx
  have hlive' : (s.counted u).live.isEmpty = false := by
    rw [live_counted, List.isEmpty_map]
    simpa using hlive
  obtain ⟨y, hy, hsees, hgo⟩ := accessGo_loads (s.counted u) v m accs k hk (fun b => pa b.lane) rot q hq (szRegs_range_ne_nil z _) rfl
    rfl hreqs hlive' hpk hmeet hrot
  have hout : accs.map (fun b => (⟨b.lane, loadRegs b.dst ((List.range b.size).map (fun i =>
      (s.counted u).loads1 (s.counted u).cur.core v.curSlot (pa b.lane + i))), 0⟩ : LaneWrite)) = out := by
    rw [hslot]
    simp only [accs, out, State.lanesAt, List.map_map, Function.comp_def, loads1_counted]
    rfl
  rw [hout] at hgo
  let g : Nat → Thread → Thread := fun l t => (zeroHelper dest l t).openWindow s.cur.last L.toNat false [s.nextId] dest
  let x0 : State := (({ s.counted u with
      pend := (s.counted u).pend ++ [s.pending none (.result .load out)], nextId := (s.counted u).nextId + 1 } : State).mapActive g).finish
  obtain ⟨t0, e0, only, lanes⟩ := pending_run s u (fun _ => .next x0) g (.result .load out) hci rfl
  rw [issue_runs s u _ hci] at e0
  obtain rfl : x0 = t0 := Host.Outcome.next.inj e0
  have hpc : (s.counted u).firstPc = s.firstPc := firstPc_counted s u hci
  rw [hpc] at hgo
  have hend := load_end (s.counted u) y (zeroHelper dest) (fun _ t => t.openWindow s.cur.last L.toNat false [s.nextId] dest)
    (s.nextId + 1) (s.pend ++ [s.pending none (.result .load out)]) hy
  have hpend : ∀ t : State, t.noL1 = x0.noL1 → OnlyPending s.noL1 t.noL1 (s.pending none (.result .load out)) :=
    fun t h => h ▸ only.noL1
  refine ⟨_, hex.trans (hrun.trans (congrArg Host.Outcome.next hgo)), hpend _ hend, LaneStep.noL1 hend ?_, fun c e x => ?_⟩
  · have hg : (fun l th => u.ran s.cur (g l) th) = (fun _ th => u.ran s.cur (fun x =>
        (if th.helper then x.setAll (dest.map (fun r => (r, 0))) else x).openWindow s.cur.last L.toNat false [s.nextId] dest) th) := by
      funext l th
      simp only [Use.ran, g, zeroHelper, count_helper]
    exact hg ▸ lanes
  refine (sees_of (KeepsCores.trans (keepsL1_mapActive ({ y with pend := _ } : State) _) (keepsL1_finish _)) rfl c e x).trans ?_
  refine (hsees c e x).trans ?_
  rw [loads1_counted, sees_counted, hslot]
  have hany : accs.any (fun b => pa b.lane / 128 == x / 128) = s.live.any (fun p => pa p.1 / 128 == x / 128) := by
    simp only [accs, State.lanesAt, List.any_map]
    rfl
  rw [hany]
  rfl

end Sys2Proof.Machine
end

section
/-!
PROOFS. A relaxed store to normal pages (O38).
-/
namespace Sys2Proof.Machine

/-! Bytes laid into L1 (R181, R236). -/

theorem tget_putBytes (data : List Byte) (n pa x : Nat) (t : Tbl (Byte × Bool)) :
    tget ((data.zipIdx n).foldl (fun (t : Tbl (Byte × Bool)) (y : Byte × Nat) => tput t (pa + y.2) (y.1, true)) t) x =
      if pa + n ≤ x ∧ x < pa + n + data.length then some (data.getD (x - (pa + n)) 0, true) else tget t x := by
  induction data generalizing n t with
  | nil => simp
  | cons b l ih =>
    rw [List.zipIdx_cons, List.foldl_cons, ih, tget_tput, List.length_cons]
    by_cases h0 : x = pa + n
    · subst h0
      rw [if_neg (by omega), if_pos (by omega), if_pos (by omega), Nat.sub_self]
      rfl
    · by_cases h1 : pa + (n + 1) ≤ x ∧ x < pa + (n + 1) + l.length
      · rw [if_pos h1, if_pos (by omega)]
        have : x - (pa + n) = x - (pa + (n + 1)) + 1 := by omega
        rw [this]
        rfl
      · rw [if_neg h1, if_neg h0, if_neg (by omega)]

/-- A line's monitors wake; no L1 changes. -/
theorem wakeLine_keepsL1 (s : State) (pa : Nat) : KeepsCores Core.l1 s (s.wakeLine pa) :=
  wake_cores Core.l1 (fun _ _ => rfl) s _

/-- A store into L1 lays its bytes where its domain slot sees them, and nothing else. -/
theorem l1Write_sees (s : State) (c d pa : Nat) (data : List Byte) (k : Core) (h : tget s.cores c = some k) (c' d' x : Nat) :
    (s.l1Write c d pa data).sees c' d' x =
      if c' = c ∧ d' = d then overlay (s.sees c d) pa data x else s.sees c' d' x := by
  unfold State.l1Write
  rw [sees_of (wakeLine_keepsL1 _ pa) (wakeLine_mem _ pa)]
  unfold State.sees
  rw [l1Of_setL1 s c d _ k h, setL1_mem]
  by_cases hc : c' = c ∧ d' = d
  · rw [if_pos hc, if_pos hc, tget_putBytes]
    unfold overlay
    simp only [Nat.add_zero]
    by_cases hx : pa ≤ x ∧ x < pa + data.length
    · rw [if_pos hx, if_pos hx]
    · rw [if_neg hx, if_neg hx]
  · rw [if_neg hc, if_neg hc]

/-! What a store leaves. -/

/-- The state but for what a plain store may change: its core, its launch and its digest. -/
def State.unstored (s : State) : State := { s with cores := [], launches := [], domains := [], blocks := [] }

theorem unstored_xlate {s t : State} (h : t.unstored = s.unstored) (x : XReq) (va : Nat) : t.xlate x va = s.xlate x va := by
  have e : ∀ u : State, u.xlate x va = u.unstored.xlate x va := fun _ => rfl
  rw [e t, e s, h]

theorem launchLog_unstored (s : State) (c : Nat) (w : Warp) (pa rot : Nat) : (s.launchLog c w pa rot).unstored = s.unstored := by
  unfold State.launchLog
  cases tget s.blocks w.block with
  | none => rfl
  | some b =>
    dsimp only
    cases tget s.launches b.launch with
    | none => rfl
    | some l =>
      dsimp only
      split
      · split <;> rfl
      · rfl

theorem launchLog_cores (s : State) (c : Nat) (w : Warp) (pa rot : Nat) : (s.launchLog c w pa rot).cores = s.cores := by
  unfold State.launchLog
  cases tget s.blocks w.block with
  | none => rfl
  | some b =>
    dsimp only
    cases tget s.launches b.launch with
    | none => rfl
    | some l =>
      dsimp only
      split
      · split <;> rfl
      · rfl

theorem markSoon_threads {α : Type} (f : Thread → α) (s : State) (c d line : Nat) (h : Hint) : KeepsThreads f s (s.markSoon c d line h) := by
  unfold State.markSoon
  split
  · refine keeps_modCore f s c _ (fun k => ?_)
    dsimp only
    split <;> rfl
  · exact KeepsThreads.refl f s

theorem markSoon_core (s : State) (c d line : Nat) (h : Hint) : KeepsCores (fun _ => ()) s (s.markSoon c d line h) := by
  unfold State.markSoon
  split
  · exact modCore_cores_keep _ s c _ (fun _ => rfl)
  · exact fun _ => rfl

theorem markSoon_unstored (s : State) (c d line : Nat) (h : Hint) : (s.markSoon c d line h).unstored = s.unstored := by
  unfold State.markSoon
  split <;> rfl

theorem l1Write_threads {α : Type} (f : Thread → α) (h : ∀ t : Thread, f { t with wait := .run } = f t) (s : State) (c d pa : Nat)
    (data : List Byte) : KeepsThreads f s (s.l1Write c d pa data) := by
  unfold State.l1Write State.wakeLine
  exact (keeps_modCore f s c (fun k => { k with l1 := tput k.l1 d _ }) (fun _ => rfl)).trans (keeps_wakeAll f h _ _)

/-- A plain store is done in L1, after what it notes of its page. -/
theorem perform_store (s : State) (c slot : Nat) (w : Warp) (opid : Nat) (a : Acc) (pa rot : Nat) (data : List Byte) (h : Hint)
    (hk : a.kind = .store data h) (hh : h ≠ .l2) (hs : a.scope = .package) (h1 : regPage pa = none) (h2 : rotType rot = 0)
    (h3 : rotSh rot = false) (h4 : rotMb rot = false) :
    s.perform c slot w opid a pa rot =
      (((s.launchLog c w pa rot).l1Write c w.curSlot pa data).markSoon c w.curSlot (pa / 128 * 128) h, none) := by
  have hn : s.noteWrite c w pa rot .package = s.launchLog c w pa rot := by
    unfold State.noteWrite State.mailStore
    rw [h3, h4]
    rfl
  have hb : (h == Hint.l2) = false := by simpa using hh
  unfold State.perform
  rw [h1]
  simp only [h2, hk, hs, hn, hb]
  rfl

/-- The bytes of a store. -/
def AccKind.bytes : AccKind → List Byte
  | .store data _ => data
  | _ => []

/-- Plain stores, one after another: what they change is in L1, in their domain slot, and what they note of their pages. -/
theorem performAll_stores (c slot : Nat) (w : Warp) (opid : Nat) (h : Hint) (hh : h ≠ .l2) (pa rot : Acc → Nat) :
    ∀ (accs : List Acc) (s : State), (tget s.cores c).isSome = true →
    (∀ a ∈ accs, (∃ data, a.kind = .store data h) ∧ a.scope = .package ∧ s.xlate (a.request w) a.va = .good (pa a) (rot a) ∧
      regPage (pa a) = none ∧ rotType (rot a) = 0 ∧ rotSh (rot a) = false ∧ rotMb (rot a) = false) →
    (s.performAll c slot w opid accs).1.unstored = s.unstored ∧
    KeepsThreads Thread.regs s (s.performAll c slot w opid accs).1 ∧
    ∀ c' d' x, (s.performAll c slot w opid accs).1.sees c' d' x =
      if c' = c ∧ d' = w.curSlot then accs.foldl (fun f a => overlay f (pa a) a.kind.bytes) (s.sees c w.curSlot) x
      else s.sees c' d' x := by
  intro accs
  induction accs with
  | nil =>
    intro s _ _
    refine ⟨rfl, KeepsThreads.refl _ s, fun c' d' x => ?_⟩
    split
    · rename_i e; rw [e.1, e.2]; rfl
    · rfl
  | cons a l ih =>
    intro s hc H
    obtain ⟨⟨data, hk⟩, hs, hx, h1, h2, h3, h4⟩ := H a List.mem_cons_self
    obtain ⟨k, hk'⟩ := Option.isSome_iff_exists.mp hc
    have hp := perform_store s c slot w opid a (pa a) (rot a) data h hk hh hs h1 h2 h3 h4
    generalize hr : ((s.launchLog c w (pa a) (rot a)).l1Write c w.curSlot (pa a) data).markSoon c w.curSlot (pa a / 128 * 128) h = r at hp
    have ku : r.unstored = s.unstored := by
      subst hr
      rw [markSoon_unstored]
      exact (launchLog_unstored s c w (pa a) (rot a) :)
    have kt : KeepsThreads Thread.regs s r := by
      subst hr
      exact ((KeepsThreads.of_cores _ (launchLog_cores s c w (pa a) (rot a))).trans
        (l1Write_threads Thread.regs (fun _ => rfl) _ c w.curSlot (pa a) data)).trans (markSoon_threads _ _ _ _ _ _)
    have ks : ∀ c' d' x, r.sees c' d' x =
        if c' = c ∧ d' = w.curSlot then overlay (s.sees c w.curSlot) (pa a) data x else s.sees c' d' x := by
      intro c' d' x
      have hl := launchLog_cores s c w (pa a) (rot a)
      have hm : (s.launchLog c w (pa a) (rot a)).mem = s.mem := (congrArg State.mem (launchLog_unstored s c w (pa a) (rot a)) :)
      have hsee : ∀ c' d', (s.launchLog c w (pa a) (rot a)).sees c' d' = s.sees c' d' := fun c' d' =>
        funext (sees_of (KeepsCores.of_cores Core.l1 hl) hm c' d')
      subst hr
      rw [markSoon_sees, l1Write_sees _ c w.curSlot (pa a) data k (by rw [hl]; exact hk'), hsee, hsee]
    have kc : (tget r.cores c).isSome = true := by
      have e : KeepsCores (fun _ => ()) s r := by
        subst hr
        refine KeepsCores.trans (KeepsCores.of_cores _ (launchLog_cores s c w (pa a) (rot a))) (KeepsCores.trans ?_ (markSoon_core _ _ _ _ h))
        refine KeepsCores.trans ?_ (wake_cores _ (fun _ _ => rfl) _ _)
        exact modCore_cores_keep _ _ c _ (fun _ => rfl)
      have := e c
      rw [hk'] at this
      obtain ⟨k', e, -⟩ := Option.map_eq_some_iff.mp this
      rw [e]
      rfl
    obtain ⟨i1, i2, i3⟩ := ih r kc (fun b hb => by
      obtain ⟨f1, f2, f3, f4⟩ := H b (List.mem_cons_of_mem _ hb)
      exact ⟨f1, f2, (unstored_xlate ku _ _).trans f3, f4⟩)
    unfold State.performAll
    rw [hx]
    simp only [hp]
    refine ⟨i1.trans ku, kt.trans i2, fun c' d' x => ?_⟩
    rw [i3, List.foldl_cons]
    by_cases hcd : c' = c ∧ d' = w.curSlot
    · rw [if_pos hcd, if_pos hcd, hk]
      have hf : r.sees c w.curSlot = overlay (s.sees c w.curSlot) (pa a) (AccKind.store data h).bytes :=
        funext fun y => (ks c w.curSlot y).trans (if_pos ⟨rfl, rfl⟩)
      rw [hf]
    · rw [if_neg hcd, if_neg hcd, ks, if_neg hcd]

/-- The end of an accepted instruction without a destination whose answer waits for nothing. -/
theorem accepted_nothing (s : State) (m : MemUse) (id : Nat) (writes : List LaneWrite) (h : m.dest = []) :
    s.accepted m id writes false [] = (s.openWindow m.L [] []).finish := by
  unfold State.accepted
  simp only [List.isEmpty_nil, if_true, Bool.false_eq_true, if_false, h]

theorem openWindow_regs (c : Cur) (t : Thread) (L : Nat) (b : Bool) (ids dest : List Nat) : (t.openWindow c.last L b ids dest).regs = t.regs := by
  unfold Thread.openWindow
  split <;> rfl

theorem finish_regs (s : State) : KeepsThreads Thread.regs s s.finish :=
  keeps_finishBy Thread.regs s 1 (fun _ t => t.advance s.cur) (fun _ => rfl) (fun _ _ _ => rfl) (fun _ t _ => advance_regs s.cur t)

theorem foldAll_unstored (s : State) (w : Warp) (accs : List Acc) : (s.foldAll w accs).unstored = s.unstored := by
  unfold State.foldAll
  apply field_foldl State.unstored
  intro s a
  cases a.kind <;> rfl

theorem foldAll_cores (s : State) (w : Warp) (accs : List Acc) : (s.foldAll w accs).cores = s.cores := by
  unfold State.foldAll
  apply field_foldl State.cores
  intro s a
  cases a.kind <;> rfl

/-- Relaxed stores to normal pages that are accepted: the state after they have been performed, of which only the end is left. -/
theorem accessGo_stores (x : State) (w : Warp) (m : MemUse) (accs : List Acc) (h : Hint) (hh : h ≠ .l2) (pa rot : Acc → Nat)
    (hk : (tget x.cores x.cur.core).isSome = true) (hd : m.dest = []) (hc : m.cls = none) (hg : m.given = [])
    (hl : x.live.isEmpty = true → accs = []) (hp : x.pkts.all (fun p => p.op != some x.nextId) = true)
    (hm : ∀ a ∈ accs, x.meets x.cur.core w a = .ok) (ho : ∀ a ∈ accs, a.ord = .relaxed)
    (ha : ∀ a ∈ accs, (∃ data, a.kind = .store data h) ∧ a.scope = .package ∧ x.xlate (a.request w) a.va = .good (pa a) (rot a) ∧
      regPage (pa a) = none ∧ rotType (rot a) = 0 ∧ rotSh (rot a) = false ∧ rotMb (rot a) = false) :
    ∃ y : State, x.accessGo w m accs = (y.openWindow m.L [] []).finish ∧ y.pend = x.pend ∧ y.mem = x.mem ∧
      KeepsThreads Thread.regs x y ∧
      ∀ c d a, y.sees c d a = if c = x.cur.core ∧ d = w.curSlot then
        accs.foldl (fun f a => overlay f (pa a) a.kind.bytes) (x.sees x.cur.core w.curSlot) a else x.sees c d a := by
  let g : Nat → Thread → Thread := fun n t => if t.helper then t.setAll (m.dest.map (fun r => (r, 0))) else t.noteAcq accs n
  let z : State := (({ x with nextId := x.nextId + 1 } : State).foldAll w accs).mapActive g
  have hgr : ∀ l t, (g l t).regs = t.regs := by
    intro l t
    simp only [g, hd, noteAcq_relaxed accs ho]
    split <;> rfl
  have hfu : (({ x with nextId := x.nextId + 1 } : State).foldAll w accs).unstored = ({ x with nextId := x.nextId + 1 } : State).unstored :=
    foldAll_unstored _ w accs
  have hfc := foldAll_cores ({ x with nextId := x.nextId + 1 } : State) w accs
  have zu : z.unstored = ({ x with nextId := x.nextId + 1 } : State).unstored := hfu
  have zt : KeepsThreads Thread.regs x z :=
    (KeepsThreads.of_cores _ hfc).trans (keeps_mapActive Thread.regs _ g hgr)
  have zc : KeepsCores (fun _ => ()) x z :=
    (KeepsCores.of_cores _ hfc).trans (modCore_cores_keep _ _ _ _ (fun _ => rfl))
  have zs : ∀ c d a, z.sees c d a = x.sees c d a :=
    sees_of ((KeepsCores.of_cores _ hfc).trans (keepsL1_mapActive _ g)) (congrArg State.mem zu :)
  cases hlive : x.live.isEmpty with
  | true =>
    refine ⟨z, ?_, (congrArg State.pend zu :), (congrArg State.mem zu :), zt, fun c d a => ?_⟩
    · unfold State.accessGo State.fresh
      dsimp only
      rw [if_pos hlive]
      exact congrArg (fun d => (State.openWindow z m.L [] d).finish) hd
    · rw [zs, hl hlive]
      split
      · rename_i e; rw [e.1, e.2]; rfl
      · rfl
  | false =>
    have hz : (tget z.cores x.cur.core).isSome = true := by
      have := zc x.cur.core
      obtain ⟨k, e⟩ := Option.isSome_iff_exists.mp hk
      rw [e] at this
      obtain ⟨k', e', -⟩ := Option.map_eq_some_iff.mp this
      rw [e']
      rfl
    obtain ⟨yu, yt, ys⟩ := performAll_stores x.cur.core x.cur.slot w x.nextId h hh pa rot accs z hz (fun a hA => by
      obtain ⟨f1, f2, f3, f4⟩ := ha a hA
      exact ⟨f1, f2, (unstored_xlate (s := ({ x with nextId := x.nextId + 1 } : State)) zu _ _).trans f3, f4⟩)
    refine ⟨(z.performAll x.cur.core x.cur.slot w x.nextId accs).1, ?_, (congrArg State.pend (yu.trans zu) :),
      (congrArg State.mem (yu.trans zu) :), zt.trans yt, fun c d a => ?_⟩
    · rw [accessGo_plain x w m accs hc hg hm ho hlive]
      dsimp only
      have hpk : (z.performAll x.cur.core x.cur.slot w x.nextId accs).1.pkts.any (fun p => p.op == some x.nextId) = false := by
        have e : (z.performAll x.cur.core x.cur.slot w x.nextId accs).1.pkts = x.pkts := (congrArg State.pkts (yu.trans zu) :)
        rw [e, List.any_eq_false]
        intro p hp'
        simpa using List.all_eq_true.mp hp p hp'
      rw [show ((({ x with nextId := x.nextId + 1 } : State).foldAll w accs).mapActive _) = z from rfl, hpk]
      exact accepted_nothing _ m x.nextId _ hd
    · rw [ys, zs]
      have hf : z.sees x.cur.core w.curSlot = x.sees x.cur.core w.curSlot := funext (zs _ _)
      rw [hf]

/-- Settles O38: the accesses pass, and each store lays its bytes into L1 in lane order. -/
theorem plainStore : Obligations.PlainStore := by
  intro k L z a d s w pa u hci hw hctl hmod hk hst hheld hpk hpa
  have hord : s.cur.order (ordOf .rlx) = .relaxed := by unfold Cur.order; rw [hmod]; rfl
  have hsc : s.cur.scope .package = .package := by unfold Cur.scope; rw [hmod]; rfl
  have hdata : ∀ t, (u.count s.cur t).storeData (s.reg .vd d) z = t.storeData (s.reg .vd d) z := fun t => by
    unfold Thread.storeData
    rw [count_group]
  let kind : Nat → Thread → AccKind := fun _ t => .store (t.storeData (s.reg .vd d) z) k
  let accs := s.lanesAt (s.reg .va a) (szBytes z) .relaxed .package 0 false kind
  let m : MemUse := { L := L, cls := none, res := .load, dest := [] }
  let body : State → Out := fun x => x.access m (x.lanesAt (s.reg .va a) (szBytes z) .relaxed .package 0 false kind)
  obtain ⟨v, hwx, hslot, -, hrun, hmeet, hplace⟩ := issue_plain s u w m body (s.reg .va a) (szBytes z) .package 0 kind false true pa hci
    hw hctl hst (szBytes_dvd z) (fun _ _ => ⟨rfl, rfl⟩) (fun _ t => congrArg (AccKind.store · k) (hdata t)) hheld hpa rfl
  have hex : exec (.st .rlx k L z a d) s = s.issue u body := by
    rw [exec_st]
    refine (issue_runs s u _ hci).trans (Eq.trans ?_ (issue_runs s u _ hci).symm)
    dsimp only
    rw [show (s.counted u).cur.order (ordOf .rlx) = .relaxed from hord, show (s.counted u).cur.scope .package = .package from hsc]
    rfl
  have hrlx : ∀ b ∈ accs, b.ord = .relaxed := by
    intro b hb
    obtain ⟨p, -, rfl⟩ := List.mem_map.mp hb
    rfl
  have hacc : ∀ b ∈ accs, ∃ rot, (∃ data, b.kind = .store data k) ∧ b.scope = .package ∧
      (s.counted u).xlate (b.request v) b.va = .good (pa b.lane) rot ∧
      regPage (pa b.lane) = none ∧ rotType rot = 0 ∧ rotSh rot = false ∧ rotMb rot = false := by
    intro b hb
    obtain ⟨rot, hx, h1, h2, h3, h4, -⟩ := hplace b hb
    obtain ⟨p, -, rfl⟩ := List.mem_map.mp hb
    exact ⟨rot, ⟨_, rfl⟩, rfl, hx, h1, h2, h3, h4⟩
  choose! rot hrot using hacc
  obtain ⟨q, hq⟩ := tget_of_warp hwx
  have hlive : (s.counted u).live.isEmpty = true → accs = [] := by
    rw [live_counted, List.isEmpty_map]
    intro e
    simp only [accs, State.lanesAt, List.isEmpty_iff.mp e, List.map_nil]
  obtain ⟨y, hgo, yp, ym, yt, ys⟩ := accessGo_stores (s.counted u) v m accs k hk (fun b => pa b.lane) rot
    (Option.isSome_iff_exists.mpr ⟨q, hq⟩) rfl rfl rfl hlive hpk hmeet hrlx hrot
  have hsees : ∀ c e x, ((y.openWindow L [] []).finish).sees c e x = y.sees c e x :=
    sees_of (KeepsCores.trans (keepsL1_mapActive y _) (keepsL1_finish _)) rfl
  have hc : ∀ c e, (s.counted u).sees c e = s.sees c e := fun c e => funext (sees_counted s u c e)
  refine ⟨(y.openWindow L [] []).finish, hex.trans (hrun.trans (congrArg Host.Outcome.next hgo)), yp, fun x => ?_, fun x => ?_,
    fun c e x hne => ?_, ?_⟩
  · exact congrArg (byteAt · x) ym
  · rw [hsees, ys, hslot, if_pos ⟨rfl, rfl⟩, hc]
    simp only [accs, State.lanesAt, List.foldl_map]
    rfl
  · rw [hsees, ys, hslot, if_neg (fun h => hne.elim (· h.1) (· h.2)), hc]
  · exact ((keeps_counted Thread.regs (fun u c t => count_regs u c t) s u).trans yt).trans
      ((keeps_mapActive Thread.regs y _ (fun _ t => openWindow_regs _ t _ _ _ _)).trans (finish_regs _))

end Sys2Proof.Machine
end

section
/-!
PROOFS. An atomic at its home (O39).
-/
namespace Sys2Proof.Machine

/-! What a write at a home leaves. -/

/-- The state but for what a write at a home may change: memory, the logs of its owner and its felt, and who wakes. -/
def State.unhomed (s : State) : State := { s with cores := [], parts := [], domains := [], mem := [] }

theorem feltLog_unhomed (s : State) (l : Nat) : (s.feltLog l).unhomed = s.unhomed := by
  unfold State.feltLog
  dsimp only
  split <;> rfl

theorem migRecord_unhomed (s : State) (pa : Nat) : (s.migRecord pa).unhomed = s.unhomed := by
  unfold State.migRecord
  dsimp only
  split
  · split
    · rfl
    · split
      · split <;> rfl
      · rfl
  · rfl

theorem homeWrite_unhomed (s : State) (pa : Nat) (b : List Byte) : (s.homeWrite pa b).unhomed = s.unhomed :=
  (migRecord_unhomed _ _).trans (feltLog_unhomed _ _)

/-- A line of which L1 holds nothing goes to its home with nothing to do. -/
theorem toHome_absent (s : State) (c d line : Nat) (hr : s.reqs = []) (h : ∀ x ∈ s.l1Of c d, x.1 / 128 ≠ line / 128) :
    s.toHome c d line = s := by
  have hm : (s.l1Of c d).filter (fun x => x.1 / 128 == line / 128) = [] := by
    rw [List.filter_eq_nil_iff]
    intro x hx
    simpa using h x hx
  unfold State.toHome State.writeOut State.leaveL1
  simp only [hm, List.isEmpty_nil, if_true]
  exact drainOwn_nil s c line hr

/-- An atomic past the block, of a line that L1 does not hold, is done at the home (R198, R313). -/
theorem perform_atom (s : State) (c slot : Nat) (w : Warp) (opid : Nat) (a : Acc) (pa rot : Nat) (op : AtomOp) (v v2 : DWord) (rm : Rm)
    (cn : Bool) (hk : a.kind = .atom op v v2 rm cn) (hs : a.scope.wide = true) (hsys : a.scope ≠ .system) (h1 : regPage pa = none)
    (h2 : rotType rot = 0) (h3 : rotSh rot = false) (h4 : rotMb rot = false) (hr : s.reqs = [])
    (ha : ∀ x ∈ s.l1Of c w.curSlot, x.1 / 128 ≠ pa / 128) :
    s.perform c slot w opid a pa rot =
      ((s.launchLog c w pa rot).homeWrite pa (bytesOf a.size
          (atomNew op (wordOf (bytesAt s.mem pa a.size)) v.toNat v2.toNat rm false cn false).bits),
        some ⟨a.lane, loadRegs a.dst (bytesOf a.size (wordOf (bytesAt s.mem pa a.size))),
          (atomNew op (wordOf (bytesAt s.mem pa a.size)) v.toNat v2.toNat rm false cn false).flags⟩) := by
  have hn : s.noteWrite c w pa rot a.scope = s.launchLog c w pa rot := by
    have hb : (a.scope == Scope.system) = false := by simpa using hsys
    unfold State.noteWrite State.mailStore
    rw [h3, h4, hb]
    rfl
  have hl := launchLog_cores s c w pa rot
  have hu := launchLog_unstored s c w pa rot
  have hm : (s.launchLog c w pa rot).mem = s.mem := (congrArg State.mem hu :)
  have ht : (s.launchLog c w pa rot).toHome c w.curSlot (pa / 128 * 128) = s.launchLog c w pa rot := by
    refine toHome_absent _ c w.curSlot _ ((congrArg State.reqs hu :).trans hr) (fun x hx => ?_)
    rw [l1Of_keep (KeepsCores.of_cores Core.l1 hl)] at hx
    have := ha x hx
    omega
  unfold State.perform
  rw [h1]
  simp only [h2, hk, hs, hn, ht, State.homeRead, hm]
  rfl

/-- One such atomic, as the accesses of an instruction are performed. -/
theorem performAll_atom (s : State) (c slot : Nat) (w : Warp) (opid : Nat) (a : Acc) (pa rot : Nat) (op : AtomOp) (v v2 : DWord) (rm : Rm)
    (cn : Bool) (old : List Byte) (new : FpOut) (hx : s.xlate (a.request w) a.va = .good pa rot) (hk : a.kind = .atom op v v2 rm cn)
    (hs : a.scope.wide = true) (hsys : a.scope ≠ .system) (h1 : regPage pa = none) (h2 : rotType rot = 0) (h3 : rotSh rot = false)
    (h4 : rotMb rot = false) (hr : s.reqs = []) (ha : ∀ x ∈ s.l1Of c w.curSlot, x.1 / 128 ≠ pa / 128)
    (ho : bytesAt s.mem pa a.size = old) (hn : atomNew op (wordOf old) v.toNat v2.toNat rm false cn false = new) :
    s.performAll c slot w opid [a] = ((s.launchLog c w pa rot).homeWrite pa (bytesOf a.size new.bits),
      [⟨a.lane, loadRegs a.dst (bytesOf a.size (wordOf old)), new.flags⟩]) := by
  subst ho hn
  unfold State.performAll
  rw [hx]
  dsimp only
  rw [perform_atom s c slot w opid a pa rot op v v2 rm cn hk hs hsys h1 h2 h3 h4 hr ha]
  rfl

/-! The reported PC of the issuing bundle. -/

theorem firstPc_congr {s t : State} (hc : t.cores = s.cores) (hu : t.cur = s.cur) : t.firstPc = s.firstPc := by
  unfold State.firstPc State.active State.warp? State.warpAt?
  rw [hc, hu]

theorem firstPc_wake (s : State) (p : Wait → Bool) : (s.wake p).firstPc = s.firstPc := by
  have key : ∀ (w : Warp) (m : Mask) (c : Nat), ∃ f : Nat × Thread → Nat × Thread, (∀ x, (f x).2.pc = x.2.pc) ∧
      (w.wake p c).lanes m = (w.lanes m).map f := by
    intro w m c
    unfold Warp.wake
    dsimp only
    split
    · exact ⟨id, fun _ => rfl, (List.map_id _).symm⟩
    · refine ⟨fun x => if !x.2.exited && p x.2.wait then (x.1, { x.2 with wait := .run }) else x, fun x => ?_, ?_⟩
      · dsimp only; split <;> rfl
      · unfold Warp.lanes
        rw [List.filter_map]
        congr 1
        apply List.filter_congr
        intro x _
        simp only [Function.comp_apply]
        split <;> rfl
  unfold State.firstPc State.active
  rw [show (s.wake p).warp? = s.warp?.map (fun x => x.wake p (s.cycle + 1)) from warpAt_wake s p s.cur.core s.cur.slot,
    show (s.wake p).cur = s.cur from rfl]
  cases s.warp? with
  | none => rfl
  | some w =>
    obtain ⟨f, hf, e⟩ := key w s.cur.mask (s.cycle + 1)
    simp only [Option.map_some, e]
    cases w.lanes s.cur.mask with
    | nil => rfl
    | cons x l => exact hf x

theorem firstPc_homeWrite (s : State) (pa : Nat) (b : List Byte) : (s.homeWrite pa b).firstPc = s.firstPc := by
  obtain ⟨p, hp⟩ := homeWrite_cores s pa b
  exact (firstPc_congr (s := s.wake p) hp (congrArg State.cur (homeWrite_unhomed s pa b) :)).trans (firstPc_wake s p)

/-- What registers take is the same whatever else the thread holds. -/
theorem setAll_regs_congr {t t' : Thread} (h : t.regs = t'.regs) (l : List (Nat × Word)) : (t.setAll l).regs = (t'.setAll l).regs := by
  induction l generalizing t t' with
  | nil => exact h
  | cons x l ih =>
    refine ih ?_
    simp only [Thread.set, h]

theorem threads_mapActive (s : State) (g : Nat → Thread → Thread) (c n m : Nat) :
    (s.mapActive g).thread? c n m =
      (s.thread? c n m).map (fun q => if c = s.cur.core ∧ n = s.cur.slot ∧ laneIn s.cur.mask m = true then g m q else q) := by
  rw [State.mapActive, State.modWarp]
  unfold State.thread?
  rw [warpAt_modWarpAt]
  by_cases h : c = s.cur.core ∧ n = s.cur.slot
  · obtain ⟨rfl, rfl⟩ := h
    simp only [and_self, if_true, true_and]
    cases s.warpAt? s.cur.core s.cur.slot with
    | none => rfl
    | some w =>
      simp only [Option.map_some, Option.bind_some]
      rw [tget_mapLanes]
  · have h' : ∀ p : Prop, ¬ (c = s.cur.core ∧ n = s.cur.slot ∧ p) := fun p e => h ⟨e.1, e.2.1⟩
    rw [if_neg h]
    simp only [if_neg (h' _), Option.map_id']

/-- The registers of every thread when the helper lanes of an instruction have taken zeros. -/
theorem helper_regs (s : State) (u : Use) (dest : List Nat) (c n m : Nat) :
    ((({ s.counted u with nextId := s.nextId + 1 } : State).mapActive (zeroHelper dest)).thread? c n m).map Thread.regs =
      (s.thread? c n m).map (fun q =>
        if c = s.cur.core ∧ n = s.cur.slot ∧ laneIn s.cur.mask m = true ∧ q.helper = true then
          (q.setAll (dest.map (fun i => (i, 0)))).regs else q.regs) := by
  have e : (({ s.counted u with nextId := s.nextId + 1 } : State).mapActive (zeroHelper dest)).thread? c n m =
      ((s.mapActive (fun _ t => u.count s.cur t)).mapActive (zeroHelper dest)).thread? c n m := rfl
  rw [e, mapActive_comp, threads_mapActive, Option.map_map]
  congr 1
  funext q
  simp only [Function.comp_apply, zeroHelper, count_helper]
  by_cases h : c = s.cur.core ∧ n = s.cur.slot ∧ laneIn s.cur.mask m = true
  · rw [if_pos h]
    by_cases hq : q.helper = true
    · rw [if_pos hq, if_pos ⟨h.1, h.2.1, h.2.2, hq⟩]
      exact setAll_regs_congr (count_regs u s.cur q) _
    · rw [if_neg hq, if_neg (fun e => hq e.2.2.2)]
      exact count_regs u s.cur q
  · rw [if_neg h, if_neg (fun e => h ⟨e.1, e.2.1, e.2.2.1⟩)]

theorem scScope_wide (sc : BitVec 2) (h : sc ≠ 0) : (scScope sc).wide = true ∧ scScope sc ≠ .system := by
  revert h; revert sc; decide

theorem atomDest_ne_nil (r : Nat) (o : AtomOp) : atomDest r o ≠ [] := by
  unfold atomDest; split <;> simp

/-- Settles O39: the one access passes, L1 has nothing of its line, and its home is read and written in the same step. -/
theorem atomicAtHome : Obligations.AtomicAtHome := by
  intro L sc o a d s w l th pa u r old new hci hw hctl hmod hscne hlive hreqs hst hheld hpk hwf hmig hpa habs
  obtain ⟨hwide, hsys⟩ := scScope_wide sc hscne
  have hord : s.cur.order .relaxed = .relaxed := by unfold Cur.order; rw [hmod]; rfl
  have hsc : s.cur.scope (scScope sc) = scScope sc := by unfold Cur.scope; rw [hmod]; rfl
  let kind : Nat → Thread → AccKind := fun _ t => .atom o (t.atomV r o) (t.atomV2 r o) (fpEnv s.cur t).rm (fpEnv s.cur t).cnan
  let m : MemUse := { L := L, cls := none, res := .atom, dest := atomDest r o }
  let body : State → Out := fun x => x.access m (x.lanesAt (s.reg .va a) o.size .relaxed (scScope sc) r false kind)
  have hcount : ∀ l t, kind l (u.count s.cur t) = kind l t := fun _ t => by
    simp only [kind, Thread.atomV, Thread.atomV2, count_pair, count_get, count_fpEnv]
  obtain ⟨v, hwx, hslot, -, hrun, hmeet, hplace⟩ := issue_plain s u w m body (s.reg .va a) o.size (scScope sc) r kind true true
    (fun _ => pa) hci hw hctl hst (atomSize_dvd o) (fun _ _ => ⟨rfl, rfl⟩) hcount
    (fun p hp => by rw [hlive, List.mem_singleton] at hp; subst hp; exact hheld)
    (fun p hp => by rw [hlive, List.mem_singleton] at hp; subst hp; exact hpa) rfl
  have hex : exec (.atom L false sc o a d) s = s.issue u body := by
    rw [exec_atom]
    refine (issue_runs s u _ hci).trans (Eq.trans ?_ (issue_runs s u _ hci).symm)
    dsimp only
    rw [show (s.counted u).cur.order (if false = true then .acqRel else .relaxed) = .relaxed from hord,
      show (s.counted u).cur.scope (scScope sc) = scScope sc from hsc]
    rfl
  let A : Acc := ⟨l, th.nat64 (s.reg .va a), o.size, kind l th, .relaxed, scScope sc, r, false⟩
  have haccs : s.lanesAt (s.reg .va a) o.size .relaxed (scScope sc) r false kind = [A] := by
    unfold State.lanesAt
    rw [hlive]
    rfl
  rw [haccs] at hrun hmeet hplace
  obtain ⟨rot, hx, h1, h2, h3, h4, -⟩ := hplace A List.mem_cons_self
  obtain ⟨z, ez⟩ : ∃ z : State, z = ({ s.counted u with nextId := s.nextId + 1 } : State).mapActive (zeroHelper m.dest) := ⟨_, rfl⟩
  have zl1 : KeepsCores Core.l1 s z := by
    rw [ez]
    exact (keepsL1_mapActive s (fun _ t => u.count s.cur t)).trans
      (keepsL1_mapActive ({ s.counted u with nextId := s.nextId + 1 } : State) (zeroHelper m.dest))
  have zu : z.unhomed = ({ s.counted u with nextId := s.nextId + 1 } : State).unhomed := by rw [ez]; rfl
  have zs : z.unstored = ({ s.counted u with nextId := s.nextId + 1 } : State).unstored := by rw [ez]; rfl
  have zmem : z.mem = s.mem := by rw [ez]; rfl
  have zparts : z.parts = s.parts := by rw [ez]; rfl
  have zpc : z.firstPc = s.firstPc := by
    rw [ez]
    exact (firstPc_mapActive ({ s.counted u with nextId := s.nextId + 1 } : State) _ (zeroHelper_pc m.dest)).trans
      (firstPc_counted s u hci)
  have hold : bytesAt s.mem pa o.size = old := rfl
  have hnew : atomNew o (wordOf old) (th.atomV r o).toNat (th.atomV2 r o).toNat (fpEnv s.cur th).rm false (fpEnv s.cur th).cnan
    false = new := rfl
  clear_value new old
  let y : State := (z.launchLog s.cur.core v pa rot).homeWrite pa (bytesOf o.size new.bits)
  let W : LaneWrite := ⟨l, loadRegs r (bytesOf o.size (wordOf old)), new.flags⟩
  have hperf : z.performAll s.cur.core s.cur.slot v s.nextId [A] = (y, [W]) :=
    performAll_atom z s.cur.core s.cur.slot v s.nextId A pa rot o (th.atomV r o) (th.atomV2 r o) (fpEnv s.cur th).rm
      (fpEnv s.cur th).cnan old new ((unstored_xlate zs _ _).trans hx) rfl hwide hsys h1 h2 h3 h4 ((congrArg State.reqs zu :).trans hreqs)
      (fun b hb => habs b (by rw [l1Of_keep zl1, hslot] at hb; exact hb)) (by rw [zmem]; exact hold) hnew
  have yu : y.unhomed = (z.launchLog s.cur.core v pa rot).unhomed := homeWrite_unhomed _ _ _
  have lu := launchLog_unstored z s.cur.core v pa rot
  have ypend : y.pend = s.pend := ((congrArg State.pend yu :).trans (congrArg State.pend lu :)).trans (congrArg State.pend zu :)
  have ypkts : y.pkts = s.pkts := ((congrArg State.pkts yu :).trans (congrArg State.pkts lu :)).trans (congrArg State.pkts zu :)
  have ycur : y.cur = (s.counted u).cur := ((congrArg State.cur yu :).trans (congrArg State.cur lu :)).trans (congrArg State.cur zu :)
  have lc := launchLog_cores z s.cur.core v pa rot
  have lm : (z.launchLog s.cur.core v pa rot).mem = s.mem := (congrArg State.mem lu :).trans zmem
  have lp : (z.launchLog s.cur.core v pa rot).parts = s.parts := (congrArg State.parts lu :).trans zparts
  have ypc : y.firstPc = s.firstPc :=
    (firstPc_homeWrite _ _ _).trans ((firstPc_congr lc (congrArg State.cur lu :)).trans
      zpc)
  have hgo : (s.counted u).accessGo v m [A] = (({ y with pend := s.pend ++ [s.pending none (.result .atom [W])] } : State).openWindow
      L [s.nextId] (atomDest r o)).finish := by
    rw [accessGo_plain (s.counted u) v m [A] rfl rfl hmeet (fun b hb => by rw [List.mem_singleton.mp hb])
      (by rw [live_counted, hlive]; rfl)]
    have hz : (({ s.counted u with nextId := (s.counted u).nextId + 1 } : State).foldAll v [A]).mapActive (fun n t =>
        if t.helper then t.setAll (m.dest.map (fun r => (r, 0))) else t.noteAcq [A] n) = z := by
      have hg : (fun n (t : Thread) => if t.helper then t.setAll (m.dest.map (fun r => (r, 0))) else t.noteAcq [A] n) =
          zeroHelper m.dest := by
        funext n t
        rw [noteAcq_relaxed [A] (fun b hb => by rw [List.mem_singleton.mp hb]) n t]
        rfl
      rw [hg, ez]
      rfl
    have hpk' : y.pkts.any (fun p => p.op == some s.nextId) = false := by
      rw [ypkts, List.any_eq_false]
      intro p hp'
      simpa using List.all_eq_true.mp hpk p hp'
    dsimp only
    rw [hz, show z.performAll (s.counted u).cur.core (s.counted u).cur.slot v (s.counted u).nextId [A] = (y, [W]) from hperf]
    rw [show y.pkts.any (fun p => p.op == some (s.counted u).nextId) = false from hpk']
    rw [accepted_result y m _ _ (atomDest_ne_nil r o), ypend, ypc, ycur]
    rfl
  refine ⟨_, hex.trans (hrun.trans (congrArg Host.Outcome.next hgo)), rfl, fun x => ?_, fun c n i => ?_⟩
  · refine (byteAt_homeWrite (z.launchLog s.cur.core v pa rot) pa (bytesOf o.size new.bits) (by rw [lm]; exact hwf)
      (by unfold NoMig; rw [lp]; exact hmig) x).trans ?_
    rw [lm]
  · have kt : KeepsThreads Thread.regs z ((({ y with pend := s.pend ++ [s.pending none (.result .atom [W])] } : State).openWindow
        L [s.nextId] (atomDest r o)).finish) := by
      refine KeepsThreads.trans ?_ (finish_regs _)
      refine KeepsThreads.trans ?_ (keeps_mapActive Thread.regs _ _ (fun _ t => openWindow_regs _ t _ _ _ _))
      exact (KeepsThreads.of_cores _ lc).trans ((homeWrite_threads Thread.regs (fun _ => rfl) _ _ _).trans (KeepsThreads.of_cores _ rfl))
    rw [kt c n i]
    rw [ez]
    exact helper_regs s u (atomDest r o) c n i

end Sys2Proof.Machine
end

section
/-!
PROOFS. Events of memory (O44): a timeout that wakes nothing.
-/
namespace Sys2Proof.Machine

/-- A thread that monitors a line of memory. -/
def sleeper : Thread := { probeThread with wait := .line 0 }

/-- A warp whose only thread stands under a number that no mask of 32 lanes holds, and monitors a line. -/
def sleepingWarp : Warp := { probeWarp with threads := [(32, sleeper)] }

/-- The machine at power-on with that warp on core 0, which the event names. -/
def sleepingState : State :=
  { State.reset with ev := { EventData.none with core := 0, slot := 0 }, cores := [(0, { Core.idle with warps := [(0, sleepingWarp)] })] }

/-- The timeout leaves the sleeping warp as it was: the mask of what it wakes is empty. -/
theorem timeout_sleepingState :
    exec .monitorTimeout sleepingState = .next sleepingState := by
  rw [exec_monitorTimeout]
  rfl

/-- Refutes O44: the statement is about every warp, and `Warp.wake` wakes nobody where the mask of the lanes it would wake is 0, as it
is for a thread listed as lane 32, beyond a warp's 32 lanes: its MONITOR_TIMEOUT clause fails there. -/
theorem not_memoryEvents : ¬ Obligations.MemoryEvents := by
  intro h
  obtain ⟨-, -, timeout, -⟩ := h.2 sleepingState
  obtain ⟨t, ht, -, lanes⟩ := timeout sleepingWarp rfl
  rw [timeout_sleepingState] at ht
  obtain rfl : sleepingState = t := Host.Outcome.next.inj ht
  obtain ⟨y, hy, e⟩ := lanes 32 sleeper rfl rfl
  have hs : sleepingState.thread? sleepingState.ev.core sleepingState.ev.slot 32 = some sleeper := rfl
  rw [hs] at hy
  obtain rfl : sleeper = y := Option.some.inj hy
  exact absurd (congrArg Thread.wait e) (by decide)

end Sys2Proof.Machine
end

section
/-!
PROOFS. Loads from scratchpad (O45), and stores to a scratchpad whose bytes stand out of order (O46 to O48).
-/
namespace Sys2Proof.Machine

/-! The lanes' places in scratchpad. -/

/-- A MOD that an instruction takes gives an order that it allows. -/
theorem order_of_canIssue {s : State} {u : Use} (h : s.canIssue u = true) (o : Order) (ho : u.order o = true) :
    u.order (s.cur.order o) = true := by
  have hp : u.badPrefix s.cur = none := by
    unfold State.canIssue at h
    obtain ⟨w, hw⟩ := warp_of_canIssue (u := u) (s := s) h
    rw [hw] at h
    simp only [Bool.and_eq_true, Option.isNone_iff_eq_none] at h
    exact h.1.1.1.1.1.1.1.2
  unfold Cur.order
  cases hm : s.cur.mod with
  | none => exact ho
  | some m =>
    have hmod : u.modOk m = true := by
      unfold Use.badPrefix at hp
      rw [hm] at hp
      cases hr : s.cur.rep with
      | none =>
        rw [hr] at hp
        dsimp only at hp
        by_contra hc
        rw [if_neg hc] at hp
        exact absurd hp (by simp)
      | some r =>
        rw [hr] at hp
        dsimp only at hp
        by_contra hc
        rw [if_neg hc] at hp
        split at hp <;> exact absurd hp (by simp)
    unfold Use.modOk at hmod
    simp only [Bool.and_eq_true] at hmod
    obtain ⟨⟨-, hord⟩, -⟩ := hmod
    rw [Option.bind_some]
    cases ho' : m.order with
    | none => exact ho
    | some o' =>
      rw [ho'] at hord
      exact hord

theorem core_keep {α : Type} {f : Core → α} {s t : State} (h : KeepsCores f s t) (c : Nat) : f (t.core c) = f (s.core c) := by
  unfold State.core
  have := h c
  cases e : tget s.cores c with
  | none =>
    rw [e] at this
    rw [Option.map_eq_none_iff.mp this]
  | some k =>
    rw [e] at this
    obtain ⟨k', e', hk⟩ := Option.map_eq_some_iff.mp this
    rw [e']
    exact hk

/-- Counting changes warps alone. -/
theorem counted_keeps {α : Type} (f : Core → α) (h : ∀ (k : Core) (w : Tbl Warp), f { k with warps := w } = f k) (s : State) (u : Use) :
    KeepsCores f s (s.counted u) := by
  have k : KeepsCores f s (s.mapActive (fun _ t => u.count s.cur t)) := by
    unfold State.mapActive State.modWarp State.modWarpAt
    exact modCore_cores_keep f s s.cur.core _ (fun k => h k _)
  exact fun c => k c

/-- A lane's place is the same once its instruction has counted. -/
theorem spadRef_counted (s : State) (u : Use) (w v : Warp) (hb : v.block = w.block) (hd : v.curDid = w.curDid) (word size : Nat) :
    (s.counted u).spadRef v word size = s.spadRef w word size := by
  have hcore : ∀ c d, ((s.counted u).core c).dp d = (s.core c).dp d := fun c d => by
    unfold Core.dp
    rw [core_keep (counted_keeps Core.dpart (fun _ _ => rfl) s u)]
  unfold State.spadRef
  rw [hb, hd]
  simp only [hcore]
  rfl

theorem filterMap_map_some {α β : Type} (l : List α) (f : α → Option β) (g : α → β) (h : ∀ x ∈ l, f x = some (g x)) :
    l.filterMap f = l.map g := by
  rw [← List.filterMap_eq_map]
  exact List.filterMap_congr h

theorem filterMap_map_none {α β : Type} (l : List α) (f : α → Option β) (h : ∀ x ∈ l, f x = none) : l.filterMap f = [] :=
  List.filterMap_eq_nil_iff.mpr h

/-- The live lanes' places, where each has one. -/
theorem spadLanes_ok (s : State) (w : Warp) (word : Thread → Nat) (size : Nat) (ref : Nat → SpRef)
    (h : ∀ p ∈ s.live, s.spadRef w (word p.2) size = .ok (ref p.1)) :
    s.spadLanes w word size = .ok (s.live.map (fun p => (p.1, p.2, ref p.1))) := by
  unfold State.spadLanes
  dsimp only
  rw [List.filterMap_map, List.filterMap_map, filterMap_map_none, filterMap_map_some]
  · rfl
  · intro p hp
    simp only [Function.comp_apply, h p hp]
  · intro p hp
    simp only [Function.comp_apply, h p hp]

/-- A scratchpad instruction whose lanes' places pass and wait for nothing has its effect. -/
theorem spad_runs (s : State) (u : Use) (writes : Bool) (own : Cur → Order) (a : Reg) (size : Nat)
    (body : State → Warp → List (Nat × Thread × SpRef) → Out) (w : Warp) (ref : Nat → SpRef) (hw : s.warp? = some w)
    (hci : s.canIssue u = true) (hown : (own (s.counted u).cur).releases = (own s.cur).releases)
    (hheld : s.spadHeld writes (own s.cur).releases size (s.live.map (fun p => (p.1, p.2, ref p.1))) = [])
    (href : ∀ p ∈ s.live, s.spadRef w (p.2.nat (s.reg .va a)) size = .ok (ref p.1)) :
    ∃ v, (s.counted u).warp? = some v ∧ v.curSlot = w.curSlot ∧ v.block = w.block ∧
      spad u writes own a size body s = body (s.counted u) v ((s.counted u).live.map (fun p => (p.1, p.2, ref p.1))) := by
  have hwx : (s.counted u).warp? = some (w.mapLanes s.cur.mask (fun _ t => u.count s.cur t)) := by rw [warp_counted, hw]; rfl
  refine ⟨_, hwx, rfl, rfl, ?_⟩
  have hlanes := spadLanes_ok (s.counted u) (w.mapLanes s.cur.mask (fun _ t => u.count s.cur t))
    (fun t => t.nat (s.reg .va a)) size ref (fun p hp => by
      rw [live_counted] at hp
      obtain ⟨q, hq, rfl⟩ := List.mem_map.mp hp
      rw [spadRef_counted s u w (w.mapLanes s.cur.mask (fun _ t => u.count s.cur t)) rfl rfl]
      dsimp only
      rw [count_nat]
      exact href q hq)
  have hh : (s.counted u).spadHeld writes (own s.cur).releases size ((s.counted u).live.map (fun p => (p.1, p.2, ref p.1))) = [] := by
    unfold State.spadHeld at hheld ⊢
    rw [List.map_eq_nil_iff, List.filter_eq_nil_iff] at hheld ⊢
    intro x hx
    obtain ⟨p, hp, rfl⟩ := List.mem_map.mp hx
    rw [live_counted] at hp
    obtain ⟨q, hq, rfl⟩ := List.mem_map.mp hp
    exact hheld (q.1, q.2, ref q.1) (List.mem_map.mpr ⟨q, hq, rfl⟩)
  unfold spad
  rw [issue_runs s u _ hci]
  dsimp only
  rw [hwx]
  dsimp only
  rw [show (s.counted u).spadLanes _ (fun t => t.nat ((s.counted u).reg .va a)) size = _ from hlanes]
  dsimp only
  rw [hown, hh]
  rfl

/-! A load's result (R33, R59). -/

/-- A scratchpad load of a bundle with live lanes leaves its result pending, and nothing else. -/
theorem spResult_step (s : State) (u : Use) (L : BitVec 4) (res : ResKind) (dest : List Nat) (ws : List LaneWrite)
    (hci : s.canIssue u = true) (hws : ws ≠ []) :
    OnlyPending s ((s.counted u).spResult L res dest ws []) (s.pending none (.result res ws)) ∧
      LaneStep s ((s.counted u).spResult L res dest ws []) (fun _ th => u.ran s.cur (fun x =>
        (if th.helper then x.setAll (dest.map (fun r => (r, 0))) else x).openWindow s.cur.last L.toNat false [s.nextId] dest) th) := by
  let g : Nat → Thread → Thread := fun l t => (zeroHelper dest l t).openWindow s.cur.last L.toNat false [s.nextId] dest
  have he : ws.isEmpty = false := by simpa using hws
  have hb : (s.counted u).spResult L res dest ws [] = (({ s.counted u with
      pend := (s.counted u).pend ++ [s.pending none (.result res ws)], nextId := (s.counted u).nextId + 1 } : State).mapActive g).finish := by
    unfold State.spResult State.fresh
    simp only [he, Bool.false_eq_true, if_false, List.contains_nil]
    unfold State.pending
    rw [← firstPc_counted s u hci]
    refine congrArg State.finish (Eq.trans ?_ (mapActive_comp ({ s.counted u with
      pend := (s.counted u).pend ++ [⟨s.nextId, s.cur.core, s.cur.slot, _, none, .result res ws⟩],
      nextId := (s.counted u).nextId + 1 } : State) (zeroHelper dest)
      (fun _ t => t.openWindow s.cur.last L.toNat false [s.nextId] dest)))
    rfl
  obtain ⟨t, e, only, lanes⟩ := pending_run s u (fun x => .next (x.spResult L res dest ws [])) g (.result res ws) hci
    (congrArg Host.Outcome.next hb)
  rw [issue_runs s u _ hci] at e
  obtain rfl := Host.Outcome.next.inj e
  refine ⟨only, ?_⟩
  have hg : (fun l th => u.ran s.cur (g l) th) = (fun _ th => u.ran s.cur (fun x =>
      (if th.helper then x.setAll (dest.map (fun r => (r, 0))) else x).openWindow s.cur.last L.toNat false [s.nextId] dest) th) := by
    funext l th
    simp only [Use.ran, g, zeroHelper, count_helper]
  exact hg ▸ lanes

/-- An order that does not acquire leaves L1 alone. -/
theorem spAcquire_none (s : State) (w : Warp) (ord : Cur → Order) (sc : Scope) (lanes : List Nat) (h : (ord s.cur).acquires = false) :
    s.spAcquire w ord sc lanes = s := by
  unfold State.spAcquire
  simp only [h, Bool.false_and, Bool.false_eq_true, if_false]

theorem loadOrder_releases {o : Order} (h : loadOrder o = true) : o.releases = false := by
  cases o with
  | relaxed => rfl
  | acquire => rfl
  | release => exact absurd h (by decide)
  | acqRel => exact absurd h (by decide)

/-- Settles O45: both loads read their lanes' places, and end in the same pending result. -/
theorem scratchpadLoads : Obligations.ScratchpadLoads := by
  intro L a d s w ref hw hacq hlive
  refine ⟨?_, ?_⟩
  · intro z u dest hci hheld href
    have hrel : (plainOrder s.cur).releases = false := loadOrder_releases (order_of_canIssue hci .relaxed rfl)
    obtain ⟨v, -, -, -, hrun⟩ := spad_runs s u false plainOrder a (szBytes z) (fun s w l =>
      let r := s.reg .vd d
      let ws : List LaneWrite := l.map (fun x => ⟨x.1, loadRegs r (s.spRead x.2.2 (szBytes z)), 0⟩)
      .next ((s.spAcquire w plainOrder .block (l.map (·.1))).spResult L .load ((List.range (szRegs z)).map (r + ·)) ws [])) w ref hw hci
      rfl (by rw [hrel]; exact hheld) href
    have hws : ((s.counted u).live.map (fun p => (p.1, p.2, ref p.1))).map (fun x =>
        (⟨x.1, loadRegs (s.reg .vd d) ((s.counted u).spRead x.2.2 (szBytes z)), 0⟩ : LaneWrite)) =
        s.live.map (fun p => ⟨p.1, loadRegs (s.reg .vd d) (s.spRead (ref p.1) (szBytes z)), 0⟩) := by
      rw [live_counted, List.map_map, List.map_map]
      rfl
    dsimp only at hrun
    rw [spAcquire_none (s.counted u) v plainOrder .block _ hacq, show (s.counted u).reg .vd d = s.reg .vd d from rfl, hws] at hrun
    exact ⟨_, hrun, spResult_step s u L .load dest _ hci (by simpa using hlive)⟩
  · intro u dest hci hheld href
    have hrel : (plainOrder s.cur).releases = false := loadOrder_releases (order_of_canIssue hci .relaxed rfl)
    obtain ⟨v, -, -, -, hrun⟩ := spad_runs s u false plainOrder a 4 (fun s w l =>
      let r := s.reg .vd d
      let ws : List LaneWrite := l.map (fun x =>
        ⟨x.1, loadRegs r (s.spRead x.2.2 4) ++ [(r + 1, if s.isFull x.2.2.block (x.2.2.off / 4) then 1 else 0)], 0⟩)
      .next ((s.spAcquire w plainOrder .block (l.map (·.1))).spResult L .load [r, r + 1] ws [])) w ref hw hci
      rfl (by rw [hrel]; exact hheld) href
    have hws : ((s.counted u).live.map (fun p => (p.1, p.2, ref p.1))).map (fun x =>
        (⟨x.1, loadRegs (s.reg .vd d) ((s.counted u).spRead x.2.2 4) ++
          [(s.reg .vd d + 1, if (s.counted u).isFull x.2.2.block (x.2.2.off / 4) then 1 else 0)], 0⟩ : LaneWrite)) =
        s.live.map (fun p => ⟨p.1, loadRegs (s.reg .vd d) (s.spRead (ref p.1) 4) ++
          [(s.reg .vd d + 1, if s.isFull (ref p.1).block ((ref p.1).off / 4) then 1 else 0)], 0⟩) := by
      rw [live_counted, List.map_map, List.map_map]
      rfl
    dsimp only at hrun
    rw [spAcquire_none (s.counted u) v plainOrder .block _ hacq, show (s.counted u).reg .vd d = s.reg .vd d from rfl, hws] at hrun
    exact ⟨_, hrun, spResult_step s u L .load dest _ hci (by simpa using hlive)⟩

end Sys2Proof.Machine
end

section
/-!
PROOFS. Stores and atomics in scratchpad (O46 to O48): the statements are about every list of scratchpad bytes, and one whose addresses
do not rise hides a zero that is stored.
-/
namespace Sys2Proof.Machine

/-- A block of one KiB of scratchpad whose byte 0 is 1, listed behind byte 5. -/
def unsortedBlock : Block := ⟨0, 0, 0, 0, 0, 0, 1, 0, 0, [0], 1024, [(5, 1), (0, 1)], [], [], 0, 0, 0, 0, false⟩

/-- The machine with that block on core 0, whose warp's only lane is issuing. -/
def unsortedState : State :=
  { State.reset with
    cur := ⟨0, 0, 1, 0, none, none, 4, 0, []⟩
    blocks := [(0, unsortedBlock)]
    cores := [(0, { Core.idle with warps := [(0, probeWarp)] })] }

/-- A byte of scratchpad after a step. -/
def padAfter (b a : Nat) : Out → Byte
  | .next t => t.padByte b a
  | _ => 0

/-- The lane's word names byte 0 of its block. -/
theorem spadRef_unsortedState : ∀ n ∈ [1, 4], unsortedState.spadRef probeWarp (probeThread.nat (unsortedState.reg .va 4)) n = .ok ⟨0, 0⟩ := by
  decide

theorem live_unsortedState : unsortedState.live = [(0, probeThread)] := rfl

/-- Storing a zero at byte 0 leaves the 1 that stands there behind a higher address. -/
theorem sts_unsortedState : padAfter 0 0 (exec (.sts 0 .b8 4 8) unsortedState) = 1 := by
  rw [exec_sts]
  decide

/-- Refutes O46: the zero that lane 0 stores at byte 0 is not what the block's bytes then read there. -/
theorem not_scratchpadStores : ¬ Obligations.ScratchpadStores := by
  intro h
  obtain ⟨t, ht, -, -, hpad, -⟩ := h 0 .b8 4 8 unsortedState probeWarp (fun _ => ⟨0, 0⟩) rfl (by decide) rfl (by decide)
    (fun p hp => by
      rw [live_unsortedState, List.mem_singleton] at hp
      subst hp
      exact spadRef_unsortedState 1 (by decide))
  have h1 := sts_unsortedState
  rw [ht] at h1
  have h2 : t.padByte 0 0 = 0 := (hpad 0 0 rfl).trans (by decide)
  exact absurd (h2.symm.trans h1) (by decide)

/-- So does STS.fill. -/
theorem stsFill_unsortedState : padAfter 0 0 (exec (.stsFill 0 4 8) unsortedState) = 1 := by
  rw [exec_stsFill]
  decide

/-- Refutes O47, in its first clause: the zero that STS.fill writes at byte 0 is not what the block's bytes then read there. -/
theorem not_fullEmptyWords : ¬ Obligations.FullEmptyWords := by
  intro h
  obtain ⟨t, ht, -, hpad, -⟩ := (h 0 4 8 unsortedState probeWarp 0 probeThread ⟨0, 0⟩ rfl rfl (by decide) rfl rfl (by decide) (by decide)
    (spadRef_unsortedState 4 (by decide))).1 (by decide)
  have h1 := stsFill_unsortedState
  rw [ht] at h1
  have h2 : t.padByte 0 0 = 0 := (hpad 0 0).trans (by decide)
  exact absurd (h2.symm.trans h1) (by decide)

/-- So does an exchange. -/
theorem atoms_unsortedState : padAfter 0 0 (exec (.atoms 0 false 0 .xchg 4 8) unsortedState) = 1 := by
  rw [exec_atoms]
  decide

/-- Refutes O48: the zero that an exchange leaves at byte 0 is not what the block's bytes then read there. -/
theorem not_scratchpadAtomics : ¬ Obligations.ScratchpadAtomics := by
  intro h
  obtain ⟨t, ht, -, -, -, hpad, -⟩ := h 0 0 .xchg 4 8 unsortedState probeWarp 0 probeThread ⟨0, 0⟩ (by decide) rfl rfl rfl (by decide)
    (spadRef_unsortedState 4 (by decide))
  have h1 := atoms_unsortedState
  rw [ht] at h1
  have h2 : t.padByte 0 0 = 0 := (hpad 0 0 rfl).trans (by decide)
  exact absurd (h2.symm.trans h1) (by decide)

end Sys2Proof.Machine
end

section
/-!
PROOFS. Tile-layout records (O49).
-/
namespace Sys2Proof.Machine

/-! Records of a core. -/

theorem recordOf_keep {s t : State} (h : KeepsCores Core.recs s t) (hb : t.blocks = s.blocks) (w v : Warp) (hv : v.block = w.block) (n : Nat) :
    t.recordOf v n = s.recordOf w n := by
  unfold State.recordOf
  rw [hb, hv]
  cases tget s.blocks w.block with
  | none => rfl
  | some b =>
    dsimp only
    rw [core_keep h]

theorem recordSeen_keep {s t : State} (h : KeepsCores Core.recs s t) (h' : KeepsCores Core.recOld s t) (hb : t.blocks = s.blocks)
    (w v : Warp) (hv : v.block = w.block) (n : Nat) : t.recordSeen v n = s.recordSeen w n := by
  unfold State.recordSeen
  rw [hb, hv]
  cases e : tget s.blocks w.block with
  | none => rfl
  | some b =>
    dsimp only
    rw [core_keep h', recordOf_keep h hb w v hv]

theorem finish_keeps {α : Type} (f : Core → α) (h : ∀ (k : Core) (w : Tbl Warp), f { k with warps := w } = f k)
    (hc : ∀ (k : Core) (n m t c : Nat), f (k.charge n m t c) = f k) (s : State) : KeepsCores f s s.finish := by
  have h1 : KeepsCores f s (s.charge 1) := modCore_cores_keep f s _ _ (fun k => hc k _ _ _ _)
  have h2 : KeepsCores f (s.charge 1) ((s.charge 1).modWarpAt s.cur.core s.cur.slot (fun w =>
      (w.mapLanes s.cur.mask (s.cur.ends (fun _ t => t.advance s.cur))).settle s.cur.mask (s.cycle + 1))) :=
    modCore_cores_keep f _ _ _ (fun k => h k _)
  exact fun c => (h1.trans h2) c

theorem charge_recs (k : Core) (n m t c : Nat) : (k.charge n m t c).recs = k.recs := by
  unfold Core.charge; split <;> rfl
theorem charge_recOld (k : Core) (n m t c : Nat) : (k.charge n m t c).recOld = k.recOld := by
  unfold Core.charge; split <;> rfl

/-- A write of a record: it stands in its slot, and engine commands go on seeing what they saw (R177). -/
theorem writeRec_recs (k : Core) (slot n m : Nat) (ws : List Word) :
    tget (k.writeRec slot n ws).recs m = if m = n then some ws else tget k.recs m := tget_tput k.recs n m ws

theorem writeRec_seen (k : Core) (slot n m : Nat) (ws : List Word) :
    ((tget (k.writeRec slot n ws).recOld m).map (·.1)).getD ((tget (k.writeRec slot n ws).recs m).getD (List.replicate 8 0)) =
      ((tget k.recOld m).map (·.1)).getD ((tget k.recs m).getD (List.replicate 8 0)) := by
  unfold Core.writeRec
  dsimp only
  rw [tget_tput, tget_tput]
  by_cases h : m = n
  · subst h
    rw [if_pos rfl]
    cases tget k.recOld m <;> rfl
  · rw [if_neg h, if_neg h]

theorem recordSeen_eq (s : State) (w : Warp) (n : Nat) (b : Block) (hb : tget s.blocks w.block = some b) :
    s.recordSeen w n = ((tget (s.core b.core).recOld (b.recAt n)).map (·.1)).getD
      ((tget (s.core b.core).recs (b.recAt n)).getD (List.replicate 8 0)) := by
  unfold State.recordSeen State.recordOf
  rw [hb]
  dsimp only
  cases tget (s.core b.core).recOld (b.recAt n) <;> rfl

theorem recordOf_eq (s : State) (w : Warp) (n : Nat) (b : Block) (hb : tget s.blocks w.block = some b) :
    s.recordOf w n = (tget (s.core b.core).recs (b.recAt n)).getD (List.replicate 8 0) := by
  unfold State.recordOf
  rw [hb]

theorem core_modCore (s : State) (c : Nat) (f : Core → Core) (h : (tget s.cores c).isSome = true) : (s.modCore c f).core c = f (s.core c) := by
  obtain ⟨k, hk⟩ := Option.isSome_iff_exists.mp h
  unfold State.core
  rw [modCore_cores, tget_tmod, if_pos rfl, hk]
  rfl

/-- The slot's check says the same of a warp that differs in its threads. -/
theorem slotCheck_counted (s : State) (u : Use) (w v : Warp) (hb : v.block = w.block) (hs : v.curSlot = w.curSlot) (n : Nat) :
    (s.counted u).slotCheck v n = s.slotCheck w n := by
  unfold State.slotCheck
  rw [hb, hs]
  rfl

/-- TLRW of a slot that passes (R174). -/
theorem tlrw_runs (n : BitVec 7) (d : Reg) (body : State → Warp → State) (s : State) (w : Warp) (hw : s.warp? = some w)
    (hc : s.slotCheck w n.toNat = none) (hci : s.canIssue { opds := [⟨.vd, d.toNat, 8, 8⟩] } = true) :
    ∃ v : Warp, v.block = w.block ∧ tlrw n d body s = s.issue { opds := [⟨.vd, d.toNat, 8, 8⟩] } (fun x => .next (body x v).finish) := by
  let u : Use := { opds := [⟨.vd, d.toNat, 8, 8⟩] }
  have hwx : (s.counted u).warp? = some (w.mapLanes s.cur.mask (fun _ t => u.count s.cur t)) := by rw [warp_counted, hw]; rfl
  refine ⟨w.mapLanes s.cur.mask (fun _ t => u.count s.cur t), rfl, ?_⟩
  unfold tlrw
  refine (issue_runs s u _ hci).trans (Eq.trans ?_ (issue_runs s u _ hci).symm)
  have hcheck : (if (s.counted u).live.isEmpty = true then none else
      (s.counted u).slotCheck (w.mapLanes s.cur.mask (fun _ t => u.count s.cur t)) n.toNat) = none := by
    rw [slotCheck_counted s u w (w.mapLanes s.cur.mask (fun _ t => u.count s.cur t)) rfl rfl, hc, ite_self]
  rw [hwx]
  dsimp only
  rw [hcheck]

/-- LDX and STX after their decode checks, where the record passes and no element faults. -/
theorem elemIssue_runs (store h : Bool) (L n : BitVec 4) (a d : Reg) (s : State) (w : Warp)
    (l : List (Nat × List Byte × Elem)) (hci : s.canIssue (elemUse n.toNat a d s) = true)
    (hw : (s.counted (elemUse n.toNat a d s)).warp? = some w)
    (hr : (s.counted (elemUse n.toNat a d s)).recordCheck w n.toNat (s.reg .vd d) = none)
    (hl : l = (s.counted (elemUse n.toNat a d s)).elems w store h n.toNat a d) (hf : elemFault l = none)
    (hh : (s.counted (elemUse n.toNat a d s)).heldLanes store false = [])
    (he : (s.counted (elemUse n.toNat a d s)).elemHeld
      (Record.ofWords ((s.counted (elemUse n.toNat a d s)).recordOf w n.toNat)).esz l = []) :
    elemIssue store h L n.toNat a d s =
      (let x := s.counted (elemUse n.toNat a d s)
       let r := Record.ofWords (x.recordOf w n.toNat)
       let v := s.reg .vd d
       (if store then x.elemStores w l else x).access
         { L := L, cls := some 2, res := .load, dest := if store then [] else v :: r.extra v,
           given := if store then [] else x.elemGiven r v l } (elemAccs l)) := by
  unfold elemIssue
  rw [issue_runs s _ _ hci, hw]
  dsimp only
  rw [show (s.counted (elemUse n.toNat a d s)).reg .vd d = s.reg .vd d from rfl, hr, ite_self]
  dsimp only
  rw [← hl, hf]
  dsimp only
  rw [hh, he]
  rfl

/-- Settles O49: TLRW reads and writes its slot of the core, and the elements that lie in memory are accesses like any other. -/
theorem recordsAndElements : Obligations.RecordsAndElements := by
  refine ⟨?_, ?_⟩
  · intro n d s w hw hc u hci
    refine ⟨?_, ?_⟩
    · obtain ⟨v, hv, hrun⟩ := tlrw_runs n d (fun s w => s.mapActive (fun _ t =>
        t.setGroup d.toNat (if t.helper then List.replicate 8 0 else s.recordOf w n.toNat))) s w hw hc hci
      obtain ⟨t, e, only, lanes⟩ := finish_run s u (fun x => .next (x.mapActive (fun _ t =>
        t.setGroup d.toNat (if t.helper then List.replicate 8 0 else x.recordOf v n.toNat))).finish) (fun _ t =>
        t.setGroup d.toNat (if t.helper then List.replicate 8 0 else s.recordOf w n.toNat)) hci (by
        rw [recordOf_keep (counted_keeps Core.recs (fun _ _ => rfl) s u) rfl w v hv])
      rw [exec_tlrwRd]
      refine ⟨t, hrun.trans e, only, ?_⟩
      have hg : (fun l th => u.ran s.cur ((fun _ t => t.setGroup d.toNat (if t.helper then List.replicate 8 0 else s.recordOf w n.toNat)) l) th) =
          (fun (_ : Nat) th => u.ran s.cur (fun x => x.setGroup d.toNat (if th.helper then List.replicate 8 0 else s.recordOf w n.toNat)) th) := by
        funext l th
        simp only [Use.ran, count_helper]
      exact hg ▸ lanes
    · intro l th rest b hlive hb hcore
      obtain ⟨v, hv, hrun⟩ := tlrw_runs n d (fun s w =>
        match s.live, tget s.blocks w.block with
        | (_, t) :: _, some b => s.modCore b.core (fun k => k.writeRec s.cur.slot (b.recAt n.toNat) (t.group d.toNat 8))
        | _, _ => s) s w hw hc hci
      have hb' : tget (s.counted u).blocks v.block = some b := by rw [hv]; exact hb
      have hlive' : (s.counted u).live = (l, u.count s.cur th) :: rest.map (fun p => (p.1, u.count s.cur p.2)) := by
        rw [live_counted, hlive]
        rfl
      rw [issue_runs s u _ hci] at hrun
      rw [hlive', hb'] at hrun
      dsimp only at hrun
      rw [count_group] at hrun
      let f : Core → Core := fun k => k.writeRec s.cur.slot (b.recAt n.toNat) (th.group d.toNat 8)
      let y : State := (s.counted u).modCore b.core f
      have kr : KeepsCores Core.recs s (s.counted u) := counted_keeps Core.recs (fun _ _ => rfl) s u
      have ko : KeepsCores Core.recOld s (s.counted u) := counted_keeps Core.recOld (fun _ _ => rfl) s u
      have fr : KeepsCores Core.recs y y.finish := finish_keeps Core.recs (fun _ _ => rfl) charge_recs y
      have fo : KeepsCores Core.recOld y y.finish := finish_keeps Core.recOld (fun _ _ => rfl) charge_recOld y
      have hcore' : (tget (s.counted u).cores b.core).isSome = true := by
        obtain ⟨k, hk⟩ := Option.isSome_iff_exists.mp hcore
        have := kr b.core
        rw [hk] at this
        obtain ⟨k', e, -⟩ := Option.map_eq_some_iff.mp this
        rw [e]
        rfl
      have hy : y.core b.core = f ((s.counted u).core b.core) := core_modCore _ _ _ hcore'
      have hyb : tget y.blocks w.block = some b := hb
      have hof : ∀ m, y.finish.recordOf w m = if b.recAt m = b.recAt n.toNat then th.group d.toNat 8 else s.recordOf w m := by
        intro m
        rw [recordOf_keep fr rfl w w rfl, recordOf_eq y w m b hyb, hy, writeRec_recs]
        by_cases e : b.recAt m = b.recAt n.toNat
        · rw [if_pos e, if_pos e]; rfl
        · rw [if_neg e, if_neg e, core_keep kr, recordOf_eq s w m b hb]
      rw [exec_tlrwWr]
      refine ⟨y.finish, hrun, by rw [hof, if_pos rfl], fun m hm => by rw [hof, if_neg hm], fun m => ?_, rfl, rfl, ?_⟩
      · rw [recordSeen_keep fr fo rfl w w rfl, recordSeen_eq y w m b hyb, hy, writeRec_seen, core_keep kr, core_keep ko,
          recordSeen_eq s w m b hb]
      · exact ((keeps_counted Thread.regs (fun u c t => count_regs u c t) s u).trans
          (keeps_modCore Thread.regs _ b.core f (fun _ => rfl))).trans (finish_regs y)
  · intro h L n a d s w u x r v hci hw hr
    refine ⟨fun l hl hf hh he hok => ?_, fun l w' hl hf hh he hw' hok => ?_⟩
    · rw [exec_ldx]
      exact (elemIssue_runs false h L n a d s w l hci hw hr hl hf hh he).trans (access_go x _ _ w hw hok)
    · rw [exec_stx]
      exact (elemIssue_runs true h L n a d s w l hci hw hr hl hf hh he).trans (access_go (x.elemStores w l) _ _ w' hw' hok)

end Sys2Proof.Machine
end

section
/-!
PROOFS. PREF, the fences and WAITC (O50): what a release and an acquire leave of L1 and of the requests.
-/
namespace Sys2Proof.Machine

/-! What a release leaves of every core (R180, R324). -/

section
variable {α : Type} (f : Core → α) (hf : ∀ (k : Core) (w : Tbl Warp), f { k with warps := w } = f k)
include hf

theorem homeWrite_keeps (s : State) (pa : Nat) (b : List Byte) : KeepsCores f s (s.homeWrite pa b) := by
  obtain ⟨p, hp⟩ := homeWrite_cores s pa b
  exact (wake_cores f hf s p).trans (KeepsCores.of_cores f hp)

theorem modWarpAt_keeps (s : State) (c w : Nat) (g : Warp → Warp) : KeepsCores f s (s.modWarpAt c w g) :=
  modCore_cores_keep f s c _ (fun k => hf k _)

theorem settleCount_keeps (s : State) (c slot cls id : Nat) : KeepsCores f s (s.settleCount c slot cls id) := by
  unfold State.settleCount
  split
  · exact fun _ => rfl
  · exact (modWarpAt_keeps f hf s c slot _).trans (modWarpAt_keeps f hf _ c slot _)

omit hf in
theorem keepsCores_foldl {β : Type} (g : State → β → State) (h : ∀ s b, KeepsCores f s (g s b)) (l : List β) (s : State) :
    KeepsCores f s (l.foldl g s) := by
  induction l generalizing s with
  | nil => exact fun _ => rfl
  | cons b l ih => exact (h s b).trans (ih _)

theorem applyReq_keeps (s : State) (r : Req) : KeepsCores f s (s.applyReq r) := by
  unfold State.applyReq
  dsimp only
  refine KeepsCores.trans ?_ (keepsCores_foldl f _ (fun s k => settleCount_keeps f hf s _ _ _ _) _ _)
  have e : KeepsCores f s ({ s with reqs := s.reqs.filter (fun x => x.id != r.id) } : State) := fun _ => rfl
  cases r.kind with
  | red op v rm fz cn sat =>
    dsimp only
    split
    · exact e.trans (homeWrite_keeps f hf _ _ _)
    · exact (e.trans (homeWrite_keeps f hf _ _ _)).trans (fun _ => rfl)
  | _ => exact e.trans (homeWrite_keeps f hf _ _ _)

theorem drain_keeps (s : State) (p : Req → Bool) : KeepsCores f s (s.drain p) :=
  keepsCores_foldl f _ (applyReq_keeps f hf) _ s

theorem writeDirty_keeps (c : Nat) (t : Tbl (Byte × Bool)) (s : State) : KeepsCores f s (s.writeDirty c t) := by
  induction t generalizing s with
  | nil => exact fun _ => rfl
  | cons x l ih =>
    obtain ⟨a, b, d⟩ := x
    cases d with
    | true => exact ((drain_keeps f hf s _).trans (homeWrite_keeps f hf _ _ _)).trans (ih _)
    | false => exact ih s

end

/-- A core of s is one of t. -/
theorem core_of_keeps {α : Type} {f : Core → α} {s t : State} (h : KeepsCores f s t) {c : Nat} {k : Core} (e : tget s.cores c = some k) :
    ∃ k', tget t.cores c = some k' := by
  have := h c
  rw [e] at this
  obtain ⟨k', e', -⟩ := Option.map_eq_some_iff.mp this
  exact ⟨k', e'⟩

theorem writeBack_exists (s : State) (c d : Nat) : KeepsCores (fun _ => ()) s (s.writeBack c d) := by
  unfold State.writeBack
  dsimp only
  split
  · exact fun _ => rfl
  · exact (writeDirty_keeps _ (fun _ _ => rfl) c _ s).trans (modCore_cores_keep _ _ c _ (fun _ => rfl))

/-- Every byte of a domain slot in L1 is clean. -/
def State.cleanIn (s : State) (c d : Nat) : Prop := ∀ p ∈ s.l1Of c d, p.2.2 = false

/-- Every byte of a domain slot in L1 is dirty. -/
def State.dirtyIn (s : State) (c d : Nat) : Prop := ∀ p ∈ s.l1Of c d, p.2.2 = true

theorem l1Of_writeBack (s : State) (c d d' : Nat) (k : Core) (hk : tget s.cores c = some k) :
    (s.writeBack c d).l1Of c d' = s.l1Of c d' ∧ (d' = d → s.cleanIn c d) ∨
      (s.writeBack c d).l1Of c d' = if d' = d then (s.l1Of c d).map (fun p => (p.1, (p.2.1, false))) else s.l1Of c d' := by
  unfold State.writeBack
  dsimp only
  split
  · rename_i h
    refine .inl ⟨rfl, fun _ p hp => ?_⟩
    simpa using List.all_eq_true.mp h p hp
  · have kl := writeDirty_keeps Core.l1 (fun _ _ => rfl) c (s.l1Of c d) s
    obtain ⟨k', hk'⟩ := core_of_keeps kl hk
    right
    rw [l1Of_setL1 _ c d _ k' hk', l1Of_keep kl]
    simp only [true_and]

/-- A write-back leaves its domain slot clean, and another as it is. -/
theorem cleanIn_writeBack (s : State) (c d d' : Nat) (k : Core) (hk : tget s.cores c = some k) (h : d' = d ∨ s.cleanIn c d') :
    (s.writeBack c d).cleanIn c d' := by
  unfold State.cleanIn at *
  rcases l1Of_writeBack s c d d' k hk with ⟨e, he⟩ | e
  · rw [e]
    rcases h with rfl | h
    · exact he rfl
    · exact h
  · rw [e]
    by_cases hd : d' = d
    · rw [if_pos hd]
      intro p hp
      obtain ⟨q, -, rfl⟩ := List.mem_map.mp hp
      rfl
    · rw [if_neg hd]
      exact h.resolve_left hd

theorem cleanIn_writeBacks (c d : Nat) (l : List Nat) (s : State) (k : Core) (hk : tget s.cores c = some k) (h : d ∈ l ∨ s.cleanIn c d) :
    (l.foldl (fun s e => s.writeBack c e) s).cleanIn c d := by
  induction l generalizing s k with
  | nil => exact h.resolve_left List.not_mem_nil
  | cons e l ih =>
    obtain ⟨k', hk'⟩ := core_of_keeps (writeBack_exists s c e) hk
    refine ih _ k' hk' ?_
    rcases h with h | h
    · rcases List.mem_cons.mp h with rfl | h
      · exact .inr (cleanIn_writeBack s c d d k hk (.inl rfl))
      · exact .inl h
    · exact .inr (cleanIn_writeBack s c e d k hk (.inr h))

theorem mem_tied (s : State) (c d : Nat) : d ∈ s.tied c d := List.mem_dedup.mpr List.mem_cons_self

/-- A release that reaches past the block leaves no dirty byte of its domain slot (R180). -/
theorem cleanIn_release (s : State) (c d : Nat) (sc : Scope) (k : Core) (hk : tget s.cores c = some k) (h : sc.wide = true) :
    (s.release c d sc).cleanIn c d := by
  unfold State.release State.actsOnL1
  rw [h, Bool.true_or, if_pos rfl]
  obtain ⟨k', hk'⟩ := core_of_keeps (drain_keeps (fun _ => ()) (fun _ _ => rfl) s (fun r => r.ofCore c)) hk
  exact cleanIn_writeBacks c d _ _ k' hk' (.inl (mem_tied s c d))

/-! What a release leaves of the requests (R324, R326). -/

/-- Requests only leave. -/
def Fewer (s t : State) : Prop := ∀ r ∈ t.reqs, r ∈ s.reqs

theorem Fewer.trans {s t u : State} (h : Fewer s t) (k : Fewer t u) : Fewer s u := fun r hr => h r (k r hr)

theorem applyReq_fewer (s : State) (r : Req) : Fewer s (s.applyReq r) := by
  intro x hx
  rw [applyReq_reqs] at hx
  exact (List.mem_filter.mp hx).1

theorem fewer_foldl {β : Type} (g : State → β → State) (h : ∀ s b, Fewer s (g s b)) (l : List β) (s : State) : Fewer s (l.foldl g s) := by
  induction l generalizing s with
  | nil => exact fun _ h => h
  | cons b l ih => exact (h s b).trans (ih _)

theorem drain_fewer (s : State) (p : Req → Bool) : Fewer s (s.drain p) := fewer_foldl _ applyReq_fewer _ s

theorem writeDirty_fewer (c : Nat) (t : Tbl (Byte × Bool)) (s : State) : Fewer s (s.writeDirty c t) := by
  induction t generalizing s with
  | nil => exact fun _ h => h
  | cons x l ih =>
    obtain ⟨a, b, d⟩ := x
    cases d with
    | true =>
      have hw : Fewer (s.drainOwn c a) ((s.drainOwn c a).homeWrite a [b]) := fun r hr => by rwa [homeWrite_reqs] at hr
      exact ((drain_fewer s _).trans hw).trans (ih _)
    | false => exact ih s

theorem writeBack_fewer (s : State) (c d : Nat) : Fewer s (s.writeBack c d) := by
  unfold State.writeBack
  dsimp only
  split
  · exact fun _ h => h
  · exact writeDirty_fewer c _ s

/-- Of a list of requests that are applied one after another none is left. -/
theorem not_mem_applyAll (l : List Req) (s : State) : ∀ q ∈ l, ∀ r ∈ (l.foldl State.applyReq s).reqs, r.id ≠ q.id := by
  induction l generalizing s with
  | nil => exact fun q hq => absurd hq List.not_mem_nil
  | cons a l ih =>
    intro q hq r hr
    rcases List.mem_cons.mp hq with rfl | hq
    · have h1 : r ∈ (s.applyReq q).reqs := fewer_foldl _ applyReq_fewer l _ r hr
      rw [applyReq_reqs] at h1
      simpa using (List.mem_filter.mp h1).2
    · exact ih _ q hq r hr

theorem mem_dueReqs (s : State) (p : Req → Bool) (l : List Req) : ∀ r ∈ l, p r = true → r ∈ s.dueReqs p l := by
  induction l with
  | nil => exact fun r hr => absurd hr List.not_mem_nil
  | cons q l ih =>
    intro r hr hp
    unfold State.dueReqs
    dsimp only
    rcases List.mem_cons.mp hr with rfl | hr
    · rw [hp, Bool.true_or, if_pos rfl]
      exact List.mem_cons_self
    · split
      · exact List.mem_cons_of_mem _ (ih r hr hp)
      · exact ih r hr hp

/-- A core whose requests are drained has none on its way. -/
theorem drainCore_none (s : State) (c : Nat) : ∀ r ∈ (s.drainCore c).reqs, r.ofCore c = false := by
  intro r hr
  by_contra h
  have hc : r.ofCore c = true := by simpa using h
  exact not_mem_applyAll _ s r (mem_dueReqs s (fun r => r.ofCore c) s.reqs r (drain_fewer s (fun r => r.ofCore c) r hr) hc) r hr rfl

theorem release_none (s : State) (c d : Nat) (sc : Scope) (h : sc.wide = true) : ∀ r ∈ (s.release c d sc).reqs, r.ofCore c = false := by
  unfold State.release State.actsOnL1
  rw [h, Bool.true_or, if_pos rfl]
  intro r hr
  exact drainCore_none s c r (fewer_foldl _ (fun s e => writeBack_fewer s c e) _ _ r hr)

/-! What an acquire leaves of L1 (R180, R236). -/

theorem l1Of_modCore (s : State) (c : Nat) (f : Core → Core) (h : ∀ k, (f k).l1 = k.l1) (c' d : Nat) : (s.modCore c f).l1Of c' d = s.l1Of c' d :=
  l1Of_keep (modCore_cores_keep Core.l1 s c f h) c' d

/-- Dropping clean bytes leaves of a domain slot its dirty ones, and of another all. -/
theorem l1Of_dropClean (s : State) (c d d' : Nat) (k : Core) (hk : tget s.cores c = some k) :
    (s.dropClean c d).l1Of c d' = if d' = d then (s.l1Of c d).filter (fun p => p.2.2) else s.l1Of c d' := by
  unfold State.dropClean
  dsimp only
  split
  · rename_i h
    by_cases hd : d' = d
    · rw [if_pos hd, hd, List.isEmpty_iff.mp h]
      rfl
    · rw [if_neg hd]
  · have e : ∀ x : State, ∀ p, (x.unmark c d p).l1Of c d' = x.l1Of c d' := by
      intro x p
      unfold State.unmark
      dsimp only
      split
      · refine l1Of_modCore x c _ ?_ c d'
        exact fun _ => rfl
      · rfl
    rw [e, l1Of_setL1 s c d _ k hk]
    simp only [true_and]

theorem dropClean_exists (s : State) (c d : Nat) : KeepsCores (fun _ => ()) s (s.dropClean c d) := by
  unfold State.dropClean State.unmark
  dsimp only
  split
  · exact fun _ => rfl
  · split
    · exact (modCore_cores_keep (fun _ => ()) s c _ (fun _ => rfl)).trans (modCore_cores_keep _ _ c _ (fun _ => rfl))
    · exact modCore_cores_keep _ s c _ (fun _ => rfl)

theorem dropCleans (c d : Nat) (l : List Nat) (s : State) (k : Core) (hk : tget s.cores c = some k) :
    ((d ∈ l ∨ s.dirtyIn c d) → (l.foldl (fun s e => s.dropClean c e) s).dirtyIn c d) ∧
      (s.cleanIn c d → (l.foldl (fun s e => s.dropClean c e) s).cleanIn c d) := by
  induction l generalizing s k with
  | nil => exact ⟨fun h => h.resolve_left List.not_mem_nil, fun h => h⟩
  | cons e l ih =>
    obtain ⟨k', hk'⟩ := core_of_keeps (dropClean_exists s c e) hk
    obtain ⟨i1, i2⟩ := ih _ k' hk'
    have hl := l1Of_dropClean s c e d k hk
    refine ⟨fun h => i1 ?_, fun h => i2 ?_⟩
    · by_cases hd : d = e
      · right
        unfold State.dirtyIn
        rw [hl, if_pos hd]
        intro p hp
        simpa using (List.mem_filter.mp hp).2
      · rw [if_neg hd] at hl
        rcases h with h | h
        · exact .inl ((List.mem_cons.mp h).resolve_left hd)
        · right
          unfold State.dirtyIn
          rw [hl]
          exact h
    · unfold State.cleanIn
      rw [hl]
      split
      · rename_i hd
        exact fun p hp => h p (hd ▸ (List.mem_filter.mp hp).1)
      · exact h

/-- An acquire that reaches past the block leaves no clean byte of its domain slot (R180). -/
theorem dirtyIn_acquire (s : State) (c d : Nat) (sc : Scope) (k : Core) (hk : tget s.cores c = some k) (h : sc.wide = true) :
    (s.acquire c d sc).dirtyIn c d := by
  unfold State.acquire State.actsOnL1
  rw [h, Bool.true_or, if_pos rfl]
  exact (dropCleans c d _ s k hk).1 (.inl (mem_tied s c d))

theorem cleanIn_acquire (s : State) (c d : Nat) (sc : Scope) (k : Core) (hk : tget s.cores c = some k) (h : s.cleanIn c d) :
    (s.acquire c d sc).cleanIn c d := by
  unfold State.acquire
  split
  · exact (dropCleans c d _ s k hk).2 h
  · exact h

theorem acquire_exists (s : State) (c d : Nat) (sc : Scope) : KeepsCores (fun _ => ()) s (s.acquire c d sc) := by
  unfold State.acquire
  split
  · exact keepsCores_foldl _ _ (fun s e => dropClean_exists s c e) _ s
  · exact fun _ => rfl

theorem acquire_reqs (s : State) (c d : Nat) (sc : Scope) : (s.acquire c d sc).reqs = s.reqs :=
  acquire_field State.reqs (fun _ _ _ => rfl) s c d sc

theorem acquire_cur (s : State) (c d : Nat) (sc : Scope) : (s.acquire c d sc).cur = s.cur :=
  acquire_field State.cur (fun _ _ _ => rfl) s c d sc

theorem release_exists (s : State) (c d : Nat) (sc : Scope) : KeepsCores (fun _ => ()) s (s.release c d sc) := by
  unfold State.release
  split
  · exact (drain_keeps _ (fun _ _ => rfl) s _).trans (keepsCores_foldl _ _ (fun s e => writeBack_exists s c e) _ _)
  · exact fun _ => rfl

/-- A byte that L1 gives is one that it holds. -/
theorem flag_of_tget {s : State} {c d : Nat} {v : Bool} (h : ∀ p ∈ s.l1Of c d, p.2.2 = v) (x : Nat) (b : Byte) (f : Bool)
    (e : tget (s.l1Of c d) x = some (b, f)) : f = v := h _ (mem_of_tget _ _ _ e)

/-- The end of a unit leaves L1 as it is. -/
theorem l1Of_finish (s : State) (c d : Nat) : s.finish.l1Of c d = s.l1Of c d := l1Of_keep (keepsL1_finish s) c d

/-! Prefetch (R190). -/

/-- A state that differs from s in L1 and translations alone, and in which loads take what they took in s. -/
def Prefetched (s t : State) : Prop :=
  KeepsThreads id s t ∧ KeepsCores (fun _ => ()) s t ∧ t.mem = s.mem ∧ t.reqs = s.reqs ∧ t.cur = s.cur ∧
    ∀ c d x, t.loads1 c d x = s.loads1 c d x

theorem Prefetched.refl (s : State) : Prefetched s s := ⟨KeepsThreads.refl _ s, fun _ => rfl, rfl, rfl, rfl, fun _ _ _ => rfl⟩

theorem Prefetched.trans {s t u : State} (h : Prefetched s t) (k : Prefetched t u) : Prefetched s u := by
  obtain ⟨h1, h2, h3, h4, h5, h6⟩ := h
  obtain ⟨k1, k2, k3, k4, k5, k6⟩ := k
  exact ⟨h1.trans k1, h2.trans k2, k3.trans h3, k4.trans h4, k5.trans h5, fun c d x => (k6 c d x).trans (h6 c d x)⟩

theorem Prefetched.of_same {s t : State} (hc : t.cores = s.cores) (hm : t.mem = s.mem) (hr : t.reqs = s.reqs) (hu : t.cur = s.cur) :
    Prefetched s t :=
  ⟨KeepsThreads.of_cores _ hc, KeepsCores.of_cores _ hc, hm, hr, hu, loads1_keep (KeepsCores.of_cores _ hc) hm⟩

theorem cacheRot_prefetched (s : State) (page : Nat) : Prefetched s (s.cacheRot page) := by
  unfold State.cacheRot
  generalize BitVec.ofNat 64 (s.rotEntry (page * 65536)) = r
  exact Prefetched.of_same rfl rfl rfl rfl

theorem cacheTlb_prefetched (s : State) (e : TlbEntry) : Prefetched s ({ s with tlb := e :: s.tlb } : State) :=
  Prefetched.of_same rfl rfl rfl rfl

/-- A walk caches its translation, and changes nothing that a load takes. -/
theorem xlateWalk_prefetched (s : State) (x : XReq) (va : Nat) : Prefetched s (s.xlateWalk x va).2 := by
  unfold State.xlateWalk
  cases s.tlbFind x.part va with
  | some e =>
    dsimp only
    exact cacheRot_prefetched s e.ppage
  | none =>
    dsimp only
    cases s.walk x.part va with
    | ok e =>
      dsimp only
      exact (cacheTlb_prefetched s e).trans (cacheRot_prefetched ({ s with tlb := e :: s.tlb } : State) e.ppage)
    | error c => exact Prefetched.refl s

theorem l1Fill_prefetched (s : State) (c d line : Nat) (k : Core) (hk : tget s.cores c = some k) (hr : s.reqs = []) (hl : line % 128 = 0) :
    Prefetched s (s.l1Fill c d line) := by
  obtain ⟨h1, h2, -, -⟩ := l1Fill_spec s c d line k hk hr hl
  refine ⟨fun a b l => ?_, fun a => ?_, noL1_sees_mem h1, noL1_reqs h1, (congrArg State.cur h1 :), h2⟩
  · rw [← noL1_thread (s.l1Fill c d line), h1, noL1_thread]
  · cases e : tget s.cores a with
    | none =>
      cases e' : tget (s.l1Fill c d line).cores a with
      | none => rfl
      | some k' =>
        obtain ⟨k'', e''⟩ := noL1_tget h1.symm a k' e'
        exact absurd (e.symm.trans e'') (by simp)
    | some k' =>
      obtain ⟨k'', e''⟩ := noL1_tget h1 a k' e
      rw [e'']
      rfl

theorem prefetch_prefetched (s : State) (w : Warp) (va : Nat) (k : Core) (hk : tget s.cores s.cur.core = some k) (hr : s.reqs = []) :
    Prefetched s (s.prefetch w va) := by
  have hx := xlateWalk_prefetched s (w.request true false false) va
  unfold State.prefetch
  split
  · exact Prefetched.refl s
  · generalize s.xlateWalk (w.request true false false) va = y at hx
    obtain ⟨r, t⟩ := y
    have hst : Prefetched s t := hx
    obtain ⟨-, h2, -, h4, -⟩ := hx
    obtain ⟨k', hk'⟩ := core_of_keeps h2 hk
    cases r with
    | good pa rot =>
      dsimp only
      split
      · have hl : pa / 128 * 128 % 128 = 0 := Nat.mul_mod_left _ _
        exact hst.trans (l1Fill_prefetched t s.cur.core w.curSlot (pa / 128 * 128) k' hk' (h4.trans hr) hl)
      · exact hst
    | miss => exact hst
    | bad c => exact hst

theorem prefetches_prefetched (w : Warp) (f : State → Nat × Thread → Nat) (l : List (Nat × Thread)) (s : State) (k : Core)
    (hk : tget s.cores s.cur.core = some k) (hr : s.reqs = []) :
    Prefetched s (l.foldl (fun s p => s.prefetch w (f s p)) s) := by
  induction l generalizing s k with
  | nil => exact Prefetched.refl s
  | cons p l ih =>
    have h1 := prefetch_prefetched s w (f s p) k hk hr
    obtain ⟨k', hk'⟩ := core_of_keeps h1.2.1 hk
    exact h1.trans (ih _ k' (by rw [h1.2.2.2.2.1]; exact hk') (h1.2.2.2.1.trans hr))

/-! The statement. -/

theorem counted_regs (s : State) (u : Use) : KeepsThreads Thread.regs s (s.counted u) :=
  keeps_counted Thread.regs (fun u c t => count_regs u c t) s u

theorem heldLanes_counted (s : State) (u : Use) (a b : Bool) : (s.counted u).heldLanes a b = s.heldLanes a b := by
  unfold State.heldLanes
  rw [live_counted, List.filter_map, List.map_map]
  rfl

/-- The lanes at the end of an instruction that leaves them and the unit in progress as they are. -/
theorem laneStep_finish (s : State) (u : Use) (y : State) (hci : s.canIssue u = true) (hc : y.cur = (s.counted u).cur)
    (ht : KeepsThreads id (s.counted u) y) : LaneStep s y.finish (fun _ th => u.ran s.cur id th) := by
  obtain ⟨t, e, -, lanes⟩ := nop_run s u hci
  rw [issue_runs s u _ hci] at e
  obtain rfl := Host.Outcome.next.inj e
  intro l
  rw [← lanes l]
  have h1 := thread_finishBy y 1 (fun _ t => t.advance y.cur) l
  have h2 := thread_finishBy (s.counted u) 1 (fun _ t => t.advance (s.counted u).cur) l
  rw [hc] at h1
  have e1 : (y.thread? (s.counted u).cur.core (s.counted u).cur.slot l) = (s.counted u).thread? (s.counted u).cur.core (s.counted u).cur.slot l := by
    simpa using ht (s.counted u).cur.core (s.counted u).cur.slot l
  rw [e1] at h1
  have hy : y.finish = y.finishBy 1 (fun _ t => t.advance y.cur) := rfl
  have hs : (s.counted u).finish = (s.counted u).finishBy 1 (fun _ t => t.advance (s.counted u).cur) := rfl
  rw [hy, hc, hs]
  exact h1.trans h2.symm

theorem count_acq (u : Use) (c : Cur) (t : Thread) : (u.count c t).acq = t.acq := by
  unfold Use.count
  split
  · rfl
  · split <;> rfl

/-- Settles O50, form by form: each is the end of its unit after a prefetch, a release, an acquire, or nothing. -/
theorem fencesAndCounts : Obligations.FencesAndCounts := by
  intro s w hw c regsKept
  obtain ⟨k, hk⟩ := tget_of_warp (s := s) (c := s.cur.core) (n := s.cur.slot) hw
  have hx : ∀ u : Use, ∃ k', tget (s.counted u).cores c = some k' := fun u =>
    core_of_keeps (counted_keeps (fun _ => ()) (fun _ _ => rfl) s u) hk
  have hwx : ∀ u : Use, (s.counted u).warp? = some (w.mapLanes s.cur.mask (fun _ t => u.count s.cur t)) := fun u => by
    rw [warp_counted, hw]
    rfl
  refine ⟨?_, ?_, ?_, ?_⟩
  · intro p a hci
    let u : Use := { opds := [.two .va a], rep := true }
    have hrun : exec (.pref p a) s = .next (if p then s.counted u else (s.counted u).live.foldl (fun x q =>
        x.prefetch (w.mapLanes s.cur.mask (fun _ t => u.count s.cur t)) (q.2.nat64 (x.reg .va a))) (s.counted u)).finish := by
      rw [exec_pref]
      unfold execPref
      rw [issue_runs s _ _ hci, hwx]
    refine ⟨_, hrun, fun hr => ?_⟩
    obtain ⟨k', hk'⟩ := hx u
    have hp : Prefetched (s.counted u) (if p then s.counted u else (s.counted u).live.foldl (fun x q =>
        x.prefetch (w.mapLanes s.cur.mask (fun _ t => u.count s.cur t)) (q.2.nat64 (x.reg .va a))) (s.counted u)) := by
      cases p with
      | true => exact Prefetched.refl _
      | false => exact prefetches_prefetched _ (fun x q => q.2.nat64 (x.reg .va a)) _ _ k' hk' hr
    obtain ⟨h1, -, h3, -, -, h6⟩ := hp
    refine ⟨fun a b l => ?_, h3, fun q d x => ?_⟩
    · rw [finish_regs _ a b l, ← counted_regs s u a b l]
      have := h1 a b l
      simp only [Option.map_id_fun, id_eq] at this
      rw [this]
    · refine (loads1_keep (keepsL1_finish _) (finish_mem _) q d x).trans ((h6 q d x).trans (loads1_counted s u q d x))
  · intro e fk sc hci hlive hheld hwaits
    let u : Use := Use.flow []
    let y : State := if (fk != .acq || e) then (s.counted u).release c w.curSlot sc else s.counted u
    let z : State := if fk == .full || fk == .acq then y.acquire c w.curSlot sc else y
    have hlive' : (s.counted u).live.isEmpty = false := by
      rw [live_counted, List.isEmpty_map]
      simpa using hlive
    have hnone : (s.counted u).live.filterMap (fun p => ((s.counted u).fenceWaits (fk != .acq || e) sc p.1).map (fun x => (p.1, x))) = [] := by
      rw [live_counted, List.filterMap_map, List.filterMap_eq_nil_iff]
      intro p hp
      exact congrArg (Option.map _) (hwaits p hp)
    have hrun : exec (.fence e fk sc) s = .next z.finish := by
      rw [exec_fence]
      unfold execFence
      rw [issue_runs s _ _ hci, hwx]
      dsimp only
      rw [hlive', heldLanes_counted, hheld, hnone]
      rfl
    obtain ⟨k', hk'⟩ := hx u
    have hy : KeepsCores (fun _ => ()) (s.counted u) y := by
      unfold y
      split
      · exact release_exists _ _ _ _
      · exact fun _ => rfl
    obtain ⟨k'', hk''⟩ := core_of_keeps hy hk'
    have hyr : KeepsThreads Thread.regs (s.counted u) y := by
      unfold y
      split
      · exact release_threads Thread.regs (fun _ => rfl) _ _ _ _
      · exact KeepsThreads.refl _ _
    have hzr : KeepsThreads Thread.regs y z := by
      unfold z
      split
      · exact acquire_threads Thread.regs _ _ _ _
      · exact KeepsThreads.refl _ _
    refine ⟨z.finish, hrun, ((counted_regs s u).trans hyr).trans (hzr.trans (finish_regs z)), fun hrel hw' => ?_, fun hacq hw' => ?_⟩
    · have hall : (fk != .acq || e) = true := by
        rcases hrel with h | h
        · simp [h]
        · simp [h]
      have hyc : y.cleanIn c w.curSlot := by
        unfold y
        rw [if_pos hall]
        exact cleanIn_release _ _ _ _ k' hk' hw'
      have hzc : z.cleanIn c w.curSlot := by
        unfold z
        split
        · exact cleanIn_acquire y _ _ _ k'' hk'' hyc
        · exact hyc
      refine ⟨fun x b d hd => ?_, fun r hr f hf => ?_⟩
      · rw [l1Of_finish] at hd
        exact flag_of_tget hzc x b d hd
      · have hzy : z.reqs = y.reqs := by
          unfold z
          split
          · exact acquire_reqs y _ _ _
          · rfl
        have hr' : r ∈ y.reqs := hzy ▸ hr
        have hn : r.ofCore c = false := by
          unfold y at hr'
          rw [if_pos hall] at hr'
          exact release_none _ _ _ _ hw' r hr'
        unfold Req.ofCore at hn
        rw [List.any_eq_false] at hn
        simpa using hn f hf
    · have hk2 : (fk == .full || fk == .acq) = true := by
        rcases hacq with h | h <;> simp [h]
      intro x b d hd
      rw [l1Of_finish] at hd
      unfold z at hd
      rw [if_pos hk2] at hd
      exact flag_of_tget (dirtyIn_acquire y _ _ _ k'' hk'' hw') x b d hd
  · intro hci hpend
    let u : Use := { opds := [], rep := true }
    have hpend' : (s.counted u).pend.any (fun p => p.core == c && p.slot == s.cur.slot && (s.counted u).loadOut s.cur.mask p) = false := by
      rw [List.any_eq_false]
      intro p hp
      have h := List.all_eq_true.mp hpend p hp
      rw [Bool.not_eq_true'] at h
      exact Bool.eq_false_iff.mp h
    have hany : (s.counted u).active.any (fun p => p.2.acq) = s.active.any (fun p => p.2.acq) := by
      rw [active_counted, List.any_map]
      congr 1
      funext p
      exact count_acq u s.cur p.2
    have hrun : exec .wfence s = .next (if s.active.any (fun p => p.2.acq) then ((s.counted u).acquire c w.curSlot .cluster) else s.counted u).finish := by
      rw [exec_wfence]
      unfold execWfence
      rw [issue_runs s _ _ hci, hwx]
      dsimp only
      rw [show (s.counted u).pend.any (fun p => p.core == (s.counted u).cur.core && p.slot == (s.counted u).cur.slot &&
        (s.counted u).loadOut (s.counted u).cur.mask p) = false from hpend', hany]
      simp only [Bool.false_eq_true, if_false]
      cases s.active.any (fun p => p.2.acq) <;> rfl
    refine ⟨fun hn => ?_, fun ha => ?_⟩
    · obtain ⟨t, e, only, lanes⟩ := nop_run s u hci
      have hf : s.active.any (fun p => p.2.acq) = false := by
        rw [List.any_eq_false]
        intro p hp
        simpa using List.all_eq_true.mp hn p hp
      rw [issue_runs s u _ hci] at e
      rw [hf] at hrun
      exact ⟨t, hrun.trans e, only, lanes⟩
    · rw [ha, if_pos rfl] at hrun
      obtain ⟨k', hk'⟩ := hx u
      refine ⟨_, hrun, acquire_mem _ _ _ _, laneStep_finish s u _ hci (acquire_cur _ _ _ _) (acquire_threads id _ _ _ _), fun x b d hd => ?_⟩
      rw [l1Of_finish] at hd
      exact flag_of_tget (dirtyIn_acquire (s.counted u) _ _ _ k' hk' rfl) x b d hd
  · intro cls n hci hlive hdef hcnt
    let u : Use := Use.flow []
    let v : Warp := w.mapLanes s.cur.mask (fun _ t => u.count s.cur t)
    have hlive' : (s.counted u).live.isEmpty = false := by
      rw [live_counted, List.isEmpty_map]
      simpa using hlive
    have hnone : (s.counted u).reportDeferred v (fun x => x.cls == cls.toNat) = none := by
      have he : v.deferred.filter (fun x => x.cls == cls.toNat) = [] := by
        rw [List.filter_eq_nil_iff]
        intro x hx'
        simpa using List.all_eq_true.mp hdef x hx'
      unfold State.reportDeferred
      rw [he]
      rfl
    have hrun : exec (.waitc cls n) s = .next (if cls = 0 ∨ cls = 4 then (s.counted u).dropClean c w.curSlot else s.counted u).finish := by
      rw [exec_waitc]
      unfold execWaitc
      rw [issue_runs s _ _ hci, hwx]
      dsimp only
      rw [hlive', show (s.counted u).reportDeferred v (fun x => x.cls == cls.toNat) = none from hnone,
        if_neg (show ¬ n.toNat < v.cnt cls.toNat from Nat.not_lt.mpr hcnt)]
      rfl
    refine ⟨fun hne => ?_, fun hcls => ?_⟩
    · obtain ⟨t, e, only, lanes⟩ := nop_run s u hci
      rw [issue_runs s u _ hci] at e
      rw [if_neg (fun h => h.elim hne.1 hne.2)] at hrun
      exact ⟨t, hrun.trans e, only, lanes⟩
    · rw [if_pos hcls] at hrun
      obtain ⟨k', hk'⟩ := hx u
      refine ⟨_, hrun, (counted_regs s u).trans ((dropClean_threads Thread.regs _ _ _).trans (finish_regs _)),
        dropClean_field State.mem (fun _ _ _ => rfl) _ _ _, fun x b d hd => ?_⟩
      rw [l1Of_finish, l1Of_dropClean _ _ _ _ k' hk', if_pos rfl] at hd
      simpa using (List.mem_filter.mp (mem_of_tget _ _ _ hd)).2

end Sys2Proof.Machine
end

section
/-!
PROOFS. Waits on words (O51).
-/
namespace Sys2Proof.Machine

/-- Settles O51: every read passes and the condition is met lane by lane, or the walks begin; BRDC's body is one access. -/
theorem waitsOnWords : Obligations.WaitsOnWords := by
  intro s w good y z vals use reads walks walking
  refine ⟨?_, ?_, ?_, ?_, ?_⟩
  · intro o k q a d ⟨hci, hw, hp, hr, hg, hv⟩
    rw [exec_waita]
    unfold execWaita
    exact waitIssue_go _ true _ a _ s w good y z vals hci hw hp hr hg hv
  · intro b a ⟨hci, hw, hp, hr, hg, hv⟩
    rw [exec_bwait]
    unfold execBwait
    exact waitIssue_go _ false 8 a _ s w good y z vals hci hw hp hr hg hv
  · intro o k q a d ⟨hci, hw, hp, hr, hg⟩
    rw [exec_waita]
    unfold execWaita
    exact waitIssue_walks _ true _ a _ s w good y hci hw hp hr hg
  · intro b a ⟨hci, hw, hp, hr, hg⟩
    rw [exec_bwait]
    unfold execBwait
    exact waitIssue_walks _ false 8 a _ s w good y hci hw hp hr hg
  · intro a d u x sc loads hci hw ok
    rw [exec_brdc]
    unfold execBrdc
    exact issue_access s u w _ loads _ hci hw ok rfl

end Sys2Proof.Machine
end

section
/-!
PROOFS. Windows to other packages, time and stamped records (O52).
-/
namespace Sys2Proof.Machine

theorem isEmpty_of_ne_nil {α : Type} {l : List α} (h : l ≠ []) : l.isEmpty = false := by
  simpa using h

/-- A partition with engines does not refuse a window command. -/
theorem engineRefuses_mayCopy (s : State) (w : Warp) (a : Reg) (l : List (Nat × Thread × WinRef)) (h : s.mayCopy w = true) :
    s.engineRefuses w a l = none := by
  cases l with
  | nil => rfl
  | cons x l => exact if_pos h

/-- Settles O52: each is the effect its operation has on the places, once every check has passed. -/
theorem windowsAndStamps : Obligations.WindowsAndStamps := by
  intro s w y ready places records
  refine ⟨?_, ?_, ?_, ?_, ?_, ?_, ?_⟩
  · intro L z a d l hl hmay hcnt
    have hfull : ¬ 63 ≤ w.cnt 3 := by omega
    refine ⟨fun ⟨⟨hci, hw, hh⟩, hr⟩ => ?_, fun ⟨⟨hci, hw, hh⟩, hr⟩ => ?_⟩
    · rw [exec_wstr]
      unfold execWstr
      rw [winIssue_go _ true _ a _ s w l y hci hw hh hr, engineRefuses_mayCopy y w a l hmay]
      simp only [isEmpty_of_ne_nil hl, Bool.false_eq_true, if_false, if_neg hfull]
      rfl
    · intro dest
      rw [exec_wget]
      unfold execWget
      rw [winIssue_go _ false _ a _ s w l y hci hw hh hr, engineRefuses_mayCopy y w a l hmay]
      simp only [isEmpty_of_ne_nil hl, Bool.false_eq_true, if_false, if_neg hfull]
      rfl
  · intro L c a d l hl ⟨⟨hci, hw, hh⟩, hr⟩
    rw [exec_wcnt]
    unfold execWcnt
    rw [winIssue_go _ false 1 a _ s w l y hci hw hh hr]
    simp only [isEmpty_of_ne_nil hl, Bool.false_eq_true, if_false]
  · intro q c a d l ⟨⟨hci, hw, hh⟩, hr⟩ met done
    rw [exec_wwait]
    unfold execWwait
    rw [winIssue_go _ false 1 a _ s w l y hci hw hh hr]
  · intro d hci
    rw [exec_timei, execTimei]
    exact issue_mapActive s _ (fun x _ t => (t.setPair d.toNat (BitVec.ofNat 64 x.deckle.early)).setPair (d.toNat + 2)
      (BitVec.ofNat 64 x.deckle.lateRead)) _ hci (fun _ _ => rfl)
  · intro a hci
    rw [exec_commitw, execCommitw]
    refine issue_mapActive s _ _ _ hci (fun l th => ?_)
    rw [count_helper, count_nat64]
    rfl
  · intro L a d l hl hcnt ⟨⟨hci, hw, hh⟩, hr, hd⟩
    have hfull : ¬ 63 ≤ w.cnt 5 := by omega
    rw [exec_stst]
    unfold execStst
    rw [stampIssue_go _ true a _ _ s w l y hci hw hh hr hd (fun _ _ => rfl)]
    simp only [isEmpty_of_ne_nil hl, Bool.false_eq_true, if_false, if_neg hfull]
    rfl
  · intro L a d l hl ⟨⟨hci, hw, hh⟩, hr, hd⟩ hlt lanes dest
    rw [exec_ldat]
    unfold execLdat
    rw [stampIssue_go _ false a _ _ s w l y hci hw hh hr hd (fun x hx => decide_eq_false (by have := hlt x hx; omega))]
    simp only [isEmpty_of_ne_nil hl, Bool.false_eq_true, if_false]
    rfl

end Sys2Proof.Machine
end

section
/-!
PROOFS. The transformed mean (O53).
-/
namespace Sys2Proof.Machine

/-- The slot checks are the same once the instruction has counted. -/
theorem tmCheck_counted (s : State) (u : Use) (w v : Warp) (hs : v.curSlot = w.curSlot) (t : Thread) :
    (s.counted u).tmCheck v (u.count s.cur t) = s.tmCheck w t := by
  have hslot : (u.count s.cur t).tmSlot = t.tmSlot := by unfold Thread.tmSlot; rw [count_tmctl]
  have htab : (u.count s.cur t).tmTable = t.tmTable := by unfold Thread.tmTable; rw [count_tmctl]
  have hdp : ((s.counted u).core s.cur.core).dp v.curSlot = (s.core s.cur.core).dp v.curSlot :=
    core_keep (f := fun k => k.dp v.curSlot) (counted_keeps (fun k => k.dp v.curSlot) (fun _ _ => rfl) s u) _
  have htm : ((s.counted u).core s.cur.core).tms = (s.core s.cur.core).tms :=
    core_keep (f := Core.tms) (counted_keeps Core.tms (fun _ _ => rfl) s u) _
  unfold State.tmCheck State.tmSlotOf
  rw [hslot, htab, show (s.counted u).cur.core = s.cur.core from rfl, hdp, htm, hs]

/-- What a lane answers is the value of `f` in the first thread of its number. -/
theorem tmOut_of_thread (s : State) (f : Nat → Thread → Option (List Word × BitVec 5)) (n : Nat) (th : Thread)
    (h : s.thread? s.cur.core s.cur.slot n = some th) (hl : laneIn s.cur.mask n = true) :
    tget (s.active.map (fun p => (p.1, (f p.1 p.2).getD ([], 0)))) n = some (s.tmOut f n) := by
  obtain ⟨w, hw, ht⟩ := Option.bind_eq_some_iff.mp h
  have ha : tget s.active n = some th := by
    unfold State.active State.warp?
    rw [hw]
    exact tget_filter w.threads _ n th ht hl
  unfold State.tmOut
  obtain ⟨y, hy⟩ : ∃ y, tget (s.active.map (fun p => (p.1, (f p.1 p.2).getD ([], 0)))) n = some y := by
    exact ⟨_, (tget_map s.active (fun n t => (f n t).getD ([], 0)) n).trans (by rw [ha]; rfl)⟩
  rw [hy]
  rfl

/-- Nothing is asked of a lane whose slot passes and whose argument is inside the domain. -/
theorem topFault_nil {α : Type} (l : List α) (g : α → Option (Cause × Nat × Nat)) (h : ∀ x ∈ l, g x = none) : topFault (l.filterMap g) = none := by
  rw [List.filterMap_eq_nil_iff.mpr h]
  rfl

/-- A transformed-mean instruction of which no lane faults (R86, R122, R269): what it answers pends, and each lane stops or opens its
window. -/
theorem tm_run (opds : List Opd) (L : BitVec 4) (check : Bool) (dst : List Nat) (arg : Thread → Word)
    (f : Nat → Thread → Option (List Word × BitVec 5)) (s : State) (w : Warp) (hw : s.warp? = some w)
    (hf : ∀ n t, f n (({ opds := opds, rep := true } : Use).count s.cur t) = f n t)
    (hci : s.canIssue { opds := opds, rep := true } = true)
    (hok : ∀ p ∈ s.active, (check = true → s.tmCheck w p.2 = none) ∧ (f p.1 p.2).isSome = true) :
    ∃ t, tmIssue opds L check dst arg f s = .next t ∧ OnlyPending s t (s.pending none (.result .tm (s.tmWrites dst f))) ∧
      LaneStep s t (fun l th => ({ opds := opds, rep := true } : Use).ran s.cur
        (Thread.tmStep s.cur L (s.tmOut f l) s.nextId dst th) th) := by
  let u : Use := { opds := opds, rep := true }
  have hactive : (s.counted u).active = s.active.map (fun p => (p.1, u.count s.cur p.2)) := active_counted s u
  have hout : ((s.counted u).active.map (fun p => (p.1, (f p.1 p.2).getD ([], 0)))) =
      s.active.map (fun p => (p.1, (f p.1 p.2).getD ([], 0))) := by
    rw [hactive, List.map_map]
    refine List.map_congr_left (fun p _ => ?_)
    simp only [Function.comp_apply, u, hf]
  let out := s.active.map (fun p => (p.1, (f p.1 p.2).getD ([], 0)))
  let g : Nat → Thread → Thread := fun n t => match tget out n with
    | some x => if x.2 &&& t.enables != 0 then t.stopFpx x.2 else t.openWindow s.cur.last L.toNat (t.enables != 0) [s.nextId] dst
    | none => t
  have key : ∀ body : State → Out, body (s.counted u) = .next (({ s.counted u with
      pend := (s.counted u).pend ++ [s.pending none (.result .tm (s.tmWrites dst f))], nextId := (s.counted u).nextId + 1 } : State).mapActive
        g).finish → ∃ t, s.issue u body = .next t ∧ OnlyPending s t (s.pending none (.result .tm (s.tmWrites dst f))) ∧
      LaneStep s t (fun l th => u.ran s.cur (Thread.tmStep s.cur L (s.tmOut f l) s.nextId dst th) th) := by
    intro body hb
    obtain ⟨t, he, hp, hl⟩ := pending_run s u body g (.result .tm (s.tmWrites dst f)) hci hb
    refine ⟨t, he, hp, fun n => ?_⟩
    rw [hl n]
    cases hth : s.thread? s.cur.core s.cur.slot n with
    | none => rfl
    | some th =>
      simp only [Option.map_some]
      by_cases hm : laneIn s.cur.mask n = true
      · have ho : tget out n = some (s.tmOut f n) := tmOut_of_thread s f n th hth hm
        have hg : g n (u.count s.cur th) = Thread.tmStep s.cur L (s.tmOut f n) s.nextId dst th (u.count s.cur th) := by
          unfold Thread.tmStep
          rw [← count_enables u s.cur th]
          simp only [g, ho]
        simp only [hm, if_true, Use.ran, hg]
      · simp only [hm, Bool.false_eq_true, if_false]
  refine key _ ?_
  have hwx : (s.counted u).warp? = some (w.mapLanes s.cur.mask (fun _ t => u.count s.cur t)) := by
    rw [warp_counted, hw]
    rfl
  have hws : ((s.counted u).active.filter (fun p => !(match tget out p.1 with
        | some x => x.2 &&& p.2.enables != 0 | none => false))).map (fun p =>
      (⟨p.1, dst.zip ((tget out p.1).getD ([], 0)).1, ((tget out p.1).getD ([], 0)).2⟩ : LaneWrite)) = s.tmWrites dst f := by
    unfold State.tmWrites
    rw [hactive, List.filter_map, List.map_map]
    have hstop : ((fun p : Nat × Thread => !(match tget out p.1 with | some x => x.2 &&& p.2.enables != 0 | none => false)) ∘
        (fun (p : Nat × Thread) => (p.1, u.count s.cur p.2))) = fun (p : Nat × Thread) => !((s.tmOut f p.1).2 &&& p.2.enables != 0) := by
      funext p
      simp only [Function.comp_apply, count_enables, State.tmOut, out]
      cases tget (s.active.map (fun p => (p.1, (f p.1 p.2).getD ([], 0)))) p.1 with
      | none => simp
      | some x => rfl
    rw [hstop]
    rfl
  rw [hwx]
  dsimp only
  rw [topFault_nil]
  rotate_left
  · intro p hp
    rw [hactive] at hp
    obtain ⟨q, hq, rfl⟩ := List.mem_map.mp hp
    obtain ⟨hc, hs⟩ := hok q hq
    have hcheck : (if check = true then (s.counted u).tmCheck (w.mapLanes s.cur.mask (fun _ t => u.count s.cur t)) (u.count s.cur q.2)
        else none) = none := by
      by_cases h : check = true
      · rw [if_pos h, tmCheck_counted s u w (w.mapLanes s.cur.mask (fun _ t => u.count s.cur t)) rfl]
        exact hc h
      · exact if_neg h
    dsimp only
    rw [hcheck]
    dsimp only
    rw [if_neg]
    rw [show f q.1 (u.count s.cur q.2) = f q.1 q.2 from hf q.1 q.2, Option.isNone_iff_eq_none]
    intro e
    rw [e] at hs
    exact Bool.false_ne_true hs
  · dsimp only
    rw [hout]
    have epc := firstPc_counted s u hci
    unfold State.pending
    rw [← hws, ← epc]
    rfl

/-- The entry of a lane reads its transformed-mean registers alone. -/
theorem enter_counted (s : State) (u : Use) (t : Thread) (x : Word) : s.enter (u.count s.cur t) x = s.enter t x := by
  have hctl : (u.count s.cur t).tmctl = t.tmctl := count_tmctl u s.cur t
  have hshape : (u.count s.cur t).tmshape = t.tmshape := count_tmshape u s.cur t
  unfold State.enter State.tmEntry State.tmF State.tmSlotOf Thread.argPartial Thread.tmTable Thread.tmSlot Thread.tmTarg
  rw [hctl, hshape]

/-- So does the exit. -/
theorem tmExit_counted (s : State) (u : Use) (t : Thread) (ws : List Word) : s.tmExit (u.count s.cur t) ws = s.tmExit t ws := by
  have hctl : (u.count s.cur t).tmctl = t.tmctl := count_tmctl u s.cur t
  have hshape : (u.count s.cur t).tmshape = t.tmshape := count_tmshape u s.cur t
  unfold State.tmExit State.tmSlotOf Thread.tmTable Thread.tmSlot
  rw [hctl, hshape]

/-- TMLD with parameters that pass (R268). -/
theorem tmld_run (L : BitVec 4) (n : BitVec 3) (a d : Reg) (s : State) (w : Warp) (hw : s.warp? = some w) (lane : Nat) (t : Thread)
    (rest : List (Nat × Thread)) :
    let v := s.reg .vd d
    let r := s.reg .va a
    let u : Use := { opds := [.four .vd d, .two .va a], rep := true }
    let x := s.counted u
    let ps := t.group v 4
    s.canIssue u = true → x.live = (lane, t) :: rest → bit (dpTm ((x.core s.cur.core).dp w.curSlot)) n.toNat = true →
    ps.all finite32 = true → fix32 (ps.getD 0 0) < fix32 (ps.getD 1 0) → fix32 (ps.getD 2 0) ≠ fix32 (ps.getD 3 0) →
    t.nat64 r % 64 = 0 → t.nat64 r < 2 ^ 56 → w.cnt 7 < 63 →
    exec (.tmld L n a d) s = .next ((({ x with
      nextId := x.nextId + 1
      loads := x.loads ++ [⟨x.nextId, s.cur.core, s.cur.slot, lane, t.pc, n.toNat, t.nat64 r, ps, false⟩] } : State).countEngine 7
        x.nextId).openWindow L [] []).finish := by
  intro v r u x ps hci hlive hmask hfin hlo hy hal hpg hcnt
  have hwx : x.warp? = some (w.mapLanes s.cur.mask (fun _ t => u.count s.cur t)) := by
    rw [show x = s.counted u from rfl, warp_counted, hw]
    rfl
  have hbad : (!ps.all finite32 || decide (fix32 (ps.getD 1 0) ≤ fix32 (ps.getD 0 0)) || fix32 (ps.getD 2 0) == fix32 (ps.getD 3 0)) = false := by
    rw [hfin, decide_eq_false (by omega), beq_eq_false_iff_ne.mpr hy]
    rfl
  have hfull : ¬ 63 ≤ w.cnt 7 := by omega
  have hpage : ¬ 2 ^ 56 ≤ t.nat64 r := by omega
  rw [exec_tmld]
  unfold execTmld
  rw [issue_runs s u _ hci, show (s.counted u).warp? = _ from hwx, show (s.counted u).live = _ from hlive]
  dsimp only
  rw [show bit (dpTm (((s.counted u).core (s.counted u).cur.core).dp (w.mapLanes s.cur.mask (fun _ t => u.count s.cur t)).curSlot)) n.toNat
    = true from hmask]
  rw [show (!(t.group ((s.counted u).reg .vd d) 4).all finite32 || decide (fix32 ((t.group ((s.counted u).reg .vd d) 4).getD 1 0) ≤
    fix32 ((t.group ((s.counted u).reg .vd d) 4).getD 0 0)) || fix32 ((t.group ((s.counted u).reg .vd d) 4).getD 2 0) ==
      fix32 ((t.group ((s.counted u).reg .vd d) 4).getD 3 0)) = false from hbad]
  rw [show t.nat64 ((s.counted u).reg .va a) = t.nat64 r from rfl]
  rw [if_neg (by simp), if_neg (by simp), if_neg (by simpa using hal), if_neg hpage, if_neg (show ¬ 63 ≤ (w.mapLanes s.cur.mask (fun _ t => u.count s.cur t)).cnt 7 from hfull)]
  rfl

/-- Settles O53: each instruction is `tm_run` of what it answers; TMLD passes its checks one by one. -/
theorem transformedMean : Obligations.TransformedMean := by
  intro L a d s w hw v r runs
  refine ⟨?_, ?_, ?_, ?_, ?_, ?_, ?_⟩
  · intro hci hok
    rw [exec_tmclr]
    unfold execTmclr
    exact tm_run _ L false _ _ _ s w hw (fun _ _ => rfl) hci hok
  · intro hci hok
    rw [exec_tment]
    unfold execTment
    exact tm_run _ L true _ _ _ s w hw (fun _ t => by rw [enter_counted, count_get]) hci hok
  · intro hci hok
    rw [exec_tmacc]
    unfold execTmacc
    exact tm_run _ L true _ _ _ s w hw (fun _ t => by rw [enter_counted, count_get, count_group]) hci hok
  · intro hci hok
    rw [exec_tmmrg]
    unfold execTmmrg
    exact tm_run _ L false _ _ _ s w hw (fun _ t => by rw [count_group, count_group]) hci hok
  · intro hci hok
    rw [exec_tmredw]
    unfold execTmredw
    exact tm_run _ L true _ _ _ s w hw (fun _ _ => rfl) hci hok
  · intro hci hok
    rw [exec_tmexit]
    unfold execTmexit
    exact tm_run _ L true _ _ _ s w hw (fun _ t => by rw [tmExit_counted, count_group]) hci hok
  · intro n lane t rest
    exact tmld_run L n a d s w hw lane t rest

end Sys2Proof.Machine
end

section
/-!
PROOFS. Matrix commands (O54).
-/
namespace Sys2Proof.Machine

/-- A region whose tag is another domain's, one that has a block on the cluster (R203). -/
def State.foreign (s : State) (w : Warp) (y : Option (Nat × Bool)) : Bool :=
  y.any (fun z => z != s.regionTag w && s.didResident (clusterOf s.cur.core) z.1)

/-- MLDB whose checks pass (R203–R205). -/
theorem mldb_run (L : BitVec 4) (a d : Reg) (s : State) (w : Warp) (lane : Nat) (t : Thread) (rest : List (Nat × Thread))
    (x : State) (fw : FmtWord) (off n len : Nat) (hci : s.canIssue { opds := [.one .vd d, ⟨.va, a.toNat, 4, 2⟩] } = true)
    (hx : x = s.counted { opds := [.one .vd d, ⟨.va, a.toNat, 4, 2⟩] }) (hw : x.warp? = some w) (hl : x.live = (lane, t) :: rest)
    (hv : voteFails (x.active.map (fun p => (p.1, p.2.get d.toNat))) = none) (hf : FmtWord.of (t.get d.toNat) = some fw)
    (hoff : off = ((t.group a.toNat 4).getD 2 0).toNat) (hn : n = ((t.group a.toNat 4).getD 3 0).toNat)
    (hlen : len = 32 * ((n + 31) / 32) * elemBits fw.b / 8) (h0 : 0 < n) (h1 : n ≤ 65536) (h2 : words2 (t.group a.toNat 4) 0 % 16 = 0)
    (h3 : off % 16 = 0) (h4 : off + len ≤ 131072) (h5 : x.myCluster.table.length < 32) (h6 : w.cnt 1 < 63)
    (h7 : x.myCluster.badRegion off len (x.foreign w) = none) :
    exec (.mldb L a d) s = .next ((x.enterCmd w lane t.pc (some 1) (.mldb (t.get d.toNat) (words2 (t.group a.toNat 4) 0) off n)
      (fun k => k.claim off len (x.regionTag w))).endCmd L) := by
  subst hoff hn hlen
  rw [exec_mldb]
  unfold execMldb
  rw [issue_runs s _ _ hci, ← hx, hw, hl]
  dsimp only
  rw [hv, hf]
  dsimp only
  rw [if_neg (by omega), if_neg (by omega), if_neg (by omega)]
  split
  · next o ho =>
      have hc := ho.symm.trans ((congrArg (x.myCluster.badRegion _ _) (funext (fun y => by cases y <;> rfl))).trans h7)
      cases hc
  · rw [if_neg (by omega)]

/-- MLOOP whose checks pass (R205–R207, R213). -/
theorem mloop_run (L : BitVec 4) (s0 : BitVec 2) (a d : Reg) (s : State) (w : Warp) (lane : Nat) (t : Thread) (rest : List (Nat × Thread))
    (x : State) (fw : FmtWord) (b : LoopBlock) (asc bsc : List Word) (hci : s.canIssue { opds := [.one .vd d, ⟨.va, a.toNat, 16, 8⟩] } = true)
    (hx : x = s.counted { opds := [.one .vd d, ⟨.va, a.toNat, 16, 8⟩] }) (hw : x.warp? = some w) (hl : x.live = (lane, t) :: rest)
    (hv : voteFails (x.active.map (fun p => (p.1, p.2.get d.toNat))) = none) (hf : FmtWord.of (t.get d.toNat) = some fw)
    (hb : b = LoopBlock.of (t.group a.toNat 8)) (ha : asc = w.captureScales (a.toNat + 8)) (hs : bsc = w.captureScales (a.toNat + 12))
    (hall : w.running.all (fun p => laneIn x.cur.mask p.1) = true) (hres : b.reserved = false)
    (hchk : x.loopCheck w fw b asc bsc s0.toNat = none) (hvis : w.visiting = false)
    (hreg : x.myCluster.loopRegion fw b asc bsc s0.toNat (x.regionTag w) = none)
    (hfmt : (x.myCluster.holds w.block b.tile && (x.myCluster.tiles.getD b.tile Tile.free).fp64 == some (!fw.wide)) = false)
    (hmay : x.myCluster.mayTake w.block b.tile = true) (h5 : x.myCluster.table.length < 32) (h6 : w.cnt 1 < 63) :
    exec (.mloop L s0 a d) s = .next ((x.enterCmd w lane t.pc (some 1)
      (.mloop (t.get d.toNat) b.tile s0.toNat b.k b.aspad b.addr b.boff b.stride b.ainc b.binc asc bsc)
      (fun k => let k1 := k.reserve w.block b.tile
        { k1 with tiles := k1.tiles.modify b.tile (fun t => { t with fp64 := some fw.wide, mark := 0 }) })).endCmd L) := by
  subst hb ha hs
  have hout : w.running.any (fun p => !laneIn x.cur.mask p.1) = false := by
    rw [List.any_eq_false]
    intro p hp
    simpa using List.all_eq_true.mp hall p hp
  rw [exec_mloop]
  unfold execMloop
  rw [issue_runs s _ _ hci, ← hx, hw, hl]
  dsimp only
  rw [hv, hf]
  dsimp only
  rw [hout, hres, hfmt, hchk, hvis, hreg, hmay, decide_eq_false (show ¬ 32 ≤ x.myCluster.table.length by omega),
    decide_eq_false (show ¬ 63 ≤ w.cnt 1 by omega)]
  rfl

/-- A tile instruction of a block that is at home, and holds the tile where it has to. -/
theorem tileIssue_run (opds : List Opd) (L : BitVec 4) (n : Nat) (held : Bool) (dest : List Nat) (body : State → Warp → Nat → Out)
    (s : State) (w : Warp) (lane : Nat) (t : Thread) (rest : List (Nat × Thread)) (x : State) (hx : x = s.counted { opds := opds })
    (hci : s.canIssue { opds := opds } = true) (hw : x.warp? = some w) (hl : x.live = (lane, t) :: rest) (hvis : w.visiting = false)
    (hh : held = true → x.myCluster.holds w.block n = true) : tileIssue opds L n held dest body s = body x w lane := by
  have hheld : (held && !x.myCluster.holds w.block n) = false := by
    cases held with
    | false => rfl
    | true => rw [hh rfl]; rfl
  unfold tileIssue
  rw [issue_runs s _ _ hci, ← hx, hw, hl]
  dsimp only
  rw [hvis, hheld]
  rfl

/-- An operation outside the engine classes becomes pending (R33). -/
theorem begin_none (s : State) (L : BitVec 4) (dest : List Nat) (k : PendKind) :
    s.begin_ L none dest k = ({ s with pend := s.pend ++ [⟨s.nextId, s.cur.core, s.cur.slot, s.firstPc, none, k⟩], nextId := s.nextId + 1 }
      : State).openWindow L [s.nextId] dest := rfl

/-- MWM of a held tile: the watermark pends for every live lane (R216). -/
theorem mwm_run (L : BitVec 4) (tile : BitVec 2) (d : Reg) (s : State) (w : Warp) (lane : Nat) (t : Thread) (rest : List (Nat × Thread))
    (hci : s.canIssue { opds := [.one .vd d] } = true) (hw : s.warp? = some w) (hl : s.live = (lane, t) :: rest)
    (hvis : w.visiting = false) (hh : s.myCluster.holds w.block tile.toNat = true) :
    ∃ y, exec (.mwm L tile d) s = .next y ∧ OnlyPending s y (s.pending none (.result .mrd (s.live.map (fun p =>
        ⟨p.1, [(d.toNat, BitVec.ofNat 32 (s.myCluster.tiles.getD tile.toNat Tile.free).mark)], 0⟩)))) ∧
      LaneStep s y (fun _ th => ({ opds := [.one .vd d] } : Use).ran s.cur (fun x =>
        (if th.helper then x.set d.toNat 0 else x).openWindow s.cur.last L.toNat false [s.nextId] [d.toNat]) th) := by
  let u : Use := { opds := [.one .vd d] }
  let zero : Nat → Thread → Thread := fun _ th => if th.helper then th.set d.toNat 0 else th
  have hwx : (s.counted u).warp? = some (w.mapLanes s.cur.mask (fun _ t => u.count s.cur t)) := by
    rw [warp_counted, hw]
    rfl
  have hlx : (s.counted u).live = (lane, u.count s.cur t) :: rest.map (fun p => (p.1, u.count s.cur p.2)) := by
    rw [live_counted, hl]
    rfl
  have hpc : ((s.counted u).mapActive zero).firstPc = s.firstPc :=
    (firstPc_mapActive (s.counted u) zero (fun _ th => by
      show (if th.helper then th.set d.toNat 0 else th).pc = th.pc
      split <;> rfl)).trans (firstPc_counted s u hci)
  have hws : (s.counted u).live.map (fun p => (⟨p.1, [(d.toNat, BitVec.ofNat 32 (s.myCluster.tiles.getD tile.toNat Tile.free).mark)], 0⟩ :
      LaneWrite)) = s.live.map (fun p => ⟨p.1, [(d.toNat, BitVec.ofNat 32 (s.myCluster.tiles.getD tile.toNat Tile.free).mark)], 0⟩) := by
    rw [live_counted, List.map_map]
    rfl
  have hrun := pending_run s u (fun x => .next ((x.mapActive zero).begin_ L none [d.toNat] (.result .mrd (x.live.map (fun p =>
    ⟨p.1, [(d.toNat, BitVec.ofNat 32 (x.myCluster.tiles.getD tile.toNat Tile.free).mark)], 0⟩)))).finish)
    (fun n th => (zero n th).openWindow s.cur.last L.toNat false [s.nextId] [d.toNat])
    (.result .mrd (s.live.map (fun p => ⟨p.1, [(d.toNat, BitVec.ofNat 32 (s.myCluster.tiles.getD tile.toNat Tile.free).mark)], 0⟩)))
    hci ?_
  · obtain ⟨y, he, hp, hy⟩ := hrun
    refine ⟨y, ?_, hp, fun n => ?_⟩
    · rw [exec_mwm]
      unfold execMwm
      rw [tileIssue_run _ L _ true _ _ s _ _ _ _ (s.counted u) rfl hci hwx hlx hvis (fun _ => hh), ← he, issue_runs s u _ hci]
    · rw [hy n]
      simp only [Use.ran, zero, count_helper]
      rfl
  · dsimp only
    rw [show (s.counted u).myCluster = s.myCluster from rfl, hws]
    rw [begin_none, hpc]
    unfold State.pending
    rw [← mapActive_comp _ zero]
    rfl

/-- Settles O54: every check has passed, so each command enters its table and each read pends. -/
theorem matrixCommands : Obligations.MatrixCommands := by
  intro L a d s w lane t rest
  refine ⟨?_, ?_, ?_, ?_, ?_⟩
  · intro u x fw hx hci hw hl hv hf ws off n len hws hoff hn hlen h0 h1 h2 h3 h4 h5 h6 h7
    subst hws
    have hcur : x.cur.core = s.cur.core := by rw [hx]; rfl
    refine mldb_run L a d s w lane t rest x fw off n len hci hx hw hl hv hf hoff hn hlen h0 h1 h2 h3 h4 h5 h6 ?_
    refine (congrArg (x.myCluster.badRegion _ _) (funext (fun y => ?_))).trans h7
    unfold State.foreign
    rw [hcur]
    cases y <;> rfl
  · intro u x fw s0 hx hci hw hl hv hf b asc bsc hb ha hs hall hres hchk hvis hreg hfmt hmay h5 h6
    have hmask : x.cur.mask = s.cur.mask := by rw [hx]; rfl
    exact mloop_run L s0 a d s w lane t rest x fw b asc bsc hci hx hw hl hv hf hb ha hs (by rw [hmask]; exact hall) hres hchk hvis hreg
      hfmt hmay h5 h6
  · intro tile x hx hci hw hl hvis hh wide hwide hrows
    have hcur : x.cur.core = s.cur.core := by rw [hx]; rfl
    have hnone : (x.live.map (fun p => (p.1, p.2.get a.toNat))).find? (fun x => field x.2.toNat 31 7 != 0 || (!wide && bit x.2.toNat 6)) =
        none := by
      rw [List.find?_eq_none]
      intro r hr
      obtain ⟨p, hp, rfl⟩ := List.mem_map.mp hr
      obtain ⟨h1, h2⟩ := hrows p hp
      cases hw' : wide with
      | true => simp [h1]
      | false => simp [h1, h2 hw']
    subst hwide
    rw [exec_mrd]
    unfold execMrd
    rw [tileIssue_run _ L _ true _ _ s w lane t rest x hx hci hw hl hvis (fun _ => hh)]
    dsimp only
    rw [hnone, hcur]
  · intro tile hci hw hl hvis hh
    exact mwm_run L tile d s w lane t rest hci hw hl hvis hh
  · intro tile x hx hci hw hl hvis hlen
    refine ⟨fun hmay => ?_, fun hh => ?_⟩
    · rw [exec_mzero]
      unfold execMzero
      rw [tileIssue_run _ L _ false _ _ s w lane t rest x hx hci hw hl hvis (fun h => nomatch h)]
      dsimp only
      rw [hl, hmay, decide_eq_false (show ¬ 32 ≤ x.myCluster.table.length by omega)]
      rfl
    · rw [exec_mrel]
      unfold execMrel
      rw [tileIssue_run _ L _ true _ _ s w lane t rest x hx hci hw hl hvis (fun _ => hh)]
      dsimp only
      rw [hl, if_neg (by omega)]

end Sys2Proof.Machine
end

section
/-!
PROOFS. Copy commands (O55).
-/
namespace Sys2Proof.Machine

/-- A check that holds is passed over. -/
theorem firstCheck_pass {c : Option Cause} (n : Nat) (l : List (Option Cause × Nat)) (h : c = none) : firstCheck ((c, n) :: l) = firstCheck l := by
  subst h
  rfl

theorem chk_pass {b : Bool} (c : Cause) (h : b = false) : chk b c = none := by
  subst h
  rfl

/-- A command whose checks pass is queued, after the release where it is a push (R369). -/
theorem copyIssue_run (opds : List Opd) (cls : Nat) (rel : Bool)
    (body : State → Warp → Thread → List (Option Cause × Nat) × CopyKind × Word × Option CopySide) (s : State) (w : Warp) (lane : Nat)
    (t : Thread) (rest : List (Nat × Thread)) (x : State) (hx : x = s.counted { opds := opds }) (hci : s.canIssue { opds := opds } = true)
    (hw : x.warp? = some w) (hl : x.live = (lane, t) :: rest) (hcnt : w.cnt cls < 63) (hc : firstCheck (body x w t).1 = none)
    (hh : rel = true → x.heldLanes true true = []) :
    copyIssue opds cls rel body s = .next ((if rel then x.release x.cur.core w.curSlot .cluster else x).acceptCopy w lane cls
      (body x w t).2.1 (body x w t).2.2.1 (body x w t).2.2.2) := by
  have hheld : (if rel = true then x.heldLanes true true else []) = [] := by
    cases rel with
    | false => rfl
    | true => exact hh rfl
  unfold copyIssue
  rw [issue_runs s _ _ hci, ← hx, hw, hl]
  dsimp only
  rw [hc]
  dsimp only
  rw [hheld]
  simp only [List.isEmpty_nil, Bool.not_true, Bool.false_eq_true, if_false, if_neg (show ¬ 63 ≤ w.cnt cls by omega)]

/-- A command that is not a push needs no release. -/
theorem copyIssue_copy (opds : List Opd) (cls : Nat) (body : State → Warp → Thread → List (Option Cause × Nat) × CopyKind × Word × Option CopySide)
    (s : State) (w : Warp) (lane : Nat) (t : Thread) (rest : List (Nat × Thread)) (x : State) (hx : x = s.counted { opds := opds })
    (hci : s.canIssue { opds := opds } = true) (hw : x.warp? = some w) (hl : x.live = (lane, t) :: rest) (hcnt : w.cnt cls < 63)
    (hc : firstCheck (body x w t).1 = none) :
    copyIssue opds cls false body s = .next (x.acceptCopy w lane cls (body x w t).2.1 (body x w t).2.2.1 (body x w t).2.2.2) :=
  copyIssue_run opds cls false body s w lane t rest x hx hci hw hl hcnt hc (fun h => nomatch h)

/-- Settles O55: every check of the block passes, so the command is queued. -/
theorem copyCommands : Obligations.CopyCommands := by
  intro L a d s w lane t rest
  refine ⟨?_, ?_⟩
  · intro u x b hu hx hb hci hw hl hcnt
    subst hu hb
    refine ⟨?_, fun hc => ⟨?_, ?_⟩⟩
    · intro h5 h4 hmay hsrc hdst hdone hal
      rw [exec_cpy]
      unfold execCpy
      refine copyIssue_copy _ 0 _ s w lane t rest x hx hci hw hl hcnt ?_
      dsimp only
      rw [firstCheck_pass _ _ (chk_pass _ (by simp [h5, Nat.ne_of_gt h4])), firstCheck_pass _ _ (chk_pass _ (by rw [hmay]; rfl)),
        firstCheck_pass _ _ hsrc, firstCheck_pass _ _ hdst, firstCheck_pass _ _ hdone, firstCheck_pass _ _ (chk_pass _ (by simp [hal]))]
      rfl
    · rw [exec_cpytIn]
      unfold execCpytIn
      exact copyIssue_copy _ 0 _ s w lane t rest x hx hci hw hl hcnt hc
    · rw [exec_cpytOut]
      unfold execCpytOut
      exact copyIssue_copy _ 0 _ s w lane t rest x hx hci hw hl hcnt hc
  · intro u x slot hu hx hci hw hl hcnt hslot hlt hs hr hmay hh
    subst hu
    have hfield : field (t.nat a.toNat) 3 0 = slot := by
      rw [← hslot]
      unfold field
      omega
    have hcur : x.cur.core = s.cur.core := by rw [hx]; rfl
    rw [exec_halo]
    unfold execHalo
    refine (copyIssue_run _ 4 true _ s w lane t rest x hx hci hw hl hcnt ?_ (fun _ => hh)).trans ?_
    · dsimp only
      rw [hfield, firstCheck_pass _ _ (chk_pass _ (by rw [← hslot, Nat.div_eq_of_lt hlt]; rfl)), firstCheck_pass _ _ hs,
        firstCheck_pass _ _ (chk_pass _ hr), firstCheck_pass _ _ (chk_pass _ (by rw [hmay]; rfl))]
      rfl
    · dsimp only
      rw [hfield, hcur, if_pos rfl]

end Sys2Proof.Machine
end

section
/-!
PROOFS. Transfers through jump tables and gates (O56): what the change of a domain slot keeps of the warps, and what a warp is after
its transfer.
-/
namespace Sys2Proof.Machine

/-! A relation between states that every step of a write-back keeps. -/

/-- What a relation has to allow for write-backs, requests at their homes, and what leaves L1 to keep it. -/
structure Steps (R : State → State → Prop) : Prop where
  refl : ∀ s, R s s
  trans : ∀ s t u, R s t → R t u → R s u
  reqs : ∀ (s : State) p, R s { s with reqs := s.reqs.filter p }
  flags : ∀ (s : State) l, R s { s with flagMsgs := l }
  write : ∀ s pa b, R s (s.homeWrite pa b)
  settle : ∀ s c n cls id, R s (s.settleCount c n cls id)
  core : ∀ s c g, (∀ k : Core, (g k).warps = k.warps) → R s (s.modCore c g)

section
variable {R : State → State → Prop} (h : Steps R)
include h

theorem Steps.foldl {β : Type} (g : State → β → State) (hg : ∀ s b, R s (g s b)) (l : List β) (s : State) : R s (l.foldl g s) := by
  induction l generalizing s with
  | nil => exact h.refl s
  | cons b l ih => exact h.trans _ _ _ (hg s b) (ih _)

theorem Steps.applyReq (s : State) (r : Req) : R s (s.applyReq r) := by
  have e : R s ({ s with reqs := s.reqs.filter (fun x => x.id != r.id) } : State) := h.reqs s _
  unfold State.applyReq
  dsimp only
  refine h.trans _ _ _ ?_ (h.foldl _ (fun s k => h.settle s _ _ _ _) _ _)
  cases r.kind with
  | red op v rm fz cn sat =>
    dsimp only
    split
    · exact h.trans _ _ _ e (h.write _ _ _)
    · exact h.trans _ _ _ (h.trans _ _ _ e (h.write _ _ _)) (h.flags _ _)
  | _ => exact h.trans _ _ _ e (h.write _ _ _)

theorem Steps.drain (s : State) (p : Req → Bool) : R s (s.drain p) := h.foldl _ h.applyReq _ s

theorem Steps.writeDirty (c : Nat) (t : Tbl (Byte × Bool)) (s : State) : R s (s.writeDirty c t) := by
  induction t generalizing s with
  | nil => exact h.refl s
  | cons x l ih =>
    obtain ⟨a, b, d⟩ := x
    cases d with
    | true => exact h.trans _ _ _ (h.trans _ _ _ (h.drain s _) (h.write _ _ _)) (ih _)
    | false => exact ih s

theorem Steps.setL1 (s : State) (c d : Nat) (t : Tbl (Byte × Bool)) : R s (s.setL1 c d t) := h.core s c _ (fun _ => rfl)

theorem Steps.writeBack (s : State) (c d : Nat) : R s (s.writeBack c d) := by
  unfold State.writeBack
  dsimp only
  split
  · exact h.refl s
  · exact h.trans _ _ _ (h.writeDirty c _ s) (h.setL1 _ _ _ _)

theorem Steps.unmark (s : State) (c d : Nat) (p : Nat → Bool) : R s (s.unmark c d p) := by
  unfold State.unmark
  dsimp only
  split
  · exact h.core _ _ _ (fun _ => rfl)
  · exact h.refl s

theorem Steps.dropClean (s : State) (c d : Nat) : R s (s.dropClean c d) := by
  unfold State.dropClean
  dsimp only
  split
  · exact h.refl s
  · exact h.trans _ _ _ (h.setL1 _ _ _ _) (h.unmark _ _ _ _)

theorem Steps.changeSlot (s : State) (c d e : Nat) : R s (s.changeSlot c d e) := by
  unfold State.changeSlot
  split
  · exact h.refl s
  · exact h.trans _ _ _ (h.writeBack s c d) (h.dropClean _ c e)

end

/-! Threads that nothing but waking changes. -/

/-- A thread that may have been woken. -/
def Thread.woke (t y : Thread) : Prop := y = t ∨ y = { t with wait := .run }

theorem Thread.woke.refl (t : Thread) : t.woke t := .inl rfl

theorem Thread.woke.trans (a b c : Thread) (h : a.woke b) (k : b.woke c) : a.woke c := by
  rcases h with rfl | rfl <;> rcases k with rfl | rfl
  · exact .inl rfl
  · exact .inr rfl
  · exact .inr rfl
  · exact .inr rfl

theorem woke_wake (w : Warp) (p : Wait → Bool) (c l : Nat) (th : Thread) (h : tget w.threads l = some th) :
    ∃ y, tget (w.wake p c).threads l = some y ∧ th.woke y := by
  unfold Warp.wake
  dsimp only
  split
  · exact ⟨th, h, .inl rfl⟩
  · dsimp only
    have e : w.threads.map (fun x => if !x.2.exited && p x.2.wait then (x.1, { x.2 with wait := .run }) else x) =
        w.threads.map (fun x => (x.1, if !x.2.exited && p x.2.wait then { x.2 with wait := .run } else x.2)) := by
      refine List.map_congr_left (fun x _ => ?_)
      split <;> rfl
    rw [e, tget_map w.threads (fun _ (t : Thread) => if !t.exited && p t.wait then { t with wait := .run } else t) l, h]
    refine ⟨_, rfl, ?_⟩
    dsimp only
    split
    · exact .inr rfl
    · exact .inl rfl

/-- The warp but for its threads, bundles and counters. -/
def Warp.stable (w : Warp) : Warp := { w with threads := [], bundles := [], engine := [] }

/-- In t every thread of s is there, woken or not, and every warp is what it was but for its counters. -/
def Woken (s t : State) : Prop := RelThreads Thread.woke s t ∧ KeepsWarps Warp.stable s t

theorem Woken.refl (s : State) : Woken s s := ⟨RelThreads.refl Thread.woke.refl s, fun _ _ => rfl⟩

theorem Woken.trans (s t u : State) (h : Woken s t) (k : Woken t u) : Woken s u :=
  ⟨h.1.trans Thread.woke.trans k.1, h.2.trans k.2⟩

theorem Woken.of_cores {s t : State} (h : t.cores = s.cores) : Woken s t :=
  ⟨RelThreads.of_keeps Thread.woke.refl (KeepsThreads.of_cores id h), KeepsWarps.of_cores _ h⟩

theorem woken_wake (s : State) (p : Wait → Bool) : Woken s (s.wake p) := by
  refine ⟨fun c k l th e => ?_, fun c k => ?_⟩
  · obtain ⟨w, hw, ht⟩ := Option.bind_eq_some_iff.mp e
    unfold State.thread?
    rw [warpAt_wake, hw]
    exact woke_wake w p (s.cycle + 1) l th ht
  · rw [warpAt_wake, Option.map_map]
    congr 1
    funext w
    exact wake_field Warp.stable (fun _ _ _ => rfl) w p (s.cycle + 1)

theorem woken_modWarpAt (s : State) (c n : Nat) (g : Warp → Warp) (hd : ∀ w, (g w).stable = w.stable)
    (ht : ∀ w l th, tget w.threads l = some th → ∃ y, tget (g w).threads l = some y ∧ th.woke y) : Woken s (s.modWarpAt c n g) := by
  refine ⟨rel_modWarpAt Thread.woke.refl s c n g ht, fun c' n' => ?_⟩
  rw [warpAt_modWarpAt]
  split
  · rw [Option.map_map]
    congr 1
    funext w
    exact hd w
  · rfl

theorem woken_wakeWarp (s : State) (c n : Nat) (p : Wait → Bool) : Woken s (s.wakeWarp c n p) :=
  woken_modWarpAt s c n (fun x => x.wake p (s.cycle + 1)) (fun w => wake_field Warp.stable (fun _ _ _ => rfl) w p (s.cycle + 1))
    (fun w l th e => woke_wake w p (s.cycle + 1) l th e)

theorem woken_settleCount (s : State) (c n cls id : Nat) : Woken s (s.settleCount c n cls id) := by
  unfold State.settleCount
  split
  · exact Woken.refl s
  · unfold State.completeEngine
    refine Woken.trans _ _ _ ?_ (woken_wakeWarp _ c n _)
    exact woken_modWarpAt s c n _ (fun _ => rfl) (fun _ _ th e => ⟨th, e, .inl rfl⟩)

theorem woken_modCore (s : State) (c : Nat) (g : Core → Core) (h : ∀ k, (g k).warps = k.warps) : Woken s (s.modCore c g) := by
  have hw : ∀ c' n, (s.modCore c g).warpAt? c' n = s.warpAt? c' n := fun c' n => by
    have hk := modCore_cores_keep Core.warps s c g h c'
    unfold State.warpAt?
    cases e : tget s.cores c' with
    | none =>
      rw [e] at hk
      rw [Option.map_eq_none_iff.mp hk]
    | some k =>
      rw [e] at hk
      obtain ⟨k', e', hk'⟩ := Option.map_eq_some_iff.mp hk
      rw [e']
      exact congrArg (fun x => tget x n) hk'
  refine ⟨fun c' n l th e => ?_, fun c' n => by rw [hw]⟩
  unfold State.thread? at *
  rw [hw]
  exact ⟨th, e, .inl rfl⟩

theorem woken_steps : Steps Woken where
  refl := Woken.refl
  trans := Woken.trans
  reqs := fun _ _ => Woken.of_cores rfl
  flags := fun _ _ => Woken.of_cores rfl
  write := fun s pa b => by
    obtain ⟨p, hp⟩ := homeWrite_cores s pa b
    exact Woken.trans _ _ _ (woken_wake s p) (Woken.of_cores hp)
  settle := woken_settleCount
  core := woken_modCore

/-! What a fetch leaves (R20). -/

/-- The state but for what a fetch of code changes: instruction caches and translations. -/
def State.unfetched (s : State) : State := { s with cores := [], tlb := [], rots := [] }

/-- The core but for its instruction cache. -/
def Core.uncached (k : Core) : Core := { k with icache := [] }

/-- A state that a fetch may have left. -/
def AfterFetch (s t : State) : Prop := t.unfetched = s.unfetched ∧ KeepsCores Core.uncached s t

theorem AfterFetch.refl (s : State) : AfterFetch s s := ⟨rfl, fun _ => rfl⟩

theorem AfterFetch.trans {s t u : State} (h : AfterFetch s t) (k : AfterFetch t u) : AfterFetch s u := ⟨k.1.trans h.1, h.2.trans k.2⟩

theorem AfterFetch.of_cores {s t : State} (h : t.unfetched = s.unfetched) (hc : t.cores = s.cores) : AfterFetch s t :=
  ⟨h, KeepsCores.of_cores _ hc⟩

theorem cacheRot_afterFetch (s : State) (page : Nat) : AfterFetch s (s.cacheRot page) := by
  unfold State.cacheRot
  generalize BitVec.ofNat 64 (s.rotEntry (page * 65536)) = r
  exact AfterFetch.of_cores rfl rfl

theorem xlateWalk_afterFetch (s : State) (x : XReq) (va : Nat) : AfterFetch s (s.xlateWalk x va).2 := by
  unfold State.xlateWalk
  cases s.tlbFind x.part va with
  | some e => exact cacheRot_afterFetch s e.ppage
  | none =>
    dsimp only
    cases s.walk x.part va with
    | ok e =>
      have h : AfterFetch s ({ s with tlb := e :: s.tlb } : State) := AfterFetch.of_cores rfl rfl
      exact h.trans (cacheRot_afterFetch ({ s with tlb := e :: s.tlb } : State) e.ppage)
    | error c => exact AfterFetch.refl s

theorem fetchHalf_afterFetch (s t : State) (core : Nat) (w : Warp) (va : Nat) (b : List Byte) (h : s.fetchHalf core w va = .ok (b, t)) :
    AfterFetch s t := by
  have hx := xlateWalk_afterFetch s (w.request false false true) va
  unfold State.fetchHalf at h
  split at h
  · cases h
  · split at h
    · next pa r s1 e =>
      rw [e] at hx
      split at h
      · cases h
      · split at h
        · cases h
        · split at h
          · split at h
            · cases h
              exact hx
            · cases h
              exact hx.trans ⟨rfl, modCore_cores_keep Core.uncached s1 core _ (fun _ => rfl)⟩
          · cases h
    · cases h
    · cases h

theorem fetchWord_afterFetch (s t : State) (core : Nat) (w : Warp) (off : Nat) (b : List Byte) (h : s.fetchWord core w off = .ok (b, t)) :
    AfterFetch s t := by
  unfold State.fetchWord at h
  dsimp only at h
  split at h
  · cases h
  · split at h
    · cases h
    · next lo s1 e1 =>
      have k1 := fetchHalf_afterFetch s s1 core w _ lo e1
      split at h
      · cases h
        exact k1
      · split at h
        · cases h
        · split at h
          · cases h
          · next hi s2 e2 =>
            cases h
            exact k1.trans (fetchHalf_afterFetch s1 _ core w _ hi e2)

theorem landingAt_afterFetch (s t : State) (w : Warp) (a label e : Nat) (h : s.landingAt w a label = (.go e, t)) : AfterFetch s t ∧ e = a := by
  unfold State.landingAt at h
  split at h
  · cases h
  · next b s1 e1 =>
    have k := fetchWord_afterFetch s s1 s.cur.core w a b e1
    split at h
    · cases h
      exact ⟨k, rfl⟩
    · cases h

/-- Part of what a relation keeps of every core is kept too. -/
theorem KeepsCores.part {α β : Type} {f : Core → α} {s t : State} (g : α → β) (h : KeepsCores f s t) : KeepsCores (fun k => g (f k)) s t := by
  intro c
  have := congrArg (Option.map g) (h c)
  rw [Option.map_map, Option.map_map] at this
  exact this

theorem AfterFetch.l1Of {s t : State} (h : AfterFetch s t) (c d : Nat) : t.l1Of c d = s.l1Of c d :=
  l1Of_keep (h.2.part Core.l1) c d

theorem warpAt_of_keeps {s t : State} (h : KeepsCores Core.warps s t) (c n : Nat) : t.warpAt? c n = s.warpAt? c n := by
  have hk := h c
  unfold State.warpAt?
  cases e : tget s.cores c with
  | none =>
    rw [e] at hk
    rw [Option.map_eq_none_iff.mp hk]
  | some k =>
    rw [e] at hk
    obtain ⟨k', e', hk'⟩ := Option.map_eq_some_iff.mp hk
    rw [e']
    exact congrArg (fun x => tget x n) hk'

theorem AfterFetch.warpAt {s t : State} (h : AfterFetch s t) (c n : Nat) : t.warpAt? c n = s.warpAt? c n :=
  warpAt_of_keeps (h.2.part Core.warps) c n

/-! The change of a domain slot. -/

theorem changeSlot_cur (s : State) (c d e : Nat) : (s.changeSlot c d e).cur = s.cur := by
  unfold State.changeSlot
  split
  · rfl
  · rw [dropClean_field State.cur (fun _ _ _ => rfl), writeBack_cur]

/-- Memory changes only where dirty bytes leave the old slot. -/
theorem changeSlot_mem (s : State) (c d e : Nat) (h : d = e ∨ (s.l1Of c d).all (fun q => !q.2.2) = true) : (s.changeSlot c d e).mem = s.mem := by
  unfold State.changeSlot
  split
  · rfl
  · next hne =>
    have hall := h.resolve_left hne
    rw [dropClean_field State.mem (fun _ _ _ => rfl)]
    unfold State.writeBack
    dsimp only
    rw [if_pos hall]

/-- The slot that is left holds no dirty byte, the other no clean one. -/
theorem changeSlot_l1 (s : State) (c d e : Nat) (k : Core) (hk : tget s.cores c = some k) (h : d ≠ e) :
    (s.changeSlot c d e).cleanIn c d ∧ (s.changeSlot c d e).dirtyIn c e := by
  obtain ⟨k', hk'⟩ := core_of_keeps (writeBack_exists s c d) hk
  unfold State.changeSlot
  rw [if_neg h]
  refine ⟨?_, ?_⟩
  · unfold State.cleanIn
    rw [l1Of_dropClean _ c e d k' hk', if_neg h]
    exact cleanIn_writeBack s c d d k hk (.inl rfl)
  · unfold State.dirtyIn
    rw [l1Of_dropClean _ c e e k' hk', if_pos rfl]
    intro p hp
    simpa using (List.mem_filter.mp hp).2

theorem keepsL1_finishBy (s : State) (n : Nat) (f : Nat → Thread → Thread) : KeepsCores Core.l1 s (s.finishBy n f) := by
  have h1 : KeepsCores Core.l1 s (s.charge n) := modCore_cores_keep Core.l1 s _ _ (fun k => by
    unfold Core.charge
    split <;> rfl)
  exact fun c => (h1.trans (keepsL1_modWarpAt (s.charge n) s.cur.core s.cur.slot (fun w =>
    (w.mapLanes s.cur.mask (s.cur.ends f)).settle s.cur.mask (s.cycle + 1)))) c

theorem fixLaunch_same (s : State) (w : Warp) : (s.fixLaunch w).cores = s.cores ∧ (s.fixLaunch w).mem = s.mem ∧
    (s.fixLaunch w).domains = s.domains ∧ (s.fixLaunch w).cur = s.cur := by
  unfold State.fixLaunch
  split <;> exact ⟨rfl, rfl, rfl, rfl⟩

/-- What GCALL and GRET do once nothing holds them back: the warp changes its slot, the domains are marked, the warp becomes `F` of
what it was, and its lanes go to the target. -/
def State.transfer (z : State) (w : Warp) (e d : Nat) (F : Warp → Warp) (G : Nat → Thread → Thread) (pc : Word) : State :=
  (((((((z.changeSlot z.cur.core w.curSlot e).markDomain w.part w.curDid).markDomain w.part d).fixLaunch w).modWarp F).mapActive G)).finishAt
    (fun _ _ => pc)

/-- The state of such a transfer before its unit ends. -/
def State.moved (z : State) (w : Warp) (e d : Nat) : State :=
  ((((z.changeSlot z.cur.core w.curSlot e).markDomain w.part w.curDid).markDomain w.part d).fixLaunch w)

theorem moved_cores (z : State) (w : Warp) (e d : Nat) : (z.moved w e d).cores = (z.changeSlot z.cur.core w.curSlot e).cores :=
  (fixLaunch_same _ w).1

theorem moved_cur (z : State) (w : Warp) (e d : Nat) : (z.moved w e d).cur = z.cur :=
  (fixLaunch_same _ w).2.2.2.trans (changeSlot_cur z _ _ _)

/-- Memory and the marks after the transfer (R256). -/
theorem transfer_mem (z : State) (w : Warp) (e d : Nat) (F : Warp → Warp) (G : Nat → Thread → Thread) (pc : Word) :
    (z.transfer w e d F G pc).mem = (z.changeSlot z.cur.core w.curSlot e).mem := (fixLaunch_same _ w).2.1

theorem transfer_marks (z : State) (w : Warp) (e d : Nat) (F : Warp → Warp) (G : Nat → Thread → Thread) (pc : Word) :
    ((z.transfer w e d F G pc).domain w.part w.curDid).mark = true ∧ ((z.transfer w e d F G pc).domain w.part d).mark = true := by
  have hd : ∀ n, (z.transfer w e d F G pc).domain w.part n =
      (((z.changeSlot z.cur.core w.curSlot e).markDomain w.part w.curDid).markDomain w.part d).domain w.part n := fun n =>
    congrArg (fun x => (tget x (domKey w.part n)).getD Domain.idle) (fixLaunch_same _ w).2.2.1
  rw [hd, hd, domain_markDomain, domain_markDomain, domain_markDomain]
  simp

theorem transfer_l1 (z : State) (w : Warp) (e d : Nat) (F : Warp → Warp) (G : Nat → Thread → Thread) (pc : Word) (c n : Nat) :
    (z.transfer w e d F G pc).l1Of c n = (z.changeSlot z.cur.core w.curSlot e).l1Of c n := by
  have h1 : KeepsCores Core.l1 (z.moved w e d) (z.transfer w e d F G pc) :=
    ((keepsL1_modWarpAt (z.moved w e d) _ _ F).trans (keepsL1_mapActive ((z.moved w e d).modWarp F) G)).trans (keepsL1_finishBy _ 1 _)
  exact (l1Of_keep h1 c n).trans (l1Of_keep (KeepsCores.of_cores Core.l1 (moved_cores z w e d)) c n)

/-- A lane of the issuing bundle at the end of the unit, MEETV aside. -/
theorem tget_settled (w : Warp) (tick : Nat) (m : Mask) (f : Nat → Thread → Thread) (c k : Nat) (t : Thread) (hl : laneIn m k = true)
    (h : tget w.threads k = some t) :
    ∃ y, tget ((({ w with lastTick := tick } : Warp).mapLanes m f).settle m c).threads k = some y ∧ y.noMeet = (f k t).noMeet := by
  have e : tget (({ w with lastTick := tick } : Warp).mapLanes m f).threads k = some (f k t) := by
    rw [tget_mapLanes]
    show (tget w.threads k).map _ = _
    rw [h, Option.map_some, if_pos hl]
  have ha := (settle_alike (({ w with lastTick := tick } : Warp).mapLanes m f) m c).2 k
  rw [e] at ha
  exact Option.map_eq_some_iff.mp ha

/-- The warp and its threads after the transfer: MEETVs aside, which a release may clear. -/
theorem transfer_warp (z : State) (w wz : Warp) (e d : Nat) (F : Warp → Warp) (G : Nat → Thread → Thread) (pc : Word)
    (hz : z.warp? = some wz) (hF : ∀ x, (F x).threads = x.threads) :
    ∃ v x, (z.transfer w e d F G pc).warpAt? z.cur.core z.cur.slot = some v ∧ x.stable = wz.stable ∧ v.blank = (F x).blank ∧
      ∀ k th, laneIn z.cur.mask k = true → tget wz.threads k = some th → ∃ t y, th.woke t ∧ tget v.threads k = some y ∧
        y.noMeet = (z.cur.ends (fun _ t => { t with pc := pc, rem := 0 }) k (G k t)).noMeet := by
  obtain ⟨hrel, hkeep⟩ := woken_steps.changeSlot z z.cur.core w.curSlot e
  have hcur := moved_cur z w e d
  have hw0 : ∀ c n, (z.moved w e d).warpAt? c n = (z.changeSlot z.cur.core w.curSlot e).warpAt? c n := fun c n => by
    unfold State.warpAt?
    rw [moved_cores]
  obtain ⟨x, hx, hhome⟩ : ∃ x, (z.changeSlot z.cur.core w.curSlot e).warpAt? z.cur.core z.cur.slot = some x ∧ x.stable = wz.stable := by
    have := hkeep z.cur.core z.cur.slot
    rw [show z.warpAt? z.cur.core z.cur.slot = some wz from hz] at this
    exact Option.map_eq_some_iff.mp this
  have hwarp : (((z.moved w e d).modWarp F).mapActive G).warp? = some ((F x).mapLanes z.cur.mask G) := by
    unfold State.mapActive State.modWarp State.warp?
    rw [show (State.modWarpAt (State.modWarpAt (z.moved w e d) _ _ F) _ _ _).cur = z.cur from hcur, warpAt_modWarpAt, warpAt_modWarpAt,
      hw0]
    rw [show (State.modWarpAt (z.moved w e d) _ _ F).cur = z.cur from hcur, hcur, hx]
    simp
  have hfin := warp_finishBy (((z.moved w e d).modWarp F).mapActive G) 1 (fun _ t => { t with pc := pc, rem := 0 })
  rw [hwarp, Option.map_some] at hfin
  rw [show (((z.moved w e d).modWarp F).mapActive G).cur = z.cur from hcur] at hfin
  refine ⟨_, x, hfin, hhome, (settle_alike _ _ _).1, fun k th hl hth => ?_⟩
  obtain ⟨t, ht, hwoke⟩ := hrel z.cur.core z.cur.slot k th (by
    unfold State.thread?
    rw [show z.warpAt? z.cur.core z.cur.slot = some wz from hz]
    exact hth)
  have htx : tget x.threads k = some t := by
    unfold State.thread? at ht
    rw [hx] at ht
    exact ht
  have hG : tget ((F x).mapLanes z.cur.mask G).threads k = some (G k t) := by
    rw [tget_mapLanes, hF, htx, Option.map_some, if_pos hl]
  obtain ⟨y, hy, hym⟩ := tget_settled ((F x).mapLanes z.cur.mask G) (((z.moved w e d).modWarp F).mapActive G).deckle.tick z.cur.mask
    (z.cur.ends (fun _ t => { t with pc := pc, rem := 0 })) ((((z.moved w e d).modWarp F).mapActive G).cycle + 1) k (G k t) hl hG
  exact ⟨t, y, hwoke, hy, hym⟩

/-! A lane at the end of a transfer. -/

theorem ends_regs (c : Cur) (f : Nat → Thread → Thread) (l : Nat) (t : Thread) (h : (f l t).regs = t.regs) : (c.ends f l t).regs = t.regs := by
  unfold Cur.ends Cur.uncount
  split
  · split <;> rfl
  · split
    · rfl
    · exact h

theorem ends_running (c : Cur) (f : Nat → Thread → Thread) (l : Nat) (t : Thread) (hx : t.exited = false) (hw : t.wait = .run) :
    c.ends f l t = f l t := by
  unfold Cur.ends Thread.stays
  rw [hw, hx]
  rfl

/-- A lane's registers after a transfer that makes `G` of them, and its PC where it was not waiting. -/
theorem transfer_lane (c : Cur) (G : Thread → Thread) (pc : Word) (k : Nat) (th t y : Thread) (hG : ∀ a b : Thread, a.regs = b.regs → (G a).regs = (G b).regs)
    (hx : (G t).exited = t.exited) (hw : (G t).wait = t.wait) (hwoke : th.woke t)
    (hy : y.noMeet = (c.ends (fun _ t => { t with pc := pc, rem := 0 }) k (G t)).noMeet) :
    y.regs = (G th).regs ∧ (th.exited = false → th.wait = .run → y.pc = pc) := by
  have hregs : t.regs = th.regs := by rcases hwoke with rfl | rfl <;> rfl
  have hexit : t.exited = th.exited := by rcases hwoke with rfl | rfl <;> rfl
  refine ⟨?_, fun he hr => ?_⟩
  · have h1 : y.regs = (c.ends (fun _ t => { t with pc := pc, rem := 0 }) k (G t)).regs := (congrArg Thread.regs hy :)
    exact h1.trans ((ends_regs c _ k (G t) rfl).trans (hG _ _ hregs))
  · have hwait : t.wait = .run := by rcases hwoke with rfl | rfl <;> [exact hr; rfl]
    have h1 : y.pc = (c.ends (fun _ t => { t with pc := pc, rem := 0 }) k (G t)).pc := (congrArg Thread.pc hy :)
    rw [h1, ends_running c _ k (G t) (hx.trans (hexit.trans he)) (hw.trans hwait)]

theorem setGroup_regs_congr (l : List Word) (n : Nat) (a b : Thread) (h : a.regs = b.regs) : (a.setGroup n l).regs = (b.setGroup n l).regs := by
  induction l generalizing n a b with
  | nil => exact h
  | cons v l ih => exact ih (n + 1) (a.set n v) (b.set n v) (by simp only [Thread.set, h])

theorem gateLeave_regs_congr (l : List Word) (a b : Thread) (h : a.regs = b.regs) : (a.gateLeave l).regs = (b.gateLeave l).regs := by
  cases l with
  | nil => exact h
  | cons m l => exact setGroup_regs_congr l 8 a b h

theorem gateLeave_same (l : List Word) (t : Thread) : (t.gateLeave l).exited = t.exited ∧ (t.gateLeave l).wait = t.wait := by
  have hg : ∀ (l : List Word) (n : Nat) (t : Thread), (t.setGroup n l).exited = t.exited ∧ (t.setGroup n l).wait = t.wait := by
    intro l
    induction l with
    | nil => exact fun _ _ => ⟨rfl, rfl⟩
    | cons v l ih => exact fun n t => ih (n + 1) (t.set n v)
  cases l with
  | nil => exact ⟨rfl, rfl⟩
  | cons m l => exact hg l 8 t

/-! The wait before a gate's effect (R251, R252). -/

theorem gateWait_go (s : State) (w : Warp) (go : State → State)
    (hp : s.pend.all (fun p => !(p.core == s.cur.core && p.slot == s.cur.slot && p.walking)) = true)
    (he : w.engine.all (fun q => q.isEmpty) = true) (hd : w.deferred = []) : s.gateWait w go = .next (go (s.keepGate none)) := by
  have h1 : s.pend.any (fun p => p.core == s.cur.core && p.slot == s.cur.slot && p.walking) = false := by
    rw [List.any_eq_false]
    intro p hm
    have := List.all_eq_true.mp hp p hm
    rw [Bool.not_eq_true'] at this
    exact Bool.eq_false_iff.mp this
  have h2 : w.engine.any (fun l => !l.isEmpty) = false := by
    rw [List.any_eq_false]
    intro l hm
    simpa using List.all_eq_true.mp he l hm
  have h3 : s.reportDeferred w (fun _ => true) = none := by
    unfold State.reportDeferred
    rw [hd]
    rfl
  unfold State.gateWait
  rw [h1, h2, h3]
  rfl

theorem warpAt_keepGate (s : State) (g : Option (List Word)) (w : Warp) (h : s.warp? = some w) :
    (s.keepGate g).warp? = some { w with gcall := g } := by
  refine (warpAt_modWarpAt s s.cur.core s.cur.slot s.cur.core s.cur.slot (fun w => { w with gcall := g })).trans ?_
  rw [if_pos ⟨rfl, rfl⟩, show s.warpAt? s.cur.core s.cur.slot = some w from h]
  rfl

theorem keepsL1_keepGate (s : State) (g : Option (List Word)) : KeepsCores Core.l1 s (s.keepGate g) := keepsL1_modWarpAt s _ _ _

/-- What a transfer leaves of memory and L1, as the state before its instruction had them. -/
theorem transfer_moved (s z : State) (w : Warp) (e d : Nat) (F : Warp → Warp) (G : Nat → Thread → Thread) (pc : Word) (k : Core)
    (hk : tget z.cores z.cur.core = some k) (hc : z.cur.core = s.cur.core) (hm : z.mem = s.mem)
    (hl : ∀ n, z.l1Of s.cur.core n = s.l1Of s.cur.core n) :
    (w.curSlot = e ∨ (s.l1Of s.cur.core w.curSlot).all (fun q => !q.2.2) = true → (z.transfer w e d F G pc).mem = s.mem) ∧
      (w.curSlot ≠ e → (∀ a b v, tget ((z.transfer w e d F G pc).l1Of s.cur.core w.curSlot) a = some (b, v) → v = false) ∧
        ∀ a b v, tget ((z.transfer w e d F G pc).l1Of s.cur.core e) a = some (b, v) → v = true) := by
  refine ⟨fun h => ?_, fun h => ?_⟩
  · rw [transfer_mem, changeSlot_mem, hm]
    rw [hc, hl]
    exact h
  · obtain ⟨h1, h2⟩ := changeSlot_l1 z z.cur.core w.curSlot e k hk h
    rw [transfer_l1, transfer_l1]
    rw [hc] at *
    exact ⟨fun a b v => flag_of_tget h1 a b v, fun a b v => flag_of_tget h2 a b v⟩

/-- A transfer through a table in which every lane has a landing (R139). -/
theorem tableGo_go (x : State) (w : Warp) (a b : Nat) (link : Thread → Thread) (y : State) (outs : List (Nat × TableOut))
    (hgo : ∀ o ∈ outs, ∃ n, o.2 = .go n) (hw : x.warp? = some w) (hh : x.heldLanes false false = [])
    (ht : x.tableLanes w a b x.active = (outs, y)) (at_ : Nat → Thread → Word)
    (hat : ∀ n t, at_ n t = match tget outs n with | some (.go x) => BitVec.ofNat 32 x | _ => t.pc) :
    x.tableGo a b link = .next ((y.mapActive (fun _ t => link t)).finishAt at_) := by
  have h1 : outs.map (fun x => if x.2 == .leave && !w.gates.isEmpty then (x.1, TableOut.bad .gate 0) else x) = outs := by
    refine (List.map_congr_left (fun o ho => ?_)).trans (List.map_id _)
    obtain ⟨n, hn⟩ := hgo o ho
    rw [hn]
    rfl
  have h3 : outs.filter (fun x => x.2 == .leave) = [] := by
    rw [List.filter_eq_nil_iff]
    intro o ho
    obtain ⟨n, hn⟩ := hgo o ho
    rw [hn]
    exact Bool.false_ne_true
  obtain rfl : at_ = _ := funext fun n => funext fun t => hat n t
  unfold State.tableGo
  rw [hw]
  dsimp only
  rw [hh, ht]
  dsimp only
  rw [h1, h3, List.filterMap_eq_nil_iff.mpr]
  · rfl
  · intro o ho
    obtain ⟨n, hn⟩ := hgo o ho
    rw [hn]

/-- The state a transfer starts from: memory and L1 as before the instruction, and the warp as it counted. -/
theorem transfer_start (s x z : State) (wz : Warp) (hx : x = s.counted (Use.flow [])) (hf : AfterFetch x z)
    (hz : z.warp? = some wz) : z.cur.core = s.cur.core ∧ z.cur.slot = s.cur.slot ∧ z.cur.mask = s.cur.mask ∧ z.mem = s.mem ∧
      (∀ n, z.l1Of s.cur.core n = s.l1Of s.cur.core n) ∧ ∃ k, tget z.cores z.cur.core = some k := by
  have hcur : z.cur = x.cur := (congrArg State.cur hf.1 :)
  refine ⟨by rw [hcur, hx]; rfl, by rw [hcur, hx]; rfl, by rw [hcur, hx]; rfl, ?_, fun n => ?_, ?_⟩
  · exact (congrArg State.mem hf.1 :).trans (by rw [hx]; rfl)
  · rw [hf.l1Of, hx]
    exact l1Of_keep (keepsL1_mapActive s (fun _ t => (Use.flow []).count s.cur t)) _ _
  · exact tget_of_warp hz

/-- The fields of a warp that a transfer sets. -/
theorem blank_fields {v x : Warp} (h : v.blank = x.blank) : v.curDid = x.curDid ∧ v.curSlot = x.curSlot ∧ v.code = x.code ∧
    v.partn = x.partn ∧ v.homeDid = x.homeDid ∧ v.gates = x.gates :=
  ⟨(congrArg Warp.curDid h :), (congrArg Warp.curSlot h :), (congrArg Warp.code h :), (congrArg Warp.partn h :),
    (congrArg Warp.homeDid h :), (congrArg Warp.gates h :)⟩

/-- The caller's warp as GCALL leaves it (R252). -/
def Warp.called (frame : GateFrame) (did slot : Nat) (code : CodeSeg) (w : Warp) : Warp :=
  { w with gates := frame :: w.gates, partn := 5, curDid := did, curSlot := slot, code := code }

/-- The callee's warp as GRET leaves it (R253). -/
def Warp.returned (f : GateFrame) (rest : List GateFrame) (w : Warp) : Warp :=
  { w with gates := rest, partn := f.partn, curDid := f.did, curSlot := f.slot, code := f.code }

/-- GCALL through a gate that passes is a transfer (R252). -/
theorem gcall_run (s : State) (w : Warp) (n : BitVec 11) (ws : List Word) (g : Gate) (slot l : Nat) (t : Thread)
    (rest : List (Nat × Thread)) (e : Nat) (x y : State) (hx : x = s.counted (Use.flow [])) (hci : s.canIssue (Use.flow []) = true)
    (hw : x.warp? = some w) (ha : x.active = (l, t) :: rest)
    (hp : x.pend.all (fun p => !(p.core == s.cur.core && p.slot == s.cur.slot && p.walking)) = true)
    (he : w.engine.all (fun q => q.isEmpty) = true) (hd : w.deferred = []) (hg : x.gateCheck w n.toNat = some (ws, g, slot))
    (hland : x.landingAt { w with curDid := g.did, code := g.code } g.entry g.label = (.go e, y)) :
    exec (.gcall n) s = .next (((y.keepGate (some ws)).keepGate none).transfer w slot g.did
      (Warp.called ⟨s.nextPc t, w.code, w.curDid, w.curSlot, w.partn, w.running.map (fun p => (p.1, p.2.gateSave w.nbase))⟩ g.did slot g.code)
      (fun _ t => t.gateEnter g.argc w.nbase) (BitVec.ofNat 32 g.entry)) := by
  obtain ⟨hf, -⟩ := landingAt_afterFetch x y _ _ _ _ hland
  have hcur : y.cur = x.cur := (congrArg State.cur hf.1 :)
  have hxcur : x.cur.core = s.cur.core ∧ x.cur.slot = s.cur.slot := by rw [hx]; exact ⟨rfl, rfl⟩
  have hpend : (y.keepGate (some ws)).pend.all (fun p => !(p.core == (y.keepGate (some ws)).cur.core &&
      p.slot == (y.keepGate (some ws)).cur.slot && p.walking)) = true := by
    rw [show (y.keepGate (some ws)).pend = x.pend from (congrArg State.pend hf.1 :), show (y.keepGate (some ws)).cur = x.cur from hcur,
      hxcur.1, hxcur.2]
    exact hp
  have hyw : y.warp? = some w := by
    unfold State.warp?
    rw [hcur, hf.warpAt]
    exact hw
  have hact : ((y.keepGate (some ws)).keepGate none).active = (l, t) :: rest := by
    have hzw := warpAt_keepGate (y.keepGate (some ws)) none _ (warpAt_keepGate y (some ws) w hyw)
    rw [← ha]
    unfold State.active
    rw [hzw, hw, show ((y.keepGate (some ws)).keepGate none).cur = x.cur from hcur]
    rfl
  have hpc : ((y.keepGate (some ws)).keepGate none).nextPc t = s.nextPc t := by
    unfold State.nextPc State.ownPc
    rw [show ((y.keepGate (some ws)).keepGate none).cur = x.cur from hcur, hx]
    rfl
  rw [exec_gcall]
  unfold execGcall
  rw [issue_runs s _ _ hci, ← hx, hw]
  dsimp only
  rw [hg]
  dsimp only
  rw [hland]
  dsimp only
  rw [gateWait_go (y.keepGate (some ws)) w _ hpend he hd, hact]
  dsimp only
  rw [hpc]
  rfl

/-- GRET with a frame is a transfer (R253). -/
theorem gret_run (s : State) (w : Warp) (f : GateFrame) (rest : List GateFrame) (x : State) (hx : x = s.counted (Use.flow []))
    (hci : s.canIssue (Use.flow []) = true) (hw : x.warp? = some w)
    (hp : x.pend.all (fun p => !(p.core == s.cur.core && p.slot == s.cur.slot && p.walking)) = true)
    (he : w.engine.all (fun q => q.isEmpty) = true) (hd : w.deferred = []) (hg : w.gates = f :: rest) (hm : x.laneMissing w = false) :
    exec .gret s = .next ((x.keepGate none).transfer w f.slot f.did (Warp.returned f rest)
      (fun n t => t.gateLeave ((tget f.lanes n).getD [])) f.pc) := by
  have hpend : x.pend.all (fun p => !(p.core == x.cur.core && p.slot == x.cur.slot && p.walking)) = true := by
    have hxcur : x.cur.core = s.cur.core ∧ x.cur.slot = s.cur.slot := by rw [hx]; exact ⟨rfl, rfl⟩
    rw [hxcur.1, hxcur.2]
    exact hp
  rw [exec_gret]
  unfold execGret
  rw [issue_runs s _ _ hci, ← hx, hw]
  dsimp only
  rw [hg]
  dsimp only
  rw [hm, gateWait_go x w _ hpend he hd]
  rfl

/-- Settles O56: tables give every lane its landing, and a gate's call and return are each a transfer between domain slots. -/
theorem tablesAndGates : Obligations.TablesAndGates := by
  intro s w still moved
  refine ⟨?_, ?_, ?_⟩
  · intro b a d y outs hgo at_
    refine ⟨?_, ?_⟩
    · intro x hx hci hw hh ht
      rw [exec_jtab]
      unfold execJtab
      rw [issue_runs s _ _ hci, ← hx]
      exact tableGo_go x w _ _ id y outs hgo hw hh ht at_ (fun _ _ => rfl)
    · intro x hx hci hw hh ht
      rw [exec_callt]
      unfold execCallt
      rw [issue_runs s _ _ hci, ← hx]
      exact tableGo_go x w _ _ _ y outs hgo hw hh ht at_ (fun _ _ => rfl)
  · intro n g slot l t rest e x y hx hci hw ha hstill hgate hland
    obtain ⟨hp, he, hd⟩ := hstill
    obtain ⟨ws, hg⟩ := hgate
    obtain ⟨hf, -⟩ := landingAt_afterFetch x y _ _ _ _ hland
    have hyw : y.warp? = some w := by
      unfold State.warp?
      rw [show y.cur = x.cur from (congrArg State.cur hf.1 :), hf.warpAt]
      exact hw
    have hzw := warpAt_keepGate (y.keepGate (some ws)) none _ (warpAt_keepGate y (some ws) w hyw)
    obtain ⟨hc, hs, hm, hmem, hl1, -⟩ := transfer_start s x y w hx hf hyw
    have hl1' : ∀ n, ((y.keepGate (some ws)).keepGate none).l1Of s.cur.core n = s.l1Of s.cur.core n := fun n =>
      (l1Of_keep ((keepsL1_keepGate y (some ws)).trans (keepsL1_keepGate _ none)) _ _).trans (hl1 n)
    obtain ⟨k', hk'⟩ := tget_of_warp hzw
    obtain ⟨v, q, hv, hq, hb, hlanes⟩ := transfer_warp ((y.keepGate (some ws)).keepGate none) w _ slot g.did
      (Warp.called ⟨s.nextPc t, w.code, w.curDid, w.curSlot, w.partn, w.running.map (fun p => (p.1, p.2.gateSave w.nbase))⟩ g.did slot g.code)
      (fun _ t => t.gateEnter g.argc w.nbase) (BitVec.ofNat 32 g.entry) hzw (fun _ => rfl)
    obtain ⟨b1, b2, b3, b4, b5, b6⟩ := blank_fields hb
    have hmark := transfer_marks ((y.keepGate (some ws)).keepGate none) w slot g.did
      (Warp.called ⟨s.nextPc t, w.code, w.curDid, w.curSlot, w.partn, w.running.map (fun p => (p.1, p.2.gateSave w.nbase))⟩ g.did slot g.code)
      (fun _ t => t.gateEnter g.argc w.nbase) (BitVec.ofNat 32 g.entry)
    refine ⟨_, v, gcall_run s w n ws g slot l t rest e x y hx hci hw ha hp he hd hg hland, ?_, ?_, b1, b2, b3, b4, ?_, ?_, hmark.1, hmark.2, ?_⟩
    · exact transfer_moved s _ w slot g.did _ _ _ k' hk' hc hmem hl1'
    · rw [← hc, ← hs]
      exact hv
    · exact b5.trans (congrArg Warp.homeDid hq :)
    · exact b6.trans (congrArg (List.cons _) (congrArg Warp.gates hq :))
    · intro i th hi hth
      obtain ⟨t', z, hwoke, hz, hy⟩ := hlanes i th (by rw [show ((y.keepGate (some ws)).keepGate none).cur.mask = s.cur.mask from hm]; exact hi) hth
      refine ⟨z, hz, transfer_lane _ (fun t => t.gateEnter g.argc w.nbase) _ i th t' z (fun a b h => ?_) rfl rfl hwoke hy⟩
      unfold Thread.gateEnter
      rw [h]
  · intro f rest x hx hci hw hstill hg hm
    obtain ⟨hp, he, hd⟩ := hstill
    have hzw := warpAt_keepGate x none w hw
    obtain ⟨hc, hs, hmask, hmem, hl1, -⟩ := transfer_start s x x w hx (AfterFetch.refl x) hw
    have hl1' : ∀ n, (x.keepGate none).l1Of s.cur.core n = s.l1Of s.cur.core n := fun n => (l1Of_keep (keepsL1_keepGate x none) _ _).trans (hl1 n)
    obtain ⟨k', hk'⟩ := tget_of_warp hzw
    obtain ⟨v, q, hv, hq, hb, hlanes⟩ := transfer_warp (x.keepGate none) w _ f.slot f.did (Warp.returned f rest)
      (fun n t => t.gateLeave ((tget f.lanes n).getD [])) f.pc hzw (fun _ => rfl)
    obtain ⟨b1, b2, b3, b4, -, b6⟩ := blank_fields hb
    have hmark := transfer_marks (x.keepGate none) w f.slot f.did (Warp.returned f rest)
      (fun n t => t.gateLeave ((tget f.lanes n).getD [])) f.pc
    refine ⟨_, v, gret_run s w f rest x hx hci hw hp he hd hg hm, ?_, ?_, b6, b1, b2, b3, b4, hmark.1, hmark.2, ?_⟩
    · exact transfer_moved s _ w f.slot f.did _ _ _ k' hk' hc hmem hl1'
    · rw [← hc, ← hs]
      exact hv
    · intro i th hi hth
      obtain ⟨t', z, hwoke, hz, hy⟩ := hlanes i th (by rw [show (x.keepGate none).cur.mask = s.cur.mask from hmask]; exact hi) hth
      obtain ⟨g1, g2⟩ := gateLeave_same ((tget f.lanes i).getD []) t'
      exact ⟨z, hz, transfer_lane _ (fun t => t.gateLeave ((tget f.lanes i).getD [])) _ i th t' z
        (fun a b h => gateLeave_regs_congr _ a b h) g1 g2 hwoke hy⟩

end Sys2Proof.Machine
end

section
/-!
PROOFS. SRD, SWR and the SYSOP group (O57).
-/
namespace Sys2Proof.Machine

/-! SRD and SWR (R303). -/

/-- An instruction word that the register map does not refuse: its word is a legal one. -/
theorem regWord_legal {wide : Bool} {n : Nat} (h : wide = true → n % 4 = 0) : (wide && n % 4 != 0) = false := by
  cases wide with
  | false => rfl
  | true => simp [h rfl]

theorem srd_run (s : State) (w : Warp) (r : BitVec 11) (d : Reg) (lv : Level) (hlv : regLevel r.toNat = some lv)
    (hwide : regWide r.toNat = true → d.toNat % 4 = 0) (x : State)
    (hx : x = s.counted { opds := [regOpd r.toNat d], level := lv, closes := decide (0x00F < r.toNat) })
    (hci : s.canIssue { opds := [regOpd r.toNat d], level := lv, closes := decide (0x00F < r.toNat) } = true) (hw : x.warp? = some w) :
    ∃ t, exec (.srd r d) s = .next t ∧ OnlyLanes s t ∧
      LaneStep s t (fun l th => ({ opds := [regOpd r.toNat d], level := lv, closes := decide (0x00F < r.toNat) } : Use).ran s.cur (fun y =>
        if r.toNat < 0x080 then y.set d.toNat (x.userReg w l y r.toNat)
        else
          let v := x.coreReg s.cur.core false (x.launchSeed w) r.toNat
          if regWide r.toNat then y.setGroup d.toNat (words128 v) else y.set d.toNat (v.setWidth 32)) th) := by
  rw [exec_srd]
  unfold execSrd
  dsimp only
  rw [hlv]
  dsimp only
  rw [regWord_legal hwide, if_neg Bool.false_ne_true]
  refine finish_run s _ _ (fun l y => if r.toNat < 0x080 then y.set d.toNat (x.userReg w l y r.toNat)
    else
      let v := x.coreReg s.cur.core false (x.launchSeed w) r.toNat
      if regWide r.toNat then y.setGroup d.toNat (words128 v) else y.set d.toNat (v.setWidth 32)) hci ?_
  rw [← hx, hw, show s.cur.core = x.cur.core by rw [hx]; rfl]

/-- SWR reaches its body where the register map allows it. -/
theorem swr_issue (s : State) (r : BitVec 11) (d : Reg) (lv : Level) (hlv : regLevel r.toNat = some lv)
    (hwide : regWide r.toNat = true → d.toNat % 4 = 0) (hwr : regWritable r.toNat = true) :
    exec (.swr r d) s = s.issue { opds := [regOpd r.toNat d], level := lv, closes := true } (fun s =>
      if r.toNat < 0x080 && r.toNat != 0x013 then s.swrLanes r.toNat d.toNat
      else
        match s.live with
        | [] => .next s.finish
        | (l, t) :: _ =>
          if r.toNat = 0x013 then
            if partnOk (t.get d.toNat) then .next (s.modWarp (fun w => { w with partn := t.get d.toNat &&& 7 })).finish
            else .next (s.faultAt .illegal l 0)
          else
            match s.writeCoreReg s.cur.core false r.toNat (t.swrValue r.toNat d.toNat) with
            | some s1 => .next s1.finish
            | none => .next (s.faultAt .illegal l 0)) := by
  rw [exec_swr]
  unfold execSwr
  dsimp only
  rw [hlv]
  dsimp only
  rw [hwr, regWord_legal hwide]
  rfl

/-- No lane's value is refused. -/
theorem firstBad_none {l : List (Nat × Thread)} {p : Thread → Bool} (h : l.all (fun x => !p x.2) = true) : firstBad l p = none := by
  unfold firstBad
  rw [List.find?_eq_none.mpr]
  · rfl
  · intro x hx
    simpa using List.all_eq_true.mp h x hx

theorem swr_run (s : State) (r : BitVec 11) (d : Reg) (lv : Level) (hlv : regLevel r.toNat = some lv)
    (hwide : regWide r.toNat = true → d.toNat % 4 = 0) (hwr : regWritable r.toNat = true) (x : State)
    (hx : x = s.counted { opds := [regOpd r.toNat d], level := lv, closes := true })
    (hci : s.canIssue { opds := [regOpd r.toNat d], level := lv, closes := true } = true) :
    (r.toNat < 0x080 → r.toNat ≠ 0x013 →
      (x.active.all (fun p => (p.2.writeReg r.toNat (p.2.get d.toNat)).isSome) = true → ∃ t, exec (.swr r d) s = .next t ∧
        OnlyLanes s t ∧ LaneStep s t (fun _ th => ({ opds := [regOpd r.toNat d], level := lv, closes := true } : Use).ran s.cur
          (fun y => (y.writeReg r.toNat (y.get d.toNat)).getD y) th)) ∧
      (∀ l, firstBad x.active (fun t => (t.writeReg r.toNat (t.get d.toNat)).isNone) = some l →
        exec (.swr r d) s = .next (x.faultAt .illegal l 0))) ∧
    (∀ l t rest, x.live = (l, t) :: rest → r.toNat = 0x013 → partnOk (t.get d.toNat) = true →
      exec (.swr r d) s = .next (x.modWarp (fun w => { w with partn := t.get d.toNat &&& 7 })).finish) ∧
    (∀ l t rest, x.live = (l, t) :: rest → 0x080 ≤ r.toNat →
      (∀ y, x.writeCoreReg s.cur.core false r.toNat (t.swrValue r.toNat d.toNat) = some y →
        exec (.swr r d) s = .next y.finish) ∧
      (x.writeCoreReg s.cur.core false r.toNat (t.swrValue r.toNat d.toNat) = none →
        exec (.swr r d) s = .next (x.faultAt .illegal l 0))) := by
  have hcore : x.cur.core = s.cur.core := by rw [hx]; rfl
  rw [swr_issue s r d lv hlv hwide hwr]
  refine ⟨fun hlt hne => ?_, fun l t rest hl hr hp => ?_, fun l t rest hl hr => ?_⟩
  · have hb : (decide (r.toNat < 0x080) && r.toNat != 0x013) = true := by simp [hlt, hne]
    refine ⟨fun hall => ?_, fun l hbad => ?_⟩
    · refine finish_run s _ _ (fun _ y => (y.writeReg r.toNat (y.get d.toNat)).getD y) hci ?_
      rw [← hx, hb, if_pos rfl]
      unfold State.swrLanes
      rw [firstBad_none]
      refine List.all_eq_true.mpr (fun p hp => ?_)
      have := List.all_eq_true.mp hall p hp
      cases h : p.2.writeReg r.toNat (p.2.get d.toNat) with
      | none => rw [h] at this; exact this
      | some y => rfl
    · rw [issue_runs s _ _ hci, ← hx, hb, if_pos rfl]
      unfold State.swrLanes
      rw [hbad]
  · have hb : (decide (r.toNat < 0x080) && r.toNat != 0x013) = false := by simp [hr]
    rw [issue_runs s _ _ hci, ← hx, hb, if_neg Bool.false_ne_true, hl]
    dsimp only
    rw [if_pos hr, if_pos hp]
  · have hb : (decide (r.toNat < 0x080) && r.toNat != 0x013) = false := by simp [Nat.not_lt.mpr hr]
    have hn : r.toNat ≠ 0x013 := by omega
    refine ⟨fun y hy => ?_, fun hnone => ?_⟩
    · rw [issue_runs s _ _ hci, ← hx, hb, if_neg Bool.false_ne_true, hl]
      dsimp only
      rw [if_neg hn, hcore, hy]
    · rw [issue_runs s _ _ hci, ← hx, hb, if_neg Bool.false_ne_true, hl]
      dsimp only
      rw [if_neg hn, hcore, hnone]

/-! XLOCK and XUNLK (R66, R67). -/

/-- The issuing warp at the end of a unit: its fields, and every thread's registers, are as before. -/
theorem finish_warp (z : State) (w : Warp) (hw : z.warp? = some w) :
    ∃ v, z.finish.warpAt? z.cur.core z.cur.slot = some v ∧ v.blank = w.blank ∧
      ∀ l th, tget w.threads l = some th → ∃ y, tget v.threads l = some y ∧ y.regs = th.regs := by
  have h := warp_finishBy z 1 (fun _ t => t.advance z.cur)
  rw [hw, Option.map_some] at h
  refine ⟨_, h, (settle_alike _ _ _).1, fun l th hth => ?_⟩
  have ha := (settle_alike (({ w with lastTick := z.deckle.tick } : Warp).mapLanes z.cur.mask (z.cur.ends (fun _ t => t.advance z.cur)))
    z.cur.mask (z.cycle + 1)).2 l
  rw [tget_mapLanes, show tget ({ w with lastTick := z.deckle.tick } : Warp).threads l = some th from hth, Option.map_some, Option.map_some] at ha
  obtain ⟨y, hy, hym⟩ := Option.map_eq_some_iff.mp ha
  refine ⟨y, hy, (congrArg Thread.regs hym :).trans ?_⟩
  show (if laneIn z.cur.mask l = true then z.cur.ends (fun _ t => t.advance z.cur) l th else th).regs = th.regs
  split
  · exact ends_regs z.cur _ l th (by unfold Thread.advance; split <;> [(split <;> rfl); rfl])
  · rfl

theorem xlock_run (s x : State) (w : Warp) (set : XSet) (hx : x = s.counted (Use.sysop [])) (hw : x.warp? = some w)
    (hci : s.canIssue (Use.sysop []) = true) (hset : tget (x.core s.cur.core).xsets (s.cur.slot / 2) = some set)
    (hslot : w.curSlot = w.homeSlot) (hg : w.gates = []) (ho : w.xown = false)
    (hfirst : siblingFirst (x.core s.cur.core) s.cur.slot s.cycle w.xreq = false) :
    ∃ t v, exec .xlock s = .next t ∧ t.warpAt? s.cur.core s.cur.slot = some v ∧ v.xown = true ∧ v.xreq = none ∧ t.mem = s.mem ∧
      ∀ l th, tget w.threads l = some th → ∃ y, tget v.threads l = some y ∧
        y.regs = th.regs.take 96 ++ (tget set.lanes l).getD (List.replicate 32 0) := by
  have hcur : x.cur.core = s.cur.core ∧ x.cur.slot = s.cur.slot ∧ x.cycle = s.cycle := by rw [hx]; exact ⟨rfl, rfl, rfl⟩
  obtain ⟨hc, hs, hcy⟩ := hcur
  let g : Warp → Warp := fun w => { w with
    xown := true
    xreq := none
    threads := w.threads.map (fun (p : Nat × Thread) =>
      (p.1, { p.2 with regs := p.2.regs.take 96 ++ (tget set.lanes p.1).getD (List.replicate 32 0) })) }
  have hz : (x.takeSet set).warp? = some (g w) := by
    refine (warpAt_modWarpAt x x.cur.core x.cur.slot x.cur.core x.cur.slot g).trans ?_
    rw [if_pos ⟨rfl, rfl⟩, show x.warpAt? x.cur.core x.cur.slot = some w from hw]
    rfl
  obtain ⟨v, hv, hb, hr⟩ := finish_warp (x.takeSet set) (g w) hz
  have hrun : exec .xlock s = .next (x.takeSet set).finish := by
    rw [exec_xlock]
    unfold execXlock
    rw [issue_runs s _ _ hci, ← hx, hw]
    dsimp only
    rw [hc, hs, hcy, hset]
    dsimp only
    rw [hslot, hg, ho, hfirst]
    simp
  refine ⟨_, v, hrun, ?_, (congrArg Warp.xown hb :), (congrArg Warp.xreq hb :), ?_, fun l th hth => ?_⟩
  · rw [← hc, ← hs]
    exact hv
  · rw [finish_mem, show (x.takeSet set).mem = x.mem from rfl, hx]
    rfl
  · obtain ⟨y, hy, hreg⟩ := hr l { th with regs := th.regs.take 96 ++ (tget set.lanes l).getD (List.replicate 32 0) } (by
      refine (tget_map w.threads (fun n (t : Thread) =>
        { t with regs := t.regs.take 96 ++ (tget set.lanes n).getD (List.replicate 32 0) }) l).trans ?_
      rw [hth]
      rfl)
    exact ⟨y, hy, hreg⟩

/-- What a table of saved sets holds for a lane of a warp whose lanes are distinct. -/
theorem tget_savedSets (l : List (Nat × Thread)) (init : Tbl (List Word)) (n : Nat) (th : Thread) (hd : (l.map (·.1)).Nodup)
    (h : tget l n = some th) : tget (l.foldl (fun t p => tput t p.1 p.2.ext) init) n = some th.ext := by
  have keep : ∀ (l : List (Nat × Thread)) (init : Tbl (List Word)) (e : List Word), n ∉ l.map (·.1) → tget init n = some e →
      tget (l.foldl (fun t p => tput t p.1 p.2.ext) init) n = some e := by
    intro l
    induction l with
    | nil => exact fun _ _ _ h => h
    | cons q l ih =>
      intro init e hn he
      rw [List.map_cons, List.mem_cons, not_or] at hn
      refine ih _ e hn.2 ?_
      rw [tget_tput, if_neg hn.1]
      exact he
  induction l generalizing init with
  | nil => cases h
  | cons q l ih =>
    obtain ⟨k, t⟩ := q
    rw [List.map_cons, List.nodup_cons] at hd
    by_cases hk : k = n
    · subst hk
      have ht : t = th := by simpa [tget] using h
      subst ht
      refine keep l _ _ hd.1 ?_
      rw [tget_tput, if_pos rfl]
    · refine ih _ hd.2 ?_
      simpa [tget, hk] using h

theorem xunlk_run (s x : State) (w : Warp) (set : XSet) (hx : x = s.counted (Use.sysop [])) (hw : x.warp? = some w)
    (hci : s.canIssue (Use.sysop []) = true) (hset : tget (x.core s.cur.core).xsets (s.cur.slot / 2) = some set)
    (ho : w.xown = true) (hd : (w.threads.map (·.1)).Nodup) :
    ∃ t v set', exec .xunlk s = .next t ∧ t.warpAt? s.cur.core s.cur.slot = some v ∧ v.xown = false ∧ t.mem = s.mem ∧
      tget (t.core s.cur.core).xsets (s.cur.slot / 2) = some set' ∧
      ∀ l th, tget w.threads l = some th → tget set'.lanes l = some (th.regs.drop 96) := by
  have hcur : x.cur.core = s.cur.core ∧ x.cur.slot = s.cur.slot := by rw [hx]; exact ⟨rfl, rfl⟩
  obtain ⟨hc, hs⟩ := hcur
  obtain ⟨k, hk⟩ := tget_of_warp hw
  let keep : XSet → XSet := fun e => { e with lanes := w.threads.foldl (fun t p => tput t p.1 p.2.ext) e.lanes }
  let give : Core → Core := fun k => { k with xsets := tmod k.xsets (x.cur.slot / 2) keep }
  let y1 : State := x.modCore x.cur.core give
  let y2 : State := y1.modWarpAt x.cur.core x.cur.slot (fun w => { w with xown := false })
  let z : State := y2.wakeWarp x.cur.core (x.cur.slot ^^^ 1) (fun e => e == .lock)
  have hdrop : x.dropSet x.cur.core x.cur.slot = z := by
    unfold State.dropSet
    rw [show x.warpAt? x.cur.core x.cur.slot = some w from hw]
    dsimp only
    rw [if_pos ho]
  have hy1 : y1.warpAt? x.cur.core x.cur.slot = some w :=
    (warpAt_of_keeps (modCore_cores_keep Core.warps x x.cur.core give (fun _ => rfl)) _ _).trans hw
  have hz : z.warp? = some { w with xown := false } := by
    refine (warpAt_modWarpAt y2 x.cur.core (x.cur.slot ^^^ 1) x.cur.core x.cur.slot _).trans ?_
    rw [if_neg (fun e => xor_one_ne x.cur.slot e.2.symm)]
    refine (warpAt_modWarpAt y1 x.cur.core x.cur.slot x.cur.core x.cur.slot _).trans ?_
    rw [if_pos ⟨rfl, rfl⟩, hy1]
    rfl
  obtain ⟨v, hv, hb, -⟩ := finish_warp z _ hz
  have hcores : KeepsCores Core.xsets y1 z.finish := by
    have h1 : KeepsCores Core.xsets y1 y2 := modWarpAt_keeps Core.xsets (fun _ _ => rfl) y1 x.cur.core x.cur.slot _
    have h2 : KeepsCores Core.xsets y2 z := modWarpAt_keeps Core.xsets (fun _ _ => rfl) y2 x.cur.core _ _
    have h3 : KeepsCores Core.xsets z z.finish := finish_keeps Core.xsets (fun _ _ => rfl) (fun k n m t c => by unfold Core.charge; split <;> rfl) z
    exact (h1.trans h2).trans h3
  have hxs : tget (z.finish.core s.cur.core).xsets (s.cur.slot / 2) = some (keep set) := by
    rw [core_keep (f := Core.xsets) hcores]
    have hcore : y1.core x.cur.core = give k := by
      have : tget y1.cores x.cur.core = some (give k) := by
        refine (tget_tmod x.cores x.cur.core x.cur.core give).trans ?_
        rw [if_pos rfl, hk]
        rfl
      unfold State.core
      rw [this]
      rfl
    have hset' : tget k.xsets (x.cur.slot / 2) = some set := by
      have : x.core x.cur.core = k := by unfold State.core; rw [hk]; rfl
      rw [← this, hc, hs]
      exact hset
    rw [← hc, ← hs, hcore]
    show tget (tmod k.xsets (x.cur.slot / 2) keep) (x.cur.slot / 2) = _
    rw [tget_tmod, if_pos rfl, hset']
    rfl
  refine ⟨z.finish, v, keep set, ?_, ?_, (congrArg Warp.xown hb :), ?_, hxs, fun l th hth => tget_savedSets w.threads set.lanes l th hd hth⟩
  · rw [exec_xunlk]
    unfold execXunlk
    rw [issue_runs s _ _ hci, ← hx, hw]
    dsimp only
    rw [if_pos ho, hdrop]
  · rw [← hc, ← hs]
    exact hv
  · rw [finish_mem, show z.mem = x.mem from rfl, hx]
    rfl

/-! What a release and a flush keep. -/

section
variable {R : State → State → Prop} (h : Steps R)
include h

theorem Steps.release (s : State) (c d : Nat) (sc : Scope) : R s (s.release c d sc) := by
  unfold State.release
  split
  · exact h.trans _ _ _ (h.drain s _) (h.foldl _ (fun s e => h.writeBack s c e) _ _)
  · exact h.refl s

theorem Steps.leaveL1 (s : State) (c d : Nat) (p : Nat → Bool) : R s (s.leaveL1 c d p) := by
  unfold State.leaveL1
  dsimp only
  split
  · exact h.refl s
  · exact h.trans _ _ _ (h.trans _ _ _ (h.writeDirty c _ s) (h.setL1 _ _ _ _)) (h.unmark _ _ _ _)

/-- The lines of a page leave every L1. -/
theorem Steps.leaveAll (cs : Tbl Core) (p : Nat → Bool) (s : State) :
    R s (cs.foldl (fun (s : State) (k : Nat × Core) => k.2.l1.foldl (fun (s : State) d => s.leaveL1 k.1 d.1 p) s) s) :=
  h.foldl _ (fun (s : State) (k : Nat × Core) => h.foldl _ (fun (s : State) d => h.leaveL1 s k.1 d.1 p) k.2.l1 s) cs s

theorem Steps.flushPage (s : State) (page : Nat) : R s (s.flushPage page) :=
  h.trans _ _ _ (h.drain s _) (h.leaveAll _ _ _)

end

/-- A part of the state that neither cores nor writes at homes hold is kept. -/
theorem field_steps {α : Type} (f : State → α) (hr : ∀ (s : State) l, f { s with reqs := l } = f s)
    (hf : ∀ (s : State) l, f { s with flagMsgs := l } = f s) (hw : ∀ s pa b, f (State.homeWrite s pa b) = f s)
    (hm : ∀ s c g, f (State.modCore s c g) = f s) : Steps (fun s t => f t = f s) where
  refl := fun _ => rfl
  trans := fun _ _ _ a b => b.trans a
  reqs := fun s p => hr s _
  flags := fun s l => hf s l
  write := fun s pa b => hw s pa b
  settle := fun s c n cls id => by
    unfold State.settleCount
    split
    · rfl
    · exact (hm _ _ _).trans (hm _ _ _)
  core := fun s c g _ => hm s c g

theorem tlb_steps : Steps (fun s t => t.tlb = s.tlb) :=
  field_steps State.tlb (fun _ _ => rfl) (fun _ _ => rfl) (fun s pa b => (congrArg State.tlb (homeWrite_unhomed s pa b) :)) (fun _ _ _ => rfl)

theorem regs_steps : Steps (KeepsThreads Thread.regs) where
  refl := KeepsThreads.refl _
  trans := fun _ _ _ a b => a.trans b
  reqs := fun _ _ => KeepsThreads.of_cores _ rfl
  flags := fun _ _ => KeepsThreads.of_cores _ rfl
  write := fun s pa b => homeWrite_threads Thread.regs (fun _ => rfl) s pa b
  settle := fun s c n cls id => settleCount_threads Thread.regs (fun _ => rfl) s c n cls id
  core := fun s c g hg => keeps_modCore Thread.regs s c g hg

theorem fewer_steps : Steps Fewer where
  refl := fun _ _ h => h
  trans := fun _ _ _ a b => a.trans b
  reqs := fun _ _ _ hr => (List.mem_filter.mp hr).1
  flags := fun _ _ _ h => h
  write := fun s pa b r hr => by rwa [homeWrite_reqs] at hr
  settle := fun s c n cls id r hr => by
    unfold State.settleCount at hr
    split at hr <;> exact hr
  core := fun _ _ _ _ _ h => h

/-- After a flush no request to the page is on its way (R287). -/
theorem flushPage_none (s : State) (page : Nat) : ∀ r ∈ (s.flushPage page).reqs, r.addr / 65536 ≠ page := by
  intro r hr hp
  have h1 : r ∈ (s.drain (fun r => r.addr / 65536 == page)).reqs := fewer_steps.leaveAll _ _ _ r hr
  have h2 : r ∈ s.reqs := fewer_steps.drain s _ r h1
  exact not_mem_applyAll _ s r (mem_dueReqs s (fun r => r.addr / 65536 == page) s.reqs r h2 (by simpa using hp)) r h1 rfl

theorem flushPages_none (pages : List Nat) (s : State) : ∀ p ∈ pages, ∀ r ∈ (pages.foldl State.flushPage s).reqs, r.addr / 65536 ≠ p := by
  induction pages generalizing s with
  | nil => exact fun p hp => absurd hp List.not_mem_nil
  | cons q l ih =>
    intro p hp r hr
    rcases List.mem_cons.mp hp with rfl | hp
    · exact flushPage_none s p r (fewer_steps.foldl _ fewer_steps.flushPage l _ r hr)
    · exact ih _ p hp r hr

/-! Invalidation (R287, R306, R307). -/

theorem tlbinv_run (s : State) (w : Warp) (b a : Reg) (x : State)
    (hx : x = s.counted { Use.sysop [.two .va a, .one .vb b] with level := .supervisor }) (hw : x.warp? = some w)
    (hci : s.canIssue { Use.sysop [.two .va a, .one .vb b] with level := .supervisor } = true) (hh : x.heldLanes true true = [])
    (hit : TlbEntry → Bool)
    (hhit : hit = fun e => e.part == w.part && x.live.any (fun q => e.within (q.2.nat64 a.toNat / 65536) (q.2.nat b.toNat)))
    (hfree : ∀ e ∈ x.tlb, hit e = true → (∀ p ∈ x.pkts, ¬ (p.part = w.part ∧ p.va / 65536 = e.vpage)) ∧
      ∀ h ∈ x.holds, ¬ (h.part = w.part ∧ h.va / 65536 = e.vpage)) :
    ∃ t, exec (.tlbinv b a) s = .next t ∧ t.tlb = x.tlb.filter (fun e => !hit e) ∧
      (∀ e ∈ x.tlb, hit e = true → ∀ r ∈ t.reqs, r.addr / 65536 ≠ e.ppage) ∧
      ∀ c n l, (t.thread? c n l).map Thread.regs = (s.thread? c n l).map Thread.regs := by
  let s1 : State := (((x.tlb.filter hit).map (·.ppage)).dedup.foldl State.flushPage (x.release x.cur.core w.curSlot .package))
  have hunused : ∀ part va, (∀ e ∈ x.tlb, hit e = true → ¬ (part = w.part ∧ va / 65536 = e.vpage)) →
      (part == w.part && (x.tlb.filter hit).any (fun e => e.vpage == va / 65536)) = false := by
    intro part va hno
    rw [Bool.and_eq_false_iff, or_iff_not_imp_left, Bool.not_eq_false, beq_iff_eq, List.any_eq_false]
    intro hp e he hv
    obtain ⟨h1, h2⟩ := List.mem_filter.mp he
    exact hno e h1 h2 ⟨hp, (beq_iff_eq.mp hv).symm⟩
  have hwait : x.usersWait (fun p => p.part == w.part && (x.tlb.filter hit).any (fun e => e.vpage == p.va / 65536))
      (fun h => h.part == w.part && (x.tlb.filter hit).any (fun e => e.vpage == h.va / 65536)) = none := by
    unfold State.usersWait
    rw [if_neg, if_neg]
    · rw [Bool.not_eq_true, List.any_eq_false]
      intro p hp
      rw [hunused p.part p.va (fun e he ht => (hfree e he ht).2 p hp)]
      exact Bool.false_ne_true
    · rw [Bool.not_eq_true, List.any_eq_false]
      intro p hp
      rw [hunused p.part p.va (fun e he ht => (hfree e he ht).1 p hp)]
      exact Bool.false_ne_true
  have hrun : exec (.tlbinv b a) s = .next ({ s1 with tlb := s1.tlb.filter (fun e => !hit e) } : State).finish := by
    subst hhit
    rw [exec_tlbinv]
    unfold execTlbinv
    rw [issue_runs s _ _ hci, ← hx, hw]
    dsimp only
    rw [hh, hwait]
    rfl
  refine ⟨_, hrun, ?_, fun e he ht r hr => ?_, ?_⟩
  · have htlb : s1.tlb = x.tlb := tlb_steps.trans _ _ _ (tlb_steps.release x _ _ _) (tlb_steps.foldl _ tlb_steps.flushPage _ _)
    exact congrArg (List.filter (fun e => !hit e)) htlb
  · exact flushPages_none _ _ e.ppage (List.mem_dedup.mpr (List.mem_map.mpr ⟨e, List.mem_filter.mpr ⟨he, ht⟩, rfl⟩)) r hr
  · have h1 : KeepsThreads Thread.regs s x := by
      rw [hx]
      exact counted_regs s _
    have h2 : KeepsThreads Thread.regs x s1 :=
      (regs_steps.release x _ _ _).trans (regs_steps.foldl _ regs_steps.flushPage _ _)
    have h3 : KeepsThreads Thread.regs s1 ({ s1 with tlb := s1.tlb.filter (fun e => !hit e) } : State) := KeepsThreads.of_cores _ rfl
    exact ((h1.trans h2).trans h3).trans (finish_regs _)

theorem rotinv_run (s : State) (w : Warp) (b a : Reg) (x y : State) (pages : List Nat)
    (hx : x = s.counted { Use.sysop [.two .va a, .one .vb b] with level := .hypervisor }) (hw : x.warp? = some w)
    (hy : y = x.release s.cur.core w.curSlot .package)
    (hci : s.canIssue { Use.sysop [.two .va a, .one .vb b] with level := .hypervisor } = true) (hh : x.heldLanes true true = [])
    (hva : x.live.all (fun p => decide (p.2.nat64 a.toNat < 2 ^ 44)) = true)
    (hpages : pages = (y.live.flatMap (fun q => y.rotinvPages (q.2.nat64 a.toNat / 65536) (q.2.nat b.toNat))).dedup) :
    ((y.newStamped pages = [] ∨ y.stampedAfter pages ≤ 16384) → y.rotinvWait pages = none →
      exec (.rotinv b a) s = .next (pages.foldl State.rotinvPage y).finish) ∧
    (y.newStamped pages ≠ [] → 16384 < y.stampedAfter pages →
      exec (.rotinv b a) s = .next ((y.keepTypes (y.newStamped pages)).faultAt .illegal x.firstLane 0)) := by
  have hbad : firstBad x.live (fun t => decide (2 ^ 44 ≤ t.nat64 a.toNat)) = none := by
    refine firstBad_none (List.all_eq_true.mpr (fun p hp => ?_))
    have := List.all_eq_true.mp hva p hp
    rw [decide_eq_true_eq] at this
    rw [Bool.not_eq_true', decide_eq_false_iff_not]
    exact Nat.not_le.mpr this
  have hrun : exec (.rotinv b a) s = (if !(y.newStamped pages).isEmpty && decide (16384 < y.stampedAfter pages) then
      .next ((y.keepTypes (y.newStamped pages)).faultAt .illegal x.firstLane 0)
    else
      match y.rotinvWait pages with
      | some why => .next (y.stallAll why)
      | none => .next (pages.foldl State.rotinvPage y).finish) := by
    rw [exec_rotinv]
    unfold execRotinv
    rw [issue_runs s _ _ hci, ← hx, hw]
    dsimp only
    rw [hh, hbad]
    dsimp only
    rw [show x.cur.core = s.cur.core by rw [hx]; rfl, ← hy, ← hpages]
    rfl
  rw [hrun]
  refine ⟨fun hfew hwait => ?_, fun hnew hmany => ?_⟩
  · rw [if_neg, hwait]
    rw [Bool.and_eq_true, decide_eq_true_eq, Bool.not_eq_true', List.isEmpty_eq_false_iff]
    rintro ⟨h1, h2⟩
    rcases hfew with h | h
    · exact h1 h
    · omega
  · rw [if_pos]
    rw [Bool.and_eq_true, decide_eq_true_eq, Bool.not_eq_true', List.isEmpty_eq_false_iff]
    exact ⟨hnew, hmany⟩

/-- One lane's ICINV: the code lines it names go from its partition's cores (R307). -/
def State.icinvLane (w : Warp) (a b : Nat) (s : State) (x : Nat × Thread) : State :=
  let va := x.2.nat64 a
  let n := x.2.nat b
  let gone (a : Nat) : Bool := n == 0 || (decide (va / 128 ≤ a / 128) && decide (a / 128 ≤ (va + n - 1) / 128))
  { s with cores := s.cores.map (fun (k : Nat × Core) =>
      match tget s.parts w.part with
      | some q => if coreOfPart w.part q k.1 then (k.1, { k.2 with icache := k.2.icache.filter (fun c => !gone c.1) }) else k
      | none => k) }

/-- A lane's ICINV covers an address. -/
def icinvCovers (a b : Nat) (x : Nat × Thread) (e : Nat) : Bool :=
  x.2.nat b == 0 || (decide (x.2.nat64 a / 128 ≤ e / 128) && decide (e / 128 ≤ (x.2.nat64 a + x.2.nat b - 1) / 128))

/-- A core without the code lines that a lane's ICINV covers. -/
def Core.dropCode (a b : Nat) (x : Nat × Thread) (k : Core) : Core :=
  { k with icache := k.icache.filter (fun e => !icinvCovers a b x e.1) }

theorem icinvLane_icache (w : Warp) (a b : Nat) (s : State) (x : Nat × Thread) (k : Nat) :
    ((s.icinvLane w a b x).core k).icache = (s.core k).icache.filter (fun e =>
      !(coreOfPart w.part ((tget s.parts w.part).getD Part.idle) k && (tget s.parts w.part).isSome && icinvCovers a b x e.1)) := by
  unfold State.core State.icinvLane
  dsimp only
  cases tget s.parts w.part with
  | none =>
    dsimp only
    rw [List.map_id']
    simp
  | some q =>
    have e : s.cores.map (fun (k : Nat × Core) => if coreOfPart w.part q k.1 then (k.1, k.2.dropCode a b x) else k) =
        s.cores.map (fun k => (k.1, if coreOfPart w.part q k.1 then k.2.dropCode a b x else k.2)) := by
      refine List.map_congr_left (fun p _ => ?_)
      split <;> rfl
    have ht := tget_map s.cores (fun n (k : Core) => if coreOfPart w.part q n then k.dropCode a b x else k) k
    rw [← e] at ht
    refine (congrArg (fun o : Option Core => (o.getD Core.idle).icache) ht).trans ?_
    cases tget s.cores k with
    | none => rfl
    | some c =>
      simp only [Option.map_some, Option.getD_some, Option.isSome_some, Bool.and_true]
      cases coreOfPart w.part q k with
      | true => simp [Core.dropCode]
      | false => simp

theorem icinvLanes_icache (w : Warp) (a b : Nat) (l : List (Nat × Thread)) (s : State) (k : Nat) :
    ((l.foldl (State.icinvLane w a b) s).core k).icache = (s.core k).icache.filter (fun e =>
      !(coreOfPart w.part ((tget s.parts w.part).getD Part.idle) k && (tget s.parts w.part).isSome && l.any (fun x => icinvCovers a b x e.1))) := by
  induction l generalizing s with
  | nil => simp
  | cons x l ih =>
    rw [List.foldl_cons, ih (s.icinvLane w a b x), icinvLane_icache, List.filter_filter]
    rw [show (s.icinvLane w a b x).parts = s.parts from rfl]
    congr 1
    funext e
    rw [List.any_cons]
    cases coreOfPart w.part ((tget s.parts w.part).getD Part.idle) k && (tget s.parts w.part).isSome with
    | false => rfl
    | true => simp [Bool.and_comm]

theorem icinv_run (s : State) (w : Warp) (b a : Reg) (x y : State)
    (hx : x = s.counted (Use.sysop [.two .va a, .one .vb b])) (hw : x.warp? = some w)
    (hy : y = x.release s.cur.core w.curSlot .package) (hci : s.canIssue (Use.sysop [.two .va a, .one .vb b]) = true)
    (hh : x.heldLanes true true = []) :
    ∃ t, exec (.icinv b a) s = .next t ∧ t.mem = y.mem ∧
      ∀ k, (t.core k).icache = (y.core k).icache.filter (fun e => !(coreOfPart w.part ((tget y.parts w.part).getD Part.idle) k &&
        (tget y.parts w.part).isSome && y.live.any (fun q => icinvCovers a.toNat b.toNat q e.1))) := by
  have hrun : exec (.icinv b a) s = .next (y.live.foldl (State.icinvLane w a.toNat b.toNat) y).finish := by
    rw [exec_icinv]
    unfold execIcinv
    rw [issue_runs s _ _ hci, ← hx, hw]
    dsimp only
    rw [hh, show x.cur.core = s.cur.core by rw [hx]; rfl, ← hy]
    rfl
  refine ⟨_, hrun, ?_, fun k => ?_⟩
  · rw [finish_mem]
    exact field_foldl State.mem (State.icinvLane w a.toNat b.toNat) (fun _ _ => rfl) _ _
  · have hk : KeepsCores Core.icache (y.live.foldl (State.icinvLane w a.toNat b.toNat) y) (y.live.foldl (State.icinvLane w a.toNat b.toNat) y).finish :=
      finish_keeps Core.icache (fun _ _ => rfl) (fun k n m t c => by unfold Core.charge; split <;> rfl) _
    rw [core_keep (f := Core.icache) hk, icinvLanes_icache]

/-! HALT, CMPMAN, LNCH and CHKP (R224, R308, R309, R386). -/

theorem halt_run (s : State) (a : Reg) (l : Nat) (t : Thread) (rest : List (Nat × Thread)) (x : State)
    (hx : x = s.counted { Use.sysop [.two .va a] with level := .supervisor, control := true })
    (hci : s.canIssue { Use.sysop [.two .va a] with level := .supervisor, control := true } = true) (hl : x.live = (l, t) :: rest) :
    exec (.halt a) s = .next (if t.nat64 a.toNat ≠ 0 ∧ t.nat64 a.toNat ≤ s.deckle.early then x.finish
      else x.finish.modCore s.cur.core (fun k => { k with halted := some (t.nat64 a.toNat) })) := by
  have he : x.deckle.early = s.deckle.early := by rw [hx]; rfl
  have hc : x.cur.core = s.cur.core := by rw [hx]; rfl
  rw [exec_halt]
  unfold execHalt
  rw [issue_runs s _ _ hci, ← hx, hl]
  dsimp only
  rw [he, hc]
  by_cases h : t.nat64 a.toNat ≠ 0 ∧ t.nat64 a.toNat ≤ s.deckle.early
  · rw [if_pos h, if_pos (by simp [h.1, h.2])]
  · rw [if_neg h, if_neg (by simpa using h)]

theorem cmpman_run (s : State) (w : Warp) (a d : Reg) (l : Nat) (t : Thread) (rest : List (Nat × Thread)) (ws : List Word) (x y : State)
    (hx : x = s.counted (Use.sysop [.one .vd d, .two .va a])) (hci : s.canIssue (Use.sysop [.one .vd d, .two .va a]) = true)
    (hw : x.warp? = some w) (hl : x.live = (l, t) :: rest) (hal : t.nat64 a.toNat % 64 = 0) (hh : x.heldLanes false false = [])
    (hfar : x.farUnits w (manifestUnits (t.nat64 a.toNat)) = .ok []) (hread : x.readWords w [] [] 96 0 (t.nat64 a.toNat) = .ok (ws, y))
    (hok : manifestOk (wordsBytes ws) = true) (hctl : isControl s.cur.core = false) :
    exec (.cmpman a d) s = .next (y.mapActive (fun _ t => t.set d.toNat (if t.helper then 0 else BitVec.ofNat 32
      (y.manifestDiff ((tget y.parts w.part).getD Part.idle) s.cur.core w.curSlot (y.launchSeed w) (wordsBytes ws))))).finish := by
  have hc : x.cur.core = s.cur.core := by rw [hx]; rfl
  rw [exec_cmpman]
  unfold execCmpman
  rw [issue_runs s _ _ hci, ← hx, hw, hl]
  dsimp only
  rw [hh, if_neg (by simp), if_neg (by simp [hal]), hfar]
  dsimp only
  unfold State.compareManifest
  dsimp only
  rw [hread]
  dsimp only
  rw [hok, hc, hctl]
  rfl

theorem lnch_run (s : State) (w : Warp) (a d : Reg) (good : List (Nat × Thread × Nat)) (x y : State)
    (hx : x = s.counted { Use.sysop [.one .vd d, .two .va a] with level := .supervisor, control := true, only := true })
    (hci : s.canIssue { Use.sysop [.one .vd d, .two .va a] with level := .supervisor, control := true, only := true } = true)
    (hw : x.warp? = some w) (hh : x.heldLanes true true = [])
    (hr : x.waitRefs w false 128 a.toNat x.live = (good.map (fun g => (g.1, g.2.1, .ok (.mem g.2.2))), y)) :
    exec (.lnch a d) s = .next (good.foldl (fun s g => s.launchOne w d.toNat g.1 (g.2.1.nat64 a.toNat) g.2.2)
      (y.mapActive (fun _ t => if t.helper then t.set d.toNat 0 else t))).finish := by
  rw [exec_lnch]
  unfold execLnch
  rw [issue_runs s _ _ hci, ← hx, hw]
  dsimp only
  rw [hh, if_neg (by simp), hr]
  dsimp only
  rw [List.filterMap_eq_nil_iff.mpr]
  · rw [List.foldl_map]
    rfl
  · intro q hq
    obtain ⟨g, -, rfl⟩ := List.mem_map.mp hq
    rfl

theorem chkp_run (s : State) (m : Nat) (a d : Reg) (l : Nat) (t : Thread) (x y : State)
    (hx : x = s.counted { Use.sysop [.one .vd d, .one .va a] with level := .supervisor, control := true })
    (hci : s.canIssue { Use.sysop [.one .vd d, .one .va a] with level := .supervisor, control := true } = true)
    (hy : y = x.mapActive (fun _ t => if t.helper then t.set d.toNat 0 else t)) (hl : y.live = [(l, t)])
    (did : Nat) (hdid : did = field (t.nat a.toNat) 15 0) :
    (∀ z v, y.chkpLane did m = (z, v, []) →
      chkp m a d s = .next (z.modWarp (fun w => w.mapLanes (maskOf [l]) (fun _ t => t.set d.toNat (v.getD 1)))).finish) ∧
    (∀ z v p ps, y.chkpLane did m = (z, v, p :: ps) →
      chkp m a d s = .next (((p :: ps).foldl (fun (z : State) p => z.modDomain p did (fun k => { k with
        askers := k.askers ++ [⟨s.cur.core, l, d.toNat, m, v⟩] })) z).modWarp (fun w =>
          w.mapLanes (maskOf [l]) (fun _ t => { t with wait := .domain }))).finish) := by
  have hc : x.cur.core = s.cur.core := by rw [hx]; rfl
  refine ⟨fun z v h => ?_, fun z v p ps h => ?_⟩
  · unfold chkp
    rw [issue_runs s _ _ hci, ← hx]
    dsimp only
    rw [← hy, hl, List.foldl_cons, List.foldl_nil]
    dsimp only
    rw [← hdid, h]
    rfl
  · unfold chkp
    rw [issue_runs s _ _ hci, ← hx]
    dsimp only
    rw [← hy, hl, List.foldl_cons, List.foldl_nil]
    dsimp only
    rw [← hdid, h, hc]
    rfl

/-- Settles O57: the registers, the sets, the invalidations and the rest, each by its own run. -/
theorem systemInstructions : Obligations.SystemInstructions := by
  intro s w
  refine ⟨?_, ?_, ?_, ?_, ?_, ?_, ?_⟩
  · intro r d lv hlv hwide
    refine ⟨?_, ?_⟩
    · intro u x hx hci hw
      exact srd_run s w r d lv hlv hwide x hx hci hw
    · intro hwr u x hx hci
      exact swr_run s r d lv hlv hwide hwr x hx hci
  · intro x hx hw hci
    refine ⟨?_, ?_⟩
    · intro set hset hslot hg ho hfirst
      exact xlock_run s x w set hx hw hci hset hslot hg ho hfirst
    · intro set hset ho hd
      exact xunlk_run s x w set hx hw hci hset ho hd
  · intro b a lv u x y hx hw hy hci hh
    refine ⟨?_, ?_, ?_⟩
    · intro hlv hit hfree
      subst hlv
      exact tlbinv_run s w b a x hx hw hci hh hit rfl hfree
    · intro hlv hva pages hpages
      subst hlv
      exact rotinv_run s w b a x y pages hx hw hy hci hh hva hpages
    · intro hlv
      subst hlv
      exact icinv_run s w b a x y hx hw hy hci hh
  · intro a l t rest x hx hci hl
    exact halt_run s a l t rest x hx hci hl
  · intro a d l t rest ws x y hx hci hw hl hal hh hfar hread hok hctl
    exact cmpman_run s w a d l t rest ws x y hx hci hw hl hal hh hfar hread hok hctl
  · intro a d good x y hx hci hw hh hr
    exact lnch_run s w a d good x y hx hci hw hh hr
  · intro a d l t x y i hi hx hci hw hy hl did hdid
    simp only [List.mem_cons, List.not_mem_nil, or_false] at hi
    obtain rfl | rfl | rfl := hi
    · exact chkp_run s 0 a d l t x y hx hci hy hl did hdid
    · exact chkp_run s 1 a d l t x y hx hci hy hl did hdid
    · exact chkp_run s 2 a d l t x y hx hci hy hl did hdid

end Sys2Proof.Machine
end

section
/-!
PROOFS. Events of engines, windows and the fabric: under the conditions that the statement names, each event's own case analysis comes
down to one branch.
-/

namespace Sys2Proof.Machine

/-! The matrix engines. -/

theorem next_matrixPass_granted (s x r : State) (m : MatCmd) (w : Warp) (hm : s.granted s.ev.cluster = some m)
    (hw : s.warpAt? m.core m.slot = some w) (hp : s.matPass s.ev.cluster m w = (.ok x, r)) :
    exec .matrixPass s = .next ((x.raiseMark s.ev.cluster m.id s.ev.num).settleTiles s.ev.cluster) := by
  simp only [exec_matrixPass, execMatrixPass, hm, hw, hp]

theorem next_matrixFault (s x : State) (m : MatCmd) (w : Warp) (c : Cause) (va : Nat) (hm : s.granted s.ev.cluster = some m)
    (hw : s.warpAt? m.core m.slot = some w) (hp : s.matPass s.ev.cluster m w = (.error (c, va), x)) :
    exec .matrixFault s = .next (((x.modCmd s.ev.cluster m.id (fun m => { m with stopped := true })).holdFault m.core m.slot
      (lateReport w c m.lane m.pc va m.id)).settleTiles s.ev.cluster) := by
  simp only [exec_matrixFault, execMatrixFault, hm, hw, hp]

theorem next_matrixPass_final (s : State) (k : Cluster) (hm : s.granted s.ev.cluster = none)
    (hk : tget s.clusters s.ev.cluster = some k) (hi : k.table.any (fun m => m.id == s.ev.id) = true) :
    exec .matrixPass s = .next ((s.raiseMark s.ev.cluster s.ev.id s.ev.num).settleTiles s.ev.cluster) := by
  simp only [exec_matrixPass, execMatrixPass, hm, hk, hi, if_true]

theorem next_mldbComplete (s : State) (m : MatCmd) (hm : s.doneCmd s.ev.cluster s.ev.id true = some m) :
    exec .mldbComplete s = .next (((s.modCluster s.ev.cluster (fun k =>
      { k with table := k.table.filter (fun x => x.id != m.id) })).completeEngine m.core m.slot 1 m.id).settleTiles s.ev.cluster) := by
  simp only [exec_mldbComplete, execMldbComplete, hm]

/-- A loop's command leaves the table, and the last one on its tile raises the watermark past row 63 (R214). -/
def State.loopDone (s : State) (cl : Nat) (m : MatCmd) : State :=
  s.modCluster cl (fun k =>
    let k1 := { k with table := k.table.filter (fun x => x.id != m.id) }
    match m.kind.tile with
    | some t => { k1 with tiles := k1.tiles.modify t (fun x => { x with mark := if k.later t m.id then x.mark else 64 }) }
    | none => k1)

theorem next_mloopComplete (s : State) (m : MatCmd) (hm : s.doneCmd s.ev.cluster s.ev.id false = some m) :
    exec .mloopComplete s = .next (((if m.flags = 0 then s.loopDone s.ev.cluster m
      else ((List.range 32).filter (laneIn m.lanes)).foldl (fun s n => s.giveFlags m.core m.slot n m.flags)
        (s.loopDone s.ev.cluster m)).completeEngine m.core m.slot 1 m.id).settleTiles s.ev.cluster) := by
  simp only [exec_mloopComplete, execMloopComplete, hm]
  rfl

/-! The transformed mean. -/

theorem next_tmldApply_ok (s x : State) (l : TmLoad) (w : Warp) (b : List Byte) (hl : s.loads.find? (fun l => l.id == s.ev.id) = some l)
    (hw : s.warpAt? l.core l.slot = some w) (hf : s.loads.find? (fun x => x.core == l.core && x.tslot == l.tslot) = some l)
    (hs : l.stopped = false) (hr : s.engineRead w false 2 l.addr 4096 = (.ok b, x)) (hb : (bytesWords b).all finite32 = true) :
    exec .tmldApply s = .next ((({ x with loads := x.loads.filter (fun z => z.id != l.id) } : State).modCore l.core (fun k =>
      { k with tms := tput k.tms l.tslot ⟨true, l.params.getD 0 0, l.params.getD 1 0, l.params.getD 2 0, l.params.getD 3 0,
        bytesWords b⟩ })).completeEngine l.core l.slot 7 l.id) := by
  simp only [exec_tmldApply, execTmldApply, hl, hw, hf, hs, hr, hb, bne_self_eq_false, Bool.or_self, Bool.false_eq_true, if_false, if_true]

theorem next_tmldApply_fault (s x : State) (l : TmLoad) (w : Warp) (c : Cause) (va : Nat)
    (hl : s.loads.find? (fun l => l.id == s.ev.id) = some l) (hw : s.warpAt? l.core l.slot = some w)
    (hf : s.loads.find? (fun x => x.core == l.core && x.tslot == l.tslot) = some l) (hs : l.stopped = false)
    (hr : s.engineRead w false 2 l.addr 4096 = (.error (c, va), x)) :
    exec .tmldApply s = .next (({ x with loads := x.loads.map (fun z => if z.id = l.id then { z with stopped := true } else z) } :
      State).holdFault l.core l.slot (lateReport w c l.lane l.pc va l.id)) := by
  simp only [exec_tmldApply, execTmldApply, hl, hw, hf, hs, hr, bne_self_eq_false, Bool.or_self, Bool.false_eq_true, if_false]

/-! Copy engines and their budget. -/

theorem next_copyEngineStart_units (s x : State) (c : CopyCmd) (hc : s.servedBy s.ev.engine = some c)
    (hu : s.copyUnits c.id s.ev.clocks s.ev.units = some x) : exec .copyEngineStart s = .next x := by
  simp only [exec_copyEngineStart, execCopyEngineStart, hc, hu]

theorem next_copyEngineStart_free (s : State) (c : CopyCmd) (hn : s.servedBy s.ev.engine = none)
    (hc : headCopy (s.waitingCopies s.ev.part) = some c) (he : s.engineFor c.part s.ev.engine = true)
    (hb : 0 < s.balance c.part) : exec .copyEngineStart s = .next (s.takeCopy s.ev.engine c) := by
  simp only [exec_copyEngineStart, execCopyEngineStart, hn, hc, he, hb, decide_true, Bool.and_self, if_true]

theorem next_budgetSuspend (s x : State) (c : CopyCmd) (hc : s.servedBy s.ev.engine = some c)
    (hp : s.putBack c s.ev.units s.ev.clocks = some x) (hb : x.balance c.part ≤ 0) : exec .budgetSuspend s = .next x := by
  simp only [exec_budgetSuspend, execBudgetSuspend, hc, hp, hb, if_true]

theorem next_priorityTakeover (s x : State) (c z : CopyCmd) (hc : s.servedBy s.ev.engine = some c)
    (hp : s.putBack c s.ev.units s.ev.clocks = some x) (hz : headCopy (s.waitingCopies s.ev.part) = some z)
    (hd : (s.displaced z).map (·.id) = some c.id) (hb : 0 < s.balance z.part) :
    exec .priorityTakeover s = .next (x.takeCopy s.ev.engine z) := by
  simp only [exec_priorityTakeover, execPriorityTakeover, hc, hz, hd, hp, hb, beq_self_eq_true, decide_true, Bool.and_self, if_true]

theorem next_budgetRefill (s : State) (ht : s.deckle.tick % 1000000 = 0) (hr : s.deckle.tick ≠ s.refilled) :
    exec .budgetRefill s = .next s.refill := by
  have h : s.refillDue = true := by simp [State.refillDue, ht, hr]
  simp only [exec_budgetRefill, execBudgetRefill, h, if_true]

theorem next_copyComplete (s x : State) (c : CopyCmd) (w : Warp) (n : Nat) (hc : s.copies.find? (fun c => c.id == s.ev.id) = some c)
    (hw : s.warpAt? c.core c.slot = some w) (he : c.engine = some n)
    (hu : s.copyUnits c.id s.ev.clocks (c.unitCount - c.units) = some x) (hd : x.copyDone c.id = true) (hf : x.doneFault c w = none)
    (hp : x.pushBlocked c = false) :
    exec .copyComplete s = .next (({ x.writeDone c w with copies := (x.writeDone c w).copies.filter (fun z => z.id != c.id) } :
      State).completeEngine c.core c.slot c.cls c.id) := by
  simp only [exec_copyComplete, execCopyComplete, hc, hw, hu, he, hd, hf, hp, Option.isNone_some, Option.isSome_none, Bool.not_true, Bool.or_self,
    Bool.false_eq_true, if_false]

theorem next_enginePageFault (s x : State) (c z : CopyCmd) (v : Warp) (m va : Nat) (f : Cause)
    (hc : s.copies.find? (fun c => c.id == s.ev.id) = some c) (hu : s.copyUnits c.id s.ev.clocks s.ev.units = some x)
    (hz : x.copies.find? (fun c => c.id == s.ev.id) = some z) (hv : x.warpAt? c.core c.slot = some v) (he : z.engine = some m)
    (hn : z.units < z.unitCount) (hf : x.unitFault z v (x.bothWindows z v) z.units = some (f, va)) :
    exec .enginePageFault s = .next ((x.modCopy z.id (fun c => { c with engine := none, stopped := true })).holdFault
      z.core z.slot (lateReport v f z.lane z.pc va z.id)) := by
  simp only [exec_enginePageFault, execEnginePageFault, hc, hu, hz, hv, he, hf, if_neg (Nat.not_le.mpr hn)]

/-! Stamped stores and reads. -/

/-- A held store has left. -/
def State.leaveHold (s : State) (h : Hold) : State :=
  { s with holds := s.holds.map (fun z => if z.id = h.id ∧ z.lane = h.lane then { z with left_ := true } else z) }

theorem next_ststHoldEnd_local (s : State) (h : Hold)
    (hh : s.holds.find? (fun h => h.id == s.ev.id && h.lane == s.ev.lane && !h.left_) = some h) (hf : s.deckle.fail = false)
    (he : h.stamp < s.deckle.early) (hr : h.remote = none) :
    exec .ststHoldEnd s = .next ((s.leaveHold h).wakeWarp h.core h.slot (fun w => w == .time)) := by
  simp only [exec_ststHoldEnd, execStstHoldEnd, hh, hf, hr, decide_eq_false (Nat.not_le.mpr he), Bool.or_self, Bool.false_eq_true, if_false]
  rfl

theorem next_ststHoldEnd_remote (s : State) (h : Hold) (w rpkg : Nat)
    (hh : s.holds.find? (fun h => h.id == s.ev.id && h.lane == s.ev.lane && !h.left_) = some h) (hf : s.deckle.fail = false)
    (he : h.stamp < s.deckle.early) (hr : h.remote = some (w, rpkg)) :
    exec .ststHoldEnd s = .next (((s.leaveHold h).sendPkt ⟨0, none, h.part, h.core, h.slot, h.lane, none,
      w, rpkg, h.addr, h.va, .stst h.stamp h.data, .time, s.pkg, s.keyOf h.part, s.nsOf h.part, false, false, false,
      some (5, h.id), none, false, false⟩).wakeWarp h.core h.slot (fun w => w == .time)) := by
  simp only [exec_ststHoldEnd, execStstHoldEnd, hh, hf, hr, decide_eq_false (Nat.not_le.mpr he), Bool.or_self, Bool.false_eq_true, if_false]
  rfl

theorem next_stampedArrival_own (s : State) (h : Hold) (hs : s.ev.sender = s.pkg)
    (hh : s.holds.find? (fun h => h.stamp == s.ev.num && h.left_ && h.remote.isNone) = some h) :
    exec .stampedArrival s = .next ((if (s.landing s.pkg h.stamp s.deckle.late).isNone
      then s.insertStamped h.addr h.stamp s.pkg h.data else s).endHold h (s.landing s.pkg h.stamp s.deckle.late)) := by
  simp only [exec_stampedArrival, execStampedArrival, State.landStamped, if_pos hs, hh]

theorem next_stampedArrival_other (s : State) (p : Nat) (q : Part) (hs : s.ev.sender ≠ s.pkg) (hd : s.ev.data.length = 16)
    (ha : s.ev.addr % 16 = 0) (hk : s.keyHolder s.ev.key = some (p, q)) (hz : q.sleep = 0)
    (hw : s.winAdmits p q s.ev.id2 s.ev.sender s.ev.flag s.ev.addr (rotType (s.rotEntry s.ev.addr) == 1) true false = true)
    (hl : s.landing s.ev.sender s.ev.num s.deckle.late = none) :
    exec .stampedArrival s = .next ((s.insertStamped s.ev.addr s.ev.num s.ev.sender s.ev.data).replyTo s.ev.sender [landCode none]) := by
  simp only [exec_stampedArrival, execStampedArrival, State.landStamped, hs, hd, ha, hk, hz, hw, hl, ne_eq, not_true_eq_false, or_self, if_false, bne_self_eq_false,
    Bool.false_eq_true, if_true, Option.isNone_none]

theorem next_stampedStoreOutcome (s : State) (p : Pkt) (h : Hold) (t : Nat) (b : List Byte) (hp : s.pktOut s.ev.id = some p)
    (hk : p.kind = .stst t b) (hh : s.holds.find? (fun h => h.left_ && p.cnt == some (5, h.id) && h.lane == p.lane) = some h) :
    exec .stampedStoreOutcome s = .next ((s.dropPkt p.id).endHold h (outcomeCause s.ev.outcome)) := by
  simp only [exec_stampedStoreOutcome, execStampedStoreOutcome, hp, Option.some_or, hk, hh]

section Ldat
variable (s x : State) (p : Pending) (lanes : List LdatLane) (dst : Nat) (next : Option Held) (z : LdatLane) (w : Warp)

theorem next_ldatServe_home (addr : Nat) (hp : s.pend.find? (fun p => p.id == s.ev.id) = some p) (hk : p.kind = .ldat lanes dst next)
    (hz : lanes.find? (fun x => x.lane == s.ev.lane) = some z) (hw : s.warpAt? p.core p.slot = some w)
    (hr : s.deckle.refuses = false) (he : z.tick + s.deckle.deltaRead < s.deckle.early)
    (hx : s.recRef w false z.va = (.ok ⟨addr, none⟩, x)) :
    exec .ldatServe s = .next ((x.commit p.core p.slot [⟨z.lane, ldatRegs dst (x.versionAt addr z.tick), 0⟩]).leaveQueue p z.lane) := by
  simp only [exec_ldatServe, execLdatServe, hp, hk, hz, hw, hr, hx, decide_eq_false (Nat.not_le.mpr he), Bool.or_self, Bool.false_eq_true, if_false]

theorem next_ldatServe_remote (addr win rpkg : Nat) (hp : s.pend.find? (fun p => p.id == s.ev.id) = some p)
    (hk : p.kind = .ldat lanes dst next) (hz : lanes.find? (fun x => x.lane == s.ev.lane) = some z)
    (hw : s.warpAt? p.core p.slot = some w) (hr : s.deckle.refuses = false) (he : z.tick + s.deckle.deltaRead < s.deckle.early)
    (hx : s.recRef w false z.va = (.ok ⟨addr, some (win, rpkg)⟩, x)) :
    exec .ldatServe s = .next ((x.setPend p.id (.ldat (lanes.filter (fun y => y.lane != z.lane)) dst next)).sendPkt ⟨0, some p.id,
      w.part, p.core, p.slot, z.lane, none, win, rpkg, addr, z.va, .ldat z.tick dst, .time, s.pkg, s.keyOf w.part, s.nsOf w.part,
      false, false, false, none, none, false, false⟩) := by
  simp only [exec_ldatServe, execLdatServe, hp, hk, hz, hw, hr, hx, decide_eq_false (Nat.not_le.mpr he), Bool.or_self, Bool.false_eq_true, if_false]

theorem next_ldatServe_fault (c : Cause) (hp : s.pend.find? (fun p => p.id == s.ev.id) = some p)
    (hk : p.kind = .ldat lanes dst next) (hz : lanes.find? (fun x => x.lane == s.ev.lane) = some z)
    (hw : s.warpAt? p.core p.slot = some w) (hr : s.deckle.refuses = false) (he : z.tick + s.deckle.deltaRead < s.deckle.early)
    (hx : s.recRef w false z.va = (.error c, x)) : exec .ldatServe s = .next (x.stopLdat p [z] c false) := by
  simp only [exec_ldatServe, execLdatServe, hp, hk, hz, hw, hr, hx, decide_eq_false (Nat.not_le.mpr he), Bool.or_self, Bool.false_eq_true, if_false]

end Ldat

/-! Windows. -/

theorem next_windowRequestArrival (s : State) (p : Nat) (q : Part) (hf : s.ev.op.fits = true)
    (hk : s.keyHolder s.ev.key = some (p, q)) (hz : q.sleep = 0) :
    exec .windowRequestArrival s = .next (if s.winAdmits p q s.ev.num s.ev.sender s.ev.flag s.ev.addr
      (s.ev.op.typeOk (rotType (s.rotEntry s.ev.addr))) s.ev.op.writes s.ev.op.reads
      then (s.winApply p s.ev.num s.ev.addr s.ev.op).1.replyTo s.ev.sender (s.winApply p s.ev.num s.ev.addr s.ev.op).2
      else s.refuseTo s.ev.sender) := by
  simp only [exec_windowRequestArrival, execWindowRequestArrival, hf, hk, hz, Bool.not_true, Bool.false_eq_true, if_false, bne_self_eq_false]
  split <;> rfl

theorem next_windowRequestArrival_asleep (s : State) (p : Nat) (q : Part) (hf : s.ev.op.fits = true)
    (hk : s.keyHolder s.ev.key = some (p, q)) (hz : q.sleep ≠ 0) : exec .windowRequestArrival s = .next
      (({ s with asleep := s.asleep ++ [(p, Turn.event .windowRequestArrival s.ev)] } : State).wakePart p) := by
  simp only [exec_windowRequestArrival, execWindowRequestArrival, hf, hk, Bool.not_true, Bool.false_eq_true, if_false, bne_iff_ne.mpr hz, if_true]

theorem next_windowRequestArrival_missed (s : State) (hf : s.ev.op.fits = true) (hk : s.keyHolder s.ev.key = none) :
    exec .windowRequestArrival s = .next (s.keyMissed s.ev.port s.ev.sender) := by
  simp only [exec_windowRequestArrival, execWindowRequestArrival, hf, hk, Bool.not_true, Bool.false_eq_true, if_false]

theorem next_windowAck_write (s : State) (p : Pkt) (data : List Byte) (k n : Nat) (hp : s.pktOut s.ev.id = some p)
    (hk : p.kind = .write data) (hc : p.cnt = some (k, n)) : exec .windowAck s = .next
      ((((s.dropPkt p.id).winAdd p.part p.w false data.length).settleCount p.core p.slot k n).wakeFor p) := by
  simp only [exec_windowAck, execWindowAck, hp, hk, hc]

theorem next_windowRefusal_write (s : State) (p : Pkt) (data : List Byte) (k n : Nat) (hp : s.pktOut s.ev.id = some p)
    (hk : p.kind = .write data) (hc : p.cnt = some (k, n)) (hm : p.cmd = none) : exec .windowRefusal s = .next
      ((((s.dropPkt p.id).deferWindow p n 3).settleCount p.core p.slot k n).wakeFor p) := by
  simp only [exec_windowRefusal, execWindowRefusal, State.refusePkt, hp, hk, hc, hm]

theorem next_windowReadReturn_read (s : State) (p : Pkt) (size dst : Nat) (acq : Bool) (hp : s.pktOut s.ev.id = some p)
    (hk : p.kind = .read size dst acq) (hm : p.cmd = none) (hd : s.ev.data.length = size) : exec .windowReadReturn s = .next
      ((((s.dropPkt p.id).answer p (loadRegs dst s.ev.data) 0).acquireFor p acq).wakeFor p) := by
  simp only [exec_windowReadReturn, execWindowReadReturn, hp, hk, hm, hd, bne_self_eq_false, Bool.false_eq_true, if_false]

theorem next_windowReadReturn_atom (s : State) (p : Pkt) (op : AtomOp) (v v2 : BitVec 64) (rm : Rm) (cn : Bool) (dst : Nat) (acq : Bool)
    (hp : s.pktOut s.ev.id = some p) (hk : p.kind = .atom op v v2 rm cn dst acq) (hd : s.ev.data.length = op.size) :
    exec .windowReadReturn s = .next
      ((((s.dropPkt p.id).answer p (loadRegs dst s.ev.data) s.ev.flags).acquireFor p acq).wakeFor p) := by
  simp only [exec_windowReadReturn, execWindowReadReturn, hp, hk, hd, bne_self_eq_false, Bool.false_eq_true, if_false]

/-! The fabric. -/

/-- A packet of another package is passed on, by a port or held. -/
def State.hop (s : State) (port : Option Nat) : State :=
  { s with nextId := s.nextId + 1, fabric := { s.fabric with
    hops := (match port with | some q => (s.ev.named, q) :: s.fabric.hops | none => s.fabric.hops)
    transit := s.fabric.transit ++ [⟨s.nextId, s.ev.named, s.ev.sender, s.ev.cls, s.ev.flag, s.ev.addr, port, false⟩] } }

theorem next_packetHop_none (s : State) (hf : s.ev.flag2 = false) (hn : s.ev.named ≠ s.pkg)
    (hl : s.fabric.openPorts s.ev.flag s.ev.named = []) : exec .packetHop s = .next (s.refuseTo s.ev.sender) := by
  simp only [exec_packetHop, execPacketHop, hf, Bool.false_eq_true, if_false, if_neg hn, hl, List.isEmpty_nil, if_true]

theorem next_packetHop_any (s : State) (hf : s.ev.flag2 = false) (hn : s.ev.named ≠ s.pkg) (hc : s.ev.cls ≠ .ordered)
    (hl : s.ev.port ∈ s.fabric.openPorts s.ev.flag s.ev.named) : exec .packetHop s = .next (s.hop (some s.ev.port)) := by
  simp only [exec_packetHop, execPacketHop, hf, Bool.false_eq_true, if_false, if_neg hn, if_neg hc,
    isEmpty_of_ne_nil (List.ne_nil_of_mem hl), List.contains_iff_mem, if_pos hl]
  rfl

theorem next_packetHop_ordered (s : State) (hf : s.ev.flag2 = false) (hn : s.ev.named ≠ s.pkg) (hc : s.ev.cls = .ordered)
    (hl : s.fabric.openPorts s.ev.flag s.ev.named ≠ []) : exec .packetHop s = .next (s.hop
      (if s.heldBehind s.ev.named then none else s.fabric.orderedPort s.ev.flag s.ev.named s.ev.addr)) := by
  simp only [exec_packetHop, execPacketHop, hf, Bool.false_eq_true, if_false, if_neg hn, isEmpty_of_ne_nil hl]
  rw [if_pos hc]
  rfl

theorem next_packetHop_acked (s x : State) (hf : s.ev.flag2 = true) (hx : s.hopAcked s.ev.id = some x) :
    exec .packetHop s = .next x := by
  simp only [exec_packetHop, execPacketHop, hf, if_true, hx]

theorem next_flitCrcFail (s : State) (hp : s.ev.port < 16) (hu : s.fabric.ports.getLsbD s.ev.port = true) :
    exec .flitCrcFail s = if s.ev.flag = false then .next { s with
        fabric := { s.fabric with retries := s.fabric.retries.set s.ev.port 0 }
        element := { s.element with corrections := s.element.corrections + 1 } }
      else if 16 ≤ s.fabric.retries.getD s.ev.port 0 + 1 then .next (s.portDown s.ev.port s.ev.named)
      else .next { s with fabric := { s.fabric with
        retries := s.fabric.retries.set s.ev.port (s.fabric.retries.getD s.ev.port 0 + 1) } } := by
  simp only [exec_flitCrcFail, execFlitCrcFail, hu, Nat.not_le.mpr hp, Bool.not_true, Bool.false_eq_true, or_self, if_false, Bool.not_eq_true']

theorem next_linkDown (s : State) (hp : s.ev.port < 16) (hu : s.fabric.ports.getLsbD s.ev.port = true) :
    exec .linkDown s = .next (s.portDown s.ev.port s.ev.named) := by
  simp only [exec_linkDown, execLinkDown, hu, Nat.not_le.mpr hp, Bool.not_true, Bool.false_eq_true, or_self, if_false]

theorem next_portUp (s : State) (hp : s.ev.port < 16) (hu : s.fabric.ports.getLsbD s.ev.port = false) :
    exec .portUp s = .next (({ s with fabric := { s.fabric with
      ports := s.fabric.ports ||| (1#16 <<< s.ev.port) } } : State).logNotice 6 s.ev.port s.pkg s.pkg) := by
  simp only [exec_portUp, execPortUp, hu, Nat.not_le.mpr hp, Bool.false_eq_true, or_self, if_false]

/-- Settles O58: each clause is one event's branch, under the conditions that the clause names. -/
theorem engineAndFabricEvents : Obligations.EngineAndFabricEvents := by
  unfold Obligations.EngineAndFabricEvents
  rintro s x y e rfl
  refine ⟨fun m w r hm hw => ⟨next_matrixPass_granted s x r m w hm hw, fun c va => next_matrixFault s x m w c va hm hw⟩,
    fun k => next_matrixPass_final s k, fun m => next_mldbComplete s m, ?loop, ?tmld, ?serve, fun c => next_copyEngineStart_free s c,
    next_budgetRefill s, ?copies, ?hold, ?own, fun p q => next_stampedArrival_other s p q,
    fun p h t b hp hk => next_stampedStoreOutcome s p h t b hp hk, ?ldat, ?window,
    fun p q => next_windowRequestArrival_asleep s p q, next_windowRequestArrival_missed s, ?write,
    fun p size dst acq => next_windowReadReturn_read s p size dst acq,
    fun p op v v2 rm cn dst acq => next_windowReadReturn_atom s p op v v2 rm cn dst acq, ?hop, next_packetHop_acked s x, ?flit,
    next_portUp s, rfl⟩
  case loop =>
    rintro m hm rfl
    exact next_mloopComplete s m hm
  case tmld =>
    intro l w hl hw hf hs
    refine ⟨?_, fun c va => next_tmldApply_fault s x l w c va hl hw hf hs⟩
    rintro b _ hr hb rfl
    exact next_tmldApply_ok s x l w b hl hw hf hs hr hb
  case serve =>
    intro c hc
    exact ⟨next_copyEngineStart_units s x c hc, fun hp => ⟨next_budgetSuspend s x c hc hp,
      fun z => next_priorityTakeover s x c z hc hp⟩⟩
  case copies =>
    intro c w n hc hw he
    refine ⟨?_, fun z v f va m hu hz hv => next_enginePageFault s x c z v m va f hc hu hz hv⟩
    rintro hu hd hf hp rfl
    exact next_copyComplete s x c w n hc hw he hu hd hf hp
  case hold =>
    rintro h hh hf he rfl
    exact ⟨next_ststHoldEnd_local s h hh hf he, fun w rpkg => next_ststHoldEnd_remote s h w rpkg hh hf he⟩
  case own =>
    intro h hs hh
    have hx := next_stampedArrival_own s h hs hh
    refine ⟨fun hl => ?_, fun c hl => ?_⟩
    · rw [hx, hl]
      rfl
    · rw [hx, hl]
      rfl
  case ldat =>
    intro p lanes dst next z w hp hk hz hw hr he
    exact ⟨fun addr => next_ldatServe_home s x p lanes dst next z w addr hp hk hz hw hr he,
      fun addr win rpkg => next_ldatServe_remote s x p lanes dst next z w addr win rpkg hp hk hz hw hr he,
      fun c => next_ldatServe_fault s x p lanes dst next z w c hp hk hz hw hr he⟩
  case window =>
    intro p q hf hk hz
    have hx := next_windowRequestArrival s p q hf hk hz
    exact ⟨fun ha => by rw [hx, if_pos ha], fun ha => by rw [hx, ha]; rfl⟩
  case write =>
    intro p data k n hp hk hc hm
    exact ⟨next_windowAck_write s p data k n hp hk hc, next_windowRefusal_write s p data k n hp hk hc hm⟩
  case hop =>
    intro hf hn
    exact ⟨next_packetHop_none s hf hn, next_packetHop_any s hf hn, next_packetHop_ordered s hf hn⟩
  case flit =>
    intro hp hu
    have hx := next_flitCrcFail s hp hu
    refine ⟨fun hf => ?_, fun hf hr => ?_, fun hf hr => ?_, next_linkDown s hp hu⟩
    · rw [hx, if_pos hf]
    · rw [hx, if_neg (by simp [hf]), if_neg (by omega)]
    · rw [hx, if_neg (by simp [hf]), if_pos (by omega)]

end Sys2Proof.Machine
end

section
/-!
PROOFS. Events of traps, registers, domains and launches: under the conditions that the statement names, each event's own case
analysis comes down to one branch.
-/

namespace Sys2Proof.Machine

/-! Bundles and reports. -/

theorem next_bundleRegroup (s : State) (w : Warp) (hw : s.warpAt? s.ev.core s.ev.slot = some w) :
    exec .bundleRegroup s = .next (s.modWarpAt s.ev.core s.ev.slot Warp.regroup) := by
  simp only [exec_bundleRegroup, execBundleRegroup, hw]

theorem next_fpxWindowEnd (s : State) (w : Warp) (hw : s.warpAt? s.ev.core s.ev.slot = some w) (hc : w.collecting = true) :
    exec .fpxWindowEnd s = .next ((s.modWarpAt s.ev.core s.ev.slot Warp.collectFpx).deliverPending s.ev.core s.ev.slot) := by
  simp only [exec_fpxWindowEnd, execFpxWindowEnd, hw, hc, if_true]

section Reports
variable (s : State) (w : Warp) (r : Report) (rest : List Report)

theorem readyReport_some (c k : Nat) (hw : s.warpAt? c k = some w) (hs : w.susp = none) (hf : s.inFlight c k = false)
    (hp : w.pendingTraps = r :: rest) : s.readyReport c k = some r := by
  simp only [State.readyReport, hw, hs, hf, hp, Option.isSome_none, Bool.or_self, Bool.false_eq_true, if_false, List.head?_cons]

theorem deliverPending_cons (c k : Nat) (hw : s.warpAt? c k = some w) (hs : w.susp = none) (hf : s.inFlight c k = false)
    (hp : w.pendingTraps = r :: rest) :
    s.deliverPending c k = (s.modWarpAt c k (fun w => { w with pendingTraps := rest })).deliver c k r r.lanes := by
  simp only [State.deliverPending, hw, hs, hf, hp, Option.isSome_none, Bool.or_self, Bool.false_eq_true, if_false]

theorem next_userTrapDelivery (hr : s.readyReport s.ev.core s.ev.slot = some r) (hu : r.super = false) :
    exec .userTrapDelivery s = .next (s.deliverPending s.ev.core s.ev.slot) := by
  simp only [exec_userTrapDelivery, execUserTrapDelivery, hr, hu, Bool.false_eq_true, if_false]

theorem next_faultRecordPost (hr : s.readyReport s.ev.core s.ev.slot = some r) (hu : r.super = true) :
    exec .faultRecordPost s = .next (s.deliverPending s.ev.core s.ev.slot) := by
  simp only [exec_faultRecordPost, execFaultRecordPost, hr, hu, if_true]

end Reports

theorem next_faultRecordPost_held (s : State) (q : Part) (hr : s.readyReport s.ev.core s.ev.slot = none)
    (hq : tget s.parts s.ev.part = some q) (hh : q.heldRecs ≠ []) (hv : s.queueValid s.ev.part q = true)
    (hm : q.queueRoom = true) : exec .faultRecordPost s = .next (s.postHeld s.ev.part) := by
  simp only [exec_faultRecordPost, execFaultRecordPost, hr, hq, isEmpty_of_ne_nil hh, hv, hm, Bool.not_false, Bool.and_self, if_true]

/-! The actions of TSTAT. -/

section Tstat
variable (s : State) (w : Warp) (u : Susp)

theorem next_tstatResume (hw : s.warpAt? s.ev.core s.ev.slot = some w) (hu : w.susp = some u) (ho : u.report.op = none) :
    exec .tstatResume s = .next (s.unsuspend s.ev.core s.ev.slot (fun w => ((w.mapLanes u.mask (fun _ t =>
      if t.exited then t else { t with pc := u.report.pc, wait := .run })).splitAll (s.cycle + 1)).release (s.cycle + 1))) := by
  simp only [exec_tstatResume, execTstatResume, State.orSame, State.tstatResume, hw, Option.bind_some, hu, ho, Option.getD_some]

theorem next_tstatResume_op (n : Nat) (hw : s.warpAt? s.ev.core s.ev.slot = some w) (hu : w.susp = some u)
    (ho : u.report.op = some n) : exec .tstatResume s = .next ((s.unsuspend s.ev.core s.ev.slot id).replay n) := by
  simp only [exec_tstatResume, execTstatResume, State.orSame, State.tstatResume, hw, Option.bind_some, hu, ho, Option.getD_some]
  rfl

theorem next_tstatSkip (hw : s.warpAt? s.ev.core s.ev.slot = some w) (hu : w.susp = some u) (ho : u.report.op = none) :
    exec .tstatSkip s = .next (s.unsuspend s.ev.core s.ev.slot (fun z => ((z.mapLanes u.mask (fun _ t =>
      if t.exited then t else t.skip u.report.rem u.report.pc (s.skipPc s.ev.core w u.report.pc))).splitAll (s.cycle + 1)).release
        (s.cycle + 1))) := by
  simp only [exec_tstatSkip, execTstatSkip, State.orSame, State.tstatSkip, hw, hu, ho, Option.getD_some]

theorem next_tstatSkip_op (n : Nat) (hw : s.warpAt? s.ev.core s.ev.slot = some w) (hu : w.susp = some u)
    (ho : u.report.op = some n) :
    exec .tstatSkip s = .next ((s.unsuspend s.ev.core s.ev.slot id).giveUp s.ev.core s.ev.slot n u.report none) := by
  simp only [exec_tstatSkip, execTstatSkip, State.orSame, State.tstatSkip, hw, hu, ho, Option.getD_some]
  rfl

theorem next_tstatDeliver (c : Cause) (hw : s.warpAt? s.ev.core s.ev.slot = some w) (hu : w.susp = some u)
    (ho : u.report.op = none) (hc : Cause.ofCode s.ev.num = some c) (hs : c.isSuper = false) (hn : c ≠ .compat) :
    exec .tstatDeliver s = .next ((s.unsuspend s.ev.core s.ev.slot id).deliverLater s.ev.core s.ev.slot
      { u.report with cause := c, super := !w.gates.isEmpty, orig := 0, lanes := u.mask, posted := false }) := by
  simp only [exec_tstatDeliver, execTstatDeliver, State.orSame, State.tstatDeliver, hw, hu, ho, hc, hs, beq_eq_false_iff_ne.mpr hn,
    Bool.or_self, Bool.false_eq_true, if_false, Option.getD_some]
  rfl

theorem next_tstatEndLaunch (b : Block) (hw : s.warpAt? s.ev.core s.ev.slot = some w) (hu : w.susp = some u)
    (hb : tget s.blocks w.block = some b) :
    exec .tstatEndLaunch s = .next ((s.unsuspend s.ev.core s.ev.slot id).abortLaunch b.launch) := by
  simp only [exec_tstatEndLaunch, execTstatEndLaunch, State.orSame, State.tstatEnd, hw, hu, hb, Option.getD_some]
  rfl

end Tstat

/-! A partition's queue of records. -/

section Queue
variable (s : State) (q : Part) (hq : tget s.parts s.ev.part = some q) (hv : q.valid = true)
  (hp : s.partOf (576 + 2 * s.ev.part) = some s.ev.part)
include hq hv hp

theorem next_fqheadWrite : exec .fqheadWrite s =
    .next ((s.modPart s.ev.part (fun q => { q with fqhead := s.ev.word })).postAll s.ev.part q.heldRecs.length) := by
  simp [exec_fqheadWrite, execFqheadWrite, State.partWrite, hq, hv, State.orSame, State.writeCoreReg, hp, regWide]

theorem next_fqbaseWrite : exec .fqbaseWrite s = .next ((s.modPart s.ev.part (fun q =>
    if s.ev.flag then { q with fqhi := s.ev.word &&& 0xFFF } else { q with fqlo := s.ev.word })).postAll s.ev.part
      q.heldRecs.length) := by
  cases hf : s.ev.flag <;>
  simp [exec_fqbaseWrite, execFqbaseWrite, State.partWrite, hq, hv, State.orSame, State.writeCoreReg, hp, regWide, hf]

theorem next_fqsizeWrite : exec .fqsizeWrite s = .next (
    if field s.ev.word.toNat 4 0 < 4 ∨ 16 < field s.ev.word.toNat 4 0 then s
    else (s.modPart s.ev.part (fun q => { q with fqsize := BitVec.ofNat 32 (field s.ev.word.toNat 4 0) })).postAll s.ev.part
      q.heldRecs.length) := by
  by_cases hz : field s.ev.word.toNat 4 0 < 4 ∨ 16 < field s.ev.word.toNat 4 0 <;>
  simp [exec_fqsizeWrite, execFqsizeWrite, State.partWrite, hq, hv, State.orSame, State.writeCoreReg, hp, regWide, hz]

end Queue

theorem next_migctlSwitch (s : State) (q : Part) (hq : tget s.parts s.ev.part = some q) :
    exec .migctlSwitch s = .next (s.modPart s.ev.part (fun q =>
      q.writeMigctl (BitVec.ofNat 32 ((if q.migEn then 1 else 0) + 4 + 256 * q.migLog)))) := by
  simp only [exec_migctlSwitch, execMigctlSwitch, hq]

/-! Registers. -/

section Lane
variable (s : State) (t : Thread) (ht : s.thread? s.ev.core s.ev.slot s.ev.lane = some t)
include ht

theorem meetvWrite_running (hx : t.exited = false) : s.meetvWrite =
    .next (s.modWarpAt s.ev.core s.ev.slot (fun w => w.setMeetv s.ev.lane s.ev.word (s.cycle + 1))) := by
  unfold State.thread? at ht
  simp only [State.meetvWrite, ht, hx, Bool.false_eq_true, if_false]

theorem next_registerWrite_lane (h1 : s.ev.num < 0x080) (h2 : s.ev.num ≠ 0x042) (h3 : s.ev.num ≠ 0x013)
    (h4 : s.ev.num ≠ 0x014) : exec .registerWrite s = .next ((t.writeReg s.ev.num s.ev.word).elim s
      (fun y => s.modWarpAt s.ev.core s.ev.slot (fun w => { w with threads := tput w.threads s.ev.lane y }))) := by
  unfold State.thread? at ht
  simp only [exec_registerWrite, execRegisterWrite, if_neg h2, if_neg h3, if_neg h4, if_pos h1, ht]
  cases t.writeReg s.ev.num s.ev.word <;> rfl

end Lane

theorem next_registerWrite_meetv (s : State) (h : s.ev.num = 0x014) : exec .registerWrite s = s.meetvWrite := by
  simp only [exec_registerWrite, execRegisterWrite, h, Nat.reduceEqDiff, if_false, if_true]

theorem next_registerWrite_partn (s : State) (w : Warp) (h : s.ev.num = 0x013) (hw : s.warpAt? s.ev.core s.ev.slot = some w) :
    exec .registerWrite s = .next (if partnOk s.ev.word then
      s.modWarpAt s.ev.core s.ev.slot (fun w => { w with partn := s.ev.word &&& 7 }) else s) := by
  simp only [exec_registerWrite, execRegisterWrite, h, Nat.reduceEqDiff, if_false, if_true, hw]
  split <;> rfl

theorem next_registerWrite_lattol (s : State) (q : Part) (h : s.ev.num = 0x042) (hq : tget s.parts s.ev.part = some q) :
    exec .registerWrite s = .next (s.modPart s.ev.part (fun q => { q with lattol := s.ev.word })) := by
  simp only [exec_registerWrite, execRegisterWrite, h, if_true, hq]

theorem next_registerWrite_core (s : State) (h : 0x080 ≤ s.ev.num) : exec .registerWrite s =
    .next ((s.writeCoreReg s.ev.core false s.ev.num s.ev.value).getD s) := by
  simp only [exec_registerWrite, execRegisterWrite, if_neg (show ¬s.ev.num = 0x042 by omega),
    if_neg (show ¬s.ev.num = 0x013 by omega), if_neg (show ¬s.ev.num = 0x014 by omega),
    if_neg (show ¬s.ev.num < 0x080 by omega), State.orSame]

theorem next_dpartWrite (s : State) (hk : s.ev.slot < 4) (hc : isControl s.ev.core = false) :
    exec .dpartWrite s = .next ((s.writeDpart s.ev.core s.ev.slot s.ev.value).getD s) := by
  simp only [exec_dpartWrite, execDpartWrite, Nat.not_le.mpr hk, hc, Bool.false_eq_true, or_self, if_false, State.orSame]

theorem next_eothiWrite (s : State) (h : s.ev.num < 12) :
    exec .eothiWrite s = .next (s.putPart s.ev.num (fun q => { q with eot := q.eot.setBudget s.ev.word })) := by
  simp only [exec_eothiWrite, execEothiWrite, Nat.not_le.mpr h, if_false]

/-! Domains. -/

section Domains
variable (s : State)

theorem next_checkpointDue (ho : (s.domain s.ev.part s.ev.did).out = false) (hd : (s.domain s.ev.part s.ev.did).due = false)
    (hk : s.ckDue s.ev.part s.ev.did = true) : exec .checkpointDue s = .next ((s.modDomain s.ev.part s.ev.did (fun d =>
      { d with due := true, dueAt := s.deckle.early })).stopDomain s.ev.part s.ev.did) := by
  simp only [exec_checkpointDue, execCheckpointDue, ho, hd, hk, Bool.not_true, Bool.or_self, Bool.false_eq_true, if_false]

theorem next_checkpointSave (hd : (s.domain s.ev.part s.ev.did).due = true) (hq : s.quiet s.ev.part s.ev.did = true) :
    exec .checkpointSave s = .next (s.takeCheckpoint s.ev.part s.ev.did) := by
  simp only [exec_checkpointSave, execCheckpointSave, hd, hq, Bool.and_self, if_true]

theorem next_preemptRollback (hl : s.mayLeave s.ev.part s.ev.did = true) (hm : (s.domain s.ev.part s.ev.did).mark = false)
    (hg : s.gateOpen s.ev.part s.ev.did = false) : exec .preemptRollback s = .next (s.rollback s.ev.part s.ev.did) := by
  simp only [exec_preemptRollback, execPreemptRollback, hl, hm, hg, Bool.not_false, Bool.and_self, if_true]

theorem next_preemptDrain (hl : s.mayLeave s.ev.part s.ev.did = true)
    (hm : ((s.domain s.ev.part s.ev.did).mark || s.gateOpen s.ev.part s.ev.did) = true) :
    exec .preemptDrain s = .next (s.drainDomain s.ev.part s.ev.did) := by
  simp only [exec_preemptDrain, execPreemptDrain, hl, hm, Bool.and_self, if_true]

end Domains

/-! Launches. -/

theorem next_dispatchPlace (s x : State) (q : Part) (hq : tget s.parts s.ev.part = some q) (hs : q.starts = true)
    (hx : s.placeFirst [] (s.heads s.ev.part) = some x) : exec .dispatchPlace s = .next x := by
  simp only [exec_dispatchPlace, execDispatchPlace, hq, hs, hx, Bool.not_true, Bool.false_eq_true, if_false]

/-- A warp that has done leaves its slot, and its launch keeps the latest tick (R143). -/
def State.leaveWarp (s : State) (w : Warp) (launch : Nat) : State :=
  (({ s with launches := tmod s.launches launch (fun l => { l with lastTick := max l.lastTick w.lastTick }) } : State).dropSet
    s.ev.core s.ev.slot).modCore s.ev.core (fun k => { k with warps := tdel k.warps s.ev.slot })

theorem next_warpEnd (s x : State) (w : Warp) (hw : s.warpAt? s.ev.core s.ev.slot = some w) (hc : isControl s.ev.core = false)
    (hd : s.warpDone s.ev.core s.ev.slot w = true)
    (hx : x = s.leaveWarp w (((tget s.blocks w.block).map (·.launch)).getD 0)) :
    exec .warpEnd s = .next (if (x.core s.ev.core).warps.any (fun y => y.2.block == w.block) then x else x.endBlock w.block) := by
  subst hx
  simp only [exec_warpEnd, execWarpEnd, hw, hc, hd, Bool.not_true, Bool.or_self, Bool.false_eq_true, if_false]
  cases tget s.blocks w.block <;> rfl

section Complete
variable (s : State) (k l : Launch) (hk : tget s.launches s.ev.launch = some k)
  (hl : tget (s.settleCores k).launches s.ev.launch = some l) (hn : l.total ≤ l.next) (he : l.total ≤ l.ended)
include hk hl hn he

theorem next_launchComplete (hp : l.phase = .running) : exec .launchComplete s =
    .next (if l.det then (s.settleCores k).compareDigest s.ev.launch l
      else (s.settleCores k).concludeLaunch s.ev.launch l 0x03 true) := by
  simp only [exec_launchComplete, execLaunchComplete, hk, hl, Option.getD_some, Nat.not_lt.mpr hn, Nat.not_lt.mpr he, or_self,
    if_false, hp]

theorem next_launchComplete_serial (u : Nat) (hp : l.phase = .serial u) : exec .launchComplete s =
    .next (if l.digest = l.recorded then (s.settleCores k).concludeLaunch s.ev.launch l 0x04 true
      else (s.settleCores k).concludeLaunch s.ev.launch l 0x16 false) := by
  simp only [exec_launchComplete, execLaunchComplete, hk, hl, Option.getD_some, Nat.not_lt.mpr hn, Nat.not_lt.mpr he, or_self,
    if_false, hp]

end Complete

section Serial
variable (s x : State) (l : Launch) (u : Nat) (hl : tget s.launches s.ev.launch = some l) (hp : l.phase = .serial u)
include hl hp

theorem next_serialUnitStart (q : Part) (hq : tget s.parts l.part = some q) (hs : q.starts = true) (he : l.ended = u * l.unit)
    (hu : u * l.unit < l.total) (hx : (s.settleCores l).placeUnit s.ev.launch l l.unit (u * l.unit) = some x) :
    exec .serialUnitStart s =
      .next { x with launches := tmod x.launches s.ev.launch (fun y => { y with phase := .serial (u + 1) }) } := by
  simp only [exec_serialUnitStart, execSerialUnitStart, hl, hp, hq, hs, he, decide_eq_false (Nat.not_le.mpr hu), hx, Bool.not_true,
    bne_self_eq_false, Bool.or_self, Bool.false_eq_true, if_false]

theorem next_serialStall (hb : s.blocksOf s.ev.launch ≠ []) (hq : s.quietFor s.ev.launch (s.stallLimit l.part) = true)
    (hx : x = ((s.endBlocks (s.blocksOf s.ev.launch)).drain (fun r => (r.part == l.part && r.did == l.did) ||
      r.from_.any (fun f => (l.placed.map (·.2)).contains f.1))).settleCores l) :
    exec .serialStall s = .next ((if ((tget x.launches s.ev.launch).getD l).fixed then x
      else x.undoLaunch ((tget x.launches s.ev.launch).getD l)).concludeLaunch s.ev.launch l 0x17 false) := by
  subst hx
  simp only [exec_serialStall, execSerialStall, hl, hp, isEmpty_of_ne_nil hb, hq, Bool.not_true, Bool.or_self, Bool.false_eq_true,
    if_false]

end Serial

/-- Settles O59: each clause is one event's branch, under the conditions that the clause names. -/
theorem domainAndRegisterEvents : Obligations.DomainAndRegisterEvents := by
  unfold Obligations.DomainAndRegisterEvents
  rintro s x e rfl
  refine ⟨?warp, fun q => next_faultRecordPost_held s q, ?queue, ?lane, fun w h => next_registerWrite_partn s w h,
    fun q h => next_registerWrite_lattol s q h, next_registerWrite_core s, next_dpartWrite s, exec_partcfgWrite s, next_eothiWrite s,
    ?announce, next_checkpointDue s, next_checkpointSave s, fun hl => ⟨next_preemptRollback s hl, next_preemptDrain s hl⟩, ?place,
    ?ends, ?complete, ?serial⟩
  case warp =>
    intro w hw
    refine ⟨fun hc => ⟨next_bundleRegroup s w hw, by simp only [Warp.regroup, hc, Bool.false_eq_true, if_false]⟩,
      fun hc => ⟨next_bundleRegroup s w hw, by simp only [Warp.regroup, hc, if_true]; rfl⟩, next_fpxWindowEnd s w hw, ?_, ?_⟩
    · intro r rest hs hf hp i hi hr
      have hready := readyReport_some s w r rest _ _ hw hs hf hp
      rw [← deliverPending_cons s w r rest _ _ hw hs hf hp]
      simp only [List.mem_cons, List.not_mem_nil, or_false] at hi
      obtain rfl | rfl := hi
      · exact next_userTrapDelivery s r hready hr
      · exact next_faultRecordPost s r hready hr
    · intro u hu
      exact ⟨fun ho => ⟨next_tstatResume s w u hw hu ho, next_tstatSkip s w u hw hu ho,
          fun c => next_tstatDeliver s w u c hw hu ho⟩,
        fun n ho => ⟨next_tstatResume_op s w u n hw hu ho, next_tstatSkip_op s w u n hw hu ho⟩,
        fun b => next_tstatEndLaunch s w u b hw hu⟩
  case queue =>
    intro q hq hv hp
    exact ⟨next_fqheadWrite s q hq hv hp, next_fqbaseWrite s q hq hv hp, next_fqsizeWrite s q hq hv hp, next_migctlSwitch s q hq⟩
  case lane =>
    intro t ht
    refine ⟨meetvWrite_running s t ht, fun hx hn => (next_registerWrite_meetv s hn).trans (meetvWrite_running s t ht hx), ?_⟩
    intro h1 h2 h3 h4
    have hx := next_registerWrite_lane s t ht h1 h2 h3 h4
    exact ⟨fun y hy => by rw [hx, hy]; rfl, fun hy => by rw [hx, hy]; rfl⟩
  case announce =>
    intro i hi
    simp only [List.mem_cons, List.not_mem_nil, or_false] at hi
    obtain rfl | rfl := hi
    · exact exec_epsmaxsetWrite s
    · exact exec_dlvbsetWrite s
  case place =>
    intro q hq h1 h2 h3 h4
    exact next_dispatchPlace s x q hq (by simp [Part.starts, h1, h2, h3, h4])
  case ends =>
    intro w hw hc hd hx
    refine next_warpEnd s x w hw hc hd (hx.trans ?_)
    cases tget s.blocks w.block <;> rfl
  case complete =>
    rintro k l hk rfl hl hn he
    exact ⟨next_launchComplete s k l hk hl hn he, next_launchComplete_serial s k l hk hl hn he⟩
  case serial =>
    intro l u hl hp
    exact ⟨fun q => next_serialUnitStart s x l u hl hp q, next_serialStall s x l u hl hp⟩

end Sys2Proof.Machine
end

section
/-!
PROOFS. Events of time and the platform: under the conditions that the statement names, each event's own case analysis comes down to
one branch. The management element's commands share one lemma about the service of a request.
-/

namespace Sys2Proof.Machine

/-! Time. -/

section Time
variable (s : State)

theorem next_timeBeatSend (ht : s.deckle.tick % 1024 = 0) (hp : s.ev.port < 16) :
    exec .timeBeatSend s = .next { s with fabric := { s.fabric with
      sentNotices := ⟨0, s.ev.port, s.pkg, s.deckle.clock, s.deckle.unc⟩ :: s.fabric.sentNotices } } := by
  simp only [exec_timeBeatSend, execTimeBeatSend, ht, hp, and_self, if_true]

/-- The deckle that has heard a beat at the event's port. -/
def State.heardBeat (s : State) : Deckle := { s.deckle with heard := tput s.deckle.heard s.ev.port s.deckle.tick }

/-- The candidate that the event's beat states (R333). -/
def State.beat (s : State) : Candidate :=
  ⟨1 + s.ev.port, s.ev.time + s.ev.delay, s.ev.bound + Config.portAsymmetry s.ev.port % 8 + 1, s.deckle.tick, s.ev.sender⟩

/-- The deckle with the event's beat accepted. -/
def State.tookBeat (s : State) : Deckle :=
  if (s.deckle.ref && Config.sharesOrigin s.pkg) = true then s.heardBeat.accept s.beat else s.heardBeat.lock s.beat

theorem next_timeBeatReceive_ignored (hp : s.ev.port < 16) (hf : (s.ev.flag || s.deckle.excluded.contains s.ev.sender) = true) :
    exec .timeBeatReceive s = .next { s with deckle := s.heardBeat } := by
  simp only [exec_timeBeatReceive, execTimeBeatReceive, Nat.not_le.mpr hp, if_false, hf, if_true]
  rfl

theorem next_timeBeatReceive (hp : s.ev.port < 16) (hf : (s.ev.flag || s.deckle.excluded.contains s.ev.sender) = false) :
    exec .timeBeatReceive s = .next (if (s.deckle.fail || meetsInterval s.beat.time s.beat.eps s.deckle.clock s.deckle.eps) = false
      then ({ s with deckle := s.tookBeat } : State).sendNotice 2 0 s.ev.sender else { s with deckle := s.tookBeat }) := by
  simp only [exec_timeBeatReceive, execTimeBeatReceive, Nat.not_le.mpr hp, if_false, hf, Bool.false_eq_true, ← Bool.not_or,
    Bool.not_eq_true']
  rfl

theorem next_referenceLock (hr : s.deckle.ref = true) (h1 : 1 ≤ s.ev.bound) (h2 : s.ev.bound ≤ s.deckle.epsMax)
    (he : s.deckle.eps = 0xFFFFFFFF) : exec .referenceLock s = .next (s.fromServo Deckle.lock) := by
  simp only [exec_referenceLock, execReferenceLock, hr, h1, h2, he, decide_true, beq_self_eq_true, Bool.and_self, if_true]

theorem next_servoCandidate (hr : s.deckle.ref = true) (h1 : 1 ≤ s.ev.bound)
    (he : s.deckle.eps ≠ 0xFFFFFFFF ∨ s.deckle.epsMax < s.ev.bound) :
    exec .servoCandidate s = .next (s.fromServo Deckle.accept) := by
  have hx : (s.deckle.eps != 0xFFFFFFFF || decide (s.deckle.epsMax < s.ev.bound)) = true := by simpa using he
  simp only [exec_servoCandidate, execServoCandidate, hr, h1, hx, decide_true, Bool.and_self, if_true]

theorem next_deckleFail (hf : s.deckle.fail = false) (hc : (s.ev.flag || s.deckle.conflict) = true) :
    exec .deckleFail s = .next ((s.setFail false).sendNotice 2 0 s.pkg) := by
  simp only [exec_deckleFail, execDeckleFail, hf, hc, Bool.not_false, Bool.and_self, if_true]

theorem next_neighbourSilence (ht : 65536 ≤ s.deckle.tick - (tget s.deckle.heard s.ev.port).getD 0) (hp : s.ev.port < 16) :
    exec .neighbourSilence s = .next (s.sendNotice 2 0 s.ev.named) := by
  simp only [exec_neighbourSilence, execNeighbourSilence, ht, hp, and_self, if_true]

theorem next_timeExclusionNotice_own (hn : s.ev.named = s.pkg) : exec .timeExclusionNotice s =
    .next (if s.ev.sender = s.pkg then s.logNotice 2 0 s.ev.sender s.ev.named
      else (s.logNotice 2 0 s.ev.sender s.ev.named).setFail true) := by
  simp only [exec_timeExclusionNotice, execTimeExclusionNotice, if_pos hn]

theorem next_rejoin (hf : s.deckle.fail = true) (he : s.deckle.eps ≠ 0xFFFFFFFF) (hg : 1000000 ≤ s.deckle.good)
    (hs : s.ev.flag = true) : exec .rejoin s = .next (({ s with deckle :=
      ({ s.deckle with fail := false, xcl := false, good := 0 } : Deckle).use s.deckle.tick } : State).sendNotice 3 0 s.pkg) := by
  have hx : (s.deckle.eps != 0xFFFFFFFF) = true := by simpa using he
  simp only [exec_rejoin, execRejoin, hf, hx, hg, hs, decide_true, Bool.and_self, if_true]

theorem next_paramSwitch (c : ParamChange)
    (hc : s.deckle.changes.find? (fun c => c.deltas.isNone && decide (c.tick < s.deckle.early)) = some c) :
    exec .paramSwitch s = .next { s with deckle := s.deckle.switch c } := by
  simp only [exec_paramSwitch, execParamSwitch, hc]

/-- With no change whose tick E has passed, none takes force (R335). -/
theorem switchAll_none (d : Deckle) (l : List ParamChange) (h : ∀ c ∈ l, c.deltas.isSome = true ∨ d.early ≤ c.tick) :
    l.foldl (fun d c => if c.deltas.isNone && decide (c.tick < d.early) then d.switch c else d) d = d := by
  induction l with
  | nil => rfl
  | cons c l ih =>
    have hc : (c.deltas.isNone && decide (c.tick < d.early)) = false := by
      obtain hd | ht := h c List.mem_cons_self
      · rw [Option.isNone_eq_false_iff.mpr hd, Bool.false_and]
      · rw [decide_eq_false (Nat.not_lt.mpr ht), Bool.and_false]
    rw [List.foldl_cons, hc]
    exact ih (fun x hx => h x (List.mem_cons_of_mem c hx))

/-- A tick that ends with nothing due brings nothing more (R279, R335, R342). -/
theorem beforeTick_none (hr : s.refillDue = false) (hc : ∀ c ∈ s.deckle.changes, c.deltas.isSome = true ∨ s.deckle.early ≤ c.tick)
    (hf : s.deckle.fail = true ∨ s.deckle.conflict = false) : s.beforeTick = s := by
  have hx : (!s.deckle.fail && s.deckle.conflict) = false := by
    obtain h | h := hf <;> simp [h]
  simp only [State.beforeTick, hr, Bool.false_eq_true, if_false, Deckle.switchAll, switchAll_none s.deckle _ hc, hx]

end Time

/-! The host link. -/

section Host
variable (s : State)

theorem next_hostRead_request (h : s.ev.flag3 = true) : exec .hostRead s =
    .next (if s.ev.flag then s.denyRequest else s.pageRead s.requestPage) := by
  simp only [exec_hostRead, execHostRead, h, if_true]

theorem next_hostRead_config (h2 : s.ev.flag2 = true) (h3 : s.ev.flag3 = false) :
    exec .hostRead s = .next (s.pageRead (s.configPage s.ev.part)) := by
  simp only [exec_hostRead, execHostRead, h2, h3, Bool.false_eq_true, if_false, if_true]

theorem next_hostRead_mailbox (hm : s.inMailbox s.ev.part s.ev.addr s.ev.size = true) (h2 : s.ev.flag2 = false)
    (h3 : s.ev.flag3 = false) : exec .hostRead s = .next (if s.sleeps s.ev.part then s.holdAtHub s.ev.part .hostRead
      else s.hostRead) := by
  simp only [exec_hostRead, execHostRead, h2, h3, hm, Bool.not_true, Bool.false_eq_true, if_false]
  split <;> rfl

theorem next_hostMailboxWrite_request (h3 : s.ev.flag3 = true) (hd : s.ev.data ≠ [])
    (hl : s.ev.addr + s.ev.data.length ≤ 65536) :
    exec .hostMailboxWrite s = .next (if s.ev.flag then s.denyRequest else s.requestWrite) := by
  simp only [exec_hostMailboxWrite, execHostMailboxWrite, h3, isEmpty_of_ne_nil hd, decide_eq_false (Nat.not_lt.mpr hl), Bool.or_self,
    Bool.false_eq_true, if_false, if_true]

theorem next_hostMailboxWrite_mailbox (hm : s.inMailbox s.ev.part s.ev.addr s.ev.data.length = true) (h3 : s.ev.flag3 = false) :
    exec .hostMailboxWrite s = .next (if s.sleeps s.ev.part then s.holdAtHub s.ev.part .hostMailboxWrite else s.hostWrite) := by
  simp only [exec_hostMailboxWrite, execHostMailboxWrite, h3, hm, Bool.not_true, Bool.false_eq_true, if_false]
  split <;> rfl

/-- A write of REQ is ignored while a request is in service (R391). -/
theorem requestWrite_busy (h : s.element.req.isSome = true) :
    s.requestWrite.element.req = s.element.req ∧ s.requestWrite.element.stat = s.element.stat := by
  have hn : (decide (s.ev.addr < 4) && s.element.req.isNone) = false := by
    rw [Option.isNone_eq_false_iff.mpr h, Bool.and_false]
  simp only [State.requestWrite, hn, Bool.false_eq_true, if_false, and_self]

end Host

/-! Boot. -/

theorem core_putCore (s : State) (c n : Nat) (f : Core → Core) : (s.putCore c f).core n = if n = c then f (s.core c) else s.core n := by
  simp only [State.core, putCore_cores, tget_tput]
  split
  · rfl
  · rfl

/-- After a fold over cores that sets each one's warps, every core of the list has them. -/
theorem foldl_putCore_warps (f : Core → Core) (ws : Tbl Warp) (hf : ∀ k, (f k).warps = ws) (l : List Nat) (s : State) (c : Nat)
    (h : c ∈ l ∨ (s.core c).warps = ws) : ((l.foldl (fun s c => s.putCore c f) s).core c).warps = ws := by
  induction l generalizing s with
  | nil => exact h.resolve_left List.not_mem_nil
  | cons d l ih =>
    refine ih _ ?_
    rw [core_putCore]
    by_cases hd : c = d
    · rw [if_pos hd]
      exact Or.inr (hf _)
    · rw [if_neg hd]
      exact h.imp_left (fun hm => (List.mem_cons.mp hm).resolve_left hd)

/-- Starting an image changes cores only. -/
theorem foldl_putCore_cores (f : Core → Core) (l : List Nat) (s : State) :
    ∃ k, l.foldl (fun s c => s.putCore c f) s = { s with cores := k } := by
  induction l generalizing s with
  | nil => exact ⟨s.cores, rfl⟩
  | cons d l ih => exact ih (s.putCore d f)

/-- A control core as an image starts on it (R388). -/
def Core.imaged (p : Nat) (w : Warp) (k : Core) : Core :=
  { k.startPart p with warps := [(0, w)], trap := Core.idle.trap, stopped := false, halted := none }

theorem startImage_keeps (s : State) (l : List Nat) (p : Nat) (v : Level) : ∃ k, s.startImage l p v = { s with cores := k } :=
  foldl_putCore_cores _ l s

theorem startImage_warps (s : State) (l : List Nat) (p : Nat) (v : Level) (c : Nat) (h : c ∈ l) :
    ((s.startImage l p v).core c).warps =
      [(0, imageWarp p v ⟨s.ev.addr, s.ev.size⟩ s.ev.word (s.cycle + 1) s.deckle.tick)] :=
  foldl_putCore_warps (Core.imaged p (imageWarp p v ⟨s.ev.addr, s.ev.size⟩ s.ev.word (s.cycle + 1) s.deckle.tick)) _
    (fun _ => rfl) l s c (Or.inl h)

theorem mem_controlCores (c : Nat) (h : isControl c = true) (hc : c < 600) : c ∈ controlCores := by
  have h576 : 576 ≤ c := of_decide_eq_true h
  exact List.mem_map.mpr ⟨c - 576, List.mem_range.mpr (by omega), by omega⟩

/-- The state in which the hypervisor's image starts (R388). -/
def State.booted (s : State) : State :=
  { s with
    pkg := s.ev.num
    secLo := s.ev.id
    secHi := s.ev.id2
    deckle := { s.deckle with ref := Config.reference s.ev.num }
    element := { s.element with
      boot := 4
      firmware := s.ev.data.take 64
      routine := (s.ev.data.drop 64).take 64
      hypervisor := (s.ev.data.drop 128).take 64 } }

section Boot
variable (s : State) (hb : s.element.boot = 0) (hr : s.element.reports = []) (hn : s.ev.num < 8192)
include hb hr hn

theorem mayBoot : (s.element.boot != 0 || !s.element.reports.isEmpty || decide (8192 ≤ s.ev.num)) = false := by
  simp only [hb, hr, decide_eq_false (Nat.not_le.mpr hn), bne_self_eq_false, List.isEmpty_nil, Bool.not_true, Bool.or_self]

theorem next_powerOnBoot (h1 : s.ev.flag = true) (h2 : s.ev.flag2 = true) (h3 : s.ev.flag3 = true) :
    exec .powerOnBoot s = .next (s.booted.startImage controlCores noPart .hypervisor) := by
  simp only [exec_powerOnBoot, execPowerOnBoot, mayBoot s hb hr hn, h1, h2, h3, Bool.not_true, Bool.or_self, Bool.false_eq_true,
    if_false]
  rfl

theorem next_powerOnBoot_failed (h1 : s.ev.flag = false) : exec .powerOnBoot s = .next (s.reportFailure 1) := by
  simp only [exec_powerOnBoot, execPowerOnBoot, mayBoot s hb hr hn, h1, Bool.not_false, Bool.false_eq_true, if_false, if_true]

end Boot

theorem tget_modPart_self (s : State) (p : Nat) (f : Part → Part) (q : Part) (h : tget s.parts p = some q) :
    tget (s.modPart p f).parts p = some (f q) := by
  rw [modPart_parts, tget_tmod, if_pos rfl, h, Option.map_some]

theorem next_partitionImageStart (s : State) (q : Part) (hq : tget s.parts s.ev.part = some q) (hb : s.element.boot = 4)
    (hv : q.valid = true) (hs : q.started = false) (hf : s.ev.flag = true) :
    exec .partitionImageStart s = .next ((s.modPart s.ev.part (fun q => { q with
      started := true, image := s.ev.data.take 64 })).startImage (controlCores.filter (controlIn s.ev.part q)) s.ev.part
        .supervisor) := by
  simp only [exec_partitionImageStart, execPartitionImageStart, hq, hb, hv, hs, hf, bne_self_eq_false, Bool.not_true, Bool.or_self,
    Bool.false_eq_true, if_false]

/-! The management element's requests. -/

/-- The state in which a request is served: it was in service, or the event makes it (R391, log 27). -/
def State.Asked (s : State) (k : Nat) (x : State) : Prop :=
  s.ev.flag = false ∧ ((s.element.req = some k ∧ x = s) ∨ (s.element.req = none ∧ x = s.ask k))

/-- A request has ended with a state and reason, and its results (R391). -/
def State.ended (y : State) (code : Nat) (res : List Byte) : State :=
  { y with element := { y.element with
      req := none, stat := BitVec.ofNat 32 (code + 65536 * (y.element.seq.toNat % 65536)), res := res } }

theorem serveRequest_asked {s x : State} {k : Nat} (f : State → Out) (h : s.Asked k x) : s.serveRequest k f = f x := by
  obtain ⟨hf, ⟨hr, rfl⟩ | ⟨hr, rfl⟩⟩ := h
  · simp only [State.serveRequest, hf, hr, Bool.false_eq_true, if_false, if_true]
  · simp only [State.serveRequest, hf, hr, Bool.false_eq_true, if_false]

theorem serveRequest_denied (s : State) (k : Nat) (f : State → Out) (h : s.ev.flag = true) :
    s.serveRequest k f = .next s.denyRequest := by
  simp only [State.serveRequest, h, if_true]

theorem served_ended (y : State) (res : List Byte) : y.served res = .next (y.ended 2 res) := rfl

section Requests
variable {s x : State}

theorem next_manifest (p : Nat) (q : Part) (ha : x.argPart = some (p, q)) (h : s.Asked 0x02 x) :
    exec .manifest s = .next (x.ended 2 (x.partManifest p q)) := by
  simp only [exec_manifest, execManifest, serveRequest_asked _ h, ha, served_ended]

theorem next_quote (p : Nat) (q : Part) (ha : x.argPart = some (p, q)) (b : List Byte)
    (hb : b = x.partManifest p q ++ ((fit 240 x.element.arg).drop 16).take 32 ++ bytesOf 4 x.pkg ++ List.replicate 28 0)
    (h : s.Asked 0x01 x) :
    exec .quote s = .next (x.ended 2 (b ++ bytesOf 64 (Config.deviceSignature (sha512 b)).toNat)) := by
  subst hb
  simp only [exec_quote, execQuote, serveRequest_asked _ h, State.quote, ha, served_ended]

theorem next_rtread (b : Bool) (n k : Nat) (hr : x.routeArg = (b, n, k)) (hk : 0 < k) (hn : n + k ≤ 8192) (hm : k ≤ 960)
    (h : s.Asked 0x10 x) :
    exec .rtread s = .next (x.ended 2 (wordsBytes ((List.range k).map (fun i => x.fabric.entry b (n + i))))) := by
  simp only [exec_rtread, execRtread, serveRequest_asked _ h, hr, Nat.pos_iff_ne_zero.mp hk, Nat.not_lt.mpr hm, Nat.not_lt.mpr hn,
    or_self, if_false, served_ended]

theorem next_rtwrite (b : Bool) (n k : Nat) (hr : x.routeArg = (b, n, k)) (hk : 0 < k) (hn : n + k ≤ 8192)
    (hb : b ≠ x.fabric.active) (hd : x.drained = true) (h : s.Asked 0x11 x) :
    exec .rtwrite s = .next (({ x with fabric := x.fabric.write b n ((bytesWords (fit (4 * k) x.element.bulk)).take k) } :
      State).ended 2 []) := by
  simp only [exec_rtwrite, execRtwrite, serveRequest_asked _ h, hr, Nat.pos_iff_ne_zero.mp hk,
    Nat.not_lt.mpr (show k ≤ 8192 by omega), Nat.not_lt.mpr hn, or_self, if_false, hb, hd, Bool.not_true, Bool.false_eq_true,
    served_ended]

theorem next_rtflip (y : State) (h : s.Asked 0x12 x)
    (hy : y = (({ x with fabric := { x.fabric with active := !x.fabric.active } } : State).sendNotice 7 0 x.pkg).sendAll) :
    exec .rtflip s = .next (y.ended 2 (bytesOf 4 y.rtsel)) := by
  subst hy
  simp only [exec_rtflip, execRtflip, serveRequest_asked _ h, served_ended]

theorem next_fabstat (h : s.Asked 0x13 x) : exec .fabstat s = .next (State.ended
    (if bit (x.argWord 0) 0 then { x with fabric := { x.fabric with keymiss := List.replicate 16 0 } } else x) 2
      (bytesOf 4 x.rtsel ++ bytesOf 4 x.fabric.ports.toNat ++ x.fabric.keymiss.flatMap (bytesOf 4))) := by
  simp only [exec_fabstat, execFabstat, serveRequest_asked _ h, served_ended]

theorem next_notices (l : List Notice) (h : s.Asked 0x20 x) (hl : l = (x.element.noticesFrom (x.argWord 0)).take 239) :
    exec .notices s = .next (x.ended 2 (bytesOf 4 x.element.nextNotice ++ bytesOf 4 l.length ++ l.flatMap Notice.bytes)) := by
  subst hl
  simp only [exec_notices, execNotices, serveRequest_asked _ h, served_ended]

theorem next_maintopen (l : List Nat) (h : s.Asked 0x30 x) (ha : x.argWord 0 < 4096) (hw : x.element.window = false)
    (hl : l = (List.range 12).filter (bit (x.argWord 0)))
    (hp : ∀ p ∈ l, ∃ q, tget x.parts p = some q ∧ q.valid = true ∧ x.partIdle p q = true) (y : State)
    (hy : y = l.foldl (fun s p => s.modPart p (fun q => { q with maint := true })) x) :
    exec .maintopen s = .next (({ y with element := { y.element with window := true } } : State).ended 2 []) := by
  subst hl hy
  rw [exec_maintopen, execMaintopen, serveRequest_asked _ h]
  unfold State.openMaint
  rw [if_neg (Nat.not_le.mpr ha), if_neg (by rw [hw]; exact Bool.false_ne_true), if_neg, if_neg]
  · rfl
  · rw [List.any_eq_true]
    rintro ⟨p, hm, hi⟩
    obtain ⟨q, hq, hv, hd⟩ := hp p hm
    simp only [hq, Option.bind_some, hv, if_true, hd, Bool.not_true, Bool.false_eq_true] at hi
  · rw [List.any_eq_true]
    rintro ⟨p, hm, hi⟩
    obtain ⟨q, hq, hv, -⟩ := hp p hm
    simp only [hq, Option.bind_some, hv, if_true, Option.isNone_some, Bool.false_eq_true] at hi

theorem next_maintclose (h : s.Asked 0x31 x) (hw : x.element.window = true) (khz : Nat)
    (hk : khz = x.element.arithKhz - 25000 * s.ev.num) : exec .maintclose s = .next (({ x with
      parts := x.parts.map (fun p => (p.1, { p.2 with maint := false }))
      element := { x.element with
        window := false, arithKhz := khz, arithMhz := min x.element.arithMhz (khz / 1000), slow := [] } } : State).ended 2
      (bytesOf 4 khz ++ bytesOf 4 x.element.l2Khz)) := by
  have he : x.ev = s.ev := by
    obtain ⟨-, ⟨-, rfl⟩ | ⟨-, rfl⟩⟩ := h <;> rfl
  rw [← he] at hk
  subst hk
  simp only [exec_maintclose, execMaintclose, serveRequest_asked _ h, State.closeMaint, hw, Bool.not_true, Bool.false_eq_true, if_false,
    served_ended]

theorem next_reqUnknownCommand (hb : badRequest (s.element.req.getD s.ev.num) = true) (h : s.Asked (s.element.req.getD s.ev.num) x) :
    exec .reqUnknownCommand s = .next (x.ended (3 + 256) x.element.res) := by
  simp only [exec_reqUnknownCommand, execReqUnknownCommand, hb, if_true, serveRequest_asked _ h]
  rfl

end Requests

/-! Power and faults of the hardware. -/

section Power
variable (s : State) (q : Part) (hq : tget s.parts s.ev.part = some q)
include hq

theorem sleeps_of_part : s.sleeps s.ev.part = (q.sleep != 0) := by
  simp only [State.sleeps, hq]

theorem next_partitionSleep (hv : q.valid = true) (hs : q.sleep = 0) (hi : s.partIdle s.ev.part q = true)
    (hd : deepest q.lattol.toNat ≠ 0) : exec .partitionSleep s = .next (s.modPart s.ev.part (fun y =>
      { y with sleep := deepest q.lattol.toNat, waking := false })) := by
  simp only [exec_partitionSleep, execPartitionSleep, hq, hv, hs, hi, beq_eq_false_iff_ne.mpr hd, bne_self_eq_false, Bool.not_true,
    Bool.or_self, Bool.false_eq_true, if_false]

theorem next_partitionWakeEvent (hs : q.sleep ≠ 0) : exec .partitionWakeEvent s = .next (s.wakePart s.ev.part) := by
  simp only [exec_partitionWakeEvent, execPartitionWakeEvent, sleeps_of_part s q hq, bne_iff_ne.mpr hs, if_true]

theorem next_wakeComplete (hs : q.sleep ≠ 0) (hw : q.waking = true) : exec .wakeComplete s =
    .next (((s.asleep.filter (fun z => z.1 == s.ev.part)).map (·.2)).foldl State.serveHeld
      { s.modPart s.ev.part (fun y => { y with sleep := 0, waking := false }) with
        asleep := s.asleep.filter (fun z => z.1 != s.ev.part) }) := by
  simp only [exec_wakeComplete, execWakeComplete, hq, bne_iff_ne.mpr hs, hw, Bool.and_self, if_true]

theorem next_machineCheck (hv : q.valid = true) : exec .machineCheck s = .next (s.machineCheck s.ev.part q) := by
  simp only [exec_machineCheck, execMachineCheck, hq, hv, if_true]

theorem next_patrolScrub (hv : q.valid = true) (hf : s.ev.flag = false) :
    exec .patrolScrub s = .next (s.machineCheck s.ev.part q) := by
  simp only [exec_patrolScrub, execPatrolScrub, hf, hq, hv, Bool.false_eq_true, if_false, if_true]

end Power

theorem next_patrolScrub_corrected (s : State) (hf : s.ev.flag = true) : exec .patrolScrub s =
    .next { s with element := { s.element with corrections := s.element.corrections + 1 } } := by
  simp only [exec_patrolScrub, execPatrolScrub, hf, if_true]

/-- Settles O60: each clause is one event's branch, under the conditions that the clause names. -/
theorem timeAndPlatformEvents : Obligations.TimeAndPlatformEvents := by
  unfold Obligations.TimeAndPlatformEvents
  rintro s e rfl asked ends d
  refine ⟨next_timeBeatSend s, ?beat, ?servo, next_deckleFail s, next_neighbourSilence s, ?excluded, ?other, next_rejoin s, ?rejoined, ?param,
    next_paramSwitch s, beforeTick_none s, ?tick, ?request, ?denied, next_hostRead_config s, ?awake, ?asleep, ?boot, ?image,
    ?manifest, ?route, fun x y h hy => next_rtflip y h hy, fun x h => next_fabstat h, fun x l h hl => next_notices l h hl,
    fun x y l h ha hw hl hp hy => next_maintopen l h ha hw hl hp y hy, fun x khz h hw hk => next_maintclose h hw khz hk,
    fun x hb h => next_reqUnknownCommand hb h, ?power, next_patrolScrub_corrected s, exec_powerGovernor s, exec_marginLow s⟩
  case beat =>
    rintro c x eps hp rfl rfl rfl
    refine ⟨next_timeBeatReceive_ignored s hp, ?_⟩
    rintro y hf rfl
    have hx := next_timeBeatReceive s hp hf
    exact ⟨fun hm => hx.trans (by rw [if_neg]; exacts [rfl, fun h => absurd (h.symm.trans hm) Bool.false_ne_true]),
      fun hm => hx.trans (by rw [if_pos]; exacts [rfl, hm])⟩
  case servo =>
    rintro c hr h1 rfl
    exact ⟨next_referenceLock s hr h1, next_servoCandidate s hr h1⟩
  case excluded =>
    intro hn
    have hx := next_timeExclusionNotice_own s hn
    exact ⟨fun h => by rw [hx, if_neg h], fun h => by rw [hx, if_pos h]⟩
  case other =>
    intro hn
    simp only [exec_timeExclusionNotice, execTimeExclusionNotice, if_neg hn]
  case rejoined => rfl
  case param => rfl
  case tick =>
    rintro x rfl
    rfl
  case request =>
    intro h3
    refine ⟨fun hf => ?_, fun hf => ?_, fun hd hl => ⟨next_hostMailboxWrite_request s h3 hd hl, requestWrite_busy s⟩⟩
    · rw [next_hostRead_request s h3, hf]
      rfl
    · rw [next_hostRead_request s h3, hf]
      rfl
  case denied =>
    intro hf
    refine ⟨rfl, fun i hi => ?_⟩
    simp only [List.mem_cons, List.not_mem_nil, or_false] at hi
    obtain rfl | rfl | rfl | rfl | rfl | rfl | rfl | rfl | rfl := hi
    · exact (exec_quote s).trans (serveRequest_denied s 0x01 State.quote hf)
    · rw [exec_manifest, execManifest, serveRequest_denied s 0x02 _ hf]
    · rw [exec_rtread, execRtread, serveRequest_denied s 0x10 _ hf]
    · rw [exec_rtwrite, execRtwrite, serveRequest_denied s 0x11 _ hf]
    · rw [exec_rtflip, execRtflip, serveRequest_denied s 0x12 _ hf]
    · rw [exec_fabstat, execFabstat, serveRequest_denied s 0x13 _ hf]
    · rw [exec_notices, execNotices, serveRequest_denied s 0x20 _ hf]
    · exact (exec_maintopen s).trans (serveRequest_denied s 0x30 State.openMaint hf)
    · exact (exec_maintclose s).trans (serveRequest_denied s 0x31 State.closeMaint hf)
  case awake =>
    intro hs
    refine ⟨fun hm h3 => ?_, fun hm h2 h3 => ?_⟩
    · rw [next_hostMailboxWrite_mailbox s hm h3, hs]
      rfl
    · rw [next_hostRead_mailbox s hm h2 h3, hs]
      rfl
  case asleep =>
    intro hs
    refine ⟨fun hm h3 => ?_, fun hm h2 h3 => ?_⟩
    · rw [next_hostMailboxWrite_mailbox s hm h3, hs]
      rfl
    · rw [next_hostRead_mailbox s hm h2 h3, hs]
      rfl
  case boot =>
    intro hb hr hn
    refine ⟨fun h1 h2 h3 => ⟨_, next_powerOnBoot s hb hr hn h1 h2 h3, ?_⟩, next_powerOnBoot_failed s hb hr hn⟩
    obtain ⟨k, hk⟩ := startImage_keeps s.booted controlCores noPart .hypervisor
    have hw := startImage_warps s.booted controlCores noPart .hypervisor
    exact ⟨by rw [hk]; rfl, by rw [hk]; rfl, by rw [hk]; rfl, by rw [hk]; rfl, by rw [hk]; rfl,
      fun c hc hl => hw c (mem_controlCores c hc hl)⟩
  case image =>
    intro q hq hb hv hs hf
    refine ⟨_, next_partitionImageStart s q hq hb hv hs hf, ?_⟩
    obtain ⟨k, hk⟩ := startImage_keeps (s.modPart s.ev.part (fun q => { q with started := true, image := s.ev.data.take 64 }))
      (controlCores.filter (controlIn s.ev.part q)) s.ev.part .supervisor
    have hp := tget_modPart_self s s.ev.part (fun q => { q with started := true, image := s.ev.data.take 64 }) q hq
    exact ⟨by rw [hk]; rfl, ⟨_, (congrArg (fun z : State => tget z.parts s.ev.part) hk).trans hp, rfl, rfl⟩, fun c hc hi =>
      startImage_warps _ _ _ _ c (List.mem_filter.mpr ⟨hc, hi⟩)⟩
  case manifest =>
    intro x p q ha
    exact ⟨next_manifest p q ha, next_quote p q ha⟩
  case route =>
    intro x b n k hr hk hn
    exact ⟨next_rtread b n k hr hk hn, next_rtwrite b n k hr hk hn⟩
  case power =>
    intro q hq hv
    refine ⟨next_partitionSleep s q hq hv, next_partitionWakeEvent s q hq, ?_, next_patrolScrub s q hq hv, next_machineCheck s q hq hv⟩
    rintro x hs hw rfl
    exact next_wakeComplete s q hq hs hw

end Sys2Proof.Machine
end

section
/-!
PROOFS. A supervisor-class cause (R293, R296): the warp is suspended, and its record is posted behind a release of its core, which
leaves the partitions, the trap registers and the suspension of the warp as they were.
-/

namespace Sys2Proof.Machine

/-! What a release leaves. -/

/-- Where no partition logs its writes, write-backs leave the partitions as they are, and memory canonical. -/
def Calm (s t : State) : Prop := NoMig s → t.parts = s.parts ∧ (Memory.wf s.mem = true → Memory.wf t.mem = true)

theorem NoMig.of_parts {s t : State} (h : NoMig s) (e : t.parts = s.parts) : NoMig t := by
  unfold NoMig
  rw [e]
  exact h

theorem Calm.of_field {s t : State} (hp : t.parts = s.parts) (hm : t.mem = s.mem) : Calm s t := fun _ => ⟨hp, fun h => by rw [hm]; exact h⟩

theorem calm_steps : Steps Calm where
  refl := fun _ => Calm.of_field rfl rfl
  trans := fun s t u a b h => by
    obtain ⟨p1, m1⟩ := a h
    obtain ⟨p2, m2⟩ := b (h.of_parts p1)
    exact ⟨p2.trans p1, fun hw => m2 (m1 hw)⟩
  reqs := fun _ _ => Calm.of_field rfl rfl
  flags := fun _ _ => Calm.of_field rfl rfl
  write := fun s pa b h => ⟨migRecord_parts_keys s pa b h, homeWrite_wf s pa b⟩
  settle := fun s c n cls id => Calm.of_field (settleCount_field State.parts (fun _ _ _ _ => rfl) s c n cls id)
    (settleCount_field State.mem (fun _ _ _ _ => rfl) s c n cls id)
  core := fun _ _ _ _ => Calm.of_field rfl rfl

theorem writeBack_trap (s : State) (c d : Nat) : KeepsCores Core.trap s (s.writeBack c d) := by
  unfold State.writeBack
  dsimp only
  split
  · exact fun _ => rfl
  · exact (writeDirty_keeps Core.trap (fun _ _ => rfl) c _ s).trans (modCore_cores_keep _ _ c _ (fun _ => rfl))

theorem release_trap (s : State) (c d : Nat) (sc : Scope) : KeepsCores Core.trap s (s.release c d sc) := by
  unfold State.release
  split
  · exact (drain_keeps _ (fun _ _ => rfl) s _).trans (keepsCores_foldl _ _ (fun s e => writeBack_trap s c e) _ _)
  · exact fun _ => rfl

theorem core_trap_of_keeps {s t : State} (h : KeepsCores Core.trap s t) {c : Nat} {k : Core} (hk : tget s.cores c = some k) :
    ∃ k', tget t.cores c = some k' ∧ k'.trap = k.trap := by
  have e := h c
  rw [hk] at e
  obtain ⟨k', hk', ht⟩ := Option.map_eq_some_iff.mp e
  exact ⟨k', hk', ht⟩

/-! Posting a record. -/

section Record
variable (s : State) (p c slot : Nat) (q : Part) (ws : List Word) (r : Report) (level : Nat)

/-- A warp's record as it stands at the queue's place, with the tail that counts it (R296). -/
def State.posted : State :=
  ((s.putRecord p q ws).modCore c (fun k => { k with trap := trapRegs k.trap r level false })).modWarpAt c slot
    (fun w => { w with susp := w.susp.map (fun u => { u with posted := true }) })

variable {s}

/-- What stands after a record has been posted: its words at the queue's place, the grown tail, the trap registers and the mark of
the warp (R292, R296). -/
theorem posted_record (hl : ws.length = 7) (hq : tget s.parts p = some q) (hm : NoMig s) (hwf : Memory.wf s.mem = true) :
    bytesAt (s.posted p c slot q ws r level).mem q.queueAt 32 = wordsBytes (ws ++ [q.fqtail]) ∧
      (∃ q', tget (s.posted p c slot q ws r level).parts p = some q' ∧ q'.fqtail = q.fqtail + 1) ∧
      (∀ k, tget s.cores c = some k →
        ((s.posted p c slot q ws r level).core c).trap = trapRegs k.trap r level false) ∧
      ∀ w, s.warpAt? c slot = some w → ∃ v, (s.posted p c slot q ws r level).warpAt? c slot = some v ∧
        v.susp = w.susp.map (fun u => { u with posted := true }) := by
  have hlen : (wordsBytes (ws ++ [q.fqtail])).length = 32 := by
    match ws, hl with
    | [_, _, _, _, _, _, _], _ => simp [wordsBytes, bytesOf, leBytes]
  obtain ⟨a1, a2, a3, a4, -⟩ := posted_state (s.homeWriteLong 2 q.queueAt (wordsBytes (ws ++ [q.fqtail]))) p c slot
    (fun q => { q with fqtail := q.fqtail + 1 })
    (fun w => { w with susp := w.susp.map (fun u => { u with posted := true }) })
    (fun k => { k with trap := trapRegs k.trap r level false }) (fun _ => rfl) (fun _ => rfl)
  refine ⟨?_, ?_, fun k hk => ?_, fun w hw => ?_⟩
  · refine (congrArg (fun m => bytesAt m q.queueAt 32) a1).trans ?_
    rw [homeWriteLong_mem s 2 _ _ hm (by rw [hlen]; omega)]
    have hx := bytesAt_setBytes s.mem q.queueAt (wordsBytes (ws ++ [q.fqtail])) hwf
    rwa [hlen] at hx
  · refine ⟨{ q with fqtail := q.fqtail + 1 }, a2.trans ?_, rfl⟩
    rw [homeWriteLong_parts s 2 _ _ hm, hq, Option.map_some]
  · obtain ⟨k1, e1, t1⟩ := core_trap_of_keeps
      (keepsCores_homeWriteLong Core.trap (fun _ _ => rfl) s 2 q.queueAt (wordsBytes (ws ++ [q.fqtail]))) hk
    obtain ⟨k2, e2, t2⟩ := a3 k1 e1
    refine (congrArg (fun o : Option Core => (o.getD Core.idle).trap) e2).trans ?_
    rw [Option.getD_some, t2, t1]
  · have hx := keepsWarps_homeWriteLong Warp.susp (fun _ _ _ => rfl) s 2 q.queueAt (wordsBytes (ws ++ [q.fqtail])) c slot
    rw [hw] at hx
    obtain ⟨w1, e1, t1⟩ := Option.map_eq_some_iff.mp hx
    refine ⟨_, a4.trans (by rw [e1, Option.map_some]), ?_⟩
    show w1.susp.map _ = _
    rw [t1]

end Record

section Suspend
variable {s : State} {c slot : Nat} {w : Warp} {u : Susp} {q : Part}
  (hw : s.warpAt? c slot = some w) (hu : w.susp = some u) (hp : u.posted = false) (hq : tget s.parts w.part = some q)
include hw hu hp hq

theorem postRecord_pending : s.postRecord c slot = s.postOrHold w.part (recordOf u.report w c slot u.did true) := by
  simp only [State.postRecord, hw, hu, hq, hp, Bool.false_eq_true, if_false]

theorem postRecord_posted (hv : s.queueValid w.part q = true) (hr : q.queueRoom = true) : s.postRecord c slot =
    (s.release c w.curSlot .package).posted w.part c slot q ((recordWords u.report w c slot u.did 0).take 7) u.report
      w.level.code := by
  rw [postRecord_pending hw hu hp hq]
  simp only [State.postOrHold, hq, hv, hr, Bool.and_self, if_true, recordOf, State.postNow]
  rfl

theorem postRecord_held (hv : (s.queueValid w.part q && q.queueRoom) = false) : s.postRecord c slot =
    { s.modPart w.part (fun q => { q with heldRecs := q.heldRecs ++ [recordOf u.report w c slot u.did true] }) with
      element := { s.element with heldCount := s.element.heldCount + 1 } } := by
  rw [postRecord_pending hw hu hp hq]
  simp only [State.postOrHold, hq, hv, Bool.false_eq_true, if_false]

/-- A record is posted behind a release of its core (R296). -/
theorem postRecord_writes (k : Core) (hv : s.queueValid w.part q = true) (hr : q.queueRoom = true)
    (hk : tget s.cores c = some k) (hm : NoMig s) (hwf : Memory.wf s.mem = true) :
    bytesAt (s.postRecord c slot).mem q.queueAt 32 = wordsBytes (recordWords u.report w c slot u.did q.fqtail) ∧
      (∃ q', tget (s.postRecord c slot).parts w.part = some q' ∧ q'.fqtail = q.fqtail + 1) ∧
      ((s.postRecord c slot).core c).trap = trapRegs k.trap u.report w.level.code false ∧
      ∃ v, (s.postRecord c slot).warpAt? c slot = some v ∧ v.susp = some { u with posted := true } := by
  rw [postRecord_posted hw hu hp hq hv hr]
  obtain ⟨hparts, hmem⟩ := calm_steps.release s c w.curSlot .package hm
  obtain ⟨k1, hk1, ht1⟩ := core_trap_of_keeps (release_trap s c w.curSlot .package) hk
  have hwarp := (woken_steps.release s c w.curSlot .package).2 c slot
  rw [hw] at hwarp
  obtain ⟨w1, hw1, hstable⟩ := Option.map_eq_some_iff.mp hwarp
  obtain ⟨b1, b2, b3, b4⟩ := posted_record w.part c slot q ((recordWords u.report w c slot u.did 0).take 7) u.report w.level.code rfl
    (hparts ▸ hq) (hm.of_parts hparts) (hmem hwf)
  refine ⟨b1, b2, (b3 k1 hk1).trans (by rw [ht1]), ?_⟩
  obtain ⟨v, hv1, hv2⟩ := b4 w1 hw1
  refine ⟨v, hv1, hv2.trans ?_⟩
  rw [show w1.susp = w.susp from (congrArg Warp.susp hstable :), hu, Option.map_some]

end Suspend

/-! The suspension (R293, R296). -/

/-- The state in which a suspended warp's record is posted. -/
def State.suspended (s : State) (r : Report) : State :=
  s.stopped.modWarpAt s.cur.core s.cur.slot (fun w => { w with susp := some ⟨r, s.cur.mask, false, w.curDid⟩ })

theorem deliver_super {s : State} {c k : Nat} {w : Warp} (r : Report) (m : Mask) (hctl : isControl c = false)
    (hw : s.warpAt? c k = some w) (hs : r.super = true) : s.deliver c k r m = s.suspend c k r m := by
  unfold State.deliver
  simp only [hctl, hw, hs, Bool.false_eq_true, if_false, if_true]

theorem fault_super (s : State) (w : Warp) (cause : Cause) (lane : Nat) (lo hi : Word) (q : Thread) (hw : s.warp? = some w)
    (hctl : isControl s.cur.core = false) (hs : cause.isSuper = true) (hr : s.cur.rep = none) (hc : w.collecting = false)
    (hf : s.inFlight s.cur.core s.cur.slot = false) (hq : tget w.threads lane = some q) :
    s.fault cause lane lo hi =
      (s.suspended (mkReport w cause lane q.pc lo hi)).postRecord s.cur.core s.cur.slot := by
  have hsuper : (mkReport w cause lane q.pc lo hi).super = true := by
    show (cause.isSuper || !w.gates.isEmpty) = true
    rw [hs, Bool.true_or]
  have hclear : ∀ v : Warp, v.clearExc (mkReport w cause lane q.pc lo hi) = v := fun v => by
    refine if_neg ?_
    rintro (h | h)
    · rw [show cause = .fpx from h] at hs
      exact absurd hs (by decide)
    · exact absurd (show 0 = 9 from h) (by decide)
  rw [fault_deliver s w cause lane lo hi q hw hr hq hc hf, deliver_super _ _ hctl (warpAt_left s w hw) hsuper]
  unfold State.suspend
  simp only [hclear]
  rfl

theorem suspended_cores {α : Type} (f : Core → α) (h : ∀ (k : Core) (w : Tbl Warp) (d : List Int) (l : List Nat),
    f { k with warps := w, deficit := d, lastIssue := l } = f k) (s : State) (r : Report) : KeepsCores f s (s.suspended r) :=
  have hwarps : ∀ (k : Core) (w : Tbl Warp), f { k with warps := w } = f k := fun k w => h k w k.deficit k.lastIssue
  (left_cores f h s).trans ((parkSyncs_cores f hwarps _ _ _).trans ((unask_cores f hwarps _ _ _).trans
    (modWarpAt_cores_keep f hwarps _ _ _ _)))

theorem keeps_suspended (s : State) (r : Report) : KeepsThreads Thread.regs s (s.suspended r) :=
  (keeps_stopped Thread.regs (fun _ => rfl) (fun _ _ => rfl) s).trans (keeps_modWarpAt _ _ _ _ _ (fun _ _ => rfl))

/-- The suspended warp: its report, and the fields that its record names. -/
theorem warpAt_suspended (s : State) (w : Warp) (r : Report) (hw : s.warp? = some w) :
    ∃ v, (s.suspended r).warpAt? s.cur.core s.cur.slot = some v ∧ v.susp = some ⟨r, s.cur.mask, false, w.curDid⟩ ∧
      v.part = w.part ∧ v.homeDid = w.homeDid ∧ v.level = w.level := by
  obtain ⟨v, hv, -, hbare, -⟩ := warpAt_stopped s w hw
  have hx := warpAt_modWarpAt s.stopped s.cur.core s.cur.slot s.cur.core s.cur.slot
    (fun w => { w with susp := some ⟨r, s.cur.mask, false, w.curDid⟩ })
  rw [if_pos ⟨rfl, rfl⟩, hv, Option.map_some] at hx
  refine ⟨_, hx, ?_, (congrArg Warp.part hbare :), (congrArg Warp.homeDid hbare :), (congrArg Warp.level hbare :)⟩
  show some (⟨r, s.cur.mask, false, v.curDid⟩ : Susp) = _
  rw [show v.curDid = w.curDid from (congrArg Warp.curDid hbare :)]

/-- Settles O31: the fault suspends the warp, and its record is posted or held. -/
theorem supervisorTrap : Obligations.SupervisorTrap := by
  intro s w p cause lane lo hi q hw hp hctl hs hr hc hf hq
  dsimp only
  rw [fault_super s w cause lane lo hi q hw hctl hs hr hc hf hq]
  obtain ⟨v, hv, hsusp, hpart, hhome, hlevel⟩ := warpAt_suspended s w (mkReport w cause lane q.pc lo hi) hw
  obtain ⟨k, hk⟩ := tget_of_warp hw
  obtain ⟨k1, hk1, ht1⟩ := core_trap_of_keeps (suspended_cores Core.trap (fun _ _ _ _ => rfl) s (mkReport w cause lane q.pc lo hi)) hk
  have hq1 : tget (s.suspended (mkReport w cause lane q.pc lo hi)).parts v.part = some p := by rw [hpart]; exact hp
  have hvalid : (s.suspended (mkReport w cause lane q.pc lo hi)).queueValid v.part p = s.queueValid w.part p := by
    rw [hpart]
    exact queueValid_congr s _ _ _ rfl rfl rfl rfl rfl rfl rfl rfl
  refine ⟨fun c k l => ?_, fun hwf hqv hroom hmig => ?_, fun hno => ?_⟩
  · exact ((keeps_suspended s _).trans (postRecord_threads Thread.regs (fun _ => rfl) _ _ _)) c k l
  · obtain ⟨b1, b2, b3, b4⟩ := postRecord_writes hv hsusp rfl hq1 k1 (hvalid.trans hqv) hroom hk1 hmig hwf
    rw [hpart] at b2
    refine ⟨b1.trans ?_, b2, b3.trans ?_, b4⟩
    · unfold recordWords
      rw [hhome]
    · rw [ht1, hlevel, State.core, hk]
      rfl
  · rw [postRecord_held hv hsusp rfl hq1 (by rw [hvalid]; exact hno)]
    exact ⟨rfl, v, hv, hsusp⟩

end Sys2Proof.Machine
end

section
/-!
PROOFS. Every step keeps the canonical form of memory (log 3). First the operations of the model that leave memory as it
is, in the order in which the model defines them.
-/

namespace Sys2Proof.Machine

theorem foldl_mem {α : Type} (f : State → α → State) (hf : ∀ (s : State) (x : α), (f s x).mem = s.mem) (l : List α) (s : State) :
    (l.foldl f s).mem = s.mem := by
  induction l generalizing s with
  | nil => rfl
  | cons x l ih => exact (ih _).trans (hf s x)

theorem mem_of_snd {α : Type} {p : α × State} {s t : State} {a : α} (h : p.2.mem = s.mem) (e : p = (a, t)) : t.mem = s.mem := by
  rw [e] at h
  exact h

/-! Operations on the state. -/

@[simp] theorem finish2_mem (s : State) : s.finish2.mem = s.mem := rfl

@[simp] theorem finishAt_mem (s : State) (target : Nat → Thread → Word) : (s.finishAt target).mem = s.mem := rfl

@[simp] theorem stall_mem (s : State) (lanes : List Nat) (why : Wait) : (s.stall lanes why).mem = s.mem := by
  unfold State.stall
  split <;> rfl

@[simp] theorem stallAll_mem (s : State) (why : Wait) : (s.stallAll why).mem = s.mem := by
  simp [State.stallAll]

@[simp] theorem fresh_mem (s : State) : s.fresh.2.mem = s.mem := rfl

@[simp] theorem completeEngine_mem (s : State) (c slot cls id : Nat) : (s.completeEngine c slot cls id).mem = s.mem := rfl

@[simp] theorem markDomain_mem (s : State) (part did : Nat) : (s.markDomain part did).mem = s.mem := rfl

@[simp] theorem fixLaunch_mem (s : State) (w : Warp) : (s.fixLaunch w).mem = s.mem := by
  unfold State.fixLaunch
  split <;> rfl

@[simp] theorem irrevocable_mem (s : State) (w : Warp) : (s.irrevocable w).mem = s.mem := by
  simp [State.irrevocable]

/-! Homes and L1. -/

@[simp] theorem settleCount_mem (s : State) (c slot cls id : Nat) : (s.settleCount c slot cls id).mem = s.mem := by
  unfold State.settleCount
  split <;> rfl

@[simp] theorem unmark_mem (s : State) (c d : Nat) (p : Nat → Bool) : (s.unmark c d p).mem = s.mem := by
  unfold State.unmark
  dsimp only
  split <;> rfl

@[simp] theorem dropClean_mem (s : State) (c d : Nat) : (s.dropClean c d).mem = s.mem := by
  unfold State.dropClean
  dsimp only
  split <;> simp

/-! Traps. -/

@[simp] theorem parkSyncs_mem (s : State) (c w : Nat) : (s.parkSyncs c w).mem = s.mem := rfl

@[simp] theorem wakePart_mem (s : State) (p : Nat) : (s.wakePart p).mem = s.mem := rfl

@[simp] theorem mailStore_mem (s : State) (rot : Nat) : (s.mailStore rot).mem = s.mem := by
  unfold State.mailStore
  split <;> simp

@[simp] theorem launchLog_mem (s : State) (c : Nat) (w : Warp) (pa rot : Nat) : (s.launchLog c w pa rot).mem = s.mem := by
  unfold State.launchLog
  dsimp only
  (repeat' split) <;> rfl

@[simp] theorem noteWrite_mem (s : State) (c : Nat) (w : Warp) (pa rot : Nat) (sc : Scope) :
    (s.noteWrite c w pa rot sc).mem = s.mem := by
  unfold State.noteWrite
  split <;> simp

@[simp] theorem unask_mem (s : State) (c slot : Nat) : (s.unask c slot).mem = s.mem := rfl

@[simp] theorem controlTrap_mem (s : State) (c : Nat) (r : Report) : (s.controlTrap c r).mem = s.mem := by
  unfold State.controlTrap
  (repeat' split) <;> rfl

/-! Operands and results. -/

@[simp] theorem openWindow_mem (s : State) (L : BitVec 4) (ids dest : List Nat) : (s.openWindow L ids dest).mem = s.mem := rfl

@[simp] theorem countEngine_mem (s : State) (cls id : Nat) : (s.countEngine cls id).mem = s.mem := rfl

@[simp] theorem commit_mem (s : State) (c slot : Nat) (ws : List LaneWrite) : (s.commit c slot ws).mem = s.mem := rfl

@[simp] theorem laneDone_mem (s : State) (c slot lane id : Nat) : (s.laneDone c slot lane id).mem = s.mem := rfl

@[simp] theorem begin_mem (s : State) (L : BitVec 4) (cls : Option Nat) (dest : List Nat) (kind : PendKind) :
    (s.begin_ L cls dest kind).mem = s.mem := by
  unfold State.begin_
  dsimp only
  split <;> rfl

/-! Translation and fetch. -/

@[simp] theorem cacheRot_mem (s : State) (page : Nat) : (s.cacheRot page).mem = s.mem := rfl

@[simp] theorem xlateWalk_mem (s : State) (x : XReq) (va : Nat) : (s.xlateWalk x va).2.mem = s.mem := by
  unfold State.xlateWalk
  (repeat' split) <;> rfl

theorem fetchWord_mem (s : State) (core : Nat) (w : Warp) (off : Nat) :
    ∀ b t, s.fetchWord core w off = .ok (b, t) → t.mem = s.mem := fun b t h =>
  (congrArg State.mem (fetchWord_afterFetch s t core w off b h).1 :)

/-! Scratchpad. -/

@[simp] theorem wakeWord_mem (s : State) (r : SpRef) (n : Nat) : (s.wakeWord r n).mem = s.mem := rfl

@[simp] theorem spWrite_mem (s : State) (r : SpRef) (data : List Byte) : (s.spWrite r data).mem = s.mem := rfl

@[simp] theorem setFull_mem (s : State) (block i : Nat) (f : Bool) : (s.setFull block i f).mem = s.mem := rfl

/-! Copies. -/

@[simp] theorem copyPlace_mem (s : State) (c : CopyCmd) (w : Warp) (side : CopySide) (al n : Nat) (write : Bool) :
    (s.copyPlace c w side al n write).2.mem = s.mem := by
  cases side with
  | spad word o => rfl
  | mem va =>
    unfold State.copyPlace
    dsimp only
    split
    · rfl
    · split <;> next e => exact mem_of_snd (xlateWalk_mem s _ va) e

/-! Tiles. -/

@[simp] theorem settleOne_mem (s : State) (cl : Nat) (k : Cluster) : ∀ t ∈ (s.settleOne cl k), t.mem = s.mem := by
  unfold State.settleOne
  (repeat' split) <;> simp

@[simp] theorem settleFrom_mem (cl n : Nat) (s : State) : (s.settleFrom cl n).mem = s.mem := by
  induction n generalizing s with
  | zero => rfl
  | succ n ih =>
    unfold State.settleFrom
    split
    · split
      · next s1 e => exact (ih s1).trans (settleOne_mem s cl _ s1 e)
      · rfl
    · rfl

@[simp] theorem freeTiles_mem (s : State) (cl : Nat) : (s.freeTiles cl).mem = s.mem := rfl

@[simp] theorem settleTiles_mem (s : State) (cl : Nat) : (s.settleTiles cl).mem = s.mem := by
  simp [State.settleTiles]

/-! Launches. -/

@[simp] theorem foldStore_mem (s : State) (block a : Nat) (spad : Bool) (data : List Byte) :
    (s.foldStore block a spad data).mem = s.mem := rfl

@[simp] theorem unfoldStore_mem (s : State) (block a : Nat) (spad : Bool) (data : List Byte) :
    (s.unfoldStore block a spad data).mem = s.mem := rfl

@[simp] theorem endBlock_mem (s : State) (id : Nat) : (s.endBlock id).mem = s.mem := by
  unfold State.endBlock
  dsimp only
  (repeat' split) <;> simp

@[simp] theorem dropWork_mem (s : State) (id : Nat) : (s.dropWork id).mem = s.mem := by
  unfold State.dropWork
  split <;> rfl

@[simp] theorem endBlocks_mem (s : State) (ids : List Nat) : (s.endBlocks ids).mem = s.mem := by
  unfold State.endBlocks
  exact foldl_mem _ (fun s x => by simp) _ _

/-! Waiting accesses. -/

@[simp] theorem setPend_mem (s : State) (id : Nat) (k : PendKind) : (s.setPend id k).mem = s.mem := rfl

@[simp] theorem wakeLane_mem (s : State) (c slot lane : Nat) (f : Thread → Thread) : (s.wakeLane c slot lane f).mem = s.mem := rfl

@[simp] theorem moveOn_mem (s : State) (c slot lane : Nat) (dest : List Nat) (next : Option Held) :
    (s.moveOn c slot lane dest next).mem = s.mem := by
  unfold State.moveOn
  split <;> rfl

@[simp] theorem leaveQueue_mem (s : State) (p : Pending) (lane : Nat) : (s.leaveQueue p lane).mem = s.mem := by
  unfold State.leaveQueue
  dsimp only
  (repeat' split) <;> simp [endPending_mem]

@[simp] theorem lateAcquire_mem (s : State) (c slot lane : Nat) (sc : Scope) : (s.lateAcquire c slot lane sc).mem = s.mem := by
  unfold State.lateAcquire
  (repeat' split) <;> simp

@[simp] theorem serveOne_mem (s : State) (p : Pending) (x : SyncLane) : (s.serveOne p x).mem = s.mem := by
  unfold State.serveOne
  (repeat' split) <;> simp

@[simp] theorem serve_mem (block i n : Nat) (s : State) : (s.serve block i n).mem = s.mem := by
  induction n generalizing s with
  | zero => rfl
  | succ n ih =>
    unfold State.serve
    split
    · rfl
    · next p x _ => exact (ih _).trans (serveOne_mem s p x)

@[simp] theorem serveWord_mem (s : State) (block i : Nat) : (s.serveWord block i).mem = s.mem := serve_mem block i _ s

@[simp] theorem stopLdat_mem (s : State) (p : Pending) (lanes : List LdatLane) (cause : Cause) (deferred : Bool) :
    (s.stopLdat p lanes cause deferred).mem = s.mem := by
  unfold State.stopLdat
  dsimp only
  (repeat' split) <;> simp [endPending_mem]

@[simp] theorem retryOps_mem (l : List Pending) (s : State) : (s.retryOps l).mem = s.mem := by
  induction l generalizing s with
  | nil => rfl
  | cons p l ih =>
    have hserve : ∀ q : List SyncLane, (q.foldl (fun (s : State) x => s.serveWord x.block x.index) { s with pend := s.pend ++ [p] }).mem =
        s.mem :=
      fun q => foldl_mem _ (fun s x => serveWord_mem s x.block x.index) q _
    unfold State.retryOps
    dsimp only
    rw [ih]
    split
    · split <;> simp [hserve]
    · exact hserve _

@[simp] theorem retryWarp_mem (s : State) (c slot : Nat) : (s.retryWarp c slot).mem = s.mem := by
  unfold State.retryWarp
  split
  · split <;> simp
  · rfl

/-! Registers. -/

@[simp] theorem putPart_mem (s : State) (p : Nat) (f : Part → Part) : (s.putPart p f).mem = s.mem := rfl

@[simp] theorem beginDomain_mem (s : State) (c did : Nat) : (s.beginDomain c did).mem = s.mem := by
  unfold State.beginDomain
  (repeat' split) <;> rfl

@[simp] theorem startDomains_mem (s : State) (p : Nat) : (s.startDomains p).mem = s.mem := rfl

@[simp] theorem announce_mem (s : State) (isD : Bool) (v : Nat) : ∀ t ∈ (s.announce isD v), t.mem = s.mem := by
  unfold State.announce
  dsimp only
  (repeat' split) <;> simp

@[simp] theorem unsuspend_mem (s : State) (c slot : Nat) (f : Warp → Warp) : (s.unsuspend c slot f).mem = s.mem := by
  simp [State.unsuspend]

@[simp] theorem replay_mem (s : State) (id : Nat) : (s.replay id).mem = s.mem := rfl

@[simp] theorem unfoldAccs_mem (s : State) (c slot : Nat) (l : List Acc) : (s.unfoldAccs c slot l).mem = s.mem := by
  unfold State.unfoldAccs
  split
  · exact foldl_mem _ (fun s a => by split <;> rfl) l s
  · rfl

@[simp] theorem passProbe_mem (s : State) (c slot : Nat) (a : Acc) : (s.passProbe c slot a).mem = s.mem := by
  unfold State.passProbe
  split <;> rfl

@[simp] theorem discardAccess_mem (s : State) (p : Pending) : (s.discardAccess p).mem = s.mem := by
  have hprobe : ∀ (l : List Acc) (x : State), (l.foldl (fun s a => s.passProbe p.core p.slot a) x).mem = x.mem :=
    fun l x => foldl_mem _ (fun s a => passProbe_mem s p.core p.slot a) l x
  unfold State.discardAccess
  split
  · dsimp only
    (repeat' split) <;> simp [hprobe]
  · exact endPending_mem s p

@[simp] theorem tstatResume_mem (s : State) (c slot : Nat) : ∀ t ∈ (s.tstatResume c slot), t.mem = s.mem := by
  unfold State.tstatResume
  (repeat' split) <;> simp

/-! Accesses. -/

@[simp] theorem l1Write_mem (s : State) (c d pa : Nat) (data : List Byte) : (s.l1Write c d pa data).mem = s.mem := rfl

@[simp] theorem sendAll_mem (s : State) : s.sendAll.mem = s.mem := rfl

@[simp] theorem sendPkt_mem (s : State) (p : Pkt) : (s.sendPkt p).mem = s.mem := rfl

@[simp] theorem dropPkt_mem (s : State) (id : Nat) : (s.dropPkt id).mem = s.mem := rfl

@[simp] theorem request_mem (s : State) (c slot : Nat) (w : Warp) (opid : Option Nat) (a : Acc) (pa rot : Nat) (kind : ReqKind) :
    (s.request c slot w opid a pa rot kind).mem = s.mem := rfl

@[simp] theorem windowAccess_mem (s : State) (c slot : Nat) (w : Warp) (opid : Nat) (a : Acc) (pa rot : Nat) :
    (s.windowAccess c slot w opid a pa rot).mem = s.mem := by
  unfold State.windowAccess
  (repeat' split) <;> simp

@[simp] theorem after_mem (s : State) (c d : Nat) (l : List Acc) : (s.after c d l).mem = s.mem := by
  unfold State.after
  split <;> simp

@[simp] theorem walkAll_mem (s : State) (w : Warp) (l : List Acc) : (s.walkAll w l).mem = s.mem :=
  foldl_mem _ (fun s (a : Acc) => xlateWalk_mem s (a.request w) a.va) l s

@[simp] theorem foldAll_mem (s : State) (w : Warp) (l : List Acc) : (s.foldAll w l).mem = s.mem :=
  foldl_mem _ (fun s a => by split <;> rfl) l s

@[simp] theorem accepted_mem (s : State) (m : MemUse) (id : Nat) (writes : List LaneWrite) (waits : Bool) (walk : List Acc) :
    (s.accepted m id writes waits walk).mem = s.mem := by
  unfold State.accepted
  (repeat' split) <;> rfl

@[simp] theorem noteAccept_mem (s : State) (w : Warp) (a : Acc) : (s.noteAccept w a).mem = s.mem := by
  unfold State.noteAccept
  dsimp only
  (repeat' split) <;> simp

/-! Scratchpad accesses. -/

@[simp] theorem spAcquire_mem (s : State) (w : Warp) (ord : Cur → Order) (scope : Scope) (lanes : List Nat) :
    (s.spAcquire w ord scope lanes).mem = s.mem := by
  unfold State.spAcquire
  dsimp only
  (repeat' split) <;> simp

@[simp] theorem spResult_mem (s : State) (L : BitVec 4) (res : ResKind) (dest : List Nat) (ws : List LaneWrite)
    (queued : List Nat) :
    (s.spResult L res dest ws queued).mem = s.mem := by
  unfold State.spResult
  dsimp only
  split <;> rfl

@[simp] theorem takeFull_mem (r : Nat) (word : Thread → Nat) (l : List (Nat × Thread × SpRef)) (s : State) :
    (s.takeFull r word l).1.mem = s.mem := by
  induction l generalizing s with
  | nil => rfl
  | cons x l ih =>
    obtain ⟨n, t, p⟩ := x
    unfold State.takeFull
    dsimp only
    split
    · exact (ih _).trans (by simp)
    · exact ih s

@[simp] theorem queueSync_mem (s : State) (L : BitVec 4) (lanes dest : List Nat) (kind : Option Held → PendKind) :
    (s.queueSync L lanes dest kind).mem = s.mem := rfl

@[simp] theorem storeLanes_mem (w : Warp) (f : Thread → List Byte) (word : Thread → Nat) (mark : Bool)
    (l : List (Nat × Thread × SpRef)) (s : State) : (s.storeLanes w f word mark l).mem = s.mem := by
  induction l generalizing s with
  | nil => rfl
  | cons x l ih =>
    obtain ⟨n, t, p⟩ := x
    unfold State.storeLanes
    dsimp only
    rw [ih]
    split <;> simp

@[simp] theorem fillEmpty_mem (w : Warp) (f word : Thread → Nat) (l : List (Nat × Thread × SpRef)) (s : State) :
    (s.fillEmpty w f word l).1.mem = s.mem := by
  induction l generalizing s with
  | nil => rfl
  | cons x l ih =>
    obtain ⟨n, t, p⟩ := x
    unfold State.fillEmpty
    dsimp only
    split
    · exact ih s
    · exact (ih _).trans (by simp)

@[simp] theorem atomLanes_mem (r : Nat) (o : AtomOp) (l : List (Nat × Thread × SpRef)) (s : State) :
    (s.atomLanes r o l).1.mem = s.mem := by
  induction l generalizing s with
  | nil => rfl
  | cons x l ih => exact (ih _).trans (by simp)

@[simp] theorem elemStores_mem (s : State) (w : Warp) (l : List (Nat × List Byte × Elem)) : (s.elemStores w l).mem = s.mem :=
  foldl_mem _ (fun s x => by split <;> simp) l s

/-! Copy engines. -/

@[simp] theorem acceptCopy_mem (s : State) (w : Warp) (lane : Nat) (cls : Nat) (kind : CopyKind) (value : Word)
    (done : Option CopySide) :
    (s.acceptCopy w lane cls kind value done).mem = s.mem := by
  unfold State.acceptCopy
  dsimp only
  (repeat' split) <;> simp

@[simp] theorem modCopy_mem (s : State) (id : Nat) (f : CopyCmd → CopyCmd) : (s.modCopy id f).mem = s.mem := rfl

@[simp] theorem sidePlace_mem (s : State) (c : CopyCmd) (w : Warp) (both write : Bool) (p : Piece) (side : CopySide) :
    (s.sidePlace c w both write p side).2.mem = s.mem := by
  unfold State.sidePlace
  split
  · next e => exact mem_of_snd (copyPlace_mem s c w side _ _ write) e
  · exact copyPlace_mem s c w side _ _ write

@[simp] theorem copyPkt_mem (s : State) (c : CopyCmd) (pa rot va : Nat) (kind : PktKind) :
    (s.copyPkt c pa rot va kind).mem = s.mem := by
  unfold State.copyPkt
  split <;> rfl

@[simp] theorem captureSrc_mem (id : Nat) (w : Warp) (both : Bool) (l : List Piece) (s : State) :
    (s.captureSrc id w both l).mem = s.mem := by
  induction l generalizing s with
  | nil => rfl
  | cons p l ih =>
    unfold State.captureSrc
    dsimp only
    rw [ih]
    split
    · next c _ =>
      split
      · rfl
      · split
        · rfl
        · next x _ =>
          have hplace := sidePlace_mem s c w both false p x
          split
          · next r s1 e => exact (modCopy_mem s1 id _).trans (mem_of_snd hplace e)
          · next pa rot s1 e =>
            have h1 := mem_of_snd hplace e
            split <;> simp [h1]
          · next e => exact mem_of_snd hplace e
    · rfl

@[simp] theorem fillWord_mem (s : State) (r : SpRef) (v : Word) : (s.fillWord r v).mem = s.mem := by
  simp [State.fillWord]

@[simp] theorem chargeEngine_mem (s : State) (part clocks : Nat) : (s.chargeEngine part clocks).mem = s.mem := rfl

@[simp] theorem takeCopy_mem (s : State) (e : Nat) (c : CopyCmd) : (s.takeCopy e c).mem = s.mem := by
  unfold State.takeCopy
  dsimp only
  split <;> simp

@[simp] theorem refill_mem (s : State) : s.refill.mem = s.mem := rfl

/-! Memory instructions. -/

@[simp] theorem stallEach_mem (s : State) (l : List (Nat × Wait)) : (s.stallEach l).mem = s.mem := rfl

@[simp] theorem waitRef_mem (s : State) (w : Warp) (aperture : Bool) (size va : Nat) :
    (s.waitRef w aperture size va).2.mem = s.mem := by
  have hx : ∀ x : XReq, (if isControl s.cur.core then s.xlateWalk x va else (s.xlate x va, s)).2.mem = s.mem := fun x => by
    split <;> simp
  unfold State.waitRef
  dsimp only
  split
  · rfl
  · split
    · rfl
    · split
      · rfl
      · split <;> next e => exact mem_of_snd (hx _) e

@[simp] theorem waitRefs_mem (w : Warp) (aperture : Bool) (size r : Nat) (l : List (Nat × Thread)) (s : State) :
    (s.waitRefs w aperture size r l).2.mem = s.mem := by
  induction l generalizing s with
  | nil => rfl
  | cons x l ih => exact (ih _).trans (waitRef_mem s w aperture size _)

@[simp] theorem probeWalk_mem (s : State) (size a : Nat) (l : List (Nat × Thread × WaitRef)) :
    (s.probeWalk size a l).mem = s.mem := rfl

@[simp] theorem meetCondition_mem (s : State) (w : Warp) (ord : Order) (holds : Thread → Nat → Bool) (vals : List
    (Nat × Thread × WaitRef × Nat)) :
    (s.meetCondition w ord holds vals).mem = s.mem := by
  unfold State.meetCondition
  dsimp only
  split <;> simp

@[simp] theorem giveFlags_mem (s : State) (c slot lane : Nat) (fl : BitVec 5) : (s.giveFlags c slot lane fl).mem = s.mem := rfl

/-! Tables and gates. -/

@[simp] theorem landingAt_mem (s : State) (w : Warp) (t label : Nat) : (s.landingAt w t label).2.mem = s.mem := by
  unfold State.landingAt
  split
  · rfl
  · next b s1 e => exact fetchWord_mem s _ w t b s1 e

@[simp] theorem keepGate_mem (s : State) (g : Option (List Word)) : (s.keepGate g).mem = s.mem := rfl

/-! The transformed mean. -/

@[simp] theorem engineRead_mem (w : Warp) (eng : Bool) (k va n : Nat) (s : State) : (s.engineRead w eng k va n).2.mem = s.mem := by
  induction k generalizing s va n with
  | zero => rfl
  | succ k ih =>
    unfold State.engineRead
    dsimp only
    split
    · rfl
    · split
      · rfl
      · split
        · next pa rot s1 e =>
          have h1 := mem_of_snd (xlateWalk_mem s _ va) e
          split
          · exact h1
          · split
            · exact h1
            · split <;> next e2 => exact (mem_of_snd (ih _ _ s1) e2).trans h1
        · next e => exact mem_of_snd (xlateWalk_mem s _ va) e
        · next e => exact mem_of_snd (xlateWalk_mem s _ va) e

/-! System instructions. -/

@[simp] theorem takeSet_mem (s : State) (set : XSet) : (s.takeSet set).mem = s.mem := rfl

@[simp] theorem dropSet_mem (s : State) (c slot : Nat) : (s.dropSet c slot).mem = s.mem := by
  unfold State.dropSet
  (repeat' split) <;> rfl

@[simp] theorem keepTypes_mem (s : State) (pages : List Nat) : (s.keepTypes pages).mem = s.mem := rfl

@[simp] theorem sendManifest_mem (s : State) (w : Warp) (lane : Nat) (far : List (Nat × Nat × Nat × Nat)) :
    (s.sendManifest w lane far).mem = s.mem := by
  unfold State.sendManifest
  exact foldl_mem _ (fun s x => by simp) _ _

/-! Domains. -/

@[simp] theorem stopDomain_mem (s : State) (p did : Nat) : (s.stopDomain p did).mem = s.mem := by
  unfold State.stopDomain
  exact foldl_mem _ (fun s x => by simp) _ _

@[simp] theorem startDomain_mem (s : State) (p did : Nat) : (s.startDomain p did).mem = s.mem := by
  unfold State.startDomain
  exact foldl_mem _ (fun s x => by simp) _ _

@[simp] theorem retryDomain_mem (s : State) (p did : Nat) : (s.retryDomain p did).mem = s.mem := by
  unfold State.retryDomain
  exact foldl_mem _ (fun s x => by simp) _ _

@[simp] theorem landFlags_mem (s : State) (ws : List (Nat × Nat)) : (s.landFlags ws).mem = s.mem := by
  unfold State.landFlags
  exact foldl_mem _ (fun s x => by simp) _ _

@[simp] theorem tellAsker_mem (s : State) (a : Asker) (code : Word) : (s.tellAsker a code).mem = s.mem := by
  unfold State.tellAsker
  split <;> rfl

@[simp] theorem tellAskers_mem (s : State) (p did action : Nat) (code : Word) : (s.tellAskers p did action code).mem = s.mem := by
  unfold State.tellAskers
  dsimp only
  split
  · rfl
  · exact foldl_mem _ (fun s a => tellAsker_mem s a code) _ _

@[simp] theorem freeze_mem (s : State) (p did : Nat) (code : Word) : (s.freeze p did code).mem = s.mem := by
  unfold State.freeze
  dsimp only
  rw [tellAskers_mem, modDomain_mem]
  refine foldl_mem _ ?_ _ s
  exact fun _ _ => rfl

/-! The matrix engines. -/

@[simp] theorem enterCmd_mem (s : State) (w : Warp) (lane : Nat) (pc : Word) (cls : Option Nat) (kind : MatKind)
    (f : Cluster → Cluster) :
    (s.enterCmd w lane pc cls kind f).mem = s.mem := by
  unfold State.enterCmd
  dsimp only
  split <;> rfl

@[simp] theorem endCmd_mem (s : State) (L : BitVec 4) : (s.endCmd L).mem = s.mem := by
  simp [State.endCmd]

@[simp] theorem readRuns_mem (w : Warp) (l : List (Nat × Nat)) (s : State) : (s.readRuns w l).2.mem = s.mem := by
  induction l generalizing s with
  | nil => rfl
  | cons x l ih =>
    obtain ⟨va, n⟩ := x
    unfold State.readRuns
    split
    · next s1 e =>
      have h1 := mem_of_snd (engineRead_mem w true 3 va n s) e
      split <;> next e2 => exact (mem_of_snd (ih s1) e2).trans h1
    · next e => exact mem_of_snd (engineRead_mem w true 3 va n s) e

@[simp] theorem modCmd_mem (s : State) (cl id : Nat) (f : MatCmd → MatCmd) : (s.modCmd cl id f).mem = s.mem := rfl

theorem matPass_mem (s : State) (cl : Nat) (m : MatCmd) (w : Warp) :
    (s.matPass cl m w).2.mem = s.mem ∧ ∀ t, (s.matPass cl m w).1 = .ok t → t.mem = s.mem := by
  unfold State.matPass
  dsimp only
  split
  · split
    · split
      · next e =>
        have h1 := mem_of_snd (readRuns_mem w _ s) e
        exact ⟨h1, fun t ht => by cases ht; exact h1⟩
      · next e => exact ⟨mem_of_snd (readRuns_mem w _ s) e, fun t ht => by cases ht⟩
    · exact ⟨rfl, fun t ht => by cases ht⟩
  · next fw tile s0 k aspad addr boff stride ainc binc asc bsc _ =>
    have hgot : ∀ (l : List (List Byte)) (l2 : List (Nat × Nat)),
        (if aspad then ((.ok l, s) : Except (Cause × Nat) (List (List Byte)) × State) else s.readRuns w l2).2.mem = s.mem :=
      fun l l2 => by split <;> simp
    split
    · split
      · next e =>
        have h1 := mem_of_snd (hgot _ _) e
        exact ⟨h1, fun t ht => by cases ht; exact h1⟩
      · next e => exact ⟨mem_of_snd (hgot _ _) e, fun t ht => by cases ht⟩
    · exact ⟨rfl, fun t ht => by cases ht⟩
  · exact ⟨rfl, fun t ht => by cases ht⟩

@[simp] theorem raiseMark_mem (s : State) (cl id n : Nat) : (s.raiseMark cl id n).mem = s.mem := rfl

/-! Windows. -/

@[simp] theorem winRef_mem (s : State) (w : Warp) (wr : Bool) (size va : Nat) : (s.winRef w wr size va).2.mem = s.mem := by
  unfold State.winRef
  split
  · rfl
  · split
    · rfl
    · split <;> next e => exact mem_of_snd (xlateWalk_mem s _ va) e

@[simp] theorem winRefs_mem (w : Warp) (wr : Bool) (size r : Nat) (l : List (Nat × Thread)) (s : State) :
    (s.winRefs w wr size r l).2.mem = s.mem := by
  induction l generalizing s with
  | nil => rfl
  | cons x l ih => exact (ih _).trans (winRef_mem s w wr size _)

@[simp] theorem winPkt_mem (s : State) (w : Warp) (lane va : Nat) (r : WinRef) (kind : PktKind) (cls : Traffic)
    (op : Option Nat) (cnt : Option (Nat × Nat)) :
    (s.winPkt w lane va r kind cls op cnt).mem = s.mem := rfl

@[simp] theorem wakeFor_mem (s : State) (p : Pkt) : (s.wakeFor p).mem = s.mem := rfl

@[simp] theorem answer_mem (s : State) (p : Pkt) (regs : List (Nat × Word)) (flags : BitVec 5) : (s.answer p regs flags).mem = s.mem := by
  unfold State.answer
  dsimp only
  (repeat' split) <;> simp [endPending_mem]

@[simp] theorem acquireFor_mem (s : State) (p : Pkt) (acq : Bool) : (s.acquireFor p acq).mem = s.mem := by
  unfold State.acquireFor
  split <;> simp

@[simp] theorem deferWindow_mem (s : State) (p : Pkt) (id cls : Nat) : (s.deferWindow p id cls).mem = s.mem := rfl

@[simp] theorem arrivalNote_mem (s : State) (p pa : Nat) : (s.arrivalNote p pa).mem = s.mem := by
  unfold State.arrivalNote
  split <;> simp

@[simp] theorem refuseTo_mem (s : State) (source : Nat) : (s.refuseTo source).mem = s.mem := rfl

@[simp] theorem replyTo_mem (s : State) (source : Nat) (b : List Byte) : (s.replyTo source b).mem = s.mem := rfl

@[simp] theorem keyMissed_mem (s : State) (port source : Nat) : (s.keyMissed port source).mem = s.mem := rfl

/-! Time. -/

@[simp] theorem recRef_mem (s : State) (w : Warp) (wr : Bool) (va : Nat) : (s.recRef w wr va).2.mem = s.mem := by
  unfold State.recRef
  split
  · rfl
  · split
    · rfl
    · split <;> next e => exact mem_of_snd (xlateWalk_mem s _ va) e

@[simp] theorem recRefs_mem (w : Warp) (wr : Bool) (r : Nat) (l : List (Nat × Thread)) (s : State) :
    (s.recRefs w wr r l).2.mem = s.mem := by
  induction l generalizing s with
  | nil => rfl
  | cons x l ih => exact (ih _).trans (recRef_mem s w wr _)

@[simp] theorem takeStamp_mem (s : State) (w : Warp) (id a d : Nat) (x : Nat × Thread × RecRef) :
    (s.takeStamp w id a d x).mem = s.mem := rfl

@[simp] theorem deferStamp_mem (s : State) (h : Hold) (c : Cause) : (s.deferStamp h c).mem = s.mem := rfl

@[simp] theorem endHold_mem (s : State) (h : Hold) (c : Option Cause) : (s.endHold h c).mem = s.mem := by
  unfold State.endHold
  split <;> simp

@[simp] theorem failLdat_mem (s : State) (p : Pending) : (s.failLdat p).mem = s.mem := by
  unfold State.failLdat
  split <;> simp

@[simp] theorem failLdats_mem (s : State) : s.failLdats.mem = s.mem := by
  unfold State.failLdats
  exact foldl_mem _ (fun s x => by simp) _ _

@[simp] theorem setFail_mem (s : State) (xcl : Bool) : (s.setFail xcl).mem = s.mem := by
  unfold State.setFail
  dsimp only
  rw [failLdats_mem]
  exact foldl_mem _ (fun s h => endHold_mem s h _) _ _

@[simp] theorem sendNotice_mem (s : State) (kind port named : Nat) : (s.sendNotice kind port named).mem = s.mem := rfl

theorem withElement_mem (s : State) (e : Element) : ({ s with element := e } : State).mem = s.mem := rfl

@[simp] theorem logNotice_mem (s : State) (kind port sender named : Nat) : (s.logNotice kind port sender named).mem = s.mem :=
  withElement_mem s _

@[simp] theorem endTimedHalts_mem (s : State) : s.endTimedHalts.mem = s.mem := rfl

@[simp] theorem beforeTick_mem (s : State) : s.beforeTick.mem = s.mem := by
  unfold State.beforeTick
  dsimp only
  (repeat' split) <;> simp

@[simp] theorem fromServo_mem (s : State) (f : Deckle → Candidate → Deckle) : (s.fromServo f).mem = s.mem := by
  unfold State.fromServo
  split <;> rfl

/-! The platform. -/

@[simp] theorem holdAtHub_mem (s : State) (p : Nat) (i : Instr) : (s.holdAtHub p i).mem = s.mem := rfl

@[simp] theorem hostRead_mem (s : State) : s.hostRead.mem = s.mem := rfl

@[simp] theorem denyRequest_mem (s : State) : s.denyRequest.mem = s.mem := rfl

@[simp] theorem requestWrite_mem (s : State) : s.requestWrite.mem = s.mem := rfl

@[simp] theorem pageRead_mem (s : State) (page : List Byte) : (s.pageRead page).mem = s.mem := rfl

@[simp] theorem reportFailure_mem (s : State) (x : Nat) : (s.reportFailure x).mem = s.mem := rfl

@[simp] theorem startImage_mem (s : State) (cores : List Nat) (part : Nat) (level : Level) :
    (s.startImage cores part level).mem = s.mem := by
  unfold State.startImage
  exact foldl_mem _ (fun s x => by simp) _ _

@[simp] theorem ask_mem (s : State) (req : Nat) : (s.ask req).mem = s.mem := rfl

@[simp] theorem endRequest_mem (s : State) (state reason : Nat) : (s.endRequest state reason).mem = s.mem := rfl

@[simp] theorem portDown_mem (s : State) (port far : Nat) : (s.portDown port far).mem = s.mem := by
  unfold State.portDown
  dsimp only
  rw [sendNotice_mem, logNotice_mem]
  exact foldl_mem _ (fun s (h : Hop) => refuseTo_mem s h.source) _ _

@[simp] theorem passOn_mem (s : State) (h : Hop) : (s.passOn h).mem = s.mem := by
  unfold State.passOn
  (repeat' split) <;> rfl

theorem hopAcked_mem (s : State) (id : Nat) : ∀ t ∈ s.hopAcked id, t.mem = s.mem := by
  have hon : ∀ (l : List Hop) (x : State), (l.foldl State.passOn x).sendAll.mem = x.mem :=
    fun l x => (sendAll_mem _).trans (foldl_mem _ passOn_mem l x)
  unfold State.hopAcked
  dsimp only
  split
  · rintro _ ⟨⟩
    exact hon _ _
  · split
    · rintro _ ⟨⟩
      exact hon _ _
    · rintro _ ⟨⟩

/-! Issue. -/

@[simp] theorem holdWaiting_mem (s : State) (c p : Nat) : (s.holdWaiting c p).mem = s.mem :=
  foldl_mem _ (fun s x => by split <;> rfl) _ s

@[simp] theorem idleRound_mem (s : State) (c p : Nat) : (s.idleRound c p).mem = s.mem := rfl

@[simp] theorem idleRounds_mem (s : State) : s.idleRounds.mem = s.mem :=
  foldl_mem _ (fun s k => foldl_mem _ (fun s p => by dsimp only; split <;> simp) _ s) _ s

theorem grant_mem (s : State) (c p : Nat) : ∀ t ∈ s.grant c p, t.mem = s.mem := by
  intro t ht
  obtain ⟨x, -, rfl⟩ := Option.map_eq_some_iff.mp ht
  exact holdWaiting_mem s c p

@[simp] theorem fetchNext_mem (s : State) : s.fetchNext.2.mem = s.mem := by
  unfold State.fetchNext
  split
  · split
    · next b s1 e => exact fetchWord_mem s _ _ _ b s1 e
    · rfl
  · rfl

end Sys2Proof.Machine
end

section
/-!
PROOFS. Every step keeps the canonical form of memory (log 3): the operations of the model that write memory, and those that give an
outcome, in the order in which the model defines them. What writes does so through the homes, whose writes keep the form.
-/

namespace Sys2Proof.Machine

/-- An outcome whose next state, where there is one, has canonical memory (log 3). -/
def Canonical : Out → Prop
  | .next t => Memory.wf t.mem = true
  | _ => True

@[simp] theorem canonical_next (t : State) : Canonical (.next t) ↔ Memory.wf t.mem = true := Iff.rfl
@[simp] theorem canonical_fault (f : Fault) : Canonical (.fault f) ↔ True := Iff.rfl

theorem wf_steps : Steps (fun s t => Memory.wf s.mem = true → Memory.wf t.mem = true) where
  refl := fun _ h => h
  trans := fun _ _ _ a b h => b (a h)
  reqs := fun _ _ h => h
  flags := fun _ _ h => h
  write := homeWrite_wf
  settle := fun s c n cls id h => by rw [settleCount_mem]; exact h
  core := fun _ _ _ _ h => h

theorem foldl_fst_wf {α β : Type} (f : State × β → α → State × β)
    (hf : ∀ x a, Memory.wf x.1.mem = true → Memory.wf (f x a).1.mem = true) (l : List α) (x : State × β)
    (hx : Memory.wf x.1.mem = true) : Memory.wf (l.foldl f x).1.mem = true := by
  induction l generalizing x with
  | nil => exact hx
  | cons a l ih => exact ih _ (hf x a hx)

section
variable {s : State} (hs : Memory.wf s.mem = true)
include hs

theorem getD_wf (o : Option State) (h : ∀ t ∈ o, Memory.wf t.mem = true) : Memory.wf (o.getD s).mem = true := by
  cases o with
  | none => exact hs
  | some t => exact h t rfl

/-! Homes and L1. -/

@[simp] theorem applyReq_wf (r : Req) : Memory.wf (s.applyReq r).mem = true := wf_steps.applyReq s r hs

@[simp] theorem drain_wf (p : Req → Bool) : Memory.wf (s.drain p).mem = true := wf_steps.drain s p hs

@[simp] theorem drainOwn_wf (c line : Nat) : Memory.wf (s.drainOwn c line).mem = true := by
  simp [State.drainOwn, hs]

@[simp] theorem drainWarp_wf (c slot : Nat) : Memory.wf (s.drainWarp c slot).mem = true := by
  simp [State.drainWarp, hs]

@[simp] theorem drainCore_wf (c : Nat) : Memory.wf (s.drainCore c).mem = true := by
  simp [State.drainCore, hs]

@[simp] theorem writeDirty_wf (c : Nat) (t : Tbl (Byte × Bool)) : Memory.wf (s.writeDirty c t).mem = true :=
  wf_steps.writeDirty c t s hs

@[simp] theorem writeBack_wf (c d : Nat) : Memory.wf (s.writeBack c d).mem = true := wf_steps.writeBack s c d hs

@[simp] theorem flushL1_wf (c d : Nat) : Memory.wf (s.flushL1 c d).mem = true := by
  simp [State.flushL1, hs]

@[simp] theorem leaveL1_wf (c d : Nat) (p : Nat → Bool) : Memory.wf (s.leaveL1 c d p).mem = true := wf_steps.leaveL1 s c d p hs

@[simp] theorem writeOut_wf (c d line : Nat) : Memory.wf (s.writeOut c d line).mem = true := by
  simp [State.writeOut, hs]

@[simp] theorem toHome_wf (c d line : Nat) : Memory.wf (s.toHome c d line).mem = true := by
  simp [State.toHome, hs]

@[simp] theorem release_wf (c d : Nat) (sc : Scope) : Memory.wf (s.release c d sc).mem = true := wf_steps.release s c d sc hs

@[simp] theorem changeSlot_wf (c d e : Nat) : Memory.wf (s.changeSlot c d e).mem = true := wf_steps.changeSlot s c d e hs

/-! Traps. -/

@[simp] theorem putRecord_wf (p : Nat) (q : Part) (ws : List Word) : Memory.wf (s.putRecord p q ws).mem = true := by
  simp [State.putRecord, homeWriteLong_wf, hs]

@[simp] theorem postNow_wf (p : Nat) (q : Part) (r : HeldRec) : Memory.wf (s.postNow p q r).mem = true := by
  cases r with
  | words ws => exact putRecord_wf hs p q ws
  | warp c slot d waits level r ws =>
    have h := putRecord_wf (release_wf hs c d .package) p q ws
    unfold State.postNow
    dsimp only
    split <;> simpa using h

@[simp] theorem postOrHold_wf (p : Nat) (r : HeldRec) : Memory.wf (s.postOrHold p r).mem = true := by
  unfold State.postOrHold
  (repeat' split) <;> simp [hs]

@[simp] theorem postRecord_wf (c slot : Nat) : Memory.wf (s.postRecord c slot).mem = true := by
  unfold State.postRecord
  (repeat' split) <;> simp [hs]

@[simp] theorem postWords_wf (p : Nat) (ws : List Word) : Memory.wf (s.postWords p ws).mem = true := by
  simp [State.postWords, hs]

@[simp] theorem postHeld_wf (p : Nat) : Memory.wf (s.postHeld p).mem = true := by
  unfold State.postHeld
  (repeat' split) <;> simp [hs]

@[simp] theorem postAll_wf (p n : Nat) : Memory.wf (s.postAll p n).mem = true := by
  induction n generalizing s with
  | zero => exact hs
  | succ n ih => exact ih (postHeld_wf hs p)

@[simp] theorem suspend_wf (c slot : Nat) (r : Report) (mask : Mask) : Memory.wf (s.suspend c slot r mask).mem = true := by
  simp [State.suspend, hs]

@[simp] theorem deliver_wf (c slot : Nat) (r : Report) (mask : Mask) : Memory.wf (s.deliver c slot r mask).mem = true := by
  unfold State.deliver
  (repeat' split) <;> simp [hs]

@[simp] theorem deliverPending_wf (c slot : Nat) : Memory.wf (s.deliverPending c slot).mem = true := by
  unfold State.deliverPending
  (repeat' split) <;> simp [hs]

@[simp] theorem report_wf (c slot : Nat) (mask : Mask) (r : Report) : Memory.wf (s.report c slot mask r).mem = true := by
  unfold State.report
  (repeat' split) <;> simp [hs]

@[simp] theorem takeTrap_wf (r : Report) : Memory.wf (s.takeTrap r).mem = true := by
  simp [State.takeTrap, hs]

@[simp] theorem memFault_wf (cause : Cause) (lane : Nat) (lo hi : Word) : Memory.wf (s.memFault cause lane lo hi).mem = true := by
  unfold State.memFault
  split <;> simp [hs]

@[simp] theorem fault_wf (cause : Cause) (lane : Nat) (lo hi : Word) : Memory.wf (s.fault cause lane lo hi).mem = true := by
  unfold State.fault
  split <;> simp [hs]

@[simp] theorem faultAt_wf (cause : Cause) (lane : Nat) (off : Nat) : Memory.wf (s.faultAt cause lane off).mem = true := by
  unfold State.faultAt
  split <;> simp [hs]

/-! Operands and results. -/

theorem issue_canonical (u : Use) (body : State → Out) (hf : ∀ x : State, Memory.wf x.mem = true → Canonical (body x)) :
    Canonical (s.issue u body) := by
  unfold State.issue
  dsimp only
  (repeat' split) <;> simp [hs, hf]

/-! Integer arithmetic. -/

theorem alu3_canonical (b a d : Reg) (f : Word → Word → Word → Word) :
    Canonical (alu3 b a d f s) := issue_canonical hs _ _ (fun x hx => by simp [hx])

theorem alu2_canonical (a d : Reg) (f : Word → Word → Word) :
    Canonical (alu2 a d f s) := issue_canonical hs _ _ (fun x hx => by simp [hx])

theorem alu1_canonical (d : Reg) (f : Word → Word) :
    Canonical (alu1 d f s) := issue_canonical hs _ _ (fun x hx => by simp [hx])

/-! Copies. -/

@[simp] theorem abandonPieces_wf (c : CopyCmd) (w : Warp) (l : List Piece) : Memory.wf (s.abandonPieces c w l).mem = true := by
  induction l generalizing s with
  | nil => exact hs
  | cons p l ih =>
    unfold State.abandonPieces
    refine ih ?_
    have h := copyPlace_mem s c w p.dst (c.kind.align p) p.len true
    split
    · next e => simp [mem_of_snd h e, hs]
    · next e =>
      split
      · simp [homeWrite_wf, mem_of_snd h e, hs]
      · simp [mem_of_snd h e, hs]
    · next e _ _ => simp [mem_of_snd h e, hs]

@[simp] theorem abandonCopy_wf (c : CopyCmd) : Memory.wf (s.abandonCopy c).mem = true := by
  unfold State.abandonCopy
  dsimp only
  split <;> simp [hs]

/-! Launches. -/

@[simp] theorem deviceWrite_wf (part va : Nat) (data : List Byte) : Memory.wf (s.deviceWrite part va data).mem = true := by
  unfold State.deviceWrite
  split
  · exact hs
  · have h := xlateWalk_mem s (deviceReq part false true) va
    split
    · next e =>
      split
      · simp [homeWrite_wf, mem_of_snd h e, hs]
      · exact hs
    · exact hs

@[simp] theorem deviceSignal_wf (part va add : Nat) : Memory.wf (s.deviceSignal part va add).mem = true := by
  unfold State.deviceSignal
  split <;> simp [hs]

@[simp] theorem setStatus_wf (id : Nat) (code : Byte) : Memory.wf (s.setStatus id code).mem = true := by
  unfold State.setStatus
  split <;> simp [hs]

@[simp] theorem placeBlock_wf (id : Nat) (l : Launch) (b c gpos : Nat) (a : Admission) :
    Memory.wf (s.placeBlock id l b c gpos a).mem = true := by
  simp [State.placeBlock, hs]

@[simp] theorem placeAll_wf (id : Nat) (l : Launch) (b pos : Nat) (x : List (Nat × Admission)) :
    Memory.wf (s.placeAll id l b pos x).mem = true := by
  induction x generalizing s b pos with
  | nil => exact hs
  | cons y x ih => exact ih (placeBlock_wf hs id l b y.1 pos y.2) _ _

theorem placeMany_wf (id : Nat) (l : Launch) (bar : List Nat) (n b : Nat) :
    ∀ t ∈ s.placeMany id l bar n b, Memory.wf t.mem = true := by
  induction n generalizing s b with
  | zero => simp [State.placeMany, hs]
  | succ n ih =>
    unfold State.placeMany
    split
    · exact ih (placeAll_wf hs _ _ _ _ _) _
    · simp

theorem placeNext_wf (id : Nat) (l : Launch) (bar : List Nat) : ∀ t ∈ s.placeNext id l bar, Memory.wf t.mem = true := by
  have h : ∀ n, (∀ t ∈ s.placeMany id l bar n l.next, Memory.wf t.mem = true) := fun n => placeMany_wf hs id l bar n l.next
  unfold State.placeNext
  generalize (if l.coop then l.total / l.gang else 1) = n
  dsimp only
  split
  · simp
  · split
    · next s1 e => split <;> simp [h n s1 e]
    · simp

@[simp] theorem finishLaunch_wf (id : Nat) (code : Byte) : Memory.wf (s.finishLaunch id code).mem = true := by
  unfold State.finishLaunch
  (repeat' split) <;> simp [hs]

@[simp] theorem abortLaunch_wf (id : Nat) : Memory.wf (s.abortLaunch id).mem = true := by
  simp [State.abortLaunch, hs]

@[simp] theorem undoLog_wf (l : List (Nat × List Byte)) : Memory.wf (s.undoLog l).mem = true := by
  induction l generalizing s with
  | nil => exact hs
  | cons x l ih => exact ih (homeWrite_wf s x.1 x.2 hs)

@[simp] theorem settleCores_wf (l : Launch) : Memory.wf (s.settleCores l).mem = true := by
  unfold State.settleCores
  refine foldl_wf _ (fun s x hs => ?_) _ _ hs
  exact foldl_wf _ (fun _ d hs => writeBack_wf hs x d) [0, 1, 2, 3] s hs

@[simp] theorem undoLaunch_wf (l : Launch) : Memory.wf (s.undoLaunch l).mem = true :=
  undoLog_wf (foldl_wf _ (fun _ x hs => flushL1_wf hs x.1 x.2) _ _ hs) _

/-! Registers. -/

@[simp] theorem writeDpart_wf (c d : Nat) (v : BitVec 128) : ∀ t ∈ s.writeDpart c d v, Memory.wf t.mem = true := by
  unfold State.writeDpart
  dsimp only
  (repeat' split) <;> simp [hs]

@[simp] theorem flushCores_wf (p : Nat → Bool) : Memory.wf (s.flushCores p).mem = true :=
  foldl_wf _ (fun s k hs => foldl_wf _ (fun _ d hs => flushL1_wf hs k.1 d.1) k.2.l1 s hs) _ _ hs

@[simp] theorem writePartcfg_wf (v : Word) : ∀ t ∈ s.writePartcfg v, Memory.wf t.mem = true := by
  unfold State.writePartcfg
  dsimp only
  (repeat' split) <;> simp [hs]

@[simp] theorem giveUp_wf (c slot id : Nat) (r : Report) (cause : Option Cause) :
    Memory.wf (s.giveUp c slot id r cause).mem = true := by
  unfold State.giveUp
  (repeat' split) <;> simp [hs]

@[simp] theorem tstatSkip_wf (c slot : Nat) : ∀ t ∈ s.tstatSkip c slot, Memory.wf t.mem = true := by
  unfold State.tstatSkip
  (repeat' split) <;> simp [hs]

@[simp] theorem deliverLater_wf (c slot : Nat) (r : Report) : Memory.wf (s.deliverLater c slot r).mem = true := by
  simp [State.deliverLater, hs]

@[simp] theorem tstatDeliver_wf (c slot code : Nat) : ∀ t ∈ s.tstatDeliver c slot code, Memory.wf t.mem = true := by
  unfold State.tstatDeliver
  (repeat' split) <;> simp [hs]

@[simp] theorem tstatEnd_wf (c slot : Nat) : ∀ t ∈ s.tstatEnd c slot, Memory.wf t.mem = true := by
  unfold State.tstatEnd
  (repeat' split) <;> simp [hs]

theorem writeTstat_wf (c : Nat) (v : Word) : ∀ t ∈ s.writeTstat c v, Memory.wf t.mem = true := by
  unfold State.writeTstat
  dsimp only
  split
  · intro t ht
    rw [tstatResume_mem s c _ t ht]
    exact hs
  · exact tstatSkip_wf hs c _
  · exact tstatDeliver_wf hs c _ _
  · exact tstatEnd_wf hs c _

theorem announce_wf (system : Bool) (n : Nat) : ∀ t ∈ s.announce system n, Memory.wf t.mem = true := fun t ht => by
  rw [announce_mem s system n t ht]
  exact hs

theorem writeCoreReg_wf (c : Nat) (page : Bool) (n : Nat) (v : BitVec 128) :
    ∀ t ∈ s.writeCoreReg c page n v, Memory.wf t.mem = true := by
  unfold State.writeCoreReg
  dsimp only
  split
  · exact writeDpart_wf hs c _ v
  · split
    case h_3 => exact writeTstat_wf hs c _
    case h_21 => exact announce_wf hs false _
    case h_22 => exact announce_wf hs true _
    case h_23 => exact writePartcfg_wf hs _
    all_goals (repeat' split) <;> simp [hs]

/-! Accesses. -/

@[simp] theorem l1Fill_wf (c d line : Nat) : Memory.wf (s.l1Fill c d line).mem = true := by
  unfold State.l1Fill
  dsimp only
  split <;> simp [hs]

@[simp] theorem l1Read_wf (c d pa n : Nat) : Memory.wf (s.l1Read c d pa n).1.mem = true := by
  simp [State.l1Read, hs]

@[simp] theorem winAdd_wf (part w : Nat) (land : Bool) (n : Nat) : Memory.wf (s.winAdd part w land n).mem = true := by
  unfold State.winAdd
  dsimp only
  (repeat' split) <;> simp [hs, homeWrite_wf]

theorem pageStore_wf (k n : Nat) (data : List Byte) : ∀ t ∈ s.pageStore k n data, Memory.wf t.mem = true := by
  unfold State.pageStore
  split
  · simp [hs]
  · split
    · exact writeCoreReg_wf hs k true n _
    · simp

@[simp] theorem perform_wf (c slot : Nat) (w : Warp) (opid : Nat) (a : Acc) (pa rot : Nat) :
    Memory.wf (s.perform c slot w opid a pa rot).1.mem = true := by
  unfold State.perform
  dsimp only
  split
  · split
    · exact hs
    · exact getD_wf hs _ (pageStore_wf hs _ _ _)
    · exact hs
  · (repeat' split) <;> simp [hs, homeWrite_wf, markSoon_mem]

@[simp] theorem performAll_wf (c slot : Nat) (w : Warp) (opid : Nat) (l : List Acc) :
    Memory.wf (s.performAll c slot w opid l).1.mem = true := by
  induction l generalizing s with
  | nil => exact hs
  | cons a l ih =>
    unfold State.performAll
    split
    · exact ih (perform_wf hs c slot w opid a _ _)
    · exact ih hs

@[simp] theorem before_wf (c : Nat) (w : Warp) (l : List Acc) : Memory.wf (s.before c w l).mem = true := by
  unfold State.before
  split <;> simp [hs]

@[simp] theorem accessGo_wf (w : Warp) (m : MemUse) (accs : List Acc) : Memory.wf (s.accessGo w m accs).mem = true := by
  have hn : ∀ x : State, (accs.foldl (fun (s : State) a => s.noteAccept w a) x).mem = x.mem :=
    foldl_mem _ (fun s a => noteAccept_mem s w a) accs
  unfold State.accessGo
  dsimp only
  (repeat' split) <;> simp [hs, hn]

@[simp] theorem access_canonical (m : MemUse) (accs : List Acc) : Canonical (s.access m accs) := by
  unfold State.access
  dsimp only
  (repeat' split) <;> simp [hs]

@[simp] theorem holdFault_wf (c slot : Nat) (r : Report) : Memory.wf (s.holdFault c slot r).mem = true := by
  unfold State.holdFault
  (repeat' split) <;> simp [hs]

@[simp] theorem walkPerform_wf (c slot : Nat) (w : Warp) (opid : Nat) (l : List Acc) :
    Memory.wf (s.walkPerform c slot w opid l).1.mem = true := by
  induction l generalizing s with
  | nil => exact hs
  | cons a l ih =>
    have h : Memory.wf (s.xlateWalk (a.request w) a.va).2.mem = true := by simp [hs]
    unfold State.walkPerform
    dsimp only
    split
    · exact ih (perform_wf h c slot w opid a _ _)
    · exact ih h
    · exact ih h

@[simp] theorem walkDone_wf (p : Pending) (w : Warp) (accs : List Acc) (res : ResKind) (old : List LaneWrite) :
    Memory.wf (s.walkDone p w accs res old).mem = true := by
  have h := walkPerform_wf (before_wf hs p.core w accs) p.core p.slot w p.id accs
  unfold State.walkDone
  dsimp only
  (repeat' split) <;> simp [h]

/-! Scratchpad accesses. -/

@[simp] theorem spadFault_canonical (f : Cause × Nat × Nat) : Canonical (s.spadFault f) := by
  simp [State.spadFault, hs]

theorem spad_canonical (u : Use) (writes : Bool) (own : Cur → Order) (a : Reg) (size : Nat)
    (body : State → Warp → List (Nat × Thread × SpRef) → Out)
    (hf : ∀ (x : State) w l, Memory.wf x.mem = true → Canonical (body x w l)) :
    Canonical (spad u writes own a size body s) := issue_canonical hs _ _ (fun x hx => by
  dsimp only
  (repeat' split) <;> simp [hx, hf])

@[simp] theorem spRelease_wf (w : Warp) (ord : Cur → Order) (scope : Scope) : Memory.wf (s.spRelease w ord scope).mem = true := by
  unfold State.spRelease
  split <;> simp [hs]

theorem elemIssue_canonical (store halo : Bool) (L : BitVec 4) (n : Nat) (a d : Reg) :
    Canonical (elemIssue store halo L n a d s) := issue_canonical hs _ _ (fun x hx => by
  dsimp only
  (repeat' split) <;> simp [hx])

theorem tlrw_canonical (n : BitVec 7) (d : Reg) (body : State → Warp → State)
    (hf : ∀ (x : State) w, Memory.wf x.mem = true → Memory.wf (body x w).mem = true) :
    Canonical (tlrw n d body s) := issue_canonical hs _ _ (fun x hx => by
  (repeat' split) <;> simp [hx, hf])

/-! Copy engines. -/

theorem copyIssue_canonical (opds : List Opd) (cls : Nat) (rel : Bool)
    (body : State → Warp → Thread → List (Option Cause × Nat) × CopyKind × Word × Option CopySide) :
    Canonical (copyIssue opds cls rel body s) := issue_canonical hs _ _ (fun x hx => by
  dsimp only
  (repeat' split) <;> simp [hx])

@[simp] theorem writePieces_wf (c : CopyCmd) (w : Warp) (both : Bool) (l : List Piece) :
    Memory.wf (s.writePieces c w both l).mem = true := by
  induction l generalizing s with
  | nil => exact hs
  | cons p l ih =>
    unfold State.writePieces
    refine ih ?_
    have h := sidePlace_mem s c w both true p p.dst
    split
    · next e => split <;> simp [mem_of_snd h e, hs]
    · next e => simp [mem_of_snd h e, hs]
    · next e => split <;> simp [homeWrite_wf, mem_of_snd h e, hs]
    · next e _ _ _ => simp [mem_of_snd h e, hs]

theorem copyUnit_wf (id clocks : Nat) : ∀ t ∈ s.copyUnit id clocks, Memory.wf t.mem = true := by
  unfold State.copyUnit
  split
  · split
    · dsimp only
      (repeat' split) <;> simp [hs]
    · simp
  · simp

theorem copyUnits_wf (id clocks n : Nat) : ∀ t ∈ s.copyUnits id clocks n, Memory.wf t.mem = true := by
  induction n generalizing s with
  | zero => simp [State.copyUnits, hs]
  | succ n ih =>
    intro t ht
    obtain ⟨u, hu, ht⟩ := Option.bind_eq_some_iff.mp ht
    exact ih (copyUnit_wf hs id clocks u hu) t ht

theorem putBack_wf (c : CopyCmd) (units clocks : Nat) : ∀ t ∈ s.putBack c units clocks, Memory.wf t.mem = true := by
  unfold State.putBack
  split
  · next s1 e => split <;> simp [copyUnits_wf hs c.id clocks units s1 e]
  · simp

@[simp] theorem writeDone_wf (c : CopyCmd) (w : Warp) : Memory.wf (s.writeDone c w).mem = true := by
  unfold State.writeDone
  split
  · next d _ =>
    have h := copyPlace_mem s c w d 4 4 true
    split <;> next e => simp [homeWrite_wf, mem_of_snd h e, hs]
  · exact hs

/-! Memory instructions. -/

@[simp] theorem prefetch_wf (w : Warp) (va : Nat) : Memory.wf (s.prefetch w va).mem = true := by
  unfold State.prefetch
  split
  · exact hs
  · have h := xlateWalk_mem s (w.request true false false) va
    split
    · next e => split <;> simp [mem_of_snd h e, hs]
    · next e => simp [mem_of_snd h e, hs]

@[simp] theorem arriveBarrier_canonical : Canonical s.arriveBarrier := by
  unfold State.arriveBarrier
  dsimp only
  (repeat' split) <;> simp [hs]

@[simp] theorem waitRead_wf (w : Warp) (local_ : Bool) (x : WaitRef) (size : Nat) :
    Memory.wf (s.waitRead w local_ x size).1.mem = true := by
  unfold State.waitRead
  dsimp only
  (repeat' split) <;> simp [hs]

@[simp] theorem waitReads_wf (w : Warp) (local_ : Bool) (size : Nat) (l : List (Nat × Thread × WaitRef)) :
    Memory.wf (s.waitReads w local_ size l).1.mem = true := by
  induction l generalizing s with
  | nil => exact hs
  | cons x l ih => exact ih (waitRead_wf hs w local_ x.2.2 size)

theorem waitIssue_canonical (opds : List Opd) (aperture : Bool) (size : Nat) (a : Reg)
    (body : State → Warp → List (Nat × Thread × WaitRef × Nat) → State)
    (hf : ∀ (x : State) w l, Memory.wf x.mem = true → Memory.wf (body x w l).mem = true) :
    Canonical (waitIssue opds aperture size a body s) := issue_canonical hs _ _ (fun x hx => by
  dsimp only
  (repeat' split) <;> simp [hx, hf])

@[simp] theorem reportDeferred_wf (w : Warp) (p : Deferred → Bool) : ∀ t ∈ s.reportDeferred w p, Memory.wf t.mem = true := by
  unfold State.reportDeferred
  split <;> simp [hs]

theorem arrive_canonical (id : Nat) (ok : ResKind → Bool) : Canonical (s.arrive id ok) := by
  unfold State.arrive
  (repeat' split) <;> simp [endPending_mem, hs]

/-! Tables and gates. -/

theorem tableRead_wf (w : Warp) (va x : Nat) (t : State) (e : s.tableRead w va = .ok (x, t)) : Memory.wf t.mem = true := by
  unfold State.tableRead at e
  have h := xlateWalk_mem s (w.request true false false) va
  split at e
  · cases e
  · split at e
    · next f =>
      have h1 := mem_of_snd h f
      (repeat' split at e) <;> cases e
      · rw [h1]
        exact hs
      · next f2 =>
        rw [show t = _ from (congrArg Prod.fst f2).symm]
        exact l1Read_wf (by rw [h1]; exact hs) _ _ _ _
    · cases e
    · cases e

@[simp] theorem tableLane_wf (w : Warp) (base index : Nat) (helper : Bool) :
    Memory.wf (s.tableLane w base index helper).2.mem = true := by
  unfold State.tableLane
  dsimp only
  split
  · exact hs
  · split
    · exact hs
    · next s1 e1 =>
      have h1 := tableRead_wf hs w _ _ s1 e1
      split
      · exact h1
      · next s2 e2 =>
        have h2 := tableRead_wf h1 w _ _ s2 e2
        split
        · exact h2
        · split
          · exact h2
          · next s3 e3 =>
            have h3 := tableRead_wf h2 w _ _ s3 e3
            split
            · exact h3
            · simp [h3]

@[simp] theorem tableLanes_wf (w : Warp) (a b : Nat) (l : List (Nat × Thread)) : Memory.wf (s.tableLanes w a b l).2.mem = true := by
  induction l generalizing s with
  | nil => exact hs
  | cons x l ih => exact ih (tableLane_wf hs w _ _ _)

theorem tableGo_canonical (a b : Nat) (link : Thread → Thread) : Canonical (s.tableGo a b link) := by
  unfold State.tableGo
  dsimp only
  (repeat' split) <;> simp [hs]

theorem gateWait_canonical (w : Warp) (go : State → State) (hf : ∀ x : State, Memory.wf x.mem = true → Memory.wf (go x).mem = true) :
    Canonical (s.gateWait w go) := by
  unfold State.gateWait
  split
  · simp [hs]
  · split
    · simp [hs]
    · split
      · next s1 e => simp [reportDeferred_wf hs w _ s1 e]
      · exact hf _ (by simp [hs])

@[simp] theorem gateFault_wf (w : Warp) (x : TableOut) : Memory.wf (s.gateFault w x).mem = true := by
  simp [State.gateFault, hs]

/-! Lanes. -/

theorem shuffle_canonical (u : Use) (a d : Reg) (src : State → Nat → Thread → Int) :
    Canonical (shuffle u a d src s) := issue_canonical hs _ _ (fun x hx => by simp [hx])

theorem gather_canonical (a d : Reg) (near : Nat → Nat → Bool) (f : Nat → Word → List (Nat × Word) → Word) :
    Canonical (gather a d near f s) := issue_canonical hs _ _ (fun x hx => by simp [hx])

theorem fredw_canonical (a d : Reg) (op : FpEnv → Nat → Nat → FpOut) :
    Canonical (fredw a d op s) := issue_canonical hs _ _ (fun x hx => by simp [hx])

/-! The transformed mean. -/

theorem tmIssue_canonical (opds : List Opd) (L : BitVec 4) (check : Bool) (dst : List Nat) (arg : Thread → Word)
    (f : Nat → Thread → Option (List Word × BitVec 5)) :
    Canonical (tmIssue opds L check dst arg f s) := issue_canonical hs _ _ (fun x hx => by
  dsimp only
  (repeat' split) <;> simp [hx])

/-! System instructions. -/

@[simp] theorem illegalWord_canonical : Canonical s.illegalWord := by
  unfold State.illegalWord
  split <;> simp [hs]

@[simp] theorem swrLanes_canonical (n d : Nat) : Canonical (s.swrLanes n d) := by
  unfold State.swrLanes
  split <;> simp [hs]

@[simp] theorem eretUser_wf (skip : Bool) (f : TrapFrame) : Memory.wf (s.eretUser skip f).mem = true := by
  unfold State.eretUser
  dsimp only
  (repeat' split) <;> simp [hs]

@[simp] theorem eretControl_wf (skip : Bool) (w : Warp) (t : TrapRegs) : Memory.wf (s.eretControl skip w t).mem = true := by
  unfold State.eretControl
  dsimp only
  (repeat' split) <;> simp [hs]

@[simp] theorem eret_canonical (skip : Bool) : Canonical (s.eret skip) := by
  unfold State.eret
  dsimp only
  (repeat' split) <;> simp [hs]

@[simp] theorem flushPage_wf (page : Nat) : Memory.wf (s.flushPage page).mem = true := wf_steps.flushPage s page hs

@[simp] theorem unstampPage_wf (page : Nat) : Memory.wf (s.unstampPage page).mem = true := by
  unfold State.unstampPage
  refine foldl_wf _ (fun s x hs => ?_) _ _ hs
  split
  · exact homeWrite_wf _ _ _ hs
  · exact hs

@[simp] theorem rotinvPage_wf (page : Nat) : Memory.wf (s.rotinvPage page).mem = true := by
  unfold State.rotinvPage
  dsimp only
  (repeat' split) <;> simp [hs]

theorem readWords_wf (w : Warp) (far : List Nat) (got : List (Nat × Word)) (n i va : Nat) (l : List Word) (t : State)
    (e : s.readWords w far got n i va = .ok (l, t)) : Memory.wf t.mem = true := by
  induction n generalizing s i va l with
  | zero =>
    cases e
    exact hs
  | succ n ih =>
    unfold State.readWords at e
    split at e
    · split at e
      · cases e
      · next f =>
        cases e
        exact ih hs _ _ _ f
    · split at e
      · cases e
      · next s1 f1 =>
        split at e
        · cases e
        · next f =>
          cases e
          exact ih (tableRead_wf hs w _ _ s1 f1) _ _ _ f

@[simp] theorem compareManifest_wf (w : Warp) (l : Nat) (d : Reg) (va : Nat) (far : List Nat) (got : List (Nat × Word)) :
    Memory.wf (s.compareManifest w l d va far got).mem = true := by
  unfold State.compareManifest
  dsimp only
  split
  · simp [hs]
  · next s1 e =>
    have h := readWords_wf hs w far got 96 0 va _ s1 e
    split <;> simp [h]

theorem compat_canonical (b a d : Reg) (f : Word → Word → Word → Word) :
    Canonical (compat b a d f s) := issue_canonical hs _ _ (fun x hx => by simp [hx])

/-! The dispatcher. -/

@[simp] theorem launchOne_wf (w : Warp) (d lane va pa : Nat) : Memory.wf (s.launchOne w d lane va pa).mem = true := by
  have h := toHome_wf hs s.cur.core w.curSlot pa
  unfold State.launchOne
  dsimp only
  rw [modWarp_mem]
  refine deviceWrite_wf (release_wf ?_ _ _ _) _ _ _
  split <;> simp [h]

theorem placeFirst_wf (held : List (Nat × Nat)) (l : List (Nat × Launch)) :
    ∀ t ∈ s.placeFirst held l, Memory.wf t.mem = true := by
  induction l generalizing held with
  | nil => simp [State.placeFirst]
  | cons x l ih =>
    unfold State.placeFirst
    dsimp only
    split
    · next s1 e =>
      intro t ht
      cases ht
      exact placeNext_wf hs _ _ _ s1 e
    · exact ih _

@[simp] theorem concludeLaunch_wf (id : Nat) (l : Launch) (code : Byte) (signal : Bool) :
    Memory.wf (s.concludeLaunch id l code signal).mem = true := by
  unfold State.concludeLaunch
  split <;> simp [hs]

@[simp] theorem compareDigest_wf (id : Nat) (l : Launch) : Memory.wf (s.compareDigest id l).mem = true := by
  unfold State.compareDigest
  dsimp only
  (repeat' split) <;> simp [hs]

theorem placeUnit_wf (id : Nat) (l : Launch) (n b : Nat) : ∀ t ∈ s.placeUnit id l n b, Memory.wf t.mem = true := by
  induction n generalizing s b with
  | zero => simp [State.placeUnit, hs]
  | succ n ih =>
    unfold State.placeUnit
    split
    · split
      · split
        · exact ih (placeBlock_wf hs _ _ _ _ _ _) _
        · simp
      · simp
    · simp

/-! Domains. -/

@[simp] theorem settleDomain_wf (p did : Nat) : Memory.wf (s.settleDomain p did).mem = true := by
  have h : Memory.wf ((s.domWarps p did).foldl (fun s x => (s.drainWarp x.1 x.2).parkSyncs x.1 x.2) s).mem = true :=
    foldl_wf _ (fun _ x hs => by simp [drainWarp_wf hs x.1 x.2]) _ _ hs
  unfold State.settleDomain
  dsimp only
  exact foldl_wf _ (fun s x hs => by simp [hs]) _ _ (by simp [h])

@[simp] theorem saveDomain_wf (p did : Nat) : Memory.wf (s.saveDomain p did).mem = true := by
  simp [State.saveDomain, hs]

@[simp] theorem takeCheckpoint_wf (p did : Nat) : Memory.wf (s.takeCheckpoint p did).mem = true := by
  unfold State.takeCheckpoint
  extract_lets dflt s1 s2 s3
  have h2 : s2.mem = (s.saveDomain p did).mem := by
    refine (foldl_mem _ (fun s x => ?_) _ s1).trans rfl
    dsimp only
    split <;> rfl
  have h3 : s3.mem = s2.mem := by
    dsimp only [s3]
    split <;> simp
  rw [tellAskers_mem, h3, h2]
  exact saveDomain_wf hs p did

@[simp] theorem rollback_wf (p did : Nat) : Memory.wf (s.rollback p did).mem = true := by
  have h := undoLog_wf (settleDomain_wf hs p did) ((s.settleDomain p did).domain p did).log
  unfold State.rollback
  dsimp only
  rw [freeze_mem, modDomain_mem]
  refine foldl_wf _ (fun s x hs => postRecord_wf hs x.1 x.2) _ _ ?_
  rw [modPart_mem]
  dsimp only
  refine foldl_wf _ ?_ _ _ h
  exact fun _ _ h => h

@[simp] theorem drainDomain_wf (p did : Nat) : Memory.wf (s.drainDomain p did).mem = true := by
  simp [State.drainDomain, hs]

@[simp] theorem preemptNow_wf (p did : Nat) : Memory.wf (s.preemptNow p did).1.mem = true := by
  unfold State.preemptNow
  dsimp only
  (repeat' split) <;> simp [hs]

@[simp] theorem resumeDomain_wf (p did : Nat) : Memory.wf (s.resumeDomain p did).mem = true := by
  unfold State.resumeDomain
  dsimp only
  generalize hu : (s.domHere p did).foldl _ s = u
  have h : Memory.wf u.mem = true := by
    rw [← hu]
    refine foldl_wf _ ?_ _ _ hs
    exact fun _ _ h => h
  split <;> simp [h]

@[simp] theorem chkpPart_wf (p did m : Nat) : Memory.wf (s.chkpPart p did m).1.mem = true := by
  unfold State.chkpPart
  dsimp only
  (repeat' split) <;> simp [hs]

@[simp] theorem chkpLane_wf (did m : Nat) : Memory.wf (s.chkpLane did m).1.mem = true := by
  refine foldl_fst_wf _ (fun x p hx => ?_) _ (s, none, []) hs
  dsimp only
  split <;> exact chkpPart_wf hx p did m

theorem chkp_canonical (m : Nat) (a d : Reg) : Canonical (chkp m a d s) := issue_canonical hs _ _ (fun x hx => by
  rw [canonical_next, finish_mem]
  refine foldl_wf _ (fun s y hs => ?_) _ _ (by simp [hx])
  have h := chkpLane_wf hs (field (y.2.nat a.toNat) 15 0) m
  dsimp only
  split
  · simp [h]
  · rw [modWarp_mem]
    refine foldl_wf _ ?_ _ _ h
    exact fun _ _ h => h)

/-! Floating point. -/

theorem fp3_canonical (b a d : Reg) (f : FpEnv → Nat → Nat → Nat → FpOut) :
    Canonical (fp3 b a d f s) := issue_canonical hs _ _ (fun x hx => by simp [hx])

theorem fp2_canonical (a d : Reg) (f : FpEnv → Nat → FpOut) :
    Canonical (fp2 a d f s) := issue_canonical hs _ _ (fun x hx => by simp [hx])

theorem fp16_canonical (x d : BitVec 5) (f : FpEnv → Nat → Nat → FpOut) :
    Canonical (fp16 x d f s) := issue_canonical hs _ _ (fun x hx => by simp [hx])

theorem fpd3_canonical (b a d : Reg) (f : FpEnv → Nat → Nat → Nat → FpOut) :
    Canonical (fpd3 b a d f s) := issue_canonical hs _ _ (fun x hx => by simp [hx])

theorem fpd2_canonical (a d : Reg) (f : FpEnv → Nat → FpOut) :
    Canonical (fpd2 a d f s) := issue_canonical hs _ _ (fun x hx => by simp [hx])

theorem dotI_canonical (b a d : Reg) (signed : Bool) (w n : Nat) : Canonical (dotI b a d signed w n s) := alu3_canonical hs b a d _

theorem sfu_canonical (u : Use) (L : BitVec 4) (dst : State → List Nat) (f : State → Thread → FpOut)
    (put : State → Nat → List (Nat × Word)) :
    Canonical (sfu u L dst f put s) := issue_canonical hs _ _ (fun x hx => by simp [hx])

theorem sfu00_canonical (op : SfuOp) (L : BitVec 4) (a d : Reg) : Canonical (sfu00 op L a d s) := sfu_canonical hs _ _ _ _ _

theorem sfu01_canonical (op : SfuOp) (L : BitVec 4) (rm : Rm) (a d : Reg) : Canonical (sfu01 op L rm a d s) := sfu_canonical hs _ _ _ _ _

theorem sfu10_canonical (op : SfuOp) (L : BitVec 4) (rm : Rm) (a d : Reg) : Canonical (sfu10 op L rm a d s) := sfu_canonical hs _ _ _ _ _

/-! The matrix engines. -/

@[simp] theorem mouldFault_canonical (lane off : Nat) : Canonical (s.mouldFault lane off) := by
  simp [State.mouldFault, hs]

theorem tileIssue_canonical (opds : List Opd) (L : BitVec 4) (t : Nat) (held : Bool) (dest : List Nat)
    (body : State → Warp → Nat → Out) (hf : ∀ (x : State) w l, Memory.wf x.mem = true → Canonical (body x w l)) :
    Canonical (tileIssue opds L t held dest body s) := issue_canonical hs _ _ (fun x hx => by
  (repeat' split) <;> simp [hx, hf])

/-! Windows. -/

theorem winIssue_canonical (u : Use) (wr : Bool) (size : Nat) (a : Reg) (body : State → Warp → List (Nat × Thread × WinRef) → Out)
    (hf : ∀ (x : State) w l, Memory.wf x.mem = true → Canonical (body x w l)) :
    Canonical (winIssue u wr size a body s) := issue_canonical hs _ _ (fun x hx => by
  dsimp only
  (repeat' split) <;> simp [hx, hf])

@[simp] theorem engineRefuses_wf (w : Warp) (a : Reg) (l : List (Nat × Thread × WinRef)) :
    ∀ t ∈ s.engineRefuses w a l, Memory.wf t.mem = true := by
  unfold State.engineRefuses
  split <;> simp [hs]

@[simp] theorem refusePkt_canonical (p : Pkt) : Canonical (s.refusePkt p) := by
  unfold State.refusePkt
  (repeat' split) <;> simp [hs]

@[simp] theorem winApply_wf (p w pa : Nat) (o : WinOp) : Memory.wf (s.winApply p w pa o).1.mem = true := by
  unfold State.winApply
  split <;> simp [hs, homeWrite_wf, homeWriteLong_wf]

/-! Time. -/

theorem stampIssue_canonical (opds : List Opd) (wr : Bool) (a : Reg) (early : Thread → Bool)
    (body : State → Warp → List (Nat × Thread × RecRef) → Out)
    (hf : ∀ (x : State) w l, Memory.wf x.mem = true → Canonical (body x w l)) :
    Canonical (stampIssue opds wr a early body s) := issue_canonical hs _ _ (fun x hx => by
  dsimp only
  (repeat' split) <;> simp [hx, hf])

@[simp] theorem insertStamped_wf (pa stamp source : Nat) (data : List Byte) :
    Memory.wf (s.insertStamped pa stamp source data).mem = true := migRecord_wf s pa hs

@[simp] theorem landStamped_canonical (late : Nat) : Canonical (s.landStamped late) := by
  unfold State.landStamped
  dsimp only
  (repeat' split) <;> simp [hs]

/-! Register writes. -/

theorem orSame_canonical (o : Option State) (h : ∀ t ∈ o, Memory.wf t.mem = true) : Canonical (s.orSame o) := getD_wf hs o h

@[simp] theorem partWrite_canonical (p n : Nat) (v : BitVec 128) : Canonical (s.partWrite p n v) := by
  unfold State.partWrite
  split
  · split
    · exact orSame_canonical hs _ (writeCoreReg_wf hs _ _ _ _)
    · trivial
  · trivial

theorem meetvWrite_canonical : Canonical s.meetvWrite := by
  unfold State.meetvWrite
  (repeat' split) <;> simp [hs]

/-! The platform. -/

@[simp] theorem hostWrite_wf : Memory.wf s.hostWrite.mem = true := by
  simp [State.hostWrite, homeWriteLong_wf, hs]

theorem serveRequest_canonical (req : Nat) (f : State → Out) (hf : ∀ x : State, Memory.wf x.mem = true → Canonical (f x)) :
    Canonical (s.serveRequest req f) := by
  unfold State.serveRequest
  split
  · simp [hs]
  · split
    · exact hf _ (by simp [hs])
    · split
      · exact hf s hs
      · trivial

@[simp] theorem served_canonical (res : List Byte) : Canonical (s.served res) := by
  simp [State.served, hs]

@[simp] theorem turnedAway_canonical (reason : Nat) : Canonical (s.turnedAway reason) := by
  simp [State.turnedAway, hs]

theorem quote_canonical : Canonical s.quote := by
  unfold State.quote
  split <;> simp [hs]

theorem openMaint_canonical : Canonical s.openMaint := by
  have h : ∀ l : List Nat, Memory.wf (l.foldl (fun (s : State) p => s.modPart p (fun q => { q with maint := true })) s).mem = true :=
    fun l => foldl_wf _ (fun _ _ h => by simp [h]) l s hs
  unfold State.openMaint
  dsimp only
  split
  · exact turnedAway_canonical hs _
  · split
    · exact turnedAway_canonical hs _
    · split
      · exact turnedAway_canonical hs _
      · split
        · exact turnedAway_canonical hs _
        · exact served_canonical (h _) []

theorem closeMaint_canonical : Canonical s.closeMaint := by
  unfold State.closeMaint
  split <;> simp [hs]

@[simp] theorem machineCheck_wf (p : Nat) (q : Part) : Memory.wf (s.machineCheck p q).mem = true := by
  unfold State.machineCheck
  exact foldl_wf _ (fun s x hs => by simp [hs]) _ _ hs

end

end Sys2Proof.Machine
end

section
/-!
PROOFS. Every step keeps the canonical form of memory (log 3): each instruction and each event, then the turn that a step takes.
-/

namespace Sys2Proof.Machine

section
variable {s : State} (hs : Memory.wf s.mem = true)
include hs

theorem execMovri_canonical (a d : Reg) : Canonical (execMovri a d s) := by
  unfold execMovri
  exact issue_canonical hs _ _ (fun x hx => by simp [hx])

theorem execMovro_canonical (a d : Reg) : Canonical (execMovro a d s) := by
  unfold execMovro
  exact issue_canonical hs _ _ (fun x hx => by simp [hx])

theorem execCvt_canonical (sat : Bool) (rm : Rm) (src dst : NumFmt) (a d : Reg) : Canonical (execCvt sat rm src dst a d s) := by
  unfold execCvt
  exact issue_canonical hs _ _ (fun x hx => by simp [hx])

theorem execTilep_canonical (n : BitVec 7) (d : Reg) : Canonical (execTilep n d s) := issue_canonical hs _ _ (fun x hx => by
  dsimp only
  (repeat' split) <;> simp [hx])

theorem execTment_canonical (L : BitVec 4) (a d : Reg) : Canonical (execTment L a d s) := by
  unfold execTment
  exact tmIssue_canonical hs _ _ _ _ _ _

theorem execTmacc_canonical (L : BitVec 4) (a d : Reg) : Canonical (execTmacc L a d s) := by
  unfold execTmacc
  exact tmIssue_canonical hs _ _ _ _ _ _

theorem execTmmrg_canonical (L : BitVec 4) (a d : Reg) : Canonical (execTmmrg L a d s) := by
  unfold execTmmrg
  exact tmIssue_canonical hs _ _ _ _ _ _

theorem execTmredw_canonical (L : BitVec 4) (d : Reg) : Canonical (execTmredw L d s) := by
  unfold execTmredw
  exact tmIssue_canonical hs _ _ _ _ _ _

theorem execTmld_canonical (L : BitVec 4) (n : BitVec 3) (a d : Reg) :
    Canonical (execTmld L n a d s) := issue_canonical hs _ _ (fun x hx => by
  dsimp only
  (repeat' split) <;> simp [hx])

theorem execLds_canonical (L : BitVec 4) (z : Sz) (a d : Reg) : Canonical (execLds L z a d s) :=
  spad_canonical hs _ _ _ _ _ _ (fun x w l hx => by simp [hx])

theorem execLdsSync_canonical (L : BitVec 4) (a d : Reg) : Canonical (execLdsSync L a d s) :=
  spad_canonical hs _ _ _ _ _ _ (fun x w l hx => by
    dsimp only
    split <;> simp [hx])

theorem execLdsPeek_canonical (L : BitVec 4) (a d : Reg) : Canonical (execLdsPeek L a d s) :=
  spad_canonical hs _ _ _ _ _ _ (fun x w l hx => by simp [hx])

theorem execSts_canonical (L : BitVec 4) (z : Sz) (a d : Reg) : Canonical (execSts L z a d s) :=
  spad_canonical hs _ _ _ _ _ _ (fun x w l hx => by simp [hx])

theorem execStsSync_canonical (L : BitVec 4) (a d : Reg) : Canonical (execStsSync L a d s) :=
  spad_canonical hs _ _ _ _ _ _ (fun x w l hx => by
    dsimp only
    split <;> simp [hx])

theorem execStsFill_canonical (L : BitVec 4) (a d : Reg) : Canonical (execStsFill L a d s) :=
  spad_canonical hs _ _ _ _ _ _ (fun x w l hx => by simp [hx])

theorem execStsEmpty_canonical (L : BitVec 4) (a : Reg) : Canonical (execStsEmpty L a s) :=
  spad_canonical hs _ _ _ _ _ _ (fun x w l hx => by
    rw [canonical_next, finish_mem]
    exact foldl_wf _ (fun _ _ h => by simp [h]) _ _ (spRelease_wf hx w _ _))

theorem execPref_canonical (k : Bool) (a : Reg) : Canonical (execPref k a s) := issue_canonical hs _ _ (fun x hx => by
  split
  · dsimp only
    split
    · simp [hx]
    · exact foldl_wf _ (fun _ p h => prefetch_wf h _ _) _ _ hx
  · trivial)

theorem execFence_canonical (e : Bool) (k : FenceKind) (sc : Scope) :
    Canonical (execFence e k sc s) := issue_canonical hs _ _ (fun x hx => by
  dsimp only
  (repeat' split) <;> simp [hx])

theorem execWaita_canonical (o : Bool) (k : WaitCond) (z : Bool) (a d : Reg) : Canonical (execWaita o k z a d s) :=
  waitIssue_canonical hs _ _ _ _ _ (fun x w l hx => by simp [hx])

theorem execBwait_canonical (b a : Reg) : Canonical (execBwait b a s) := waitIssue_canonical hs _ _ _ _ _ (fun x w l hx => by simp [hx])

theorem execWaitc_canonical (cls : BitVec 3) (n : BitVec 6) : Canonical (execWaitc cls n s) := issue_canonical hs _ _ (fun x hx => by
  split
  · split
    · simp [hx]
    · split
      · next s1 e => exact reportDeferred_wf hx _ _ s1 e
      · dsimp only
        (repeat' split) <;> simp [hx]
  · trivial)

theorem execAtoms_canonical (L : BitVec 4) (ar : Bool) (sc : BitVec 2) (o : AtomOp) (a d : Reg) :
    Canonical (execAtoms L ar sc o a d s) := by
  unfold execAtoms
  exact spad_canonical hs _ _ _ _ _ _ (fun x w l hx => by simp [hx])

theorem execRet_canonical (a : Reg) : Canonical (execRet a s) := issue_canonical hs _ _ (fun x hx => by
  (repeat' split) <;> simp [hx])

theorem execJtab_canonical (b a : Reg) : Canonical (execJtab b a s) := issue_canonical hs _ _ (fun x hx => by
  exact tableGo_canonical hx _ _ _)

theorem execCallt_canonical (b a d : Reg) : Canonical (execCallt b a d s) := issue_canonical hs _ _ (fun x hx => by
  exact tableGo_canonical hx _ _ _)

theorem execTrap_canonical (a : Reg) : Canonical (execTrap a s) := issue_canonical hs _ _ (fun x hx => by
  (repeat' split) <;> simp [hx])

theorem execGcall_canonical (n : BitVec 11) : Canonical (execGcall n s) := issue_canonical hs _ _ (fun x hx => by
  split
  · trivial
  · next w _ =>
    split
    · simp [hx]
    · next ws g t _ =>
      have h := landingAt_mem x { w with curDid := g.did, code := g.code } g.entry g.label
      split
      · next s1 e =>
        refine gateWait_canonical (by simp [mem_of_snd h e, hx]) _ _ (fun y hy => ?_)
        simp [hy]
      · next e => simp [mem_of_snd h e, hx])

theorem execStst_canonical (L : BitVec 4) (a d : Reg) : Canonical (execStst L a d s) :=
  stampIssue_canonical hs _ _ _ _ _ (fun x w l hx => by
    dsimp only
    split
    · simp [hx]
    · split
      · simp [hx]
      · rw [canonical_next, finish_mem]
        exact foldl_wf _ (fun _ _ h => by simp [h]) _ _ (by simp [hx]))

theorem execLdat_canonical (L : BitVec 4) (a d : Reg) : Canonical (execLdat L a d s) :=
  stampIssue_canonical hs _ _ _ _ _ (fun x w l hx => by
    dsimp only
    split <;> simp [hx])

theorem execWstr_canonical (L : BitVec 4) (z : Sz) (a d : Reg) : Canonical (execWstr L z a d s) :=
  winIssue_canonical hs _ _ _ _ _ (fun x w l hx => by
    split
    · next s1 e => exact engineRefuses_wf hx w a l s1 e
    · split
      · simp [hx]
      · split
        · simp [hx]
        · exact foldl_wf _ (fun _ _ h => by simp [h]) _ _ (by simp [hx]))

theorem execWget_canonical (L : BitVec 4) (z : Sz) (a d : Reg) : Canonical (execWget L z a d s) :=
  winIssue_canonical hs _ _ _ _ _ (fun x w l hx => by
    dsimp only
    split
    · next s1 e => exact engineRefuses_wf hx w a l s1 e
    · split
      · simp [hx]
      · split
        · simp [hx]
        · rw [canonical_next, finish_mem, mapActive_mem]
          exact foldl_wf _ (fun _ _ h => by simp [h]) _ _ (by simp [hx]))

theorem execWcnt_canonical (L : BitVec 4) (c : Bool) (a d : Reg) : Canonical (execWcnt L c a d s) :=
  winIssue_canonical hs _ _ _ _ _ (fun x w l hx => by
    dsimp only
    split <;> simp [hx])

theorem execWwait_canonical (q c : Bool) (a d : Reg) : Canonical (execWwait q c a d s) :=
  winIssue_canonical hs _ _ _ _ _ (fun x w l hx => by
    dsimp only
    split <;> simp [hx])

theorem execMloop_canonical (L : BitVec 4) (s0 : BitVec 2) (a d : Reg) :
    Canonical (execMloop L s0 a d s) := issue_canonical hs _ _ (fun x hx => by
  dsimp only
  (repeat' split) <;> simp [hx])

theorem execMldb_canonical (L : BitVec 4) (a d : Reg) : Canonical (execMldb L a d s) := issue_canonical hs _ _ (fun x hx => by
  dsimp only
  (repeat' split) <;> simp [hx])

theorem execMrd_canonical (L : BitVec 4) (t : BitVec 2) (a d : Reg) : Canonical (execMrd L t a d s) :=
  tileIssue_canonical hs _ _ _ _ _ _ (fun x w l hx => by
    dsimp only
    split <;> simp [hx])

theorem execMwm_canonical (L : BitVec 4) (t : BitVec 2) (d : Reg) : Canonical (execMwm L t d s) :=
  tileIssue_canonical hs _ _ _ _ _ _ (fun x w l hx => by simp [hx])

theorem execMzero_canonical (L : BitVec 4) (t : BitVec 2) : Canonical (execMzero L t s) :=
  tileIssue_canonical hs _ _ _ _ _ _ (fun x w l hx => by
    dsimp only
    split <;> simp [hx])

theorem execMrel_canonical (L : BitVec 4) (t : BitVec 2) : Canonical (execMrel L t s) :=
  tileIssue_canonical hs _ _ _ _ _ _ (fun x w l hx => by
    dsimp only
    split <;> simp [hx])

theorem execSrd_canonical (r : BitVec 11) (d : Reg) : Canonical (execSrd r d s) := by
  unfold execSrd
  dsimp only
  split
  · exact illegalWord_canonical hs
  · split
    · exact illegalWord_canonical hs
    · refine issue_canonical hs _ _ (fun x hx => ?_)
      split <;> simp [hx]

theorem execSwr_canonical (r : BitVec 11) (d : Reg) : Canonical (execSwr r d s) := by
  unfold execSwr
  dsimp only
  split
  · exact illegalWord_canonical hs
  · split
    · exact illegalWord_canonical hs
    · refine issue_canonical hs _ _ (fun x hx => ?_)
      split
      · exact swrLanes_canonical hx _ _
      · split
        · simp [hx]
        · split
          · split <;> simp [hx]
          · split
            · next s1 e => simp [writeCoreReg_wf hx _ _ _ _ s1 e]
            · simp [hx]

theorem execTlbinv_canonical (b a : Reg) : Canonical (execTlbinv b a s) := issue_canonical hs _ _ (fun x hx => by
  split
  · trivial
  · next w _ =>
    dsimp only
    split
    · simp [hx]
    · split
      · simp [hx]
      · rw [canonical_next, finish_mem]
        exact foldl_wf State.flushPage (fun _ p hs => flushPage_wf hs p) _ _ (release_wf hx _ _ _))

theorem execRotinv_canonical (b a : Reg) : Canonical (execRotinv b a s) := issue_canonical hs _ _ (fun x hx => by
  split
  · trivial
  · next w _ =>
    dsimp only
    split
    · simp [hx]
    · split
      · simp [hx]
      · have h := release_wf hx x.cur.core w.curSlot .package
        split
        · simp [h]
        · split
          · simp [h]
          · rw [canonical_next, finish_mem]
            exact foldl_wf State.rotinvPage (fun _ p hs => rotinvPage_wf hs p) _ _ h)

theorem execCmpman_canonical (a d : Reg) : Canonical (execCmpman a d s) := issue_canonical hs _ _ (fun x hx => by
  split
  · trivial
  · simp [hx]
  · next w l t _ _ _ =>
    dsimp only
    split
    · simp [hx]
    · split
      · simp [hx]
      · split
        · simp [hx]
        · simp [hx]
        · split
          · split
            · simp [hx]
            · next s1 e => simp [readWords_wf hx _ _ _ _ _ _ _ s1 e]
          · (repeat' split) <;> simp [hx])

theorem execLnch_canonical (a d : Reg) : Canonical (execLnch a d s) := issue_canonical hs _ _ (fun x hx => by
  split
  · trivial
  · next w _ =>
    dsimp only
    split
    · simp [hx]
    · split
      · simp [hx]
      · rw [canonical_next, finish_mem]
        refine foldl_wf _ (fun s y hs => ?_) _ _ (by simp [hx])
        split <;> simp [hs])

theorem execHalt_canonical (a : Reg) : Canonical (execHalt a s) := issue_canonical hs _ _ (fun x hx => by
  dsimp only
  (repeat' split) <;> simp [hx])

theorem execIcinv_canonical (b a : Reg) : Canonical (execIcinv b a s) := issue_canonical hs _ _ (fun x hx => by
  split
  · trivial
  · next w _ =>
    dsimp only
    split
    · simp [hx]
    · rw [canonical_next, finish_mem]
      refine foldl_wf _ ?_ _ _ (release_wf hx x.cur.core w.curSlot .package)
      exact fun _ _ h => h)

theorem execTlrwRd_canonical (n : BitVec 7) (d : Reg) : Canonical (execTlrwRd n d s) := tlrw_canonical hs _ _ _ (fun x w hx => by simp [hx])

theorem execTlrwWr_canonical (n : BitVec 7) (d : Reg) : Canonical (execTlrwWr n d s) :=
  tlrw_canonical hs _ _ _ (fun x w hx => by split <;> simp [hx])

theorem execRepPfx_canonical (st : BitVec 2) (x y z : Bool) (c : BitVec 6) : Canonical (execRepPfx st x y z c s) := by
  unfold execRepPfx
  (repeat' split) <;> simp [hs]

theorem execModPfx_canonical (f z u : Bool) (r : BitVec 2) (o : Bool) (p : BitVec 2) (q : Bool) (e : BitVec 3) :
    Canonical (execModPfx f z u r o p q e s) := by
  unfold execModPfx
  dsimp only
  (repeat' split) <;> simp [hs]

theorem execLdc32_canonical (L : BitVec 4) (a d : Reg) : Canonical (execLdc32 L a d s) := issue_canonical hs _ _ (fun x hx => by
  (repeat' split) <;> simp [hx])

theorem execSfuComplete_canonical : Canonical (execSfuComplete s) := by
  unfold execSfuComplete
  (repeat' split) <;> simp [endPending_mem, hs]

theorem execWfence_canonical : Canonical (execWfence s) := issue_canonical hs _ _ (fun x hx => by
  dsimp only
  (repeat' split) <;> simp [hx])

theorem execTmldApply_canonical : Canonical (execTmldApply s) := by
  unfold execTmldApply
  split
  · next l _ =>
    split
    · next w f _ _ =>
      have h := engineRead_mem w false 2 l.addr 4096 s
      split
      · trivial
      · split
        · next e => simp [mem_of_snd h e, hs]
        · next e =>
          dsimp only
          split <;> simp [mem_of_snd h e, hs]
    · trivial
  · trivial

theorem execLoadReturn_canonical : Canonical (execLoadReturn s) := arrive_canonical hs _ _

theorem execMonitorTimeout_canonical : Canonical (execMonitorTimeout s) := by
  unfold execMonitorTimeout
  (repeat' split) <;> simp [hs]

theorem execAtomReturn_canonical : Canonical (execAtomReturn s) := arrive_canonical hs _ _

theorem execExit_canonical : Canonical (execExit s) := issue_canonical hs _ _ (fun x hx => by
  (repeat' split) <;> simp [hx])

theorem execGret_canonical : Canonical (execGret s) := issue_canonical hs _ _ (fun x hx => by
  split
  · trivial
  · split
    · simp [hx]
    · split
      · simp [hx]
      · exact gateWait_canonical hx _ _ (fun y hy => by simp [hy]))

theorem execMatrixPass_canonical : Canonical (execMatrixPass s) := by
  unfold execMatrixPass
  dsimp only
  split
  · split
    · next w _ =>
      split
      · next s1 _ e => simp [(matPass_mem s _ _ w).2 s1 (congrArg Prod.fst e), hs]
      · trivial
    · trivial
  · split
    · split <;> simp [hs]
    · trivial

theorem execMldbComplete_canonical : Canonical (execMldbComplete s) := by
  unfold execMldbComplete
  dsimp only
  (repeat' split) <;> simp [hs]

theorem execMloopComplete_canonical : Canonical (execMloopComplete s) := by
  unfold execMloopComplete
  dsimp only
  split
  · rw [canonical_next, settleTiles_mem, completeEngine_mem]
    split
    · simp [hs]
    · exact foldl_wf _ (fun _ _ h => by simp [h]) _ _ (by simp [hs])
  · trivial

theorem execMatrixFault_canonical : Canonical (execMatrixFault s) := by
  unfold execMatrixFault
  dsimp only
  split
  · split
    · next w _ =>
      split
      · next e => simp [mem_of_snd (matPass_mem s _ _ w).1 e, hs]
      · trivial
    · trivial
  · trivial

theorem execXlock_canonical : Canonical (execXlock s) := issue_canonical hs _ _ (fun x hx => by
  dsimp only
  (repeat' split) <;> simp [hx])

theorem execXunlk_canonical : Canonical (execXunlk s) := issue_canonical hs _ _ (fun x hx => by
  (repeat' split) <;> simp [hx])

theorem execBundleRegroup_canonical : Canonical (execBundleRegroup s) := by
  unfold execBundleRegroup
  (repeat' split) <;> simp [hs]

theorem execFpxWindowEnd_canonical : Canonical (execFpxWindowEnd s) := by
  unfold execFpxWindowEnd
  (repeat' split) <;> simp [hs]

theorem execUserTrapDelivery_canonical : Canonical (execUserTrapDelivery s) := by
  unfold execUserTrapDelivery
  (repeat' split) <;> simp [hs]

theorem execFaultRecordPost_canonical : Canonical (execFaultRecordPost s) := by
  unfold execFaultRecordPost
  (repeat' split) <;> simp [hs]

theorem execPageWalkComplete_canonical : Canonical (execPageWalkComplete s) := by
  unfold execPageWalkComplete
  (repeat' split) <;> simp [hs]

theorem execTstatResume_canonical : Canonical (execTstatResume s) :=
  orSame_canonical hs _ (fun t ht => by rw [tstatResume_mem s _ _ t ht]; exact hs)

theorem execTstatSkip_canonical : Canonical (execTstatSkip s) := orSame_canonical hs _ (tstatSkip_wf hs _ _)

theorem execTstatDeliver_canonical : Canonical (execTstatDeliver s) := orSame_canonical hs _ (tstatDeliver_wf hs _ _ _)

theorem execTstatEndLaunch_canonical : Canonical (execTstatEndLaunch s) := orSame_canonical hs _ (tstatEnd_wf hs _ _)

theorem execFqheadWrite_canonical : Canonical (execFqheadWrite s) := by
  simp [execFqheadWrite, hs]

theorem execFqsizeWrite_canonical : Canonical (execFqsizeWrite s) := by
  simp [execFqsizeWrite, hs]

theorem execMeetvWrite_canonical : Canonical (execMeetvWrite s) := meetvWrite_canonical hs

theorem execDpartWrite_canonical : Canonical (execDpartWrite s) := by
  unfold execDpartWrite
  split
  · trivial
  · exact orSame_canonical hs _ (writeDpart_wf hs _ _ _)

theorem execPartcfgWrite_canonical : Canonical (execPartcfgWrite s) := orSame_canonical hs _ (writePartcfg_wf hs _)

theorem execEothiWrite_canonical : Canonical (execEothiWrite s) := by
  unfold execEothiWrite
  (repeat' split) <;> simp [hs]

theorem execEpsmaxsetWrite_canonical : Canonical (execEpsmaxsetWrite s) := orSame_canonical hs _ (announce_wf hs _ _)

theorem execDlvbsetWrite_canonical : Canonical (execDlvbsetWrite s) := orSame_canonical hs _ (announce_wf hs _ _)

theorem execMigctlSwitch_canonical : Canonical (execMigctlSwitch s) := by
  unfold execMigctlSwitch
  (repeat' split) <;> simp [hs]

theorem execRegisterWrite_canonical : Canonical (execRegisterWrite s) := by
  unfold execRegisterWrite
  dsimp only
  split
  · split <;> simp [hs]
  · split
    · split
      · split <;> simp [hs]
      · trivial
    · split
      · exact meetvWrite_canonical hs
      · split
        · split
          · split <;> simp [hs]
          · trivial
        · exact orSame_canonical hs _ (writeCoreReg_wf hs _ _ _ _)

theorem execAsyncFlagArrival_canonical : Canonical (execAsyncFlagArrival s) := by
  unfold execAsyncFlagArrival
  (repeat' split) <;> simp [hs]

theorem execDirtyLineWriteback_canonical : Canonical (execDirtyLineWriteback s) := by
  unfold execDirtyLineWriteback
  dsimp only
  (repeat' split) <;> simp [hs]

theorem execHomeApply_canonical : Canonical (execHomeApply s) := by
  unfold execHomeApply
  (repeat' split) <;> simp [hs]

theorem execVatApply_canonical : Canonical (execVatApply s) := by
  unfold execVatApply
  (repeat' split) <;> simp [hs]

theorem execRouterMerge_canonical : Canonical (execRouterMerge s) := by
  unfold execRouterMerge
  (repeat' split) <;> simp [hs]

theorem execDualBackgroundCopy_canonical : Canonical (execDualBackgroundCopy s) := by
  unfold execDualBackgroundCopy
  (repeat' split) <;> simp [hs]

theorem execDispatchPlace_canonical : Canonical (execDispatchPlace s) := by
  unfold execDispatchPlace
  split
  · split
    · trivial
    · split
      · next s1 e => exact placeFirst_wf hs _ _ s1 e
      · trivial
  · trivial

theorem execWarpEnd_canonical : Canonical (execWarpEnd s) := by
  unfold execWarpEnd
  dsimp only
  (repeat' split) <;> simp [hs]

theorem execLaunchComplete_canonical : Canonical (execLaunchComplete s) := by
  unfold execLaunchComplete
  dsimp only
  (repeat' split) <;> simp [hs]

theorem execSerialUnitStart_canonical : Canonical (execSerialUnitStart s) := by
  unfold execSerialUnitStart
  dsimp only
  split
  · next l _ =>
    split
    · have h := settleCores_wf hs l
      split
      all_goals
        split
        · trivial
        · split
          · next s2 e => exact placeUnit_wf h _ _ _ _ s2 e
          · trivial
    · trivial
  · trivial

theorem execSerialStall_canonical : Canonical (execSerialStall s) := by
  unfold execSerialStall
  dsimp only
  split
  · next l _ =>
    split
    · split
      · trivial
      · rw [canonical_next]
        refine concludeLaunch_wf ?_ _ _ _ _
        split
        · exact settleCores_wf (drain_wf (by simp [hs]) _) l
        · exact undoLaunch_wf (settleCores_wf (drain_wf (by simp [hs]) _) l) _
    · trivial
  · trivial

theorem execCheckpointDue_canonical : Canonical (execCheckpointDue s) := by
  unfold execCheckpointDue
  dsimp only
  (repeat' split) <;> simp [hs]

theorem execCheckpointSave_canonical : Canonical (execCheckpointSave s) := by
  unfold execCheckpointSave
  dsimp only
  (repeat' split) <;> simp [hs]

theorem execPreemptRollback_canonical : Canonical (execPreemptRollback s) := by
  unfold execPreemptRollback
  dsimp only
  (repeat' split) <;> simp [hs]

theorem execPreemptDrain_canonical : Canonical (execPreemptDrain s) := by
  unfold execPreemptDrain
  dsimp only
  (repeat' split) <;> simp [hs]

theorem execCopyEngineStart_canonical : Canonical (execCopyEngineStart s) := by
  unfold execCopyEngineStart
  split
  · split
    · next s1 e => exact copyUnits_wf hs _ _ _ s1 e
    · trivial
  · split
    · split <;> simp [hs]
    · trivial

theorem execBudgetSuspend_canonical : Canonical (execBudgetSuspend s) := by
  unfold execBudgetSuspend
  split
  · split
    · next s1 e =>
      have h := putBack_wf hs _ _ _ s1 e
      split <;> simp [h]
    · trivial
  · trivial

theorem execPriorityTakeover_canonical : Canonical (execPriorityTakeover s) := by
  unfold execPriorityTakeover
  split
  · split
    · split
      · next s1 e => simp [putBack_wf hs _ _ _ s1 e]
      · trivial
    · trivial
  · trivial

theorem execBudgetRefill_canonical : Canonical (execBudgetRefill s) := by
  unfold execBudgetRefill
  (repeat' split) <;> simp [hs]

theorem execCopyComplete_canonical : Canonical (execCopyComplete s) := by
  unfold execCopyComplete
  split
  · split
    · next s1 _ e =>
      have h := copyUnits_wf hs _ _ _ s1 e
      split <;> simp [h]
    · trivial
  · trivial

theorem execEnginePageFault_canonical : Canonical (execEnginePageFault s) := by
  unfold execEnginePageFault
  split
  · split
    · next s1 e =>
      have h := copyUnits_wf hs _ _ _ s1 e
      split
      · dsimp only
        (repeat' split) <;> simp [h]
      · trivial
    · trivial
  · trivial

theorem execTimeBeatSend_canonical : Canonical (execTimeBeatSend s) := by
  unfold execTimeBeatSend
  (repeat' split) <;> simp [hs]

theorem execTimeBeatReceive_canonical : Canonical (execTimeBeatReceive s) := by
  unfold execTimeBeatReceive
  dsimp only
  (repeat' split) <;> simp [hs]

theorem execReferenceLock_canonical : Canonical (execReferenceLock s) := by
  unfold execReferenceLock
  (repeat' split) <;> simp [hs]

theorem execDeckleFail_canonical : Canonical (execDeckleFail s) := by
  unfold execDeckleFail
  (repeat' split) <;> simp [hs]

theorem execNeighbourSilence_canonical : Canonical (execNeighbourSilence s) := by
  unfold execNeighbourSilence
  dsimp only
  (repeat' split) <;> simp [hs]

theorem execTimeExclusionNotice_canonical : Canonical (execTimeExclusionNotice s) := by
  unfold execTimeExclusionNotice
  (repeat' split) <;> simp [hs]

theorem execRejoin_canonical : Canonical (execRejoin s) := by
  unfold execRejoin
  dsimp only
  (repeat' split) <;> simp [hs]

theorem execRejoinNotice_canonical : Canonical (execRejoinNotice s) := by
  simp [execRejoinNotice, hs]

theorem execParamNotice_canonical : Canonical (execParamNotice s) := by
  simp [execParamNotice, hs]

theorem execParamSwitch_canonical : Canonical (execParamSwitch s) := by
  unfold execParamSwitch
  (repeat' split) <;> simp [hs]

theorem execStstHoldEnd_canonical : Canonical (execStstHoldEnd s) := by
  unfold execStstHoldEnd
  (repeat' split) <;> simp [hs]

theorem execStampedArrival_canonical : Canonical (execStampedArrival s) := by
  simp [execStampedArrival, hs]

theorem execLdatServe_canonical : Canonical (execLdatServe s) := by
  unfold execLdatServe
  split
  · split
    · split
      · next x w _ _ =>
        split
        · trivial
        · have h := recRef_mem s w false x.va
          split <;> next e => simp [mem_of_snd h e, hs]
      · trivial
    · trivial
  · trivial

theorem execWindowRequestArrival_canonical : Canonical (execWindowRequestArrival s) := by
  unfold execWindowRequestArrival
  dsimp only
  (repeat' split) <;> simp [hs]

theorem execWindowRefusal_canonical : Canonical (execWindowRefusal s) := by
  unfold execWindowRefusal
  (repeat' split) <;> simp [hs]

theorem execWindowAck_canonical : Canonical (execWindowAck s) := by
  unfold execWindowAck
  (repeat' split) <;> simp [hs]

theorem execWindowReadReturn_canonical : Canonical (execWindowReadReturn s) := by
  unfold execWindowReadReturn
  split
  · dsimp only
    (repeat' split) <;> simp [hs]
  · exact arrive_canonical hs _ _

theorem execFlitCrcFail_canonical : Canonical (execFlitCrcFail s) := by
  unfold execFlitCrcFail
  dsimp only
  (repeat' split) <;> simp [hs]

theorem execLinkDown_canonical : Canonical (execLinkDown s) := by
  unfold execLinkDown
  (repeat' split) <;> simp [hs]

theorem execPortUp_canonical : Canonical (execPortUp s) := by
  unfold execPortUp
  dsimp only
  (repeat' split) <;> simp [hs]

theorem execLinkFailureNotice_canonical : Canonical (execLinkFailureNotice s) := by
  simp [execLinkFailureNotice, hs]

theorem execHostMailboxWrite_canonical : Canonical (execHostMailboxWrite s) := by
  unfold execHostMailboxWrite
  dsimp only
  (repeat' split) <;> simp [hs]

theorem execHostRead_canonical : Canonical (execHostRead s) := by
  unfold execHostRead
  dsimp only
  (repeat' split) <;> simp [hs]

theorem execPowerOnBoot_canonical : Canonical (execPowerOnBoot s) := by
  unfold execPowerOnBoot
  dsimp only
  (repeat' split) <;> simp [hs]

theorem execPartitionImageStart_canonical : Canonical (execPartitionImageStart s) := by
  unfold execPartitionImageStart
  dsimp only
  (repeat' split) <;> simp [hs]

theorem execQuote_canonical : Canonical (execQuote s) := serveRequest_canonical hs _ _ (fun _ hx => quote_canonical hx)

theorem execManifest_canonical : Canonical (execManifest s) := serveRequest_canonical hs _ _ (fun x hx => by
  split <;> simp [hx])

theorem execRtread_canonical : Canonical (execRtread s) := serveRequest_canonical hs _ _ (fun x hx => by
  dsimp only
  (repeat' split) <;> simp [hx])

theorem execRtwrite_canonical : Canonical (execRtwrite s) := serveRequest_canonical hs _ _ (fun x hx => by
  dsimp only
  (repeat' split) <;> simp [hx])

theorem execRtflip_canonical : Canonical (execRtflip s) := serveRequest_canonical hs _ _ (fun x hx => by simp [hx])

theorem execFabstat_canonical : Canonical (execFabstat s) := serveRequest_canonical hs _ _ (fun x hx => by
  dsimp only
  (repeat' split) <;> simp [hx])

theorem execNotices_canonical : Canonical (execNotices s) := serveRequest_canonical hs _ _ (fun x hx => by simp [hx])

theorem execMaintopen_canonical : Canonical (execMaintopen s) := serveRequest_canonical hs _ _ (fun _ hx => openMaint_canonical hx)

theorem execMaintclose_canonical : Canonical (execMaintclose s) := serveRequest_canonical hs _ _ (fun _ hx => closeMaint_canonical hx)

theorem execReqUnknownCommand_canonical : Canonical (execReqUnknownCommand s) := by
  unfold execReqUnknownCommand
  dsimp only
  split
  · exact serveRequest_canonical hs _ _ (fun _ hx => turnedAway_canonical hx _)
  · trivial

theorem execPartitionSleep_canonical : Canonical (execPartitionSleep s) := by
  unfold execPartitionSleep
  dsimp only
  (repeat' split) <;> simp [hs]

theorem execPartitionWakeEvent_canonical : Canonical (execPartitionWakeEvent s) := by
  unfold execPartitionWakeEvent
  (repeat' split) <;> simp [hs]

@[simp] theorem serveHeld_wf (t : Turn) : Memory.wf (s.serveHeld t).mem = true := by
  cases t with
  | issue c p => exact hs
  | event i e =>
    unfold State.serveHeld
    dsimp only
    split
    · exact hostWrite_wf hs
    · simp [hs]
    · have h : Canonical (execWindowRequestArrival { s with ev := e }) :=
        execWindowRequestArrival_canonical (s := { s with ev := e }) hs
      split
      · next x e => rwa [e] at h
      · exact hs
    · have h : Canonical (({ s with ev := e } : State).landStamped e.bound) :=
        landStamped_canonical (s := { s with ev := e }) hs _
      split
      · next x e => rwa [e] at h
      · exact hs
    · exact hs

theorem execWakeComplete_canonical : Canonical (execWakeComplete s) := by
  unfold execWakeComplete
  dsimp only
  split
  · split
    · exact foldl_wf _ (fun _ t h => serveHeld_wf h t) _ _ (by simp [hs])
    · trivial
  · trivial

theorem execPowerGovernor_canonical : Canonical (execPowerGovernor s) := by
  simp [execPowerGovernor, hs]

theorem execMarginLow_canonical : Canonical (execMarginLow s) := by
  simp [execMarginLow, hs]

theorem execPatrolScrub_canonical : Canonical (execPatrolScrub s) := by
  unfold execPatrolScrub
  (repeat' split) <;> simp [hs]

theorem execMachineCheck_canonical : Canonical (execMachineCheck s) := by
  unfold execMachineCheck
  (repeat' split) <;> simp [hs]

theorem execIllegalEncoding_canonical : Canonical (execIllegalEncoding s) := by
  unfold execIllegalEncoding
  (repeat' split) <;> simp [hs]

theorem execFetchPageFault_canonical : Canonical (execFetchPageFault s) := by
  unfold execFetchPageFault
  (repeat' split) <;> simp [hs]

theorem execDeckleTick_canonical : Canonical (execDeckleTick s) := by
  unfold execDeckleTick
  dsimp only
  (repeat' split) <;> simp [hs]

theorem execServoCandidate_canonical : Canonical (execServoCandidate s) := by
  unfold execServoCandidate
  (repeat' split) <;> simp [hs]

theorem execStampedStoreOutcome_canonical : Canonical (execStampedStoreOutcome s) := by
  unfold execStampedStoreOutcome
  (repeat' split) <;> simp [hs]

theorem execTmResultWritten_canonical : Canonical (execTmResultWritten s) := arrive_canonical hs _ _

theorem execFqbaseWrite_canonical : Canonical (execFqbaseWrite s) := by
  simp [execFqbaseWrite, hs]

theorem execPacketHop_canonical : Canonical (execPacketHop s) := by
  unfold execPacketHop
  dsimp only
  split
  · split
    · next s1 e => simp [hopAcked_mem s _ s1 e, hs]
    · trivial
  · (repeat' split) <;> simp [hs]

theorem exec_canonical (i : Instr) : Canonical (exec i s) := by
  cases i <;> dsimp only [exec]
  case add | sub | mul | mulhu | mulhs | mad | and | or | xor | andn | shl | shru | shrs | rotl | sel | mins | minu | maxs |
  maxu | cmpeq | cmpne | cmplts | cmpltu | cmples | cmpleu | bfx | bfi =>
    exact alu3_canonical hs _ _ _ _
  case addp | addpi | auip | fcmp | dcmp | ld | st | bsig | brdc | atom | red | redTm | bra | bz | bnz | call | lpad | meet |
  timei | commitw | rndm | syncb | yield | nop | brk | eret0 | eret1 | tfence | barsync =>
    exact issue_canonical hs _ _ (fun x hx => by simp [hx])
  case clz | popc | brev | addi | andi | ori | xori | shli | shrui | shrsi | rotli | cmpeqi | cmpltsi | cmpltui | cmpnei | mov16
  | add16 | sub16 | mul16 | and16 | or16 | xor16 | shl16 | shru16 | shrs16 | mins16 | maxs16 =>
    exact alu2_canonical hs _ _ _
  case lui | movi16 | addi16 | subi16 | muli16 | andi16 | ori16 | xori16 | shli16 | shrui16 | shrsi16 | minsi16 | maxsi16 =>
    exact alu1_canonical hs _ _
  case movri a d => exact execMovri_canonical hs a d
  case movro a d => exact execMovro_canonical hs a d
  case fadd16 | fsub16 | fmul16 | fmax16 =>
    exact fp16_canonical hs _ _ _
  case fadd | fsub | fmul | ffma | ffms | fnfma | fmin | fmax | fscalebB0 | fscalebB1 | fscalebB2 | fscalebB3 | hadd2 | hsub2 |
  hmul2 | hfma2 | hmin2 | hmax2 | badd2 | bsub2 | bmul2 | bfma2 | bmin2 | bmax2 | dot8E4m3 | dot8E5m2 | dot4E2m1 =>
    exact fp3_canonical hs _ _ _ _
  case frnd | fcls | fabs | fneg =>
    exact fp2_canonical hs _ _ _
  case dadd | dsub | dmul | dfma | dmin | dmax =>
    exact fpd3_canonical hs _ _ _ _
  case drnd | dabs | dneg =>
    exact fpd2_canonical hs _ _ _
  case cvt t r c e a d => exact execCvt_canonical hs t r c e a d
  case dot8S8 | dot8U8 | dot4S4 =>
    exact dotI_canonical hs _ _ _ _ _ _
  case frcp | frsq | fsqrt | fexp2 | flog2 | fsin | fcos | ftanh =>
    exact sfu00_canonical hs _ _ _ _
  case frcpCr | frsqCr | fsqrtCr =>
    exact sfu01_canonical hs _ _ _ _ _
  case drcp | drsq | dsqrt =>
    exact sfu10_canonical hs _ _ _ _ _
  case shfl | shfllo | shflhi | shflx | bcast | qswpH | qswpV | qswpD | qbcast =>
    exact shuffle_canonical hs _ _ _ _
  case voteAny | voteAll | voteBal | matchB | matchF | redwAdd | redwMin | redwMax | scanwAdd | qredAdd | qredMin | qredMax =>
    exact gather_canonical hs _ _ _ _
  case tilep sx d => exact execTilep_canonical hs sx d
  case fredwAdd | fredwMin | fredwMax =>
    exact fredw_canonical hs _ _ _
  case tmclr | tmexit =>
    exact tmIssue_canonical hs _ _ _ _ _ _
  case tment L a d => exact execTment_canonical hs L a d
  case tmacc L a d => exact execTmacc_canonical hs L a d
  case tmmrg L a d => exact execTmmrg_canonical hs L a d
  case tmredw L d => exact execTmredw_canonical hs L d
  case tmld L sx a d => exact execTmld_canonical hs L sx a d
  case lds L z a d => exact execLds_canonical hs L z a d
  case ldsSync L a d => exact execLdsSync_canonical hs L a d
  case ldsPeek L a d => exact execLdsPeek_canonical hs L a d
  case sts L z a d => exact execSts_canonical hs L z a d
  case stsSync L a d => exact execStsSync_canonical hs L a d
  case stsFill L a d => exact execStsFill_canonical hs L a d
  case stsEmpty L a => exact execStsEmpty_canonical hs L a
  case ldx | stx =>
    exact elemIssue_canonical hs _ _ _ _ _ _
  case pref k a => exact execPref_canonical hs k a
  case fence e k sx => exact execFence_canonical hs e k sx
  case waita o k z a d => exact execWaita_canonical hs o k z a d
  case bwait b a => exact execBwait_canonical hs b a
  case waitc c n => exact execWaitc_canonical hs c n
  case atoms L ar sc o a d => exact execAtoms_canonical hs L ar sc o a d
  case ret a => exact execRet_canonical hs a
  case jtab b a => exact execJtab_canonical hs b a
  case callt b a d => exact execCallt_canonical hs b a d
  case trap a => exact execTrap_canonical hs a
  case gcall n => exact execGcall_canonical hs n
  case stst L a d => exact execStst_canonical hs L a d
  case ldat L a d => exact execLdat_canonical hs L a d
  case cpy | cpytIn | cpytOut | halo =>
    exact copyIssue_canonical hs _ _ _ _
  case wstr L sx a d => exact execWstr_canonical hs L sx a d
  case wget L sx a d => exact execWget_canonical hs L sx a d
  case wcnt L c a d => exact execWcnt_canonical hs L c a d
  case wwait q c a d => exact execWwait_canonical hs q c a d
  case mloop L sx a d => exact execMloop_canonical hs L sx a d
  case mldb L a d => exact execMldb_canonical hs L a d
  case mrd L t a d => exact execMrd_canonical hs L t a d
  case mwm L t d => exact execMwm_canonical hs L t d
  case mzero L t => exact execMzero_canonical hs L t
  case mrel L t => exact execMrel_canonical hs L t
  case srd r d => exact execSrd_canonical hs r d
  case swr r d => exact execSwr_canonical hs r d
  case tlbinv b a => exact execTlbinv_canonical hs b a
  case rotinv b a => exact execRotinv_canonical hs b a
  case cmpman a d => exact execCmpman_canonical hs a d
  case lnch a d => exact execLnch_canonical hs a d
  case chkpTake | chkpPreempt | chkpResume =>
    exact chkp_canonical hs _ _ _
  case halt a => exact execHalt_canonical hs a
  case icinv b a => exact execIcinv_canonical hs b a
  case tlrwRd n d => exact execTlrwRd_canonical hs n d
  case tlrwWr n d => exact execTlrwWr_canonical hs n d
  case repPfx sx x y z c => exact execRepPfx_canonical hs sx x y z c
  case modPfx f z u r o p q e => exact execModPfx_canonical hs f z u r o p q e
  case divs | divu | rems | remu | byteperm =>
    exact compat_canonical hs _ _ _ _
  case ldc32 L a d => exact execLdc32_canonical hs L a d
  case sfuComplete => exact execSfuComplete_canonical hs
  case wfence => exact execWfence_canonical hs
  case tmldApply => exact execTmldApply_canonical hs
  case loadReturn => exact execLoadReturn_canonical hs
  case monitorTimeout => exact execMonitorTimeout_canonical hs
  case atomReturn => exact execAtomReturn_canonical hs
  case exit => exact execExit_canonical hs
  case gret => exact execGret_canonical hs
  case matrixPass => exact execMatrixPass_canonical hs
  case mldbComplete => exact execMldbComplete_canonical hs
  case mloopComplete => exact execMloopComplete_canonical hs
  case matrixFault => exact execMatrixFault_canonical hs
  case xlock => exact execXlock_canonical hs
  case xunlk => exact execXunlk_canonical hs
  case bundleRegroup => exact execBundleRegroup_canonical hs
  case fpxWindowEnd => exact execFpxWindowEnd_canonical hs
  case userTrapDelivery => exact execUserTrapDelivery_canonical hs
  case faultRecordPost => exact execFaultRecordPost_canonical hs
  case pageWalkComplete => exact execPageWalkComplete_canonical hs
  case tstatResume => exact execTstatResume_canonical hs
  case tstatSkip => exact execTstatSkip_canonical hs
  case tstatDeliver => exact execTstatDeliver_canonical hs
  case tstatEndLaunch => exact execTstatEndLaunch_canonical hs
  case fqheadWrite => exact execFqheadWrite_canonical hs
  case fqsizeWrite => exact execFqsizeWrite_canonical hs
  case meetvWrite => exact execMeetvWrite_canonical hs
  case dpartWrite => exact execDpartWrite_canonical hs
  case partcfgWrite => exact execPartcfgWrite_canonical hs
  case eothiWrite => exact execEothiWrite_canonical hs
  case epsmaxsetWrite => exact execEpsmaxsetWrite_canonical hs
  case dlvbsetWrite => exact execDlvbsetWrite_canonical hs
  case migctlSwitch => exact execMigctlSwitch_canonical hs
  case registerWrite => exact execRegisterWrite_canonical hs
  case asyncFlagArrival => exact execAsyncFlagArrival_canonical hs
  case dirtyLineWriteback => exact execDirtyLineWriteback_canonical hs
  case homeApply => exact execHomeApply_canonical hs
  case vatApply => exact execVatApply_canonical hs
  case routerMerge => exact execRouterMerge_canonical hs
  case dualBackgroundCopy => exact execDualBackgroundCopy_canonical hs
  case dispatchPlace => exact execDispatchPlace_canonical hs
  case warpEnd => exact execWarpEnd_canonical hs
  case launchComplete => exact execLaunchComplete_canonical hs
  case serialUnitStart => exact execSerialUnitStart_canonical hs
  case serialStall => exact execSerialStall_canonical hs
  case checkpointDue => exact execCheckpointDue_canonical hs
  case checkpointSave => exact execCheckpointSave_canonical hs
  case preemptRollback => exact execPreemptRollback_canonical hs
  case preemptDrain => exact execPreemptDrain_canonical hs
  case copyEngineStart => exact execCopyEngineStart_canonical hs
  case budgetSuspend => exact execBudgetSuspend_canonical hs
  case priorityTakeover => exact execPriorityTakeover_canonical hs
  case budgetRefill => exact execBudgetRefill_canonical hs
  case copyComplete => exact execCopyComplete_canonical hs
  case enginePageFault => exact execEnginePageFault_canonical hs
  case timeBeatSend => exact execTimeBeatSend_canonical hs
  case timeBeatReceive => exact execTimeBeatReceive_canonical hs
  case referenceLock => exact execReferenceLock_canonical hs
  case deckleFail => exact execDeckleFail_canonical hs
  case neighbourSilence => exact execNeighbourSilence_canonical hs
  case timeExclusionNotice => exact execTimeExclusionNotice_canonical hs
  case rejoin => exact execRejoin_canonical hs
  case rejoinNotice => exact execRejoinNotice_canonical hs
  case paramNotice => exact execParamNotice_canonical hs
  case paramSwitch => exact execParamSwitch_canonical hs
  case ststHoldEnd => exact execStstHoldEnd_canonical hs
  case stampedArrival => exact execStampedArrival_canonical hs
  case ldatServe => exact execLdatServe_canonical hs
  case windowRequestArrival => exact execWindowRequestArrival_canonical hs
  case windowRefusal => exact execWindowRefusal_canonical hs
  case windowAck => exact execWindowAck_canonical hs
  case windowReadReturn => exact execWindowReadReturn_canonical hs
  case flitCrcFail => exact execFlitCrcFail_canonical hs
  case linkDown => exact execLinkDown_canonical hs
  case portUp => exact execPortUp_canonical hs
  case linkFailureNotice => exact execLinkFailureNotice_canonical hs
  case hostMailboxWrite => exact execHostMailboxWrite_canonical hs
  case hostRead => exact execHostRead_canonical hs
  case powerOnBoot => exact execPowerOnBoot_canonical hs
  case partitionImageStart => exact execPartitionImageStart_canonical hs
  case quote => exact execQuote_canonical hs
  case manifest => exact execManifest_canonical hs
  case rtread => exact execRtread_canonical hs
  case rtwrite => exact execRtwrite_canonical hs
  case rtflip => exact execRtflip_canonical hs
  case fabstat => exact execFabstat_canonical hs
  case notices => exact execNotices_canonical hs
  case maintopen => exact execMaintopen_canonical hs
  case maintclose => exact execMaintclose_canonical hs
  case reqUnknownCommand => exact execReqUnknownCommand_canonical hs
  case partitionSleep => exact execPartitionSleep_canonical hs
  case partitionWakeEvent => exact execPartitionWakeEvent_canonical hs
  case wakeComplete => exact execWakeComplete_canonical hs
  case powerGovernor => exact execPowerGovernor_canonical hs
  case marginLow => exact execMarginLow_canonical hs
  case patrolScrub => exact execPatrolScrub_canonical hs
  case machineCheck => exact execMachineCheck_canonical hs
  case illegalEncoding => exact execIllegalEncoding_canonical hs
  case fetchPageFault => exact execFetchPageFault_canonical hs
  case deckleTick => exact execDeckleTick_canonical hs
  case servoCandidate => exact execServoCandidate_canonical hs
  case stampedStoreOutcome => exact execStampedStoreOutcome_canonical hs
  case tmResultWritten => exact execTmResultWritten_canonical hs
  case fqbaseWrite => exact execFqbaseWrite_canonical hs
  case packetHop => exact execPacketHop_canonical hs

/-! A step. -/

theorem runUnit_canonical : Canonical s.runUnit := by
  have h := fetchNext_mem s
  unfold State.runUnit
  split
  · next s1 e =>
    refine exec_canonical ?_ _
    rw [mem_of_snd h e]
    exact hs
  · next s1 e =>
    refine exec_canonical ?_ _
    rw [mem_of_snd h e]
    exact hs
  · next s1 e =>
    refine exec_canonical ?_ _
    rw [mem_of_snd h e]
    exact hs
  · next e => simp [mem_of_snd h e, hs]

theorem firstDue_wf (l : List (Instr × EventData)) : ∀ t ∈ s.firstDue l, Memory.wf t.mem = true := by
  induction l with
  | nil => simp [State.firstDue]
  | cons x l ih =>
    have h : Canonical (exec x.1 { s with ev := x.2 }) := exec_canonical (s := { s with ev := x.2 }) hs x.1
    unfold State.firstDue
    split
    · next s1 e =>
      intro t ht
      cases ht
      rwa [e] at h
    · exact ih

theorem runDefault_canonical : Canonical s.runDefault := by
  unfold State.runDefault
  split
  · next s1 e => exact firstDue_wf hs _ s1 e
  · extract_lets u
    have h : Memory.wf u.mem = true := by simp [u, hs]
    split
    · next c p _ _ =>
      extract_lets s1 s2
      have h1 : Memory.wf s1.mem = true := by
        dsimp only [s1]
        split <;> exact h
      have h2 : Memory.wf s2.mem = true := by
        have ht : Canonical (exec .deckleTick s1) := exec_canonical h1 _
        dsimp only [s2]
        split
        · split
          · next x e => rwa [e] at ht
          · exact h1
        · exact h1
      split
      · next s3 e =>
        refine runUnit_canonical ?_
        rw [grant_mem s2 c p s3 e]
        exact h2
      · exact h2
    · refine exec_canonical ?_ _
      exact h

theorem takeTurn_canonical (t : Turn) : Canonical (s.takeTurn t) := by
  cases t with
  | event i e =>
    unfold State.takeTurn
    dsimp only
    split
    · exact exec_canonical (s := { s with ev := e }) hs i
    · trivial
  | issue c p =>
    unfold State.takeTurn
    dsimp only
    split
    · next s1 e =>
      refine runUnit_canonical ?_
      rw [grant_mem s c p s1 e]
      exact hs
    · simp [hs]

theorem step_canonical : Canonical (step s) := by
  unfold step
  split
  · exact runUnit_canonical hs
  · split
    · refine takeTurn_canonical ?_ _
      exact hs
    · exact runDefault_canonical hs

end

/-- Settles O6. What a step runs, an instruction or an event, leaves memory as it is or writes it through the homes. -/
theorem canonicalMemoryKept : Obligations.CanonicalMemoryKept := by
  intro s t hs h
  have e := step_canonical hs
  rwa [h] at e

end Sys2Proof.Machine
end
